-- ==== Sys2Proof/Word.lean ====
section
/-! DEFINITION. The word types of the Limulo Z4 (R7, R67) and the keyed table that holds sparse storage. -/

namespace Sys2Proof

/-- A 64-bit word: scalar registers, control registers, instruction words (R67, R152). -/
abbrev Word := BitVec 64

/-- One byte. -/
abbrev Byte := BitVec 8

/-- A 32-bit vector container (R287). -/
abbrev Cont := BitVec 32

/-- Sparse storage: key and value, keys strictly rising, no value equal to what an unlisted key
reads as. -/
abbrev Tab (α : Type) := List (Nat × α)

end Sys2Proof
end

