-- ==== Sys2Proof/Config.lean ====
section
/-! DEFINITION. What one implementation fixes, and the free values: constants without a body, so that no
proof can rest on a number the spec does not give. -/

namespace Sys2Proof.Config

/-- A fresh 64-bit value for each count of `State.fresh`: whatever the spec leaves open at run time (a
prefix choice of R330, an element of a register being drained R328, a byte of a timed-out write R142,
the measured power R425). DESIGN CHOICE, safe, as a claim holds for every value: log 4. -/
opaque freeValue : Nat → Word

/-- The noise source of a core (R60, R61): the n-th 64-bit word it delivers. DESIGN CHOICE, safe: log 7. -/
opaque noiseWord : (core n : Nat) → Word

/-- The firmware's Ed25519 and ML-DSA-65 signatures over a message of the device (R427, R428), by
message: no key is in the spec. DESIGN CHOICE, safe: log 11. -/
opaque signature : List Byte → List Byte

/-- Whether both signatures over an image verify (R428): the fused keys are not in the spec. DESIGN CHOICE, safe: log 12. -/
opaque verifies : List Byte → Bool

/-- The firmware image of delivery, which the spec does not give; MEAS is its SHA-384 (R427). DESIGN CHOICE, safe: log 11. -/
opaque deliveryImage : List Byte

/-- The device serial number (R427), which the spec does not give. DESIGN CHOICE, safe: log 11. -/
opaque serial : Nat

/-- The power controller's demand on a bed pair's PERIOD for the cap, the derating and the balance
(R416, R418): smallest PERIOD for a modelled power of which the spec gives no figures. Arguments: the
pair and the count of free values. DESIGN CHOICE, safe: log 10. -/
opaque powerDemand : (pair n : Nat) → Nat

/-- The lowest voltage in mV of a die's VCD rail at which its beds meet timing, less 1200 and within the rail's range (R420,
R422), by temperature and tick periods: the spec gives no figures. DESIGN CHOICE, safe: log 10. -/
opaque coreVoltage : (t16 : Int) → (periods : List Nat) → Nat

/-- Whether the identity record of another package advertises compressed migration (R260, R427). DESIGN CHOICE, safe:
log 85. -/
opaque migratesCompressed : (pkg : Nat) → Bool

end Sys2Proof.Config
end

