-- ==== Sys2Proof/Machine/Sha.lean ====
section
/-! DEFINITION. SHA-384 (FIPS 180-4), which MEAS of the identity record is of the firmware image (R427), and integer roots. -/

namespace Sys2Proof.Machine

/-- The largest number from d to d + 2^fuel - 1 whose k-th power is at most m, where that of d is. -/
def rootN (k m : Nat) : Nat → Nat → Nat
  | 0, d => d
  | f + 1, d => if (d + 2 ^ f) ^ k ≤ m then rootN k m f (d + 2 ^ f) else rootN k m f d

namespace Sha

/-- The first 80 primes: those below 410. -/
def primes : List Nat := (List.range 410).filter (fun p => 2 ≤ p && (List.range 21).all (fun d => d < 2 || d = p || p % d ≠ 0))

/-- The first 64 bits of the fraction of a prime's k-th root. -/
def fraction (k p : Nat) : Word := BitVec.ofNat 64 (rootN k (p * 2 ^ (64 * k)) 70 0)

/-- The constants of the 80 rounds: cube roots of the first 80 primes. -/
def rounds : List Word := primes.map (fraction 3)

/-- The initial hash value: square roots of the ninth to the sixteenth prime. -/
def start : List Word := ((primes.drop 8).take 8).map (fraction 2)

/-- The big-endian word of eight bytes. -/
def word (bs : List Byte) : Word := BitVec.ofNat 64 (bs.foldl (fun a b => a * 256 + b.toNat) 0)

/-- The n big-endian bytes of a number. -/
def bytes (n v : Nat) : List Byte := (List.range n).map (fun i => BitVec.ofNat 8 (v / 256 ^ (n - 1 - i)))

/-- A message padded to whole blocks of 128 bytes. -/
def pad (m : List Byte) : List Byte :=
  m ++ 0x80#8 :: List.replicate ((239 - m.length % 128) % 128) 0x00#8 ++ bytes 16 (8 * m.length)

/-- n further words of the message schedule, the latest first. -/
def extend : Nat → List Word → List Word
  | 0, w => w
  | n + 1, w =>
    let x := w.getD 1 0
    let y := w.getD 14 0
    let s1 := x.rotateRight 19 ^^^ x.rotateRight 61 ^^^ (x >>> 6)
    let s0 := y.rotateRight 1 ^^^ y.rotateRight 8 ^^^ (y >>> 7)
    extend n ((s1 + w.getD 6 0 + s0 + w.getD 15 0) :: w)

/-- The 80 words of the message schedule of a block. -/
def schedule (b : List Byte) : List Word :=
  (extend 64 ((List.range 16).map (fun i => word ((b.drop (8 * i)).take 8))).reverse).reverse

/-- One round over the eight working words: the constant, the word of the schedule. -/
def step (v : List Word) (kw : Word × Word) : List Word :=
  let at_ (i : Nat) : Word := v.getD i 0
  let a := at_ 0
  let e := at_ 4
  let t1 := at_ 7 + (e.rotateRight 14 ^^^ e.rotateRight 18 ^^^ e.rotateRight 41) + ((e &&& at_ 5) ^^^ (~~~e &&& at_ 6)) + kw.1 + kw.2
  let t2 := (a.rotateRight 28 ^^^ a.rotateRight 34 ^^^ a.rotateRight 39) + ((a &&& at_ 1) ^^^ (a &&& at_ 2) ^^^ (at_ 1 &&& at_ 2))
  [t1 + t2, a, at_ 1, at_ 2, at_ 3 + t1, e, at_ 5, at_ 6]

/-- A block of 128 bytes enters the hash value. -/
def block (h : List Word) (b : List Byte) : List Word :=
  List.zipWith (· + ·) h ((rounds.zip (schedule b)).foldl step h)

/-- The blocks of a padded message enter the hash value, at most n of them. -/
def blocks : Nat → List Word → List Byte → List Word
  | 0, h, _ => h
  | n + 1, h, m => if m.isEmpty then h else blocks n (block h (m.take 128)) (m.drop 128)

end Sha

/-- SHA-384 of a message: 48 bytes. -/
def sha384 (m : List Byte) : List Byte :=
  let p := Sha.pad m
  ((Sha.blocks p.length Sha.start p).take 6).flatMap (fun w => Sha.bytes 8 w.toNat)

end Sys2Proof.Machine
end

