-- ==== Sys2Proof/Syntax.lean ====
section
/-! DEFINITION. The abstract instructions: the formats of R71-R78 as records, and one constructor per
row of the opcode table. The rows that are no instruction words are events (95_what_each_step_holds). -/

namespace Sys2Proof

/-- SREG (R71). -/
structure SregW where
  ramp : Nat
  d : Nat
  a : Nat
  b : Nat
  ty : Nat
  c : Nat
  e : Nat
  deriving DecidableEq, Repr

/-- SIMM (R71); `imm` is the raw 36-bit field. -/
structure SimmW where
  ramp : Nat
  d : Nat
  a : Nat
  ty : Nat
  imm : Nat
  deriving DecidableEq, Repr

/-- SWIDE (R71). -/
structure SwideW where
  ramp : Nat
  d : Nat
  h : Nat
  imm : Nat
  deriving DecidableEq, Repr

/-- SMEM (R72); `off` is the raw 23-bit field. -/
structure SmemW where
  ramp : Nat
  d : Nat
  a : Nat
  cl : Nat
  sc : Nat
  ty : Nat
  b : Nat
  off : Nat
  deriving DecidableEq, Repr

/-- SATM (R72) but for AOP, which the constructor says; `off` is the raw 16-bit field. -/
structure SatmW where
  ramp : Nat
  d : Nat
  a : Nat
  cl : Nat
  sc : Nat
  b : Nat
  c : Nat
  off : Nat
  deriving DecidableEq, Repr

/-- SBR (R76); `off` is the raw 29-bit field. -/
structure SbrW where
  ramp : Nat
  d : Nat
  a : Nat
  b : Nat
  cc : Nat
  off : Nat
  deriving DecidableEq, Repr

/-- SSYS (R76). -/
structure SsysW where
  ramp : Nat
  d : Nat
  a : Nat
  k : Nat
  sc : Nat
  mask : Nat
  sel : Nat
  deriving DecidableEq, Repr

/-- VREG (R77). -/
structure VregW where
  ramp : Nat
  vd : Nat
  va : Nat
  vb : Nat
  vc : Nat
  pm : Nat
  fmt : Nat
  rm : Nat
  sa : Nat
  imm : Nat
  deriving DecidableEq, Repr

/-- VMEM (R77); `off` is the raw 19-bit field. -/
structure VmemW where
  ramp : Nat
  vd : Nat
  a : Nat
  cl : Nat
  sc : Nat
  pm : Nat
  fmt : Nat
  b : Nat
  off : Nat
  deriving DecidableEq, Repr

/-- ENG with the EREG payload (R78). -/
structure EregW where
  ramp : Nat
  kp : Nat
  kc0 : Nat
  kc1 : Nat
  kc2 : Nat
  a : Nat
  b : Nat
  c : Nat
  md : Nat
  deriving DecidableEq, Repr

/-- ENG with the ESTAMP payload (R78). -/
structure EstampW where
  ramp : Nat
  kp : Nat
  kc0 : Nat
  kc1 : Nat
  kc2 : Nat
  stamp : Nat
  opf : Nat
  deriving DecidableEq, Repr

/-- The erasing SREG forms that take .k and .b by the one rule of R193. -/
inductive EReg where
  | add3 | sub3 | xor3 | and | or | mul | mulh | shl | shr | sar | mov | clr | ext | norm | popc
  | cmpeq | cmplt | cmplo
  deriving DecidableEq, Repr

/-- The erasing SIMM forms that take .k and .b by the one rule of R193. -/
inductive EImm where
  | andi | ori | shli | shri | sari | movi | bfx | bfi
  deriving DecidableEq, Repr

/-- An erasing form with its fields (R191): what .k and .b vary. -/
inductive EForm where
  | reg (op : EReg) (f : SregW)
  | imm (op : EImm) (f : SimmW)
  | wide (f : SwideW)
  deriving DecidableEq, Repr

/-- The four words that write a control register (R236). -/
inductive CrWrite where
  | wr | swp | set | clr
  deriving DecidableEq, Repr

/-- The atomic operations of R75. -/
inductive Aop where
  | add | min | max | and | or | xor | swp | cas | fadd
  deriving DecidableEq, Repr

/-- The engine queues of a core, numbered as XCAUSE.QUEUE numbers them (R156). -/
inductive EngQ where
  | trellis | copy | graft | bank
  deriving DecidableEq, Repr

/-- An event at a sync word (R36): an expectation of bytes, or landed bytes. -/
inductive SyncEv where
  | expect | land
  deriving DecidableEq, Repr

/-- A host or peer access that arrives over Ultra Ethernet (R144, R426), at physical addresses. -/
inductive RemoteReq where
  | load (addr len : Nat)
  | store (addr : Nat) (bytes : List Byte)
  /-- the endpoint it came from counts where it adds to NOTIFY (R395) -/
  | atomic (aop : Aop) (addr : Nat) (operand compare : Word) (peer : Nat)
  deriving DecidableEq, Repr

/-- What a remote timeout is of (R142): an outstanding access of the core's own, or the access at a virtual address, one
that writes or one that only reads, of the entry that runs at the head of an engine's queue. -/
inductive TimedOut where
  | access (id : Nat)
  | entry (q : EngQ) (va : Nat) (wr : Bool)
  deriving DecidableEq, Repr

/-- A change the LSC makes to the mapping of a unit at a superstep boundary (R254): extent `ext` is evicted, or stands on the
frames at `pbase`, compressed or not, with the expansion point `expt`. -/
structure Move where
  unit : Nat
  ext : Nat
  evict : Bool
  pbase : Nat
  cmp : Bool
  expt : Nat
  deriving DecidableEq, Repr

/-- An exchange at a launch's barrier: the launch, and the changes of mapping the LSC makes in it (R254, R260). -/
structure Exchange where
  lid : Nat
  moves : List Move
  deriving DecidableEq, Repr

/-- What the four sensors of a die read, in 1/16 degC (R422). -/
structure Sensors where
  a : Int
  b : Int
  c : Int
  d : Int
  deriving DecidableEq, Repr

/-- An atomic add to NOTIFY: how many records it submits, and the endpoint it comes from (R388, R395). -/
structure Submission where
  count : Nat
  peer : Nat
  deriving DecidableEq, Repr

/-- An acknowledgement of a gang member: its rank, and GNP as its launch record has it (R391, R414). -/
structure GangMember where
  rank : Nat
  gnp : Nat
  deriving DecidableEq, Repr

/-- One constructor per row of the opcode table: first the instruction words, then the events. -/
inductive Instr where
  -- NOP (R200)
  | nop (f : SsysW)
  -- reversible SREG forms (R189) and the permuter (R198, R199)
  | add (f : SregW)
  | sub (f : SregW)
  | xor (f : SregW)
  | neg (f : SregW)
  | rol (f : SregW)
  | mulo (f : SregW)
  | swap (f : SregW)
  | cswap (f : SregW)
  | bperm (f : SregW)
  | bpermE (f : SregW)
  -- reversible SIMM forms (R189)
  | addi (f : SimmW)
  | xori (f : SimmW)
  | roli (f : SimmW)
  | muloi (f : SimmW)
  | xorw (f : SwideW)
  -- erasing SREG forms (R191, R195)
  | add3 (f : SregW)
  | sub3 (f : SregW)
  | xor3 (f : SregW)
  | and (f : SregW)
  | or (f : SregW)
  | mul (f : SregW)
  | mulh (f : SregW)
  | min (f : SregW)
  | max (f : SregW)
  | minK (f : SregW)
  | maxK (f : SregW)
  | minB (f : SregW)
  | maxB (f : SregW)
  | keepForm (f : EForm)
  | backForm (f : EForm)
  | shl (f : SregW)
  | shr (f : SregW)
  | sar (f : SregW)
  | mov (f : SregW)
  | clr (f : SregW)
  | ext (f : SregW)
  | norm (f : SregW)
  | popc (f : SregW)
  | cmpeq (f : SregW)
  | cmplt (f : SregW)
  | cmplo (f : SregW)
  -- erasing SIMM and SWIDE forms (R191)
  | andi (f : SimmW)
  | ori (f : SimmW)
  | shli (f : SimmW)
  | shri (f : SimmW)
  | sari (f : SimmW)
  | movi (f : SimmW)
  | movw (f : SwideW)
  | bfx (f : SimmW)
  | bfi (f : SimmW)
  -- BPLD (R197)
  | bpld (f : SmemW)
  -- control flow (R201-R204)
  | bc (f : SbrW)
  | call (f : SbrW)
  | ret (f : SbrW)
  | loop (f : SbrW)
  -- loads and stores (R212)
  | ld (f : SmemW)
  | ldx (f : SmemW)
  | st (f : SmemW)
  | stx (f : SmemW)
  | swpm (f : SmemW)
  -- atomics (R214)
  | atomAdd (f : SatmW)
  | atomMin (f : SatmW)
  | atomMax (f : SatmW)
  | atomAnd (f : SatmW)
  | atomOr (f : SatmW)
  | atomXor (f : SatmW)
  | atomSwp (f : SatmW)
  | atomCas (f : SatmW)
  | atomFadd (f : SatmW)
  -- ordering, waits, handles, supersteps (R216-R229)
  | fence (f : SsysW)
  | tmark (f : SsysW)
  | twait (f : SsysW)
  | syexp (f : SsysW)
  | syarr (f : SsysW)
  | sywait (f : SsysW)
  | qwait (f : SsysW)
  | hclaim (f : SsysW)
  | hrel (f : SsysW)
  | wsend (f : SsysW)
  | xbar (f : SsysW)
  | pgreq (f : SsysW)
  -- the trug words (R230-R234)
  | hpush (f : SsysW)
  | hpop (f : SsysW)
  | hspill (f : SsysW)
  | hfill (f : SsysW)
  | hmark (f : SsysW)
  | hchk (f : SsysW)
  | hdrop (f : SsysW)
  | erase (f : SsysW)
  -- vector memory words (R297)
  | vld (f : VmemW)
  | vldx (f : VmemW)
  | vst (f : VmemW)
  | vstx (f : VmemW)
  | vswpm (f : VmemW)
  -- vector words (R299-R311)
  | vadd (f : VregW)
  | vsub (f : VregW)
  | vmul (f : VregW)
  | vfma (f : VregW)
  | vmin (f : VregW)
  | vmax (f : VregW)
  | vabs (f : VregW)
  | vneg (f : VregW)
  | vand (f : VregW)
  | vor (f : VregW)
  | vxor (f : VregW)
  | vshl (f : VregW)
  | vshr (f : VregW)
  | vsar (f : VregW)
  | vradd (f : VregW)
  | vrsub (f : VregW)
  | vrxor (f : VregW)
  | vswap (f : VregW)
  | vcmpeq (f : VregW)
  | vcmplt (f : VregW)
  | vcmple (f : VregW)
  | vclass (f : VregW)
  | vsel (f : VregW)
  | vcvt (f : VregW)
  | vscacc (f : VregW)
  | vredr (f : VregW)
  | vredrScalar (f : VregW)
  | vredc (f : VregW)
  | vrot (f : VregW)
  | vbcast (f : VregW)
  | vxcol (f : VregW)
  | vrcp (f : VregW)
  | vrsq (f : VregW)
  | vexp2 (f : VregW)
  | vamax (f : VregW)
  | vamaxClr (f : VregW)
  | vmovs (f : VregW)
  | vmovsAll (f : VregW)
  | vmovv (f : VregW)
  | vpand (f : VregW)
  | vpor (f : VregW)
  | vpnot (f : VregW)
  | vpany (f : VregW)
  -- trellis words (R316-R333)
  | tfetchRow (f : EregW)
  | tfetchCol (f : EregW)
  | tloadw (f : EregW)
  | tswap (f : EstampW)
  | tmac (f : EstampW)
  | tmacb (f : EstampW)
  | tdrain (f : EregW)
  | tdrainVec (f : EregW)
  | tdrainb (f : EregW)
  | anorm (f : EregW)
  | aclr (f : EregW)
  | torg (f : EregW)
  | tstat (f : EregW)
  | tnop (f : EstampW)
  -- copy words (R274)
  | cpy (f : EregW)
  | cpyt (f : EregW)
  | cpgath (f : EregW)
  | cpscat (f : EregW)
  | cpfill (f : EregW)
  | cpxor (f : EregW)
  | cpswp (f : EregW)
  | cpstat (f : EregW)
  -- graft words (R349)
  | graftAppend (f : EregW)
  | graftSum (f : EregW)
  | graftSplit (f : EregW)
  | gproj (f : EregW)
  | gload (f : EregW)
  | gstore (f : EregW)
  | gsetm (f : EregW)
  | gsetb (f : EregW)
  | gclr (f : EregW)
  | gstat (f : EregW)
  | gstatInfo (f : EregW)
  -- bank words (R375)
  | batomAdd (f : EregW)
  | batomMin (f : EregW)
  | batomMax (f : EregW)
  | batomAnd (f : EregW)
  | batomOr (f : EregW)
  | batomXor (f : EregW)
  | batomSwp (f : EregW)
  | batomCas (f : EregW)
  | batomFadd (f : EregW)
  | bred (f : EregW)
  | bcollAllreduce (f : EregW)
  | bcollRedscat (f : EregW)
  | bcollAllgath (f : EregW)
  | bcollBcast (f : EregW)
  | bdig (f : EregW)
  | bcopy (f : EregW)
  | bfill (f : EregW)
  | bseed (f : EregW)
  | bstat (f : EregW)
  | bstatInfo (f : EregW)
  -- system and trap words (R235)
  | trap (f : SsysW)
  | sret (f : SsysW)
  | crrd (f : SsysW)
  | crwr (f : SsysW)
  | crswp (f : SsysW)
  | crset (f : SsysW)
  | crclr (f : SsysW)
  | uhtopWrite (how : CrWrite) (f : SsysW)
  | safept (f : SsysW)
  | dbgbrk (f : SsysW)
  | replay (f : SsysW)
  | done (f : SsysW)
  | kill (f : SsysW)
  -- events: no instruction word decodes to one, but for illegalInstruction
  | bedResume (bed : Nat)
  | memoryReply (core id : Nat)
  | postBufferRoom (core : Nat)
  | writeAcknowledgement (core id : Nat)
  | remoteTimeout (core : Nat) (what : TimedOut)
  | neighbourWordLanding (core : Nat)
  | statusWordPush (core : Nat) (q : EngQ)
  | syncWordEvent (ev : SyncEv) (addr n : Nat)
  | trellisEntryStart (core : Nat)
  | stampTick (core : Nat)
  | trellisEntryCompletion (core : Nat)
  | engineEntryStart (core : Nat) (q : EngQ)
  | syncTagPosting (core : Nat)
  | engineEntryCompletion (core : Nat) (q : EngQ)
  | sieveVote (job cgid : Nat)
  | pageServiced (core extent : Nat) (ok : Bool)
  | barrierAdvance (job : Nat) (lid : Exchange)
  | budgetExpiry (core : Nat)
  | notify (n : Submission)
  | cread (n : Nat)
  | unitStart (job lid unit : Nat)
  | unitSave (core : Nat)
  | gangAck (job gang : Nat) (rank : GangMember)
  | gangAbort (job gang : Nat)
  | remoteAccess (r : RemoteReq)
  | correctableError (bed : Nat)
  | freezeEnd (bed : Nat)
  | temperatureSample (die : Nat) (t16 : Sensors)
  | pwrcap (v : Word)
  | phaseLoss (rail : Nat)
  | thermalTrip (die : Nat)
  | apertureRegisterWrite (die n reg : Nat) (v : Word)
  | preset (v : Word)
  | rdoor (n : Nat)
  | attestationRequest (nonce : Nat)
  | scheduleTick (bed : Nat)
  | illegalInstruction (w : Word)
  | trapEntry
  | preemptionStop
  | launchRecord
  | cancelRecord
  | replayRecord
  | resumeBed
  | haltBed
  | close
  | openJob
  | endJob
  | launchPlacement
  | launchAgeing (job lid : Nat)
  | completionRecordWrite
  | powerOn
  | fetchFault
  | lossOfInputPower
  deriving DecidableEq, Repr

end Sys2Proof
end

