-- ==== Sys2Proof/Machine/State.lean ====
section
/-! DEFINITION. The machine's state as plain data, its reset, and the reasons a step can stop.
The rule of spec/ that names a piece of state stands at its field; INVENTORY.md lists them all. -/

namespace Sys2Proof.Machine

/-- The two views of R41. -/
inductive View where
  | unit | system
  deriving DecidableEq, Repr

/-- The states of a handle (R34). -/
inductive HState where
  | free | filling | full | draining
  deriving DecidableEq, Repr

/-- The bed-synchronous functional units of R92. -/
inductive FUnit where
  | alu | mul | perm | mem | trug | ctl | vec
  deriving DecidableEq, Repr

/-- A floating value taken exactly (R49, R50): (-1)^neg * m * 2^e, an infinity, or a NaN. -/
inductive Fv where
  | nan
  | inf (neg : Bool)
  | fin (neg : Bool) (m : Nat) (e : Int)
  deriving DecidableEq, Repr

/-- Where one byte of memory lies: at a physical address, or byte i of the compressed block whose slot
starts at a physical address (R255), with the expansion point its writer stamps (R259). -/
inductive Tgt where
  | byte (pa : Nat)
  | blk (slot i ex : Nat)
  deriving DecidableEq, Repr

/-- What a program address presents: one byte, or the eight bits a PLN-pack window gathers (R262). -/
inductive Place where
  | one (t : Tgt)
  | bits (l : List (Tgt × Nat))
  deriving DecidableEq, Repr

/-- Where a result goes when it falls due (R20, R89, R90). -/
inductive Land where
  /-- bits lo .. lo+len-1 of s-register n take the low bits of v -/
  | sreg (n lo len : Nat) (v : Word)
  /-- port q pushes v (R90) -/
  | push (q : Nat) (v : Word)
  /-- control register n becomes v (R236) -/
  | creg (n : Nat) (v : Word)
  /-- column j of vector register r: per container row, a mask of bits and their values -/
  | vcol (r j : Nat) (l : List (Nat × Cont × Cont))
  /-- column j of mask p: per element row the bit (R301) -/
  | mcol (p j : Nat) (l : List (Nat × Bool))
  /-- pattern p takes 128 bytes (R197) -/
  | pat (p : Nat) (bytes : List Byte)
  /-- AMAX folds in a partial maximum, after clearing it when clr; register sa takes the result (R310) -/
  | amax (clr : Bool) (part : BitVec 33) (sa : Nat)
  /-- token k is set: TMARK with mask 0 (R218) -/
  | tok (k : Nat)
  /-- a cell charge taken at the due tick: ATOM.cas (R214) -/
  | cell (n : Nat)
  /-- a completion tick that writes no register (R211) -/
  | nothing
  deriving DecidableEq, Repr

/-- A result in flight: the bt it falls due, what it writes, and the outstanding access it comes from
(0: none). -/
structure Pend where
  due : Nat
  land : Land
  acc : Nat
  deriving DecidableEq, Repr

/-- A vector word whose columns have not all acted (R93, R431): the word, its issue tick, ramp, shape
(counts), scalar operands read at issue, resolved rounding mode, the mask a VMEM word read, whether it
was issued in the system view, its next column, and what its earlier columns have gathered. -/
structure VFlight where
  i : Instr
  pc : Word
  t : Nat
  k : Nat
  rows : Nat
  cols : Nat
  sa : Word
  stride : Word
  rm : Nat
  pm : List Nat
  absent : List Nat
  base : Nat
  sys : Bool
  next : Nat
  cap : Tab Cont
  act : List Nat
  acc : Nat
  resv : List (Nat × Nat × Nat × Nat)   -- what its results will write: due tick and key (R291)
  order : Nat
  deriving DecidableEq, Repr

/-- A word in a port (R32, R33): its value, the bt from which it can be popped, and the engine entry
that pushed it (queue 0: none). -/
structure QWord where
  v : Word
  ready : Nat
  q : Nat
  seq : Nat
  deriving DecidableEq, Repr

/-- A word on its way to a port of this core (R33, R221): the port, the word, the bt and the wall tick
at which its push fell due. -/
structure Flight where
  port : Nat
  v : Word
  bt : Nat
  wt : Nat
  deriving DecidableEq, Repr

/-- A partition of the trug (R165-R170). Bit i of `bits` is trug bit HBASE + i. -/
structure Trug where
  bits : Nat
  base : Nat
  top : Nat
  lim : Nat
  hm0 : Nat
  hm1 : Nat
  hm2 : Nat
  hm3 : Nat
  deriving DecidableEq, Repr

/-- A fault on its way to the handler (R156, R171, R175): its code, kind, queue, and record. `tok` is
the produced token of a failed entry (63: none), `order` the issue order of its word, `mask` the
ordering classes by which a sequencer access's fault is delivered (R142, R220). -/
structure FaultRec where
  code : Nat
  kind : Nat
  queue : Nat
  seq : Nat
  ipc : Word
  word : Word
  opa : Word
  opb : Word
  opc : Word
  addr : Word
  detail : Word
  tok : Nat
  order : Nat
  mask : Nat
  deriving DecidableEq, Repr

/-- A trap that waits for its tick (R172): the record, XPC, the first bt it may be taken on, whether it
stops the unit for pre-emption (R238), whether it is terminal (R407). -/
structure TrapReq where
  fr : FaultRec
  xpc : Word
  at_ : Nat
  stop : Bool
  terminal : Bool
  deriving DecidableEq, Repr

/-- Why a word about to issue has no effect: a precise fault with its XREC6 and XREC7, or the delivery of a
pending attributed fault (R84, R176). -/
inductive Stop where
  | fault (code : Nat) (addr detail : Word)
  | deliver (f : FaultRec)
  deriving DecidableEq, Repr

/-- What a waiting word waits for (R28). -/
inductive Wait where
  | token (k : Nat)
  /-- SYEXP: its access, and the code and address of the fault its home found (0: none) -/
  | syexp (acc : Nat) (code : Nat) (addr : Word)
  | sywait (addr : Nat) (gen : Nat)
  | port (q : Nat)
  /-- XBAR: its arrival is posted, the generation it waits for, whether the work span was open as it issued, and the
  first access that is not earlier than it -/
  | xbar (posted : Bool) (gen : Nat) (wasOpen : Bool) (upto : Nat)
  | gang
  deriving DecidableEq, Repr

/-- A word that waits: what for, the word, its address, its first two sources as read at issue, what it took and added. -/
structure Waiting where
  w : Wait
  i : Instr
  pc : Word
  opa : Word
  opb : Word
  popped : List (Nat × QWord)   -- what it popped as it issued, by port, and the energy it added: it gives both back where it
  ej : Nat                      -- has no effect (R223, R407)
  deriving DecidableEq, Repr

/-- The kinds of accesses in the post buffer (R211, R217, R218). -/
inductive AccKind where
  | load | store | rmw | atomic | arrive | expect | fence | tmark
  deriving DecidableEq, Repr

/-- An access in the post buffer, a fence or a TMARK among them (R141, R211): its number, kind, class or class mask, scope, virtual
address, physical address of its first byte, physical runs of its bytes, due tick (0: none; of an arrival, 1 once it is counted),
whether the home lies in another package, the word, its address and its source operands, whether it has left the buffer, the token
of a TMARK, the entry of the buffer it shares (R297), the bt it takes its place on (R122). -/
structure Access where
  id : Nat
  kind : AccKind
  cls : Nat
  sc : Nat
  addr : Word
  pa : Nat
  runs : List (Nat × Nat)
  due : Nat
  remote : Bool
  pc : Word
  word : Word
  opa : Word
  opb : Word
  opc : Word
  left : Bool
  tok : Nat
  order : Nat
  grp : Nat
  tick : Nat
  undo : List (Tgt × Byte × Nat)    -- bytes written: where, the value before, how many writes the byte has taken then
  deriving DecidableEq, Repr

/-- An extent of the core's table (R247) with the LSC's bits of R251. Sizes and addresses are counts
of bytes. -/
structure Extent where
  ps : Nat
  vbase : Nat
  npg : Nat
  rd : Bool
  wr : Bool
  ex : Bool
  abs : Bool
  cmp : Bool
  expt : Nat
  pbase : Nat
  serviced : Bool
  requested : Bool
  deriving DecidableEq, Repr

/-- An accumulator tile (R54): element (r, j) at key 128 r + j as the signed value GUARD:MANT, the row
exponents, the sticky flag. -/
structure Tile where
  el : Tab Int
  exp : Tab Nat
  sat : Bool
  deriving DecidableEq, Repr

/-- A stationary plane (R315): the tile image (R46, or R47 when sparse), the planes loaded, the kind. -/
structure Plane where
  w : Tab Byte
  np : Nat
  sp : Bool
  deriving DecidableEq, Repr

/-- How far an engine entry has come (R25, R125, R252); `held` at a row boundary by a debug halt (R181). -/
inductive EPhase where
  | waiting | running | held | parked | pushing
  deriving DecidableEq, Repr

/-- An accepted, incomplete engine entry: the word, its address, sequence number and issue order, issue
tick, operands read at issue, the layout record or descriptor read at issue, the collective instance,
the seed region, its phase, start tick, position in its walk, bytes posted to its tag or rows moved before a debug halt,
bits charged so far, words still to push, end code (0: none), fault record fields, park count, the view
it was issued in, the XREC7 of the schedule miss its stamp tick found (R319; 0: none), the elements of a reserved register
that show their drained values (R328), the ticks that bank conflicts have cost it (R320). -/
structure Entry where
  i : Instr
  word : Word
  pc : Word
  seq : Nat
  order : Nat
  t : Nat
  a : Word
  b : Word
  c : Word
  lay : List Word
  desc : List Byte
  inst : Nat
  seedAddr : Nat
  seedCnt : Nat
  ph : EPhase
  start : Nat
  pos : Nat
  posted : Nat
  bits : Nat
  work : Nat
  out : List Word
  code : Nat
  faddr : Word
  fdetail : Word
  parks : Nat
  parkAddr : Nat
  shown : Nat
  cap : List Word
  sys : Bool
  miss : Nat
  drained : List Nat
  lost : Nat
  deriving DecidableEq, Repr

/-- One command queue (R24, R155): entries oldest first, the next sequence number (R175, R286),
whether an entry accepted since the last status word of its own kind ended in a fault (R277, R332), and the first bt on
which the next entry may start (R319). -/
structure EQueue where
  es : List Entry
  seq : Nat
  flt : Bool
  next : Nat
  deriving DecidableEq, Repr

/-- A collective group as one unit sees it (R367, R382). -/
structure CGroup where
  cgid : Nat
  n : Nat
  nr : Nat
  rank : Nat
  issued : Nat
  vres : Nat
  vgen : Nat
  minor : Nat
  deriving DecidableEq, Repr

/-- The graft engine's registers (R342). The boundary's elements are FP32 patterns by element number. -/
structure Graft where
  bnd : Tab Cont
  empty : Bool
  batch : Nat
  nf : Nat
  bd : Nat
  gm : Tab Nat
  bonds : Tab Nat
  gres : Nat
  deriving DecidableEq, Repr

/-- Whether a core runs a unit (R399, R403). -/
inductive Run where
  | idle | running | stopped | ended
  deriving DecidableEq, Repr

/-- A part of a core's unaddressed storage that holds an uncorrectable error (R337, R360): byte o of slot h,
of the active or of the shadow plane, element k of tile t, an element of the boundary. The grain is the
model's (DESIGN CHOICE, log 17). -/
inductive Mark where
  | slot (h o : Nat)
  | act (o : Nat)
  | shd (o : Nat)
  | tile (t k : Nat)
  | bnd (k : Nat)
  deriving DecidableEq, Repr

/-- The state of one core: sequencer, vector unit, trellis, copy and graft engines, and its queue in the
bank engine (R23, R24, R152). -/
structure Core where
  num : Nat
  run : Run
  view : View
  pc : Word
  s : Tab Word                  -- s1-s55 (R152)
  ports : Tab (List QWord)      -- q0-q7 (R32)
  lastPop : Tab Nat             -- bt + 1 of the latest pop of each port (R33)
  flights : List Flight
  clearTok : List Nat           -- the clear tokens; every other token is set (R31)
  tmarks : Tab Nat              -- class mask + 1 of the TMARK that last produced a token (R142)
  handles : Tab HState          -- R34; unlisted: free
  fouled : List Nat             -- handles that an entry which ended in a fault has left filling (R272, R337, R364)
  ut : Trug                     -- user partition
  st : Trug                     -- system partition
  ebits : Nat
  equota : Word
  ej : Nat
  xebits : Nat
  vshape : Word
  rmode : Word
  seedctl : Word
  seedlog : Word
  seedWord : Word               -- the seed word in use (R60)
  seedLeft : Nat                -- its chunks left
  noise : Nat                   -- noise words taken
  seedHeld : Nat                -- draws reserved by vector words whose columns have not acted (R431)
  amax : BitVec 33              -- NAN:MAG (R309)
  xpc : Word
  xcause : Word
  xvec : Word
  xrec : Tab Word               -- XREC0-XREC7
  xs : Tab Word                 -- XS0-XS7
  qp : Bool                     -- XSTAT.QP
  thr : Bool                    -- XSTAT.THR
  pre : Bool                    -- XSTAT.PRE
  thrDetail : Word              -- what the notice will report (R419)
  event : Option FaultRec       -- deadline, divergence or gang-abort, not yet taken (R407)
  bp : Tab (List Byte)          -- patterns; unlisted: the identity (R196)
  pend : List Pend
  vq : List VFlight
  busy : Tab Nat                -- bt at which each unit of R92 is free again
  nextBt : Nat                  -- bt of the next issue (R91)
  wait : Option Waiting
  trap : Option TrapReq
  deferred : Option TrapReq     -- a trap after its word, or a stop, put off (R174)
  pending : List FaultRec       -- attributed faults not yet delivered (R176)
  handled : Nat                 -- token SRET sets (R177), or would have set where a kill came first; 63: none
  terminal : Bool               -- the trap in hand is terminal (R407)
  accs : List Access            -- post buffer and outstanding accesses (R141, R211)
  nextAcc : Nat
  order : Nat                   -- words issued, for issue order (R176)
  span : Bool                   -- the work span is open (R227)
  supers : Nat                  -- superstep number
  spent : Nat                   -- work-span budget used, wt (R406)
  budget : Nat                  -- 0: none
  areaWait : Nat                -- wt spent reading the area of HSPILL or HFILL (R232)
  job : Nat
  lid : Nat
  unit : Nat
  gang : Nat                    -- 0: no gang, or the gang has committed (R227)
  dbg : Bool
  extents : List Extent
  groups : List CGroup
  dones : List (Nat × Nat)      -- collective votes outstanding: (cgid, instance) (R387)
  endCode : Nat                 -- XCAUSE.CODE of the fault or event that ended the unit (R395)
  endCode2 : Nat
  endDetail : Nat
  endStatus : Nat
  dying : Bool                  -- killed, and the registers not yet counted (R179)
  livemap : Nat                 -- SEL of the latest SAFEPT taken (R238)
  v : Tab Cont                  -- v0-v31: key 1024 r + 64 column + container row (R287)
  p : Tab Bool                  -- p1-p15: key 2048 p + 128 column + element row (R289)
  reserved : List Nat           -- vector registers reserved by drains (R328)
  tiles : Tab Tile              -- a0-a3 (R54)
  slots : Tab Byte              -- key 16384 h + offset (R46)
  act : Plane
  shd : Plane
  org : Nat
  lane : Option (Tab Byte × List Nat)   -- A rows on their way east, with the offsets in error (R315, R324)
  tq : EQueue
  cq : EQueue
  gq : EQueue
  bq : EQueue
  graft : Graft
  cut : Option (Nat × Bool)     -- the engine access that gets no answer while a remote timeout takes place (R142)
  bad : List Mark               -- uncorrectable errors in slots, planes, tiles and the boundary
  deriving DecidableEq, Repr

/-- One bed (R16-R18, R29, R181-R184). -/
structure Bed where
  num : Nat
  btick : Nat
  bwall : Nat
  cecnt : Nat
  freeze : Nat                  -- wt left of a correctable-error freeze (R183)
  closed : Bool                 -- no core issues on this wall tick: stall, freeze or halt (R29, R183)
  held : Bool                   -- the tick stands frozen before a word or column acts on it (R120, R130, R210, R211, R430)
  stall : Bool                  -- bt stands still for a wait, a late reply or a held tick (R29, R210)
  halt : Bool
  park : Bool
  period : Nat
  ramphint : Nat
  deriving DecidableEq, Repr

/-- One aperture (R261): its three registers. -/
structure Aperture where
  tgt : Word
  len : Word
  ctl : Word
  deriving DecidableEq, Repr

/-- One die: the calibrated temperature in 1/16 degC, the voltage of its VCD rail in mV, and its apertures (R261, R420,
R422). -/
structure Die where
  num : Nat
  t16 : Int
  vcd : Nat
  aps : Tab Aperture
  deriving DecidableEq, Repr

/-- The kinds of image sections (R100). -/
inductive SecKind where
  | text | rodata | data | spad | sbm
  deriving DecidableEq, Repr

/-- A section of an image (R100): kind, virtual base, size in bytes, contents. -/
structure Section where
  kind : SecKind
  base : Nat
  size : Nat
  bytes : List Byte
  deriving DecidableEq, Repr

/-- A launch template (R105): entry address, argument bytes, budget (0: none), and the declared operand
ranges as (offset in the argument block, readable, writable). -/
structure Template where
  entry : Nat
  argBytes : Nat
  budget : Nat
  ranges : List (Nat × Bool × Bool)
  deriving DecidableEq, Repr

/-- A live-register map (R111). -/
structure LiveMap where
  s : List Nat
  v : List Nat
  p : List Nat
  a : List Nat
  h : List Nat
  deriving DecidableEq, Repr

/-- A program image as the linker leaves it (R99), with the addresses its options --spad-base and --sbm-base gave; `addr` is
the value of IMAGE that names it (R391). -/
structure Image where
  addr : Nat
  spadBase : Nat
  sbmBase : Nat
  sections : List Section
  templates : List Template
  maps : List LiveMap
  deriving DecidableEq, Repr

/-- Memory the host allots to a job (R432): a virtual range, the physical base, permissions, absence, and whether
compressed frames back it (R247, R255). -/
structure MapEnt where
  vbase : Nat
  len : Nat
  pbase : Nat
  rd : Bool
  wr : Bool
  abs : Bool
  cmp : Bool
  expt : Nat
  deriving DecidableEq, Repr

/-- States of a job (R397). -/
inductive JobState where
  | active | halted | ended
  deriving DecidableEq, Repr

/-- A job (R393, R397, R401). -/
structure Job where
  num : Nat
  xvec : Nat
  jstat : Nat
  cdest : Nat
  ckey : Nat
  peer : Nat                    -- the endpoint from which the NOTIFY covering its open-job record arrived (R395)
  phase : Nat
  state : JobState
  cancelled : Bool
  why : Nat                     -- STATUS a Halted job ends with: 3 failed, 5 diverged (R433)
  ending : Bool                 -- an end-job record has been taken (R401)
  ebits : Nat
  ej : Nat
  map : List MapEnt
  deriving DecidableEq, Repr

/-- A graph or a phase (R401): its number, its phase, the closing count, members ended, whether one
failed, whether one ended otherwise than Done, whether a vote diverged, whether a cancel named it, the STATUS a phase had
as it Failed (0: it has not), whether it has ended. -/
structure Group where
  level : Nat                   -- 2 graph, 3 phase
  job : Nat
  num : Nat
  phase : Nat
  count : Option Nat
  ended : Nat
  failed : Bool
  undone : Bool
  diverged : Bool
  cancelled : Bool
  stands : Nat
  isOver : Bool
  ebits : Nat
  ej : Nat
  deriving DecidableEq, Repr

/-- States of a launch (R400). -/
inductive LState where
  | queued | ready | placing | running | preempting | done | failed | cancelled
  deriving DecidableEq, Repr

/-- States of a unit (R399). -/
inductive UState where
  | none | placed | running | stopped | saved | ended
  deriving DecidableEq, Repr

/-- A unit of a launch: its state, the core it runs on, the state saved at pre-emption with its
scratchpad (R411), whether its arrival at the barrier is posted (R408), its completion (R433). -/
structure UnitRec where
  idx : Nat
  state : UState
  core : Nat
  saved : List Core
  spad : List Host.Cell
  arrived : Bool
  status : Nat
  code : Nat
  deriving DecidableEq, Repr

/-- A launch: the record's fields (R391) and its course (R400, R403, R408, R413). -/
structure Launch where
  job : Nat
  lid : Nat
  graph : Nat
  phase : Nat
  prio : Nat
  upb : Nat
  spread : Bool
  dbg : Bool
  dmask : Nat
  gres : Nat
  nbeds : Nat
  image : Nat
  tmpl : Nat
  args : Nat
  budget : Nat
  seedmode : Nat
  seedcnt : Nat
  seedlog : Nat
  sbmlen : Nat
  gang : Nat
  gnp : Nat
  grk : Nat
  gcp : Nat
  preds : List Nat
  cgs : List (Nat × Nat × Nat × Nat)   -- CGID, NR, N, RBASE (R392)
  state : LState
  since : Nat                   -- order of becoming Ready (R404)
  age : Nat                     -- whole milliseconds it has been Ready (R404)
  placedAt : Nat                -- order of placement (R405)
  beds : List Nat
  sbm : List (Nat × Nat)        -- die, offset of its SBM region (R403)
  frames : Nat                  -- physical address of its program copies in DRAM; 0: not loaded yet
  units : List UnitRec
  barrier : Nat                 -- barrier generation (R228, R408)
  diverged : Bool               -- a vote of a group with a member in it has diverged (R387)
  aborted : Bool
  isOver : Bool                 -- its completion record is made
  ends : List Nat               -- its units in the order in which they ended (R399, R433)
  ebits : Nat
  ej : Nat
  deriving DecidableEq, Repr

/-- A completion record (R395, R433). -/
structure CRec where
  level : Nat
  status : Nat
  code : Nat
  code2 : Nat
  job : Nat
  unit : Nat
  id : Nat
  detail : Nat
  ebits : Nat
  ej : Nat
  deriving DecidableEq, Repr

/-- A line of the park log (R252). -/
structure Park where
  core : Nat
  queue : EngQ
  seq : Nat
  addr : Nat
  count : Nat
  deriving DecidableEq, Repr

/-- A gang as its coordinator sees it (R413-R415). -/
structure Gang where
  job : Nat
  num : Nat
  acks : List Nat
  committed : Bool
  aborted : Bool
  deriving DecidableEq, Repr

/-- The launch scheduler (R388-R415). The submission region's words and rings are bytes of `mem`. -/
structure Lsc where
  jobs : List Job
  groups : List Group
  launches : List Launch
  images : List Image
  maps : List (Nat × List MapEnt) -- memory the host allots, by job (R432; DESIGN CHOICE, log 9)
  backlog : List CRec           -- completion records still to write (R396)
  parks : List Park
  gangs : List Gang
  holder : Option (Nat × Nat)   -- the PRIO 3 launch for which free beds are held: job, lid (R405)
  notices : List (Nat × Nat)    -- NOTIFY atomics, oldest first: NOTIFY after it, the endpoint it came from (R395)
  readies : Nat                 -- launches that have become Ready
  placements : Nat
  nextFrame : Nat               -- where the next program copies go in DRAM (R403, the LSC's choice)
  moves : List (Nat × Nat × Move)   -- mapping changes made during an exchange: job, lid, change (R254)
  deriving DecidableEq, Repr

/-- A digest sent to a sieve (R371): job, group, instance, members, replicas, rank, lanes. -/
structure Digest where
  job : Nat
  cgid : Nat
  inst : Nat
  n : Nat
  nr : Nat
  rank : Nat
  lane0 : Word
  lane1 : Word
  ipc : Word
  word : Word
  seq : Nat
  deriving DecidableEq, Repr

/-- The course of bring-up (R424, R428, R429); `linked`: step 5 is complete and READY is 0. -/
inductive Power where
  | off | up | linked | ready | recovery | tripped
  deriving DecidableEq, Repr

/-- The platform (R416-R429). Lists are by rail (R420) or by bed pair. -/
structure Platform where
  power : Power
  derate : Nat
  rfail : Bool
  ttrip : Bool
  railTrip : Bool               -- a rail, or heat, asks for a trip, which takes place at a tick boundary of the beds (R424)
  heatTrip : Bool
  stopped : List Nat            -- the beds that the coming trip has stopped
  recov : Bool
  pwrcap : Nat
  phases : Tab Nat              -- phases lost per rail
  plog : List Nat               -- the platform log: rails that lost a phase, oldest first (R421)
  cap : Tab Nat                 -- PERIOD - 16 asked per pair by the power cap
  der : Tab Nat                 -- by regulator derating
  bal : Tab Nat                 -- by pair balance
  load : Tab Nat                -- what each pair last carried, in running words and entries (the model's measure, log 10)
  taper : Tab Nat               -- ticks of a pair on which its demands are still drawn anew: while its current tapers (R418), log 10
  ord : Nat
  pkg : Nat
  subbase : Nat
  platbase : Nat
  fwver : Nat
  image : List Byte             -- the firmware image the ROM verifies first (R428); [] stands for that of delivery
  prev : List Byte              -- the image before it
  imageOk : Bool                -- the image of delivery verifies (log 12)
  deriving DecidableEq, Repr

/-- What the device sends out: replies to remote accesses, pushed completion records, attestation. -/
inductive Output where
  | loaded (addr : Nat) (bytes : List Byte)
  | stored (addr : Nat)
  | old (addr : Nat) (v : Word)
  | error (addr : Nat)
  /-- a completion record, to an endpoint, at an offset of the host region a key names (R395) -/
  | pushed (peer key offset : Nat) (r : CRec)
  /-- a write of an aperture register was refused (R261) -/
  | refused (die aperture reg : Nat)
  | attest (meas nonce pstat : Nat) (sig : List Byte)
  deriving DecidableEq, Repr

/-- The whole machine. The focused core and bed stand in fields of their own; every other core or bed
that differs from its reset stands in `others` and `otherBeds`. -/
structure State where
  mem : List Host.Cell          -- by physical address (R244); an unlisted byte reads 0 (DESIGN CHOICE, log 1)
  ecc : List Nat                -- code words that hold an uncorrectable error (R245)
  writes : Tab Nat              -- writes that bytes of other packages have taken, by Tgt.key (R142, log 53)
  core : Core
  others : List Core
  bed : Bed
  otherBeds : List Bed
  dies : List Die
  lsc : Lsc
  digests : List Digest
  plat : Platform
  agenda : List Instr           -- events still to take place (the model's own, DESIGN CHOICE, log 2)
  auto : Bool                   -- asynchronous agents move of themselves (the model's own, DESIGN CHOICE, log 2)
  fresh : Nat                   -- free values taken (the model's own, DESIGN CHOICE, log 4)
  log : List Output             -- what was sent out, oldest first (the model's own, DESIGN CHOICE, log 5)
  deriving DecidableEq, Repr

/-- Why the machine stops. -/
inductive Fault where
  /-- `step` of a package that has no input power and no POWER_ON in its agenda (R421: down until power
  returns). Safe: nothing happens in such a package. -/
  | noInputPower
  deriving DecidableEq, Repr

/-- Why an instruction has no meaning. -/
inductive Refusal where
  /-- Raised by an arm of exec whose instruction has no meaning yet. Safe: the run stops. -/
  | notModelled (mnemonic : String)
  deriving DecidableEq, Repr

/-- An empty command queue. -/
def EQueue.reset : EQueue := { es := [], seq := 0, flt := false, next := 0 }

/-- An empty partition of capacity lim (R153, R165). -/
def Trug.reset (lim : Nat) : Trug :=
  { bits := 0, base := 0, top := 0, lim := lim, hm0 := 0, hm1 := 0, hm2 := 0, hm3 := 0 }

/-- A plane of zeros (R315). -/
def Plane.reset : Plane := { w := [], np := 8, sp := false }

/-- The graft engine at unit start, with the launch's reservation (R342). -/
def Graft.reset (gres : Nat) : Graft :=
  { bnd := [], empty := true, batch := 0, nf := 0, bd := 0, gm := [], bonds := [], gres := gres }

/-- A core that runs nothing, with the values of R42 and R153 (DESIGN CHOICE, unsafe: log 6, for those no rule gives before a
unit starts). -/
def Core.reset (n : Nat) : Core :=
  { num := n, run := .idle, view := .unit, pc := 0, s := [], ports := [], lastPop := [], flights := [],
    clearTok := [], tmarks := [], handles := [], fouled := [], ut := Trug.reset 262144, st := Trug.reset 32768,
    ebits := 0, equota := 0, ej := 0, xebits := 0, vshape := 0xF3F, rmode := 0, seedctl := 0, seedlog := 0,
    seedWord := 0, seedLeft := 0, noise := 0, seedHeld := 0, amax := 0, xpc := 0, xcause := 0, xvec := 0,
    xrec := [], xs := [], qp := false, thr := false, pre := false, thrDetail := 0, event := none, bp := [],
    pend := [], vq := [], busy := [], nextBt := 0, wait := none, trap := none, deferred := none, pending := [],
    handled := 63, terminal := false, accs := [], nextAcc := 1, order := 0, span := false,
    supers := 0, spent := 0, budget := 0, areaWait := 0, job := 0, lid := 0, unit := 0, gang := 0, dbg := false,
    extents := [], groups := [], dones := [], endCode := 0, endCode2 := 0, endDetail := 0, endStatus := 0,
    dying := false, livemap := 0, v := [], p := [], reserved := [], tiles := [], slots := [], act := Plane.reset,
    shd := Plane.reset, org := 0, lane := none, tq := EQueue.reset, cq := EQueue.reset, gq := EQueue.reset,
    bq := EQueue.reset, graft := Graft.reset 0, cut := none, bad := [] }

/-- A bed as it leaves reset (R17, R184, R182, R429); RAMPHINT is that of 85 degC (R22; DESIGN CHOICE, unsafe: log 8). -/
def Bed.reset (n : Nat) : Bed :=
  { num := n, btick := 0, bwall := 0, cecnt := 0, freeze := 0, closed := false, held := false, stall := false, halt := false, park := false,
    period := 16, ramphint := 3 }

/-- A die at reset: 85 degC, its VCD at 1.20 V (DESIGN CHOICE, unsafe: log 8), apertures disabled (R261). -/
def Die.reset (n : Nat) : Die := { num := n, t16 := 1360, vcd := 1200, aps := [] }

/-- The scheduler at reset. -/
def Lsc.reset : Lsc :=
  { jobs := [], groups := [], launches := [], images := [], maps := [], backlog := [], parks := [], gangs := [],
    holder := none, notices := [], readies := 0, placements := 0, nextFrame := 0x2000000000, moves := [] }

/-- The platform when power comes on (R420, R423, R425; the identity constants are a DESIGN CHOICE, unsafe: log 11). -/
def Platform.reset : Platform :=
  { power := .up, derate := 0, rfail := false, ttrip := false, railTrip := false, heatTrip := false, stopped := [], recov := false, pwrcap := 1400, phases := []
    plog := [], cap := [],
    der := [], bal := [], load := [], taper := [], ord := 0, pkg := 0, subbase := 0x1000000, platbase := 0x1000,
    fwver := 1, image := [], prev := [], imageOk := true }

/-- The package right after reset: power is up and the bring-up of R429 is about to run. -/
def State.reset : State :=
  { mem := [], ecc := [], writes := [], core := Core.reset 0, others := [], bed := Bed.reset 0, otherBeds := [],
    dies := [Die.reset 0, Die.reset 1, Die.reset 2, Die.reset 3], lsc := Lsc.reset, digests := [],
    plat := Platform.reset, agenda := [.powerOn], auto := true, fresh := 0, log := [] }

end Sys2Proof.Machine
end

