-- ==== Sys2Proof/Machine/Mem.lean ====
section
/-! DEFINITION. Keyed tables, physical memory, compressed blocks (R255-R259), error-checking code words
(R245), apertures (R261-R263) and translation (R247-R250). -/

namespace Sys2Proof.Machine

/-- The value at a key of a table; d where the key is not listed. -/
def tget {α : Type} (d : α) : List (Nat × α) → Nat → α
  | [], _ => d
  | (a, v) :: r, k => if a = k then v else tget d r k

/-- A key's value replaced, between the lower keys and the higher ones; the default value is not listed. -/
def tset {α : Type} [DecidableEq α] (d : α) (t : List (Nat × α)) (k : Nat) (v : α) : List (Nat × α) :=
  t.filter (fun p => p.1 < k) ++ (if v = d then [] else [(k, v)]) ++ t.filter (fun p => k < p.1)

/-- The canonical form: keys strictly rising, no default value listed. -/
def tabWf {α : Type} [DecidableEq α] (d : α) (t : List (Nat × α)) : Bool :=
  decide (t.Pairwise (fun p q => p.1 < q.1)) && t.all (fun p => p.2 != d)

/-- The canonical form of memory. An unlisted byte reads 0 (log 1). -/
def Memory.wf (m : List Host.Cell) : Bool := tabWf (0 : Byte) m

/-- One byte of physical memory. DESIGN CHOICE, unsafe: log 1. -/
def rd8 (m : List Host.Cell) (pa : Nat) : Byte := tget 0 m pa

/-- One byte written. -/
def wr8 (m : List Host.Cell) (pa : Nat) (b : Byte) : List Host.Cell := tset 0 m pa b

/-- n bytes from pa. -/
def rdN (m : List Host.Cell) (pa n : Nat) : List Byte := (List.range n).map (fun i => rd8 m (pa + i))

/-- Bytes written from pa on. -/
def wrN (m : List Host.Cell) (pa : Nat) : List Byte → List Host.Cell
  | [] => m
  | b :: bs => wrN (wr8 m pa b) (pa + 1) bs

/-- n bytes from pa set to zero. -/
def zeroN (m : List Host.Cell) (pa n : Nat) : List Host.Cell :=
  m.filter (fun c => !(decide (pa ≤ c.1) && decide (c.1 < pa + n)))

/-- The little-endian value of bytes (R7). -/
def leNat : List Byte → Nat
  | [] => 0
  | b :: bs => b.toNat + 256 * leNat bs

/-- The n little-endian bytes of a value. -/
def leBytes : Nat → Nat → List Byte
  | 0, _ => []
  | n + 1, v => BitVec.ofNat 8 v :: leBytes n (v / 256)

/-- The little-endian word of eight bytes at pa. -/
def rd64 (m : List Host.Cell) (pa : Nat) : Nat := leNat (rdN m pa 8)

/-- Eight bytes written at pa. -/
def wr64 (m : List Host.Cell) (pa v : Nat) : List Host.Cell := wrN m pa (leBytes 8 v)

/-- The low n bits of a value as a signed number. -/
def sgn (n v : Nat) : Int :=
  let u := v % 2 ^ n
  if 2 * u < 2 ^ n then (u : Int) else (u : Int) - 2 ^ n

/-- A number reduced to n bits. -/
def wrapN (n : Nat) (x : Int) : Nat := (x % (2 ^ n : Int)).toNat

/-! ### Physical addresses (R244) -/

/-- OFFSET. -/
def paOff (pa : Nat) : Nat := pa % 2 ^ 42
/-- SPACE: 0 DRAM, 1 SBM, 2 scratchpad, 3 aperture. -/
def paSpace (pa : Nat) : Nat := pa / 2 ^ 42 % 4
/-- DIE. -/
def paDie (pa : Nat) : Nat := pa / 2 ^ 44 % 4
/-- PKG. -/
def paPkg (pa : Nat) : Nat := pa / 2 ^ 46 % 64

/-- A physical address from its fields. -/
def paMk (pkg die space off : Nat) : Nat := pkg * 2 ^ 46 + die * 2 ^ 44 + space * 2 ^ 42 + off

/-- The core whose scratchpad holds a byte (R244): 64 d + 8 b + c. -/
def paCore (pa : Nat) : Nat := paDie pa * 64 + paOff pa / 2 ^ 21

/-- The scratchpad byte of a core. -/
def spadPa (pkg core off : Nat) : Nat := paMk pkg (core / 64) 2 (core % 64 * 2 ^ 21 + off)

/-- OFFSET within the limits of its space (R244). -/
def paOk (pa : Nat) : Bool :=
  pa < 2 ^ 52 &&
  match paSpace pa with
  | 0 => paOff pa < 192 * 2 ^ 30
  | 1 => paOff pa < 96 * 2 ^ 20
  | 2 => paOff pa < 2 ^ 27
  | _ => paOff pa < 2 ^ 40

/-- The error-checking code word that holds a byte (R245). DESIGN CHOICE, safe: log 18. -/
def codeWord (pa : Nat) : Nat := if paSpace pa = 0 then pa / 32 * 32 else pa / 8 * 8

/-! ### Compressed blocks (R255-R257) -/

/-- Every k-th 4-byte word of a block as a number. -/
def blockWords (bs : List Byte) : List Nat := (List.range 32).map (fun i => leNat ((bs.drop (4 * i)).take 4))

/-- d[i]: differences of neighbours modulo 2^32. -/
def deltas (ws : List Nat) : List Nat :=
  (List.range 32).map fun i =>
    if i = 0 then ws.getD 0 0 else (ws.getD i 0 + 2 ^ 32 - ws.getD (i - 1) 0) % 2 ^ 32

/-- P[p]: bit p of every word, word i at bit i. -/
def plane (ds : List Nat) (p : Nat) : Nat :=
  (List.range 32).foldl (fun a i => a + ds.getD i 0 / 2 ^ p % 2 * 2 ^ i) 0

/-- Q from P: each plane xor the next one. -/
def adjacent (ps : List Nat) : List Nat :=
  (List.range 32).map fun p => if p = 31 then ps.getD 31 0 else ps.getD p 0 ^^^ ps.getD (p + 1) 0

/-- The lowest set bit of q, within 32. -/
def lowBit (q : Nat) : Nat := ((List.range 32).find? (fun i => q.testBit i)).getD 0

/-- code(q) of R256. -/
def planeCode (q : Nat) : List Byte :=
  let s := lowBit q
  let e := Nat.log2 q
  if q = 2 ^ (e + 1) - 2 ^ s then [BitVec.ofNat 8 (0x80 + s), BitVec.ofNat 8 e]
  else 0x00#8 :: leBytes 4 q

/-- NSEC for a payload length. -/
def nsecOf (plen : Nat) : Nat := 1 + (plen - 24 + 31) / 32

/-- A slot from its header fields and payload (R255). -/
def mkSlot (mode ex pmap : Nat) (payload : List Byte) : List Byte :=
  let plen := payload.length
  leBytes 8 (mode + ex * 4 + nsecOf plen * 16 + pmap * 2 ^ 8 + plen * 2 ^ 40) ++ payload ++
    List.replicate (152 - plen) 0x00#8

/-- The encoder of R256: 128 bytes to 160. -/
def encodeBlock (bs : List Byte) (ex : Nat) : List Byte :=
  let ws := blockWords bs
  if ws.all (· = 0) then mkSlot 0 ex 0 []
  else if ws.all (· = ws.getD 0 0) then mkSlot 1 ex 0 (leBytes 4 (ws.getD 0 0))
  else
    let ds := deltas ws
    let qs := adjacent ((List.range 32).map (plane ds))
    let codes := (List.range 32).flatMap (fun p => if qs.getD p 0 = 0 then [] else planeCode (qs.getD p 0))
    let pmap := (List.range 32).foldl (fun a p => if qs.getD p 0 = 0 then a else a + 2 ^ p) 0
    if codes.length ≤ 152 then mkSlot 2 ex pmap codes else mkSlot 3 ex 0 bs

/-- Reads the codes of the marked planes: Q by plane, and the payload left; none where malformed. -/
def readCodes : List Nat → List Byte → Option (List (Nat × Nat) × List Byte)
  | [], bs => some ([], bs)
  | p :: ps, bs =>
    match bs with
    | c :: r =>
      if c = 0x00#8 then
        let q := leNat (r.take 4)
        if r.length < 4 || q = 0 then none
        else (readCodes ps (r.drop 4)).map fun (l, z) => ((p, q) :: l, z)
      else if 0x80 ≤ c.toNat ∧ c.toNat ≤ 0x9F then
        match r with
        | e :: r' =>
          let s := c.toNat - 0x80
          if e.toNat < s || 31 < e.toNat then none
          else (readCodes ps r').map fun (l, z) => ((p, 2 ^ (e.toNat + 1) - 2 ^ s) :: l, z)
        | [] => none
      else none
    | [] => none

/-- The block that Q gives: P by xor downward, transposed back, summed (R256). -/
def fromPlanes (qs : List (Nat × Nat)) : List Byte :=
  let ps := (List.range 32).map fun p =>
    (List.range 32).foldl (fun a j => if p ≤ j then a ^^^ tget 0 qs j else a) 0
  let ds := (List.range 32).map fun i =>
    (List.range 32).foldl (fun a p => a + ps.getD p 0 / 2 ^ i % 2 * 2 ^ p) 0
  ((ds.foldl (fun (acc : List Byte × Nat) d =>
    let w := (acc.2 + d) % 2 ^ 32
    (acc.1 ++ leBytes 4 w, w)) ([], 0))).1

/-- The expander with the checks of R257: the block's 128 bytes and NSEC; none where it is corrupt.
A slot of zeros is (NSEC 0; DESIGN CHOICE, unsafe: log 19). -/
def decodeBlock (slot : List Byte) : Option (List Byte × Nat) :=
  let h := leNat (slot.take 8)
  let mode := h % 4
  let nsec := h / 16 % 8
  let pmap := h / 2 ^ 8 % 2 ^ 32
  let plen := h / 2 ^ 40 % 2 ^ 8
  let pay := slot.drop 8
  let tailOk := (pay.drop plen).all (· = 0x00#8)
  if h / 2 ^ 7 % 2 ≠ 0 || h / 2 ^ 48 ≠ 0 || nsec ≠ nsecOf plen || 152 < plen || !tailOk then none
  else match mode with
    | 0 => if plen = 0 ∧ pmap = 0 then some (List.replicate 128 0x00#8, nsec) else none
    | 1 => if plen = 4 ∧ pmap = 0 then some ((List.replicate 32 (pay.take 4)).flatten, nsec) else none
    | 2 =>
      match readCodes ((List.range 32).filter (fun p => pmap.testBit p)) (pay.take plen) with
      | some (qs, []) => some (fromPlanes qs, nsec)
      | _ => none
    | _ => if plen = 128 ∧ pmap = 0 then some (pay.take 128, nsec) else none

/-- A compressed block as a reader sees it: none where it is corrupt or a sector it needs holds an
uncorrectable error (R245, R257). -/
def readBlock (s : State) (slot : Nat) : Option (List Byte) :=
  match decodeBlock (rdN s.mem slot 160) with
  | some (bs, nsec) => if (List.range nsec).any (fun i => s.ecc.contains (slot + 32 * i)) then none else some bs
  | none => none

/-! ### The identity record (R427) -/

/-- The running firmware image. -/
def firmware (s : State) : List Byte := if s.plat.image.isEmpty then Config.deliveryImage else s.plat.image

/-- MEAS: SHA-384 of the running image, its first byte lowest (DESIGN CHOICE, unsafe: log 11); zero in recovery (R428). -/
def measOf (s : State) : Nat := if s.plat.recov then 0 else leNat (sha384 (firmware s))

/-- The 256 bytes of the identity record (R427). -/
def identity (s : State) : List Byte :=
  leBytes 8 (s.plat.ord + 16 + s.plat.pkg * 2 ^ 16) ++ leBytes 8 s.plat.subbase ++ leBytes 8 s.plat.platbase ++
    leBytes 8 (if s.plat.recov then 0 else s.plat.fwver) ++ leBytes 16 (Config.serial % 2 ^ 128) ++
    leBytes 48 (measOf s) ++ List.replicate 160 0

/-- The identity record with its two signatures: 64 and 3,309 bytes, zero in recovery (R427, R428). -/
def identityAll (s : State) : List Byte :=
  let sig := Config.signature (identity s)
  identity s ++ (List.range 3373).map (fun i => if s.plat.recov then 0 else sig.getD i 0)

/-- Some of n bytes from a physical address are not DRAM's: the identity record with its signatures and the platform page,
which the management controller holds and answers for (R425, R427; the record of every package stands there). -/
def mcHolds (s : State) (pa n : Nat) : Bool :=
  let meets (a len : Nat) : Bool := pa < a + len && a < pa + n
  meets (paMk (paPkg pa) 0 0 0) 3629 || meets s.plat.platbase 4096

/-- A target lies where the management controller answers, not memory. -/
def Tgt.held (s : State) : Tgt → Bool
  | .byte pa => mcHolds s pa 1
  | .blk slot _ _ => mcHolds s slot 160

/-! ### Reads and writes of places -/

/-- One byte at a target; none on an uncorrectable error. -/
def readTgt (s : State) : Tgt → Option Byte
  | .byte pa => if s.ecc.contains (codeWord pa) then none else some (rd8 s.mem pa)
  | .blk slot i _ => (readBlock s slot).map (·.getD i 0)

/-- The byte a place presents; PLN-pack gathers bit i of the tile into bit 7 - i (R262). -/
def readPlace (s : State) : Place → Option Byte
  | .one t => readTgt s t
  | .bits l =>
    (l.foldl (fun (a : Option Nat) tb => match a, readTgt s tb.1 with
      | some v, some b => some (v * 2 + b.toNat / 2 ^ tb.2 % 2)
      | _, _ => none) (some 0)).map (BitVec.ofNat 8)

/-- The bytes of an access, or the index of the first one that cannot be read. -/
def readPlaces (s : State) (ps : List Place) : Except Nat (List Byte) :=
  match ps.findIdx? (fun p => (readPlace s p).isNone) with
  | some i => .error i
  | none => .ok (ps.map (fun p => (readPlace s p).getD 0))

/-- Byte writes of one access to targets (R245, R259): code words covered whole lose their error, a
partial write into an erroneous code word or a corrupt block is dropped. True marks a dropped byte. A store to the identity
record or the platform page changes no memory (R427). A partial write recodes its block, and an error in a sector beyond NSEC,
which its decoding does not need, stays where it was (DESIGN CHOICE, unsafe: log 89). -/
def writeTgts (s : State) (all : List (Tgt × Byte)) : State × List Bool :=
  let l := all.filter (fun x => !x.1.held s)
  let pas := l.filterMap fun x => match x.1 with | .byte pa => some pa | .blk _ _ _ => none
  let slots := (l.filterMap fun x => match x.1 with
    | .blk slot _ ex => some (slot, ex)
    | .byte _ => none).dedup
  let whole (cw : Nat) := (List.range (if paSpace cw = 0 then 32 else 8)).all (fun i => pas.contains (cw + i))
  let lost (pa : Nat) := s.ecc.contains (codeWord pa) && !whole (codeWord pa)
  let s1 := l.foldl (fun t x => match x.1 with
    | .byte pa => if lost pa then t else { t with mem := wr8 t.mem pa x.2 }
    | .blk _ _ _ => t) s
  let s1 := { s1 with ecc := s1.ecc.filter (fun cw => !whole cw) }
  let blkBytes (slot : Nat) := l.filterMap fun x => match x.1 with
    | .blk sl i _ => if sl = slot then some (i, x.2) else none
    | .byte _ => none
  let step (acc : State × List Nat) (se : Nat × Nat) : State × List Nat :=
    let ws := blkBytes se.1
    let full := (List.range 128).all (fun i => ws.any (fun w => w.1 = i))
    let old := if full then some (List.replicate 128 0x00#8) else readBlock acc.1 se.1
    match old with
    | none => (acc.1, se.1 :: acc.2)
    | some bs =>
      let new := ws.foldl (fun b w => b.set w.1 w.2) bs
      let t := { acc.1 with mem := wrN acc.1.mem se.1 (encodeBlock new se.2) }
      (if full then { t with ecc := t.ecc.filter (fun cw => !(se.1 ≤ cw && cw < se.1 + 160)) } else t, acc.2)
  let r := slots.foldl step (s1, [])
  (r.1, all.map fun x => x.1.held s || match x.1 with
    | .byte pa => lost pa
    | .blk slot _ _ => r.2.contains slot)

/-- The eight bit merges of one PLN-pack byte (R262): true when one was dropped. -/
def writeBits (s : State) (l : List (Tgt × Nat)) (b : Byte) : State × Bool :=
  (l.zipIdx).foldl (fun (acc : State × Bool) (x : (Tgt × Nat) × Nat) =>
    let bit := b.toNat / 2 ^ (7 - x.2) % 2
    match readTgt acc.1 x.1.1 with
    | none => (acc.1, true)
    | some o =>
      let v := o.toNat - o.toNat / 2 ^ x.1.2 % 2 * 2 ^ x.1.2 + bit * 2 ^ x.1.2
      let r := writeTgts acc.1 [(x.1.1, BitVec.ofNat 8 v)]
      (r.1, acc.2 || r.2.any id)) (s, false)

/-- A number for a target: bytes of memory and bytes of compressed blocks are told apart. -/
def Tgt.key : Tgt → Nat
  | .byte pa => 2 * pa
  | .blk slot i _ => 2 * (slot + i) + 1

/-- The physical address of a target. -/
def Tgt.pa : Tgt → Nat
  | .byte pa => pa
  | .blk slot _ _ => slot

/-- The targets of a place. -/
def Place.tgts : Place → List Tgt
  | .one t => [t]
  | .bits l => l.map (·.1)

/-- How many writes a byte of another package has taken. -/
def writesOf (s : State) (t : Tgt) : Nat := tget 0 s.writes t.key

/-- Bytes of other packages count the writes they take, so that a timed-out one can be told from later ones (R142). -/
def countWrites (s : State) (l : List Place) : State :=
  let count (w : Tab Nat) (t : Tgt) : Tab Nat :=
    if paPkg t.pa ≠ s.plat.pkg then tset 0 w t.key (tget 0 w t.key + 1) else w
  { s with writes := (l.flatMap Place.tgts).foldl count s.writes }

/-- The byte writes of one access: the state, and the index of the first byte that was dropped. -/
def putPlaces (s : State) (l : List (Place × Byte)) : State × Option Nat :=
  let ones := l.filterMap fun x => match x.1 with | .one t => some (t, x.2) | .bits _ => none
  let r := writeTgts s ones
  if ones.length = l.length then (r.1, r.2.findIdx? id)
  else
    let lost := (ones.zip r.2).filterMap fun x => if x.2 then some x.1.1 else none
    (l.zipIdx).foldl (fun (acc : State × Option Nat) x => match x.1.1 with
      | .one t => (acc.1, if lost.contains t && acc.2.isNone then some x.2 else acc.2)
      | .bits t =>
        let q := writeBits acc.1 t x.1.2
        (q.1, if q.2 && acc.2.isNone then some x.2 else acc.2)) (r.1, none)

/-- The writes of one access: the state, and the index of the first byte that was dropped. -/
def writePlaces (s : State) (l : List (Place × Byte)) : State × Option Nat :=
  let r := putPlaces s l
  (countWrites r.1 (l.map (·.1)), r.2)

/-! ### Apertures (R261, R262) -/

/-- A die of the package. -/
def getDie (s : State) (d : Nat) : Die := (s.dies.find? (fun x => x.num = d)).getD (Die.reset d)

/-- A die replaced. -/
def setDie (s : State) (d : Die) : State :=
  { s with dies := s.dies.map (fun x => if x.num = d.num then d else x) }

/-- A disabled aperture. -/
def Aperture.reset : Aperture := { tgt := 0, len := 0, ctl := 0 }

/-- EN. -/
def Aperture.en (a : Aperture) : Bool := a.ctl.getLsbD 0
/-- XF. -/
def Aperture.xf (a : Aperture) : Nat := a.ctl.toNat / 2 % 8
/-- The element size of the transpose in bytes. -/
def Aperture.esz (a : Aperture) : Nat := 2 ^ (a.ctl.toNat / 16 % 4)
/-- The group of the byte reversal in bytes. -/
def Aperture.gsz (a : Aperture) : Nat := 2 * 2 ^ (a.ctl.toNat / 64 % 4)
/-- RO. -/
def Aperture.ro (a : Aperture) : Bool := a.ctl.getLsbD 8
/-- NR. -/
def Aperture.nr (a : Aperture) : Nat := a.ctl.toNat / 2 ^ 16 % 2 ^ 16
/-- NC. -/
def Aperture.nc (a : Aperture) : Nat := a.ctl.toNat / 2 ^ 32 % 2 ^ 16

/-- The target offset (from TBASE) of window offset o for the byte transforms 0, 3 and 4 (R262). -/
def Aperture.map (a : Aperture) (o : Nat) : Nat :=
  if a.xf = 3 then
    let sz := a.esz
    let q := o / sz
    sz * (q % (a.nr + 1) * (a.nc + 1) + q / (a.nr + 1)) + o % sz
  else if a.xf = 4 then a.gsz * (o / a.gsz) + a.gsz - 1 - o % a.gsz
  else o

/-- The target offset and bit of plane i of PLN-pack offset o (R262). -/
def plnBit (o i : Nat) : Nat × Nat :=
  let e := o % 16384
  (16384 * (o / 16384) + 2048 * i + 16 * (e / 128) + e % 128 / 8, e % 128 % 8)

/-- The place a program's access reaches. What the management controller answers for is no program's to reach (R2, R425): its
address translates to nothing. DEDUCED, unsafe: log 80. -/
def Place.reach (s : State) (p : Place) : Except (Nat × Nat) Place :=
  if p.tgts.any (·.held s) then .error (0x0C, 4) else .ok p

/-- The place of byte o of an extent (R249, R262), or the fault and its XREC7. A compressed extent over
a window whose transform moves bytes finds block x div 128 at TBASE + 160 (x div 128), x the target
offset of the logical byte; a raw window shows slot bytes (log 14). A window whose PKG names another package, whose aperture
registers the machine does not hold, answers as a disabled one (DESIGN CHOICE, safe: log 90). -/
def placeOf (s : State) (e : Extent) (o : Nat) (wr : Bool) : Except (Nat × Nat) Place :=
  let slotOff := 160 * (o / 128)
  let phys := if e.cmp then e.pbase + slotOff else e.pbase + o
  if paSpace e.pbase ≠ 3 then
    if !paOk phys then .error (0x0C, 4)
    else Place.reach s (.one (if e.cmp then .blk phys (o % 128) e.expt else .byte phys))
  else
    let n := paOff e.pbase / 2 ^ 36
    let p0 := paOff e.pbase % 2 ^ 36
    let a := tget Aperture.reset (getDie s (paDie e.pbase)).aps n
    let wo := if e.cmp && a.xf = 0 then p0 + slotOff else p0 + o
    if !paOk phys || n ≥ 16 || paPkg e.pbase ≠ s.plat.pkg || !a.en || a.len.toNat ≤ wo then .error (0x0C, 4)
    else if wr && a.ro then .error (0x0D, 3)
    else
      let tb := a.tgt.toNat
      let tgt (x : Nat) : Tgt := if e.cmp then .blk (tb + 160 * (x / 128)) (x % 128) e.expt else .byte (tb + x)
      Place.reach s (match a.xf with
      | 0 => .one (if e.cmp then .blk (tb + wo) (o % 128) e.expt else .byte (tb + wo))
      | 1 => .one (.byte (tb + wo))
      | 2 => .bits ((List.range 8).map fun i => (tgt (plnBit wo i).1, (plnBit wo i).2))
      | _ => .one (tgt (a.map wo)))

/-- The physical address a place has its home at. -/
def Place.pa : Place → Nat
  | .one (.byte pa) => pa
  | .one (.blk slot _ _) => slot
  | .bits ((.byte pa, _) :: _) => pa
  | .bits ((.blk slot _ _, _) :: _) => slot
  | .bits [] => 0

/-- The physical runs of a place's bytes; a byte of a compressed block stands at its offset in the slot. -/
def Place.runs (p : Place) : List (Nat × Nat) :=
  p.tgts.map fun t => match t with | .byte pa => (pa, 1) | .blk slot i _ => (slot + i, 1)

/-- Two lists of physical runs meet. -/
def runsMeet (l m : List (Nat × Nat)) : Bool := l.any (fun x => m.any (fun y => x.1 < y.1 + y.2 && y.1 < x.1 + x.2))

/-! ### Extents (R247, R249) -/

/-- Page size in bytes. -/
def pageSize (ps : Nat) : Nat := 2 ^ ([12, 16, 21, 26, 30, 35].getD ps 12)

/-- The bytes an extent covers. -/
def Extent.len (e : Extent) : Nat := e.npg * pageSize e.ps

/-- The extent that holds an address. -/
def findExt (es : List Extent) (va : Nat) : Option Extent :=
  if va < 2 ^ 57 then es.find? (fun e => e.vbase ≤ va && va < e.vbase + e.len) else none

/-- An access split by extents: (extent, offset, bytes), none where a byte lies in no extent. -/
def spans (es : List Extent) : Nat → Nat → Nat → Option (List (Extent × Nat × Nat))
  | _, _, 0 => some []
  | 0, _, _ => none
  | fuel + 1, va, len =>
    match findExt es va with
    | none => none
    | some e =>
      let o := va - e.vbase
      let n := min len (e.len - o)
      (spans es fuel (va + n) (len - n)).map fun l => (e, o, n) :: l

/-- The spans of an access of a core. -/
def coreSpans (c : Core) (va len : Nat) : Option (List (Extent × Nat × Nat)) :=
  spans c.extents (c.extents.length + 1) va len

/-- The places of one span. -/
def spanPlaces (s : State) (wr : Bool) (x : Extent × Nat × Nat) : Except (Nat × Nat) (List Place) :=
  (List.range x.2.2).foldr (fun i acc => match placeOf s x.1 (x.2.1 + i) wr, acc with
    | .ok p, .ok l => .ok (p :: l)
    | .error f, _ => .error f
    | _, .error f => .error f) (.ok [])

/-- The places of an access. DEDUCED, unsafe: log 14. -/
def spansPlaces (s : State) (wr : Bool) (l : List (Extent × Nat × Nat)) : Except (Nat × Nat) (List Place) :=
  l.foldr (fun x acc => match spanPlaces s wr x, acc with
    | .ok p, .ok q => .ok (p ++ q)
    | .error f, _ => .error f
    | _, .error f => .error f) (.ok [])

/-- The places of an access of a core whose extents have been found; a translation fault otherwise. -/
def places (s : State) (c : Core) (va len : Nat) (wr : Bool) : Except (Nat × Nat) (List Place) :=
  match coreSpans c va len with
  | none => .error (0x0C, 0)
  | some l => spansPlaces s wr l

/-- The physical runs (address, bytes) of a range that lies wholly in its own core's scratchpad. -/
def ownSpad (s : State) (c : Core) (va len : Nat) : Option (List (Nat × Nat)) :=
  match coreSpans c va len with
  | some l =>
    if l.all (fun x => !x.1.cmp && paSpace x.1.pbase = 2 && paPkg x.1.pbase = s.plat.pkg &&
        paCore (x.1.pbase + x.2.1) = c.num && paCore (x.1.pbase + x.2.1 + x.2.2 - 1) = c.num) then
      some (l.map (fun x => (x.1.pbase + x.2.1, x.2.2)))
    else none
  | none => none

/-- Bytes written over physical runs. -/
def wrRuns (m : List Host.Cell) : List (Nat × Nat) → List Byte → List Host.Cell
  | [], _ => m
  | x :: r, bs => wrRuns (wrN m x.1 (bs.take x.2)) r (bs.drop x.2)

end Sys2Proof.Machine
end

