-- ==== Sys2Proof/Machine/Float.lean ====
section
/-! DEFINITION. Number formats (R43-R53), rounding (R57, R60) and exact arithmetic before it. -/

namespace Sys2Proof.Machine

/-- Width of a format code in bits (R43). -/
def fmtBits (f : Nat) : Nat := [8, 16, 32, 32, 16, 16, 8, 8].getD f 32
/-- The container width c of an element (R287). -/
def contBits (f : Nat) : Nat := if f = 2 ∨ f = 3 then 32 else 16
/-- FP32, BF16 or FP16. -/
def fmtFloat (f : Nat) : Bool := f = 3 || f = 4 || f = 5
/-- INT8, INT16 or INT32. -/
def fmtInt (f : Nat) : Bool := f ≤ 2

/-- Fraction bits of a floating format (R49). -/
def fracBits (f : Nat) : Nat := if f = 3 then 23 else if f = 4 then 7 else 10
/-- Exponent bias. -/
def expBias (f : Nat) : Nat := if f = 5 then 15 else 127
/-- All-ones exponent. -/
def expMax (f : Nat) : Nat := if f = 5 then 31 else 255
/-- The canonical NaN (R50). -/
def canonNan (f : Nat) : Nat := if f = 3 then 0x7FC00000 else if f = 4 then 0x7FC0 else 0x7E00
/-- The pattern of an infinity. -/
def infBits (f : Nat) (neg : Bool) : Nat := expMax f * 2 ^ fracBits f + (if neg then 2 ^ (fmtBits f - 1) else 0)

/-- The exact value of a floating pattern, subnormals included (R49, R50). -/
def unpackF (f bits : Nat) : Fv :=
  let fb := fracBits f
  let neg := bits.testBit (fmtBits f - 1)
  let ex := bits / 2 ^ fb % (expMax f + 1)
  let fr := bits % 2 ^ fb
  if ex = expMax f then (if fr = 0 then .inf neg else .nan)
  else if ex = 0 then .fin neg fr (1 - (expBias f : Int) - fb)
  else .fin neg (2 ^ fb + fr) ((ex : Int) - expBias f - fb)

/-- The value of an E8 scale (R53). -/
def unpackE8 (e : Nat) : Fv := if e = 255 then .nan else .fin false 1 ((e : Int) - 127)

/-- |x| = m 2^e (with more below when sticky) rounded to a multiple of 2^q in mode rm (R57, R60); the
count of 2^q. m must reach below 2^q when sticky. -/
def roundTo (rm rb : Nat) (neg : Bool) (m : Nat) (e : Int) (sticky : Bool) (q : Int) : Nat :=
  if q ≤ e then m * 2 ^ (e - q).toNat
  else
    let sh := (q - e).toNat
    let n := m / 2 ^ sh
    let r := m % 2 ^ sh
    if r = 0 ∧ !sticky then n
    else
      let up : Bool := match rm with
        | 0 => if 2 * r = 2 ^ sh then sticky || n % 2 = 1 else 2 ^ sh < 2 * r
        | 1 => false
        | 2 => neg
        | 3 => !neg
        | _ =>
          let w := r * 2 ^ 16 / 2 ^ sh
          let st := sticky || r * 2 ^ 16 % 2 ^ sh ≠ 0
          rb < (if st then w ||| 1 else w)
      if up then n + 1 else n

/-- An exact value rounded into a floating format: overflow follows R57, a NaN is canonical (R50). -/
def packF (f rm rb : Nat) (sticky : Bool) : Fv → Nat
  | .nan => canonNan f
  | .inf neg => infBits f neg
  | .fin neg m e =>
    let fb : Int := fracBits f
    let sign := if neg then 2 ^ (fmtBits f - 1) else 0
    if m = 0 then sign
    else
      let emin : Int := 1 - expBias f
      let q := max ((Nat.log2 m : Int) + e - fb) (emin - fb)
      let n := roundTo rm rb neg m e sticky q
      let bits := (q + fb + expBias f - 1).toNat * 2 ^ fracBits f + n
      if bits < expMax f * 2 ^ fracBits f then sign + bits
      else if rm = 1 ∨ (rm = 2 ∧ !neg) ∨ (rm = 3 ∧ neg) then sign + expMax f * 2 ^ fracBits f - 1
      else infBits f neg

/-- A signed integer as an exact value. -/
def ofIntF (x : Int) : Fv := .fin (decide (x < 0)) x.natAbs 0

/-- -x. -/
def negF : Fv → Fv
  | .nan => .nan
  | .inf n => .inf (!n)
  | .fin n m e => .fin (!n) m e

/-- x + y exactly; an exact zero takes its IEEE 754 sign in mode rm. -/
def addF (rm : Nat) : Fv → Fv → Fv
  | .nan, _ => .nan
  | _, .nan => .nan
  | .inf a, .inf b => if a = b then .inf a else .nan
  | .inf a, _ => .inf a
  | _, .inf b => .inf b
  | .fin a m e, .fin b n g =>
    let lo := min e g
    let x : Int := (if a then -1 else 1) * (m * 2 ^ (e - lo).toNat : Nat)
    let y : Int := (if b then -1 else 1) * (n * 2 ^ (g - lo).toNat : Nat)
    let s := x + y
    if s = 0 then .fin (if m = 0 ∧ n = 0 ∧ a = b then a else rm = 2) 0 0 else .fin (s < 0) s.natAbs lo

/-- x * y exactly. -/
def mulF : Fv → Fv → Fv
  | .nan, _ => .nan
  | _, .nan => .nan
  | .inf a, .inf b => .inf (a != b)
  | .inf a, .fin b n _ => if n = 0 then .nan else .inf (a != b)
  | .fin a m _, .inf b => if m = 0 then .nan else .inf (a != b)
  | .fin a m e, .fin b n g => .fin (a != b) (m * n) (e + g)

/-- The sign of x - y for values that are no NaN: -0 equals +0. -/
def cmpF : Fv → Fv → Int
  | .inf a, .inf b => (if a then -1 else 1) - (if b then -1 else 1)
  | .inf a, _ => if a then -1 else 1
  | _, .inf b => if b then 1 else -1
  | .fin a m e, .fin b n g =>
    let lo := min e g
    (if a then -1 else 1) * (m * 2 ^ (e - lo).toNat : Nat) - (if b then -1 else 1) * (n * 2 ^ (g - lo).toNat : Nat)
  | _, _ => 0

/-- A NaN. -/
def isNan : Fv → Bool
  | .nan => true
  | _ => false

/-- The sign of a value; a NaN's is false. -/
def signF : Fv → Bool
  | .nan => false
  | .inf n => n
  | .fin n _ _ => n

/-- Minimum or maximum of R299: a NaN propagates, -0 lies below +0. -/
def minMaxF (isMax : Bool) (x y : Fv) : Fv :=
  if isNan x || isNan y then .nan
  else
    let c := cmpF x y
    let xLow : Bool := c < 0 || (c = 0 && signF x)
    if isMax then (if xLow then y else x) else (if xLow then x else y)

/-- Conversion of a floating value to an n-bit integer (R52): rounded, saturated, a NaN gives 0. -/
def toIntF (n rm rb : Nat) : Fv → Nat
  | .nan => 0
  | .inf neg => if neg then 2 ^ (n - 1) else 2 ^ (n - 1) - 1
  | .fin neg m e =>
    let v : Int := (if neg then -1 else 1) * (roundTo rm rb neg m e false 0 : Nat)
    wrapN n (min (max v (-(2 ^ (n - 1) : Int))) (2 ^ (n - 1) - 1))

/-- Newton's iteration toward the integer square root, from above. -/
def sqrtStep (n : Nat) : Nat → Nat → Nat
  | 0, x => x
  | f + 1, x => let y := (x + n / x) / 2; if y < x then sqrtStep n f y else x

/-- The integer square root. -/
def isqrt (n : Nat) : Nat := if n = 0 then 0 else sqrtStep n (Nat.log2 n + 2) (2 ^ (Nat.log2 n / 2 + 1))

/-- 1/a rounded once (R306). -/
def rcpF (f rm rb : Nat) : Fv → Nat
  | .nan => canonNan f
  | .inf n => if n then 2 ^ (fmtBits f - 1) else 0
  | .fin n m e =>
    if m = 0 then infBits f n
    else
      let k := Nat.log2 m + 64
      packF f rm rb (2 ^ k % m ≠ 0) (.fin n (2 ^ k / m) (-(e + k)))

/-- 1/sqrt(a) rounded once (R306). -/
def rsqF (f rm rb : Nat) : Fv → Nat
  | .nan => canonNan f
  | .inf n => if n then canonNan f else 0
  | .fin n m e =>
    if m = 0 then infBits f n
    else if n then canonNan f
    else
      let m' := if e % 2 = 0 then m else 2 * m
      let e' := if e % 2 = 0 then e else e - 1
      let k := Nat.log2 m' + 128
      let k := k + k % 2
      let q := 2 ^ k / m'
      let r := isqrt q
      packF f rm rb (r * r * m' ≠ 2 ^ k) (.fin false r (-(e' + k) / 2))

/-- Fixed-point precision of exp2F. -/
def exp2Prec : Nat := 512

/-- 2^(0.b1 b2 ...) to exp2Prec bits below the point by repeated square roots: bit i of the fraction fr
(of n bits) multiplies by 2^(2^-i). -/
def exp2Frac (fr n : Nat) : Nat :=
  ((List.range n).foldl (fun (a : Nat × Nat) i =>
    let root := isqrt (a.1 * 2 ^ exp2Prec)
    (root, if fr.testBit (n - 1 - i) then a.2 * root / 2 ^ exp2Prec else a.2))
    (2 ^ (exp2Prec + 1), 2 ^ exp2Prec)).2

/-- 2^a rounded once (R306). A fractional a gives an irrational value, approximated to 500 bits and more
before the one rounding. DESIGN CHOICE, unsafe: log 15. -/
def exp2F (f rm rb : Nat) : Fv → Nat
  | .nan => canonNan f
  | .inf n => if n then 0 else infBits f false
  | .fin n m e =>
    if m = 0 then packF f rm rb false (.fin false 1 0)
    else if 0 ≤ e then
      let x : Int := (if n then -1 else 1) * (min (m * 2 ^ (min e 20).toNat) 100000 : Nat)
      packF f rm rb false (.fin false 1 x)
    else
      let d := (-e).toNat
      let v : Int := (if n then -1 else 1) * (m : Int)
      let ip := v / (2 ^ d : Int)
      let fr := (v % (2 ^ d : Int)).toNat
      if fr = 0 then packF f rm rb false (.fin false 1 (max (min ip 100000) (-100000)))
      else if 100000 < ip then packF f rm rb true (.fin false (2 ^ 64) 100000)
      else if ip < -100000 then packF f rm rb true (.fin false (2 ^ 64) (-100000))
      else packF f rm rb true (.fin false (exp2Frac fr d) (ip - exp2Prec))

/-- FP32 addition under RNE, as atomics, reductions and the engines make it (R57). -/
def fadd32 (a b : Nat) : Nat := packF 3 0 0 false (addF 0 (unpackF 3 a) (unpackF 3 b))

end Sys2Proof.Machine
end

