-- ==== Sys2Proof/WellFormed.lean ====
section
/-! DEFINITION. Well-formed instruction words: every field in the range its format and its entry give
it, every unused field zero (R69). A word that breaks one of these raises reserved-field (0x02), or
illegal-instruction (0x01) for RAMP (R84). -/

namespace Sys2Proof

/-- A ramp class of R19. -/
def rampOk (r : Nat) : Bool := r ≤ 5

/-- A scalar register number. -/
def sOk (n : Nat) : Bool := n < 64

/-- s1-s55: the registers proper, without s0 and the ports. -/
def sProper (n : Nat) : Bool := 1 ≤ n && n ≤ 55

/-- A scope code of R74. -/
def scOk (n : Nat) : Bool := n ≤ 4

/-- A 36-bit raw immediate whose signed value lies in 0..63 (R189, R192). -/
def imm63 (n : Nat) : Bool := n < 64

/-- The control registers of R153 by number. -/
def crNumOk (n : Nat) : Bool :=
  n ≤ 0x002 || (0x008 ≤ n && n ≤ 0x00A) || (0x00C ≤ n && n ≤ 0x012) || (0x018 ≤ n && n ≤ 0x01B) ||
  (0x020 ≤ n && n ≤ 0x023) || n == 0x028 || (0x100 ≤ n && n ≤ 0x104) || (0x108 ≤ n && n ≤ 0x11A)

/-- UHTOP's control-register number (R153). -/
def crUhtop : Nat := 0x119

/-- Field widths of SREG. -/
def SregW.fits (f : SregW) : Bool :=
  rampOk f.ramp && sOk f.d && sOk f.a && sOk f.b && f.ty < 8 && f.c < 64 && f.e < 2

/-- Field widths of SIMM. -/
def SimmW.fits (f : SimmW) : Bool :=
  rampOk f.ramp && sOk f.d && sOk f.a && f.ty < 8 && f.imm < 2 ^ 36

/-- Field widths of SWIDE. -/
def SwideW.fits (f : SwideW) : Bool := rampOk f.ramp && sOk f.d && f.h < 2 && f.imm < 2 ^ 32

/-- Field widths of SMEM, with the scope's range (R74). -/
def SmemW.fits (f : SmemW) : Bool :=
  rampOk f.ramp && sOk f.d && sOk f.a && f.cl < 16 && scOk f.sc && f.ty < 8 && f.b < 64 && f.off < 2 ^ 23

/-- Field widths of SATM, with the scope's range. -/
def SatmW.fits (f : SatmW) : Bool :=
  rampOk f.ramp && sOk f.d && sOk f.a && f.cl < 16 && scOk f.sc && sOk f.b && sOk f.c && f.off < 2 ^ 16

/-- Field widths of SBR. -/
def SbrW.fits (f : SbrW) : Bool :=
  rampOk f.ramp && sOk f.d && sOk f.a && sOk f.b && f.cc < 16 && f.off < 2 ^ 29

/-- Field widths of SSYS. -/
def SsysW.fits (f : SsysW) : Bool :=
  rampOk f.ramp && sOk f.d && sOk f.a && f.k < 64 && f.sc < 8 && f.mask < 2 ^ 16 && f.sel < 2 ^ 14

/-- Field widths of VREG; format codes 0x8-0xF and RM 5, 6 are reserved (R43, R77). -/
def VregW.fits (f : VregW) : Bool :=
  rampOk f.ramp && f.vd < 32 && f.va < 32 && f.vb < 32 && f.vc < 32 && f.pm < 16 && f.fmt < 8 &&
  f.rm < 8 && f.rm != 5 && f.rm != 6 && sOk f.sa && f.imm < 2 ^ 14

/-- Field widths of VMEM. -/
def VmemW.fits (f : VmemW) : Bool :=
  rampOk f.ramp && f.vd < 32 && sOk f.a && f.cl < 16 && scOk f.sc && f.pm < 16 && f.fmt < 8 &&
  sOk f.b && f.off < 2 ^ 19

/-- Field widths of ENG with EREG. -/
def EregW.fits (f : EregW) : Bool :=
  rampOk f.ramp && f.kp < 64 && f.kc0 < 64 && f.kc1 < 64 && f.kc2 < 64 && sOk f.a && sOk f.b && sOk f.c &&
  f.md < 2 ^ 9

/-- Field widths of ENG with ESTAMP. -/
def EstampW.fits (f : EstampW) : Bool :=
  rampOk f.ramp && f.kp < 64 && f.kc0 < 64 && f.kc1 < 64 && f.kc2 < 64 && f.stamp < 4096 && f.opf < 2 ^ 15

/-- SREG: B, C and E unused. -/
def SregW.noBCE (f : SregW) : Bool := f.b == 0 && f.c == 0 && f.e == 0

/-- SREG: C and E unused. -/
def SregW.noCE (f : SregW) : Bool := f.c == 0 && f.e == 0

/-- A rounding mode of the floating class (R294): 0-4 or 7. -/
def rmFloat (rm : Nat) : Bool := rm ≤ 4 || rm == 7

/-- The RM of a word that is integer for INT formats and floating for FP32, BF16, FP16 (R294). A
format no entry allows (0x6, 0x7) is left to operand-format. -/
def rmByFmt (fmt rm : Nat) : Bool := if fmt ≤ 2 then rm ≤ 1 else rmFloat rm

/-- The RM of VCVT (R294): integer to integer takes wrap or saturate, every other pair rounds. -/
def rmCvt (src dst rm : Nat) : Bool := if src ≤ 2 && dst ≤ 2 then rm ≤ 1 else rmFloat rm

/-- The RM of a reduction (R294): every reduction of a floating format has a rounding mode, of the integer ones add
alone wraps or saturates; min, max and xor of integers have none, and E8, which is no floating format (R49), has none. -/
def rmRed (op fmt rm : Nat) : Bool := if (fmt ≤ 2 && op != 0) || fmt == 6 then rm == 0 else rmByFmt fmt rm

/-- VREG: a binary word `vd, va, vb`. -/
def VregW.bin (f : VregW) : Bool := f.vc == 0 && f.sa == 0 && f.imm == 0

/-- VREG: a unary word `vd, va`. -/
def VregW.un (f : VregW) : Bool := f.vb == 0 && f.vc == 0 && f.sa == 0 && f.imm == 0

/-- VREG: a unary word with an immediate. -/
def VregW.unImm (f : VregW) : Bool := f.vb == 0 && f.vc == 0 && f.sa == 0

/-- A mask destination p1-p15: VD 16-31 and p0 are refused (R289, R301). -/
def maskDst (n : Nat) : Bool := 1 ≤ n && n < 16

/-- The width of an integer format code. A shift of another format is refused for its format (0x12) after the fields are checked,
and the rules do not say against which width its count is checked before: 32, which every count is below (DESIGN CHOICE, unsafe:
log 99). -/
def intFmtBits (fmt : Nat) : Nat := if fmt == 0 then 8 else if fmt == 1 then 16 else 32

/-- A shift's count is below the format's width and the rest of IMM is zero (R299). -/
def VregW.shiftOk (f : VregW) : Bool := f.unImm && f.rm == 0 && f.imm < intFmtBits f.fmt

/-- EREG: C unused. -/
def EregW.noC (f : EregW) : Bool := f.c == 0

/-- EREG: B and C unused. -/
def EregW.noBC (f : EregW) : Bool := f.b == 0 && f.c == 0

/-- EREG: no scalar operand. -/
def EregW.noABC (f : EregW) : Bool := f.a == 0 && f.b == 0 && f.c == 0

/-- SSYS words with no operand at all. -/
def SsysW.bare (f : SsysW) : Bool :=
  f.fits && f.d == 0 && f.a == 0 && f.k == 0 && f.sc == 0 && f.mask == 0 && f.sel == 0

/-- SSYS: K, SC and MASK unused. -/
def SsysW.noKScMask (f : SsysW) : Bool := f.k == 0 && f.sc == 0 && f.mask == 0

/-- The operand limits of an erasing SREG form (R191, R192). -/
def EReg.ok (op : EReg) (f : SregW) : Bool :=
  f.fits &&
  match op with
  | .mov | .ext | .norm | .popc => f.noBCE
  | .clr => f.a == 0 && f.noBCE
  | .cmplt => f.noCE && f.ty ≤ 3
  | .cmplo => f.noCE && 4 ≤ f.ty
  | _ => f.noCE

/-- The operand limits of an erasing SIMM form (R192). -/
def EImm.ok (op : EImm) (f : SimmW) : Bool :=
  f.fits &&
  match op with
  | .andi | .ori => true
  | .shli | .shri | .sari => imm63 f.imm
  | .movi => f.a == 0
  | .bfx => f.imm < 4096 && (f.imm % 64 + f.imm / 64 + 1 ≤ 64) && (f.ty == 0 || f.ty == 4)
  | .bfi => f.imm < 4096 && (f.imm % 64 + f.imm / 64 + 1 ≤ 64) && f.ty == 0

/-- The sources of an erasing form other than its destination. -/
def EForm.sources : EForm → List Nat
  | .reg .clr _ => []
  | .reg .mov f | .reg .ext f | .reg .norm f | .reg .popc f => [f.a]
  | .reg _ f => [f.a, f.b]
  | .imm .movi _ => []
  | .imm _ f => [f.a]
  | .wide _ => []

/-- The destination of an erasing form. -/
def EForm.dst : EForm → Nat
  | .reg _ f => f.d
  | .imm _ f => f.d
  | .wide f => f.d

/-- The plain form's limits. -/
def EForm.plainOk : EForm → Bool
  | .reg op f => op.ok f
  | .imm op f => op.ok f
  | .wide f => f.fits

/-- .k and .b: D in s1-s55 and different from every register the word reads (R194). -/
def EForm.keepOk (e : EForm) : Bool := e.plainOk && sProper e.dst && !(e.sources.contains e.dst)

/-- A residency flag register: none, or in s1-s55 and not D (R208). -/
def SmemW.flagOk (f : SmemW) : Bool := f.b == 0 || (sProper f.b && f.b != f.d)

/-- Every instruction word's field limits. Events carry no encoding: they are well formed, but for
`illegalInstruction`, whose word must have an unassigned opcode (`wellFormed` leaves that to Decode). -/
def Instr.wf : Instr → Bool
  | .nop f => f.bare
  | .add f | .sub f | .xor f | .rol f | .mulo f => f.fits && f.a != f.d && f.noBCE
  | .neg f => f.fits && f.a == 0 && f.noBCE
  | .swap f => f.fits && f.noBCE
  | .cswap f => f.fits && f.b == 0 && f.e == 0 && f.c != f.d && f.c != f.a
  | .bperm f =>
    f.fits && f.e == 0 && f.d % 2 == 0 && 2 ≤ f.d && f.d ≤ 54 && f.b < 8 && f.a == 0 && f.ty == 0 && f.c == 0
  | .bpermE f =>
    f.fits && f.e == 1 && f.d % 2 == 0 && 2 ≤ f.d && f.d ≤ 54 && f.b < 8 && f.a % 2 == 0 && f.a ≤ 54 &&
    f.ty == 0 && f.c == 0
  | .addi f | .xori f => f.fits && f.a == 0
  | .roli f => f.fits && f.a == 0 && imm63 f.imm
  | .muloi f => f.fits && f.a == 0 && f.imm % 2 == 1
  | .xorw f => f.fits
  | .add3 f => EReg.ok .add3 f
  | .sub3 f => EReg.ok .sub3 f
  | .xor3 f => EReg.ok .xor3 f
  | .and f => EReg.ok .and f
  | .or f => EReg.ok .or f
  | .mul f => EReg.ok .mul f
  | .mulh f => EReg.ok .mulh f
  | .min f | .max f => f.fits && f.noBCE
  | .minK f | .maxK f | .minB f | .maxB f =>
    f.fits && f.noBCE && sProper f.d && sProper f.a && f.d != f.a
  | .keepForm e | .backForm e => e.keepOk
  | .shl f => EReg.ok .shl f
  | .shr f => EReg.ok .shr f
  | .sar f => EReg.ok .sar f
  | .mov f => EReg.ok .mov f
  | .clr f => EReg.ok .clr f
  | .ext f => EReg.ok .ext f
  | .norm f => EReg.ok .norm f
  | .popc f => EReg.ok .popc f
  | .cmpeq f => EReg.ok .cmpeq f
  | .cmplt f => EReg.ok .cmplt f
  | .cmplo f => EReg.ok .cmplo f
  | .andi f => EImm.ok .andi f
  | .ori f => EImm.ok .ori f
  | .shli f => EImm.ok .shli f
  | .shri f => EImm.ok .shri f
  | .sari f => EImm.ok .sari f
  | .movi f => EImm.ok .movi f
  | .movw f => f.fits
  | .bfx f => EImm.ok .bfx f
  | .bfi f => EImm.ok .bfi f
  | .bpld f => f.fits && f.d < 8 && f.ty == 0 && f.b == 0
  | .bc f => f.fits && f.d == 0 && f.cc ≤ 6 && (f.cc != 0 || (f.a == 0 && f.b == 0))
  | .call f => f.fits && sProper f.d && f.a == 0 && f.b == 0 && f.cc == 0
  | .ret f => f.fits && f.d == 0 && f.b == 0 && f.cc == 0 && f.off == 0
  | .loop f => f.fits && sProper f.a && f.d == 0 && f.b == 0 && f.cc == 0
  | .ld f | .ldx f => f.fits && f.flagOk
  | .st f | .stx f => f.fits && f.b == 0
  | .swpm f => f.fits && sProper f.d && f.b == 0
  | .atomCas f => f.fits
  | .atomAdd f | .atomMin f | .atomMax f | .atomAnd f | .atomOr f | .atomXor f | .atomSwp f | .atomFadd f =>
    f.fits && f.c == 0
  | .fence f => f.fits && f.d == 0 && f.a == 0 && f.k == 0 && scOk f.sc && f.sel == 0
  | .tmark f => f.fits && f.d == 0 && f.a == 0 && f.k ≤ 62 && scOk f.sc && f.sel == 0
  | .twait f => f.fits && f.d == 0 && f.a == 0 && f.k ≤ 62 && f.sc == 0 && f.mask == 0 && f.sel == 0
  | .syexp f | .sywait f => f.fits && f.noKScMask && f.sel == 0
  | .syarr f => f.fits && f.k == 0 && f.sc == 0 && f.sel == 0
  | .qwait f => f.fits && f.d == 0 && f.a == 0 && f.k < 8 && f.sc == 0 && f.mask == 0 && f.sel == 0
  | .hclaim f | .hrel f => f.fits && f.d == 0 && f.a == 0 && f.k < 32 && f.sc == 0 && f.mask == 0 && f.sel == 0
  | .wsend f | .xbar f => f.bare
  | .pgreq f => f.fits && f.d == 0 && f.noKScMask && f.sel == 0
  | .hpush f | .hpop f => f.fits && sProper f.d && f.a == 0 && f.noKScMask && 1 ≤ f.sel && f.sel ≤ 64
  | .hspill f | .hfill f | .erase f => f.fits && f.noKScMask && f.sel == 0
  | .hmark f | .hchk f => f.fits && f.d == 0 && f.a == 0 && f.noKScMask && f.sel ≤ 3
  | .hdrop f => f.fits && f.d == 0 && f.a == 0 && f.noKScMask && 1 ≤ f.sel
  | .vld f | .vldx f | .vst f | .vstx f | .vswpm f => f.fits
  | .vadd f | .vsub f | .vmul f => f.fits && f.bin && rmByFmt f.fmt f.rm
  | .vfma f => f.fits && f.sa == 0 && f.imm == 0 && rmByFmt f.fmt f.rm
  | .vmin f | .vmax f | .vand f | .vor f | .vxor f => f.fits && f.bin && f.rm == 0
  | .vabs f | .vneg f => f.fits && f.un && rmByFmt f.fmt f.rm
  | .vshl f | .vshr f | .vsar f => f.fits && f.shiftOk
  | .vradd f | .vrsub f | .vrxor f => f.fits && f.un && f.rm == 0 && f.va != f.vd
  | .vswap f => f.fits && f.un && f.rm == 0
  | .vcmpeq f | .vcmplt f | .vcmple f => f.fits && f.bin && f.rm == 0 && maskDst f.vd
  | .vclass f => f.fits && f.unImm && f.rm == 0 && f.imm < 512 && maskDst f.vd
  | .vsel f => f.fits && f.sa == 0 && f.imm == 0 && f.rm == 0 && f.vc < 16
  | .vcvt f => f.fits && f.unImm && f.imm < 16 && rmCvt f.fmt f.imm f.rm
  | .vscacc f => f.fits && f.sa == 0 && rmFloat f.rm
  | .vredr f => f.fits && f.unImm && f.imm < 4 && rmRed f.imm f.fmt f.rm
  | .vredrScalar f =>
    f.fits && f.vd == 0 && f.vb == 0 && f.vc == 0 && f.pm == 0 && f.imm / 4 % 2 == 1 && f.imm < 1024 &&
    rmRed (f.imm % 4) f.fmt f.rm
  | .vredc f => f.fits && f.unImm && f.imm < 4 && rmRed f.imm f.fmt f.rm
  | .vrot f => f.fits && f.va == 0 && f.pm == 0 && f.unImm && f.rm == 0 && f.imm < 16
  | .vbcast f | .vxcol f => f.fits && f.unImm && f.rm == 0 && f.imm < 16
  | .vrcp f | .vrsq f | .vexp2 f => f.fits && f.un && rmFloat f.rm
  | .vamax f => f.fits && f.vd == 0 && f.vb == 0 && f.vc == 0 && f.rm == 0 && f.imm == 0
  | .vamaxClr f => f.fits && f.vd == 0 && f.vb == 0 && f.vc == 0 && f.rm == 0 && f.imm == 1
  | .vmovs f => f.fits && f.va == 0 && f.vb == 0 && f.vc == 0 && f.rm == 0 && f.pm == 0 && f.imm < 2048
  | .vmovsAll f => f.fits && f.va == 0 && f.vb == 0 && f.vc == 0 && f.rm == 0 && f.imm == 2048
  | .vmovv f => f.fits && f.vd == 0 && f.vb == 0 && f.vc == 0 && f.rm == 0 && f.pm == 0 && f.imm < 2048
  | .vpand f | .vpor f => f.fits && f.bin && f.rm == 0 && maskDst f.vd && f.va < 16 && f.vb < 16
  | .vpnot f => f.fits && f.un && f.rm == 0 && maskDst f.vd && f.va < 16
  | .vpany f => f.fits && f.vd == 0 && f.va < 16 && f.vb == 0 && f.vc == 0 && f.imm == 0 && f.rm == 0
  | .tfetchRow f => f.fits && f.noC && f.md % 2 == 0
  | .tfetchCol f => f.fits && f.noC && f.md % 2 == 1
  | .tloadw f => f.fits && f.noABC
  | .tswap f | .tnop f => f.fits && f.opf == 0
  | .tmac f => f.fits && f.opf % 2 == 0
  | .tmacb f => f.fits && f.opf % 2 == 0
  | .tdrain f => f.fits && f.noC && f.md < 16
  | .tdrainVec f => f.fits && f.noBC && 16 ≤ f.md && f.md < 32
  | .tdrainb f => f.fits && f.noBC
  | .anorm f => f.fits && f.noABC && f.md < 64
  | .aclr f => f.fits && f.noABC && f.md < 4
  | .torg f | .tstat f => f.fits && f.noBC && f.md == 0
  | .cpy f | .cpyt f | .cpfill f | .cpxor f => f.fits && f.noBC && f.md < 4
  | .cpgath f => f.fits && f.noC && f.md < 4
  | .cpscat f => f.fits && f.noC && f.md < 2
  | .cpswp f => f.fits && f.noBC && f.md < 2
  | .cpstat f => f.fits && f.noBC && f.md == 0
  | .graftAppend f => f.fits && f.noBC && f.md / 32 % 4 == 0
  | .graftSum f => f.fits && f.noBC && f.md / 32 % 4 == 1
  | .graftSplit f => f.fits && f.noBC && f.md / 32 % 4 == 2
  | .gproj f => f.fits && f.noBC && f.md / 32 % 4 == 0
  | .gload f => f.fits && f.noC && f.md / 32 % 8 == 0
  | .gstore f => f.fits && f.noBC && f.md / 32 % 8 == 0
  | .gsetm f => f.fits && f.noBC && f.md / 128 % 2 == 0
  | .gsetb f => f.fits && f.noBC && f.md / 2 % 128 == 0
  | .gclr f => f.fits && f.noABC && f.md % 256 == 0
  | .gstat f => f.fits && f.noBC && f.md == 0
  | .gstatInfo f => f.fits && f.noBC && f.md == 1
  | .batomAdd f => f.fits && f.noC && f.md % 16 == 0 && scOk (f.md / 16 % 8)
  | .batomMin f => f.fits && f.noC && f.md % 16 == 1 && scOk (f.md / 16 % 8)
  | .batomMax f => f.fits && f.noC && f.md % 16 == 2 && scOk (f.md / 16 % 8)
  | .batomAnd f => f.fits && f.noC && f.md % 16 == 3 && scOk (f.md / 16 % 8)
  | .batomOr f => f.fits && f.noC && f.md % 16 == 4 && scOk (f.md / 16 % 8)
  | .batomXor f => f.fits && f.noC && f.md % 16 == 5 && scOk (f.md / 16 % 8)
  | .batomSwp f => f.fits && f.noC && f.md % 16 == 6 && scOk (f.md / 16 % 8)
  | .batomCas f => f.fits && f.md % 16 == 7 && scOk (f.md / 16 % 8)
  | .batomFadd f => f.fits && f.noC && f.md % 16 == 8 && scOk (f.md / 16 % 8)
  | .bred f => f.fits && f.md % 8 ≤ 5 && 2 ≤ f.md / 8 % 8 && f.md / 8 % 8 ≤ 4 && scOk (f.md / 64)
  | .bcollAllreduce f => f.fits && f.noBC && f.md % 4 == 0 && f.md / 4 % 8 ≤ 5 && f.md < 256
  | .bcollRedscat f => f.fits && f.noBC && f.md % 4 == 1 && f.md / 4 % 8 ≤ 5 && f.md < 256
  | .bcollAllgath f => f.fits && f.noBC && f.md % 4 == 2 && f.md / 4 % 8 == 0 && f.md < 256
  | .bcollBcast f => f.fits && f.noBC && f.md % 4 == 3 && f.md / 4 % 8 == 0 && f.md < 256
  | .bdig f => f.fits && f.md < 2
  | .bcopy f | .bfill f => f.fits && scOk (f.md % 8) && f.md < 16
  | .bseed f => f.fits && f.noBC && f.md < 2
  | .bstat f => f.fits && f.noBC && f.md == 0
  | .bstatInfo f => f.fits && f.noBC && f.md == 1
  | .trap f => f.fits && f.d == 0 && f.a == 0 && f.noKScMask
  | .sret f | .dbgbrk f | .replay f | .done f | .kill f => f.bare
  | .crrd f => f.fits && f.a == 0 && f.noKScMask && crNumOk f.sel
  | .crwr f | .crset f | .crclr f => f.fits && f.d == 0 && f.noKScMask && crNumOk f.sel && f.sel != crUhtop
  | .crswp f => f.fits && sProper f.d && f.a == 0 && f.noKScMask && crNumOk f.sel && f.sel != crUhtop
  | .uhtopWrite .swp f => f.fits && sProper f.d && f.a == 0 && f.noKScMask && f.sel == crUhtop
  | .uhtopWrite _ f => f.fits && f.d == 0 && f.noKScMask && f.sel == crUhtop
  | .safept f => f.fits && f.d == 0 && f.a == 0 && f.noKScMask
  | .trapEntry | .preemptionStop | .bedResume _ | .memoryReply _ _ | .postBufferRoom _
  | .writeAcknowledgement _ _ | .remoteTimeout _ _ | .neighbourWordLanding _ | .statusWordPush _ _
  | .syncWordEvent _ _ _ | .trellisEntryStart _ | .stampTick _ | .trellisEntryCompletion _
  | .engineEntryStart _ _ | .syncTagPosting _ | .engineEntryCompletion _ _ | .sieveVote _ _
  | .pageServiced _ _ _ | .barrierAdvance _ _ | .budgetExpiry _ | .notify _ | .launchRecord
  | .cancelRecord | .replayRecord | .resumeBed | .haltBed | .close | .openJob | .endJob | .cread _
  | .launchPlacement | .launchAgeing _ _ | .unitStart _ _ _ | .unitSave _ | .gangAck _ _ _ | .gangAbort _ _
  | .remoteAccess _ | .completionRecordWrite | .correctableError _ | .freezeEnd _
  | .temperatureSample _ _ | .pwrcap _ | .phaseLoss _ | .thermalTrip _ | .apertureRegisterWrite _ _ _ _
  | .powerOn | .preset _ | .rdoor _ | .attestationRequest _ | .scheduleTick _ | .illegalInstruction _
  | .fetchFault | .lossOfInputPower => true

end Sys2Proof
end

