-- ==== Sys2Proof/Decode.lean ====
section
/-! DEFINITION. Decoding and encoding (R67-R83, R334, R349, R375). A word is a Nat below 2^64; fields are
read by division and remainder. `decode` is total; the encoder follows the same format tables. -/

namespace Sys2Proof

/-- Why a word is refused: illegal-instruction (0x01) or reserved-field (0x02) (R84). -/
inductive DecodeErr where
  | illegal
  | reserved
  deriving DecidableEq, Repr

/-- Bits hi..lo of w. -/
def bitsOf (w hi lo : Nat) : Nat := w / 2 ^ lo % 2 ^ (hi - lo + 1)

/-- OP, RAMP and KB (R67). -/
def opOf (w : Nat) : Nat := bitsOf w 63 56
/-- The RAMP field. -/
def rampOf (w : Nat) : Nat := bitsOf w 55 53
/-- The KB field. -/
def kbOf (w : Nat) : Nat := bitsOf w 52 51

/-- The top thirteen bits: OP, RAMP, KB. -/
def head (op ramp kb : Nat) : Nat := op * 2 ^ 56 + ramp * 2 ^ 53 + kb * 2 ^ 51

/-- SregW from a word. -/
def SregW.ofWord (w : Nat) : SregW where
  ramp := rampOf w
  d := bitsOf w 50 45
  a := bitsOf w 44 39
  b := bitsOf w 38 33
  ty := bitsOf w 32 30
  c := bitsOf w 28 23
  e := bitsOf w 22 22

/-- SregW to a word. -/
def SregW.enc (op : Nat) (kb : Nat) (f : SregW) : Nat :=
  head op f.ramp kb + f.d * 2 ^ 45 + f.a * 2 ^ 39 + f.b * 2 ^ 33 + f.ty * 2 ^ 30 + f.c * 2 ^ 23 + f.e * 2 ^ 22

/-- SimmW from a word. -/
def SimmW.ofWord (w : Nat) : SimmW where
  ramp := rampOf w
  d := bitsOf w 50 45
  a := bitsOf w 44 39
  ty := bitsOf w 38 36
  imm := bitsOf w 35 0

/-- SimmW to a word. -/
def SimmW.enc (op : Nat) (kb : Nat) (f : SimmW) : Nat :=
  head op f.ramp kb + f.d * 2 ^ 45 + f.a * 2 ^ 39 + f.ty * 2 ^ 36 + f.imm

/-- SwideW from a word. -/
def SwideW.ofWord (w : Nat) : SwideW where
  ramp := rampOf w
  d := bitsOf w 50 45
  h := bitsOf w 44 44
  imm := bitsOf w 31 0

/-- SwideW to a word. -/
def SwideW.enc (op : Nat) (kb : Nat) (f : SwideW) : Nat :=
  head op f.ramp kb + f.d * 2 ^ 45 + f.h * 2 ^ 44 + f.imm

/-- SmemW from a word. -/
def SmemW.ofWord (w : Nat) : SmemW where
  ramp := rampOf w
  d := bitsOf w 50 45
  a := bitsOf w 44 39
  cl := bitsOf w 38 35
  sc := bitsOf w 34 32
  ty := bitsOf w 31 29
  b := bitsOf w 28 23
  off := bitsOf w 22 0

/-- SmemW to a word. -/
def SmemW.enc (op : Nat) (f : SmemW) : Nat :=
  head op f.ramp 0 + f.d * 2 ^ 45 + f.a * 2 ^ 39 + f.cl * 2 ^ 35 + f.sc * 2 ^ 32 + f.ty * 2 ^ 29 + f.b * 2 ^ 23 + f.off

/-- SatmW from a word. -/
def SatmW.ofWord (w : Nat) : SatmW where
  ramp := rampOf w
  d := bitsOf w 50 45
  a := bitsOf w 44 39
  cl := bitsOf w 38 35
  sc := bitsOf w 34 32
  b := bitsOf w 27 22
  c := bitsOf w 21 16
  off := bitsOf w 15 0

/-- SatmW to a word. -/
def SatmW.enc (op : Nat) (aop : Nat) (f : SatmW) : Nat :=
  head op f.ramp 0 + f.d * 2 ^ 45 + f.a * 2 ^ 39 + f.cl * 2 ^ 35 + f.sc * 2 ^ 32 + f.b * 2 ^ 22 + f.c * 2 ^ 16 + f.off + aop * 2 ^ 28

/-- SbrW from a word. -/
def SbrW.ofWord (w : Nat) : SbrW where
  ramp := rampOf w
  d := bitsOf w 50 45
  a := bitsOf w 44 39
  b := bitsOf w 38 33
  cc := bitsOf w 32 29
  off := bitsOf w 28 0

/-- SbrW to a word. -/
def SbrW.enc (op : Nat) (f : SbrW) : Nat :=
  head op f.ramp 0 + f.d * 2 ^ 45 + f.a * 2 ^ 39 + f.b * 2 ^ 33 + f.cc * 2 ^ 29 + f.off

/-- SsysW from a word. -/
def SsysW.ofWord (w : Nat) : SsysW where
  ramp := rampOf w
  d := bitsOf w 50 45
  a := bitsOf w 44 39
  k := bitsOf w 38 33
  sc := bitsOf w 32 30
  mask := bitsOf w 29 14
  sel := bitsOf w 13 0

/-- SsysW to a word. -/
def SsysW.enc (op : Nat) (f : SsysW) : Nat :=
  head op f.ramp 0 + f.d * 2 ^ 45 + f.a * 2 ^ 39 + f.k * 2 ^ 33 + f.sc * 2 ^ 30 + f.mask * 2 ^ 14 + f.sel

/-- VregW from a word. -/
def VregW.ofWord (w : Nat) : VregW where
  ramp := rampOf w
  vd := bitsOf w 50 46
  va := bitsOf w 45 41
  vb := bitsOf w 40 36
  vc := bitsOf w 35 31
  pm := bitsOf w 30 27
  fmt := bitsOf w 26 23
  rm := bitsOf w 22 20
  sa := bitsOf w 19 14
  imm := bitsOf w 13 0

/-- VregW to a word. -/
def VregW.enc (op : Nat) (f : VregW) : Nat :=
  head op f.ramp 0 + f.vd * 2 ^ 46 + f.va * 2 ^ 41 + f.vb * 2 ^ 36 + f.vc * 2 ^ 31 + f.pm * 2 ^ 27 + f.fmt * 2 ^ 23 + f.rm * 2 ^ 20 + f.sa * 2 ^ 14 + f.imm

/-- VmemW from a word. -/
def VmemW.ofWord (w : Nat) : VmemW where
  ramp := rampOf w
  vd := bitsOf w 50 46
  a := bitsOf w 45 40
  cl := bitsOf w 39 36
  sc := bitsOf w 35 33
  pm := bitsOf w 32 29
  fmt := bitsOf w 28 25
  b := bitsOf w 24 19
  off := bitsOf w 18 0

/-- VmemW to a word. -/
def VmemW.enc (op : Nat) (f : VmemW) : Nat :=
  head op f.ramp 0 + f.vd * 2 ^ 46 + f.a * 2 ^ 40 + f.cl * 2 ^ 36 + f.sc * 2 ^ 33 + f.pm * 2 ^ 29 + f.fmt * 2 ^ 25 + f.b * 2 ^ 19 + f.off

/-- EregW from a word. -/
def EregW.ofWord (w : Nat) : EregW where
  ramp := rampOf w
  kp := bitsOf w 50 45
  kc0 := bitsOf w 44 39
  kc1 := bitsOf w 38 33
  kc2 := bitsOf w 32 27
  a := bitsOf w 26 21
  b := bitsOf w 20 15
  c := bitsOf w 14 9
  md := bitsOf w 8 0

/-- EregW to a word. -/
def EregW.enc (op : Nat) (f : EregW) : Nat :=
  head op f.ramp 0 + f.kp * 2 ^ 45 + f.kc0 * 2 ^ 39 + f.kc1 * 2 ^ 33 + f.kc2 * 2 ^ 27 + f.a * 2 ^ 21 + f.b * 2 ^ 15 + f.c * 2 ^ 9 + f.md

/-- EstampW from a word. -/
def EstampW.ofWord (w : Nat) : EstampW where
  ramp := rampOf w
  kp := bitsOf w 50 45
  kc0 := bitsOf w 44 39
  kc1 := bitsOf w 38 33
  kc2 := bitsOf w 32 27
  stamp := bitsOf w 26 15
  opf := bitsOf w 14 0

/-- EstampW to a word. -/
def EstampW.enc (op : Nat) (f : EstampW) : Nat :=
  head op f.ramp 0 + f.kp * 2 ^ 45 + f.kc0 * 2 ^ 39 + f.kc1 * 2 ^ 33 + f.kc2 * 2 ^ 27 + f.stamp * 2 ^ 15 + f.opf

/-- The opcode of an erasing SREG form (R191). -/
def EReg.op : EReg → Nat
  | .add3 => 0x10
  | .sub3 => 0x11
  | .xor3 => 0x12
  | .and => 0x13
  | .or => 0x14
  | .mul => 0x15
  | .mulh => 0x16
  | .shl => 0x19
  | .shr => 0x1A
  | .sar => 0x1B
  | .mov => 0x1C
  | .clr => 0x1D
  | .ext => 0x1E
  | .norm => 0x1F
  | .popc => 0x20
  | .cmpeq => 0x21
  | .cmplt => 0x22
  | .cmplo => 0x23

/-- The opcode of an erasing SIMM form (R191). -/
def EImm.op : EImm → Nat
  | .andi => 0x24
  | .ori => 0x25
  | .shli => 0x26
  | .shri => 0x27
  | .sari => 0x28
  | .movi => 0x29
  | .bfx => 0x2B
  | .bfi => 0x2C

/-- The word of an erasing form with a KB value (R68). -/
def EForm.enc (kb : Nat) : EForm → Nat
  | .reg op f => f.enc op.op kb
  | .imm op f => f.enc op.op kb
  | .wide f => f.enc 0x2A kb

/-- The word of an instruction; an event has none, `illegalInstruction` has its own. -/
def encode : Instr → Option Nat
  | .nop f => some (f.enc 0x01)
  | .add f => some (f.enc 0x02 0)
  | .sub f => some (f.enc 0x03 0)
  | .xor f => some (f.enc 0x04 0)
  | .neg f => some (f.enc 0x05 0)
  | .rol f => some (f.enc 0x06 0)
  | .mulo f => some (f.enc 0x07 0)
  | .swap f => some (f.enc 0x08 0)
  | .cswap f => some (f.enc 0x09 0)
  | .bperm f => some (f.enc 0x0A 0)
  | .bpermE f => some (f.enc 0x0A 0)
  | .addi f => some (f.enc 0x0B 0)
  | .xori f => some (f.enc 0x0C 0)
  | .roli f => some (f.enc 0x0D 0)
  | .muloi f => some (f.enc 0x0E 0)
  | .xorw f => some (f.enc 0x0F 0)
  | .add3 f => some (f.enc 0x10 0)
  | .sub3 f => some (f.enc 0x11 0)
  | .xor3 f => some (f.enc 0x12 0)
  | .and f => some (f.enc 0x13 0)
  | .or f => some (f.enc 0x14 0)
  | .mul f => some (f.enc 0x15 0)
  | .mulh f => some (f.enc 0x16 0)
  | .min f => some (f.enc 0x17 0)
  | .max f => some (f.enc 0x18 0)
  | .minK f => some (f.enc 0x17 1)
  | .maxK f => some (f.enc 0x18 1)
  | .minB f => some (f.enc 0x17 2)
  | .maxB f => some (f.enc 0x18 2)
  | .keepForm e => some (e.enc 1)
  | .backForm e => some (e.enc 2)
  | .shl f => some (f.enc 0x19 0)
  | .shr f => some (f.enc 0x1A 0)
  | .sar f => some (f.enc 0x1B 0)
  | .mov f => some (f.enc 0x1C 0)
  | .clr f => some (f.enc 0x1D 0)
  | .ext f => some (f.enc 0x1E 0)
  | .norm f => some (f.enc 0x1F 0)
  | .popc f => some (f.enc 0x20 0)
  | .cmpeq f => some (f.enc 0x21 0)
  | .cmplt f => some (f.enc 0x22 0)
  | .cmplo f => some (f.enc 0x23 0)
  | .andi f => some (f.enc 0x24 0)
  | .ori f => some (f.enc 0x25 0)
  | .shli f => some (f.enc 0x26 0)
  | .shri f => some (f.enc 0x27 0)
  | .sari f => some (f.enc 0x28 0)
  | .movi f => some (f.enc 0x29 0)
  | .movw f => some (f.enc 0x2A 0)
  | .bfx f => some (f.enc 0x2B 0)
  | .bfi f => some (f.enc 0x2C 0)
  | .bpld f => some (f.enc 0x2D)
  | .bc f => some (f.enc 0x30)
  | .call f => some (f.enc 0x31)
  | .ret f => some (f.enc 0x32)
  | .loop f => some (f.enc 0x33)
  | .ld f => some (f.enc 0x34)
  | .ldx f => some (f.enc 0x35)
  | .st f => some (f.enc 0x36)
  | .stx f => some (f.enc 0x37)
  | .swpm f => some (f.enc 0x38)
  | .atomAdd f => some (f.enc 0x39 0)
  | .atomMin f => some (f.enc 0x39 1)
  | .atomMax f => some (f.enc 0x39 2)
  | .atomAnd f => some (f.enc 0x39 3)
  | .atomOr f => some (f.enc 0x39 4)
  | .atomXor f => some (f.enc 0x39 5)
  | .atomSwp f => some (f.enc 0x39 6)
  | .atomCas f => some (f.enc 0x39 7)
  | .atomFadd f => some (f.enc 0x39 8)
  | .fence f => some (f.enc 0x3A)
  | .tmark f => some (f.enc 0x3B)
  | .twait f => some (f.enc 0x3C)
  | .syexp f => some (f.enc 0x3D)
  | .syarr f => some (f.enc 0x3E)
  | .sywait f => some (f.enc 0x3F)
  | .qwait f => some (f.enc 0x40)
  | .hclaim f => some (f.enc 0x41)
  | .hrel f => some (f.enc 0x42)
  | .wsend f => some (f.enc 0x43)
  | .xbar f => some (f.enc 0x44)
  | .pgreq f => some (f.enc 0x45)
  | .hpush f => some (f.enc 0x46)
  | .hpop f => some (f.enc 0x47)
  | .hspill f => some (f.enc 0x48)
  | .hfill f => some (f.enc 0x49)
  | .hmark f => some (f.enc 0x4A)
  | .hchk f => some (f.enc 0x4B)
  | .hdrop f => some (f.enc 0x4C)
  | .erase f => some (f.enc 0x4D)
  | .vld f => some (f.enc 0x50)
  | .vldx f => some (f.enc 0x51)
  | .vst f => some (f.enc 0x52)
  | .vstx f => some (f.enc 0x53)
  | .vswpm f => some (f.enc 0x54)
  | .vadd f => some (f.enc 0x55)
  | .vsub f => some (f.enc 0x56)
  | .vmul f => some (f.enc 0x57)
  | .vfma f => some (f.enc 0x58)
  | .vmin f => some (f.enc 0x59)
  | .vmax f => some (f.enc 0x5A)
  | .vabs f => some (f.enc 0x5B)
  | .vneg f => some (f.enc 0x5C)
  | .vand f => some (f.enc 0x5D)
  | .vor f => some (f.enc 0x5E)
  | .vxor f => some (f.enc 0x5F)
  | .vshl f => some (f.enc 0x60)
  | .vshr f => some (f.enc 0x61)
  | .vsar f => some (f.enc 0x62)
  | .vradd f => some (f.enc 0x63)
  | .vrsub f => some (f.enc 0x64)
  | .vrxor f => some (f.enc 0x65)
  | .vswap f => some (f.enc 0x66)
  | .vcmpeq f => some (f.enc 0x67)
  | .vcmplt f => some (f.enc 0x68)
  | .vcmple f => some (f.enc 0x69)
  | .vclass f => some (f.enc 0x6A)
  | .vsel f => some (f.enc 0x6B)
  | .vcvt f => some (f.enc 0x6C)
  | .vscacc f => some (f.enc 0x6D)
  | .vredr f => some (f.enc 0x6E)
  | .vredrScalar f => some (f.enc 0x6E)
  | .vredc f => some (f.enc 0x6F)
  | .vrot f => some (f.enc 0x70)
  | .vbcast f => some (f.enc 0x71)
  | .vxcol f => some (f.enc 0x72)
  | .vrcp f => some (f.enc 0x73)
  | .vrsq f => some (f.enc 0x74)
  | .vexp2 f => some (f.enc 0x75)
  | .vamax f => some (f.enc 0x76)
  | .vamaxClr f => some (f.enc 0x76)
  | .vmovs f => some (f.enc 0x77)
  | .vmovsAll f => some (f.enc 0x77)
  | .vmovv f => some (f.enc 0x78)
  | .vpand f => some (f.enc 0x79)
  | .vpor f => some (f.enc 0x7A)
  | .vpnot f => some (f.enc 0x7B)
  | .vpany f => some (f.enc 0x7C)
  | .tfetchRow f => some (f.enc 0x80)
  | .tfetchCol f => some (f.enc 0x80)
  | .tloadw f => some (f.enc 0x81)
  | .tswap f => some (f.enc 0x82)
  | .tmac f => some (f.enc 0x83)
  | .tmacb f => some (f.enc 0x84)
  | .tdrain f => some (f.enc 0x85)
  | .tdrainVec f => some (f.enc 0x85)
  | .tdrainb f => some (f.enc 0x86)
  | .anorm f => some (f.enc 0x87)
  | .aclr f => some (f.enc 0x88)
  | .torg f => some (f.enc 0x89)
  | .tstat f => some (f.enc 0x8A)
  | .tnop f => some (f.enc 0x8B)
  | .cpy f => some (f.enc 0x90)
  | .cpyt f => some (f.enc 0x91)
  | .cpgath f => some (f.enc 0x92)
  | .cpscat f => some (f.enc 0x93)
  | .cpfill f => some (f.enc 0x94)
  | .cpxor f => some (f.enc 0x95)
  | .cpswp f => some (f.enc 0x96)
  | .cpstat f => some (f.enc 0x97)
  | .graftAppend f => some (f.enc 0x98)
  | .graftSum f => some (f.enc 0x98)
  | .graftSplit f => some (f.enc 0x98)
  | .gproj f => some (f.enc 0x9E)
  | .gload f => some (f.enc 0x99)
  | .gstore f => some (f.enc 0x9A)
  | .gsetm f => some (f.enc 0x9B)
  | .gsetb f => some (f.enc 0x9C)
  | .gclr f => some (f.enc 0x9D)
  | .gstat f => some (f.enc 0x9F)
  | .gstatInfo f => some (f.enc 0x9F)
  | .batomAdd f => some (f.enc 0xA0)
  | .batomMin f => some (f.enc 0xA0)
  | .batomMax f => some (f.enc 0xA0)
  | .batomAnd f => some (f.enc 0xA0)
  | .batomOr f => some (f.enc 0xA0)
  | .batomXor f => some (f.enc 0xA0)
  | .batomSwp f => some (f.enc 0xA0)
  | .batomCas f => some (f.enc 0xA0)
  | .batomFadd f => some (f.enc 0xA0)
  | .bred f => some (f.enc 0xA1)
  | .bcollAllreduce f => some (f.enc 0xA2)
  | .bcollRedscat f => some (f.enc 0xA2)
  | .bcollAllgath f => some (f.enc 0xA2)
  | .bcollBcast f => some (f.enc 0xA2)
  | .bdig f => some (f.enc 0xA3)
  | .bcopy f => some (f.enc 0xA4)
  | .bfill f => some (f.enc 0xA5)
  | .bseed f => some (f.enc 0xA6)
  | .bstat f => some (f.enc 0xA7)
  | .bstatInfo f => some (f.enc 0xA7)
  | .trap f => some (f.enc 0xA8)
  | .sret f => some (f.enc 0xA9)
  | .crrd f => some (f.enc 0xAA)
  | .crwr f => some (f.enc 0xAB)
  | .crswp f => some (f.enc 0xAC)
  | .crset f => some (f.enc 0xAD)
  | .crclr f => some (f.enc 0xAE)
  | .uhtopWrite .wr f => some (f.enc 0xAB)
  | .uhtopWrite .swp f => some (f.enc 0xAC)
  | .uhtopWrite .set f => some (f.enc 0xAD)
  | .uhtopWrite .clr f => some (f.enc 0xAE)
  | .safept f => some (f.enc 0xAF)
  | .dbgbrk f => some (f.enc 0xB0)
  | .replay f => some (f.enc 0xB1)
  | .done f => some (f.enc 0xB2)
  | .kill f => some (f.enc 0xB3)
  | .bedResume _ => none
  | .memoryReply _ _ => none
  | .postBufferRoom _ => none
  | .writeAcknowledgement _ _ => none
  | .remoteTimeout _ _ => none
  | .neighbourWordLanding _ => none
  | .statusWordPush _ _ => none
  | .syncWordEvent _ _ _ => none
  | .trellisEntryStart _ => none
  | .stampTick _ => none
  | .trellisEntryCompletion _ => none
  | .engineEntryStart _ _ => none
  | .syncTagPosting _ => none
  | .engineEntryCompletion _ _ => none
  | .sieveVote _ _ => none
  | .pageServiced _ _ _ => none
  | .barrierAdvance _ _ => none
  | .budgetExpiry _ => none
  | .notify _ => none
  | .cread _ => none
  | .unitStart _ _ _ => none
  | .unitSave _ => none
  | .gangAck _ _ _ => none
  | .gangAbort _ _ => none
  | .remoteAccess _ => none
  | .correctableError _ => none
  | .freezeEnd _ => none
  | .temperatureSample _ _ => none
  | .pwrcap _ => none
  | .phaseLoss _ => none
  | .thermalTrip _ => none
  | .apertureRegisterWrite _ _ _ _ => none
  | .preset _ => none
  | .rdoor _ => none
  | .attestationRequest _ => none
  | .scheduleTick _ => none
  | .illegalInstruction w => some w.toNat
  | .trapEntry => none
  | .preemptionStop => none
  | .launchRecord => none
  | .cancelRecord => none
  | .replayRecord => none
  | .resumeBed => none
  | .haltBed => none
  | .close => none
  | .openJob => none
  | .endJob => none
  | .launchPlacement => none
  | .launchAgeing _ _ => none
  | .completionRecordWrite => none
  | .powerOn => none
  | .fetchFault => none
  | .lossOfInputPower => none

/-- The reading of a keep-capable word by its KB field (R68). -/
def keepable (w : Nat) (plain : Instr) (e : EForm) : Option Instr :=
  match kbOf w with
  | 0 => some plain
  | 1 => some (.keepForm e)
  | _ => some (.backForm e)

/-- ATOM by AOP (R75); 9-15 are reserved. -/
def atomOf (w : Nat) : Option Instr :=
  match bitsOf w 31 28 with
  | 0 => some (.atomAdd (.ofWord w))
  | 1 => some (.atomMin (.ofWord w))
  | 2 => some (.atomMax (.ofWord w))
  | 3 => some (.atomAnd (.ofWord w))
  | 4 => some (.atomOr (.ofWord w))
  | 5 => some (.atomXor (.ofWord w))
  | 6 => some (.atomSwp (.ofWord w))
  | 7 => some (.atomCas (.ofWord w))
  | 8 => some (.atomFadd (.ofWord w))
  | _ => none

/-- BATOM by AOP (R75); 9-15 are reserved. -/
def batomOf (w : Nat) : Option Instr :=
  match bitsOf w 3 0 with
  | 0 => some (.batomAdd (.ofWord w))
  | 1 => some (.batomMin (.ofWord w))
  | 2 => some (.batomMax (.ofWord w))
  | 3 => some (.batomAnd (.ofWord w))
  | 4 => some (.batomOr (.ofWord w))
  | 5 => some (.batomXor (.ofWord w))
  | 6 => some (.batomSwp (.ofWord w))
  | 7 => some (.batomCas (.ofWord w))
  | 8 => some (.batomFadd (.ofWord w))
  | _ => none

/-- Opcodes 0x00-0x0F of the map of R81, by the low digit. -/
def raw0 (w lo : Nat) : Option Instr :=
  match lo with
  | 1 => some (.nop (.ofWord w))
  | 2 => some (.add (.ofWord w))
  | 3 => some (.sub (.ofWord w))
  | 4 => some (.xor (.ofWord w))
  | 5 => some (.neg (.ofWord w))
  | 6 => some (.rol (.ofWord w))
  | 7 => some (.mulo (.ofWord w))
  | 8 => some (.swap (.ofWord w))
  | 9 => some (.cswap (.ofWord w))
  | 10 => if bitsOf w 22 22 = 0 then some (.bperm (.ofWord w)) else some (.bpermE (.ofWord w))
  | 11 => some (.addi (.ofWord w))
  | 12 => some (.xori (.ofWord w))
  | 13 => some (.roli (.ofWord w))
  | 14 => some (.muloi (.ofWord w))
  | 15 => some (.xorw (.ofWord w))
  | _ => none

/-- Opcodes 0x10-0x1F of the map of R81, by the low digit. -/
def raw1 (w lo : Nat) : Option Instr :=
  match lo with
  | 0 => keepable w (.add3 (.ofWord w)) (.reg .add3 (.ofWord w))
  | 1 => keepable w (.sub3 (.ofWord w)) (.reg .sub3 (.ofWord w))
  | 2 => keepable w (.xor3 (.ofWord w)) (.reg .xor3 (.ofWord w))
  | 3 => keepable w (.and (.ofWord w)) (.reg .and (.ofWord w))
  | 4 => keepable w (.or (.ofWord w)) (.reg .or (.ofWord w))
  | 5 => keepable w (.mul (.ofWord w)) (.reg .mul (.ofWord w))
  | 6 => keepable w (.mulh (.ofWord w)) (.reg .mulh (.ofWord w))
  | 7 => match kbOf w with | 0 => some (.min (.ofWord w)) | 1 => some (.minK (.ofWord w)) | _ => some (.minB (.ofWord w))
  | 8 => match kbOf w with | 0 => some (.max (.ofWord w)) | 1 => some (.maxK (.ofWord w)) | _ => some (.maxB (.ofWord w))
  | 9 => keepable w (.shl (.ofWord w)) (.reg .shl (.ofWord w))
  | 10 => keepable w (.shr (.ofWord w)) (.reg .shr (.ofWord w))
  | 11 => keepable w (.sar (.ofWord w)) (.reg .sar (.ofWord w))
  | 12 => keepable w (.mov (.ofWord w)) (.reg .mov (.ofWord w))
  | 13 => keepable w (.clr (.ofWord w)) (.reg .clr (.ofWord w))
  | 14 => keepable w (.ext (.ofWord w)) (.reg .ext (.ofWord w))
  | 15 => keepable w (.norm (.ofWord w)) (.reg .norm (.ofWord w))
  | _ => none

/-- Opcodes 0x20-0x2F of the map of R81, by the low digit. -/
def raw2 (w lo : Nat) : Option Instr :=
  match lo with
  | 0 => keepable w (.popc (.ofWord w)) (.reg .popc (.ofWord w))
  | 1 => keepable w (.cmpeq (.ofWord w)) (.reg .cmpeq (.ofWord w))
  | 2 => keepable w (.cmplt (.ofWord w)) (.reg .cmplt (.ofWord w))
  | 3 => keepable w (.cmplo (.ofWord w)) (.reg .cmplo (.ofWord w))
  | 4 => keepable w (.andi (.ofWord w)) (.imm .andi (.ofWord w))
  | 5 => keepable w (.ori (.ofWord w)) (.imm .ori (.ofWord w))
  | 6 => keepable w (.shli (.ofWord w)) (.imm .shli (.ofWord w))
  | 7 => keepable w (.shri (.ofWord w)) (.imm .shri (.ofWord w))
  | 8 => keepable w (.sari (.ofWord w)) (.imm .sari (.ofWord w))
  | 9 => keepable w (.movi (.ofWord w)) (.imm .movi (.ofWord w))
  | 10 => keepable w (.movw (.ofWord w)) (.wide (.ofWord w))
  | 11 => keepable w (.bfx (.ofWord w)) (.imm .bfx (.ofWord w))
  | 12 => keepable w (.bfi (.ofWord w)) (.imm .bfi (.ofWord w))
  | 13 => some (.bpld (.ofWord w))
  | _ => none

/-- Opcodes 0x30-0x3F of the map of R81, by the low digit. -/
def raw3 (w lo : Nat) : Option Instr :=
  match lo with
  | 0 => some (.bc (.ofWord w))
  | 1 => some (.call (.ofWord w))
  | 2 => some (.ret (.ofWord w))
  | 3 => some (.loop (.ofWord w))
  | 4 => some (.ld (.ofWord w))
  | 5 => some (.ldx (.ofWord w))
  | 6 => some (.st (.ofWord w))
  | 7 => some (.stx (.ofWord w))
  | 8 => some (.swpm (.ofWord w))
  | 9 => atomOf w
  | 10 => some (.fence (.ofWord w))
  | 11 => some (.tmark (.ofWord w))
  | 12 => some (.twait (.ofWord w))
  | 13 => some (.syexp (.ofWord w))
  | 14 => some (.syarr (.ofWord w))
  | 15 => some (.sywait (.ofWord w))
  | _ => none

/-- Opcodes 0x40-0x4F of the map of R81, by the low digit. -/
def raw4 (w lo : Nat) : Option Instr :=
  match lo with
  | 0 => some (.qwait (.ofWord w))
  | 1 => some (.hclaim (.ofWord w))
  | 2 => some (.hrel (.ofWord w))
  | 3 => some (.wsend (.ofWord w))
  | 4 => some (.xbar (.ofWord w))
  | 5 => some (.pgreq (.ofWord w))
  | 6 => some (.hpush (.ofWord w))
  | 7 => some (.hpop (.ofWord w))
  | 8 => some (.hspill (.ofWord w))
  | 9 => some (.hfill (.ofWord w))
  | 10 => some (.hmark (.ofWord w))
  | 11 => some (.hchk (.ofWord w))
  | 12 => some (.hdrop (.ofWord w))
  | 13 => some (.erase (.ofWord w))
  | _ => none

/-- Opcodes 0x50-0x5F of the map of R81, by the low digit. -/
def raw5 (w lo : Nat) : Option Instr :=
  match lo with
  | 0 => some (.vld (.ofWord w))
  | 1 => some (.vldx (.ofWord w))
  | 2 => some (.vst (.ofWord w))
  | 3 => some (.vstx (.ofWord w))
  | 4 => some (.vswpm (.ofWord w))
  | 5 => some (.vadd (.ofWord w))
  | 6 => some (.vsub (.ofWord w))
  | 7 => some (.vmul (.ofWord w))
  | 8 => some (.vfma (.ofWord w))
  | 9 => some (.vmin (.ofWord w))
  | 10 => some (.vmax (.ofWord w))
  | 11 => some (.vabs (.ofWord w))
  | 12 => some (.vneg (.ofWord w))
  | 13 => some (.vand (.ofWord w))
  | 14 => some (.vor (.ofWord w))
  | 15 => some (.vxor (.ofWord w))
  | _ => none

/-- Opcodes 0x60-0x6F of the map of R81, by the low digit. -/
def raw6 (w lo : Nat) : Option Instr :=
  match lo with
  | 0 => some (.vshl (.ofWord w))
  | 1 => some (.vshr (.ofWord w))
  | 2 => some (.vsar (.ofWord w))
  | 3 => some (.vradd (.ofWord w))
  | 4 => some (.vrsub (.ofWord w))
  | 5 => some (.vrxor (.ofWord w))
  | 6 => some (.vswap (.ofWord w))
  | 7 => some (.vcmpeq (.ofWord w))
  | 8 => some (.vcmplt (.ofWord w))
  | 9 => some (.vcmple (.ofWord w))
  | 10 => some (.vclass (.ofWord w))
  | 11 => some (.vsel (.ofWord w))
  | 12 => some (.vcvt (.ofWord w))
  | 13 => some (.vscacc (.ofWord w))
  | 14 => if bitsOf w 2 2 = 0 then some (.vredr (.ofWord w)) else some (.vredrScalar (.ofWord w))
  | 15 => some (.vredc (.ofWord w))
  | _ => none

/-- Opcodes 0x70-0x7F of the map of R81, by the low digit. -/
def raw7 (w lo : Nat) : Option Instr :=
  match lo with
  | 0 => some (.vrot (.ofWord w))
  | 1 => some (.vbcast (.ofWord w))
  | 2 => some (.vxcol (.ofWord w))
  | 3 => some (.vrcp (.ofWord w))
  | 4 => some (.vrsq (.ofWord w))
  | 5 => some (.vexp2 (.ofWord w))
  | 6 => if bitsOf w 0 0 = 0 then some (.vamax (.ofWord w)) else some (.vamaxClr (.ofWord w))
  | 7 => if bitsOf w 11 11 = 0 then some (.vmovs (.ofWord w)) else some (.vmovsAll (.ofWord w))
  | 8 => some (.vmovv (.ofWord w))
  | 9 => some (.vpand (.ofWord w))
  | 10 => some (.vpor (.ofWord w))
  | 11 => some (.vpnot (.ofWord w))
  | 12 => some (.vpany (.ofWord w))
  | _ => none

/-- Opcodes 0x80-0x8F of the map of R81, by the low digit. -/
def raw8 (w lo : Nat) : Option Instr :=
  match lo with
  | 0 => if bitsOf w 0 0 = 0 then some (.tfetchRow (.ofWord w)) else some (.tfetchCol (.ofWord w))
  | 1 => some (.tloadw (.ofWord w))
  | 2 => some (.tswap (.ofWord w))
  | 3 => some (.tmac (.ofWord w))
  | 4 => some (.tmacb (.ofWord w))
  | 5 => if bitsOf w 4 4 = 0 then some (.tdrain (.ofWord w)) else some (.tdrainVec (.ofWord w))
  | 6 => some (.tdrainb (.ofWord w))
  | 7 => some (.anorm (.ofWord w))
  | 8 => some (.aclr (.ofWord w))
  | 9 => some (.torg (.ofWord w))
  | 10 => some (.tstat (.ofWord w))
  | 11 => some (.tnop (.ofWord w))
  | _ => none

/-- Opcodes 0x90-0x9F of the map of R81, by the low digit. -/
def raw9 (w lo : Nat) : Option Instr :=
  match lo with
  | 0 => some (.cpy (.ofWord w))
  | 1 => some (.cpyt (.ofWord w))
  | 2 => some (.cpgath (.ofWord w))
  | 3 => some (.cpscat (.ofWord w))
  | 4 => some (.cpfill (.ofWord w))
  | 5 => some (.cpxor (.ofWord w))
  | 6 => some (.cpswp (.ofWord w))
  | 7 => some (.cpstat (.ofWord w))
  | 8 => match bitsOf w 6 5 with | 0 => some (.graftAppend (.ofWord w)) | 1 => some (.graftSum (.ofWord w)) | 2 => some (.graftSplit (.ofWord w)) | _ => none
  | 9 => some (.gload (.ofWord w))
  | 10 => some (.gstore (.ofWord w))
  | 11 => some (.gsetm (.ofWord w))
  | 12 => some (.gsetb (.ofWord w))
  | 13 => some (.gclr (.ofWord w))
  | 14 => some (.gproj (.ofWord w))
  | 15 => if bitsOf w 0 0 = 0 then some (.gstat (.ofWord w)) else some (.gstatInfo (.ofWord w))
  | _ => none

/-- Opcodes 0xA0-0xAF of the map of R81, by the low digit. -/
def rawA (w lo : Nat) : Option Instr :=
  match lo with
  | 0 => batomOf w
  | 1 => some (.bred (.ofWord w))
  | 2 => match bitsOf w 1 0 with | 0 => some (.bcollAllreduce (.ofWord w)) | 1 => some (.bcollRedscat (.ofWord w)) | 2 => some (.bcollAllgath (.ofWord w)) | _ => some (.bcollBcast (.ofWord w))
  | 3 => some (.bdig (.ofWord w))
  | 4 => some (.bcopy (.ofWord w))
  | 5 => some (.bfill (.ofWord w))
  | 6 => some (.bseed (.ofWord w))
  | 7 => if bitsOf w 0 0 = 0 then some (.bstat (.ofWord w)) else some (.bstatInfo (.ofWord w))
  | 8 => some (.trap (.ofWord w))
  | 9 => some (.sret (.ofWord w))
  | 10 => some (.crrd (.ofWord w))
  | 11 => if bitsOf w 13 0 = crUhtop then some (.uhtopWrite .wr (.ofWord w)) else some (.crwr (.ofWord w))
  | 12 => if bitsOf w 13 0 = crUhtop then some (.uhtopWrite .swp (.ofWord w)) else some (.crswp (.ofWord w))
  | 13 => if bitsOf w 13 0 = crUhtop then some (.uhtopWrite .set (.ofWord w)) else some (.crset (.ofWord w))
  | 14 => if bitsOf w 13 0 = crUhtop then some (.uhtopWrite .clr (.ofWord w)) else some (.crclr (.ofWord w))
  | 15 => some (.safept (.ofWord w))
  | _ => none

/-- Opcodes 0xB0-0xBF of the map of R81, by the low digit. -/
def rawB (w lo : Nat) : Option Instr :=
  match lo with
  | 0 => some (.dbgbrk (.ofWord w))
  | 1 => some (.replay (.ofWord w))
  | 2 => some (.done (.ofWord w))
  | 3 => some (.kill (.ofWord w))
  | _ => none

/-- The constructor a word's opcode and selecting fields name, before any range check. -/
def rawDecode (w : Nat) : Option Instr :=
  let lo := opOf w % 16
  match opOf w / 16 with
  | 0 => raw0 w lo
  | 1 => raw1 w lo
  | 2 => raw2 w lo
  | 3 => raw3 w lo
  | 4 => raw4 w lo
  | 5 => raw5 w lo
  | 6 => raw6 w lo
  | 7 => raw7 w lo
  | 8 => raw8 w lo
  | 9 => raw9 w lo
  | 10 => rawA w lo
  | 11 => rawB w lo
  | _ => none

/-- The assigned opcodes of R81-R83. -/
def opAssigned (op : Nat) : Bool :=
  (1 ≤ op && op ≤ 0x2D) || (0x30 ≤ op && op ≤ 0x4D) || (0x50 ≤ op && op ≤ 0x7C) ||
  (0x80 ≤ op && op ≤ 0x8B) || (0x90 ≤ op && op ≤ 0xB3)

/-- KB is legal: zero, or 01 or 10 on the keep-capable opcodes 0x10-0x2C (R68). -/
def kbOk (w : Nat) : Bool := kbOf w == 0 || (kbOf w != 3 && 0x10 ≤ opOf w && opOf w ≤ 0x2C)

/-- The decoder: the first four checks of R84. A word with an unassigned opcode is the instruction
`illegalInstruction`; RAMP or KB out of range is refused as illegal; a reserved bit, an unused field
that is not zero or a field out of its range is refused as reserved. -/
def decode (w : Nat) : Except DecodeErr Instr :=
  if !opAssigned (opOf w) then .ok (.illegalInstruction (BitVec.ofNat 64 w))
  else if !rampOk (rampOf w) || !kbOk w then .error .illegal
  else
    match rawDecode w with
    | none => .error .reserved
    | some i => if i.wf && encode i == some w then .ok i else .error .reserved

/-- A word from eight bytes, the first at the lowest address (R7, R67). -/
def wordOfBytes (bs : List Byte) : Nat := bs.foldr (fun b acc => b.toNat + 256 * acc) 0

/-- The n low bytes of a value, the first at the lowest address. -/
def bytesOfNat : Nat → Nat → List Byte
  | 0, _ => []
  | n + 1, v => BitVec.ofNat 8 v :: bytesOfNat n (v / 256)

/-- Decoding of an instruction's bytes: exactly the first eight. -/
def decodeBytes (bs : List Byte) : Except DecodeErr Instr :=
  if bs.length < 8 then .error .illegal else decode (wordOfBytes (bs.take 8))

/-- What the decoder reads from a table word: its bits laid out as eight bytes, every bit above
`nbits` zero. -/
def decodeTableWord (nbits w : Nat) : Option Instr :=
  (decodeBytes (bytesOfNat 8 (w % 2 ^ min nbits 64))).toOption

end Sys2Proof
end

