-- ==== Sys2Proof/Machine/Ops.lean ====
section
/-! DEFINITION. The named operations over cores, registers, ports, tokens, handles, the trug, charges,
sync words, and the passage into and out of the system view. Every meaning goes through these. -/

namespace Sys2Proof.Machine

/-- What a meaning answers. -/
abbrev Res := Host.Outcome State Fault Refusal

/-! ### Cores and beds -/

/-- A numbered thing put into a list kept by rising numbers, in place of the one that has its number. -/
def putBy {α : Type} (num : α → Nat) (x : α) (l : List α) : List α :=
  l.filter (fun y => num y < num x) ++ x :: l.filter (fun y => num x < num y)

/-- A core put into the list of cores. -/
def putCore (c : Core) (l : List Core) : List Core := putBy Core.num c l

/-- A core by number (R9). -/
def getCore (s : State) (n : Nat) : Core :=
  if s.core.num = n then s.core else (s.others.find? (fun c => c.num = n)).getD (Core.reset n)

/-- A core replaced, by its own number. -/
def setCore (s : State) (c : Core) : State :=
  if s.core.num = c.num then { s with core := c } else { s with others := putCore c s.others }

/-- A core changed. -/
def modCore (s : State) (n : Nat) (f : Core → Core) : State := setCore s (f (getCore s n))

/-- A bed put into the list of beds. -/
def putBed (b : Bed) (l : List Bed) : List Bed := putBy Bed.num b l

/-- A bed by its linear number 8 d + b. -/
def getBed (s : State) (n : Nat) : Bed :=
  if s.bed.num = n then s.bed else (s.otherBeds.find? (fun b => b.num = n)).getD (Bed.reset n)

/-- A bed replaced. -/
def setBed (s : State) (b : Bed) : State :=
  if s.bed.num = b.num then { s with bed := b } else { s with otherBeds := putBed b s.otherBeds }

/-- A bed changed. -/
def modBed (s : State) (n : Nat) (f : Bed → Bed) : State := setBed s (f (getBed s n))

/-- The bed of a core. -/
def Core.bedNum (c : Core) : Nat := c.num / 8
/-- The die of a core. -/
def Core.die (c : Core) : Nat := c.num / 64

/-- The focus moved to a bed. -/
def focusBed (s : State) (n : Nat) : State :=
  if s.bed.num = n then s
  else { s with
    bed := getBed s n
    otherBeds := putBed s.bed (s.otherBeds.filter (fun b => b.num ≠ n)) }

/-- The focus moved to a core and its bed. -/
def focus (s : State) (n : Nat) : State :=
  if s.core.num = n then focusBed s (n / 8)
  else focusBed { s with
    core := getCore s n
    others := putCore s.core (s.others.filter (fun c => c.num ≠ n)) } (n / 8)

/-- The focused core changed. -/
def onCore (s : State) (f : Core → Core) : State := { s with core := f s.core }

/-- BTICK of a core's bed. -/
def btOf (s : State) (n : Nat) : Nat := (getBed s (n / 8)).btick

/-- A free value drawn. DESIGN CHOICE, safe: log 4. -/
def drawFree (s : State) : State × Word := ({ s with fresh := s.fresh + 1 }, Config.freeValue s.fresh)

/-! ### Scalar registers and ports (R32, R33, R152, R185) -/

/-- An s-register; s0 and a port number read 0 here. -/
def Core.reg (c : Core) (n : Nat) : Word := if 1 ≤ n ∧ n ≤ 55 then tget 0 c.s n else 0

/-- An s-register written; s0 discards. -/
def Core.setReg (c : Core) (n : Nat) (v : Word) : Core :=
  if 1 ≤ n ∧ n ≤ 55 then { c with s := tset 0 c.s n v } else c

/-- Bits lo .. lo+len-1 of old replaced by the low bits of v. -/
def insBits (old : Word) (lo len : Nat) (v : Word) : Word :=
  let m : Word := BitVec.ofNat 64 ((2 ^ len - 1) * 2 ^ lo)
  (old &&& ~~~m) ||| ((v <<< lo) &&& m)

/-- A field of an s-register written. -/
def Core.setField (c : Core) (n lo len : Nat) (v : Word) : Core := c.setReg n (insBits (c.reg n) lo len v)

/-- Whether a register number names a port. -/
def isPort (n : Nat) : Bool := 56 ≤ n

/-- A port's words. -/
def Core.port (c : Core) (q : Nat) : List QWord := tget [] c.ports q

/-- A port's words replaced. -/
def Core.setPort (c : Core) (q : Nat) (l : List QWord) : Core := { c with ports := tset [] c.ports q l }

/-- The core and port that a write to q0-q3 of a core reaches (R14, R32); q4-q7 are its own. -/
def portTarget (n q : Nat) : Nat × Nat :=
  let b := n / 8 * 8
  let row := n % 8 / 2
  let col := n % 2
  match q with
  | 0 => (b + 2 * row + (1 - col), 1)
  | 1 => (b + 2 * row + (1 - col), 0)
  | 2 => (b + 2 * ((row + 3) % 4) + col, 3)
  | 3 => (b + 2 * ((row + 1) % 4) + col, 2)
  | _ => (n, q)

/-- Pushes of a core toward port q that have issued and not yet landed (R33): results still to fall due
and words on their way. -/
def pushesInFlight (s : State) (n q : Nat) : Nat :=
  let c := getCore s n
  let t := portTarget n q
  let due := (c.pend.filter (fun p => match p.land with
      | .push r _ => r = q
      | .amax _ _ sa => sa = q + 56
      | _ => false)).length +
    (c.vq.filter (fun f => f.resv.any (fun x => x.2.1 = 1 ∧ x.2.2.1 = q))).length
  let fly := if q < 4 then ((getCore s t.1).flights.filter (fun f => f.port = t.2)).length else 0
  due + fly

/-- The words a port held at the start of tick t: those there now and one popped on t (R33). -/
def heldAtStart (c : Core) (q t : Nat) : Nat :=
  (c.port q).length + (if tget 0 c.lastPop q = t + 1 then 1 else 0)

/-- A write to a port at tick t finds the receiving queue full (R33). -/
def portFull (s : State) (n q t : Nat) : Bool :=
  let tg := portTarget n q
  16 ≤ heldAtStart (getCore s tg.1) tg.2 t + pushesInFlight s n q

/-- The front word of a port that can be popped at tick t (R33). -/
def Core.front (c : Core) (q t : Nat) : Option QWord :=
  match c.port q with
  | w :: _ => if w.ready ≤ t then some w else none
  | [] => none

/-- A port popped at tick t. -/
def Core.pop (c : Core) (q t : Nat) : Core :=
  { c.setPort q (c.port q).tail with lastPop := tset 0 c.lastPop q (t + 1) }

/-! ### Tokens and handles (R31, R34) -/

/-- A token is set. -/
def Core.tokSet (c : Core) (k : Nat) : Bool := !c.clearTok.contains k

/-- A token cleared; 63 names none. -/
def Core.clearToken (c : Core) (k : Nat) : Core :=
  if k = 63 ∨ c.clearTok.contains k then c else { c with clearTok := c.clearTok ++ [k] }

/-- A token set. -/
def Core.setToken (c : Core) (k : Nat) : Core := { c with clearTok := c.clearTok.filter (· ≠ k) }

/-- A handle's state. -/
def Core.handle (c : Core) (h : Nat) : HState := tget .free c.handles h

/-- A handle's state replaced; an entry that failed to fill it is then forgotten. -/
def Core.setHandle (c : Core) (h : Nat) (x : HState) : Core :=
  { c with handles := tset .free c.handles h x, fouled := c.fouled.filter (· ≠ h) }

/-! ### The trug (R165-R170) -/

/-- The partition of the current view. -/
def Core.trug (c : Core) : Trug := match c.view with | .unit => c.ut | .system => c.st

/-- The partition of the current view replaced. -/
def Core.setTrug (c : Core) (t : Trug) : Core :=
  match c.view with | .unit => { c with ut := t } | .system => { c with st := t }

/-- The capacity of the current view's partition. -/
def Core.trugCap (c : Core) : Nat := match c.view with | .unit => 262144 | .system => 32768

/-- HTOP - HBASE. -/
def Trug.depth (t : Trug) : Nat := t.top - t.base

/-- n bits pushed, bit 0 of v lowest (R66). -/
def Trug.push (t : Trug) (v n : Nat) : Trug :=
  { t with bits := t.bits % 2 ^ t.depth + v % 2 ^ n * 2 ^ t.depth, top := t.top + n }

/-- The top n bits, and the partition without them (R167). -/
def Trug.pop (t : Trug) (n : Nat) : Nat × Trug :=
  (t.bits / 2 ^ (t.depth - n) % 2 ^ n, { t with bits := t.bits % 2 ^ (t.depth - n), top := t.top - n })

/-- A mark. -/
def Trug.mark (t : Trug) (m : Nat) : Nat :=
  match m with | 0 => t.hm0 | 1 => t.hm1 | 2 => t.hm2 | _ => t.hm3

/-- A mark set. -/
def Trug.setMark (t : Trug) (m v : Nat) : Trug :=
  match m with
  | 0 => { t with hm0 := v } | 1 => { t with hm1 := v } | 2 => { t with hm2 := v } | _ => { t with hm3 := v }

/-! ### Charges and energy (R159-R164, R21) -/

/-- Erased bits charged to EBITS and EJ of a core, with a crossing of EQUOTA recorded (R161-R163).
DEDUCED, unsafe: log 66. -/
def Core.erase (c : Core) (n : Nat) (cell : Bool) : Core :=
  let e := c.ebits + n
  { c with
    ebits := e
    ej := c.ej + n * (if cell then 3000 else 2600)
    qp := c.qp || (decide (c.equota ≠ 0) && decide (c.ebits < c.equota.toNat) && decide (c.equota.toNat ≤ e)) }

/-- Erased bits of handler state (R164). -/
def Core.eraseX (c : Core) (n : Nat) : Core := { c with xebits := c.xebits + n }

/-- Erased bits of a register that belongs to whoever runs: the unit, or the handler (R164). DEDUCED, unsafe: log 16. -/
def Core.eraseReg (c : Core) (n : Nat) : Core :=
  match c.view with | .unit => c.erase n false | .system => c.eraseX n

/-- floor(b * 2^(n/192)) for n sixteenths of a degree above 85 (R21: doubling every 12 degC). -/
def heatScale (b : Nat) (n : Int) : Nat :=
  if n = 0 then b
  else if 0 ≤ n then rootN 192 (b ^ 192 * 2 ^ n.toNat) (Nat.log2 b + n.toNat / 192 + 3) 0
  else rootN 192 (b ^ 192 / 2 ^ (-n).toNat) (Nat.log2 b + 2) 0

/-- The work term of R163 in 0.001 fJ, to nearest with ties upward: w (900/k + 15 k 2^((T-85)/12)). -/
def workUnits (w k : Nat) (n : Int) : Nat := (heatScale (30 * k * k * w) n + 1800 * w + k) / (2 * k)

/-- Degrees above 85 in sixteenths, of the die of a core. -/
def heat (s : State) (n : Nat) : Int := (getDie s (n / 64)).t16 - 1360

/-- Work of w bit-operations at ramp k added to EJ (R163). -/
def addWork (s : State) (n w k : Nat) : State :=
  modCore s n (fun c => { c with ej := c.ej + workUnits w k (heat s n) })

/-- RAMPHINT for a die (R22): the first k in 1 .. 32 that minimises 0.90/k + k L(T). Doubling k lowers
the energy exactly when 0.45/k > 0.015 k 2^(n/192), that is k^2 2^(n/192) < 30. -/
def rampHint (n : Int) : Nat :=
  let below (k : Nat) : Bool :=
    if 0 ≤ n then k ^ 384 * 2 ^ n.toNat < 30 ^ 192 else k ^ 384 < 30 ^ 192 * 2 ^ (-n).toNat
  ((List.range 5).takeWhile (fun i => below (2 ^ i))).length

/-! ### Faults and the system view (R171-R180) -/

/-- An empty record. -/
def FaultRec.none : FaultRec :=
  { code := 0, kind := 0, queue := 0, seq := 0, ipc := 0, word := 0, opa := 0, opb := 0, opc := 0, addr := 0,
    detail := 0, tok := 63, order := 0, mask := 0 }

/-- The terminal events of R407. -/
def terminalCode (code : Nat) : Bool := code = 0x17 || code = 0x18 || code = 0x19

/-- A terminal event is raised in a core (R407): of those not yet taken the one that R174 lists first stands. -/
def Core.hearEvent (c : Core) (f : FaultRec) : Core :=
  { c with
    event := match c.event with
      | some g => if g.code ≤ f.code then some g else some f
      | none => some f }

/-- STATUS of a unit killed after a trap with this code (R433). -/
def killStatus (code : Nat) : Nat := if code = 0x18 then 5 else if code = 0x19 then 6 else 2

/-- Some accepted entry of a core is incomplete. -/
def Core.busyQueues (c : Core) : Bool :=
  !(c.tq.es.isEmpty && c.cq.es.isEmpty && c.gq.es.isEmpty && c.bq.es.isEmpty)

/-- A core's unit has ended: at DONE with its last entry complete, or by a kill (R399). -/
def Core.isOver (c : Core) : Bool := c.run = .ended && (2 ≤ c.endStatus || !c.busyQueues)

/-- The token that no SRET sets after a kill now: that of the entry's fault whose trap the kill takes away, else of the one in
hand. -/
def Core.lostTok (c : Core) : Nat :=
  match c.trap with | some r => if r.fr.queue = 0 then c.handled else r.fr.tok | none => c.handled

/-- A unit that has not ended ends by a kill (R179): the trug is charged now, the registers once every result in flight has
fallen due (`countRegs`). -/
def Core.kill (c : Core) (status code code2 detail : Nat) : Core :=
  if c.isOver then c
  else
    let c1 := (c.erase c.ut.depth false).eraseX c.st.depth
    { c1 with
      run := .ended, wait := Option.none, trap := Option.none, deferred := Option.none, dying := true
      handled := c1.lostTok
      ut := { c1.ut with bits := 0, top := c1.ut.base }
      st := { c1.st with bits := 0, top := c1.st.base }
      endStatus := status, endCode := code, endCode2 := code2, endDetail := detail }

/-- The registers of a killed unit are counted once nothing is in flight (R179). -/
def Core.countRegs (c : Core) : Core :=
  if c.dying && c.pend.isEmpty && c.vq.isEmpty then
    let n := ((List.range 52).filter (fun i => c.reg (i + 4) ≠ 0)).length
    { c.erase (64 * n) false with dying := false }
  else c

/-- A double fault (R180): the LSC kills the unit and reports both codes; DETAIL is that of the fault in CODE, the
unit's XREC7 (R433). -/
def Core.doubleFault (c : Core) (code2 : Nat) : Core :=
  let code := c.xcause.toNat % 256
  c.kill (killStatus code) code code2 ((tget 0 c.xrec 7).toNat % 2 ^ 32)

/-- A fault of a word of the focused core: a trap to take from tick t on, or a double fault in the
system view (R172, R180). -/
def Core.raise (c : Core) (f : FaultRec) (xpc : Word) (t : Nat) : Core :=
  match c.view with
  | .system => c.doubleFault f.code
  | .unit =>
    { c with wait := Option.none,
             trap := some { fr := f, xpc := xpc, at_ := t, stop := false, terminal := terminalCode f.code } }

/-- Every result of every issued word has fallen due by tick t (R172). -/
def Core.drained (c : Core) (t : Nat) : Bool := c.vq.isEmpty && c.pend.all (fun p => p.due ≤ t)

/-- XCAUSE (R156). -/
def causeWord (f : FaultRec) (more : Bool) : Word :=
  BitVec.ofNat 64 (f.code + f.kind * 2 ^ 8 + (if f.kind = 2 then f.queue * 2 ^ 10 else 0) + (if more then 2 ^ 13 else 0))

/-- XREC0-XREC7 (R175). -/
def recWords (f : FaultRec) : Tab Word :=
  [f.ipc, BitVec.ofNat 64 (f.seq + f.queue * 2 ^ 32), f.word, f.opa, f.opb, f.opc, f.addr, f.detail].zipIdx.foldl
    (fun t x => tset 0 t x.2 x.1) []

/-- What a trap records as it is taken: a throttle notice reports the latest rise (R419). -/
def Core.latest (c : Core) (f : FaultRec) : FaultRec := if f.code = 0x23 then { f with detail := c.thrDetail } else f

/-- A trap is taken at tick t (R172): XPC, XCAUSE and XREC are written, MORE showing whether another attributed fault
is pending then (R156, R176), the view becomes system and PC
becomes XVEC; with XVEC = 0 the LSC kills the unit. A pre-emption stop changes neither view nor PC
(R238). A throttle notice is pending no more (R419). The first handler word issues at t + 1. -/
def Core.takeTrap (c : Core) (r : TrapReq) (t : Nat) : Core :=
  let more := r.fr.kind = 2 && !c.pending.isEmpty
  let fr := c.latest r.fr
  let c1 := { c with
    trap := Option.none, thr := c.thr && r.fr.code ≠ 0x23, xpc := r.xpc, xcause := causeWord r.fr more, xrec := recWords fr }
  let c2 := { c1 with handled := r.fr.tok }
  if r.stop then { c1 with run := .stopped, pre := false }
  else if c.xvec = 0 then c2.kill (killStatus r.fr.code) r.fr.code 0 (fr.detail.toNat % 2 ^ 32)
  else { c2 with view := .system, pc := c.xvec, nextBt := t + 1, terminal := r.terminal }

/-- SRET at tick t and ramp k (R177, R407): the system partition is dropped and charged to XEBITS, the
token of the fault just handled is set, the view becomes unit and PC becomes XPC; the word at XPC issues
one bt after SRET's result falls due. The SRET of a terminal event ends the unit as a kill. -/
def Core.sret (c : Core) (t k : Nat) : Core :=
  let c1 := (c.eraseX c.st.depth).setToken c.handled
  let c2 := { c1 with st := { c1.st with bits := 0, top := c1.st.base }, handled := 63 }
  if c.terminal then
    let code := c.xcause.toNat % 256
    c2.kill (killStatus code) code 0 ((tget 0 c.xrec 7).toNat % 2 ^ 32)
  else { c2 with view := .unit, pc := c.xpc, nextBt := t + k + 1 }

/-! ### Attributed faults (R142, R176, R220) -/

/-- A fault joins those that wait for delivery, in the order of issue (R176). -/
def Core.addPending (c : Core) (f : FaultRec) : Core :=
  let rec go : List FaultRec → List FaultRec
    | [] => [f]
    | g :: r => if g.order ≤ f.order then g :: go r else f :: g :: r
  { c with pending := go c.pending }

/-- The pending faults of engine entries. -/
def Core.entryFaults (c : Core) : List FaultRec := c.pending.filter (fun f => f.queue ≠ 0)

/-- The pending faults of sequencer accesses (R220). -/
def Core.accFaults (c : Core) : List FaultRec := c.pending.filter (fun f => f.queue = 0)

/-- A pending fault is delivered at the word at xpc, its trap to take from tick t on. In the system view it is a double
fault (R176, R180). DEDUCED, unsafe: log 52. -/
def Core.deliver (c : Core) (f : FaultRec) (xpc : Word) (t : Nat) : Core :=
  match c.view with
  | .system => c.doubleFault f.code
  | .unit => { c with pending := c.pending.erase f }.raise f xpc t

/-! ### Sync words (R35-R38) -/

/-- A sync word's fields: TARGET, COUNT, GEN, FLAGS.SCOPE, FLAGS.OVS. -/
def readSync (m : List Host.Cell) (pa : Nat) : Nat × Nat × Nat × Nat × Bool :=
  let f := leNat (rdN m (pa + 12) 4)
  (leNat (rdN m pa 4), leNat (rdN m (pa + 4) 4), leNat (rdN m (pa + 8) 4), f % 8, f.testBit 3)

/-- A sync word written; bits 127..100 are cleared at every update. -/
def writeSync (m : List Host.Cell) (pa target count gen scope : Nat) (ovs : Bool) : List Host.Cell :=
  wrN m pa (leBytes 4 target ++ leBytes 4 count ++ leBytes 4 gen ++ leBytes 4 (scope + if ovs then 8 else 0))

/-- One event at a sync word (R36): the memory after it, and whether it overshoots. -/
def syncEvent (m : List Host.Cell) (ev : SyncEv) (pa n : Nat) : List Host.Cell × Bool :=
  let (target, count, gen, scope, ovs) := readSync m pa
  let (t1, c1) := match ev with | .expect => (target + n, count) | .land => (target, count + n)
  if n = 0 then (m, false)
  else if 2 ^ 32 ≤ t1 ∨ 2 ^ 32 ≤ c1 ∨ (t1 ≠ 0 ∧ t1 < c1) then
    (writeSync m pa target count gen scope true, true)
  else if t1 ≠ 0 ∧ c1 = t1 then (writeSync m pa 0 0 ((gen + 1) % 2 ^ 32) scope ovs, false)
  else (writeSync m pa t1 c1 gen scope ovs, false)

/-- A sync word lies in a code word with an uncorrectable error (R245). -/
def syncBad (s : State) (pa : Nat) : Bool := s.ecc.contains (codeWord pa) || s.ecc.contains (codeWord (pa + 8))

/-- The first address of a sync word, named at va, that lies in a code word in error (R245). -/
def badAt (s : State) (pa va : Nat) : Nat := if s.ecc.contains (codeWord pa) then va else va + 8

/-- One event at the sync word at pa: the state after it, and 0, or the code of the fault that leaves the word's fields
unchanged: an uncorrectable error (R245) or an overshoot (R36). -/
def syncAt (s : State) (ev : SyncEv) (pa n : Nat) : State × Nat :=
  if syncBad s pa then (s, 0x1B)
  else
    let r := syncEvent s.mem ev pa n
    (countWrites { s with mem := r.1 } ((List.range 16).map (fun i => .one (.byte (pa + i)))), if r.2 then 0x16 else 0)

/-- A wait for generation g is satisfied (R38). -/
def genReached (gen g : Nat) : Bool := (gen + 2 ^ 32 - g % 2 ^ 32) % 2 ^ 32 < 2 ^ 31

/-! ### Homes and latencies (R138, R209) -/

/-- The base latency of an access of a core to a home: a load's, and an atomic's four (or two) more. -/
def homeLat (s : State) (core pa : Nat) (atom : Bool) : Nat :=
  if paPkg pa ≠ s.plat.pkg then (if atom then 1354 else 1350)
  else if paDie pa ≠ core / 64 then (if atom then 196 else 192)
  else if paSpace pa = 0 then (if atom then 100 else 96)
  else if paSpace pa = 2 ∧ paCore pa = core then (if atom then 6 else 4)
  else (if atom then 28 else 24)

end Sys2Proof.Machine
end

