-- ==== Sys2Proof/Machine/Flags.lean ====
section
/-! DEFINITION. Conditions (R76), the status registers (R155-R157, R31, R182, R309) and the control
registers read and written by number (R153, R154, R236). -/

namespace Sys2Proof.Machine

/-- The width of a TY code in bits (R73). -/
def tyBits (ty : Nat) : Nat := [64, 32, 16, 8].getD (ty % 4) 64

/-- A TY code is signed (R73). -/
def tySigned (ty : Nat) : Bool := ty < 4

/-- Conditions of BC over full 64-bit values (R76). -/
def condHolds (cc : Nat) (x y : Word) : Bool :=
  match cc with
  | 0 => true
  | 1 => x == y
  | 2 => x != y
  | 3 => x.slt y
  | 4 => !x.slt y
  | 5 => x.ult y
  | _ => !x.ult y

/-- TKSET (R31): bit k shows token k; bit 63 reads 1. -/
def Core.tkset (c : Core) : Word :=
  BitVec.ofNat 64 ((List.range 64).foldl (fun a k => if k = 63 || c.tokSet k then a + 2 ^ k else a) 0)

/-- QSTAT (R155). -/
def Core.qstat (c : Core) : Word :=
  let ports := (List.range 8).foldl (fun a q => a + (c.port q).length * 2 ^ (5 * q)) 0
  BitVec.ofNat 64 (ports + c.tq.es.length * 2 ^ 40 + c.cq.es.length * 2 ^ 46 + c.gq.es.length * 2 ^ 52 +
    c.bq.es.length * 2 ^ 57)

/-- XSTAT (R157). A crossing that R174 has put off is pending as one that the system view made is. -/
def Core.xstat (c : Core) : Word :=
  let pendq := (List.range 4).foldl
    (fun a n => if c.pending.any (fun f => f.queue = n + 1) then a + 2 ^ n else a) 0
  BitVec.ofNat 64 (pendq + (if c.qp || c.deferred.any (fun r => r.fr.code = 0x08) then 16 else 0) + (if c.thr then 32 else 0) + (if c.pre then 64 else 0))

/-- A queue with no entry running (R182): one that waits, is parked, is held by the halt, or has made its last access. The rules
do not say whether an entry that only keeps its status word for a full port runs: one of copy, graft or bank does not, a TSTAT
does (DESIGN CHOICE, unsafe: log 87). -/
def EQueue.quiet (q : EQueue) : Bool := q.es.all (fun e => e.ph ≠ .running)

/-- Accesses of other agents to the scratchpads of a bed that are not yet acknowledged (R182). DEDUCED, unsafe: log 61. -/
def inbound (s : State) (b : Nat) : Nat :=
  let here (a : Access) : Bool := a.runs.any (fun r => paSpace r.1 = 2 && paPkg r.1 = s.plat.pkg && paCore r.1 / 8 = b)
  ((s.core :: s.others).filter (fun c => c.num / 8 ≠ b)).foldl (fun n c => n + (c.accs.filter here).length) 0

/-- The eight cores of a bed. -/
def bedCores (s : State) (b : Nat) : List Core := (List.range 8).map (fun c => getCore s (8 * b + c))

/-- DBGSTAT (R182). A halt asked for on the tick in progress has not taken hold (R181). -/
def dbgstat (s : State) (b : Nat) : Word :=
  let bd := getBed s b
  let halt := bd.halt && bd.closed
  let inb := inbound s b
  let cs := bedCores s b
  let t := cs.all (fun c => c.tq.quiet)
  let q := cs.all (fun c => c.cq.quiet)
  let g := cs.all (fun c => c.gq.quiet)
  let k := cs.all (fun c => c.bq.quiet)
  let bit (x : Bool) (n : Nat) : Nat := if x then 2 ^ n else 0
  BitVec.ofNat 64 (bit halt 0 + bit bd.park 1 + min inb 65535 * 4 + bit t 18 + bit q 19 + bit g 20 +
    bit k 21 + bit (halt && inb == 0 && t && q && g && k) 22)

/-- A control register's value as the focused core reads it (R153). -/
def crRead (s : State) (sel : Nat) : Word :=
  let c := s.core
  let t := c.trug
  match sel with
  | 0x000 => BitVec.ofNat 64 s.bed.btick
  | 0x001 => BitVec.ofNat 64 s.bed.bwall
  | 0x002 => BitVec.ofNat 64 s.bed.ramphint
  | 0x008 => BitVec.ofNat 64 t.base
  | 0x009 => BitVec.ofNat 64 t.top
  | 0x00A => BitVec.ofNat 64 t.lim
  | 0x00C => BitVec.ofNat 64 t.hm0
  | 0x00D => BitVec.ofNat 64 t.hm1
  | 0x00E => BitVec.ofNat 64 t.hm2
  | 0x00F => BitVec.ofNat 64 t.hm3
  | 0x010 => BitVec.ofNat 64 c.ebits
  | 0x011 => c.equota
  | 0x012 => BitVec.ofNat 64 c.ej
  | 0x018 => c.vshape
  | 0x019 => c.rmode
  | 0x01A => c.seedctl
  | 0x01B => c.seedlog
  | 0x020 => c.qstat
  | 0x021 => c.tkset
  | 0x022 => c.amax.setWidth 64
  | 0x023 => BitVec.ofNat 64 (min s.bed.cecnt (2 ^ 32 - 1))
  | 0x028 => dbgstat s c.bedNum
  | 0x100 => c.xpc
  | 0x101 => c.xcause
  | 0x102 => c.xvec
  | 0x103 => BitVec.ofNat 64 c.xebits
  | 0x104 => c.xstat
  | 0x118 => BitVec.ofNat 64 c.ut.base
  | 0x119 => BitVec.ofNat 64 c.ut.top
  | 0x11A => BitVec.ofNat 64 c.ut.lim
  | n => if 0x108 ≤ n ∧ n ≤ 0x10F then tget 0 c.xrec (n - 0x108)
         else if 0x110 ≤ n ∧ n ≤ 0x117 then tget 0 c.xs (n - 0x110) else 0

/-- A register the unit view may not access at all (R153, R154 step 2). -/
def crSystemOnly (sel : Nat) : Bool := 0x100 ≤ sel

/-- A register that may be written in a view (R153, R154 step 3). -/
def crWritable (v : View) (sel : Nat) : Bool :=
  let unit := sel == 0x00A || sel == 0x011 || (0x018 ≤ sel && sel ≤ 0x01B)
  match v with
  | .unit => unit
  | .system => unit || sel == 0x100 || (0x110 ≤ sel && sel ≤ 0x117) || sel == 0x119 || sel == 0x11A

/-- Access to a register refused in the current view (R154 steps 2 and 3). -/
def Core.crDenied (c : Core) (sel : Nat) (wr : Bool) : Bool :=
  (c.view = .unit && crSystemOnly sel) || (wr && !crWritable c.view sel)

/-- The fault code of a value a register refuses (R154 step 4, R58, R62, R166, R170, R177, R288). -/
def Core.crRange (c : Core) (sel : Nat) (v : Word) : Option Nat :=
  let n := v.toNat
  let bad (b : Bool) : Option Nat := if b then some 0x02 else none
  match sel with
  | 0x00A => bad (!(c.trug.top ≤ n && n ≤ c.trug.base + c.trugCap))
  | 0x018 => bad (2 ^ 12 ≤ n || n.testBit 7)
  | 0x019 => bad (4 < n)
  | 0x01A => bad (4 < n % 8 || n / 8 % 2 ^ 29 ≠ 0)
  | 0x01B => bad (n % 8 ≠ 0 || 2 ^ 57 ≤ n)
  | 0x100 => bad (n % 8 ≠ 0)
  | 0x119 => if c.ut.base ≤ n ∧ n < c.ut.top then none else some 0x1F
  | 0x11A => bad (!(c.ut.top ≤ n && n ≤ c.ut.base + 262144))
  | _ => none

/-- The number under which a write to a register lands: HLIM is that of the partition of the view in which the word issued (R165),
and the unit's own HLIM is the handler's UHLIM. -/
def Core.crLand (c : Core) (sel : Nat) : Nat := if sel = 0x00A ∧ c.view = .unit then 0x11A else sel

/-- HLIM of the current view's partition, and the values of the writes to it that have issued and not yet landed. A push and HFILL
keep to all of them, so that HTOP ≤ HLIM ≤ HBASE + C holds as each lands (R166). DEDUCED, unsafe: log 88. -/
def Core.limits (c : Core) : List Nat :=
  c.trug.lim :: c.pend.filterMap (fun p => match p.land with
    | .creg r v => if r = c.crLand 0x00A then some v.toNat else none
    | _ => none)

/-- A control register written, at its due tick (R236). Lowering UHTOP drops the bits above, and a write
that others have overtaken neither raises it nor takes it below UHBASE (R166, R170; DEDUCED, unsafe: log 88). HLIM here is the system
partition's (`crLand`). -/
def Core.crWrite (c : Core) (sel : Nat) (v : Word) : Core :=
  let n := v.toNat
  match sel with
  | 0x00A => { c with st := { c.st with lim := n } }
  | 0x011 => { c with equota := v }
  | 0x018 => { c with vshape := v }
  | 0x019 => { c with rmode := v }
  | 0x01A => { c with seedctl := v }
  | 0x01B => { c with seedlog := v }
  | 0x100 => { c with xpc := v }
  | 0x119 =>
    let u := max c.ut.base (min c.ut.top n)
    { c with ut := { c.ut with bits := c.ut.bits % 2 ^ (u - c.ut.base), top := u } }
  | 0x11A => { c with ut := { c.ut with lim := n } }
  | _ => if 0x110 ≤ sel ∧ sel ≤ 0x117 then { c with xs := tset 0 c.xs (sel - 0x110) v } else c

end Sys2Proof.Machine
end

