-- ==== Sys2Proof/Machine/Operands.lean ====
section
/-! DEFINITION. Operand forms and the issue of one word: sources and ports (R186, R33), destinations, the
checks of R84 in their order, occupancy, results in flight, and what follows the word (R89-R95). -/

namespace Sys2Proof.Machine

/-- The ramp k of a RAMP field (R19). -/
def rampK (ramp : Nat) : Nat := 2 ^ ramp

/-- The instruction word of an instruction (0 for an event). -/
def wordOf (i : Instr) : Word := BitVec.ofNat 64 ((encode i).getD 0)

/-! ### Sources -/

/-- The low w bits of a value. -/
def lowBits (w : Nat) (v : Word) : Nat := v.toNat % 2 ^ w

/-- A source register's value at tick t: s0 reads 0, a port its front word (R186); an empty port 0. -/
def Core.src (c : Core) (t n : Nat) : Word :=
  if isPort n then ((c.front (n - 56) t).map (·.v)).getD 0 else c.reg n

/-- The first word that each port named as a source would give at tick t; none in the place of an empty one. -/
def Core.fronts (c : Core) (t : Nat) (srcs : List Nat) : List (Option QWord) :=
  (srcs.filter isPort).map (fun n => c.front (n - 56) t)

/-- Why the sources cannot be read at tick t: an empty port raises queue-underrun (R33). -/
def Core.srcStop (c : Core) (t : Nat) (srcs : List Nat) : Option Stop :=
  if (c.fronts t srcs).any Option.isNone then some (.fault 0x09 0 0) else none

/-- The pending fault that the pop of a status word delivers: that of the entry that pushed it (R176). -/
def Core.statusFault (c : Core) (w : QWord) : Option FaultRec :=
  if w.q = 0 then none else c.pending.find? (fun f => f.queue = w.q ∧ f.seq = w.seq)

/-- The attributed fault that the sources deliver as they pop at tick t (R176). It comes after every precise fault of the
word's own (R174). -/
def Core.srcDeliver (c : Core) (t : Nat) (srcs : List Nat) : Option Stop :=
  (((c.fronts t srcs).filterMap id).findSome? c.statusFault).map .deliver

/-- Every port named as a source pops once (R33). -/
def Core.popSrcs (c : Core) (t : Nat) (srcs : List Nat) : Core :=
  ((srcs.filter isPort).dedup).foldl (fun c n => c.pop (n - 56) t) c

/-- The scalar registers a word reads as sources, in the order its assembly form names them (R175, R186). BPERM.e names
the even register of its pair; the odd one follows it (DEDUCED, unsafe: log 68). -/
def sourcesOf : Instr → List Nat
  | .add f | .sub f | .xor f | .rol f | .mulo f | .swap f | .min f | .max f | .minK f | .maxK f | .minB f | .maxB f => [f.d, f.a]
  | .neg f => [f.d]
  | .cswap f => [f.d, f.a, f.c]
  | .addi f | .xori f | .roli f | .muloi f => [f.d]
  | .xorw f | .movw f => [f.d]
  | .add3 f => EForm.sources (.reg .add3 f)
  | .sub3 f => EForm.sources (.reg .sub3 f)
  | .xor3 f => EForm.sources (.reg .xor3 f)
  | .and f => EForm.sources (.reg .and f)
  | .or f => EForm.sources (.reg .or f)
  | .mul f => EForm.sources (.reg .mul f)
  | .mulh f => EForm.sources (.reg .mulh f)
  | .shl f => EForm.sources (.reg .shl f)
  | .shr f => EForm.sources (.reg .shr f)
  | .sar f => EForm.sources (.reg .sar f)
  | .mov f => EForm.sources (.reg .mov f)
  | .clr f => EForm.sources (.reg .clr f)
  | .ext f => EForm.sources (.reg .ext f)
  | .norm f => EForm.sources (.reg .norm f)
  | .popc f => EForm.sources (.reg .popc f)
  | .cmpeq f => EForm.sources (.reg .cmpeq f)
  | .cmplt f => EForm.sources (.reg .cmplt f)
  | .cmplo f => EForm.sources (.reg .cmplo f)
  | .andi f | .ori f | .shli f | .shri f | .sari f | .bfx f => [f.a]
  | .bfi f => [f.d, f.a]
  | .keepForm e | .backForm e => e.dst :: e.sources
  | .bperm f => [f.d, f.d + 1]
  | .bpermE f => [f.a, f.a + 1]
  | .bc f => [f.a, f.b]
  | .ret f | .loop f => [f.a]
  | .ld f | .bpld f => [f.a]
  | .ldx f | .st f | .stx f | .swpm f => [f.d, f.a]
  | .atomAdd f | .atomMin f | .atomMax f | .atomAnd f | .atomOr f | .atomXor f | .atomSwp f | .atomFadd f => [f.a, f.b]
  | .atomCas f => [f.a, f.b, f.c]
  | .syexp f | .syarr f | .sywait f | .hspill f | .hfill f | .erase f => [f.a, f.d]
  | .pgreq f | .crwr f | .crset f | .crclr f => [f.a]
  | .hpush f | .hpop f | .crswp f => [f.d]
  | .uhtopWrite how f => [if how = .swp then f.d else f.a]
  | .vmovs f | .vmovsAll f => [f.sa]
  | .vld f | .vldx f | .vst f | .vstx f | .vswpm f => [f.a, f.b]
  | .tfetchRow f | .tfetchCol f | .tloadw f | .tdrain f | .tdrainVec f | .tdrainb f | .anorm f | .aclr f | .torg f | .tstat f
  | .cpy f | .cpyt f | .cpgath f | .cpscat f | .cpfill f | .cpxor f | .cpswp f | .cpstat f | .graftAppend f | .graftSum f
  | .graftSplit f | .gproj f | .gload f | .gstore f | .gsetm f | .gsetb f | .gclr f | .gstat f | .gstatInfo f | .batomAdd f
  | .batomMin f | .batomMax f | .batomAnd f | .batomOr f | .batomXor f | .batomSwp f | .batomCas f | .batomFadd f | .bred f
  | .bcollAllreduce f | .bcollRedscat f | .bcollAllgath f | .bcollBcast f | .bdig f | .bcopy f | .bfill f | .bseed f | .bstat f
  | .bstatInfo f => [f.a, f.b, f.c]
  | _ => []

/-! ### Destinations -/

/-- What a result writes, as a collision key (R89-R91, R291): s0 never takes part. -/
def Land.keys : Land → List (Nat × Nat × Nat)
  | .sreg n _ _ _ => if n = 0 then [] else [(0, n, 0)]
  | .push q _ => [(1, q, 0)]
  | .creg n _ => [(2, n, 0)]
  | .vcol r j _ => [(3, r, j)]
  | .mcol p j _ => [(4, p, j)]
  | .pat p _ => [(5, p, 0)]
  | .amax _ _ sa =>
    (2, 0x22, 0) :: (if sa = 0 then [] else if isPort sa then [(1, sa - 56, 0)] else [(0, sa, 0)])
  | .tok _ => []
  | .cell _ => []
  | .nothing => []

/-- The keys of new results, each with its due tick. -/
def pendKeys (l : List Pend) : List (Nat × Nat × Nat × Nat) := l.flatMap (fun p => p.land.keys.map (fun k => (p.due, k)))

/-- A result would fall due where another falls due on the same tick (R89). -/
def Core.collides (c : Core) (l : List (Nat × Nat × Nat × Nat)) : Bool :=
  let held := pendKeys c.pend ++ c.vq.flatMap (·.resv)
  l.any (fun k => held.contains k)

/-- The landing of a full or partial result in register n: bits lo .. lo+len-1 take the low bits of v. A
port pushes 64 bits: `base` supplies those outside the written field (R186). -/
def dstLand (n lo len : Nat) (v base : Word) : Land :=
  if isPort n then .push (n - 56) (insBits base lo len v) else .sreg n lo len v

/-- A result written to s0 or an s-register is charged its width, to a port nothing (R186, R159). -/
def Core.chargeDst (c : Core) (n bits : Nat) : Core := if isPort n then c else c.eraseReg bits

/-- A result to s0 of a reversible form is charged its width (R186). -/
def Core.chargeZero (c : Core) (n bits : Nat) : Core := if n = 0 then c.eraseReg bits else c

/-! ### The checks of R84 -/

/-- A functional unit is inside an earlier word's occupancy at tick t (R92). -/
def Core.unitBusy (c : Core) (t : Nat) (u : FUnit) : Bool := t < tget 0 c.busy (match u with
  | .alu => 0 | .mul => 1 | .perm => 2 | .mem => 3 | .trug => 4 | .ctl => 5 | .vec => 6)

/-- A functional unit occupied until a tick. -/
def Core.occupy (c : Core) (until_ : Nat) (u : FUnit) : Core :=
  { c with busy := tset 0 c.busy (match u with
    | .alu => 0 | .mul => 1 | .perm => 2 | .mem => 3 | .trug => 4 | .ctl => 5 | .vec => 6) until_ }

/-- Ports that results push into. -/
def pushPorts (l : List Pend) : List Nat :=
  l.filterMap fun p => match p.land with | .push q _ => some q | _ => none

/-- The checks of R84 that every word shares, after decoding: a system word in the unit view, ramp-collision,
write-collision; then those of its operands: a unit-view push into q4-q7 (R32), empty source ports, full destination
ports (R33). DEDUCED, unsafe: log 28. -/
def gate (s : State) (sys : Bool) (units : List FUnit) (srcs : List Nat) (lands : List Pend) : Option Stop :=
  let c := s.core
  let t := s.bed.btick
  if c.view = .unit && sys then some (.fault 0x1F 0 0)
  else if units.any (c.unitBusy t) then some (.fault 0x03 0 0)
  else if c.collides (pendKeys lands) then some (.fault 0x04 0 0)
  else if c.view = .unit && (pushPorts lands).any (fun q => 4 ≤ q) then some (.fault 0x1F 0 0)
  else match c.srcStop t srcs with
    | some st => some st
    | none => if (pushPorts lands).any (fun q => portFull s c.num q t) then some (.fault 0x0A 0 0) else none

/-- Why a word has no effect: the checks that every word shares, its own, then what its sources deliver (R84, R174). -/
def stopOf (s : State) (sys : Bool) (units : List FUnit) (srcs : List Nat) (lands : List Pend) (own : Option Stop) : Option Stop :=
  ((gate s sys units srcs lands).or own).or (s.core.srcDeliver s.bed.btick srcs)

/-- A precise fault of a word. -/
def bad0 (b : Bool) (code addr detail : Nat) : Option Stop :=
  if b then some (.fault code (BitVec.ofNat 64 addr) (BitVec.ofNat 64 detail)) else none

/-! ### Stopping and issuing a word -/

/-- The record of a sequencer word (R175): its address, the word, its first three sources. -/
def wordRec (s : State) (i : Instr) (srcs : List Nat) : FaultRec :=
  let c := s.core
  let t := s.bed.btick
  let op (k : Nat) : Word := match srcs[k]? with | some n => c.src t n | none => 0
  { FaultRec.none with ipc := c.pc, word := wordOf i, opa := op 0, opb := op 1, opc := op 2 }

/-- A word that has just been refused is the last one issued, so its trap is taken on the next bt at the earliest (R172;
chapter 13, E9 and E10). -/
def refusedAt (s : State) : Nat := s.bed.btick + 1

/-- A word that has no effect: its fault is raised, or the pending fault delivered (R95, R176). -/
def stopWord (s : State) (i : Instr) (srcs : List Nat) (st : Stop) : State :=
  let c := s.core
  match st with
  | .fault code addr detail =>
    onCore s (fun c => c.raise { wordRec s i srcs with code := code, addr := addr, detail := detail } c.pc
      (refusedAt s))
  | .deliver f => onCore s (fun _ => c.deliver f c.pc (refusedAt s))

/-- What the issue of every word does (R91, R92, R163): ports pop, units are occupied, work is added to EJ
in the unit view, results go in flight, and the next word is named. -/
def issueCore (s : State) (units : List FUnit) (k : Nat) (srcs : List Nat) (lands : List Pend) (work : Nat)
    (npc : Word) (nbt : Nat) : State :=
  let t := s.bed.btick
  onCore s fun c =>
    let c1 := units.foldl (fun c u => c.occupy (t + k) u) (c.popSrcs t srcs)
    { c1 with
      pend := c1.pend ++ lands
      ej := c1.ej + (if c.view = .unit then workUnits work k (heat s c.num) else 0)
      pc := npc, nextBt := nbt, order := c1.order + 1 }

/-- Cell bits that results in flight charge as they fall due (R214). -/
def owedCells (l : List Pend) : Nat := l.foldl (fun a p => match p.land with | .cell n => a + n | _ => a) 0

/-- The end of a word that issued at `s` and left `s'` (R162, R242): a crossing made by a unit-view word
is taken after the word, XREC7 holding every bit the word charges, those of its due tick (R214) among them; one made in
the system view stays in XSTAT.QP. -/
def afterWord (s : State) (i : Instr) (srcs : List Nat) (s' : State) : State :=
  if s.core.view = .unit ∧ s'.core.qp ∧ !s.core.qp ∧ s'.core.run = .running then
    onCore s' fun c => { c with
      qp := false
      trap := some {
        fr := { wordRec s i srcs with
          code := 0x08, kind := 1, order := s.core.order
          detail := BitVec.ofNat 64 (c.ebits - s.core.ebits + owedCells c.pend - owedCells s.core.pend) }
        xpc := c.pc, at_ := s.bed.btick + 1, stop := false, terminal := false } }
  else s'

/-- One word: the shared checks, then its own, then its issue with its own effect. -/
def runWord (s : State) (i : Instr) (sys : Bool) (units : List FUnit) (ramp : Nat) (srcs : List Nat)
    (lands : List Pend) (own : Option Stop) (work : Nat) (npc : Word) (nbt : Nat) (eff : State → State) : Res :=
  match stopOf s sys units srcs lands own with
  | some st => .next (stopWord s i srcs st)
  | none => .next (afterWord s i srcs (eff (issueCore s units (rampK ramp) srcs lands work npc nbt)))

/-- A word after which PC + 8 issues on the next bt. -/
def runNext (s : State) (i : Instr) (sys : Bool) (units : List FUnit) (ramp : Nat) (srcs : List Nat)
    (lands : List Pend) (own : Option Stop) (work : Nat) (eff : State → State) : Res :=
  runWord s i sys units ramp srcs lands own work (s.core.pc + 8) (s.bed.btick + 1) eff

/-- A result due base + k - 1 after issue (R20). -/
def dueAt (s : State) (base ramp : Nat) (l : Land) : Pend :=
  { due := s.bed.btick + base + rampK ramp - 1, land := l, acc := 0 }

/-- A source of the focused core at its tick. -/
def srcVal (s : State) (n : Nat) : Word := s.core.src s.bed.btick n

end Sys2Proof.Machine
end

