-- ==== Sys2Proof/Machine/Access.lean ====
section
/-! DEFINITION. Addresses and their checks (R207, R250), the post buffer (R211), loads and stores (R208,
R212, R213), atomics (R214, R215) and BPLD (R197). An access performs at its home as its word issues, one
step after another (log 13); the post buffer keeps what is not yet acknowledged. -/

namespace Sys2Proof.Machine

/-- A base register plus a signed offset field, modulo 2^64. -/
def effAddr (s : State) (a bits off : Nat) : Nat := (srcVal s a + BitVec.ofInt 64 (sgn bits off)).toNat

/-- The apertures an atomic or sync word may not go through (R263): every one but identity. -/
def throughTransform (s : State) (l : List (Extent × Nat × Nat)) : Bool :=
  l.any fun x => paSpace x.1.pbase = 3 &&
    (tget Aperture.reset (getDie s (paDie x.1.pbase)).aps (paOff x.1.pbase / 2 ^ 36)).xf ≠ 0

/-- The home of an access lies in another package. -/
def elsewhere (s : State) (ps : List Place) : Bool := ps.any (fun p => paPkg p.pa ≠ s.plat.pkg)

/-- The home of an access lies in another package while the core's gang has not committed (R227). -/
def gangBars (s : State) (c : Core) (ps : List Place) : Bool :=
  c.gang ≠ 0 && elsewhere s ps

/-- The address checks of R207 in their order, then those of R250, R263 and R227. A read of an absent
extent passes: R208 gives its outcome. -/
def addrStop (s : State) (c : Core) (va len align : Nat) (wr ident : Bool) : Option Stop :=
  let bad (code detail : Nat) : Option Stop := some (.fault code (BitVec.ofNat 64 va) (BitVec.ofNat 64 detail))
  if va % align ≠ 0 then bad 0x0E 0
  else match coreSpans c va len with
    | none => bad 0x0C 0
    | some l =>
      if wr && l.any (fun x => !x.1.wr) then bad 0x0D 0
      else if wr && l.any (fun x => x.1.abs) then bad 0x0C 1
      else if l.any (fun x => x.1.abs) then none
      else match spansPlaces s wr l with
        | .error f => bad f.1 f.2
        | .ok ps =>
          if ident && throughTransform s l then bad 0x0D 3
          else if gangBars s c ps then bad 0x0D 2
          else none

/-- A load names an absent extent (R208). -/
def loadAbsent (c : Core) (va : Nat) : Bool := match findExt c.extents va with | some e => e.abs | none => false

/-- The places of an access that has passed its checks. DESIGN CHOICE, unsafe: log 63. -/
def placesOf (s : State) (c : Core) (va len : Nat) (wr : Bool) : List Place :=
  match places s c va len wr with | .ok l => l | .error _ => []

/-- The base latency of an access to a place (R209). -/
def accLat (s : State) (c : Core) (ps : List Place) (atom : Bool) : Nat :=
  match ps with | p :: _ => homeLat s c.num p.pa atom | [] => 4

/-- The value at places: an uncorrectable error raises 0x1B precisely (R245). -/
def readAt (s : State) (va : Nat) (ps : List Place) : Except Stop Nat :=
  match readPlaces s ps with
  | .ok bs => .ok (leNat bs)
  | .error i => .error (.fault 0x1B (BitVec.ofNat 64 (va + i)) 0)

/-- An access joins the post buffer (R211), in an entry of its own unless it names one. -/
def postAcc (s : State) (a : Access) : State :=
  onCore s fun c => { c with
    accs := c.accs ++ [{ a with id := c.nextAcc, grp := if a.grp = 0 then c.nextAcc else a.grp }]
    nextAcc := c.nextAcc + 1 }

/-- The record of an access of the word now issuing at the focused core. DESIGN CHOICE, unsafe: log 13. -/
def mkAcc (s : State) (i : Instr) (srcs : List Nat) (kind : AccKind) (cls sc va due : Nat) (ps : List Place)
    (undo : List (Tgt × Byte × Nat)) : Access :=
  let r := wordRec s i srcs
  let pa := match ps with | p :: _ => p.pa | [] => 0
  { id := 0, kind := kind, cls := cls, sc := sc, addr := BitVec.ofNat 64 va, pa := pa
    runs := ps.flatMap Place.runs, due := due, remote := elsewhere s ps, pc := r.ipc, word := r.word, opa := r.opa
    opb := r.opb, opc := r.opc, left := false, tok := 63, order := s.core.order, grp := 0, tick := s.bed.btick
    undo := undo }

/-- Byte writes at places, and the index of a byte dropped (R245, R257). -/
def writeAt (s : State) (ps : List Place) (v : Nat) : State × Option Nat :=
  writePlaces s (ps.zip (leBytes ps.length v))

/-- What a timed-out write may leave (R142): for each byte its target, the value before it and how many writes the byte
has taken with it; kept for homes in other packages only. -/
def undoOf (s : State) (ps : List Place) : List (Tgt × Byte × Nat) :=
  if elsewhere s ps then
    (ps.flatMap Place.tgts).map fun t => (t, (readTgt s t).getD 0, writesOf s t + 1)
  else []

/-- A store dropped in part raises 0x1B attributed to its word, delivered as a timeout is (R171). -/
def dropFault (s : State) (a : Access) (va idx : Nat) : State :=
  onCore s fun c => c.addPending
    { FaultRec.none with
      code := 0x1B, kind := 2, ipc := a.pc, word := a.word, opa := a.opa, opb := a.opb, opc := a.opc
      addr := BitVec.ofNat 64 (va + idx), order := a.order, mask := 2 ^ a.cls }

/-- The memory half of a store performs at its home and the access is posted. -/
def performWrite (s : State) (a : Access) (va : Nat) (ps : List Place) (v : Nat) : State :=
  let r := writeAt s ps v
  let s1 := postAcc r.1 a
  match r.2 with | some k => dropFault s1 a va k | none => s1

/-- A load's extension of w bits to 64 (R212). -/
def extTo64 (ty v : Nat) : Word := if tySigned ty then BitVec.ofInt 64 (sgn (tyBits ty) v) else BitVec.ofNat 64 v

/-- A result of a memory word: due by its base latency, and waiting for its access's reply (R209, R210). -/
def memDue (s : State) (base ramp : Nat) (l : Land) : Pend := { dueAt s base ramp l with acc := s.core.nextAcc }

/-- The result of a memory word whose own checks refuse it, for the check of R84 that stands before them (R207): due by the
home of its first byte; none where no home holds that byte. -/
def refusedLand (s : State) (va : Nat) (wr atom : Bool) (ramp : Nat) (l : Land) : List Pend :=
  match places s s.core va 1 wr with
  | .ok ps => [memDue s (accLat s s.core ps atom) ramp l]
  | .error _ => []

/-- LD and LDX (R208, R212): `absent` are the results of a load of an absent extent. A load of an absent extent makes the
datapath's 64 bit-operations as any other, whatever D names (DESIGN CHOICE, unsafe: log 72). -/
def runLoad (s : State) (i : Instr) (xor : Bool) (f : SmemW) : Res :=
  let c := s.core
  let va := effAddr s f.a 23 f.off
  let len := tyBits f.ty / 8
  let old := srcVal s f.d
  let srcs := if xor then [f.d, f.a] else [f.a]
  let base := if xor then old else 0
  let charge (c : Core) : Core := if xor then c.chargeZero f.d 64 else c.chargeDst f.d 64
  let run (lands : List Pend) (own : Option Stop) (eff : State → State) : Res :=
    runNext s i false [.mem] f.ramp srcs lands own (tyBits f.ty + 64) eff
  let kept := if xor then (if isPort f.d then .push (f.d - 56) old else .sreg f.d 0 0 0) else dstLand f.d 0 64 0 0
  let absent := dueAt s 4 f.ramp kept :: (if f.b = 0 then [] else [dueAt s 4 f.ramp (.sreg f.b 0 1 0)])
  let refused := if loadAbsent c va then absent else refusedLand s va false false f.ramp (dstLand f.d 0 64 0 base)
  match addrStop s c va len len false false with
  | some st => run refused (some st) id
  | none =>
    if loadAbsent c va then
      run absent none (fun s => onCore s (fun c => if f.b = 0 then charge c else (charge c).eraseReg 1))
    else
      let ps := placesOf s c va len false
      match readAt s va ps with
      | .error st => run refused (some st) id
      | .ok m =>
        let v := extTo64 f.ty m
        let p := memDue s (accLat s c ps false) f.ramp (dstLand f.d 0 64 (if xor then old ^^^ v else v) base)
        run [p] none
          (fun s' => onCore (postAcc s' (mkAcc s i srcs .load f.cl f.sc va p.due ps [])) charge)

/-- LD (R212). -/
def execLd (f : SmemW) (s : State) : Res := runLoad s (.ld f) false f
/-- LDX (R212). -/
def execLdx (f : SmemW) (s : State) : Res := runLoad s (.ldx f) true f

/-- ST and STX (R212, R213). -/
def runStore (s : State) (i : Instr) (xor : Bool) (f : SmemW) : Res :=
  let c := s.core
  let va := effAddr s f.a 23 f.off
  let w := tyBits f.ty
  let srcs := [f.d, f.a]
  let run (own : Option Stop) (eff : State → State) : Res := runNext s i false [.mem] f.ramp srcs [] own (w + 64) eff
  match addrStop s c va (w / 8) (w / 8) true false with
  | some st => run (some st) id
  | none =>
    let ps := placesOf s c va (w / 8) true
    let x := lowBits w (srcVal s f.d)
    match (if xor then readAt s va ps else .ok 0) with
    | .error st => run (some st) id
    | .ok m =>
      let v := if xor then m ^^^ x else x
      let a := mkAcc s i srcs (if xor then .rmw else .store) f.cl f.sc va 0 ps (undoOf s ps)
      run none (fun s' => onCore (performWrite s' a va ps v) (fun c => if xor then c else c.erase w true))

/-- ST (R212). -/
def execSt (f : SmemW) (s : State) : Res := runStore s (.st f) false f
/-- STX (R212, R213). -/
def execStx (f : SmemW) (s : State) : Res := runStore s (.stx f) true f

/-- SWPM: the low w bits of D and memory are exchanged (R212, R213). -/
def execSwpm (f : SmemW) (s : State) : Res :=
  let c := s.core
  let va := effAddr s f.a 23 f.off
  let w := tyBits f.ty
  let srcs := [f.d, f.a]
  let run (lands : List Pend) (own : Option Stop) (eff : State → State) : Res :=
    runNext s (.swpm f) false [.mem] f.ramp srcs lands own (2 * w + 64) eff
  let refused := refusedLand s va true false f.ramp (.sreg f.d 0 w 0)
  match addrStop s c va (w / 8) (w / 8) true false with
  | some st => run refused (some st) id
  | none =>
    let ps := placesOf s c va (w / 8) true
    match readAt s va ps with
    | .error st => run refused (some st) id
    | .ok m =>
      let x := lowBits w (srcVal s f.d)
      let p := memDue s (accLat s c ps false) f.ramp (.sreg f.d 0 w (BitVec.ofNat 64 m))
      let a := mkAcc s (.swpm f) srcs .rmw f.cl f.sc va p.due ps (undoOf s ps)
      run [p] none (fun s' => performWrite s' a va ps x)

/-! ### Atomics -/

/-- The new word of an atomic from the old one, B and C (R75, R214); none where .cas finds another value. -/
def aopNew (op : Aop) (old b c : Nat) : Option Nat :=
  match op with
  | .add => some ((old + b) % 2 ^ 64)
  | .min => some (if lessSigned old b then old else b)
  | .max => some (if lessSigned old b then b else old)
  | .and => some (old &&& b)
  | .or => some (old ||| b)
  | .xor => some (old ^^^ b)
  | .swp => some b
  | .cas => if old = c then some b else none
  | .fadd => some (fadd32 old (b % 2 ^ 32))
where lessSigned (x y : Nat) : Bool := sgn 64 x < sgn 64 y

/-- Cell bits an atomic charges at issue; .cas is charged at its due tick (R214). -/
def aopCells : Aop → Nat
  | .add | .min | .max | .and | .or => 64
  | .fadd => 32
  | .xor | .swp | .cas => 0

/-- ATOM (R214): the word at its home takes the new value, D receives the old one. -/
def runAtom (s : State) (i : Instr) (op : Aop) (f : SatmW) : Res :=
  let c := s.core
  let va := effAddr s f.a 16 f.off
  let len := if op = .fadd then 4 else 8
  let srcs := if op = .cas then [f.a, f.b, f.c] else [f.a, f.b]
  let run (lands : List Pend) (own : Option Stop) (eff : State → State) : Res :=
    runNext s i false [.mem] f.ramp srcs lands own 128 eff
  let refused := refusedLand s va true true f.ramp (dstLand f.d 0 64 0 0)
  match addrStop s c va len len true true with
  | some st => run refused (some st) id
  | none =>
    let ps := placesOf s c va len true
    match readAt s va ps with
    | .error st => run refused (some st) id
    | .ok old =>
      let new := aopNew op old (srcVal s f.b).toNat (srcVal s f.c).toNat
      let p := memDue s (accLat s c ps true) f.ramp (dstLand f.d 0 64 (BitVec.ofNat 64 old) 0)
      let cell := if op = .cas ∧ new.isSome then [memDue s (accLat s c ps true) f.ramp (.cell 64)] else []
      let a := mkAcc s i srcs .atomic f.cl f.sc va p.due ps (if new.isSome then undoOf s ps else [])
      run (p :: cell) none fun s' =>
        let s1 := match new with | some v => performWrite s' a va ps v | none => postAcc s' a
        onCore s1 (fun c => (c.chargeDst f.d 64).erase (aopCells op) true)

/-- ATOM.add (R214). -/
def execAtomAdd (f : SatmW) (s : State) : Res := runAtom s (.atomAdd f) .add f
/-- ATOM.min (R214). -/
def execAtomMin (f : SatmW) (s : State) : Res := runAtom s (.atomMin f) .min f
/-- ATOM.max (R214). -/
def execAtomMax (f : SatmW) (s : State) : Res := runAtom s (.atomMax f) .max f
/-- ATOM.and (R214). -/
def execAtomAnd (f : SatmW) (s : State) : Res := runAtom s (.atomAnd f) .and f
/-- ATOM.or (R214). -/
def execAtomOr (f : SatmW) (s : State) : Res := runAtom s (.atomOr f) .or f
/-- ATOM.xor (R214). -/
def execAtomXor (f : SatmW) (s : State) : Res := runAtom s (.atomXor f) .xor f
/-- ATOM.swp (R214). -/
def execAtomSwp (f : SatmW) (s : State) : Res := runAtom s (.atomSwp f) .swp f
/-- ATOM.cas (R214). -/
def execAtomCas (f : SatmW) (s : State) : Res := runAtom s (.atomCas f) .cas f
/-- ATOM.fadd (R214). -/
def execAtomFadd (f : SatmW) (s : State) : Res := runAtom s (.atomFadd f) .fadd f

/-- BPLD: a pattern from 128 bytes of the core's own scratchpad (R197). -/
def execBpld (f : SmemW) (s : State) : Res :=
  let c := s.core
  let va := effAddr s f.a 23 f.off
  let run (lands : List Pend) (own : Option Stop) (eff : State → State) : Res :=
    runNext s (.bpld f) false [.perm, .mem] f.ramp [f.a] lands own 1024 eff
  let refused := [memDue s 12 f.ramp (.pat f.d [])]
  if va % 16 ≠ 0 then run refused (some (.fault 0x0E (BitVec.ofNat 64 va) 0)) id
  else match ownSpad s c va 128 with
    | none => run refused (some (.fault 0x0C (BitVec.ofNat 64 va) 0)) id
    | some _ =>
      let ps := placesOf s c va 128 false
      match readPlaces s ps with
      | .error k => run refused (some (.fault 0x1B (BitVec.ofNat 64 (va + k)) 0)) id
      | .ok bs =>
        let p := memDue s 12 f.ramp (.pat f.d bs)
        run [p] none fun s' =>
          onCore (postAcc s' (mkAcc s (.bpld f) [f.a] .load f.cl f.sc va p.due ps [])) (·.erase 1024 false)

end Sys2Proof.Machine
end

