-- ==== Sys2Proof/Machine/Alu.lean ====
section
/-! DEFINITION. NOP and the scalar forms of chapter 08: reversible (R189, R190), erasing (R191, R192), keep
and back (R193-R195). -/

namespace Sys2Proof.Machine

/-- x rotated left by c within w bits. -/
def rotL (w x c : Nat) : Nat := (x * 2 ^ c + x / 2 ^ (w - c)) % 2 ^ w

/-- A signed 36-bit immediate reduced modulo 2^w (R189). -/
def immW (w imm : Nat) : Nat := wrapN w (sgn 36 imm)

/-- A left shift; a count of w or more gives 0 (R192). -/
def shiftL (w x c : Nat) : Nat := x * 2 ^ c % 2 ^ w
/-- A logical right shift. -/
def shiftR (x c : Nat) : Nat := x / 2 ^ c
/-- An arithmetic right shift; a count of w or more gives the sign everywhere. -/
def shiftA (w x c : Nat) : Nat := wrapN w (sgn w x / 2 ^ (min c w))

/-- The number of bits directly below bit w - 1 that equal it (R191). -/
def normCount (w x : Nat) : Nat :=
  let top := x.testBit (w - 1)
  ((List.range (w - 1)).takeWhile (fun i => x.testBit (w - 2 - i) == top)).length

/-- The number of 1 bits below bit w. -/
def popCount (w x : Nat) : Nat := ((List.range w).filter (fun i => x.testBit i)).length

/-- a < b at width w, signed or unsigned. -/
def lessThan (signed : Bool) (w x y : Nat) : Bool := if signed then sgn w x < sgn w y else x < y

/-! ### Reversible forms -/

/-- A reversible form over D and one more source, on a unit. `val` takes D's and A's low bits. -/
def runRev (s : State) (i : Instr) (u : FUnit) (base work ramp d w : Nat) (srcs : List Nat) (v : Nat) : Res :=
  runNext s i false [u] ramp srcs [dueAt s base ramp (dstLand d 0 w (BitVec.ofNat 64 v) (srcVal s d))] none work
    (fun s => onCore s (·.chargeZero d w))

/-- The low w bits of a source now. -/
def srcLow (s : State) (w n : Nat) : Nat := lowBits w (srcVal s n)

/-- ADD: D := D + A (R189). -/
def execAdd (f : SregW) (s : State) : Res :=
  let w := tyBits f.ty
  runRev s (.add f) .alu 1 w f.ramp f.d w [f.d, f.a] ((srcLow s w f.d + srcLow s w f.a) % 2 ^ w)

/-- SUB: D := D - A (R189). -/
def execSub (f : SregW) (s : State) : Res :=
  let w := tyBits f.ty
  runRev s (.sub f) .alu 1 w f.ramp f.d w [f.d, f.a] ((srcLow s w f.d + 2 ^ w - srcLow s w f.a) % 2 ^ w)

/-- XOR: D := D xor A (R189). -/
def execXor (f : SregW) (s : State) : Res :=
  let w := tyBits f.ty
  runRev s (.xor f) .alu 1 w f.ramp f.d w [f.d, f.a] (srcLow s w f.d ^^^ srcLow s w f.a)

/-- NEG: D := -D (R189). -/
def execNeg (f : SregW) (s : State) : Res :=
  let w := tyBits f.ty
  runRev s (.neg f) .alu 1 w f.ramp f.d w [f.d] ((2 ^ w - srcLow s w f.d) % 2 ^ w)

/-- ROL: D rotated left by A[5:0] mod w (R189). -/
def execRol (f : SregW) (s : State) : Res :=
  let w := tyBits f.ty
  runRev s (.rol f) .alu 1 w f.ramp f.d w [f.d, f.a] (rotL w (srcLow s w f.d) (srcLow s w f.a % 64 % w))

/-- MULO: D := D * (A or 1) (R189). -/
def execMulo (f : SregW) (s : State) : Res :=
  let w := tyBits f.ty
  runRev s (.mulo f) .mul 3 (w * w) f.ramp f.d w [f.d, f.a]
    (srcLow s w f.d * (srcLow s w f.a ||| 1) % 2 ^ w)

/-- The results of an exchange of two registers: with D = A it has no effect, but for a port, whose word
is pushed back (R186, R190). -/
def swapLands (s : State) (ramp d a w x y : Nat) : List Pend :=
  if d = a then
    (if isPort d then [dueAt s 1 ramp (.push (d - 56) (srcVal s d))] else [])
  else [dueAt s 1 ramp (dstLand d 0 w (BitVec.ofNat 64 x) (srcVal s d)),
        dueAt s 1 ramp (dstLand a 0 w (BitVec.ofNat 64 y) (srcVal s a))]

/-- The charge of an exchange with s0 (R186). -/
def chargeSwap (d a w : Nat) (c : Core) : Core := if d = a then c else (c.chargeZero d w).chargeZero a w

/-- SWAP: D := A and A := D (R189, R190). -/
def execSwap (f : SregW) (s : State) : Res :=
  let w := tyBits f.ty
  runNext s (.swap f) false [.alu] f.ramp [f.d, f.a]
    (swapLands s f.ramp f.d f.a w (srcLow s w f.a) (srcLow s w f.d)) none (2 * w)
    (fun s => onCore s (chargeSwap f.d f.a w))

/-- CSWAP: the exchange when C[0] = 1; both registers are written either way (R189, R190). -/
def execCswap (f : SregW) (s : State) : Res :=
  let w := tyBits f.ty
  let x := srcLow s w f.d
  let y := srcLow s w f.a
  let c := (srcVal s f.c).getLsbD 0
  runNext s (.cswap f) false [.alu] f.ramp [f.d, f.a, f.c]
    (swapLands s f.ramp f.d f.a w (if c then y else x) (if c then x else y)) none (2 * w)
    (fun s => onCore s (chargeSwap f.d f.a w))

/-- ADDI: D := D + imm (R189). -/
def execAddi (f : SimmW) (s : State) : Res :=
  let w := tyBits f.ty
  runRev s (.addi f) .alu 1 w f.ramp f.d w [f.d] ((srcLow s w f.d + immW w f.imm) % 2 ^ w)

/-- XORI: D := D xor imm (R189). -/
def execXori (f : SimmW) (s : State) : Res :=
  let w := tyBits f.ty
  runRev s (.xori f) .alu 1 w f.ramp f.d w [f.d] (srcLow s w f.d ^^^ immW w f.imm)

/-- ROLI: D rotated left by imm mod w (R189). -/
def execRoli (f : SimmW) (s : State) : Res :=
  let w := tyBits f.ty
  runRev s (.roli f) .alu 1 w f.ramp f.d w [f.d] (rotL w (srcLow s w f.d) (f.imm % w))

/-- MULOI: D := D * imm (R189). -/
def execMuloi (f : SimmW) (s : State) : Res :=
  let w := tyBits f.ty
  runRev s (.muloi f) .mul 3 (w * w) f.ramp f.d w [f.d] (srcLow s w f.d * immW w f.imm % 2 ^ w)

/-- XORW: the half H of D xored with imm (R189). -/
def execXorw (f : SwideW) (s : State) : Res :=
  let d := srcVal s f.d
  let v := BitVec.ofNat 64 (d.toNat / 2 ^ (32 * f.h) % 2 ^ 32 ^^^ f.imm)
  runNext s (.xorw f) false [.alu] f.ramp [f.d] [dueAt s 1 f.ramp (dstLand f.d (32 * f.h) 32 v d)] none 32
    (fun s => onCore s (·.chargeZero f.d 32))

/-! ### Erasing forms (R191) -/

/-- f of an erasing SREG form, from the low w bits of A and B. -/
def eregValue (op : EReg) (ty a b : Nat) : Nat :=
  let w := tyBits ty
  match op with
  | .add3 => (a + b) % 2 ^ w
  | .sub3 => (a + 2 ^ w - b) % 2 ^ w
  | .xor3 => a ^^^ b
  | .and => a &&& b
  | .or => a ||| b
  | .mul => a * b % 2 ^ w
  | .mulh =>
    if tySigned ty then wrapN w (sgn w a * sgn w b / 2 ^ w) else a * b / 2 ^ w
  | .shl => shiftL w a (b % 64)
  | .shr => shiftR a (b % 64)
  | .sar => shiftA w a (b % 64)
  | .mov => a
  | .clr => 0
  | .ext => if tySigned ty then wrapN 64 (sgn w a) else a
  | .norm => normCount w a
  | .popc => popCount w a
  | .cmpeq => if a = b then 1 else 0
  | .cmplt => if lessThan true w a b then 1 else 0
  | .cmplo => if lessThan false w a b then 1 else 0

/-- The bits a form writes from bit 0 up (R191). -/
def eregWritten (op : EReg) (ty : Nat) : Nat :=
  match op with
  | .ext | .cmpeq | .cmplt | .cmplo => 64
  | _ => tyBits ty

/-- pos of BFX and BFI (R192). -/
def bfPos (imm : Nat) : Nat := imm % 64
/-- len of BFX and BFI (R192). -/
def bfLen (imm : Nat) : Nat := imm / 64 % 64 + 1

/-- What an erasing form writes: the lowest bit, the width and the value, from its sources. -/
def formResult (e : EForm) (src : Nat → Word) : Nat × Nat × Nat :=
  match e with
  | .reg op f => (0, eregWritten op f.ty, eregValue op f.ty (lowBits (tyBits f.ty) (src f.a)) (lowBits (tyBits f.ty) (src f.b)))
  | .imm op f =>
    let w := tyBits f.ty
    let a := lowBits w (src f.a)
    match op with
    | .andi => (0, w, a &&& immW w f.imm)
    | .ori => (0, w, a ||| immW w f.imm)
    | .shli => (0, w, shiftL w a f.imm)
    | .shri => (0, w, shiftR a f.imm)
    | .sari => (0, w, shiftA w a f.imm)
    | .movi => (0, w, immW w f.imm)
    | .bfx =>
      let v := a / 2 ^ bfPos f.imm % 2 ^ bfLen f.imm
      (0, 64, if tySigned f.ty then wrapN 64 (sgn (bfLen f.imm) v) else v)
    | .bfi => (bfPos f.imm, bfLen f.imm, a % 2 ^ bfLen f.imm)
  | .wide f => (32 * f.h, 32, f.imm)

/-- MOVW and BFI read D as a source; the other plain forms do not (R186). -/
def formReadsDst : EForm → Bool
  | .wide _ | .imm .bfi _ => true
  | _ => false

/-- RAMP of a form. -/
def formRamp : EForm → Nat
  | .reg _ f => f.ramp
  | .imm _ f => f.ramp
  | .wide f => f.ramp

/-- The unit, base latency and bit-operations of a form (R188). -/
def formCost : EForm → FUnit × Nat × Nat
  | .reg .mul f | .reg .mulh f => (.mul, 3, tyBits f.ty * tyBits f.ty)
  | .reg _ f => (.alu, 1, tyBits f.ty)
  | .imm _ f => (.alu, 1, tyBits f.ty)
  | .wide _ => (.alu, 1, 32)

/-- A plain erasing form (R193): the written bits are charged unless D is a port, and overwritten. -/
def runErase (s : State) (i : Instr) (e : EForm) : Res :=
  let r := formResult e (srcVal s)
  let srcs := if formReadsDst e then e.dst :: e.sources else e.sources
  let base := if formReadsDst e then srcVal s e.dst else 0
  runNext s i false [(formCost e).1] (formRamp e) srcs
    [dueAt s (formCost e).2.1 (formRamp e) (dstLand e.dst r.1 r.2.1 (BitVec.ofNat 64 r.2.2) base)] none (formCost e).2.2
    (fun s => onCore s (·.chargeDst e.dst r.2.1))

/-- A push of n bits overflows (R167). -/
def Core.pushStop (c : Core) (n : Nat) : Option Stop :=
  if c.limits.any (· < c.trug.top + n) then some (.fault 0x05 0 0) else none

/-- A pop of n bits underflows (R167). -/
def Core.popStop (c : Core) (n : Nat) : Option Stop :=
  if c.trug.top < c.trug.base + n then some (.fault 0x06 0 0) else none

/-- The .k form (R193): the overwritten bits are kept on the trug; nothing is charged. -/
def runKeep (s : State) (i : Instr) (e : EForm) : Res :=
  let r := formResult e (srcVal s)
  let old := (srcVal s e.dst).toNat / 2 ^ r.1 % 2 ^ r.2.1
  runNext s i false [(formCost e).1] (formRamp e) (e.dst :: e.sources)
    [dueAt s (formCost e).2.1 (formRamp e) (.sreg e.dst r.1 r.2.1 (BitVec.ofNat 64 r.2.2))] (s.core.pushStop r.2.1) (formCost e).2.2
    (fun s => onCore s (fun c => c.setTrug (c.trug.push old r.2.1)))

/-- The .b form (R193): D[W] := D[W] xor f xor pop(n); nothing is charged. -/
def runBack (s : State) (i : Instr) (e : EForm) : Res :=
  let r := formResult e (srcVal s)
  let old := (srcVal s e.dst).toNat / 2 ^ r.1 % 2 ^ r.2.1
  let popped := (s.core.trug.pop r.2.1).1
  runNext s i false [(formCost e).1] (formRamp e) (e.dst :: e.sources)
    [dueAt s (formCost e).2.1 (formRamp e) (.sreg e.dst r.1 r.2.1 (BitVec.ofNat 64 (old ^^^ r.2.2 ^^^ popped)))]
    (s.core.popStop r.2.1) (formCost e).2.2
    (fun s => onCore s (fun c => c.setTrug (c.trug.pop r.2.1).2))

/-- NOP (R200): the control unit is occupied for k ticks. -/
def execNop (f : SsysW) (s : State) : Res := runNext s (.nop f) false [.ctl] f.ramp [] [] none 0 id

/-- ADD3 (R191). -/
def execAdd3 (f : SregW) (s : State) : Res := runErase s (.add3 f) (.reg .add3 f)
/-- SUB3 (R191). -/
def execSub3 (f : SregW) (s : State) : Res := runErase s (.sub3 f) (.reg .sub3 f)
/-- XOR3 (R191). -/
def execXor3 (f : SregW) (s : State) : Res := runErase s (.xor3 f) (.reg .xor3 f)
/-- AND (R191). -/
def execAnd (f : SregW) (s : State) : Res := runErase s (.and f) (.reg .and f)
/-- OR (R191). -/
def execOr (f : SregW) (s : State) : Res := runErase s (.or f) (.reg .or f)
/-- MUL (R191). -/
def execMul (f : SregW) (s : State) : Res := runErase s (.mul f) (.reg .mul f)
/-- MULH (R191). -/
def execMulh (f : SregW) (s : State) : Res := runErase s (.mulh f) (.reg .mulh f)
/-- SHL (R191, R192). -/
def execShl (f : SregW) (s : State) : Res := runErase s (.shl f) (.reg .shl f)
/-- SHR (R191, R192). -/
def execShr (f : SregW) (s : State) : Res := runErase s (.shr f) (.reg .shr f)
/-- SAR (R191, R192). -/
def execSar (f : SregW) (s : State) : Res := runErase s (.sar f) (.reg .sar f)
/-- MOV (R191). -/
def execMov (f : SregW) (s : State) : Res := runErase s (.mov f) (.reg .mov f)
/-- CLR (R191). -/
def execClr (f : SregW) (s : State) : Res := runErase s (.clr f) (.reg .clr f)
/-- EXT (R191). -/
def execExt (f : SregW) (s : State) : Res := runErase s (.ext f) (.reg .ext f)
/-- NORM (R191). -/
def execNorm (f : SregW) (s : State) : Res := runErase s (.norm f) (.reg .norm f)
/-- POPC (R191). -/
def execPopc (f : SregW) (s : State) : Res := runErase s (.popc f) (.reg .popc f)
/-- CMPEQ (R191). -/
def execCmpeq (f : SregW) (s : State) : Res := runErase s (.cmpeq f) (.reg .cmpeq f)
/-- CMPLT (R191). -/
def execCmplt (f : SregW) (s : State) : Res := runErase s (.cmplt f) (.reg .cmplt f)
/-- CMPLO (R191). -/
def execCmplo (f : SregW) (s : State) : Res := runErase s (.cmplo f) (.reg .cmplo f)
/-- ANDI (R191). -/
def execAndi (f : SimmW) (s : State) : Res := runErase s (.andi f) (.imm .andi f)
/-- ORI (R191). -/
def execOri (f : SimmW) (s : State) : Res := runErase s (.ori f) (.imm .ori f)
/-- SHLI (R191). -/
def execShli (f : SimmW) (s : State) : Res := runErase s (.shli f) (.imm .shli f)
/-- SHRI (R191). -/
def execShri (f : SimmW) (s : State) : Res := runErase s (.shri f) (.imm .shri f)
/-- SARI (R191). -/
def execSari (f : SimmW) (s : State) : Res := runErase s (.sari f) (.imm .sari f)
/-- MOVI (R191). -/
def execMovi (f : SimmW) (s : State) : Res := runErase s (.movi f) (.imm .movi f)
/-- MOVW (R191). -/
def execMovw (f : SwideW) (s : State) : Res := runErase s (.movw f) (.wide f)
/-- BFX (R191, R192). -/
def execBfx (f : SimmW) (s : State) : Res := runErase s (.bfx f) (.imm .bfx f)
/-- BFI (R191, R192). -/
def execBfi (f : SimmW) (s : State) : Res := runErase s (.bfi f) (.imm .bfi f)
/-- The .k form of every erasing word but MIN and MAX (R193). -/
def execKeepForm (e : EForm) (s : State) : Res := runKeep s (.keepForm e) e
/-- The .b form of every erasing word but MIN and MAX (R193). -/
def execBackForm (e : EForm) (s : State) : Res := runBack s (.backForm e) e

/-! ### MIN and MAX (R195) -/

/-- c of R195: A beats D; a tie gives false. -/
def pick (isMax : Bool) (ty x y : Nat) : Bool :=
  if isMax then lessThan (tySigned ty) (tyBits ty) x y else lessThan (tySigned ty) (tyBits ty) y x

/-- Plain MIN and MAX: D is written only when A beats it; a port is pushed in every case. R188 counts w for each register
written; the comparison is taken as work w whether or not D is written (DESIGN CHOICE, unsafe: log 78). -/
def runMinMax (s : State) (i : Instr) (isMax : Bool) (f : SregW) : Res :=
  let w := tyBits f.ty
  let x := srcLow s w f.d
  let y := srcLow s w f.a
  let c := pick isMax f.ty x y
  let lands :=
    if isPort f.d || c then
      [dueAt s 1 f.ramp (dstLand f.d 0 w (BitVec.ofNat 64 (if c then y else x)) (srcVal s f.d))]
    else []
  runNext s i false [.alu] f.ramp [f.d, f.a] lands none w (fun s => onCore s (·.chargeDst f.d w))

/-- The two writes of a kept or undone MIN or MAX. -/
def orderedPair (s : State) (f : SregW) (c : Bool) : List Pend :=
  let w := tyBits f.ty
  let x := srcLow s w f.d
  let y := srcLow s w f.a
  [dueAt s 1 f.ramp (.sreg f.d 0 w (BitVec.ofNat 64 (if c then y else x))),
   dueAt s 1 f.ramp (.sreg f.a 0 w (BitVec.ofNat 64 (if c then x else y)))]

/-- MIN.k and MAX.k: the comparison's bit is kept and the pair is ordered. -/
def runMinMaxK (s : State) (i : Instr) (isMax : Bool) (f : SregW) : Res :=
  let w := tyBits f.ty
  let c := pick isMax f.ty (srcLow s w f.d) (srcLow s w f.a)
  runNext s i false [.alu] f.ramp [f.d, f.a] (orderedPair s f c) (s.core.pushStop 1) (2 * w)
    (fun s => onCore s (fun x => x.setTrug (x.trug.push (if c then 1 else 0) 1)))

/-- MIN.b and MAX.b: the kept bit says whether to exchange. -/
def runMinMaxB (s : State) (i : Instr) (f : SregW) : Res :=
  let c := (s.core.trug.pop 1).1 = 1
  runNext s i false [.alu] f.ramp [f.d, f.a] (orderedPair s f c) (s.core.popStop 1) (2 * tyBits f.ty)
    (fun s => onCore s (fun x => x.setTrug (x.trug.pop 1).2))

/-- MIN (R195). -/
def execMin (f : SregW) (s : State) : Res := runMinMax s (.min f) false f
/-- MAX (R195). -/
def execMax (f : SregW) (s : State) : Res := runMinMax s (.max f) true f
/-- MIN.k (R195). -/
def execMinK (f : SregW) (s : State) : Res := runMinMaxK s (.minK f) false f
/-- MAX.k (R195). -/
def execMaxK (f : SregW) (s : State) : Res := runMinMaxK s (.maxK f) true f
/-- MIN.b (R195). -/
def execMinB (f : SregW) (s : State) : Res := runMinMaxB s (.minB f) f
/-- MAX.b (R195). -/
def execMaxB (f : SregW) (s : State) : Res := runMinMaxB s (.maxB f) f

end Sys2Proof.Machine
end

