-- ==== Sys2Proof/Machine/Engine.lean ====
section
/-! DEFINITION. Command queues: the acceptance of an engine word (R25, R26, R31, R79, R84), the end of an
entry (R125, R176, R240), and what an entry names (R334, R349, R375). -/

namespace Sys2Proof.Machine

/-- The produced token, the three consumed tokens and RAMP of an engine word. -/
structure EngTokens where
  kp : Nat
  kcs : List Nat
  ramp : Nat

/-- The token fields of an EREG word. -/
def eregTokens (f : EregW) : EngTokens := { kp := f.kp, kcs := [f.kc0, f.kc1, f.kc2], ramp := f.ramp }
/-- The token fields of an ESTAMP word. -/
def estampTokens (f : EstampW) : EngTokens := { kp := f.kp, kcs := [f.kc0, f.kc1, f.kc2], ramp := f.ramp }

/-- The token fields of an engine word by its encoding (R78): the same bits in both payloads. -/
def wordTokens (w : Word) : EngTokens :=
  let n := w.toNat
  { kp := bitsOf n 50 45, kcs := [bitsOf n 44 39, bitsOf n 38 33, bitsOf n 32 27], ramp := rampOf n }

/-- The tokens of an accepted entry. -/
def Entry.tokens (e : Entry) : EngTokens := wordTokens e.word
/-- Its ramp k. -/
def Entry.k (e : Entry) : Nat := rampK e.tokens.ramp

/-- A command queue of a core. -/
def Core.queue (c : Core) : EngQ → EQueue
  | .trellis => c.tq
  | .copy => c.cq
  | .graft => c.gq
  | .bank => c.bq

/-- A command queue replaced. -/
def Core.setQueue (c : Core) (q : EngQ) (x : EQueue) : Core :=
  match q with
  | .trellis => { c with tq := x }
  | .copy => { c with cq := x }
  | .graft => { c with gq := x }
  | .bank => { c with bq := x }

/-- Queue depths (R24). -/
def queueDepth : EngQ → Nat
  | .graft => 16
  | _ => 32

/-- XCAUSE.QUEUE (R156). -/
def queueNum : EngQ → Nat
  | .trellis => 1
  | .copy => 2
  | .graft => 3
  | .bank => 4

/-- The status port of an engine (R32). -/
def statusPort (q : EngQ) : Nat := queueNum q + 3

/-- The oldest entry of a queue. -/
def Core.head (c : Core) (q : EngQ) : Option Entry := (c.queue q).es.head?

/-- The oldest entry replaced. -/
def Core.setHead (c : Core) (q : EngQ) (e : Entry) : Core :=
  let x := c.queue q
  c.setQueue q { x with es := e :: x.es.tail }

/-- Every consumed token is set (R31). -/
def Core.tokensSet (c : Core) (kcs : List Nat) : Bool := kcs.all c.tokSet

/-- A fresh entry of the word now issuing. -/
def mkEntry (s : State) (i : Instr) (q : EngQ) (srcs : List Nat) : Entry :=
  let c := s.core
  let r := wordRec s i srcs
  { i := i, word := r.word, pc := c.pc, seq := (c.queue q).seq, order := c.order, t := s.bed.btick, a := r.opa,
    b := r.opb, c := r.opc, lay := [], desc := [], inst := 0, seedAddr := 0, seedCnt := 0, ph := .waiting,
    start := 0, pos := 0, posted := 0, bits := 0, work := 0, out := [], code := 0, faddr := 0,
    fdetail := 0, parks := 0, parkAddr := 0, shown := 0, cap := [], sys := c.view = .system, miss := 0
    drained := [], lost := 0 }

/-- An entry accepted: it joins its queue, takes a sequence number and clears its produced token (R25, R31,
R175). -/
def Core.accept (c : Core) (q : EngQ) (e : Entry) : Core :=
  let x := c.queue q
  let c1 := c.setQueue q { x with es := x.es ++ [e], seq := (x.seq + 1) % 2 ^ 32 }
  let k := e.tokens.kp
  if k = 63 then c1 else { c1.clearToken k with tmarks := tset 0 c1.tmarks k 0 }

/-- The checks of R84 that an engine word adds: token-reuse, then queue-overrun. -/
def engGate (c : Core) (q : EngQ) (tk : EngTokens) : Option Stop :=
  if tk.kp ≠ 63 ∧ (!c.tokSet tk.kp || tk.kcs.contains tk.kp) then some (.fault 0x0B 0 0)
  else if queueDepth q ≤ (c.queue q).es.length then some (.fault 0x0A 0 0)
  else none

/-- An engine word: the checks of R84, its sources, its own checks, then acceptance. `mk` completes the
entry with what is read at issue. Engine words occupy no unit of the sequencer (R91). -/
def runEngine (s : State) (i : Instr) (q : EngQ) (tk : EngTokens) (srcs : List Nat) (own : Option Stop)
    (mk : Entry → Entry) (eff : State → State) : Res :=
  let c := s.core
  let t := s.bed.btick
  match (((engGate c q tk).or (c.srcStop t srcs)).or own).or (c.srcDeliver t srcs) with
  | some st => .next (stopWord s i srcs st)
  | none =>
    runNext s i false [] 0 [] [] none 0 fun s' =>
      eff (onCore s' fun c' => (c'.popSrcs t srcs).accept q (mk (mkEntry s i q srcs)))

/-- The three scalar operands of an EREG word. -/
def eregSrcs (f : EregW) : List Nat := [f.a, f.b, f.c]

/-- An EREG word. -/
def runEreg (s : State) (i : Instr) (q : EngQ) (f : EregW) (own : Option Stop) (mk : Entry → Entry) : Res :=
  runEngine s i q (eregTokens f) (eregSrcs f) own mk id

/-- An ESTAMP word. -/
def runEstamp (s : State) (i : Instr) (q : EngQ) (f : EstampW) : Res :=
  runEngine s i q (estampTokens f) [] none id id

/-! ### The end of an entry -/

/-- An entry leaves its queue: its charges and work are made (R160, R163), and the next one may start on the tick after. -/
def closeEntry (s : State) (n : Nat) (q : EngQ) (e : Entry) (flt : Bool) (dataBits cellBits work : Nat) : State :=
  let c := getCore s n
  let x := c.queue q
  let c1 := ((c.setQueue q { x with es := x.es.tail, flt := x.flt || flt, next := btOf s n + 1 }).erase dataBits false).erase
    cellBits true
  setCore s { c1 with ej := c1.ej + (if e.sys then 0 else workUnits work e.k (heat s n)) }

/-- An entry completes: it leaves its queue and its token is set (R125). -/
def completeEntry (s : State) (n : Nat) (q : EngQ) (e : Entry) (dataBits cellBits work : Nat) : State :=
  modCore (closeEntry s n q e false dataBits cellBits work) n (·.setToken e.tokens.kp)

/-- The record of an entry that failed (R175). -/
def entryRec (q : EngQ) (e : Entry) (code : Nat) (addr detail : Word) : FaultRec :=
  { code := code, kind := 2, queue := queueNum q, seq := e.seq, ipc := e.pc, word := e.word, opa := e.a, opb := e.b,
    opc := e.c, addr := addr, detail := detail, tok := e.tokens.kp, order := e.order, mask := 0 }

/-- The handle that an entry of the trellis or of the copy engine fills (R272, R316): word 9 of a layout record is DBASE, bit 60
of word 10 DH. -/
def Entry.fills (q : EngQ) (e : Entry) : Option Nat :=
  match q, e.i with
  | .trellis, .tfetchRow f | .trellis, .tfetchCol f => some (f.md / 16 % 32)
  | .copy, _ => if (e.lay.getD 10 0).getLsbD 60 then some ((e.lay.getD 9 0).toNat % 32) else none
  | _, _ => none

/-- A handle that a faulted entry leaves filling, as it was (R272, R337). -/
def Core.foul (c : Core) (h : Option Nat) : Core :=
  match h with
  | some h => if c.handle h = .filling then { c with fouled := h :: c.fouled.filter (· ≠ h) } else c
  | none => c

/-- The fault of an entry is recorded (R176): it waits for delivery, and goes into the completion record of a unit that has
ended, which delivers none any more (R240). -/
def Core.entryFault (c : Core) (q : EngQ) (e : Entry) (code : Nat) (addr detail : Word) : Core :=
  let c1 := (c.addPending (entryRec q e code addr detail)).foul (e.fills q)
  match c.run with
  | .ended => if c.endStatus = 0 then { c1 with endStatus := 1, endCode := code, endDetail := detail.toNat % 2 ^ 32 } else c1
  | _ => c1

/-- An entry ends with a code (0: done): its words go to its port, then it leaves its queue. -/
def Entry.ends (e : Entry) (code addr detail : Nat) (out : List Word) : Entry :=
  { e with
    ph := .pushing, code := code, faddr := BitVec.ofNat 64 addr, fdetail := BitVec.ofNat 64 detail, out := out }

/-- The head of a queue ends; its fault, where it ends in one, is recorded (R176). -/
def Core.endHead (c : Core) (q : EngQ) (e : Entry) (code addr detail : Nat) (out : List Word) : Core :=
  let c1 := c.setHead q (e.ends code addr detail out)
  if code = 0 then c1 else c1.entryFault q e code (BitVec.ofNat 64 addr) (BitVec.ofNat 64 detail)

/-- An entry ends in a fault (R176): charged for what it wrote, its token stays clear. -/
def failEntry (s : State) (n : Nat) (q : EngQ) (e : Entry) (code : Nat) (addr detail : Word)
    (dataBits cellBits work : Nat) : State :=
  modCore (closeEntry s n q e true dataBits cellBits work) n (·.entryFault q e code addr detail)

/-- An entry whose fault is recorded leaves its queue, charged for what it wrote (R176). -/
def endFailed (s : State) (n : Nat) (q : EngQ) (e : Entry) (cellBits work : Nat) : State :=
  closeEntry s n q e true 0 cellBits work

/-- A status word is pushed into an engine's port (R33); false when the port is full, counting the handler's own words on
their way to it. Nothing pops the ports of a
unit that has ended, so there the word is dropped instead (R240: its entries run to completion).
DEDUCED, unsafe: log 25. -/
def pushStatus (s : State) (n : Nat) (q : EngQ) (e : Entry) (v : Word) : State × Bool :=
  let c := getCore s n
  let p := statusPort q
  if 16 ≤ (c.port p).length + pushesInFlight s n p then (s, c.run = .ended)
  else
    (setCore s (c.setPort p (c.port p ++ [{ v := v, ready := btOf s n, q := queueNum q, seq := e.seq }])), true)

/-! ### Handles an entry names -/

/-- The handles an entry consumes (R34, R334, R349): a TMACB in column 1 names none (R324). -/
def consumedHandles (core : Nat) : Instr → List Nat
  | .tloadw f => [f.md / 16 % 32]
  | .tmac f => [f.opf / 2 ^ 10 % 32]
  | .tmacb f => if core % 2 = 0 then [f.opf / 2 ^ 10 % 32] else []
  | .graftAppend f | .graftSum f | .graftSplit f | .gproj f => [f.md % 32]
  | _ => []

/-- Some accepted, incomplete entry consumes a handle. -/
def Core.consumerOf (c : Core) (h : Nat) : Bool :=
  (c.tq.es ++ c.gq.es).any (fun e => (consumedHandles c.num e.i).contains h)

/-- Some accepted, incomplete entry of a queue produces a token. -/
def Core.producedBy (c : Core) (q : EngQ) (k : Nat) : Bool := (c.queue q).es.any (fun e => e.tokens.kp = k)

end Sys2Proof.Machine
end

