-- ==== Sys2Proof/Machine/Trellis.lean ====
section
/-! DEFINITION. The trellis (R315-R341): its words, the start rules of R319, durations, effects, faults and
charges. An entry's effects apply as it completes, TSWAP's as it starts (R318), a TSTAT's push at the head. -/

namespace Sys2Proof.Machine

/-! ### Tiles, slots and planes -/

/-- A table of the first n keys from a function, the default value left out. -/
def mkTab {α : Type} [DecidableEq α] (d : α) (n : Nat) (f : Nat → α) : List (Nat × α) :=
  (List.range n).filterMap (fun k => if f k = d then none else some (k, f k))

/-- A cleared tile (R326). -/
def Tile.zero : Tile := { el := [], exp := [], sat := false }

/-- A tile of a core. -/
def Core.tile (c : Core) (t : Nat) : Tile := tget Tile.zero c.tiles t

/-- A tile replaced. -/
def Core.setTile (c : Core) (t : Nat) (x : Tile) : Core := { c with tiles := tset Tile.zero c.tiles t x }

/-- Element (r, j) of a tile as its 40-bit signed value (R54). -/
def Tile.get (t : Tile) (r j : Nat) : Int := tget 0 t.el (128 * r + j)

/-- EXP[r]. -/
def Tile.ex (t : Tile) (r : Nat) : Nat := tget 0 t.exp r

/-- A byte of a slot. -/
def Core.slotByte (c : Core) (h o : Nat) : Nat := (tget (0 : Byte) c.slots (16384 * h + o)).toNat

/-- A bit of a dense PLN tile in a slot (R46). -/
def Core.slotBit (c : Core) (h i r j : Nat) : Nat := c.slotByte h (2048 * i + 16 * r + j / 8) / 2 ^ (j % 8) % 2

/-- A slot's bytes replaced. -/
def Core.setSlot (c : Core) (h : Nat) (f : Nat → Byte) : Core :=
  { c with slots := (List.range 16384).foldl (fun t o => tset 0 t (16384 * h + o) (f o)) c.slots }

/-- The position of the kept element kc of column n of a sparse tile (R47). -/
def metaPos (byte : Nat → Nat) (kc n : Nat) : Nat := byte (8192 + 32 * kc + n / 4) / 2 ^ (2 * (n % 4)) % 4

/-- A bit of the stationary tile W[k][n] (R46, R47). -/
def Plane.bit (p : Plane) (i k n : Nat) : Nat :=
  let byte (o : Nat) : Nat := (tget (0 : Byte) p.w o).toNat
  if p.sp then
    let row (sl : Nat) : Nat := 2 * (k / 4) + sl
    let at_ (sl : Nat) : Nat := byte (1024 * i + 16 * row sl + n / 8) / 2 ^ (n % 8) % 2
    if metaPos byte (row 0) n = k % 4 then at_ 0
    else if metaPos byte (row 1) n = k % 4 then at_ 1
    else 0
  else byte (2048 * i + 16 * k + n / 8) / 2 ^ (n % 8) % 2

/-- The weight of plane i of a p-plane value (R45). -/
def planeWeight (i p : Nat) : Int := if i = 0 then -(2 ^ (p - 1) : Int) else (2 ^ (p - 1 - i) : Int)

/-- sat40 (R55, R66): the value, and whether it clamped. -/
def sat40 (x : Int) : Int × Bool :=
  if (2 ^ 39 - 1 : Int) < x then (2 ^ 39 - 1, true) else if x < (-(2 ^ 39) : Int) then (-(2 ^ 39), true) else (x, false)

/-- satn (R66). -/
def satn (x : Int) (n : Nat) : Int := min (max x (-(2 ^ (n - 1) : Int))) (2 ^ (n - 1) - 1)

/-- One plane pair added into one element, k ascending (R65, R323). -/
def macPair (abit wbit : Nat → Nat) (w : Int) (ex : Nat) (acc : Int × Bool) : Int × Bool :=
  (List.range 128).foldl (fun (a : Int × Bool) k =>
    let r := sat40 (a.1 + w * (abit k * wbit k : Nat) / (2 ^ ex : Int))
    (r.1, a.2 || r.2)) acc

/-- The first `pairs` plane pairs of a product in the order of R65: the tile, and how many elements clamped. -/
def macTile (t : Tile) (abit : Nat → Nat → Nat → Nat) (w : Plane) (a b pairs : Nat) : Tile × Nat :=
  let el (key : Nat) : Int × Bool :=
    (List.range pairs).foldl (fun acc x =>
      macPair (abit (x / b) (key / 128)) (fun k => w.bit (x % b) k (key % 128))
        (planeWeight (x / b) a * planeWeight (x % b) b) (t.ex (key / 128)) acc) (tget 0 t.el key, false)
  let n := ((List.range 16384).filter (fun k => (el k).2)).length
  ({ el := mkTab 0 16384 (fun k => (el k).1), exp := t.exp, sat := t.sat || n ≠ 0 }, n)

/-! ### AMAX (R309) -/

/-- A value of format f folded into AMAX. -/
def foldAmax (f : Nat) (m : BitVec 33) (bits : Nat) : BitVec 33 :=
  let mag (x : Nat) : BitVec 33 := BitVec.ofNat 33 (max (m.toNat % 2 ^ 32) x + m.toNat / 2 ^ 32 * 2 ^ 32)
  if fmtInt f then mag (packF 3 3 0 false (.fin false (sgn (fmtBits f) bits).natAbs 0))
  else
    match unpackF f bits with
    | .nan => m ||| 0x100000000#33
    | x => mag (packF 3 3 0 false (match x with | .fin _ a e => .fin false a e | .inf _ => .inf false | .nan => .nan))

/-! ### Drains (R327-R330) -/

/-- What a drain moves: the tile, the format (0 INT8, 2 INT32, 3 FP32), the shift, the tile rows and columns in
order, CLR. -/
structure Drain where
  tile : Nat
  fmt : Nat
  sh : Nat
  rows : List Nat
  cols : List Nat
  clr : Bool

/-- The drain an entry is. -/
def Entry.drain (e : Entry) : Option Drain :=
  let all := List.range 128
  match e.i with
  | .tdrain f => some { tile := f.md % 4, fmt := if f.md.testBit 2 then 3 else 2, sh := 0, rows := all, cols := all
                        clr := f.md.testBit 3 }
  | .tdrainVec f =>
    let v := e.a.toNat
    some { tile := f.md % 4, fmt := if f.md.testBit 2 then 3 else 2, sh := 0
           rows := (List.range 64).map (v % 128 + ·)
           cols := (List.range 16).map (16 * (v / 256 % 8) + ·), clr := f.md.testBit 3 }
  | .tdrainb f => some { tile := f.md % 4, fmt := 0, sh := f.md / 8 % 64, rows := all, cols := all, clr := f.md.testBit 2 }
  | _ => none

/-- The value a drain writes for an element, and whether it clamped. -/
def Drain.val (d : Drain) (t : Tile) (r j : Nat) : Nat × Bool :=
  let x := t.get r j * 2 ^ t.ex r
  let clamp (y : Int) (n : Nat) : Nat × Bool := (wrapN n (satn y n), satn y n ≠ y)
  match d.fmt with
  | 3 => (packF 3 0 0 false (ofIntF x), false)
  | 2 => clamp x 32
  | _ => clamp (x / (2 ^ d.sh : Int)) 8

/-- The rows a drain gets through: all but those from the first with an uncorrectable error on (R337). -/
def Drain.good (d : Drain) (c : Core) : List Nat := d.rows.takeWhile (fun r =>
  !c.bad.any (fun m => match m with
    | .tile t k => t = d.tile && k / 128 = r && d.cols.contains (k % 128)
    | _ => false))

/-- AMAX with rows of a drain folded in. -/
def Drain.fold (d : Drain) (t : Tile) (m : BitVec 33) (rows : List Nat) : BitVec 33 :=
  rows.foldl (fun m r => d.cols.foldl (fun m j => foldAmax d.fmt m (d.val t r j).1) m) m

/-- The running head of the trellis when it is a drain. -/
def Core.drain (c : Core) : Option (Entry × Drain) :=
  match c.tq.es with
  | e :: _ => if e.ph = .running then e.drain.map (fun d => (e, d)) else none
  | [] => none

/-- A running drain has folded some prefix of its rows, never shrinking, when AMAX is looked at (R330).
DEDUCED, safe: log 26. -/
def advanceDrain (s : State) (n : Nat) : State :=
  match (getCore s n).drain with
  | none => s
  | some (e, d) =>
    let good := d.good (getCore s n)
    if good.length ≤ e.shown + 1 then s
    else
      let r := drawFree s
      let i := e.shown + r.2.toNat % (good.length - e.shown)
      modCore r.1 n fun c => { c.setHead .trellis { e with shown := i } with
        amax := d.fold (c.tile d.tile) c.amax ((good.take i).drop e.shown) }

/-! ### Issue (R335) -/

/-- The shape operand of TFETCH. -/
def fetchShapeBad (v : Nat) : Bool :=
  v.testBit 7 || v.testBit 15 || v / 2 ^ 48 ≠ 0 || v / 2 ^ 16 % 2 ^ 16 = 0 || v / 2 ^ 32 % 2 ^ 16 = 0

/-- TFETCH at issue. -/
def runFetch (s : State) (i : Instr) (f : EregW) : Res :=
  let a := (srcVal s f.a).toNat
  runEreg s i .trellis f ((bad0 (fetchShapeBad (srcVal s f.b).toNat) 0x02 0 0).or (bad0 (a % 16 ≠ 0) 0x0E a 0)) id

/-- TFETCH, row order (R316). -/
def execTfetchRow (f : EregW) (s : State) : Res := runFetch s (.tfetchRow f) f
/-- TFETCH, column order (R316). -/
def execTfetchCol (f : EregW) (s : State) : Res := runFetch s (.tfetchCol f) f
/-- TLOADW (R317). -/
def execTloadw (f : EregW) (s : State) : Res := runEreg s (.tloadw f) .trellis f none id
/-- TSWAP (R318). -/
def execTswap (f : EstampW) (s : State) : Res := runEstamp s (.tswap f) .trellis f
/-- TMAC (R323). -/
def execTmac (f : EstampW) (s : State) : Res := runEstamp s (.tmac f) .trellis f
/-- TMACB (R324): STAMP = 0 is refused after the checks of R84 (R335); in column 1 H must be 0 (R341). Whether that is one of
R84's field checks or one of the word's own is not said: it stands with that of STAMP (DESIGN CHOICE, unsafe: log 100). -/
def execTmacb (f : EstampW) (s : State) : Res :=
  runEngine s (.tmacb f) .trellis (estampTokens f) []
    (bad0 (f.stamp = 0 || (s.core.num % 2 = 1 && f.opf / 2 ^ 10 % 32 ≠ 0)) 0x02 0 0) id id
/-- TDRAIN to scratchpad (R327). -/
def execTdrain (f : EregW) (s : State) : Res :=
  let a := (srcVal s f.a).toNat
  let b := (srcVal s f.b).toNat
  runEreg s (.tdrain f) .trellis f ((bad0 (b % 16 ≠ 0 || b < 512) 0x02 0 0).or (bad0 (a % 16 ≠ 0) 0x0E a 0)) id
/-- TDRAIN to a vector register, which it reserves (R327, R328). -/
def execTdrainVec (f : EregW) (s : State) : Res :=
  let v := (srcVal s f.a).toNat
  let vr := v / 2 ^ 16 % 32
  let sel := v.testBit 7 || v / 2 ^ 11 % 32 ≠ 0 || v / 2 ^ 21 ≠ 0 || (v % 128 ≠ 0 && v % 128 ≠ 64)
  runEngine s (.tdrainVec f) .trellis (eregTokens f) (eregSrcs f)
    ((bad0 sel 0x02 0 0).or (bad0 (s.core.reserved.contains vr) 0x04 0 vr)) id
    (fun s => onCore s fun c => { c with reserved := c.reserved ++ [vr] })
/-- TDRAINB (R329). -/
def execTdrainb (f : EregW) (s : State) : Res :=
  let a := (srcVal s f.a).toNat
  runEreg s (.tdrainb f) .trellis f (bad0 (a % 16 ≠ 0) 0x0E a 0) id
/-- ANORM (R325). -/
def execAnorm (f : EregW) (s : State) : Res := runEreg s (.anorm f) .trellis f none id
/-- ACLR (R326). -/
def execAclr (f : EregW) (s : State) : Res := runEreg s (.aclr f) .trellis f none id
/-- TORG (R331). -/
def execTorg (f : EregW) (s : State) : Res :=
  let v := (srcVal s f.a).toNat
  runEreg s (.torg f) .trellis f (bad0 (v.testBit 7 || v / 2 ^ 15 ≠ 0) 0x02 0 0) id
/-- TSTAT (R332). -/
def execTstat (f : EregW) (s : State) : Res := runEreg s (.tstat f) .trellis f none id
/-- TNOP (R333). -/
def execTnop (f : EstampW) (s : State) : Res := runEstamp s (.tnop f) .trellis f

/-! ### What an entry names -/

/-- STAMP; 0: none. -/
def Entry.stamp (e : Entry) : Nat :=
  match e.i with
  | .tswap f | .tmac f | .tmacb f | .tnop f => f.stamp
  | _ => 0

/-- The bt an entry is stamped for (R80). -/
def Entry.stampAt (e : Entry) : Nat := e.t + e.stamp

/-- The plane count p of TFETCH and TLOADW. -/
def Entry.np (e : Entry) : Nat :=
  match e.i with
  | .tfetchRow f | .tfetchCol f | .tloadw f => f.md / 2 % 8 + 1
  | _ => 0

/-- The handle TFETCH and TLOADW name. -/
def Entry.hnd (e : Entry) : Nat :=
  match e.i with
  | .tfetchRow f | .tfetchCol f | .tloadw f => f.md / 16 % 32
  | .tmac f | .tmacb f => f.opf / 2 ^ 10 % 32
  | _ => 0

/-- OPF of a product: (a, b, z, ACC). -/
def Entry.mac (e : Entry) : Option (Nat × Nat × Bool × Nat) :=
  match e.i with
  | .tmac f | .tmacb f => some (f.opf / 32 % 8 + 1, f.opf / 4 % 8 + 1, f.opf.testBit 1, f.opf / 256 % 4)
  | _ => none

/-- ROWS + 1, COLS + 1, RP and PP of a fetch. -/
def Entry.shape (e : Entry) : Nat × Nat × Nat × Nat :=
  let v := e.b.toNat
  (v % 128 + 1, v / 256 % 128 + 1, v / 2 ^ 16 % 2 ^ 16, v / 2 ^ 32 % 2 ^ 16)

/-- The source rows of a fetch: the virtual address of (i, r), planes then rows ascending. -/
def Entry.fetchRows (e : Entry) : List Nat :=
  let (rows, _, rp, pp) := e.shape
  (List.range (e.np * rows)).map (fun x => (e.a.toNat + 16 * (x / rows * pp + x % rows * rp)) % 2 ^ 64)

/-- The rows a scratchpad drain writes: address and bytes. -/
def Entry.drainRows (e : Entry) : List (Nat × Nat) :=
  match e.i with
  | .tdrain _ => (List.range 128).map (fun r => ((e.a.toNat + r * e.b.toNat) % 2 ^ 64, 512))
  | .tdrainb _ => (List.range 1024).map (fun l => ((e.a.toNat + 16 * l) % 2 ^ 64, 16))
  | _ => []

/-! ### Start rules (R319, R337) -/

/-- Metadata of a sparse tile in a slot is equal or descending somewhere (R47). -/
def Core.metaBad (c : Core) (h : Nat) : Bool :=
  (List.range 32).any fun g => (List.range 128).any fun n =>
    metaPos (c.slotByte h) (2 * g + 1) n ≤ metaPos (c.slotByte h) (2 * g) n

/-- The first byte of a row that a trellis access may not make: outside the core's own scratchpad, or a drain's without
WR. -/
def rowByte (s : State) (c : Core) (wr : Bool) (x : Nat × Nat) : Option (Nat × Nat × Nat) :=
  if (ownSpad s c x.1 x.2).isSome && !(wr && ((coreSpans c x.1 x.2).getD []).any (fun y => !y.1.wr)) then none
  else (List.range x.2).findSome? fun i =>
    if (ownSpad s c (x.1 + i) 1).isNone then some (0x0C, x.1 + i, 0)
    else if wr && ((coreSpans c (x.1 + i) 1).getD []).any (fun y => !y.1.wr) then some (0x0D, x.1 + i, 0)
    else none

/-- The first byte of an entry's rows that it may not access (R337). -/
def trellisRange (s : State) (c : Core) (wr : Bool) (l : List (Nat × Nat)) : Option (Nat × Nat × Nat) :=
  l.findSome? (rowByte s c wr)

/-- The checks an entry makes when it starts, but for its stamp and its partner: code, XREC6, XREC7. -/
def trellisCheck (s : State) (c : Core) (e : Entry) : Option (Nat × Nat × Nat) :=
  match e.i with
  | .tfetchRow _ | .tfetchCol _ =>
    let (rows, cols, _, _) := e.shape
    let colOrder : Bool := match e.i with | .tfetchCol _ => true | _ => false
    if c.handle e.hnd ≠ .filling then some (0x11, 0, e.hnd)
    else if e.np < 2 then some (0x12, 0, 1)
    else if (!colOrder && cols % 8 ≠ 0) || (colOrder && (cols ≠ 128 || rows % 8 ≠ 0)) then some (0x12, 0, 3)
    else trellisRange s c false (e.fetchRows.map (fun a => (a, cols / 8)))
  | .tloadw f =>
    if c.handle e.hnd = .free then some (0x11, 0, e.hnd)
    else if e.np < 2 then some (0x12, 0, 1)
    else if f.md.testBit 0 && c.metaBad e.hnd then some (0x12, 0, 4)
    else none
  | .tmac _ | .tmacb _ =>
    match e.mac with
    | some (a, b, _, _) =>
      if consumedHandles c.num e.i ≠ [] ∧ c.handle e.hnd = .free then some (0x11, 0, e.hnd)
      else if a < 2 ∨ b < 2 then some (0x12, 0, 1)
      else if c.act.np < b then some (0x12, 0, 2)
      else none
    | none => none
  | .tdrain _ | .tdrainb _ => trellisRange s c true e.drainRows
  | _ => none

/-- A handle an entry needs full or draining is still filling. -/
def Core.handleFilling (c : Core) (e : Entry) : Bool :=
  (consumedHandles c.num e.i).any (fun h => c.handle h = .filling)

/-- A token or a handle keeps an unstamped entry from starting (R319). -/
def Core.keptBack (c : Core) (e : Entry) : Bool := !c.tokensSet e.tokens.kcs || c.handleFilling e

/-- A token is clear because the entry that produces it ended in a fault, which is on its way to the handler or in its hands,
whose SRET sets it, or that of a unit that has ended (R176, R177, R240). -/
def Core.tokFaulted (c : Core) (k : Nat) : Bool :=
  let of (f : FaultRec) : Bool := f.queue ≠ 0 && f.tok = k
  k ≠ 63 && !c.tokSet k && (c.handled = k || c.pending.any of || (c.trap.any (of ·.fr)) || c.deferred.any (of ·.fr))

/-- A handle stays filling because the entry that was to fill it ended in a fault, and no entry that the copy engine can still
come to fills it (R272). -/
def Core.fillFaulted (c : Core) (h : Nat) : Bool :=
  c.handle h = .filling && c.fouled.contains h &&
    !(c.cq.es.takeWhile (fun e => !e.tokens.kcs.any c.tokFaulted)).any (fun e => e.code = 0 && e.fills .copy == some h)

/-- An unstamped head waits for a token or a filling handle, and so stalls its bed (R28, R319). One whose token or handle the
faulted entry was to give only does not start (R176): the rules do not say whether it stalls the bed. It does not, since the
bed's next bt must come for the fault to be delivered (R364). DESIGN CHOICE, unsafe: log 102. -/
def Core.trellisWaits (c : Core) : Bool :=
  match c.tq.es with
  | e :: _ => e.ph = .waiting && e.stamp = 0 && c.keptBack e && !e.tokens.kcs.any c.tokFaulted &&
      !(consumedHandles c.num e.i).any c.fillFaulted
  | [] => false

/-- What the stamp tick b finds wrong with an entry stamped for it: the XREC7 of R337, 0 where nothing. An entry that the
head of the queue still holds back is late; where its token or handle fails it as well, that is what is reported
(17_prog_matmul.md). DEDUCED, unsafe: log 27. -/
def missOf (c : Core) (e : Entry) (isHead : Bool) (b : Nat) : Nat :=
  if !c.tokensSet e.tokens.kcs then 4
  else if c.handleFilling e then 2
  else if !isHead || b < c.tq.next || e.stampAt ≠ b then 1
  else 0

/-- The checks of a stamped head on tick b, but for the partner's (R319, R337, R34). -/
def stampCheck (s : State) (c : Core) (e : Entry) (b : Nat) : Option (Nat × Nat × Nat) :=
  let m := if e.miss ≠ 0 then e.miss else missOf c e true b
  if m ≠ 0 then some (0x10, 0, m) else trellisCheck s c e

/-- Every entry stamped for tick b that cannot start on it is marked as it stands (R319). -/
def Core.markMisses (c : Core) (b : Nat) : Core :=
  let mark (x : Entry × Nat) : Entry :=
    if x.1.ph = .waiting ∧ x.1.stamp ≠ 0 ∧ x.1.stampAt = b ∧ x.1.miss = 0 then
      { x.1 with miss := missOf c x.1 (x.2 = 0) b }
    else x.1
  { c with tq := { c.tq with es := c.tq.es.zipIdx.map mark } }

/-- The partner of a core in its row (R14, R324). -/
def partner (n : Nat) : Nat := if n % 2 = 0 then n + 1 else n - 1

/-- The partner starts a TMACB on tick b with the same a and an active plane of the same density (R324). -/
def partnerMatches (s : State) (c : Core) (e : Entry) (b : Nat) : Bool :=
  let p := getCore s (partner c.num)
  match p.tq.es with
  | pe :: _ =>
    let starts : Bool := match pe.i with
      | .tmacb _ => if pe.ph = .waiting then pe.stampAt = b && (stampCheck s p pe b).isNone else pe.start = b
      | _ => false
    starts && (pe.mac.map (·.1)) == (e.mac.map (·.1)) && p.act.sp == c.act.sp
  | [] => false

/-- The duration D (R320). -/
def trellisDur (c : Core) (e : Entry) : Nat :=
  let k := e.k
  let (rows, _, _, _) := e.shape
  let prod : Nat := match e.mac with
    | some (a, b, _, _) => 256 + (if c.act.sp then 1 else 2) * a * b * k
    | none => 0
  match e.i with
  | .tfetchRow _ => 16 + (e.np * rows + 7) / 8 * k
  | .tfetchCol _ => 32 + (e.np * rows + 7) / 8 * k
  | .tloadw f => if f.md.testBit 0 then 8 + (8 * e.np + 16) * k else 8 + 16 * e.np * k
  | .tmac _ => prod
  | .tmacb _ => prod + 4
  | .tdrain _ => 8 + 128 * k
  | .tdrainVec _ => 8 + 8 * k
  | .tdrainb _ => 8 + 32 * k
  | .anorm _ | .aclr _ => 2 + 16 * k
  | _ => k

/-- A duration that bank conflicts can lengthen (R320). -/
def isMinimum : Instr → Bool
  | .tfetchRow _ | .tfetchCol _ | .tdrain _ | .tdrainb _ => true
  | _ => false

/-- The lines that an entry of minimum duration moves between two row boundaries, by their virtual addresses: eight rows of a
fetch, one row of a TDRAIN, four rows of each plane of a TDRAINB (R316, R320, R327, R329). -/
def Entry.lineGroups (e : Entry) : List (List Nat) :=
  let a := e.a.toNat
  match e.i with
  | .tfetchRow _ | .tfetchCol _ =>
    (List.range ((e.fetchRows.length + 7) / 8)).map fun g => (e.fetchRows.drop (8 * g)).take 8
  | .tdrain _ => (List.range 128).map fun r => (List.range 32).map fun l => (a + r * e.b.toNat + 16 * l) % 2 ^ 64
  | .tdrainb _ => (List.range 32).map fun g => (List.range 32).map fun l =>
      (a + 2048 * (l / 4) + 16 * (4 * g + l % 4)) % 2 ^ 64
  | _ => []

/-- The bank of a byte of the scratchpad (R246). -/
def spadBank (o : Nat) : Nat := o / 16 % 32 ^^^ o / 512 % 32

/-- The most lines of a list that lie in one bank of a core's scratchpad. -/
def mostInBank (s : State) (c : Core) (l : List Nat) : Nat :=
  let banks := l.map fun va => match ownSpad s c va 1 with | some (x :: _) => spadBank (x.1 % 2 ^ 21) | _ => 32
  (List.range 32).foldl (fun m b => max m (banks.count b)) 0

/-- What its own lines make of an entry's duration (R246, R320): the least ticks it takes, and whether lines that it moves
together lie in one bank. A bank serves one line per tick, so that more of them than ticks conflict. DESIGN CHOICE, unsafe: log
29. -/
def trellisNeed (s : State) (c : Core) (e : Entry) : Nat × Bool :=
  let d := trellisDur c e
  let w := (e.lineGroups.map (mostInBank s c)).foldl max 0
  (if e.k < w then max (d + 1) (mostInBank s c e.lineGroups.flatten) else d, 1 < w)

/-- The ticks before an entry's first row and between two row boundaries (R320, R322). -/
def rowTicks (c : Core) (e : Entry) : Nat × Nat :=
  match e.i with
  | .tfetchRow _ => (16, e.k)
  | .tfetchCol _ => (32, e.k)
  | .tmac _ => (256, if c.act.sp then e.k else 2 * e.k)
  | .tmacb _ => (260, if c.act.sp then e.k else 2 * e.k)
  | .tloadw _ | .tdrain _ | .tdrainVec _ | .tdrainb _ => (8, e.k)
  | .anorm _ | .aclr _ => (2, e.k)
  | _ => (0, e.k)

/-- Rows an entry has moved in full (R320): eight of a fetch, four of a TDRAINB, one of any other at each boundary. -/
def rowsMoved (c : Core) (e : Entry) : Nat :=
  let x := rowTicks c e
  (e.pos - x.1) / x.2 * (match e.i with | .tfetchRow _ | .tfetchCol _ => 8 | .tdrainb _ => 4 | _ => 1)

/-- The row boundary, counted from 1, at which a running entry stands or which it reaches next (R322). -/
def nextRow (c : Core) (e : Entry) : Nat :=
  let x := rowTicks c e
  max 1 ((e.pos - x.1 + x.2 - 1) / x.2)

/-- The row boundary at which a debug halt stops an entry: the next, and of a TMACB pair the later of the two cores' next ones
(R322). -/
def parkRow (s : State) (c : Core) (e : Entry) : Nat :=
  let p := getCore s (partner c.num)
  match e.i, p.tq.es with
  | .tmacb _, pe :: _ =>
    let pair : Bool := match pe.i with | .tmacb _ => pe.ph ≠ .waiting && pe.start = e.start | _ => false
    if pair then max (nextRow c e) (nextRow p pe) else nextRow c e
  | _, _ => nextRow c e

/-- A running entry stands at the boundary at which a debug halt stops it: between two rows, or two plane pairs (R322). -/
def atTrellisRow (s : State) (c : Core) (e : Entry) : Bool :=
  let x := rowTicks c e
  x.1 < e.pos && (e.pos - x.1) % x.2 = 0 && parkRow s c e ≤ (e.pos - x.1) / x.2

/-- The status word of TSTAT (R332). -/
def tstatWord (c : Core) (e : Entry) : Word :=
  let sat := (List.range 4).foldl (fun a t => if (c.tile t).sat then a + 2 ^ t else a) 0
  BitVec.ofNat 64 (e.seq + (if c.tq.flt then 2 ^ 41 else 0) + 2 ^ 42 + sat * 2 ^ 43 + e.a.toNat % 2 ^ 16 * 2 ^ 48)

/-- The bits of an error mark exchanged between the planes. -/
def Mark.swap : Mark → Mark
  | .act k => .shd k
  | .shd k => .act k
  | m => m

/-- A word the head of a queue holds for its status port goes out when there is room (R33, R277, R332). -/
def pushOut (s : State) (n : Nat) (q : EngQ) : State :=
  match (getCore s n).head q with
  | some e =>
    match e.out with
    | v :: r =>
      let p := pushStatus s n q e v
      if p.2 then modCore p.1 n (fun c => c.setHead q { e with out := r }) else s
    | [] => s
  | none => s

/-- The rows of A in a slot, as TMACB sends them into the lane (R324). -/
def Core.slotRows (c : Core) (h : Nat) : Tab Byte × List Nat :=
  (c.slots.filterMap (fun x => if x.1 / 16384 = h then some (x.1 % 16384, x.2) else none),
    c.bad.filterMap (fun m => match m with | .slot g o => if g = h then some o else none | _ => none))

/-- An entry starts on tick b: it has passed every check, so its handle becomes draining (R34); TSWAP
exchanges the planes; TSTAT has reached the head; TMACB of column 0 sends its rows, which stay as they are while the handle
drains. -/
def trellisStart (s : State) (n : Nat) (e : Entry) (b : Nat) : State :=
  let c := getCore s n
  let c1 := (consumedHandles n e.i).foldl (fun c h => c.setHandle h .draining) c
  let need := if isMinimum e.i then trellisNeed s c e else (0, false)
  let e1 := { e with
    ph := .running, start := b, pos := 0, lost := 0
    cap := [BitVec.ofNat 64 (trellisDur c e), BitVec.ofNat 64 need.1, if need.2 then 1 else 0] }
  match e.i with
  | .tswap _ => setCore s { c1.setHead .trellis e1 with act := c.shd, shd := c.act, bad := c.bad.map Mark.swap }
  | .tstat _ =>
    let c2 := c1.setHead .trellis { e1 with out := [tstatWord c e] }
    pushOut (setCore s { c2 with tq := { c2.tq with flt := false } }) n .trellis
  | .tmacb _ => setCore s { c1.setHead .trellis e1 with lane := if n % 2 = 0 then some (c.slotRows e.hnd) else c.lane }
  | _ => setCore s (c1.setHead .trellis e1)

/-- TRELLIS_ENTRY_START: an unstamped head that need not wait starts, or ends in its fault (R319). -/
def execTrellisEntryStart (core : Nat) (s : State) : Res :=
  let c := getCore s core
  match c.tq.es with
  | e :: _ =>
    if e.ph = .waiting ∧ e.stamp = 0 ∧ e.t + 1 ≤ btOf s core ∧ c.tq.next ≤ btOf s core ∧ !c.keptBack e then
      match trellisCheck s c e with
      | some f => .next (failEntry s core .trellis e f.1 (BitVec.ofNat 64 f.2.1) (BitVec.ofNat 64 f.2.2) 0 0 0)
      | none => .next (trellisStart s core e (btOf s core))
    else .next s
  | [] => .next s

/-- STAMP_TICK: a stamped head starts on its tick, or raises its fault (R80, R319, R324); a stamped entry behind it that
misses this tick is marked. -/
def execStampTick (core : Nat) (s : State) : Res :=
  let b := btOf s core
  let s := modCore s core (·.markMisses b)
  let c := getCore s core
  match c.tq.es with
  | e :: _ =>
    if e.ph = .waiting ∧ e.stamp ≠ 0 ∧ e.stampAt ≤ b ∧ c.tq.next ≤ b then
      let alone : Bool := match e.i with | .tmacb _ => e.miss = 0 && !partnerMatches s c e b | _ => false
      match (stampCheck s c e b).or (if alone then some (0x10, 0, 3) else none) with
      | some f => .next (failEntry s core .trellis e f.1 (BitVec.ofNat 64 f.2.1) (BitVec.ofNat 64 f.2.2) 0 0 0)
      | none => .next (trellisStart s core e b)
    else .next s
  | [] => .next s

/-! ### Completion -/

/-- The bytes of source rows of a fetch, or the address of the first byte in error. -/
def fetchBytes (s : State) (c : Core) (cols : Nat) : List Nat → Except Nat (List (List Byte))
  | [] => .ok []
  | va :: r =>
    match readPlaces s (placesOf s c va (cols / 8) false) with
    | .error k => .error (va + k)
    | .ok bs => (fetchBytes s c cols r).map (bs :: ·)

/-- A row of n bytes from a list of such rows, those moved before a debug halt. -/
def movedRow (n : Nat) (l : List Byte) (k : Nat) : List Byte := (l.drop (n * k)).take n

/-- The slot a fetch leaves (R316). -/
def fetchSlot (rows p : Nat) (colOrder : Bool) (src : List (List Byte)) (o : Nat) : Byte :=
  let bit (i r j : Nat) : Nat := ((src.getD (i * rows + r) []).getD (j / 8) 0).toNat / 2 ^ (j % 8) % 2
  let i := o / 2048
  let x := o % 2048 / 16
  let at_ (y : Nat) : Nat :=
    if p ≤ i then 0
    else if colOrder then (if y < rows then bit i y x else 0)
    else if x < rows then bit i x y else 0
  BitVec.ofNat 8 ((List.range 8).foldl (fun a z => a + at_ (o % 16 * 8 + z) * 2 ^ z) 0)

/-- Completion of TFETCH. -/
def doneFetch (s : State) (n : Nat) (e : Entry) (colOrder : Bool) : State :=
  let c := getCore s n
  let (rows, cols, _, _) := e.shape
  match fetchBytes s c cols (e.fetchRows.drop e.posted) with
  | .error va => failEntry s n .trellis e 0x1B (BitVec.ofNat 64 va) 0 0 0 0
  | .ok rest =>
    let src := (List.range e.posted).map (movedRow (cols / 8) e.desc) ++ rest
    let s1 := setCore s { (c.setSlot e.hnd (fetchSlot rows e.np colOrder src)).setHandle e.hnd .full with
      bad := c.bad.filter (fun m => match m with | .slot h _ => h ≠ e.hnd | _ => true) }
    completeEntry s1 n .trellis e 0 131072 (2 * e.np * rows * cols)

/-- Completion of TLOADW. -/
def doneLoad (s : State) (n : Nat) (e : Entry) (sp : Bool) : State :=
  let c := getCore s n
  let p := e.np
  let used (o : Nat) : Bool := if sp then o < 1024 * p || (8192 ≤ o && o < 10240) else o < 2048 * p
  let hit := c.bad.any (fun m => match m with | .slot h o => h = e.hnd && used o | _ => false)
  if hit then failEntry s n .trellis e 0x1B 0 0 0 0 0
  else
    let w := mkTab (0 : Byte) 16384 (fun o => if used o then tget 0 c.slots (16384 * e.hnd + o) else 0)
    let bits := if sp then 8192 * p + 16384 else 16384 * p
    let s1 := setCore s { c with
      shd := { w := w, np := p, sp := sp }
      bad := c.bad.filter (fun m => match m with | .shd _ => false | _ => true) }
    completeEntry s1 n .trellis e 0 bits (2 * bits)

/-- A bit of plane i of the rows of A. -/
def rowBit (rows : Tab Byte) (i r j : Nat) : Nat := (tget (0 : Byte) rows (2048 * i + 16 * r + j / 8)).toNat / 2 ^ (j % 8) % 2

/-- Completion of TMAC and TMACB; `src` holds the rows of A, and the offsets among them in error. -/
def doneMac (s : State) (n : Nat) (e : Entry) (src : Tab Byte × List Nat) (a b : Nat) (z : Bool) (acc : Nat) : State :=
  let c := getCore s n
  let hitA (i : Nat) : Bool := src.2.any (fun o => o / 2048 = i)
  let hitW (j : Nat) : Bool := c.bad.any (fun m => match m with
    | .act o => if c.act.sp then o / 1024 = j || o / 1024 = 8 || o / 1024 = 9 else o / 2048 = j
    | _ => false)
  let hitT := !z && c.bad.any (fun m => match m with | .tile t _ => t = acc | _ => false)
  let pairs := if hitT then 0 else
    ((List.range (a * b)).takeWhile (fun x => !hitA (x / b) && !hitW (x % b))).length
  let t0 := if z then Tile.zero else c.tile acc
  let r := macTile t0 (rowBit src.1) c.act a b pairs
  let cell := (if z then 656385 else 0) + 40 * r.2
  let c1 := { c.setTile acc r.1 with
    bad := if z then c.bad.filter (fun m => match m with | .tile t _ => t ≠ acc | _ => true) else c.bad }
  let unit := if c.act.sp then 2 ^ 20 else 2 ^ 21
  if pairs = a * b ∧ !hitT then completeEntry (setCore s c1) n .trellis e 0 cell (unit * a * b)
  else failEntry (setCore s c1) n .trellis e 0x1B 0 0 0 cell (unit * pairs)

/-- The bytes of plane row (i, r) of a drained tile (R46). -/
def planeRow (d : Drain) (t : Tile) (i r : Nat) : List Byte :=
  (List.range 16).map fun b => BitVec.ofNat 8 ((List.range 8).foldl (fun a z =>
    a + (d.val t r (8 * b + z)).1 / 2 ^ (7 - i) % 2 * 2 ^ z) 0)

/-- The accesses that one drained row writes: address and bytes. -/
def drainWrites (e : Entry) (d : Drain) (t : Tile) (r : Nat) : List (Nat × List Byte) :=
  match e.i with
  | .tdrain _ => [((e.a.toNat + r * e.b.toNat) % 2 ^ 64, d.cols.flatMap (fun j => leBytes 4 (d.val t r j).1))]
  | .tdrainb _ => (List.range 8).map (fun i => ((e.a.toNat + 2048 * i + 16 * r) % 2 ^ 64, planeRow d t i r))
  | _ => []

/-- The registers a vector-form drain writes. -/
def drainVec (d : Drain) (t : Tile) (vr : Nat) (v : Tab Cont) (rows : List Nat) : Tab Cont :=
  rows.zipIdx.foldl (fun v x => d.cols.zipIdx.foldl (fun v y =>
    tset 0 v (1024 * vr + 64 * y.2 + x.2) (BitVec.ofNat 32 (d.val t x.1 y.1).1)) v) v

/-- Rows of a drain written to the scratchpad. -/
def writeRows (s : State) (c : Core) (e : Entry) (d : Drain) (t : Tile) (rows : List Nat) : State :=
  rows.foldl (fun s r => (drainWrites e d t r).foldl (fun s x =>
    (writePlaces s ((placesOf s c x.1 x.2.length true).zip x.2)).1) s) s

/-- A running entry stops at a row boundary (R181, R322): the rows of a scratchpad drain moved so far are written, the rows
of a fetch read; nothing else an entry moves can be seen before it completes. -/
def holdTrellis (s : State) (n : Nat) (e : Entry) : State :=
  let c := getCore s n
  let m := rowsMoved c e
  let stop (s : State) (e : Entry) : State := modCore s n (fun c => c.setHead .trellis { e with ph := .held })
  match e.i with
  | .tdrain _ | .tdrainb _ =>
    match e.drain with
    | some d =>
      let rows := d.good c
      stop (writeRows s c e d (c.tile d.tile) ((rows.take m).drop e.posted)) { e with posted := max e.posted (min m rows.length) }
    | none => s
  | .tfetchRow _ | .tfetchCol _ =>
    let cols := e.shape.2.1
    match fetchBytes s c cols ((e.fetchRows.take m).drop e.posted) with
    | .ok bs => stop s { e with desc := e.desc ++ bs.flatten, posted := max e.posted (min m e.fetchRows.length) }
    | .error _ => stop s e
  | _ => stop s e

/-- Completion of a drain: its rows written and folded into AMAX, CLR, and the end of the reservation. -/
def doneDrain (s : State) (n : Nat) (e : Entry) (d : Drain) : State :=
  let c := getCore s n
  let t := c.tile d.tile
  let rows := d.good c
  let vr := e.a.toNat / 2 ^ 16 % 32
  let isVec : Bool := match e.i with | .tdrainVec _ => true | _ => false
  let sat := rows.any (fun r => d.cols.any (fun j => (d.val t r j).2))
  let gone (k : Nat) : Bool := d.clr && rows.contains (k / 128) && d.cols.contains (k % 128)
  let t1 := { t with el := t.el.filter (fun x => !gone x.1), sat := t.sat || sat }
  let s1 := if isVec then s else
    writeRows s c e d t (rows.drop e.posted)
  let c1 := { c.setTile d.tile t1 with
    amax := d.fold t c.amax (rows.drop e.shown)
    v := if isVec then drainVec d t vr c.v rows else c.v
    reserved := if isVec then c.reserved.erase vr else c.reserved }
  let out := rows.length * d.cols.length * fmtBits d.fmt
  let clr := if d.clr then 40 * rows.length * d.cols.length else 0
  let data := if isVec then out else 0
  let cell := (if isVec then 0 else out) + clr
  let s2 := setCore s1 c1
  if rows.length = d.rows.length then completeEntry s2 n .trellis e data cell (2 * out)
  else failEntry s2 n .trellis e 0x1B 0 0 data cell (2 * out)

/-- Completion of ANORM (R325, R56). What an ANORM that meets an uncorrectable error leaves is not said: as a drain it ends before
that row, the rows before it shifted (DESIGN CHOICE, unsafe: log 101). -/
def doneAnorm (s : State) (n : Nat) (e : Entry) (tile sh : Nat) : State :=
  let c := getCore s n
  let t := c.tile tile
  let rows := ((List.range 128).takeWhile (fun r =>
    !c.bad.any (fun m => match m with | .tile t k => t = tile && k / 128 = r | _ => false))).length
  let t1 : Tile := {
    el := mkTab 0 16384 (fun k => if k / 128 < rows then tget 0 t.el k / (2 ^ sh : Int) else tget 0 t.el k)
    exp := mkTab 0 128 (fun r => if r < rows then min 255 (t.ex r + sh) else t.ex r)
    sat := t.sat || (List.range rows).any (fun r => 255 < t.ex r + sh) }
  let s1 := setCore s (if sh = 0 then c else c.setTile tile t1)
  if rows = 128 then completeEntry s1 n .trellis e 0 (16384 * sh) 655360
  else failEntry s1 n .trellis e 0x1B 0 0 0 (128 * rows * sh) (5120 * rows)

/-- The running head completes, its effects applied (R316-R333, R336). -/
def trellisDone (s : State) (n : Nat) (e : Entry) : State :=
  let c := getCore s n
  match e.i with
  | .tfetchRow _ => doneFetch s n e false
  | .tfetchCol _ => doneFetch s n e true
  | .tloadw f => doneLoad s n e (f.md.testBit 0)
  | .tmac _ | .tmacb _ =>
    match e.mac with
    | some (a, b, z, acc) =>
      if consumedHandles n e.i = [] then
        let p := getCore s (partner n)
        doneMac (setCore s { p with lane := none }) n e (p.lane.getD ([], [])) a b z acc
      else doneMac s n e (c.slotRows e.hnd) a b z acc
    | none => s
  | .anorm f => doneAnorm s n e (f.md % 4) (f.md / 4 % 16)
  | .aclr f =>
    let s1 := setCore s { c.setTile (f.md % 4) Tile.zero with
      bad := c.bad.filter (fun m => match m with | .tile t _ => t ≠ f.md % 4 | _ => true) }
    completeEntry s1 n .trellis e 0 656385 656385
  | .torg _ => completeEntry (setCore s { c with org := e.a.toNat % 128 + e.a.toNat / 256 % 128 * 128 }) n .trellis e 0 0 0
  | _ =>
    match e.drain with
    | some d => doneDrain s n e d
    | none => completeEntry s n .trellis e 0 0 0

/-- Ticks a running entry takes, but for those bank conflicts add. -/
def Entry.dur (e : Entry) : Nat := (e.cap.getD 0 0).toNat

/-- Its own lines still cost a running entry a tick: it would complete in fewer than they need (R246, R320). -/
def Entry.mustLose (e : Entry) : Bool := isMinimum e.i && e.dur ≤ e.pos + 1 && e.pos + 1 + e.lost < (e.cap.getD 1 0).toNat

/-- Its own lines may meet in a bank. -/
def Entry.ownMeet (e : Entry) : Bool := e.cap.getD 2 0 ≠ 0

/-- TRELLIS_ENTRY_COMPLETION: the running head has run its duration (R319). TSTAT completes once its word
is pushed (R332). -/
def execTrellisEntryCompletion (core : Nat) (s : State) : Res :=
  match (getCore s core).tq.es with
  | e :: _ =>
    if e.ph = .running ∧ e.dur ≤ e.pos then
      let s1 := pushOut s core .trellis
      match (getCore s1 core).head .trellis with
      | some e1 => if e1.out.isEmpty then .next (trellisDone s1 core e1) else .next s1
      | none => .next s1
    else .next s
  | [] => .next s

end Sys2Proof.Machine
end

