-- ==== Sys2Proof/Machine/Vector.lean ====
section
/-! DEFINITION. The vector unit (R287-R312, R431): elements, the seed stream (R60-R63), the issue of a VREG
word, the work of its columns, and one meaning per word. A word in flight stands in `vq`; column j makes its
charges at the start of bt t + j and reads and draws at its end. -/

namespace Sys2Proof.Machine

/-! ### Elements and masks (R287, R289) -/

/-- The container row of element row r. -/
def contRow (f r : Nat) : Nat := if contBits f = 32 then r else r / 2

/-- The lowest bit of element row r in its container. -/
def contShift (f r : Nat) : Nat := if contBits f = 32 then 0 else 16 * (r % 2)

/-- The container bits of element (r, j) of a register. -/
def Core.vcont (c : Core) (reg f r j : Nat) : Nat :=
  (tget (0 : Cont) c.v (1024 * reg + 64 * j + contRow f r)).toNat / 2 ^ contShift f r % 2 ^ contBits f

/-- Element (r, j) of a register. -/
def Core.vel (c : Core) (reg f r j : Nat) : Nat := c.vcont reg f r j % 2 ^ fmtBits f

/-- The container bits of an element's value: the high byte of an 8-bit element holds its extension. -/
def extEl (f v : Nat) : Nat := if f = 0 then wrapN 16 (sgn 8 v) else v % 2 ^ fmtBits f

/-- Container bits x of element row r as a write: container row, bit mask, value. -/
def contWrite (f r x : Nat) : Nat × Cont × Cont :=
  (contRow f r, BitVec.ofNat 32 ((2 ^ contBits f - 1) * 2 ^ contShift f r), BitVec.ofNat 32 (x * 2 ^ contShift f r))

/-- A value of element row r as a write. -/
def elWrite (f r v : Nat) : Nat × Cont × Cont := contWrite f r (extEl f v)

/-- The low bits of element row r as a write: the rest of its container stays (R297, R300, R287). -/
def lowWrite (f r x : Nat) : Nat × Cont × Cont :=
  (contRow f r, BitVec.ofNat 32 ((2 ^ fmtBits f - 1) * 2 ^ contShift f r),
    BitVec.ofNat 32 (x % 2 ^ fmtBits f * 2 ^ contShift f r))

/-- A result element of a word as a write: only erasing words write the high byte of an 8-bit container (R287). -/
def resWrite (i : Instr) (f r v : Nat) : Nat × Cont × Cont :=
  match i with
  | .vradd _ | .vrsub _ => lowWrite f r v
  | _ => elWrite f r v

/-- Bit (r, j) of a mask; p0 reads as ones. -/
def Core.mbit (c : Core) (p r j : Nat) : Bool := p = 0 || tget false c.p (2048 * p + 128 * j + r)

/-- The active rows of column j under mask PM (R289). -/
def Core.activeRows (c : Core) (pm rows j : Nat) : List Nat := (List.range rows).filter (fun r => c.mbit pm r j)

/-! ### Seeds (R60-R64, R431) -/

/-- SEEDLOG.ADDR. -/
def Core.seedAddr (c : Core) : Nat := c.seedlog.toNat % 2 ^ 57

/-- SEEDCTL.MODE (R62). -/
def Core.seedMode (c : Core) : Nat := c.seedctl.toNat % 8

/-- The access a seed word makes (R64): class 0, core scope, posted where it is drawn, at the place in issue order of the word
that draws, whose number is given (R114). DEDUCED, unsafe: log 74. -/
def postSeed (s : State) (n order : Nat) (kind : AccKind) (ps : List Place) : State :=
  let c := getCore s n
  let a : Access := {
    id := c.nextAcc, kind := kind, cls := 0, sc := 0, addr := BitVec.ofNat 64 c.seedAddr
    pa := match ps with | p :: _ => p.pa | [] => 0
    runs := ps.flatMap Place.runs, due := 0, remote := false, pc := c.pc, word := 0, opa := 0, opb := 0, opc := 0
    left := false, tok := 63, order := order, grp := c.nextAcc, tick := btOf s n, undo := [] }
  setCore s { c with accs := c.accs ++ [a], nextAcc := c.nextAcc + 1 }

/-- A seed word taken from the log region: the next one's address, and one word fewer left (R62, R63). -/
def Core.nextSeed (c : Core) : Core :=
  { c with
    seedlog := BitVec.ofNat 64 ((c.seedlog.toNat + 8) % 2 ^ 57)
    seedctl := c.seedctl - 0x100000000#64 }

/-- The next seed word, and the core that has taken it: noise in live and log mode, the log's word
otherwise; a free value where none can be had. `order` is the number of the word that draws. DESIGN CHOICE, safe: log 7. -/
def seedWordOf (s : State) (n order : Nat) : State × Word :=
  let c := getCore s n
  let noise := Config.noiseWord n c.noise
  match c.seedMode with
  | 0 => (setCore s { c with noise := c.noise + 1 }, noise)
  | m =>
    match places s c c.seedAddr 8 (m = 1) with
    | .error _ => drawFree s
    | .ok ps =>
      if c.seedctl.toNat / 2 ^ 32 = 0 then drawFree s
      else if m = 1 then
        let s1 := postSeed (writePlaces s (ps.zip (leBytes 8 noise.toNat))).1 n order .store ps
        (modCore s1 n (fun c => { c.nextSeed with noise := c.noise + 1 }), noise)
      else
        match readPlaces s ps with
        | .ok bs => (modCore (postSeed s n order .load ps) n Core.nextSeed, BitVec.ofNat 64 (leNat bs))
        | .error _ => drawFree s

/-- The next 16 bits of a core's seed stream, least significant chunk of a word first. -/
def drawSeed (s : State) (n order : Nat) : State × Nat :=
  let c := getCore s n
  if c.seedLeft = 0 then
    let r := seedWordOf s n order
    (modCore r.1 n (fun c => { c with seedWord := r.2 >>> 16, seedLeft := 3 }), r.2.toNat % 2 ^ 16)
  else (setCore s { c with seedWord := c.seedWord >>> 16, seedLeft := c.seedLeft - 1 }, c.seedWord.toNat % 2 ^ 16)

/-- n draws in order. -/
def drawSeeds (s : State) (n order : Nat) : Nat → State × List Nat
  | 0 => (s, [])
  | k + 1 =>
    let r := drawSeed s n order
    let t := drawSeeds r.1 n order k
    (t.1, r.2 :: t.2)

/-- The first log word of a run that cannot be read or written: its fault. R63 gives one for the empty log alone; for an address
outside the core's own scratchpad, not writable, or in error the model raises what a sequencer access there raises, precisely
at the issue (DESIGN CHOICE, unsafe: log 86). -/
def seedWordsStop (s : State) (c : Core) (wr : Bool) : Nat → Nat → Option Stop
  | 0, _ => none
  | k + 1, va =>
    match addrStop s c va 8 8 wr false with
    | some st => some st
    | none =>
      if (ownSpad s c va 8).isNone then some (.fault 0x0C (BitVec.ofNat 64 va) 0)
      else match (if wr then Except.ok 0 else readAt s va (placesOf s c va 8 false)) with
        | .error st => some st
        | .ok _ => seedWordsStop s c wr k (va + 8)

/-- The seed-log check of R63, made at issue for `need` draws beside those earlier words still hold (R431). -/
def seedStop (s : State) (need : Nat) : Option Stop :=
  let c := s.core
  let mode := c.seedMode
  let words := (need + c.seedHeld - c.seedLeft + 3) / 4
  if need = 0 ∨ mode = 0 then none
  else if c.seedctl.toNat / 2 ^ 32 < words then some (.fault 0x0C (BitVec.ofNat 64 c.seedAddr) 0)
  else seedWordsStop s c (mode = 1) words c.seedAddr

/-! ### Arithmetic of one element -/

/-- An exact integer result under wrap (0) or saturate (1) (R299). -/
def intRes (f rm : Nat) (x : Int) : Nat := wrapN (fmtBits f) (if rm = 1 then satn x (fmtBits f) else x)

/-- An integer or E8 element as a number. -/
def intEl (f v : Nat) : Int := if f = 6 then (v % 256 : Nat) else sgn (fmtBits f) v

/-- A floating element with a NaN made canonical. -/
def canonF (f v : Nat) : Nat := packF f 1 0 false (unpackF f v)

/-- Minimum and maximum (R299). -/
def elMinMax (isMax : Bool) (f a b : Nat) : Nat :=
  if fmtFloat f then packF f 1 0 false (minMaxF isMax (unpackF f a) (unpackF f b))
  else
    let less := intEl f a < intEl f b
    if isMax then (if less then b else a) else (if less then a else b)

/-- Addition (R299). -/
def elAdd (f rm rb a b : Nat) : Nat :=
  if fmtFloat f then packF f rm rb false (addF rm (unpackF f a) (unpackF f b))
  else intRes f rm (intEl f a + intEl f b)

/-- The class bit of a floating element (R301). -/
def elClass (f v : Nat) : Nat :=
  match unpackF f v with
  | .nan => 0
  | .inf n => if n then 2 else 1
  | .fin n m _ =>
    let k := if m = 0 then 7 else if m < 2 ^ fracBits f then 5 else 3
    if n then k + 1 else k

/-- A comparison of R301: 0 equal, 1 less, 2 less or equal. -/
def elCompare (op f a b : Nat) : Bool :=
  let d : Option Int :=
    if fmtFloat f then
      (if isNan (unpackF f a) || isNan (unpackF f b) then none else some (cmpF (unpackF f a) (unpackF f b)))
    else some (intEl f a - intEl f b)
  match d with
  | none => false
  | some d => match op with | 0 => d = 0 | 1 => d < 0 | _ => d ≤ 0

/-- A conversion (R304). -/
def elCvt (f g rm rb v : Nat) : Nat :=
  if fmtFloat f then
    (if fmtFloat g then (if f = g then canonF f v else packF g rm rb false (unpackF f v))
     else toIntF (fmtBits g) rm rb (unpackF f v))
  else if f = 6 then
    (if fmtFloat g then packF g rm rb false (unpackE8 v) else toIntF (fmtBits g) rm rb (unpackE8 v))
  else if fmtFloat g then packF g rm rb false (ofIntF (intEl f v))
  else intRes g rm (intEl f v)

/-- The scale of VSCACC in format sf. -/
def scaleF (sf v : Nat) : Fv := if sf = 6 then unpackE8 v else unpackF sf v

/-- The result of an element-wise word for the operands a, b, c (bits of their formats), seed bits rb and the
selecting mask bit (R299-R306). -/
def vecFn (i : Instr) (f : VregW) (rm rb a b c : Nat) (sel : Bool) : Nat :=
  let fm := f.fmt
  let fl := fmtFloat fm
  let x := unpackF fm a
  let y := unpackF fm b
  match i with
  | .vadd _ => elAdd fm rm rb a b
  | .vsub _ => if fl then packF fm rm rb false (addF rm x (negF y)) else intRes fm rm (intEl fm a - intEl fm b)
  | .vmul _ => if fl then packF fm rm rb false (mulF x y) else intRes fm rm (intEl fm a * intEl fm b)
  | .vfma _ =>
    if fl then packF fm rm rb false (addF rm (mulF x y) (unpackF fm c))
    else intRes fm rm (intEl fm a * intEl fm b + intEl fm c)
  | .vmin _ => elMinMax false fm a b
  | .vmax _ => elMinMax true fm a b
  | .vabs _ =>
    if fl then (if isNan x then canonNan fm else a % 2 ^ (fmtBits fm - 1)) else intRes fm rm (intEl fm a).natAbs
  | .vneg _ =>
    if fl then (if isNan x then canonNan fm else a ^^^ 2 ^ (fmtBits fm - 1)) else intRes fm rm (-intEl fm a)
  | .vand _ => a &&& b
  | .vor _ => a ||| b
  | .vxor _ => a ^^^ b
  | .vshl _ => intRes fm 0 (intEl fm a * 2 ^ (f.imm % 32))
  | .vshr _ => a / 2 ^ (f.imm % 32)
  | .vsar _ => intRes fm 0 (intEl fm a / (2 ^ (f.imm % 32) : Int))
  | .vradd _ => intRes fm 0 (intEl fm b + intEl fm a)
  | .vrsub _ => intRes fm 0 (intEl fm b - intEl fm a)
  | .vcmpeq _ => if elCompare 0 fm a b then 1 else 0
  | .vcmplt _ => if elCompare 1 fm a b then 1 else 0
  | .vcmple _ => if elCompare 2 fm a b then 1 else 0
  | .vclass _ => if f.imm.testBit (elClass fm a) then 1 else 0
  | .vsel _ => if sel then a else b
  | .vcvt _ => elCvt fm f.imm rm rb a
  | .vscacc _ =>
    let p := unpackF 3 (packF 3 0 0 false (ofIntF (sgn 32 a)))
    packF 3 rm rb false (addF rm (mulF p (scaleF f.imm b)) (unpackF 3 c))
  | .vrcp _ => rcpF 3 rm rb x
  | .vrsq _ => rsqF 3 rm rb x
  | .vexp2 _ => exp2F 3 rm rb x
  | _ => a

/-! ### Plans -/

/-- How a VREG word's columns work: element by element into a register, in whole containers (VRXOR, VSWAP),
into a mask, mask bits into a mask, one value into elements, or gathered until t + 15. -/
inductive VKind where
  | elem | cont | mask | mbits | movs | colred | cross | scalar
  deriving DecidableEq, Repr

/-- What the issue and the columns of a VREG word need to know (R290-R294). -/
structure VPlan where
  f : VregW
  kind : VKind
  fmtOk : Bool            -- the entry allows its formats
  wide : Bool             -- it names a 32-bit format
  base : Nat
  work : Nat              -- bit-operations per active element
  regs : List Nat         -- vector registers it reads
  cell : Nat              -- bits charged per active element written
  draws : Bool            -- its class rounds (R60)
  deriving DecidableEq, Repr

/-- A plan from a word's fields, its format set and its base latency. -/
def mkPlan (f : VregW) (kind : VKind) (fmtOk : Bool) (base work : Nat) (regs : List Nat) (cell : Nat) (draws : Bool) :
    VPlan :=
  { f := f, kind := kind, fmtOk := fmtOk, wide := contBits f.fmt = 32, base := base, work := work, regs := regs
    cell := cell, draws := draws }

/-- A reduction's allowed formats (R307, R299): integers and floats for add, integers for xor. -/
def redFmtOk (f : VregW) : Bool := match f.imm % 4 with | 0 => f.fmt ≤ 5 | 3 => f.fmt ≤ 2 | _ => f.fmt ≤ 6

/-- A reduction rounds when it adds floats. -/
def redDraws (f : VregW) : Bool := f.imm % 4 = 0 && fmtFloat f.fmt

/-- The plan of every VREG word (R292, R293). -/
def vecPlan : Instr → Option VPlan
  | .vadd f | .vsub f =>
    let fl := fmtFloat f.fmt
    let c := contBits f.fmt
    some (mkPlan f .elem (f.fmt ≤ 5) (if fl then 4 else 2) (if fl then 2 * c else c) [f.va, f.vb] c fl)
  | .vmul f =>
    let c := contBits f.fmt
    some (mkPlan f .elem (f.fmt ≤ 5) 4 (c * c / 8) [f.va, f.vb] c (fmtFloat f.fmt))
  | .vfma f =>
    let c := contBits f.fmt
    some (mkPlan f .elem (f.fmt ≤ 5) 4 (c * c / 8) [f.va, f.vb, f.vc] c (fmtFloat f.fmt))
  | .vmin f | .vmax f | .vand f | .vor f | .vxor f =>
    some (mkPlan f .elem (f.fmt ≤ 6) 2 (contBits f.fmt) [f.va, f.vb] (contBits f.fmt) false)
  | .vabs f | .vneg f => some (mkPlan f .elem (f.fmt ≤ 5) 2 (contBits f.fmt) [f.va] (contBits f.fmt) false)
  | .vshl f | .vshr f | .vsar f => some (mkPlan f .elem (f.fmt ≤ 2) 2 (contBits f.fmt) [f.va] (contBits f.fmt) false)
  | .vradd f | .vrsub f => some (mkPlan f .elem (f.fmt ≤ 2) 2 (contBits f.fmt) [f.va, f.vd] 0 false)
  | .vrxor f => some (mkPlan f .cont (f.fmt ≤ 6) 2 (contBits f.fmt) [f.va, f.vd] 0 false)
  | .vswap f => some (mkPlan f .cont (f.fmt ≤ 6) 2 (2 * contBits f.fmt) [f.va, f.vd] 0 false)
  | .vcmpeq f | .vcmplt f | .vcmple f => some (mkPlan f .mask (f.fmt ≤ 6) 2 (contBits f.fmt) [f.va, f.vb] 1 false)
  | .vclass f => some (mkPlan f .mask (fmtFloat f.fmt) 2 (contBits f.fmt) [f.va] 1 false)
  | .vsel f => some (mkPlan f .elem (f.fmt ≤ 6) 2 (contBits f.fmt) [f.va, f.vb] (contBits f.fmt) false)
  | .vcvt f =>
    let g := f.imm
    let float := !(fmtInt f.fmt && fmtInt g)
    let exact := (f.fmt = 4 || f.fmt = 5) && g = 3
    some { mkPlan f .elem (f.fmt ≤ 6 && g ≤ 5) 4 (max (contBits f.fmt) (contBits g)) [f.va] (contBits g)
             (float && !exact) with wide := contBits f.fmt = 32 || (contBits g = 32 && g ≤ 5) }
  | .vscacc f =>
    some { mkPlan f .elem (f.fmt = 2 && (f.imm = 3 || f.imm = 5 || f.imm = 6)) 6 128 [f.va, f.vb, f.vc] 32 true with
      wide := true }
  | .vrcp f | .vrsq f | .vexp2 f => some (mkPlan f .elem (f.fmt = 3) 10 128 [f.va] (contBits f.fmt) true)
  | .vredr f => some (mkPlan f .cross (redFmtOk f) 20 (contBits f.fmt) [f.va] (contBits f.fmt) (redDraws f))
  | .vredrScalar f => some (mkPlan f .scalar (redFmtOk f) 20 (contBits f.fmt) [f.va] 0 (redDraws f))
  | .vredc f => some (mkPlan f .colred (redFmtOk f) 24 (contBits f.fmt) [f.va] (contBits f.fmt) (redDraws f))
  | .vrot f => some (mkPlan f .cross (f.fmt ≤ 6) 17 (contBits f.fmt) [f.vd] 0 false)
  | .vbcast f | .vxcol f => some (mkPlan f .cross (f.fmt ≤ 6) 17 (contBits f.fmt) [f.va] (contBits f.fmt) false)
  | .vamax f | .vamaxClr f => some (mkPlan f .scalar (f.fmt ≤ 5) 3 (contBits f.fmt) [f.va] 0 false)
  | .vmovs f | .vmovsAll f => some (mkPlan f .movs (f.fmt ≤ 6) 1 (contBits f.fmt) [] (contBits f.fmt) false)
  | .vmovv f => some (mkPlan f .scalar (f.fmt ≤ 6) 2 64 [f.va] 0 false)
  | .vpand f | .vpor f => some (mkPlan f .mbits (f.fmt ≤ 6) 1 1 [] 1 false)
  | .vpnot f => some (mkPlan f .mbits (f.fmt ≤ 6) 1 1 [] 1 false)
  | .vpany f => some (mkPlan f .scalar (f.fmt ≤ 6) 2 64 [] 0 false)
  | _ => none

/-- The format a word's result elements have. -/
def dstFmt (i : Instr) (f : VregW) : Nat :=
  match i with
  | .vcvt _ => f.imm
  | .vscacc _ => 3
  | _ => f.fmt

/-- The rounding mode a word uses: RM, or RMODE.MODE for 7 (R58, R294). -/
def rmOf (c : Core) (f : VregW) : Nat := if f.rm = 7 then c.rmode.toNat % 8 else f.rm

/-- Whether a word moves one element: its (r, j). -/
def oneEl (i : Instr) (f : VregW) : Option (Nat × Nat) :=
  match i with
  | .vmovs _ | .vmovv _ => some (f.imm % 128, f.imm / 128 % 16)
  | _ => none

/-- The active rows of column j of a word (R289, R431): of one-element words that element alone, of a scalar
VREDR its row, of VROT every row of the shape. -/
def vecRows (c : Core) (i : Instr) (f : VregW) (rows j : Nat) : List Nat :=
  match oneEl i f with
  | some (r, jj) => if j = jj then [r] else []
  | none =>
    match i with
    | .vredrScalar _ => [f.imm / 8 % 128]
    | _ => c.activeRows f.pm rows j

/-- The draws of a whole shape (R431): one per element, or one per addition of a reduction (R307). -/
def shapeDraws (p : VPlan) (rows cols : Nat) : Nat :=
  match p.kind with
  | .cross => rows * (cols - 1)
  | .scalar => cols - 1
  | .colred => cols * (rows - 1)
  | _ => rows * cols

/-- The draws column j of a word can make at most, which it releases from the reservation. -/
def colDraws (p : VPlan) (rows cols j : Nat) : Nat :=
  match p.kind with
  | .cross => if j = 15 then rows * (cols - 1) else 0
  | .scalar => if j = 15 then cols - 1 else 0
  | .colred => if j < cols then rows - 1 else 0
  | _ => if j < cols then rows else 0

/-- What column j of a word writes, as collision keys (R291). -/
def colKeys (i : Instr) (p : VPlan) (j : Nat) : List (Nat × Nat × Nat) :=
  let f := p.f
  match p.kind with
  | .scalar => []
  | .mask | .mbits => [(4, f.vd, j)]
  | .movs => match oneEl i f with
    | some (_, jj) => if j = jj then [(3, f.vd, j)] else []
    | none => [(3, f.vd, j)]
  | .cont => match i with
    | .vswap _ => if f.va = f.vd then [] else [(3, f.vd, j), (3, f.va, j)]
    | _ => [(3, f.vd, j)]
  | _ => [(3, f.vd, j)]

/-- A word whose scalar result goes to SA: every scalar kind, but VAMAX with SA = s0 (R310). -/
def scalarDst (i : Instr) (f : VregW) : Bool :=
  match i with
  | .vamax _ | .vamaxClr _ => f.sa ≠ 0
  | _ => true

/-- The scalar results as they will land, for the checks at issue. -/
def scalarLands (i : Instr) (f : VregW) (due : Nat) : List Pend :=
  match i with
  | .vamax _ => [{ due := due, land := .amax false 0 f.sa, acc := 0 }]
  | .vamaxClr _ => [{ due := due, land := .amax true 0 f.sa, acc := 0 }]
  | _ => [{ due := due, land := dstLand f.sa 0 64 0 0, acc := 0 }]

/-- The last column index at which a word still has something to do. -/
def vecLast (p : VPlan) (cols : Nat) : Nat :=
  match p.kind with
  | .cross | .scalar => 15
  | _ => cols - 1

/-! ### Columns -/

/-- An element of a reserved register shows its drained value, and keeps showing it (R328). -/
def Core.drainShows (c : Core) (k : Nat) : Core :=
  match c.tq.es with
  | e :: _ => c.setHead .trellis { e with drained := k :: e.drained }
  | [] => c

/-- A register that a running drain fills shows, per element, its drained value once it has begun to (R328):
column j settled before it is read. On the drain's last tick every element shows it. -/
def settleDrain (s : State) (n : Nat) (regs : List Nat) (j : Nat) : State :=
  match (getCore s n).drain with
  | none => s
  | some (e, d) =>
    let vr := e.a.toNat / 2 ^ 16 % 32
    match e.i with
    | .tdrainVec _ =>
      if !regs.contains vr then s
      else
        let c := getCore s n
        let full := e.dur ≤ e.pos + 1
        let key (x : Nat × Nat) : Nat := 1024 * vr + 64 * j + x.2
        let rs := d.rows.zipIdx.filter (fun x => (d.good c).contains x.1 && !e.drained.contains (key x))
        rs.foldl (fun s x =>
          let r := drawFree s
          if full || r.2.getLsbD 0 then
            modCore r.1 n fun c => { c.drainShows (key x) with
              v := tset 0 c.v (key x) (BitVec.ofNat 32 (d.val (c.tile d.tile) x.1 (d.cols.getD j 0)).1) }
          else r.1) s
    | _ => s

/-- Column j's charges and work, at the start of its tick (R431). The handler's own scalar results go to
XEBITS (R164). DEDUCED, unsafe: log 16. -/
def vecCharge (s : State) (n : Nat) (fl : VFlight) (j : Nat) : State :=
  match vecPlan fl.i with
  | none => s
  | some p =>
    let m := if j < fl.cols then (vecRows (getCore s n) fl.i p.f fl.rows j).length else 0
    let s1 := modCore s n (fun c => c.erase (m * p.cell) false)
    let s2 := if fl.sys then s1 else addWork s1 n (m * p.work) fl.k
    if j = 15 ∧ p.kind = .scalar then
      let amax : Nat := match fl.i with | .vamax _ | .vamaxClr _ => 64 | _ => 0
      let sa := if scalarDst fl.i p.f ∧ !isPort p.f.sa then 64 else 0
      modCore s2 n fun c => if fl.sys then (c.erase amax false).eraseX sa else c.erase (amax + sa) false
    else s2

/-- Results added to a core. -/
def addPend (s : State) (n : Nat) (l : List Pend) : State := modCore s n (fun c => { c with pend := c.pend ++ l })

/-- Column j's due tick for a base latency b (R93). -/
def colDue (fl : VFlight) (j b : Nat) : Nat := fl.t + j + b + fl.k - 1

/-- A word in flight draws seed bits (R60). -/
def VFlight.draws (fl : VFlight) : Bool := fl.rm = 4 && (match vecPlan fl.i with | some p => p.draws | none => false)

/-- The seed bits of m roundings of a word in flight, when it draws. -/
def drawFor (s : State) (n : Nat) (fl : VFlight) (m : Nat) : State × List Nat :=
  if fl.draws then drawSeeds s n fl.order m else (s, List.replicate m 0)

/-- The element-wise result of column j (R299-R306). -/
def elemCol (s : State) (n : Nat) (fl : VFlight) (p : VPlan) (j : Nat) (rs : List Nat) : State × List (Nat × Nat) :=
  let f := p.f
  let d := drawFor s n fl rs.length
  let c := getCore d.1 n
  let bfmt := match fl.i with | .vscacc _ => f.imm | _ => f.fmt
  let cfmt := match fl.i with | .vscacc _ => 3 | _ => f.fmt
  let breg := match fl.i with | .vradd _ | .vrsub _ => f.vd | _ => f.vb
  (d.1, (rs.zip d.2).map fun x =>
    (x.1, vecFn fl.i f fl.rm x.2 (c.vel f.va f.fmt x.1 j) (c.vel breg bfmt x.1 j) (c.vel f.vc cfmt x.1 j)
      (c.mbit f.vc x.1 j)))

/-- The fold of a reduction over elements in order: each addition takes one chunk of seed bits (R65, R307; DEDUCED, unsafe:
log 30). The rules do not say where a vector sum starts: it starts with the first active element, so n elements make n - 1
additions (DESIGN CHOICE, unsafe: log 30). -/
def redFold (op f rm : Nat) (seeds : List Nat) : List Nat → Nat
  | [] => match op with
    | 1 => if fmtFloat f then infBits f false else if f = 6 then 255 else 2 ^ (fmtBits f - 1) - 1
    | 2 => if fmtFloat f then infBits f true else if f = 6 then 0 else 2 ^ (fmtBits f - 1)
    | _ => 0
  | x :: r =>
    let x0 := if fmtFloat f then canonF f x else x
    (r.zip (seeds ++ List.replicate r.length 0)).foldl (fun a y =>
      match op with
      | 0 => elAdd f rm y.2 a y.1
      | 1 => elMinMax false f a y.1
      | 2 => elMinMax true f a y.1
      | _ => a ^^^ y.1) x0

/-- A column gathered for a word that finishes at t + 15: the containers read and the active positions. -/
def gather (c : Core) (fl : VFlight) (p : VPlan) (j : Nat) (rs : List Nat) : VFlight :=
  let f := p.f
  let all := List.range fl.rows
  let reg := match fl.i with | .vrot _ => f.vd | _ => f.va
  let vals : List (Nat × Cont) := match fl.i with
    | .vpany _ => all.map (fun r => (128 * j + r, if c.mbit f.va r j then 1 else 0))
    | _ => all.map (fun r => (128 * j + r, BitVec.ofNat 32 (c.vcont reg f.fmt r j)))
  { fl with cap := fl.cap ++ vals, act := fl.act ++ rs.map (fun r => 128 * j + r) }

/-- A gathered container. -/
def VFlight.capAt (fl : VFlight) (r j : Nat) : Nat := (tget (0 : Cont) fl.cap (128 * j + r)).toNat

/-- The gathered active columns of a row, ascending. -/
def VFlight.rowCols (fl : VFlight) (r : Nat) : List Nat :=
  (List.range fl.cols).filter (fun j => fl.act.contains (128 * j + r))

/-- A row's reduction from what was gathered, with its draws (R307). -/
def rowRed (s : State) (n : Nat) (fl : VFlight) (p : VPlan) (r : Nat) : State × Nat :=
  let f := p.f
  let els := (fl.rowCols r).map (fun j => fl.capAt r j % 2 ^ fmtBits f.fmt)
  let d := drawFor s n fl (els.length - 1)
  (d.1, redFold (f.imm % 4) f.fmt fl.rm d.2 els)

/-- The results of a cross-column word, built at t + 15 (R307, R308). Whether VROT moves an 8-bit element's high byte with it is
not said: it moves whole containers (DESIGN CHOICE, unsafe: log 103). -/
def crossDone (s : State) (n : Nat) (fl : VFlight) (p : VPlan) : State :=
  let f := p.f
  let cols := List.range fl.cols
  let cs := f.imm % 16
  let active (j : Nat) : List Nat := (List.range fl.rows).filter (fun r => fl.act.contains (128 * j + r))
  match fl.i with
  | .vredr _ =>
    let rr := (List.range fl.rows).foldl (fun (acc : State × List Nat) r =>
      let x := rowRed acc.1 n fl p r
      (x.1, acc.2 ++ [x.2])) (s, [])
    addPend rr.1 n (cols.map fun j =>
      { due := colDue fl j p.base, land := .vcol f.vd j ((active j).map fun r => elWrite f.fmt r (rr.2.getD r 0)), acc := 0 })
  | .vrot _ =>
    addPend s n (cols.map fun j =>
      { due := colDue fl j p.base, acc := 0
        land := .vcol f.vd j ((List.range fl.rows).map fun r => contWrite f.fmt r (fl.capAt r ((j + cs) % fl.cols))) })
  | .vbcast _ =>
    addPend s n (cols.map fun j =>
      { due := colDue fl j p.base, acc := 0
        land := .vcol f.vd j ((active j).map fun r => elWrite f.fmt r (fl.capAt r cs)) })
  | _ =>
    addPend s n (cols.map fun j =>
      { due := colDue fl j p.base, acc := 0
        land := .vcol f.vd j ((active j).map fun r =>
          elWrite f.fmt r (if fl.cols ≤ j ^^^ cs then 0 else fl.capAt r (j ^^^ cs))) })

/-- An element as a scalar result: sign-extended for integers, zero-extended otherwise (R307, R311). -/
def scalarEl (f v : Nat) : Word := if fmtInt f then BitVec.ofInt 64 (sgn (fmtBits f) v) else BitVec.ofNat 64 (v % 2 ^ fmtBits f)

/-- The scalar result of a word, built at t + 15 (R303, R307, R310, R311). -/
def scalarDone (s : State) (n : Nat) (fl : VFlight) (p : VPlan) : State :=
  let f := p.f
  let due := fl.t + 15 + p.base + fl.k - 1
  let out (s : State) (v : Word) : State := addPend s n [{ due := due, land := dstLand f.sa 0 64 v 0, acc := 0 }]
  let part : BitVec 33 := fl.act.foldl (fun m x =>
    foldAmax f.fmt m (fl.capAt (x % 128) (x / 128) % 2 ^ fmtBits f.fmt)) 0
  match fl.i with
  | .vamax _ => addPend s n [{ due := due, land := .amax false part f.sa, acc := 0 }]
  | .vamaxClr _ => addPend s n [{ due := due, land := .amax true part f.sa, acc := 0 }]
  | .vpany _ => out s (if fl.act.any (fun x => fl.capAt (x % 128) (x / 128) = 1) then 1 else 0)
  | .vredrScalar _ =>
    let r := rowRed s n fl p (f.imm / 8 % 128)
    out r.1 (scalarEl f.fmt r.2)
  | _ => out s (scalarEl f.fmt (fl.capAt (f.imm % 128) (f.imm / 128 % 16)))

/-- Column j of a VREG word reads, draws and puts its result in flight. -/
def vecCol (s : State) (n : Nat) (fl : VFlight) (j : Nat) : State × VFlight :=
  match vecPlan fl.i with
  | none => (s, fl)
  | some p =>
    let f := p.f
    let s0 := if j < fl.cols then settleDrain s n p.regs j else s
    let rs := if j < fl.cols then vecRows (getCore s0 n) fl.i f fl.rows j else []
    let c := getCore s0 n
    let due := colDue fl j p.base
    let put (s : State) (land : Land) : State := addPend s n [{ due := due, land := land, acc := 0 }]
    let r : State × VFlight := match p.kind with
      | .elem =>
        let x := elemCol s0 n fl p j rs
        (put x.1 (.vcol f.vd j (x.2.map fun y => resWrite fl.i (dstFmt fl.i f) y.1 y.2)), fl)
      | .cont =>
        match fl.i with
        | .vswap _ =>
          if f.va = f.vd then (s0, fl)
          else
            (put (put s0 (.vcol f.vd j (rs.map fun r => contWrite f.fmt r (c.vcont f.va f.fmt r j))))
              (.vcol f.va j (rs.map fun r => contWrite f.fmt r (c.vcont f.vd f.fmt r j))), fl)
        | _ =>
          (put s0 (.vcol f.vd j (rs.map fun r =>
            contWrite f.fmt r (c.vcont f.vd f.fmt r j ^^^ c.vcont f.va f.fmt r j))), fl)
      | .mask =>
        let x := elemCol s0 n fl p j rs
        (put x.1 (.mcol f.vd j (x.2.map fun y => (y.1, y.2 = 1))), fl)
      | .mbits =>
        (put s0 (.mcol f.vd j (rs.map fun r => (r, match fl.i with
          | .vpand _ => c.mbit f.va r j && c.mbit f.vb r j
          | .vpor _ => c.mbit f.va r j || c.mbit f.vb r j
          | _ => !c.mbit f.va r j))), fl)
      | .movs =>
        if rs.isEmpty && (oneEl fl.i f).isSome then (s0, fl)
        else (put s0 (.vcol f.vd j (rs.map fun r => elWrite f.fmt r fl.sa.toNat)), fl)
      | .colred =>
        let els := rs.map (fun r => c.vel f.va f.fmt r j)
        let d := drawFor s0 n fl (els.length - 1)
        let v := redFold (f.imm % 4) f.fmt fl.rm d.2 els
        (put d.1 (.vcol f.vd j (rs.map fun r => elWrite f.fmt r v)), fl)
      | .cross | .scalar => (s0, if j < fl.cols then gather c fl p j rs else fl)
    let s1 := modCore r.1 n (fun c => { c with
      seedHeld := c.seedHeld - (if fl.draws then colDraws p fl.rows fl.cols j else 0) })
    let fl1 := { r.2 with next := j + 1 }
    if j = 15 ∧ p.kind = .cross then (crossDone s1 n fl1 p, fl1)
    else if j = 15 ∧ p.kind = .scalar then (scalarDone s1 n fl1 p, fl1)
    else (s1, fl1)

/-- A flight put back with its next column, or taken off after its last. -/
def putFlight (c : Core) (old new : VFlight) (last : Nat) : Core :=
  { c with vq := if last < new.next then c.vq.erase old else c.vq.map (fun f => if f = old then new else f) }

/-- The columns of a core's VREG words that act on bt b make their charges (start of the tick). -/
def vecCharges (s : State) (n b : Nat) : State :=
  (getCore s n).vq.foldl (fun s fl =>
    if (vecPlan fl.i).isSome ∧ fl.t < b ∧ b ≤ fl.t + 15 then vecCharge s n fl (b - fl.t) else s) s

/-- A VREG word in flight has a column to act on bt b. -/
def VFlight.vecDue (fl : VFlight) (b : Nat) : Bool :=
  match vecPlan fl.i with | some p => fl.t + fl.next ≤ b && fl.next ≤ vecLast p fl.cols | none => false

/-- The columns of those of a core's VREG words that are picked, as they act on bt b, slice 0 first: they read and draw (R61). -/
def vecColumns (s : State) (n b : Nat) (pick : VFlight → Bool) : State :=
  (getCore s n).vq.reverse.foldl (fun s fl =>
    match vecPlan fl.i with
    | some p =>
      if fl.vecDue b && pick fl then
        let r := vecCol s n fl fl.next
        modCore r.1 n (fun c => putFlight c fl r.2 (vecLast p fl.cols))
      else s
    | none => s) s

/-- The focused core has columns to act on this bt that take words of a seed log. -/
def seedDue (s : State) : Bool := s.core.seedMode ≠ 0 && s.core.vq.any (fun fl => fl.draws && fl.vecDue s.bed.btick)

/-! ### Issue -/

/-- ROWS + 1 and COLS + 1 (R288). -/
def Core.shape (c : Core) : Nat × Nat := (c.vshape.toNat % 128 + 1, c.vshape.toNat / 256 % 16 + 1)

/-- The shape checks of R290. -/
def shapeStop (wide : Bool) (rows k : Nat) : Option Stop :=
  bad0 ((wide && 64 < rows) || k < (rows + (if wide then 7 else 15)) / (if wide then 8 else 16)) 0x1D 0 0

/-- The element or column an entry names lies outside the shape (R307, R308, R311). -/
def indexStop (i : Instr) (f : VregW) (rows cols : Nat) : Option Stop :=
  match i with
  | .vmovs _ | .vmovv _ => bad0 (rows ≤ f.imm % 128 || cols ≤ f.imm / 128 % 16) 0x1D 0 0
  | .vredrScalar _ => bad0 (rows ≤ f.imm / 8 % 128) 0x1D 0 0
  | .vbcast _ => bad0 (cols ≤ f.imm % 16) 0x1D 0 0
  | _ => none

/-- A drain's reserved register among those a word writes (R328). -/
def reservedStop (c : Core) (keys : List (Nat × Nat × Nat × Nat)) : Option Stop :=
  match keys.find? (fun x => x.2.1 = 3 ∧ c.reserved.contains x.2.2.1) with
  | some x => some (.fault 0x04 0 (BitVec.ofNat 64 x.2.2.1))
  | none => none

/-- The issue of a VREG word: the checks of R84, R290 and the entry in this order, the flight, and column 0.
A crossing its charges make sets XSTAT.QP (R431). -/
def runVreg (s : State) (i : Instr) (f : VregW) : Res :=
  match vecPlan i with
  | none => .next s
  | some p =>
    let c := s.core
    let t := s.bed.btick
    let k := rampK f.ramp
    let (rows, cols) := c.shape
    let srcs := if p.kind = .movs then [f.sa] else []
    let keys := (List.range cols).flatMap (fun j => (colKeys i p j).map (fun x => (t + j + p.base + k - 1, x)))
    let slands := if p.kind = .scalar then scalarLands i f (t + 15 + p.base + k - 1) else []
    let rm := rmOf c f
    let need := if p.draws ∧ rm = 4 then shapeDraws p rows cols else 0
    let vport := match i with
      | .vamax _ | .vamaxClr _ => if isPort f.sa then [{ due := 0, land := .push (f.sa - 56) 0, acc := 0 }] else []
      | _ => if p.kind = .scalar then slands else []
    let coll := if c.collides (keys ++ pendKeys slands) then some (Stop.fault 0x04 0 0) else none
    let own := ((shapeStop p.wide rows k).or (bad0 (!p.fmtOk) 0x12 0 0)).or
      ((indexStop i f rows cols).or (seedStop s need))
    match (((gate s false [.vec] [] []).or coll).or (reservedStop c keys)).or (stopOf s false [] srcs vport own) with
    | some st => .next (stopWord s i srcs st)
    | none =>
      let fl : VFlight := {
        i := i, pc := c.pc, t := t, k := k, rows := rows, cols := cols, sa := if p.kind = .movs then srcVal s f.sa else 0
        stride := 0, rm := rm, pm := [], absent := [], base := p.base, sys := c.view = .system, next := 0, cap := []
        act := [], acc := 0, resv := keys ++ pendKeys slands, order := c.order }
      let s1 := issueCore s [.vec] k srcs [] 0 (c.pc + 8) (t + 1)
      let s2 := onCore s1 fun c => { c with seedHeld := c.seedHeld + need }
      let s3 := vecCharge s2 c.num fl 0
      let r := vecCol s3 c.num fl 0
      .next (onCore r.1 fun c => if vecLast p cols < r.2.next then c else { c with vq := c.vq ++ [r.2] })

/-- VADD (R299). -/
def execVadd (f : VregW) (s : State) : Res := runVreg s (.vadd f) f
/-- VSUB (R299). -/
def execVsub (f : VregW) (s : State) : Res := runVreg s (.vsub f) f
/-- VMUL (R299). -/
def execVmul (f : VregW) (s : State) : Res := runVreg s (.vmul f) f
/-- VFMA (R299). -/
def execVfma (f : VregW) (s : State) : Res := runVreg s (.vfma f) f
/-- VMIN (R299). -/
def execVmin (f : VregW) (s : State) : Res := runVreg s (.vmin f) f
/-- VMAX (R299). -/
def execVmax (f : VregW) (s : State) : Res := runVreg s (.vmax f) f
/-- VABS (R299). -/
def execVabs (f : VregW) (s : State) : Res := runVreg s (.vabs f) f
/-- VNEG (R299). -/
def execVneg (f : VregW) (s : State) : Res := runVreg s (.vneg f) f
/-- VAND (R299). -/
def execVand (f : VregW) (s : State) : Res := runVreg s (.vand f) f
/-- VOR (R299). -/
def execVor (f : VregW) (s : State) : Res := runVreg s (.vor f) f
/-- VXOR (R299). -/
def execVxor (f : VregW) (s : State) : Res := runVreg s (.vxor f) f
/-- VSHL (R299). -/
def execVshl (f : VregW) (s : State) : Res := runVreg s (.vshl f) f
/-- VSHR (R299). -/
def execVshr (f : VregW) (s : State) : Res := runVreg s (.vshr f) f
/-- VSAR (R299). -/
def execVsar (f : VregW) (s : State) : Res := runVreg s (.vsar f) f
/-- VRADD (R300). -/
def execVradd (f : VregW) (s : State) : Res := runVreg s (.vradd f) f
/-- VRSUB (R300). -/
def execVrsub (f : VregW) (s : State) : Res := runVreg s (.vrsub f) f
/-- VRXOR (R300). -/
def execVrxor (f : VregW) (s : State) : Res := runVreg s (.vrxor f) f
/-- VSWAP (R300). -/
def execVswap (f : VregW) (s : State) : Res := runVreg s (.vswap f) f
/-- VCMPEQ (R301). -/
def execVcmpeq (f : VregW) (s : State) : Res := runVreg s (.vcmpeq f) f
/-- VCMPLT (R301). -/
def execVcmplt (f : VregW) (s : State) : Res := runVreg s (.vcmplt f) f
/-- VCMPLE (R301). -/
def execVcmple (f : VregW) (s : State) : Res := runVreg s (.vcmple f) f
/-- VCLASS (R301). -/
def execVclass (f : VregW) (s : State) : Res := runVreg s (.vclass f) f
/-- VSEL (R302). -/
def execVsel (f : VregW) (s : State) : Res := runVreg s (.vsel f) f
/-- VCVT (R304). -/
def execVcvt (f : VregW) (s : State) : Res := runVreg s (.vcvt f) f
/-- VSCACC (R305). -/
def execVscacc (f : VregW) (s : State) : Res := runVreg s (.vscacc f) f
/-- VREDR, vector form (R307). -/
def execVredr (f : VregW) (s : State) : Res := runVreg s (.vredr f) f
/-- VREDR, scalar form (R307). -/
def execVredrScalar (f : VregW) (s : State) : Res := runVreg s (.vredrScalar f) f
/-- VREDC (R307). -/
def execVredc (f : VregW) (s : State) : Res := runVreg s (.vredc f) f
/-- VROT (R308). -/
def execVrot (f : VregW) (s : State) : Res := runVreg s (.vrot f) f
/-- VBCAST (R308). -/
def execVbcast (f : VregW) (s : State) : Res := runVreg s (.vbcast f) f
/-- VXCOL (R308). -/
def execVxcol (f : VregW) (s : State) : Res := runVreg s (.vxcol f) f
/-- VRCP (R306). -/
def execVrcp (f : VregW) (s : State) : Res := runVreg s (.vrcp f) f
/-- VRSQ (R306). -/
def execVrsq (f : VregW) (s : State) : Res := runVreg s (.vrsq f) f
/-- VEXP2 (R306). -/
def execVexp2 (f : VregW) (s : State) : Res := runVreg s (.vexp2 f) f
/-- VAMAX (R310). -/
def execVamax (f : VregW) (s : State) : Res := runVreg s (.vamax f) f
/-- VAMAX with CLR (R310). -/
def execVamaxClr (f : VregW) (s : State) : Res := runVreg s (.vamaxClr f) f
/-- VMOVS to one element (R311). -/
def execVmovs (f : VregW) (s : State) : Res := runVreg s (.vmovs f) f
/-- VMOVS to every active element (R311). -/
def execVmovsAll (f : VregW) (s : State) : Res := runVreg s (.vmovsAll f) f
/-- VMOVV (R311). -/
def execVmovv (f : VregW) (s : State) : Res := runVreg s (.vmovv f) f
/-- VPAND (R303). -/
def execVpand (f : VregW) (s : State) : Res := runVreg s (.vpand f) f
/-- VPOR (R303). -/
def execVpor (f : VregW) (s : State) : Res := runVreg s (.vpor f) f
/-- VPNOT (R303). -/
def execVpnot (f : VregW) (s : State) : Res := runVreg s (.vpnot f) f
/-- VPANY (R303). -/
def execVpany (f : VregW) (s : State) : Res := runVreg s (.vpany f) f

end Sys2Proof.Machine
end

