-- ==== Sys2Proof/Machine/Sync.lean ====
section
/-! DEFINITION. Ordering, waits, handles, supersteps and page requests (R216-R229). -/

namespace Sys2Proof.Machine

/-- The first pending fault of a sequencer access whose classes meet a mask (R142, R217, R220). -/
def Core.accFault (c : Core) (mask : Nat) : Option FaultRec :=
  c.pending.find? (fun f => f.queue = 0 ∧ f.mask &&& mask ≠ 0)

/-- Delivery of a pending fault at the word about to issue, if there is one. -/
def deliverStop (f : Option FaultRec) : Option Stop := f.map .deliver

/-- The classes of an access as a mask. An arrival has a mask and no class: the model takes its mask as its classes, both for
a FENCE it follows and for one that follows it (DESIGN CHOICE, unsafe: log 70). -/
def Access.mask (a : Access) : Nat :=
  match a.kind with
  | .arrive | .fence | .tmark => a.cls
  | _ => 2 ^ a.cls

/-- A write that TMARK covers: stores and the memory halves of STX and SWPM, not atomics (R127). -/
def Access.isStore (a : Access) : Bool := a.kind = .store || a.kind = .rmw

/-- An entry of the buffer that orders others and reaches no memory. -/
def Access.isMark (a : Access) : Bool := a.kind = .fence || a.kind = .tmark

/-- An access to the seed log (R64): it is no word's own, but of the word whose columns draw. -/
def Access.isSeed (a : Access) : Bool := a.word = 0

/-- Of two accesses of a core the first comes earlier in its order of issue: those of one word stand in the order in which
they are made, and the seed log's go with the word that draws (R114, R122). -/
def Access.before (x a : Access) : Bool := if x.isSeed || a.isSeed then x.order < a.order else x.id < a.id

/-- The accesses before one, in issue order. -/
def Core.earlier (c : Core) (a : Access) : List Access := c.accs.filter (·.before a)

/-- An access is held in the buffer: by an earlier fence that covers its class (R217), or by an earlier access of another class
to some of its bytes, which its home has not acknowledged (R120, R140). -/
def Core.fenced (c : Core) (a : Access) : Bool :=
  !a.isMark && (c.earlier a).any (fun x =>
    if x.isMark then x.kind = .fence && x.mask &&& a.mask ≠ 0 else x.mask ≠ a.mask && runsMeet x.runs a.runs)

/-- A vector word that draws from a log has columns left: their accesses to the log, which a mark or an arrival of class 0
covers where it issued later, are still to come (R64, R114). A TMARK covers the writes of log mode alone (R127). While bt
stands still (`still`) the columns cannot act (R29), and nothing waits for them. DEDUCED, unsafe: log 74. -/
def Core.drawsLeft (c : Core) (still : Bool) (a : Access) : Bool :=
  !still && c.seedMode ≠ 0 && a.mask.testBit 0 && (a.kind ≠ .tmark || c.seedMode = 1) &&
    c.vq.any (fun fl => fl.draws && fl.order < a.order)

/-- Every earlier access that a mark or an arrival covers is gone: a TMARK covers stores (R127), a fence every access (R141);
neither covers a column that acts on its own tick (R122). An arrival covers every access (R224): those inside the package have
performed as their word issued (log 13). -/
def Core.coveredGone (c : Core) (still : Bool) (a : Access) : Bool :=
  !c.drawsLeft still a && !(c.earlier a).any (fun x => !x.isMark && x.mask &&& a.mask ≠ 0 &&
    (if a.kind = .arrive then x.remote else (x.isSeed || x.tick < a.tick) && (a.kind ≠ .tmark || x.isStore)))

/-- An arrival may be counted: what it covers is gone, and no fence holds it (R121, R224). -/
def Core.mayArrive (c : Core) (still : Bool) (a : Access) : Bool := c.coveredGone still a && !c.fenced a

/-- A fault of a sequencer access that waits for delivery (R142, R220). -/
def accRec (a : Access) (code : Nat) (addr detail : Word) (mask : Nat) : FaultRec :=
  { FaultRec.none with
    code := code, kind := 2, ipc := a.pc, word := a.word, opa := a.opa, opb := a.opb, opc := a.opc, addr := addr
    detail := detail, order := a.order, mask := mask }

/-- FENCE: it delivers a recorded fault of its classes; else it stands in the post buffer until its
earlier accesses are acknowledged, and never waits (R141, R217). -/
def execFence (f : SsysW) (s : State) : Res :=
  let own := deliverStop (s.core.accFault f.mask)
  runNext s (.fence f) false [.mem] f.ramp [] [] own 0 fun s' =>
    if f.mask = 0 then s'
    else postAcc s' { mkAcc s (.fence f) [] .fence f.mask f.sc 0 0 [] [] with remote := false }

/-- TMARK: token K is cleared, and set once every earlier store of its classes has performed (R218). -/
def execTmark (f : SsysW) (s : State) : Res :=
  let c := s.core
  let own := if !c.tokSet f.k then some (.fault 0x0B 0 0) else deliverStop (c.accFault f.mask)
  let lands := if f.mask = 0 then [dueAt s 1 f.ramp (.tok f.k)] else []
  runNext s (.tmark f) false [.mem] f.ramp [] lands own 0 fun s' =>
    let s1 := onCore s' fun c => { c.clearToken f.k with tmarks := tset 0 c.tmarks f.k (f.mask + 1) }
    if f.mask = 0 then s1
    else postAcc s1 { mkAcc s (.tmark f) [] .tmark f.mask f.sc 0 0 [] [] with remote := false, tok := f.k }

/-- The words that sources pop at tick t, with their ports (R33, R186). -/
def Core.taken (c : Core) (t : Nat) (srcs : List Nat) : List (Nat × QWord) :=
  ((srcs.filter isPort).dedup).filterMap (fun n => (c.front (n - 56) t).map (fun w => (n - 56, w)))

/-- A waiting word (R28, R91): faults first; its registers are read, and its ports pop, at issue (R186, R216); a
condition that holds at issue completes on the issue tick, else the core waits. -/
def runWait (s : State) (i : Instr) (ramp : Nat) (srcs : List Nat) (own : Option Stop) (work : Nat) (now : Bool)
    (w : Wait) (eff : State → State) : Res :=
  if now then runNext s i false [.ctl] ramp srcs [] own work eff
  else
    match stopOf s false [.ctl] srcs [] own with
    | some st => .next (stopWord s i srcs st)
    | none =>
      let r := wordRec s i srcs
      let s1 := issueCore s [.ctl] (rampK ramp) srcs [] work s.core.pc (s.bed.btick + 1)
      .next (onCore (eff s1) (fun c => { c with wait := some {
        w := w, i := i, pc := c.pc, opa := r.opa, opb := r.opb
        popped := s.core.taken s.bed.btick srcs, ej := s1.core.ej - s.core.ej } }))

/-- The fault a TWAIT on k delivers: that of the entry that produced k (R176, R219), or, once k is set, a
timeout its TMARK covers (R142). DEDUCED, unsafe: log 50. -/
def Core.twaitFault (c : Core) (k : Nat) : Option FaultRec :=
  match c.pending.find? (fun f => f.queue ≠ 0 ∧ f.tok = k ∧ k ≠ 63) with
  | some f => some f
  | none => if c.tokSet k ∧ tget 0 c.tmarks k ≠ 0 then c.accFault (tget 0 c.tmarks k - 1) else none

/-- TWAIT waits until token K is set (R219). In the system view a wait on the token that only SRET sets
is a double fault (R180); the spec names no code for it, and CODE2 is that of the fault being handled (DESIGN CHOICE,
unsafe: log 69). -/
def execTwait (f : SsysW) (s : State) : Res :=
  let c := s.core
  let own :=
    if c.view = .system ∧ c.handled = f.k ∧ f.k ≠ 63 ∧ !c.tokSet f.k then
      some (.fault (c.xcause.toNat % 256) 0 0)
    else deliverStop (c.twaitFault f.k)
  runWait s (.twait f) f.ramp [] own 0 (c.tokSet f.k) (.token f.k) id

/-- The checks of a word that names a sync word at A with D its count or generation (R222, R263). -/
def syncStop (s : State) (va : Nat) (d : Word) (wr : Bool) : Option Stop :=
  match addrStop s s.core va 16 16 wr true with
  | some st => some st
  | none =>
    let a := BitVec.ofNat 64 va
    match placesOf s s.core va 16 wr with
    | .one (.byte pa) :: _ =>
      if paSpace pa = 0 then some (.fault 0x0C a 2) else if 2 ^ 32 ≤ d.toNat then some (.fault 0x02 0 0) else none
    | _ => some (.fault 0x0C a 2)

/-- The physical address of a sync word that has passed its checks. -/
def syncPa (s : State) (va : Nat) : Nat :=
  match placesOf s s.core va 16 false with | p :: _ => p.pa | [] => 0

/-- The address a fault of an event at the sync word at va names: where an uncorrectable error stopped it, its first byte in
error (R245), else the word. -/
def syncFaultAt (s : State) (pa va code : Nat) : Word := BitVec.ofNat 64 (if code = 0x1B then badAt s pa va else va)

/-- SYEXP posts an expectation and waits for the home's acknowledgement, which falls due no earlier than
R209 and R96 say (R223). The home takes the event as it acknowledges it, so that a wait which an event interrupts before then
has had no effect (R407). DEDUCED, unsafe: log 32. It has no class of its own; the model files it under class 0 (DESIGN
CHOICE, unsafe: log 70). -/
def execSyexp (f : SsysW) (s : State) : Res :=
  let va := (srcVal s f.a).toNat
  let own := syncStop s va (srcVal s f.d) true
  let ps := placesOf s s.core va 16 true
  let due := s.bed.bwall + accLat s s.core ps true + rampK f.ramp - 1
  let a := mkAcc s (.syexp f) [f.a, f.d] .expect 0 0 va due ps []
  runWait s (.syexp f) f.ramp [f.a, f.d] own 64 false (.syexp s.core.nextAcc 0 0) fun s' => postAcc s' a

/-- An expectation is taken at its home (R36); a fault it finds there is its word's, at the end of the wait (R223, R245). -/
def landExpect (s : State) (n : Nat) (a : Access) : State :=
  let r := syncAt s .expect a.pa a.opb.toNat
  modCore r.1 n fun c => match c.wait with
    | some w => match w.w with
      | .syexp id _ _ => if id = a.id then { c with wait := some { w with w := .syexp id r.2 (syncFaultAt s a.pa a.addr.toNat r.2) } } else c
      | _ => c
    | none => c

/-- An arrival is counted at its home, or finds a fault there, which is attributed to its word (R36, R220, R224, R245). -/
def landArrival (s : State) (n : Nat) (a : Access) : State :=
  let r := syncAt s .land a.pa a.opb.toNat
  if r.2 = 0 then r.1
  else modCore r.1 n (·.addPending (accRec a r.2 (syncFaultAt s a.pa a.addr.toNat r.2) 0 a.cls))

/-- The arrival that SYARR posts at the focused core. -/
def syarrAcc (s : State) (f : SsysW) : Access :=
  let ps := placesOf s s.core (srcVal s f.a).toNat 16 true
  { mkAcc s (.syarr f) [f.a, f.d] .arrive f.mask 0 (srcVal s f.a).toNat 0 ps (undoOf s ps) with id := s.core.nextAcc }

/-- SYARR posts an arrival, counted as it issues where the earlier accesses of its classes have performed, else as its
acknowledgement takes place (R224). DEDUCED, unsafe: log 33. -/
def execSyarr (f : SsysW) (s : State) : Res :=
  let own := syncStop s (srcVal s f.a).toNat (srcVal s f.d) true
  let a := syarrAcc s f
  runNext s (.syarr f) false [.ctl] f.ramp [f.a, f.d] [] own 64 fun s' =>
    if s.core.mayArrive s.bed.stall a then postAcc (landArrival s' s.core.num a) { a with due := 1 } else postAcc s' a

/-- SYWAIT waits until the word's GEN satisfies generation D (R225, R38). -/
def execSywait (f : SsysW) (s : State) : Res :=
  let va := (srcVal s f.a).toNat
  let g := (srcVal s f.d).toNat
  let pa := syncPa s va
  let own := (syncStop s va (srcVal s f.d) false).or (bad0 (syncBad s pa) 0x1B (badAt s pa va) 0)
  runWait s (.sywait f) f.ramp [f.a, f.d] own 64 (genReached (readSync s.mem pa).2.2.1 g) (.sywait pa g) id

/-- QWAIT waits until port K holds a word; it pops nothing (R221). -/
def execQwait (f : SsysW) (s : State) : Res :=
  runWait s (.qwait f) f.ramp [] none 0 (!(s.core.port f.k).isEmpty) (.port f.k) id

/-- HCLAIM: free to filling; any other state raises handle-state (R226, R34). DEDUCED, unsafe: log 24. -/
def execHclaim (f : SsysW) (s : State) : Res :=
  let own := if s.core.handle f.k = .free then none else some (.fault 0x11 0 (BitVec.ofNat 64 f.k))
  runNext s (.hclaim f) false [.ctl] f.ramp [] [] own 0 (fun s => onCore s (·.setHandle f.k .filling))

/-- HREL: full or draining to free, with no incomplete consumer (R226, R34). -/
def execHrel (f : SsysW) (s : State) : Res :=
  let c := s.core
  let ok := (c.handle f.k = .full ∨ c.handle f.k = .draining) ∧ !c.consumerOf f.k
  let own := if ok then none else some (.fault 0x11 0 (BitVec.ofNat 64 f.k))
  runNext s (.hrel f) false [.ctl] f.ramp [] [] own 0 (fun s => onCore s (·.setHandle f.k .free))

/-- The work span ends: its budget stops counting (R227). -/
def Core.endSpan (c : Core) : Core := { c with span := false }

/-- The unit's gang has not committed and this is its first superstep (R227). -/
def Core.gangWaits (c : Core) : Bool := c.gang ≠ 0 && c.supers = 0

/-- WSEND (R227): the word that ends a work span delivers a recorded timeout; in superstep 0 of a gang it
waits for commit. -/
def execWsend (f : SsysW) (s : State) : Res :=
  let c := s.core
  let own := if c.span then deliverStop (c.accFaults.head?) else none
  runWait s (.wsend f) f.ramp [] own 0 (!(c.span && c.gangWaits)) .gang (fun s => onCore s Core.endSpan)

/-- The pending fault that XBAR and DONE deliver first: of entries in issue order (R176), then of sequencer accesses.
The order between the two is open in the spec (DESIGN CHOICE, unsafe: log 71). -/
def Core.firstFault (c : Core) : Option FaultRec := c.entryFaults.head?.or c.pending.head?

/-- XBAR (R228): pending faults are delivered; it acts as WSEND, which in superstep 0 of a gang waits for commit; then it
waits for the queues, the accesses and the barrier (the scheduler's part stands in Sched). -/
def execXbar (f : SsysW) (s : State) : Res :=
  runWait s (.xbar f) f.ramp [] (deliverStop s.core.firstFault) 0 false (.xbar false 0 s.core.span s.core.nextAcc)
    (fun s => onCore s Core.endSpan)

/-- PGREQ asks the LSC for the extent that holds A (R229, R251). -/
def execPgreq (f : SsysW) (s : State) : Res :=
  let c := s.core
  let va := (srcVal s f.a).toNat
  let own := if (findExt c.extents va).isNone then some (.fault 0x0C (BitVec.ofNat 64 va) 0) else none
  runNext s (.pgreq f) false [.mem] f.ramp [f.a] [] own 64 fun s' =>
    onCore s' fun c => { c with extents := c.extents.map fun e =>
      if e.vbase ≤ va ∧ va < e.vbase + e.len ∧ e.abs ∧ !e.serviced then { e with requested := true } else e }

end Sys2Proof.Machine
end

