-- ==== Sys2Proof/Machine/Copy.lean ====
section
/-! DEFINITION. The copy engine (R264-R284): layout records and their checks, the walk, its elements in
byte and bit mode, slots, tags, and one meaning per word. -/

namespace Sys2Proof.Machine

/-! ### Engine accesses (R252, R253, R227) -/

/-- What one engine access, or a run of them, comes to: done, parked at an address, a fault with its XREC6 and
XREC7, a fault of a write that was applied in part (R245) with the state that part leaves, or barred until the unit's gang
commits. -/
inductive ERes (α : Type) where
  | ok (x : α)
  | park (va : Nat)
  | fault (code addr detail : Nat)
  | spoilt (s : State) (code addr detail : Nat)
  | barred

/-- ERes in sequence. -/
def ERes.bind {α β : Type} (x : ERes α) (f : α → ERes β) : ERes β :=
  match x with
  | .ok a => f a
  | .park v => .park v
  | .fault c a d => .fault c a d
  | .spoilt s c a d => .spoilt s c a d
  | .barred => .barred

/-- Where a run stands once an access has come to its end: the state, and how the run goes on or ends there. -/
def ERes.ends {α : Type} (s : State) : ERes α → State × ERes Unit
  | .ok _ => (s, .ok ())
  | .park v => (s, .park v)
  | .fault c a d => (s, .fault c a d)
  | .spoilt t c a d => (t, .fault c a d)
  | .barred => (s, .barred)

/-- The places of an engine access: an absent extent parks it unless it has been serviced, at the first byte that lies there
(R252). Where a later byte of an element lies in no extent, may not be written or fails translation, XREC6 is the element's first
byte: the rules say 'address' (DESIGN CHOICE, unsafe: log 93). -/
def engPlaces (s : State) (c : Core) (va len : Nat) (wr : Bool) : ERes (List Place) :=
  match coreSpans c va len with
  | none => .fault 0x0C va 0
  | some l =>
    if wr && l.any (fun x => !x.1.wr) then .fault 0x0D va 0
    else match l.find? (fun x => x.1.abs && !x.1.serviced) with
      | some x => .park (x.1.vbase + x.2.1)
      | none =>
        match spansPlaces s wr l with
        | .error f => .fault f.1 va f.2
        | .ok ps =>
          if gangBars s c ps then .barred
          else if c.cut = some (va, wr) && elsewhere s ps then .fault 0x1E va 0
          else .ok ps

/-- Bytes read at places: an uncorrectable error faults with the address of the byte (R245). -/
def engRead (s : State) (va : Nat) (ps : List Place) : ERes (List Byte) :=
  match readPlaces s ps with
  | .ok bs => .ok bs
  | .error k => .fault 0x1B (va + k) 0

/-- Bytes written at places; a dropped byte faults, the bytes in other code words being applied (R245). DEDUCED, unsafe:
log 77. -/
def engWrite (s : State) (va : Nat) (ps : List Place) (bs : List Byte) : ERes State :=
  let r := writePlaces s (ps.zip bs)
  match r.2 with
  | none => .ok r.1
  | some k => .spoilt r.1 0x1B (va + k) 0

/-- The sync word a posting reaches, where an engine access may reach one (R35, R263, R273, R379). -/
def tagPlace (s : State) (c : Core) (va : Nat) : ERes Nat :=
  (engPlaces s c va 16 true).bind fun ps =>
    if throughTransform s ((coreSpans c va 16).getD []) then .fault 0x0D va 3
    else match ps with
      | .one (.byte pa) :: _ => if paSpace pa = 0 then .fault 0x0C va 2 else .ok pa
      | _ => .fault 0x0C va 2

/-! ### The layout record (R264-R268) -/

/-- The record as one number: bit 64 i + b is bit b of s(16 + i). -/
def recordNat : List Word → Nat
  | [] => 0
  | w :: r => w.toNat + 2 ^ 64 * recordNat r

/-- A field of a record. -/
def fld (r lo len : Nat) : Nat := r / 2 ^ lo % 2 ^ len

/-- CNTd + 1. -/
def cntOf (r d : Nat) : Nat := fld r (16 * d) 16 + 1
/-- SSd. -/
def ssOf (r d : Nat) : Int := sgn 32 (fld r (128 + 32 * d) 32)
/-- DSd. -/
def dsOf (r d : Nat) : Int := sgn 32 (fld r (320 + 32 * d) 32)
/-- Ld. -/
def limOf (r d : Nat) : Nat := fld r (if d = 2 then 672 else 96 + 16 * d) 16
/-- FM.FMT. -/
def fmtOf (r : Nat) : Nat := fld r 688 4
/-- A bit of the record. -/
def rbit (r k : Nat) : Bool := fld r k 1 = 1
/-- FM.BIT. -/
def bitOf (r : Nat) : Bool := rbit r 692
/-- FM.DH. -/
def dhOf (r : Nat) : Bool := rbit r 700
/-- FM.REV. -/
def revOf (r : Nat) : Bool := rbit r 701

/-- The element width e in bits (R266). -/
def widthOf (r : Nat) : Nat :=
  match fmtOf r with
  | 0 | 6 => 8
  | 1 | 4 | 5 => 16
  | 2 | 3 => 32
  | _ => if bitOf r then 1 else 8

/-- The number of elements of the nest. -/
def totalOf (r : Nat) : Nat := (List.range 6).foldl (fun a d => a * cntOf r d) 1

/-- The bits of the fields of step 2 that must be zero and are not, for a word (R268, R274). -/
def zeroFields (i : Instr) (r : Nat) : List Nat :=
  let nz (lo len : Nat) : List Nat := if fld r lo len = 0 then [] else [lo]
  let ss1 := (List.range 5).flatMap (fun d => nz (160 + 32 * d) 32)
  let ds1 := (List.range 5).flatMap (fun d => nz (352 + 32 * d) 32)
  let lim := nz 96 16 ++ nz 112 16 ++ nz 672 16
  match i with
  | .cpscat _ => (if dhOf r then [700] else []) ++ ss1 ++ ds1
  | .cpgath _ => ss1
  | .cpfill _ => nz 512 64 ++ nz 128 32 ++ ss1 ++ lim ++ nz 701 1 ++ nz 702 1
  | .cpswp _ => (if dhOf r then [700] else []) ++ lim
  | _ => []

/-- Step 2 of R268: the lowest record bit of a field in error. -/
def recordBad (i : Instr) (r : Nat) (hold : Bool) : Option Nat :=
  let one (b : Bool) (k : Nat) : List Nat := if b then [k] else []
  ((one (8 ≤ fmtOf r) 688 ++ one (bitOf r && fmtOf r ≠ 7) 692 ++ one (4 < fld r 693 3) 693 ++
    one (dhOf r && fld r 581 59 ≠ 0) 576 ++ one (hold && !dhOf r) 700 ++ one (revOf r && bitOf r) 701 ++
    one (rbit r 703 && dhOf r) 703 ++ zeroFields i r)).min?

/-- The checks of a tag's address at issue (R268 step 4): its alignment, its extents, and the home of what it names, where
it has one. All else is found as the entry runs, and is attributed. -/
def tagStop (s : State) (va : Nat) : Option Stop :=
  if va % 16 ≠ 0 then some (.fault 0x0E (BitVec.ofNat 64 va) 0)
  else if (coreSpans s.core va 16).isNone then some (.fault 0x0C (BitVec.ofNat 64 va) 0)
  else match placesOf s s.core va 16 false with
    | p :: _ => if paSpace p.pa = 0 then some (.fault 0x0C (BitVec.ofNat 64 va) 2) else none
    | [] => none

/-- The checks of R268 in their order. -/
def copyStop (s : State) (i : Instr) (f : EregW) (r : Nat) : Option Stop :=
  let hold := match i with | .cpscat _ | .cpswp _ => false | _ => f.md.testBit 1
  let a := srcVal s f.a
  let b := srcVal s f.b
  let e := widthOf r
  let tag : Option Stop :=
    if f.a = 0 then none
    else (tagStop s a.toNat).or (bad0 (totalOf r * e % 8 ≠ 0) 0x02 0 692)
  let idx : Bool := match i with | .cpgath _ | .cpscat _ => true | _ => false
  let cpyt : Bool := match i with | .cpyt _ => true | _ => false
  match (List.range 56).find? (fun k => rbit r (712 + k)) with
  | some k => some (.fault 0x02 0 (BitVec.ofNat 64 (712 + k)))
  | none =>
    match recordBad i r hold with
    | some k => some (.fault 0x02 0 (BitVec.ofNat 64 k))
    | none => ((bad0 (cpyt && 4096 < cntOf r 0 * e) 0x02 0 0).or tag).or (bad0 (idx && b.toNat % 4 ≠ 0) 0x0E b.toNat 0)

/-- A copy word that reads a record: s16-s27 as they stand at issue (R264). -/
def runCopy (s : State) (i : Instr) (f : EregW) : Res :=
  let lay := (List.range 12).map (fun k => s.core.reg (16 + k))
  runEreg s i .copy f (copyStop s i f (recordNat lay)) (fun e => { e with lay := lay })

/-- CPY (R274). -/
def execCpy (f : EregW) (s : State) : Res := runCopy s (.cpy f) f
/-- CPYT (R274). -/
def execCpyt (f : EregW) (s : State) : Res := runCopy s (.cpyt f) f
/-- CPGATH (R275). -/
def execCpgath (f : EregW) (s : State) : Res := runCopy s (.cpgath f) f
/-- CPSCAT (R275). -/
def execCpscat (f : EregW) (s : State) : Res := runCopy s (.cpscat f) f
/-- CPFILL (R274). -/
def execCpfill (f : EregW) (s : State) : Res := runCopy s (.cpfill f) f
/-- CPXOR (R274). -/
def execCpxor (f : EregW) (s : State) : Res := runCopy s (.cpxor f) f
/-- CPSWP (R276). -/
def execCpswp (f : EregW) (s : State) : Res := runCopy s (.cpswp f) f
/-- CPSTAT (R277). -/
def execCpstat (f : EregW) (s : State) : Res := runEreg s (.cpstat f) .copy f none id

/-! ### The walk (R269-R276) -/

/-- The record of an accepted entry. -/
def Entry.recNat (e : Entry) : Nat := recordNat e.lay

/-- The tag's virtual address; none without a tag. -/
def Entry.tagVa (e : Entry) : Option Nat :=
  match e.i with
  | .cpy f | .cpyt f | .cpgath f | .cpscat f | .cpfill f | .cpxor f | .cpswp f => if f.a = 0 then none else some e.a.toNat
  | _ => none

/-- i_d of element n: dimension 0 runs fastest. -/
def iterOf (r : Nat) (d n : Nat) : Nat := (List.range d).foldl (fun a k => a / cntOf r k) n % cntOf r d

/-- The swizzle of a scratchpad offset (R267). -/
def swizzle (r a : Nat) : Nat :=
  let xk := fld r 704 5
  let xsh := fld r 709 3
  a ^^^ (xk * 16) ^^^ (if xsh = 0 then 0 else a / 2 ^ (9 + xsh) % 32 * 16)

/-- A place under the swizzle: bytes homed in a scratchpad move within it, others stay. -/
def swzPlace (r : Nat) (p : Place) : Place :=
  match p with
  | .one (.byte pa) =>
    if paSpace pa = 2 then .one (.byte (pa - pa % 2 ^ 21 + swizzle r (pa % 2 ^ 21))) else p
  | _ => p

/-- One side of an element: memory bytes from a virtual address with their places, or bytes of a slot. -/
inductive Side where
  | mem (va : Nat) (ps : List Place)
  | slot (h o n : Nat)

/-- The bytes of an element of e bits at address x (in bytes, or in bits): first byte, how many, first bit. -/
def elSpan (bit : Bool) (e x : Nat) : Nat × Nat × Nat := if bit then (x / 8, 1, x % 8) else (x, e / 8, 0)

/-- A memory side of an element. -/
def memSide (s : State) (c : Core) (r : Nat) (swz : Bool) (va n : Nat) (wr : Bool) : ERes Side :=
  (engPlaces s c va n wr).bind fun ps => .ok (.mem va (if swz then ps.map (swzPlace r) else ps))

/-- The bytes of a side. -/
def sideRead (s : State) (c : Core) : Side → ERes (List Byte)
  | .mem va ps => engRead s va ps
  | .slot h o n =>
    if c.bad.any (fun m => match m with | .slot g x => g = h && o ≤ x && x < o + n | _ => false) then .fault 0x1B 0 0
    else .ok ((List.range n).map (fun k => tget 0 c.slots (16384 * h + o + k)))

/-- Bytes written to a side; a whole slot byte loses its error. -/
def sideWrite (s : State) (n : Nat) (bs : List Byte) : Side → ERes State
  | .mem va ps => engWrite s va ps bs
  | .slot h o len => .ok (modCore s n fun c => { c with
      slots := bs.zipIdx.foldl (fun t x => tset 0 t (16384 * h + o + x.2) x.1) c.slots
      bad := c.bad.filter (fun m => match m with | .slot g x => !(g = h && o ≤ x && x < o + len) | _ => true) })

/-- e bits out of bytes from bit b on. -/
def pickBits (e b : Nat) (bs : List Byte) : Nat := leNat bs / 2 ^ b % 2 ^ e

/-- Bytes with e bits from bit b on replaced. -/
def putBits (e b v : Nat) (bs : List Byte) : List Byte :=
  leBytes bs.length (leNat bs - pickBits e b bs * 2 ^ b + v % 2 ^ e * 2 ^ b)

/-- The e bits of a side. -/
def sideVal (s : State) (c : Core) (e b : Nat) (x : Side) : ERes Nat :=
  (sideRead s c x).bind fun bs => .ok (pickBits e b bs)

/-- The e bits of a side replaced; in bit mode the byte's other bits are kept. -/
def sidePut (s : State) (n e b v : Nat) (x : Side) : ERes State :=
  if e % 8 = 0 ∧ b = 0 then sideWrite s n (leBytes (e / 8) v) x
  else (sideRead s (getCore s n) x).bind fun bs => sideWrite s n (putBits e b v bs) x

/-- The bytes of a value in reverse. -/
def revBytes (e v : Nat) : Nat := leNat (leBytes (e / 8) v).reverse

/-- The source address of element k, in the mode's unit (R269, R275). -/
def srcAddr (i : Instr) (r idx k : Nat) : Nat :=
  let base : Int := fld r 512 64
  let x : Int := match i with
    | .cpgath _ => base + sgn 32 idx + iterOf r 0 k * ssOf r 0
    | _ => (List.range 6).foldl (fun a d => a + iterOf r d k * ssOf r d) base
  wrapN 64 x

/-- The destination address of element k. -/
def dstAddr (i : Instr) (r idx k : Nat) : Nat :=
  let base : Int := if dhOf r then 0 else fld r 576 64
  let x : Int := match i with
    | .cpscat _ => base + sgn 32 idx + iterOf r 0 k * dsOf r 0
    | _ => (List.range 6).foldl (fun a d => a + iterOf r d k * dsOf r d) base
  wrapN 64 x

/-- Element k takes FILL instead of a source (R269); CPFILL always does. -/
def isFill (i : Instr) (r k : Nat) : Bool :=
  let out (d : Nat) : Bool := limOf r d ≠ 0 && limOf r d ≤ iterOf r d k
  match i with
  | .cpfill _ => true
  | _ => out 0 || out 1 || out 2

/-- FILL[e-1:0], reversed where REV says so (R269). -/
def shapeVal (r v : Nat) : Nat := if revOf r then revBytes (widthOf r) v else v

/-- The source side of element k. -/
def srcSide (s : State) (c : Core) (i : Instr) (r idx k : Nat) (wr : Bool) : ERes Side :=
  let x := elSpan (bitOf r) (widthOf r) (srcAddr i r idx k)
  memSide s c r (rbit r 702) x.1 x.2.1 wr

/-- The destination side of element k, to be read or written. -/
def dstSide (s : State) (c : Core) (i : Instr) (r idx k : Nat) (wr : Bool) : ERes Side :=
  let x := elSpan (bitOf r) (widthOf r) (dstAddr i r idx k)
  if dhOf r then .ok (.slot (fld r 576 5) x.1 x.2.1) else memSide s c r (rbit r 703) x.1 x.2.1 wr

/-- The value v of element k (R269). -/
def elValue (s : State) (c : Core) (i : Instr) (r idx k : Nat) : ERes Nat :=
  let e := widthOf r
  if isFill i r k then .ok (shapeVal r (fld r 640 32 % 2 ^ e))
  else
    let b := (elSpan (bitOf r) e (srcAddr i r idx k)).2.2
    (srcSide s c i r idx k false).bind fun x => (sideVal s c e b x).bind fun v => .ok (shapeVal r v)

/-- Element k of a walk other than CPYT's (R271, R274, R276): the accesses of an exchange are made in the order of R276, and one
that fails leaves the element without effect (R281). Under REV both sides of CPSWP are reversed, so
that the word undoes itself (R276). DEDUCED, unsafe: log 31. -/
def copyEl (s : State) (n : Nat) (i : Instr) (r idx k : Nat) : ERes State :=
  let c := getCore s n
  let e := widthOf r
  let tb := (elSpan (bitOf r) e (dstAddr i r idx k)).2.2
  match i with
  | .cpswp _ =>
    let sb := (elSpan (bitOf r) e (srcAddr i r idx k)).2.2
    (srcSide s c i r idx k false).bind fun x =>
    (sideVal s c e sb x).bind fun v =>
    (dstSide s c i r idx k false).bind fun y =>
    (sideVal s c e tb y).bind fun w =>
    (dstSide s c i r idx k true).bind fun y1 =>
    (sidePut s n e tb (shapeVal r v) y1).bind fun s1 =>
    (srcSide s c i r idx k true).bind fun x1 => sidePut s1 n e sb (shapeVal r w) x1
  | .cpxor _ =>
    (elValue s c i r idx k).bind fun v =>
    (dstSide s c i r idx k false).bind fun y =>
    (sideVal s c e tb y).bind fun w =>
    (dstSide s c i r idx k true).bind fun y1 => sidePut s n e tb (w ^^^ v) y1
  | _ =>
    (elValue s c i r idx k).bind fun v => (dstSide s c i r idx k true).bind fun y => sidePut s n e tb v y

/-- A CPYT row: every element read, then every element written (R274); a row that fails has written nothing (R281). -/
def cpytRow (s : State) (n : Nat) (i : Instr) (r k0 : Nat) : ERes State :=
  let c := getCore s n
  let e := widthOf r
  let ks := (List.range (cntOf r 0)).map (k0 + ·)
  let vals := ks.foldr (fun k acc => (elValue s c i r 0 k).bind fun v => acc.bind fun l => .ok ((k, v) :: l)) (.ok [])
  vals.bind fun l => l.foldl (fun (acc : ERes State) x => acc.bind fun s =>
    (dstSide s (getCore s n) i r 0 x.1 true).bind fun y =>
      sidePut s n e (elSpan (bitOf r) e (dstAddr i r 0 x.1)).2.2 x.2 y) (.ok s)

/-- Elements from k on, m of them, one complete before the next: the state, how many were done, and how the
run ended. -/
def copyEls (s : State) (n : Nat) (i : Instr) (r idx k : Nat) : Nat → State × Nat × ERes Unit
  | 0 => (s, k, .ok ())
  | m + 1 =>
    match copyEl s n i r idx k with
    | .ok s1 => copyEls s1 n i r idx (k + 1) m
    | x => let y := x.ends s; (y.1, k, y.2)

/-- The index of row `row` (R275), which is read as a source is. -/
def readIndex (s : State) (n : Nat) (e : Entry) (row : Nat) : ERes Nat :=
  let va := (e.b.toNat + 4 * row) % 2 ^ 64
  (engPlaces s (getCore s n) va 4 false).bind fun ps =>
    (engRead s va (if rbit e.recNat 702 then ps.map (swzPlace e.recNat) else ps)).bind fun bs => .ok (leNat bs)

/-- One row from element `pos` on: the index is read before the row begins (R275), and kept until the row is complete.
The state, the entry as far as it came, and how the run ended. -/
def copyRow (s : State) (n : Nat) (e : Entry) : State × Entry × ERes Unit :=
  let r := e.recNat
  let w := cntOf r 0
  let row := e.pos / w
  let run (e : Entry) (idx : Nat) : State × Entry × ERes Unit :=
    let x := copyEls s n e.i r idx e.pos (w - e.pos % w)
    (x.1, { e with pos := x.2.1, cap := if x.2.1 % w = 0 ∧ e.pos ≠ x.2.1 then [] else e.cap }, x.2.2)
  match e.i with
  | .cpyt _ =>
    match cpytRow s n e.i r (row * w) with
    | .ok s1 => (s1, { e with pos := (row + 1) * w }, .ok ())
    | x => (s, e, (x.ends s).2)
  | .cpgath _ | .cpscat _ =>
    match e.cap with
    | v :: _ => run e v.toNat
    | [] =>
      match readIndex s n e row with
      | .ok v => run { e with cap := [BitVec.ofNat 64 v] } v
      | x => (s, e, (x.ends s).2)
  | _ => run e 0

/-- Rows until the walk ends or stops; at most m of them. -/
def copyRows (s : State) (n : Nat) (e : Entry) : Nat → State × Entry × ERes Unit
  | 0 => (s, e, .ok ())
  | m + 1 =>
    if totalOf e.recNat ≤ e.pos then (s, e, .ok ())
    else
      let x := copyRow s n e
      match x.2.2 with
      | .ok _ => copyRows x.1 n x.2.1 m
      | _ => x

/-- The first destination element in walk order that leaves the slot (R272). In bit mode XREC6 is its bit offset: R272 says the
element's offset, and R280 the byte address that holds a bit, which a slot has none of (DESIGN CHOICE, unsafe: log 97). -/
def slotOut (i : Instr) (r : Nat) : Nat → Nat → Option Nat
  | 0, _ => none
  | m + 1, k =>
    let t := dstAddr i r 0 k
    if (if bitOf r then 131072 < t + 1 else 16384 < t + widthOf r / 8) then some t else slotOut i r m (k + 1)

/-- The start checks of an entry with DH = 1 (R272): code, XREC6, XREC7. -/
def copyCheck (c : Core) (e : Entry) : Option (Nat × Nat × Nat) :=
  let r := e.recNat
  match e.i with
  | .cpstat _ => none
  | _ =>
    if !dhOf r then none
    else if c.handle (fld r 576 5) ≠ .filling then some (0x11, 0, fld r 576 5)
    else (slotOut e.i r (totalOf r) 0).map (fun t => (0x0C, t, 5))

/-- Charges and work of an entry as far as it has come (R278): its elements, and the indexes it has read, that of a row
not complete among them. -/
def copyCharge (e : Entry) : Nat × Nat :=
  let bits := widthOf e.recNat * e.pos
  let read := e.pos / cntOf e.recNat 0 + e.cap.length
  match e.i with
  | .cpxor _ => (0, 3 * bits)
  | .cpswp _ => (0, 4 * bits)
  | .cpfill _ => (bits, bits)
  | .cpgath _ | .cpscat _ => (bits, 2 * bits + 32 * read)
  | .cpstat _ => (0, 0)
  | _ => (bits, 2 * bits)

/-- The status word of a copy entry (R277). -/
def copyStatus (c : Core) (e : Entry) (code : Nat) : Word :=
  match e.i with
  | .cpstat _ => BitVec.ofNat 64 (e.seq + (if c.cq.flt then 2 ^ 41 else 0) + 2 ^ 42 + e.a.toNat % 2 ^ 16 * 2 ^ 48)
  | _ => BitVec.ofNat 64 (e.seq + code * 2 ^ 32 + (if e.parks = 0 then 0 else 2 ^ 40))

/-- The ranges that the row of element k of an entry reads and writes, from its lowest address to its highest: its sources, its
destinations, its index; and the word the entry's tag names. A row whose index is not read may lie anywhere. -/
def copyRanges (e : Entry) (k : Nat) : List (Nat × Nat) :=
  let r := e.recNat
  let w := cntOf r 0
  let row := k / w
  let idx := (e.cap.getD 0 0).toNat
  let indexed : Bool := match e.i with | .cpgath _ | .cpscat _ => true | _ => false
  let hull (x y : Nat) : Nat × Nat :=
    let p := elSpan (bitOf r) (widthOf r) (min x y)
    let q := elSpan (bitOf r) (widthOf r) (max x y)
    (p.1, q.1 + q.2.1 - p.1)
  let rows : List (Nat × Nat) :=
    if indexed && e.cap.isEmpty then [(0, 2 ^ 64)]
    else
      [hull (srcAddr e.i r idx (row * w)) (srcAddr e.i r idx (row * w + w - 1))] ++
        (if dhOf r then [] else [hull (dstAddr e.i r idx (row * w)) (dstAddr e.i r idx (row * w + w - 1))])
  match e.i with
  | .cpstat _ => []
  | _ => rows ++ (if indexed then [((e.b.toNat + 4 * row) % 2 ^ 64, 4)] else []) ++
      (match e.tagVa with | some va => [(va, 16)] | none => [])

/-- The entry pushes a status word of its own. -/
def copyStat (i : Instr) : Bool :=
  match i with
  | .cpstat _ => true
  | .cpy f | .cpyt f | .cpgath f | .cpscat f | .cpfill f | .cpxor f | .cpswp f => f.md.testBit 0
  | _ => false

/-- HOLD: the handle stays filling. -/
def copyHold (i : Instr) : Bool :=
  match i with
  | .cpy f | .cpyt f | .cpgath f | .cpfill f | .cpxor f => f.md.testBit 1
  | _ => false

end Sys2Proof.Machine
end

