-- ==== Sys2Proof/Machine/Graft.lean ====
section
/-! DEFINITION. The graft engine (R342-R363): shapes, checks, contraction, loads and stores of the boundary,
and one meaning per word. -/

namespace Sys2Proof.Machine

/-! ### The boundary (R342, R343) -/

/-- A free-mode size. -/
def Graft.mode (g : Graft) (m : Nat) : Nat := tget 0 g.gm m + 1

/-- A bond dimension. -/
def Graft.bond (g : Graft) (m : Nat) : Nat := tget 0 g.bonds m + 1

/-- The product of the sizes of modes lo .. nf-1. -/
def Graft.modes (g : Graft) (lo nf : Nat) : Nat := (List.range nf).foldl (fun a m => if lo ≤ m then a * g.mode m else a) 1

/-- The element count of a boundary with this batch, these modes and this bond. -/
def Graft.count (g : Graft) (batch nf bd : Nat) : Nat := (batch + 1) * g.modes 0 nf * (bd + 1)

/-- E, the USED figure: 0 for an empty boundary. -/
def Graft.used (g : Graft) : Nat := if g.empty then 0 else g.count g.batch g.nf g.bd

/-- An element of the boundary. -/
def Graft.el (g : Graft) (k : Nat) : Nat := (tget (0 : Cont) g.bnd k).toNat

/-! ### Shapes (R344, R345) -/

/-- A contraction: direction R, mode (0 APPEND, 1 SUM, 2 SPLIT, 3 GPROJ), the handle, whether a status word is
pushed. -/
structure GraftOp where
  right : Bool
  mode : Nat
  h : Nat
  stat : Bool

/-- The contraction a word names. -/
def graftOp : Instr → Option GraftOp
  | .graftAppend f => some { right := f.md.testBit 7, mode := 0, h := f.md % 32, stat := f.md.testBit 8 }
  | .graftSum f => some { right := f.md.testBit 7, mode := 1, h := f.md % 32, stat := f.md.testBit 8 }
  | .graftSplit f => some { right := f.md.testBit 7, mode := 2, h := f.md % 32, stat := f.md.testBit 8 }
  | .gproj f => some { right := f.md.testBit 7, mode := 3, h := f.md % 32, stat := f.md.testBit 8 }
  | _ => none

/-- DIN + 1, NK + 1, DOUT + 1, OK + 1, BC, BN of a shape operand. -/
def shapeFields (v : Nat) : Nat × Nat × Nat × Nat × Nat × Nat :=
  (v % 2 ^ 12 + 1, v / 2 ^ 24 % 2 ^ 16 + 1, v / 2 ^ 12 % 2 ^ 12 + 1, v / 2 ^ 40 % 2 ^ 12 + 1, v / 2 ^ 52 % 8, v / 2 ^ 56 % 8)

/-- What a contraction does with a shape: Dc, Dn, the summed and the appended size, whether a mode is consumed. -/
structure Contraction where
  dc : Nat
  dn : Nat
  i : Nat
  o : Nat
  consumes : Bool

/-- The contraction of an operation and a shape (R345, R351). -/
def contractionOf (op : GraftOp) (v : Nat) : Contraction :=
  let (din, nk, dout, ok, _, _) := shapeFields v
  let dc := if op.right then dout else din
  let dn := if op.right then din else dout
  match op.mode with
  | 0 => { dc := dc, dn := dn, i := 1, o := nk, consumes := false }
  | 1 => { dc := dc, dn := dn, i := nk, o := 1, consumes := true }
  | 2 => { dc := dc, dn := dn, i := nk / ok, o := ok, consumes := true }
  | _ => { dc := dc, dn := dn, i := 1, o := 1, consumes := false }

/-- The product of the modes that stay. -/
def Graft.rest (g : Graft) (x : Contraction) : Nat := g.modes (if x.consumes then 1 else 0) g.nf

/-- E' of a contraction. -/
def Graft.outCount (g : Graft) (x : Contraction) : Nat := (g.batch + 1) * g.rest x * x.o * x.dn

/-! ### Issue (R350) -/

/-- The shape operand's checks at issue. -/
def shapeStopG (op : GraftOp) (v : Nat) : Option Stop :=
  let (_, nk, _, ok, _, _) := shapeFields v
  bad0 (v.testBit 55 || v / 2 ^ 59 ≠ 0 || (op.mode ≠ 2 && ok ≠ 1) || (op.mode = 3 && nk ≠ 1)) 0x02 0 0

/-- A contraction word. -/
def runGraft (s : State) (i : Instr) (f : EregW) : Res :=
  match graftOp i with
  | some op => runEreg s i .graft f (shapeStopG op (srcVal s f.a).toNat) id
  | none => .next s

/-- GRAFT in mode APPEND (R345). -/
def execGraftAppend (f : EregW) (s : State) : Res := runGraft s (.graftAppend f) f
/-- GRAFT in mode SUM (R345). -/
def execGraftSum (f : EregW) (s : State) : Res := runGraft s (.graftSum f) f
/-- GRAFT in mode SPLIT (R345). -/
def execGraftSplit (f : EregW) (s : State) : Res := runGraft s (.graftSplit f) f
/-- GPROJ (R351). -/
def execGproj (f : EregW) (s : State) : Res := runGraft s (.gproj f) f
/-- GLOAD (R352). -/
def execGload (f : EregW) (s : State) : Res :=
  let a := (srcVal s f.a).toNat
  let d := (srcVal s f.b).toNat
  runEreg s (.gload f) .graft f ((bad0 (d / 2 ^ 12 % 16 ≠ 0 || d / 2 ^ 28 ≠ 0) 0x02 0 0).or
    (bad0 (a % (if f.md.testBit 0 then 2 else 4) ≠ 0) 0x0E a 0)) id
/-- GSTORE (R353). -/
def execGstore (f : EregW) (s : State) : Res :=
  let a := (srcVal s f.a).toNat
  runEreg s (.gstore f) .graft f (bad0 (a % (if f.md.testBit 0 then 2 else 4) ≠ 0) 0x0E a 0) id
/-- GSETM (R354). -/
def execGsetm (f : EregW) (s : State) : Res := runEreg s (.gsetm f) .graft f (bad0 (16 < f.md / 4 % 32) 0x02 0 0) id
/-- GSETB (R355). -/
def execGsetb (f : EregW) (s : State) : Res :=
  let v := (srcVal s f.a).toNat
  runEreg s (.gsetb f) .graft f (bad0 ((List.range 4).any (fun i => v / 2 ^ (16 * i + 12) % 16 ≠ 0)) 0x02 0 0) id
/-- GCLR (R356). -/
def execGclr (f : EregW) (s : State) : Res := runEreg s (.gclr f) .graft f none id
/-- GSTAT (R357). -/
def execGstat (f : EregW) (s : State) : Res := runEreg s (.gstat f) .graft f none id
/-- GSTAT.INFO (R357). -/
def execGstatInfo (f : EregW) (s : State) : Res := runEreg s (.gstatInfo f) .graft f none id

/-! ### Start (R347, R348, R352) -/

/-- A contraction waits in its queue while its handle fills (R348 step 1). -/
def graftReady (c : Core) (e : Entry) : Bool :=
  match graftOp e.i with | some op => c.handle op.h ≠ .filling | none => true

/-- The start checks of a graft entry: code, XREC6, XREC7. -/
def graftCheck (c : Core) (e : Entry) : Option (Nat × Nat × Nat) :=
  let g := c.graft
  match graftOp e.i with
  | some op =>
    let x := contractionOf op e.a.toNat
    let (din, nk, dout, ok, bc, bn) := shapeFields e.a.toNat
    let foot := 4 * (g.used + g.outCount x)
    if c.handle op.h = .free then some (0x11, 0, op.h)
    else if 8192 < din * nk * dout then some (0x12, 0, 1)
    else if op.mode = 2 ∧ nk % ok ≠ 0 then some (0x12, 0, 2)
    else if g.empty then some (0x15, 0, 6)
    else if x.dc ≠ g.bond bc then some (0x15, 0, 1)
    else if x.dn ≠ g.bond bn then some (0x15, 0, 2)
    else if g.bd + 1 ≠ x.dc then some (0x15, 0, 3)
    else if x.consumes ∧ (g.nf = 0 ∨ g.mode 0 ≠ x.i) then some (0x15, 0, 4)
    else if op.mode = 0 ∧ g.nf = 16 then some (0x14, 0, 0)
    else if 4096 * g.gres < foot then some (0x14, 0, foot)
    else none
  | none =>
    match e.i with
    | .gload _ =>
      let foot := 4 * g.count (e.b.toNat % 2 ^ 12) g.nf (e.b.toNat / 2 ^ 16 % 2 ^ 12)
      if 4096 * g.gres < foot then some (0x14, 0, foot) else none
    | _ => none

/-- What a graft entry does as it starts: its handle becomes draining; GLOAD discards the old boundary. -/
def graftBegin (c : Core) (e : Entry) : Core :=
  match graftOp e.i with
  | some op => c.setHandle op.h .draining
  | none =>
    match e.i with
    | .gload _ => { c with
        graft := { c.graft with bnd := [], empty := false, batch := e.b.toNat % 2 ^ 12, bd := e.b.toNat / 2 ^ 16 % 2 ^ 12 }
        bad := c.bad.filter (fun m => match m with | .bnd _ => false | _ => true) }
    | _ => c

/-! ### Running: the elements of GLOAD and GSTORE (R352, R353, R361) -/

/-- The format bit and element size of GLOAD and GSTORE. -/
def graftBf (i : Instr) : Bool := match i with | .gload f | .gstore f => f.md.testBit 0 | _ => false

/-- Element k of a GLOAD or GSTORE. -/
def graftEl (s : State) (n : Nat) (e : Entry) (k : Nat) : ERes State :=
  let c := getCore s n
  let sz := if graftBf e.i then 2 else 4
  let va := (e.a.toNat + sz * k) % 2 ^ 64
  match e.i with
  | .gload _ =>
    (engPlaces s c va sz false).bind fun ps => (engRead s va ps).bind fun bs =>
      let v := leNat bs
      let x := if sz = 2 then packF 3 0 0 false (unpackF 4 v) else v
      .ok (setCore s { c with graft := { c.graft with bnd := tset 0 c.graft.bnd k (BitVec.ofNat 32 x) } })
  | _ =>
    if c.bad.contains (.bnd k) then .fault 0x1B 0 0
    else
      let v := c.graft.el k
      let x := if sz = 2 then packF 4 0 0 false (unpackF 3 v) else v
      (engPlaces s c va sz true).bind fun ps => engWrite s va ps (leBytes sz x)

/-- The steps of an entry: the elements of a GLOAD or GSTORE, the batch rows of a contraction. -/
def graftTotal (c : Core) (e : Entry) : Nat :=
  match e.i with
  | .gload _ | .gstore _ => c.graft.used
  | _ => if (graftOp e.i).isSome then c.graft.batch + 1 else 0

/-- The range a GLOAD reads or a GSTORE writes. -/
def graftRanges (c : Core) (e : Entry) : List (Nat × Nat) :=
  let sz := if graftBf e.i then 2 else 4
  match e.i with
  | .gload _ => [(e.a.toNat, sz * c.graft.count (e.b.toNat % 2 ^ 12) c.graft.nf (e.b.toNat / 2 ^ 16 % 2 ^ 12))]
  | .gstore _ => [(e.a.toNat, sz * c.graft.used)]
  | _ => []

/-- The steps from one row boundary to the next (R361): a batch row. -/
def graftRow (c : Core) (e : Entry) : Nat := graftTotal c e / (c.graft.batch + 1)

/-- One step of an entry: an element of a GLOAD or GSTORE; a contraction commits nothing before its end (R346). -/
def graftStep (s : State) (n : Nat) (e : Entry) : ERes State :=
  match e.i with
  | .gload _ | .gstore _ => graftEl s n e e.pos
  | _ => .ok s

/-- Steps from `pos` on, at most m of them: the state, the entry, and how the run ended. -/
def graftRun (s : State) (n : Nat) (e : Entry) : Nat → State × Entry × ERes Unit
  | 0 => (s, e, .ok ())
  | m + 1 =>
    if graftTotal (getCore s n) e ≤ e.pos then (s, e, .ok ())
    else
      match graftStep s n e with
      | .ok s1 => graftRun s1 n { e with pos := e.pos + 1 } m
      | x => let y := x.ends s; (y.1, e, y.2)

/-! ### Completion (R345, R346, R351, R354-R358) -/

/-- bf(x): an FP32 pattern rounded to BF16, as an exact value (R345). -/
def bfF (v : Nat) : Fv := unpackF 4 (packF 4 0 0 false (unpackF 3 v))

/-- A core element in a slot: byte offset of (α, p, γ). -/
def graftOff (nk dout a p g : Nat) : Nat := 2 * ((a * nk + p) * dout + g)

/-- The slot offset of g(β, p, γ) in a direction. -/
def coreOff (op : GraftOp) (v b p g : Nat) : Nat :=
  let (_, nk, dout, _, _, _) := shapeFields v
  if op.right then graftOff nk dout g p b else graftOff nk dout b p g

/-- The boundary element that meets (β, i) for an output element whose batch and remaining index are given. -/
def inIndex (g : Graft) (x : Contraction) (b f' i beta : Nat) : Nat :=
  if x.consumes then ((b * x.i + i) * g.rest x + f') * x.dc + beta else (b * g.rest x + f') * x.dc + beta

/-- The output element's coordinates (b, f', o, γ). -/
def outCoords (g : Graft) (x : Contraction) (k : Nat) : Nat × Nat × Nat × Nat :=
  (k / (x.dn * x.o * g.rest x), k / (x.dn * x.o) % g.rest x, k / x.dn % x.o, k % x.dn)

/-- The terms of an output element in order: boundary element and slot offset (R345). -/
def graftTerms (op : GraftOp) (v : Nat) (g : Graft) (x : Contraction) (k : Nat) : List (Nat × Nat) :=
  let (b, f', o, gm) := outCoords g x k
  (List.range x.dc).flatMap fun beta => (List.range x.i).map fun i =>
    (inIndex g x b f' i beta, coreOff op v beta (i * x.o + o) gm)

/-- The FP32 value of an output element. -/
def graftOut (c : Core) (op : GraftOp) (v : Nat) (x : Contraction) (k : Nat) : Nat :=
  (graftTerms op v c.graft x k).foldl (fun acc t =>
    let w := c.slotByte op.h t.2 + 256 * c.slotByte op.h (t.2 + 1)
    fadd32 acc (packF 3 0 0 false (mulF (bfF (c.graft.el t.1)) (unpackF 4 w)))) 0

/-- An output element meets an uncorrectable error. -/
def graftHit (c : Core) (op : GraftOp) (v : Nat) (x : Contraction) (k : Nat) : Bool :=
  (graftTerms op v c.graft x k).any fun t => c.bad.any fun m => match m with
    | .bnd j => j = t.1
    | .slot h o => h = op.h && (o = t.2 || o = t.2 + 1)
    | _ => false

/-- The registers a contraction commits (R346). -/
def graftCommit (g : Graft) (op : GraftOp) (x : Contraction) (bnd : Tab Cont) : Graft :=
  let gm1 := if x.consumes then (List.range (g.nf - 1)).foldl (fun t m => tset 0 t m (tget 0 g.gm (m + 1))) g.gm else g.gm
  let nf1 := if x.consumes then g.nf - 1 else g.nf
  let app := op.mode = 0 ∨ op.mode = 2
  { g with
    bnd := bnd, bd := x.dn - 1
    gm := if app then tset 0 gm1 nf1 (x.o - 1) else gm1
    nf := if app then nf1 + 1 else nf1 }

/-- The first output element of a contraction that meets an uncorrectable error. -/
def graftBad (c : Core) (e : Entry) (op : GraftOp) : Option Nat :=
  let x := contractionOf op e.a.toNat
  (List.range (c.graft.outCount x)).find? (graftHit c op e.a.toNat x)

/-- A contraction completes and commits. -/
def graftContract (s : State) (n : Nat) (e : Entry) (op : GraftOp) : State :=
  let c := getCore s n
  let v := e.a.toNat
  let x := contractionOf op v
  let out := c.graft.outCount x
  let c1 := { c with
    graft := graftCommit c.graft op x (mkTab 0 out (fun k => BitVec.ofNat 32 (graftOut c op v x k)))
    bad := c.bad.filter (fun m => match m with | .bnd _ => false | _ => true) }
  completeEntry (setCore s c1) n .graft e 0 (32 * out) (64 * (out * x.dc * x.i) + 64 * out)

/-- Charges and work of the elements moved so far. -/
def graftCharge (e : Entry) (k : Nat) : Nat × Nat :=
  match e.i with
  | .gload _ => (32 * k, 64 * k)
  | .gstore _ => ((if graftBf e.i then 16 else 32) * k, 64 * k)
  | _ => (0, 0)

/-- GSETM's registers (R354). -/
def setModes (g : Graft) (q nf v : Nat) : Graft :=
  { g with
    gm := (List.range 4).foldl (fun t i => tset 0 t (4 * q + i) (v / 2 ^ (16 * i) % 2 ^ 16)) g.gm
    nf := nf }

/-- GSETB's registers (R355). -/
def setBonds (g : Graft) (q v : Nat) : Graft :=
  { g with bonds := (List.range 4).foldl (fun t i => tset 0 t (4 * q + i) (v / 2 ^ (16 * i) % 2 ^ 12)) g.bonds }

/-- The code and XREC7 a graft entry that has run ends with: a contraction meets an uncorrectable error (R361), a GSETM
changes the element count (R354). -/
def graftCode (c : Core) (e : Entry) : Nat × Nat :=
  match graftOp e.i, e.i with
  | some op, _ => if (graftBad c e op).isSome then (0x1B, 0) else (0, 0)
  | none, .gsetm f =>
    if !c.graft.empty ∧ (setModes c.graft (f.md % 4) (f.md / 4 % 32) e.a.toNat).used ≠ c.graft.used then (0x15, 5) else (0, 0)
  | none, _ => (0, 0)

/-- A graft entry that has run completes. -/
def graftDone (s : State) (n : Nat) (e : Entry) : State :=
  let c := getCore s n
  let g := c.graft
  let fin (c : Core) (cell work : Nat) : State := completeEntry (setCore s c) n .graft e 0 cell work
  match graftOp e.i with
  | some op => graftContract s n e op
  | none =>
    match e.i with
    | .gsetm f => fin { c with graft := setModes g (f.md % 4) (f.md / 4 % 32) e.a.toNat } 69 69
    | .gsetb f => fin { c with graft := setBonds g (f.md % 2) e.a.toNat } 48 48
    | .gclr _ =>
      fin { c with
        graft := { g with bnd := [], empty := true, nf := 0 }
        bad := c.bad.filter (fun m => match m with | .bnd _ => false | _ => true) } (32 * g.used) (32 * g.used)
    | _ => fin c (graftCharge e e.pos).1 (graftCharge e e.pos).2

/-- A graft entry whose fault is recorded ends: nothing of a contraction is committed, its handle stands as it did before,
and the output elements before the failing one are charged (R361). -/
def graftFailed (s : State) (n : Nat) (e : Entry) : State :=
  let c := getCore s n
  match graftOp e.i with
  | some op =>
    if e.code = 0x1B then
      let x := contractionOf op e.a.toNat
      let k := (graftBad c e op).getD 0
      endFailed (setCore s (if e.shown = 1 then c.setHandle op.h .full else c)) n .graft e (32 * k) (64 * k * x.dc * x.i)
    else endFailed s n .graft e 0 0
  | none => endFailed s n .graft e (graftCharge e e.pos).1 (graftCharge e e.pos).2

/-- The information word (R357). -/
def graftInfo (g : Graft) : Word :=
  BitVec.ofNat 64 (g.batch + g.nf * 2 ^ 12 + g.bd * 2 ^ 17 + (if g.empty then 2 ^ 29 else 0) + g.used * 2 ^ 30 +
    g.gres * 2 ^ 48)

/-- The words a graft entry pushes when it ends with a code, or as GSTAT reaches the head (R357). -/
def graftWords (c : Core) (e : Entry) (code : Nat) : List Word :=
  let own := [BitVec.ofNat 64 (e.seq + code * 2 ^ 32)]
  let st := BitVec.ofNat 64 (e.seq + (if c.gq.flt then 2 ^ 41 else 0) + 2 ^ 42 + e.a.toNat % 2 ^ 16 * 2 ^ 48)
  match e.i with
  | .gstat _ => [st]
  | .gstatInfo _ => [st, graftInfo c.graft]
  | .graftAppend f | .graftSum f | .graftSplit f | .gproj f | .gload f | .gstore f | .gsetm f | .gsetb f | .gclr f =>
    if f.md.testBit 8 then own else []
  | _ => []

end Sys2Proof.Machine
end

