-- ==== Sys2Proof/Machine/Bank.lean ====
section
/-! DEFINITION. The bank engine (R366-R385): checks at issue, atomics, reductions, copies, digests, collectives
and seed shipping, and one meaning per word. -/

namespace Sys2Proof.Machine

/-! ### Reductions and digests (R369, R370) -/

/-- op of R369 on two elements of format f (INT32, FP32 or BF16). -/
def redOp (op f a b : Nat) : Nat :=
  match op with
  | 0 => if f = 2 then (a + b) % 2 ^ 32 else packF f 0 0 false (addF 0 (unpackF f a) (unpackF f b))
  | 1 => if f = 2 then (if sgn 32 a ≤ sgn 32 b then a else b) else packF f 0 0 false (minMaxF false (unpackF f a) (unpackF f b))
  | 2 => if f = 2 then (if sgn 32 a ≤ sgn 32 b then b else a) else packF f 0 0 false (minMaxF true (unpackF f a) (unpackF f b))
  | 3 => a &&& b
  | 4 => a ||| b
  | _ => a ^^^ b

/-- One level of the tree: neighbours are combined, the lower rank on the left. -/
def pairUp (op : Nat → Nat → Nat) : List Nat → List Nat
  | a :: b :: r => op a b :: pairUp op r
  | l => l

/-- The tree of R369; the fuel is the number of ranks. -/
def redTree (op : Nat → Nat → Nat) : Nat → List Nat → Nat
  | 0, l => l.headD 0
  | f + 1, l => match l with | [x] => x | _ => redTree op f (pairUp op l)

/-- mixA (R370). -/
def mixA (x : Word) : Word :=
  let x := x ^^^ (x >>> 28)
  let x := x + (x <<< 16) + (x <<< 40)
  x ^^^ (x >>> 32)

/-- mixB (R370). -/
def mixB (x : Word) : Word :=
  let x := x.rotateLeft 20
  let x := x + (x <<< 12) + (x <<< 36)
  x ^^^ (x >>> 24)

/-- Word i of a region enters the two lanes. -/
def digestWord (l : Word × Word) (i : Nat) (w : Word) : Word × Word :=
  (l.1 + mixA (w ^^^ (BitVec.ofNat 64 i * 0xC3A56D192E8F4B07)), l.2 + mixB (w + BitVec.ofNat 64 i * 0x5D2BE871A46C0F93))

/-- The digest of a region given as its words. -/
def digestOf (ws : List Word) : Word × Word := ws.zipIdx.foldl (fun l x => digestWord l x.2 x.1) (0, 0)

/-! ### Issue (R376) -/

/-- Bytes of an element of an accepted format. -/
def bankEs (fmt : Nat) : Nat := if fmt = 4 then 2 else 4

/-- An address that is not a multiple of n. -/
def unaligned (a n : Nat) : Option Stop := bad0 (a % n ≠ 0) 0x0E a 0

/-- The operation of a BATOM word. -/
def batomOp : Instr → Option Aop
  | .batomAdd _ => some .add
  | .batomMin _ => some .min
  | .batomMax _ => some .max
  | .batomAnd _ => some .and
  | .batomOr _ => some .or
  | .batomXor _ => some .xor
  | .batomSwp _ => some .swp
  | .batomCas _ => some .cas
  | .batomFadd _ => some .fadd
  | _ => none

/-- Bytes of the word a BATOM names. -/
def aopLen (op : Aop) : Nat := if op = .fadd then 4 else 8

/-- A BATOM word at issue. -/
def runBatom (s : State) (i : Instr) (op : Aop) (f : EregW) : Res :=
  runEreg s i .bank f (unaligned (srcVal s f.a).toNat (aopLen op)) id

/-- BATOM.add (R377). -/
def execBatomAdd (f : EregW) (s : State) : Res := runBatom s (.batomAdd f) .add f
/-- BATOM.min (R377). -/
def execBatomMin (f : EregW) (s : State) : Res := runBatom s (.batomMin f) .min f
/-- BATOM.max (R377). -/
def execBatomMax (f : EregW) (s : State) : Res := runBatom s (.batomMax f) .max f
/-- BATOM.and (R377). -/
def execBatomAnd (f : EregW) (s : State) : Res := runBatom s (.batomAnd f) .and f
/-- BATOM.or (R377). -/
def execBatomOr (f : EregW) (s : State) : Res := runBatom s (.batomOr f) .or f
/-- BATOM.xor (R377). -/
def execBatomXor (f : EregW) (s : State) : Res := runBatom s (.batomXor f) .xor f
/-- BATOM.swp (R377). -/
def execBatomSwp (f : EregW) (s : State) : Res := runBatom s (.batomSwp f) .swp f
/-- BATOM.cas (R377). -/
def execBatomCas (f : EregW) (s : State) : Res := runBatom s (.batomCas f) .cas f
/-- BATOM.fadd (R377). -/
def execBatomFadd (f : EregW) (s : State) : Res := runBatom s (.batomFadd f) .fadd f

/-- BRED (R378). -/
def execBred (f : EregW) (s : State) : Res :=
  let a := (srcVal s f.a).toNat
  let b := (srcVal s f.b).toNat
  let c := (srcVal s f.c).toNat
  let e := bankEs (f.md / 8 % 8)
  runEreg s (.bred f) .bank f
    (((bad0 (c % 2 ^ 32 = 0 || c / 2 ^ 40 ≠ 0) 0x02 0 0).or (unaligned a e)).or (unaligned b e)) id

/-- BDIG (R380). -/
def execBdig (f : EregW) (s : State) : Res :=
  let b := (srcVal s f.b).toNat
  let c := (srcVal s f.c).toNat
  runEreg s (.bdig f) .bank f
    (((unaligned (srcVal s f.a).toNat 8).or (bad0 (b % 8 ≠ 0 || 2 ^ 39 ≤ b) 0x02 0 0)).or
      (if f.c = 0 then none else unaligned c 16)) id

/-- The length of BCOPY and BFILL. -/
def bankLenBad (c : Nat) : Option Stop := bad0 (c = 0 || c % 8 ≠ 0 || 2 ^ 32 ≤ c) 0x02 0 0

/-- BCOPY (R381). -/
def execBcopy (f : EregW) (s : State) : Res :=
  runEreg s (.bcopy f) .bank f
    (((unaligned (srcVal s f.a).toNat 8).or (unaligned (srcVal s f.b).toNat 8)).or (bankLenBad (srcVal s f.c).toNat)) id

/-- BFILL (R381): R376 asks of its B, the value it repeats, what it asks of BCOPY's. DEDUCED, unsafe: log 36. -/
def execBfill (f : EregW) (s : State) : Res :=
  runEreg s (.bfill f) .bank f
    (((unaligned (srcVal s f.a).toNat 8).or (unaligned (srcVal s f.b).toNat 8)).or (bankLenBad (srcVal s f.c).toNat)) id

/-- The collective group of a core. -/
def Core.group (c : Core) (cgid : Nat) : Option CGroup := c.groups.find? (fun g => g.cgid = cgid)

/-- The check of R374 before seeds ship. -/
def seedShipBad (c : Core) (g : CGroup) : Option Stop :=
  let mode := c.seedctl.toNat % 8
  let cnt := c.seedctl.toNat / 2 ^ 32
  let leader := g.rank / (g.n / g.nr) = 0
  bad0 (mode ≠ (if leader then 3 else 4) || cnt = 0 || 65536 < cnt) 0x02 0 518

/-- The group counts an instance issued; with D its vote is outstanding (R368, R387). -/
def Core.countInstance (c : Core) (cgid : Nat) (dig : Bool) : Core :=
  let k := ((c.group cgid).map (·.issued)).getD 0
  { c with
    groups := c.groups.map (fun g => if g.cgid = cgid then { g with issued := g.issued + 1 } else g)
    dones := if dig then c.dones ++ [(cgid, k)] else c.dones }

/-- What an entry of an instance keeps from its issue. -/
def Entry.joins (e : Entry) (c : Core) (cgid : Nat) (desc : List Byte) : Entry :=
  { e with
    desc := desc, inst := ((c.group cgid).map (·.issued)).getD 0
    seedAddr := c.seedlog.toNat, seedCnt := c.seedctl.toNat / 2 ^ 32 }

/-- The lowest bit of the first descriptor field that breaks R379. -/
def descBad (c : Core) (kind : Nat) (dig : Bool) (d : Nat) : Option Nat :=
  let fmt := fld d 160 4
  let known := fmt = 2 ∨ fmt = 3 ∨ fmt = 4
  let e := bankEs fmt
  let g := c.group (fld d 168 8)
  let root := fld d 176 12
  let checks : List (Bool × Nat) := [
    (known && fld d 0 64 % e ≠ 0, 0), (known && fld d 64 64 % e ≠ 0, 64), (fld d 128 32 = 0, 128), (!known, 160),
    (fld d 164 4 ≠ 0, 164), (g.isNone, 168),
    (match g with | some g => if kind = 3 then g.n ≤ root else root ≠ 0 | none => false, 176),
    (fld d 188 4 ≠ 0, 188), (if dig then fld d 192 64 % 8 ≠ 0 else fld d 192 64 ≠ 0, 192),
    (if dig then fld d 256 40 % 8 ≠ 0 else fld d 256 40 ≠ 0, 256), (fld d 296 24 ≠ 0, 296), (fld d 384 128 ≠ 0, 384)]
  (checks.find? (·.1)).map (·.2)

/-- BCOLL at issue: its descriptor is read from the core's own scratchpad (R379). -/
def runBcoll (s : State) (i : Instr) (kind : Nat) (f : EregW) : Res :=
  let c := s.core
  let va := (srcVal s f.a).toNat
  let dig := f.md.testBit 5
  let ps := placesOf s c va 64 false
  let rd := readPlaces s ps
  let bs := match rd with | .ok bs => bs | .error _ => []
  let d := leNat bs
  let cgid := fld d 168 8
  let own : Option Stop :=
    (((unaligned va 64).or (bad0 (ownSpad s c va 64).isNone 0x0C va 0)).or
      (match rd with | .error k => bad0 true 0x1B (va + k) 0 | .ok _ => none)).or
    (((descBad c kind dig d).map (fun k => Stop.fault 0x02 0 (BitVec.ofNat 64 k))).or
      (match c.group cgid with | some g => if f.md.testBit 6 then seedShipBad c g else none | none => none))
  let due := s.bed.btick + 3 + rampK f.ramp
  runEngine s i .bank (eregTokens f) (eregSrcs f) own (fun e => e.joins c cgid bs) fun s' =>
    postAcc (onCore s' (·.countInstance cgid dig)) (mkAcc s i [f.a] .load 0 0 va due ps [])

/-- BCOLL, all-reduce (R379). -/
def execBcollAllreduce (f : EregW) (s : State) : Res := runBcoll s (.bcollAllreduce f) 0 f
/-- BCOLL, reduce-scatter (R379). -/
def execBcollRedscat (f : EregW) (s : State) : Res := runBcoll s (.bcollRedscat f) 1 f
/-- BCOLL, all-gather (R379). -/
def execBcollAllgath (f : EregW) (s : State) : Res := runBcoll s (.bcollAllgath f) 2 f
/-- BCOLL, broadcast (R379). -/
def execBcollBcast (f : EregW) (s : State) : Res := runBcoll s (.bcollBcast f) 3 f

/-- BSEED (R382, R374). -/
def execBseed (f : EregW) (s : State) : Res :=
  let c := s.core
  let a := (srcVal s f.a).toNat
  let own := match c.group (a % 256) with
    | none => some (.fault 0x02 0 0)
    | some g => (bad0 (a / 256 ≠ 0) 0x02 0 0).or (seedShipBad c g)
  runEngine s (.bseed f) .bank (eregTokens f) (eregSrcs f) own (fun e => e.joins c (a % 256) [])
    (fun s' => onCore s' (·.countInstance (a % 256) false))

/-- BSTAT (R382). -/
def execBstat (f : EregW) (s : State) : Res := runEreg s (.bstat f) .bank f none id
/-- BSTAT.INFO (R382). -/
def execBstatInfo (f : EregW) (s : State) : Res :=
  runEreg s (.bstatInfo f) .bank f (bad0 (s.core.group ((srcVal s f.a).toNat % 256)).isNone 0x02 0 0) id

/-! ### Words pushed into q7 (R366, R382) -/

/-- The group information word. -/
def groupInfo (c : Core) (cgid : Nat) : Word :=
  match c.group cgid with
  | some g => BitVec.ofNat 64 (g.rank + (g.n - 1) * 2 ^ 12 + (g.nr - 1) * 2 ^ 24 + g.vres * 2 ^ 28 + g.vgen % 2 ^ 16 * 2 ^ 32 +
      g.minor * 2 ^ 48)
  | none => 0

/-- The result words of an entry: zeros after a fault. -/
def bankResults (e : Entry) (code : Nat) : List Word :=
  let pick (l : List Word) : List Word := if code = 0 then l else l.map (fun _ => 0)
  match e.i with
  | .bdig f => if f.c = 0 then pick [e.cap.getD 0 0, e.cap.getD 1 0] else []
  | .batomAdd f | .batomMin f | .batomMax f | .batomAnd f | .batomOr f | .batomXor f | .batomSwp f | .batomCas f
  | .batomFadd f => if f.md.testBit 7 then pick [e.cap.getD 0 0] else []
  | _ => []

/-- STAT. -/
def bankStat (i : Instr) : Bool :=
  match i with
  | .bdig f | .bseed f => f.md.testBit 0
  | .bcopy f | .bfill f => f.md.testBit 3
  | .bcollAllreduce f | .bcollRedscat f | .bcollAllgath f | .bcollBcast f => f.md.testBit 7
  | .batomAdd f | .batomMin f | .batomMax f | .batomAnd f | .batomOr f | .batomXor f | .batomSwp f | .batomCas f
  | .batomFadd f => f.md.testBit 8
  | _ => false

/-- The words an entry pushes as it ends with a code (0: done), or as BSTAT reaches the head. -/
def bankWords (c : Core) (e : Entry) (code : Nat) : List Word :=
  let st := BitVec.ofNat 64 (e.seq + (if c.bq.flt then 2 ^ 41 else 0) + 2 ^ 42 + e.a.toNat % 2 ^ 16 * 2 ^ 48)
  match e.i with
  | .bstat _ => [st]
  | .bstatInfo _ => [st, groupInfo c (e.a.toNat % 256)]
  | _ => bankResults e code ++ (if bankStat e.i then [BitVec.ofNat 64 (e.seq + code * 2 ^ 32)] else [])

/-! ### Entries that need no other member (R377, R378, R380, R381) -/

/-- A value of n bytes read by an engine access. -/
def engLoad (s : State) (c : Core) (va n : Nat) : ERes Nat :=
  (engPlaces s c va n false).bind fun ps => (engRead s va ps).bind fun bs => .ok (leNat bs)

/-- A value of n bytes written by an engine access. -/
def engStore (s : State) (c : Core) (va n v : Nat) : ERes State :=
  (engPlaces s c va n true).bind fun ps => engWrite s va ps (leBytes n v)

/-- NEL, NSRC + 1, the element size and the format of a BRED. -/
def bredShape (e : Entry) (f : EregW) : Nat × Nat × Nat × Nat :=
  (e.c.toNat % 2 ^ 32, e.c.toNat / 2 ^ 32 % 256 + 1, bankEs (f.md / 8 % 8), f.md / 8 % 8)

/-- How many single pieces of work an entry makes. -/
def bankTotal (e : Entry) : Nat :=
  match e.i with
  | .bred f => 2 * (bredShape e f).1
  | .bdig f => e.b.toNat / 8 + (if f.c = 0 then 0 else 1)
  | .bcopy _ | .bfill _ => e.c.toNat / 8
  | _ => if (batomOp e.i).isSome then 1 else 0

/-- The atomic of a BATOM (R377): the old value; false in the second place when nothing is written. -/
def bankAtomic (s : State) (c : Core) (e : Entry) (op : Aop) : ERes (State × Entry) :=
  let va := e.a.toNat
  let len := aopLen op
  (engPlaces s c va len true).bind fun ps =>
    if throughTransform s ((coreSpans c va len).getD []) then .fault 0x0D va 3
    else (engRead s va ps).bind fun bs =>
      let old := leNat bs
      let e1 := { e with cap := [BitVec.ofNat 64 old], pos := 1, bits := aopCells op, work := 128 }
      match aopNew op old e.b.toNat e.c.toNat with
      | none => .ok (s, e1)
      | some v => (engWrite s va ps (leBytes len v)).bind fun s1 => .ok (s1, { e1 with bits := if op = .cas then 64 else aopCells op })

/-- Element j of a BRED reduced over its sources. -/
def bredEl (s : State) (c : Core) (e : Entry) (f : EregW) (j : Nat) : ERes Nat :=
  let (nel, ns, es, fmt) := bredShape e f
  let src (x : Nat) : ERes Nat := engLoad s c ((e.b.toNat + (x * nel + j) * es) % 2 ^ 64) es
  (List.range (ns - 1)).foldl (fun (acc : ERes Nat) x => acc.bind fun a => (src (x + 1)).bind fun b =>
    .ok (redOp (f.md % 8) fmt a b)) (src 0)

/-- Piece `pos` of an entry. -/
def bankEl (s : State) (n : Nat) (e : Entry) : ERes (State × Entry) :=
  let c := getCore s n
  let p := e.pos
  let va (base : Word) : Nat := (base.toNat + 8 * p) % 2 ^ 64
  match e.i with
  | .bred f =>
    let (nel, ns, es, _) := bredShape e f
    if p < nel then
      (bredEl s c e f p).bind fun v => .ok (s, { e with
        cap := e.cap ++ [BitVec.ofNat 64 v], pos := p + 1, work := e.work + 8 * es * ns + 8 * es * (ns - 1) })
    else
      (engStore s c ((e.a.toNat + es * (p - nel)) % 2 ^ 64) es (e.cap.getD (p - nel) 0).toNat).bind fun s1 =>
        .ok (s1, { e with pos := p + 1, bits := e.bits + 8 * es, work := e.work + 8 * es })
  | .bdig _ =>
    if p < e.b.toNat / 8 then
      (engLoad s c (va e.a) 8).bind fun v =>
        let l := digestWord (e.cap.getD 0 0, e.cap.getD 1 0) p (BitVec.ofNat 64 v)
        .ok (s, { e with cap := [l.1, l.2], pos := p + 1, work := e.work + 16 })
    else
      (engStore s c e.c.toNat 16 ((e.cap.getD 0 0).toNat + (e.cap.getD 1 0).toNat * 2 ^ 64)).bind fun s1 =>
        .ok (s1, { e with pos := p + 1, bits := 128 })
  | .bcopy _ =>
    (engLoad s c (va e.b) 8).bind fun v => (engStore s c (va e.a) 8 v).bind fun s1 =>
      .ok (s1, { e with pos := p + 1, bits := e.bits + 64, work := e.work + 128 })
  | .bfill _ =>
    (engStore s c (va e.a) 8 e.b.toNat).bind fun s1 =>
      .ok (s1, { e with pos := p + 1, bits := e.bits + 64, work := e.work + 64 })
  | _ => match batomOp e.i with | some op => bankAtomic s c e op | none => .ok (s, { e with pos := p + 1 })

/-- Pieces from `pos` on, at most m of them. -/
def bankRun (s : State) (n : Nat) (e : Entry) : Nat → State × Entry × ERes Unit
  | 0 => (s, e, .ok ())
  | m + 1 =>
    if bankTotal e ≤ e.pos then (s, e, .ok ())
    else match bankEl s n e with
      | .ok x => bankRun x.1 n x.2 m
      | x => let y := x.ends s; (y.1, e, y.2)

/-! ### Collective instances (R368, R374, R379) -/

/-- A collective as its entry states it. `kind` is 4 for BSEED. -/
structure Coll where
  cgid : Nat
  kind : Nat
  op : Nat
  dig : Bool
  seeds : Bool
  src : Nat
  dst : Nat
  count : Nat
  fmt : Nat
  root : Nat
  dgBase : Nat
  dgLen : Nat
  tag : Nat

/-- The collective of a BCOLL word. -/
def bcollOf (kind : Nat) (f : EregW) (desc : List Byte) : Coll :=
  let d := leNat desc
  { cgid := fld d 168 8, kind := kind, op := f.md / 4 % 8, dig := f.md.testBit 5, seeds := f.md.testBit 6
    src := fld d 0 64, dst := fld d 64 64, count := fld d 128 32, fmt := fld d 160 4, root := fld d 176 12
    dgBase := fld d 192 64, dgLen := fld d 256 40, tag := fld d 320 64 }

/-- The collective an entry is. -/
def Entry.coll (e : Entry) : Option Coll :=
  match e.i with
  | .bcollAllreduce f => some (bcollOf 0 f e.desc)
  | .bcollRedscat f => some (bcollOf 1 f e.desc)
  | .bcollAllgath f => some (bcollOf 2 f e.desc)
  | .bcollBcast f => some (bcollOf 3 f e.desc)
  | .bseed _ => some {
      cgid := e.a.toNat % 256, kind := 4, op := 0, dig := false, seeds := true, src := 0, dst := 0, count := 0, fmt := 2
      root := 0, dgBase := 0, dgLen := 0, tag := 0 }
  | _ => none

/-- What the members of an instance must agree on (R368). -/
def collAgree (x y : Coll) (cx cy : Nat) : Bool :=
  x.kind == y.kind && x.op == y.op && x.dig == y.dig && x.seeds == y.seeds && x.fmt == y.fmt && x.count == y.count &&
    x.root == y.root && (!x.seeds || cx == cy)

/-- Elements a member reads (R379). -/
def Coll.srcLen (x : Coll) (g : CGroup) : Nat :=
  match x.kind with
  | 0 | 2 => x.count
  | 1 => g.n * x.count
  | 3 => if g.rank = x.root then x.count else 0
  | _ => 0

/-- Elements a member writes. -/
def Coll.dstLen (x : Coll) (g : CGroup) : Nat :=
  match x.kind with | 2 => g.n * x.count | 4 => 0 | _ => x.count

/-- Every core of the package that has ever been touched. -/
def allCores (s : State) : List Core := s.core :: s.others

/-- The members of a group that run in this package. -/
def groupMembers (s : State) (job cgid : Nat) : List Core :=
  (allCores s).filter (fun c => c.job = job && c.run ≠ .idle && (c.group cgid).isSome)

/-- An entry belongs to instance k of a group. -/
def Entry.ofInstance (e : Entry) (cgid k : Nat) : Bool :=
  e.inst = k && (match e.coll with | some x => x.cgid = cgid | none => false)

/-- The entry of a member in instance k, once it has started. -/
def collEntry (c : Core) (cgid k : Nat) : Option Entry :=
  match c.bq.es with
  | e :: _ => if e.ofInstance cgid k && (e.ph == .running || e.ph == .parked) then some e else none
  | [] => none

/-- The stages of an instance, held in `shown` as twice the stage, plus one once this member is through it: 0 joining,
1 reading SRC, 2 writing DST, 3 the digest, 4 the leader's seeds, 5 the followers' seeds, 6 the tag. A member
whose entry has ended no longer holds the stages after the DST writes. DEDUCED, unsafe: log 39. -/
def collThrough (c : Core) (cgid k stage : Nat) : Bool :=
  match collEntry c cgid k with
  | some e => 2 * stage + 1 ≤ e.shown
  | none => 3 ≤ stage && !c.bq.es.any (fun e => e.ofInstance cgid k && e.ph != .pushing) &&
      (match c.group cgid with | some g => k < g.issued | none => false)

/-- The elements a member read, by rank. -/
def rankCap (cs : List Core) (cgid k r : Nat) : List Word :=
  match cs.find? (fun c => (c.group cgid).any (fun g => g.rank = r)) with
  | some c => ((collEntry c cgid k).map (·.cap)).getD []
  | none => []

/-- Element j that a member of rank m writes (R379). -/
def collValue (cs : List Core) (x : Coll) (k n m j : Nat) : Word :=
  let el (r i : Nat) : Nat := ((rankCap cs x.cgid k r).getD i 0).toNat
  let op := redOp x.op x.fmt
  match x.kind with
  | 0 => BitVec.ofNat 64 (redTree op n ((List.range n).map (fun r => el r j)))
  | 1 => BitVec.ofNat 64 (redTree op n ((List.range n).map (fun r => el r (m * x.count + j))))
  | 2 => BitVec.ofNat 64 (el (j / x.count) (j % x.count))
  | _ => BitVec.ofNat 64 (el x.root j)

/-- The head of a core's bank queue ends. -/
def bankEnds (s : State) (n : Nat) (e : Entry) (code addr detail : Nat) : State :=
  modCore s n fun c => c.endHead .bank e code addr detail (bankWords c e code)

/-- A core lets go of an instance whose vote was outstanding. -/
def Core.dropDone (c : Core) (cgid k : Nat) : Core := { c with dones := c.dones.filter (· ≠ (cgid, k)) }

/-- No vote is held on an instance (R384): members whose state is saved let go of it too (R387, R411). -/
def dropVote (s : State) (job cgid k : Nat) : State :=
  let f (c : Core) : Core := if c.job = job then c.dropDone cgid k else c
  { s with
    core := f s.core, others := s.others.map f
    digests := s.digests.filter (fun d => !(d.job = job && d.cgid = cgid && d.inst = k))
    lsc := { s.lsc with launches := s.lsc.launches.map (fun x => if x.job = job then
      { x with units := x.units.map (fun u => { u with saved := u.saved.map (·.dropDone cgid k) }) } else x) } }

/-- Every member of an instance but one ends with operand-format (R368, R384). -/
def endOthers (s : State) (job cgid k me detail : Nat) : State :=
  (groupMembers s job cgid).foldl (fun s c =>
    if c.num = me then s
    else match collEntry c cgid k with | some e => bankEnds s c.num e 0x12 0 detail | none => s) s

/-- A member of an instance ends in a fault (R384): before its DST writes are complete, or before seeds have landed, the
others end too, after a fault in the digest where seeds are still to ship among them; no vote is held but after a
sync-overshoot. -/
def collFault (s : State) (n : Nat) (e : Entry) (x : Coll) (code addr detail : Nat) : State :=
  let job := (getCore s n).job
  let stage := e.shown / 2
  let s1 := bankEnds s n e code addr detail
  let s2 := if code = 0x16 then s1 else dropVote s1 job x.cgid e.inst
  if stage = 1 ∨ stage = 2 ∨ (x.seeds ∧ 3 ≤ stage ∧ stage ≤ 5) then endOthers s2 job x.cgid e.inst n 2 else s2

/-- The digest a member sends (R371). -/
def digestFrom (c : Core) (g : CGroup) (e : Entry) : Digest :=
  { job := c.job, cgid := g.cgid, inst := e.inst, n := g.n, nr := g.nr, rank := g.rank, lane0 := e.cap.getD 0 0
    lane1 := e.cap.getD 1 0, ipc := e.pc, word := e.word, seq := e.seq }

/-- A member's entry moves to the stage after `stage`: reads become results, the lanes start at 0. -/
def collMove (cs : List Core) (stage : Nat) (c : Core) (x : Coll) (g : CGroup) (e : Entry) : Core :=
  let cap := match stage with
    | 1 => (List.range (x.dstLen g)).map (fun j => collValue cs x e.inst g.n g.rank j)
    | 2 => [0, 0]
    | 3 => []
    | _ => e.cap
  c.setHead .bank { e with shown := 2 * (stage + 1), pos := 0, cap := cap }

/-- All members are through a stage: they move on together, having agreed as they joined. -/
def collAdvance (s : State) (job cgid k stage : Nat) : State :=
  let cs := groupMembers s job cgid
  let es := cs.filterMap (fun c => (collEntry c cgid k).map (fun e => (c, e)))
  let agree := es.all fun p => es.all fun q => match p.2.coll, q.2.coll with
    | some x, some y => collAgree x y p.2.seedCnt q.2.seedCnt
    | _, _ => false
  if stage = 0 ∧ !agree then
    es.foldl (fun s p => bankEnds s p.1.num p.2 0x12 0 1) (dropVote s job cgid k)
  else
    es.foldl (fun s p => match p.2.coll, p.1.group cgid with
      | some x, some g => setCore s (collMove cs stage (getCore s p.1.num) x g p.2)
      | _, _ => s) s

/-- The stages that all members leave together: joining, reading SRC, and landing seeds, where they ship any (R150, R368,
R374). -/
def collCommon (x : Coll) (stage : Nat) : Bool := stage < 2 || (x.seeds && (stage = 4 || stage = 5))

/-- A member is through a stage that it leaves by itself; its digest goes to the sieve, where a vote is still to be held
(R150, R371). -/
def collSolo (s : State) (n : Nat) (x : Coll) (g : CGroup) (stage : Nat) : State :=
  let c := getCore s n
  match c.head .bank with
  | some e =>
    let s1 := setCore s (collMove [] stage c x g e)
    if stage = 3 ∧ x.dig ∧ c.dones.contains (x.cgid, e.inst) then { s1 with digests := s1.digests ++ [digestFrom c g e] } else s1
  | none => s

/-- The seed words the leader of a follower's shard drew. -/
def leaderSeeds (cs : List Core) (g : CGroup) (k : Nat) : List Word := rankCap cs g.cgid k (g.rank % (g.n / g.nr))

/-- What a member does in a stage, one piece: how many pieces there are. -/
def collPieces (x : Coll) (g : CGroup) (e : Entry) : Nat :=
  let leader := g.rank / (g.n / g.nr) = 0
  match e.shown / 2 with
  | 1 => x.srcLen g
  | 2 => x.dstLen g
  | 3 => if x.dig then x.dgLen / 8 else 0
  | 4 => if x.seeds ∧ leader then e.seedCnt else 0
  | 5 => if x.seeds ∧ !leader then e.seedCnt else 0
  | _ => 0

/-- One piece of a member's stage: a read of SRC, a write of DST, a word digested, a seed word written; every byte a BCOLL
reads or writes is work (R383; DEDUCED, unsafe: log 37). -/
def collPiece (s : State) (n : Nat) (x : Coll) (g : CGroup) (e : Entry) : ERes (State × Entry) :=
  let c := getCore s n
  let p := e.pos
  let es := bankEs x.fmt
  let own (e : Entry) : Nat := if x.kind = 4 then e.work else e.work + 64
  let seed (w : Word) (c : Core) (keep : Bool) : ERes (State × Entry) :=
    (engStore s (getCore s n) ((e.seedAddr + 8 * p) % 2 ^ 64) 8 w.toNat).bind fun s1 =>
      .ok (if keep then modCore s1 n (fun d => { d with noise := c.noise + 1 }) else s1,
        { e with pos := p + 1, cap := if keep then e.cap ++ [w] else e.cap, work := own e })
  match e.shown / 2 with
  | 1 => (engLoad s c ((x.src + es * p) % 2 ^ 64) es).bind fun v =>
      .ok (s, { e with cap := e.cap ++ [BitVec.ofNat 64 v], pos := p + 1, work := e.work + 8 * es })
  | 2 => (engStore s c ((x.dst + es * p) % 2 ^ 64) es (e.cap.getD p 0).toNat).bind fun s1 =>
      .ok (s1, { e with pos := p + 1, bits := e.bits + 8 * es, work := e.work + 8 * es })
  | 3 => (engLoad s c ((x.dgBase + 8 * p) % 2 ^ 64) 8).bind fun v =>
      let l := digestWord (e.cap.getD 0 0, e.cap.getD 1 0) p (BitVec.ofNat 64 v)
      .ok (s, { e with cap := [l.1, l.2], pos := p + 1, work := own e })
  | 4 => seed (Config.noiseWord n c.noise) c true
  | _ => seed ((leaderSeeds (groupMembers s c.job x.cgid) g e.inst).getD p 0) c false

/-- Pieces of a stage from `pos` on, at most m of them. -/
def collRun (s : State) (n : Nat) (x : Coll) (g : CGroup) (e : Entry) : Nat → State × Entry × ERes Unit
  | 0 => (s, e, .ok ())
  | m + 1 =>
    match collPiece s n x g e with
    | .ok y => collRun y.1 n x g y.2 m
    | z => let y := z.ends s; (y.1, e, y.2)

/-- The TAG posting (R379): once, after everything else. An overshoot sets OVS and ends this member's entry.
DEDUCED, unsafe: log 38. -/
def collTag (s : State) (n : Nat) (x : Coll) (g : CGroup) : State × ERes Unit :=
  let bytes := bankEs x.fmt * x.dstLen g
  if x.tag = 0 then (s, .ok ())
  else if x.tag % 16 ≠ 0 then (s, .fault 0x0E x.tag 0)
  else match tagPlace s (getCore s n) x.tag with
    | .ok pa =>
      let r := syncAt s .land pa bytes
      (r.1, if r.2 = 0 then .ok () else if r.2 = 0x1B then .fault 0x1B (badAt s pa x.tag) 0 else .fault r.2 x.tag bytes)
    | y => y.ends s

/-- A range reaches another package. -/
def rangeBarred (s : State) (c : Core) (va len : Nat) : Bool :=
  match coreSpans c va len with
  | some l => l.any (fun x => paPkg x.1.pbase ≠ s.plat.pkg)
  | none => false

/-- The ranges a member's entry reads and writes: address and bytes. -/
def collRanges (x : Coll) (g : CGroup) (e : Entry) : List (Nat × Nat) :=
  let es := bankEs x.fmt
  [(x.src, es * x.srcLen g), (x.dst, es * x.dstLen g)] ++ (if x.dig then [(x.dgBase, x.dgLen)] else []) ++
    (if x.seeds then [(e.seedAddr, 8 * e.seedCnt)] else []) ++ (if x.tag ≠ 0 then [(x.tag, 16)] else [])

/-- The ranges an entry that needs no other member reads and writes. -/
def bankRanges (e : Entry) : List (Nat × Nat) :=
  match e.i with
  | .bred f => let (nel, ns, es, _) := bredShape e f; [(e.b.toNat, nel * ns * es), (e.a.toNat, nel * es)]
  | .bdig f => (e.a.toNat, e.b.toNat) :: (if f.c = 0 then [] else [(e.c.toNat, 16)])
  | .bcopy _ => [(e.b.toNat, e.c.toNat), (e.a.toNat, e.c.toNat)]
  | .bfill _ => [(e.a.toNat, e.c.toNat)]
  | _ => match batomOp e.i with | some op => [(e.a.toNat, aopLen op)] | none => []

/-- Before its gang commits, an instance that would reach another package does not start (R227, R368). -/
def collBarred (s : State) (c : Core) (x : Coll) (g : CGroup) (e : Entry) : Bool :=
  c.gang ≠ 0 && (collRanges x g e).any (fun y => rangeBarred s c y.1 y.2)

end Sys2Proof.Machine
end

