-- ==== Sys2Proof/Machine/Branch.lean ====
section
/-! DEFINITION. Control flow (R201-R204) and the bit permuter (R196, R198, R199). -/

namespace Sys2Proof.Machine

/-- PC + 8 sext(OFF) of an SBR word. -/
def branchTarget (s : State) (f : SbrW) : Word := s.core.pc + BitVec.ofInt 64 (8 * sgn 29 f.off)

/-- The bt a transfer falls due, on which the next word issues (R91). -/
def transferDue (s : State) (ramp : Nat) : Nat := s.bed.btick + rampK ramp

/-- BC: the branch is taken when the condition holds on A and B (R201). -/
def execBc (f : SbrW) (s : State) : Res :=
  let taken := condHolds f.cc (srcVal s f.a) (srcVal s f.b)
  runWord s (.bc f) false [.ctl] f.ramp [f.a, f.b] [] none 64
    (if taken then branchTarget s f else s.core.pc + 8) (transferDue s f.ramp) id

/-- CALL: D := PC + 8, and the transfer; neither is charged (R202, R159). -/
def execCall (f : SbrW) (s : State) : Res :=
  runWord s (.call f) false [.ctl] f.ramp [] [dueAt s 1 f.ramp (.sreg f.d 0 64 (s.core.pc + 8))] none 64
    (branchTarget s f) (transferDue s f.ramp) id

/-- RET: PC := A; a misaligned address raises misalignment with XREC6 the value (R203). -/
def execRet (f : SbrW) (s : State) : Res :=
  let a := srcVal s f.a
  runWord s (.ret f) false [.ctl] f.ramp [f.a] [] (if a.toNat % 8 ≠ 0 then some (.fault 0x0E a 0) else none) 64
    a (transferDue s f.ramp) id

/-- LOOP: A := A - 1, and the branch back unless that is zero (R204). -/
def execLoop (f : SbrW) (s : State) : Res :=
  let n := srcVal s f.a - 1
  runWord s (.loop f) false [.ctl] f.ramp [f.a] [dueAt s 1 f.ramp (.sreg f.a 0 64 n)] none 64
    (if n ≠ 0 then branchTarget s f else s.core.pc + 8) (transferDue s f.ramp) id

/-- The identity pattern (R196). -/
def patIdentity : List Byte := (List.range 128).map (BitVec.ofNat 8)

/-- A pattern register. -/
def Core.pattern (c : Core) (p : Nat) : List Byte := tget patIdentity c.bp p

/-- BIJ: no Z is set and the sources are distinct (R196). -/
def patBij (l : List Byte) : Bool := l.all (fun b => b.toNat < 128) && decide (l.Nodup)

/-- The 128 bits a pattern routes from q; a Z entry gives 0. -/
def permute (l : List Byte) (q : Nat) : Nat :=
  l.zipIdx.foldl (fun a x => if x.1.toNat < 128 ∧ q.testBit x.1.toNat then a + 2 ^ x.2 else a) 0

/-- A register pair as 128 bits, the even register low. -/
def pairVal (s : State) (e : Nat) : Nat := (srcVal s e).toNat + (srcVal s (e + 1)).toNat * 2 ^ 64

/-- The two results of a permutation. -/
def pairLands (s : State) (ramp d t : Nat) : List Pend :=
  [dueAt s 2 ramp (.sreg d 0 64 (BitVec.ofNat 64 t)), dueAt s 2 ramp (.sreg (d + 1) 0 64 (BitVec.ofNat 64 (t / 2 ^ 64)))]

/-- BPERM: a pair permuted in place; a pattern that is no bijection raises 0x1C (R198). -/
def execBperm (f : SregW) (s : State) : Res :=
  let p := s.core.pattern f.b
  runNext s (.bperm f) false [.perm] f.ramp [f.d, f.d + 1] (pairLands s f.ramp f.d (permute p (pairVal s f.d)))
    (if patBij p then none else some (.fault 0x1C 0 (BitVec.ofNat 64 f.b))) 128 id

/-- BPERM.e: any pair into a destination pair by any pattern, 128 bits erased (R199). -/
def execBpermE (f : SregW) (s : State) : Res :=
  runNext s (.bpermE f) false [.perm] f.ramp [f.a, f.a + 1]
    (pairLands s f.ramp f.d (permute (s.core.pattern f.b) (pairVal s f.a))) none 128
    (fun s => onCore s (·.eraseReg 128))

end Sys2Proof.Machine
end

