-- ==== Sys2Proof/Machine/System.lean ====
section
/-! DEFINITION. The system and trap words (R235-R240, R154, R170), trap entry and the pre-emption stop (R172,
R238), illegal instructions and failed fetches (R83, R84, R205). -/

namespace Sys2Proof.Machine

/-- TRAP: it completes, and trap 0x20 is taken after it; in the system view it is a double fault (R237). -/
def execTrap (f : SsysW) (s : State) : Res :=
  let own := if s.core.view = .system then some (.fault 0x20 0 (BitVec.ofNat 64 f.sel)) else none
  runNext s (.trap f) false [.ctl] f.ramp [] [] own 0 fun s' =>
    onCore s' fun c => c.raise
      { wordRec s (.trap f) [] with code := 0x20, kind := 1, detail := BitVec.ofNat 64 f.sel }
      c.pc (s.bed.btick + rampK f.ramp)

/-- SRET (R177). -/
def execSret (f : SsysW) (s : State) : Res :=
  runWord s (.sret f) true [.ctl] f.ramp [] [dueAt s 1 f.ramp .nothing] none 0 s.core.pc (s.bed.btick + 1)
    (fun s' => onCore s' (·.sret s.bed.btick (rampK f.ramp)))

/-- The check of a control-register access that needs no value (R154 steps 2 and 3). -/
def crStop (c : Core) (sel : Nat) (wr : Bool) : Option Stop :=
  if c.crDenied sel wr then some (.fault 0x1F 0 0) else none

/-- The check of the value a write would leave (R154 step 4). -/
def crValueStop (c : Core) (sel : Nat) (v : Word) : Option Stop := (c.crRange sel v).map (fun code => .fault code 0 0)

/-- A control register as CRRD reads it: AMAX during a drain shows some prefix of its rows (R330). -/
def crSample (s : State) (sel : Nat) : State := if sel = 0x022 then advanceDrain s s.core.num else s

/-- CRRD: sampled at issue (R236). -/
def execCrrd (f : SsysW) (s : State) : Res :=
  let s1 := crSample s f.sel
  runNext s1 (.crrd f) false [.ctl] f.ramp [] [dueAt s1 1 f.ramp (dstLand f.d 0 64 (crRead s1 f.sel) 0)]
    (crStop s.core f.sel false) 64 (fun s => onCore s (·.chargeDst f.d 64))

/-- The charge of a control-register write: the unit's registers to EBITS, the handler's to XEBITS (R241). -/
def Core.chargeCr (c : Core) (sel : Nat) : Core := if sel < 0x100 then c.erase 64 false else c.eraseX 64

/-- CRWR, CRSET and CRCLR of a register other than UHTOP: the register becomes v at the due tick (R236). -/
def runCrWrite (s : State) (i : Instr) (f : SsysW) (v : Word) : Res :=
  runNext s i false [.ctl] f.ramp [f.a] [dueAt s 1 f.ramp (.creg (s.core.crLand f.sel) v)]
    ((crStop s.core f.sel true).or (crValueStop s.core f.sel v)) 64 (fun s => onCore s (·.chargeCr f.sel))

/-- CRWR (R236). -/
def execCrwr (f : SsysW) (s : State) : Res := runCrWrite s (.crwr f) f (srcVal s f.a)
/-- CRSET (R236). -/
def execCrset (f : SsysW) (s : State) : Res := runCrWrite s (.crset f) f (crRead s f.sel ||| srcVal s f.a)
/-- CRCLR (R236). -/
def execCrclr (f : SsysW) (s : State) : Res := runCrWrite s (.crclr f) f (crRead s f.sel &&& ~~~srcVal s f.a)

/-- CRSWP exchanges a scalar and a control register; nothing is charged (R236). -/
def execCrswp (f : SsysW) (s : State) : Res :=
  let v := srcVal s f.d
  runNext s (.crswp f) false [.ctl] f.ramp [f.d]
    [dueAt s 1 f.ramp (.creg (s.core.crLand f.sel) v), dueAt s 1 f.ramp (.sreg f.d 0 64 (crRead s f.sel))]
    ((crStop s.core f.sel true).or (crValueStop s.core f.sel v)) 128 id

/-- The value a write of UHTOP leaves (R236). -/
def uhtopValue (s : State) (how : CrWrite) (f : SsysW) : Word :=
  match how with
  | .wr => srcVal s f.a
  | .swp => srcVal s f.d
  | .set => crRead s 0x119 ||| srcVal s f.a
  | .clr => crRead s 0x119 &&& ~~~srcVal s f.a

/-- UHTOP_WRITE: the handler drops the unit's history from u upward, charged to EBITS (R170, R241). -/
def execUhtopWrite (how : CrWrite) (f : SsysW) (s : State) : Res :=
  let u := uhtopValue s how f
  let swap := if how = .swp then [dueAt s 1 f.ramp (.sreg f.d 0 64 (crRead s 0x119))] else []
  runNext s (.uhtopWrite how f) false [.ctl] f.ramp [if how = .swp then f.d else f.a]
    (dueAt s 1 f.ramp (.creg 0x119 u) :: swap) ((crStop s.core 0x119 true).or (crValueStop s.core 0x119 u))
    (if how = .swp then 128 else 64) (fun s => onCore s (fun c => c.erase (c.ut.top - u.toNat) false))

/-- The record of an event (R171, R407). -/
def eventRec (code detail : Nat) : FaultRec := { FaultRec.none with code := code, kind := 3, detail := BitVec.ofNat 64 detail }

/-- SAFEPT: with XSTAT.PRE set in the unit view the unit stops at the boundary after it (R238). -/
def execSafept (f : SsysW) (s : State) : Res :=
  runNext s (.safept f) false [.ctl] f.ramp [] [] none 0 fun s' =>
    if s.core.pre ∧ s.core.view = .unit then
      onCore s' fun c => { c with
        livemap := f.sel
        trap := some {
          fr := eventRec 0x21 0, xpc := c.pc, at_ := s.bed.btick + rampK f.ramp, stop := true, terminal := false } }
    else s'

/-- A debug halt of a bed is asked for (R181); it takes hold at the tick boundary. -/
def haltBed (s : State) (b : Nat) (park : Bool) : State := modBed s b (fun d => { d with halt := true, park := park })

/-- DBGBRK: a debug halt of its bed at the boundary after it, where the launch enables debug (R239). -/
def execDbgbrk (f : SsysW) (s : State) : Res :=
  runNext s (.dbgbrk f) false [.ctl] f.ramp [] [] none 0 fun s' =>
    if s.core.dbg then haltBed s' s.core.bedNum false else s'

/-- A parked entry tries again (R239, R253). -/
def EQueue.retry (q : EQueue) : EQueue :=
  { q with es := q.es.map (fun e => if e.ph = .parked then { e with ph := .running } else e) }

/-- A line of the park log stands for an entry of a job that is parked now. -/
def Park.ofJob (s : State) (job : Nat) (p : Park) : Bool :=
  let c := getCore s p.core
  c.job = job && c.run != .idle && (c.queue p.queue).es.any (fun e => e.ph == .parked && e.seq == p.seq)

/-- Every parked access of a job in the package retries, in the order in which they parked (R253). -/
def retryJob (s : State) (job : Nat) : State :=
  let ps := s.lsc.parks.filter (Park.ofJob s job)
  let s1 := ps.foldl (fun (s : State) p => modCore s p.core (fun c => c.setQueue p.queue (c.queue p.queue).retry)) s
  { s1 with agenda := s1.agenda ++ ps.map (fun p => .engineEntryStart p.core p.queue) }

/-- REPLAY (R239). -/
def execReplay (f : SsysW) (s : State) : Res :=
  runNext s (.replay f) true [.ctl] f.ramp [] [] none 0 (fun s' => retryJob s' s.core.job)

/-- DONE (R240, R179): pending attributed faults are delivered first; then the unit ends, its trug charged. Its handles are
freed with its last entry, as entries still to start need theirs. -/
def execDone (f : SsysW) (s : State) : Res :=
  let own := deliverStop s.core.firstFault
  runNext s (.done f) false [.ctl] f.ramp [] [] own 0 fun s' =>
    onCore s' fun c =>
      let c1 := (c.erase c.ut.depth false).eraseX c.st.depth
      { c1 with
        run := .ended, endStatus := 0, endCode := 0, handles := if c1.busyQueues then c1.handles else []
        ut := { c1.ut with bits := 0, top := c1.ut.base }, st := { c1.st with bits := 0, top := c1.st.base } }

/-- KILL ends the unit at once, in the system view only (R240). -/
def execKill (f : SsysW) (s : State) : Res :=
  let code := s.core.xcause.toNat % 256
  runNext s (.kill f) true [.ctl] f.ramp [] [] none 0 fun s' =>
    onCore s' (·.kill (killStatus code) code 0 ((tget 0 s.core.xrec 7).toNat % 2 ^ 32))

/-- TRAP_ENTRY: the trap that waits at the focused core is taken once everything has fallen due (R172). -/
def execTrapEntry (s : State) : Res :=
  let t := s.bed.btick
  match s.core.trap with
  | some r => if r.at_ ≤ t ∧ s.core.drained t ∧ !r.stop then .next (onCore s (·.takeTrap r t)) else .next s
  | none => .next s

/-- PREEMPTION_STOP: the unit stops after its SAFEPT (R238, R409). -/
def execPreemptionStop (s : State) : Res :=
  let t := s.bed.btick
  match s.core.trap with
  | some r => if r.at_ ≤ t ∧ s.core.drained t ∧ r.stop then .next (onCore s (·.takeTrap r t)) else .next s
  | none => .next s

/-- The registers a word's fields name as sources, whatever else is wrong with it (R175): of a reserved AOP or CM those
its format has (R76, R78, R350). -/
def wordSrcs (w : Nat) : List Nat :=
  match rawDecode w with
  | some i => sourcesOf i
  | none =>
    let e : EregW := .ofWord w
    let a : SatmW := .ofWord w
    if opOf w = 0x98 ∨ opOf w = 0xA0 then [e.a, e.b, e.c] else if opOf w = 0x39 then [a.a, a.b] else []

/-- A precise fault of a word that did not decode, its sources recorded as they read now (R84, R175). -/
def wordFault (s : State) (w : Nat) (code : Nat) : State :=
  onCore s fun c =>
    let op (k : Nat) : Word := match (wordSrcs w)[k]? with | some n => c.src s.bed.btick n | none => 0
    c.raise { FaultRec.none with code := code, ipc := c.pc, word := BitVec.ofNat 64 w, opa := op 0, opb := op 1, opc := op 2 }
      c.pc (refusedAt s)

/-- ILLEGAL_INSTRUCTION: a word of R83 raises 0x01 and has no effect. -/
def execIllegalInstruction (w : Word) (s : State) : Res := .next (wordFault s w.toNat 0x01)

/-- Why the word at the focused core's PC cannot be fetched (R205, R245, R250): the fault code and its XREC7.
DEDUCED, safe: log 67. The rules do not say what a fetch from an absent extent does: ABS is ignored, and the word comes from the
frames at PBASE (DESIGN CHOICE, unsafe: log 91). -/
def fetchStop (s : State) : Option (Nat × Nat) :=
  let c := s.core
  let va := c.pc.toNat
  if va % 8 ≠ 0 then some (0x0E, 0)
  else match findExt c.extents va with
    | none => some (0x0C, 0)
    | some e =>
      if !e.ex then some (0x0D, 0)
      else match places s c va 8 false with
        | .error f => some f
        | .ok ps => match readPlaces s ps with | .ok _ => none | .error _ => some (0x1B, 0)

/-- The word at the focused core's PC. -/
def fetchWord (s : State) : Nat :=
  match readPlaces s (placesOf s s.core s.core.pc.toNat 8 false) with
  | .ok bs => leNat bs
  | .error _ => 0

/-- FETCH_FAULT: a fetch that fails raises a precise fault at that word (R205). -/
def execFetchFault (s : State) : Res :=
  match fetchStop s with
  | some f =>
    .next (onCore s fun c => c.raise
      { FaultRec.none with code := f.1, ipc := c.pc, addr := c.pc, detail := BitVec.ofNat 64 f.2 } c.pc (refusedAt s))
  | none => .next s

end Sys2Proof.Machine
end

