-- ==== Sys2Proof/Machine/Replies.lean ====
section
/-! DEFINITION. What reaches a core from memory and from its neighbours: room in the post buffer (R211), replies
(R210), acknowledgements and what they release (R141, R217, R218, R223, R224), remote timeouts (R142), words landing
in its ports (R33, R221). -/

namespace Sys2Proof.Machine

/-- The accesses that stand in the post buffer (R211). -/
def Core.inBuffer (c : Core) : List Access := c.accs.filter (fun a => !a.left && !a.isMark)

/-- How many of its places they take: the elements of a group share one (R297). The rules do not say whether the seed log's
writes and loads take places; in the model they take none (DESIGN CHOICE, unsafe: log 95). -/
def Core.bufferLoad (c : Core) : Nat := ((c.inBuffer.filter (fun a => !a.isSeed)).map (·.grp)).dedup.length

/-- An access of a core by its number. -/
def Core.access (c : Core) (id : Nat) : Option Access := c.accs.find? (fun a => a.id = id)

/-- An access leaves the record of a core. -/
def Core.dropAcc (c : Core) (id : Nat) : Core := { c with accs := c.accs.filter (fun a => a.id ≠ id) }

/-- POST_BUFFER_ROOM: the oldest access that no fence holds leaves the buffer for its home (R119-R121, R140, R211). -/
def execPostBufferRoom (core : Nat) (s : State) : Res :=
  let c := getCore s core
  match c.inBuffer.find? (fun a => !c.fenced a) with
  | some a => .next (setCore s { c with accs := c.accs.map (fun x => if x.id = a.id then { x with left := true } else x) })
  | none => .next s

/-- An access that ends with a reply: a load, an atomic, or an exchange that writes a register. -/
def Access.wantsReply (a : Access) : Bool := a.kind = .load || a.kind = .atomic || (a.kind = .rmw && a.due ≠ 0)

/-- MEMORY_REPLY: the reply of an access is in; its result waits for its due tick only (R210, R141). -/
def execMemoryReply (core id : Nat) (s : State) : Res :=
  let c := getCore s core
  match c.access id with
  | some a => if a.wantsReply && !c.fenced a then .next (setCore s (c.dropAcc id)) else .next s
  | none => .next s

/-- WRITE_ACKNOWLEDGEMENT: a home has acknowledged a write (R141), an expectation, which it takes now (R223), or an arrival,
counted now where it had to wait (R224); a FENCE is complete (R217); a TMARK sets its token (R218). -/
def execWriteAcknowledgement (core id : Nat) (s : State) : Res :=
  let c := getCore s core
  match c.access id with
  | none => .next s
  | some a =>
    let gone := c.dropAcc id
    let bed := getBed s c.bedNum
    match a.kind with
    | .store => .next (if c.fenced a then s else setCore s gone)
    | .rmw => .next (if a.due ≠ 0 || c.fenced a then s else setCore s gone)
    | .fence => .next (if c.coveredGone bed.stall a then setCore s gone else s)
    | .tmark => .next (if c.coveredGone bed.stall a then setCore s (gone.setToken a.tok) else s)
    | .expect => .next (if bed.bwall < a.due || c.fenced a then s else landExpect (setCore s gone) core a)
    | .arrive =>
      if a.due ≠ 0 then .next (setCore s gone)
      else .next (if c.mayArrive bed.stall a then landArrival (setCore s gone) core a else s)
    | _ => .next s

/-- The opcode of the word of an access. -/
def Access.opcode (a : Access) : Nat := a.word.toNat / 2 ^ 56

/-- A result that a timed-out load or atomic leaves: 0 for what memory would have given (R142), which LDX and VLDX
xor into their destination. DEDUCED, unsafe: log 49. -/
def Land.timedOut (a : Access) : Land → Land
  | .sreg n lo len _ => .sreg n lo len (if a.opcode = 0x35 then a.opa else 0)
  | .push q _ => .push q (if a.opcode = 0x35 then a.opa else 0)
  | .vcol r j l => .vcol r j (if a.opcode = 0x51 then [] else l.map (fun x => (x.1, x.2.1, 0)))
  | .pat p bs => .pat p (bs.map (fun _ => 0))
  | .cell _ => .nothing
  | l => l

/-- Each byte of a timed-out write holds its prior or its written value; later writes stand (R142). -/
def revertBytes (s : State) : List (Tgt × Byte × Nat) → State
  | [] => s
  | (t, old, n) :: r =>
    let d := drawFree s
    let w := (writeTgts d.1 [(t, old)]).1
    revertBytes (if d.2.getLsbD 0 && writesOf s t = n then { w with writes := tset 0 w.writes t.key (n - 1) } else d.1) r

/-- An event at a sync word of another package that got no acknowledgement has been applied or not, a free choice; what a later
event or write left stands (R142). -/
def revertSync (s : State) (a : Access) : State :=
  let d := drawFree s
  if a.kind = .expect then (if d.2.getLsbD 0 then (syncAt d.1 .expect a.pa a.opb.toNat).1 else d.1)
  else if a.kind = .arrive && a.due = 0 then (if d.2.getLsbD 0 then (syncAt d.1 .land a.pa a.opb.toNat).1 else d.1)
  else if d.2.getLsbD 0 && a.undo.all (fun x => writesOf s x.1 = x.2.2) then
    (writePlaces d.1 (a.undo.map (fun x => (.one x.1, x.2.1)))).1
  else d.1

/-- A quota trap of an access's word that waits for its tick no longer counts n bits that the word will not charge (R242). -/
def TrapReq.less (r : TrapReq) (a : Access) (n : Nat) : TrapReq :=
  if r.fr.code = 0x08 && r.fr.order = a.order && r.fr.ipc = a.pc then { r with fr := { r.fr with detail := r.fr.detail - BitVec.ofNat 64 n } } else r

/-- An access of a core to another package has not been acknowledged 2 ms after issue (R142). A SYEXP that waits for it ends its
wait with no fault of its own: R142 counts the access as acknowledged for FENCE and TMARK, and the model for SYEXP too (DESIGN
CHOICE, unsafe: log 94). -/
def accessTimeout (core id : Nat) (s : State) : Res :=
  let c := getCore s core
  match c.access id with
  | none => .next s
  | some a =>
    if !a.remote then .next s
    else
      let lost := owedCells (c.pend.filter (fun p => p.acc = id))
      let c1 : Core := { (c.dropAcc id).addPending (accRec a 0x1E a.addr 0 a.mask) with
        pend := c.pend.map (fun p => if p.acc = id then { p with land := p.land.timedOut a, acc := 0 } else p)
        trap := c.trap.map (·.less a lost), deferred := c.deferred.map (·.less a lost) }
      let s1 := setCore s c1
      match a.kind with
      | .expect | .arrive => .next (revertSync s1 a)
      | _ => .next (revertBytes s1 a.undo)

/-- The words on their way to a core's ports that may land: those pushed before wall tick w of their bed. -/
def landFlights (c : Core) (w : Nat) : Core :=
  let now := c.flights.filter (fun f => f.wt < w)
  let c1 := now.foldl (fun c f =>
    c.setPort f.port (c.port f.port ++ [{ v := f.v, ready := f.bt + 2, q := 0, seq := 0 }])) c
  { c1 with flights := c.flights.filter (fun f => !(f.wt < w)) }

/-- NEIGHBOUR_WORD_LANDING: every word on its way to the core's ports lands (R33, R221). -/
def execNeighbourWordLanding (core : Nat) (s : State) : Res :=
  .next (modCore s core (fun c => landFlights c ((getBed s (core / 8)).bwall + 1)))

end Sys2Proof.Machine
end

