-- ==== Sys2Proof/Machine/Engines.lean ====
section
/-! DEFINITION. The course of an entry in the copy, graft and bank engines: start, running, parking, tag posting,
the words it pushes, its end (R25, R125, R252, R273, R277, R366), and the events that carry it. -/

namespace Sys2Proof.Machine

/-! ### Parking (R252, R253) -/

/-- The log's lines without that of one entry. -/
def Lsc.unpark (l : Lsc) (n : Nat) (q : EngQ) (e : Entry) : Lsc :=
  { l with parks := l.parks.filter (fun x => !(x.core = n && x.queue = q && x.seq = e.seq)) }

/-- An entry parks at an address: a page request goes to the LSC, and its log counts the fault, one line per parked entry,
in the order in which they parked. -/
def parkEntry (s : State) (n : Nat) (q : EngQ) (e : Entry) (va : Nat) : State :=
  let s1 := modCore s n fun c =>
    { c.setHead q { e with ph := .parked, parks := e.parks + 1, parkAddr := va } with
      extents := c.extents.map fun x =>
        if x.vbase ≤ va ∧ va < x.vbase + x.len then { x with requested := true } else x }
  let p : Park := { core := n, queue := q, seq := e.seq, addr := va, count := e.parks + 1 }
  let l := s1.lsc.unpark n q e
  { s1 with lsc := { l with parks := l.parks ++ [p] } }

/-! ### The end of an entry -/

/-- The words an entry pushes as it ends with a code. -/
def endWords (c : Core) (q : EngQ) (e : Entry) (code : Nat) : List Word :=
  match q with
  | .copy => if copyStat e.i then [copyStatus c e code] else []
  | .graft => graftWords c e code
  | .bank => bankWords c e code
  | .trellis => []

/-- The head of a queue has run to its end, or to a fault: its words wait for its port, the fault is recorded before any of
them can be popped (R176), and the park log drops its line. -/
def endRun (s : State) (n : Nat) (q : EngQ) (e : Entry) (code addr detail : Nat) : State :=
  let s1 := modCore s n fun c => c.endHead q e code addr detail (endWords c q e code)
  { s1 with lsc := s1.lsc.unpark n q e }

/-- An ended entry whose words are pushed completes, or ends in its recorded fault, with its charges (R160, R278, R358,
R383). -/
def finishEntry (s : State) (n : Nat) (q : EngQ) (e : Entry) : State :=
  let c := getCore s n
  let good := e.code = 0
  match q with
  | .copy =>
    let k := copyCharge e
    let s1 := if (copyStat e.i && e.lay.isEmpty) || !dhOf e.recNat || copyHold e.i then s
              else setCore s (c.setHandle (fld e.recNat 576 5) .full)
    if good then completeEntry s1 n q e 0 k.1 k.2 else endFailed s n q e k.1 k.2
  | .graft => if good then graftDone s n e else graftFailed s n e
  | .bank => if good then completeEntry s n q e 0 e.bits e.work else endFailed s n q e e.bits e.work
  | .trellis => s

/-- What a run of an entry came to: it ended, it parks, it faults, or it may not go on. -/
def settle (s0 : State) (n : Nat) (q : EngQ) (x : State × Entry × ERes Unit) : State :=
  let s := modCore x.1 n (fun c => c.setHead q x.2.1)
  match x.2.2 with
  | .ok _ => s
  | .park v => parkEntry s n q x.2.1 v
  | .fault c a d | .spoilt _ c a d => endRun s n q x.2.1 c a d
  | .barred => s0

/-! ### Running -/

/-- Whole bytes of a tagged entry's finished rows that are not yet posted (R273). -/
def untold (e : Entry) : Nat := e.pos * widthOf e.recNat / 8 - e.posted

/-- A copy stands at the end of a row. -/
def atRowEnd (e : Entry) : Bool := e.pos % cntOf e.recNat 0 = 0

/-- A tagged copy has a finished row to post. -/
def owesPosting (e : Entry) : Bool := e.tagVa.isSome && atRowEnd e && untold e ≠ 0

/-- A copy entry runs by a row at a time, and a tagged one not on before its row is posted. -/
def runCopyEntry (s : State) (n : Nat) (e : Entry) : State :=
  let all := totalOf e.recNat
  if owesPosting e then s
  else if all ≤ e.pos then endRun s n .copy e 0 0 0
  else
    let x := copyRow s n e
    match x.2.2 with
    | .ok _ => if e.tagVa.isNone ∧ all ≤ x.2.1.pos then endRun x.1 n .copy x.2.1 0 0 0 else settle s n .copy x
    | _ => settle s n .copy x

/-- A graft entry runs by a batch row at a time. -/
def runGraftEntry (s : State) (n : Nat) (e : Entry) : State :=
  let c := getCore s n
  let row := graftRow c e
  let x := graftRun s n e (row - e.pos % row)
  match x.2.2 with
  | .ok _ =>
    if graftTotal c e ≤ x.2.1.pos then
      let k := graftCode (getCore x.1 n) x.2.1
      endRun x.1 n .graft x.2.1 k.1 0 k.2
    else settle s n .graft x
  | _ => settle s n .graft x

/-- A debug halt holds the running copy or graft entry of a core at a row boundary; mid-row it goes on to one, and a
finished row is posted first (R181, R283, R361). -/
def holdEngine (s : State) (n : Nat) (q : EngQ) : State :=
  let c := getCore s n
  match c.head q with
  | some e =>
    let edge := match q with
      | .copy => atRowEnd e && !owesPosting e
      | .graft => e.pos % graftRow c e = 0
      | _ => false
    if e.ph = .running && edge then modCore s n (fun c => c.setHead q { e with ph := .held }) else s
  | none => s

/-- Every member of an instance is through a stage, counting this one. -/
def stageFull (s : State) (job cgid k n stage : Nat) : Bool :=
  n ≤ ((groupMembers s job cgid).filter (fun c => collThrough c cgid k stage)).length

/-- A member of a collective instance goes as far as it can in a stage: its own pieces, then the next stage, which it enters
together with the others where it needs what they do in this one (R150). -/
def runColl (s : State) (n : Nat) (e : Entry) (x : Coll) (g : CGroup) : State :=
  let c := getCore s n
  let stage := e.shown / 2
  let stop (s : State) (e : Entry) (y : ERes Unit) : State :=
    let s1 := modCore s n (fun c => c.setHead .bank e)
    match y with
    | .park v => parkEntry s1 n .bank e v
    | .fault k a d | .spoilt _ k a d => collFault s1 n e x k a d
    | _ => s
  if stage = 6 then
    let r := collTag s n x g
    match r.2 with
    | .ok _ => endRun r.1 n .bank e 0 0 0
    | y => stop r.1 e y
  else
    let y := if e.shown % 2 = 1 then (s, e, ERes.ok ()) else collRun s n x g e (collPieces x g e - e.pos)
    match y.2.2 with
    | .ok _ =>
      let s1 := modCore y.1 n (fun c => c.setHead .bank { y.2.1 with shown := 2 * stage + 1 })
      if collCommon x stage then (if stageFull s1 c.job x.cgid e.inst g.n stage then collAdvance s1 c.job x.cgid e.inst stage else s1)
      else collSolo s1 n x g stage
    | .barred => s
    | z => stop y.1 y.2.1 z

/-- A bank entry runs. -/
def runBankEntry (s : State) (n : Nat) (e : Entry) : State :=
  match e.coll with
  | some x => match (getCore s n).group x.cgid with | some g => runColl s n e x g | none => s
  | none =>
    let x := bankRun s n e (bankTotal e)
    match x.2.2 with
    | .ok _ => endRun x.1 n .bank x.2.1 0 0 0
    | _ => settle s n .bank x

/-- A running entry goes on. -/
def runEntry (s : State) (n : Nat) (q : EngQ) (e : Entry) : State :=
  match q with
  | .copy => runCopyEntry s n e
  | .graft => runGraftEntry s n e
  | .bank => runBankEntry s n e
  | .trellis => s

/-! ### Start (R125, R272, R348, R357, R277, R382) -/

/-- A word that only reports its queue. -/
def isStatWord (i : Instr) : Bool :=
  match i with
  | .cpstat _ | .gstat _ | .gstatInfo _ | .bstat _ | .bstatInfo _ => true
  | _ => false

/-- A status word reaches the head: its words are made, and the queue's FLT starts anew. -/
def startStat (s : State) (n : Nat) (q : EngQ) (e : Entry) : State :=
  let s1 := modCore s n fun c => c.setHead q (e.ends 0 0 0 (endWords c q e 0))
  modCore s1 n fun c => c.setQueue q { c.queue q with flt := false }

/-- The start checks of an entry: code, XREC6, XREC7. -/
def startCheck (c : Core) (q : EngQ) (e : Entry) : Option (Nat × Nat × Nat) :=
  match q with
  | .copy => copyCheck c e
  | .graft => graftCheck c e
  | _ => none

/-- An entry that would reach another package before its gang commits does not start (R227). -/
def barredStart (s : State) (n : Nat) (q : EngQ) (e : Entry) : Bool :=
  let c := getCore s n
  if c.gang = 0 then false
  else match q, e.coll with
    | .bank, some x => match c.group x.cgid with | some g => collBarred s c x g e | none => false
    | .bank, none => match (bankRun s n e (bankTotal e)).2.2 with | .barred => true | _ => false
    | .copy, _ => if isStatWord e.i then false else match (copyRows s n e (totalOf e.recNat)).2.2 with | .barred => true | _ => false
    | .graft, _ =>
      match (graftRun (setCore s (graftBegin c e)) n e (graftTotal (graftBegin c e) e)).2.2 with | .barred => true | _ => false
    | .trellis, _ => false

/-- An entry starts. -/
def beginEntry (s : State) (n : Nat) (q : EngQ) (e : Entry) : State :=
  let c := getCore s n
  let full : Bool := match graftOp e.i with | some op => c.handle op.h = .full | none => false
  let joined : Bool := q == .bank && e.coll.isSome
  let e1 := { e with ph := .running, start := btOf s n, shown := if full || joined then 1 else 0 }
  let c1 := if q = .graft then graftBegin c e else c
  let s1 := setCore s (c1.setHead q e1)
  if joined then
    match e.coll, c.group ((e.coll.map (·.cgid)).getD 0) with
    | some x, some g => if stageFull s1 c.job x.cgid e.inst g.n 0 then collAdvance s1 c.job x.cgid e.inst 0 else s1
    | _, _ => s1
  else runEntry s1 n q e1

/-- The bed of a core is halted with the request that its engines park (R181). -/
def enginesHeld (s : State) (n : Nat) : Bool :=
  let b := getBed s (n / 8)
  b.halt && b.park

/-- The engine takes nothing up now: a parking halt holds the copy and graft engines (R181). -/
def engineHeld (s : State) (n : Nat) (q : EngQ) : Bool := enginesHeld s n && (q == .copy || q == .graft)

/-- ENGINE_ENTRY_START: the head starts once its consumed tokens are set, or goes on with its walk (R125). -/
def execEngineEntryStart (core : Nat) (q : EngQ) (s : State) : Res :=
  let c := getCore s core
  match c.head q with
  | none => .next s
  | some e =>
    if q = .trellis then .next s
    else match e.ph with
      | .running =>
        let s1 := if engineHeld s core q then holdEngine s core q else s
        .next (if (getCore s1 core).head q = some e then runEntry s1 core q e else s1)
      | .waiting =>
        if engineHeld s core q || !c.tokensSet e.tokens.kcs || (q == .graft && !graftReady c e) then .next s
        else if isStatWord e.i then .next (startStat s core q e)
        else match startCheck c q e with
          | some f => .next (endRun s core q e f.1 f.2.1 f.2.2)
          | none => if barredStart s core q e then .next s else .next (beginEntry s core q e)
      | _ => .next s

/-- SYNC_TAG_POSTING: the bytes of a finished row enter COUNT of the entry's sync word; an overshoot ends the entry
(R273, R148). -/
def execSyncTagPosting (core : Nat) (s : State) : Res :=
  let c := getCore s core
  match c.head .copy with
  | none => .next s
  | some e =>
    let va := e.tagVa.getD 0
    let bytes := untold e
    if e.ph ≠ .running || !owesPosting e then .next s
    else match tagPlace s c va with
      | .ok pa =>
        let r := syncAt s .land pa bytes
        if r.2 = 0 then .next (modCore r.1 core (fun c => c.setHead .copy { e with posted := e.posted + bytes }))
        else if r.2 = 0x1B then .next (endRun r.1 core .copy e 0x1B (badAt s pa va) 0)
        else .next (endRun r.1 core .copy e r.2 va bytes)
      | .fault k a d | .spoilt _ k a d => .next (endRun s core .copy e k a d)
      | .park v => .next (parkEntry s core .copy e v)
      | .barred => .next s

/-- STATUS_WORD_PUSH: the next word that the head of a queue holds goes to its port when there is room (R33). -/
def execStatusWordPush (core : Nat) (q : EngQ) (s : State) : Res := .next (pushOut s core q)

/-- The words of an ended entry go out as far as there is room. -/
def pushAll (s : State) (n : Nat) (q : EngQ) : Nat → State
  | 0 => s
  | m + 1 => pushAll (pushOut s n q) n q m

/-- ENGINE_ENTRY_COMPLETION: an entry that has run pushes its words, then completes and sets its token, or ends in its
fault (R125, R176). -/
def execEngineEntryCompletion (core : Nat) (q : EngQ) (s : State) : Res :=
  match (getCore s core).head q with
  | none => .next s
  | some e =>
    if e.ph ≠ .pushing then .next s
    else
      let s1 := pushAll s core q 3
      match (getCore s1 core).head q with
      | some e1 => if e1.out.isEmpty then .next (finishEntry s1 core q e1) else .next s1
      | none => .next s1

/-- SYNC_WORD_EVENT: an expectation or landed bytes at a sync word (R36, R37). -/
def execSyncWordEvent (ev : SyncEv) (addr n : Nat) (s : State) : Res :=
  .next (syncAt s ev addr n).1

/-- The LSC issues REPLAY once it has serviced every request of a job (R253). DEDUCED, safe: log 51. -/
def replayServiced (s : State) (job : Nat) : State :=
  if (s.core :: s.others).any (fun c => c.job = job && c.run != .idle && c.extents.any (·.requested)) then s else retryJob s job

/-- PAGE_SERVICED: the LSC has filled an absent extent's frames (R251), or cannot, and ends the entries parked in it with
extent, XREC7 = 3 (R253). -/
def execPageServiced (core extent : Nat) (ok : Bool) (s : State) : Res :=
  let c := getCore s core
  match c.extents[extent]? with
  | none => .next s
  | some x =>
    if !x.abs || x.serviced then .next s
    else if ok then
      .next (replayServiced
        (setCore s { c with extents := c.extents.set extent { x with serviced := true, requested := false } }) c.job)
    else
      let s1 := setCore s { c with extents := c.extents.set extent { x with requested := false } }
      .next ([EngQ.copy, .graft, .bank].foldl (fun s q =>
        match (getCore s core).head q with
        | some e =>
          if e.ph = .parked ∧ x.vbase ≤ e.parkAddr ∧ e.parkAddr < x.vbase + x.len then
            match q, e.coll with
            | .bank, some y => collFault s core e y 0x0C e.parkAddr 3
            | _, _ => endRun s core q e 0x0C e.parkAddr 3
          else s
        | none => s) s1)

/-! ### Remote timeouts (R142, R280, R360, R384) -/

/-- A head starts or goes on: with its row's posting where one is due, else with its walk. -/
def goOn (s : State) (n : Nat) (q : EngQ) (e : Entry) : State :=
  let post := q = .copy ∧ e.ph = .running ∧ owesPosting e
  match (if post then execSyncTagPosting n s else execEngineEntryStart n q s) with | .next t => t | _ => s

/-- The bytes of one access of a bank entry's step. -/
def bankSpan (e : Entry) : Nat :=
  match e.coll with
  | some x => if e.shown / 2 = 2 then bankEs x.fmt else if e.shown / 2 = 6 then 16 else 8
  | none => match e.i with
    | .bred f => bankEs (f.md / 8 % 8)
    | .bdig _ => 16
    | _ => match batomOp e.i with | some op => aopLen op | none => 8

/-- What an entry's walk writes with its next step alone; the bytes an access of it covers. -/
def oneStep (s : State) (n : Nat) (q : EngQ) (e : Entry) : State × Nat :=
  let r := e.recNat
  let ok (x : ERes State) : State := match x with | .ok t => t | _ => s
  match q with
  | .copy =>
    if owesPosting e then (goOn s n q e, 16)
    else match e.i with
      | .cpyt _ => (ok (cpytRow s n e.i r (e.pos / cntOf r 0 * cntOf r 0)), (widthOf r + 7) / 8)
      | _ => (ok (copyEl s n e.i r ((e.cap.getD 0 0).toNat) e.pos), (widthOf r + 7) / 8)
  | .graft => (ok (graftEl s n e e.pos), if graftBf e.i then 2 else 4)
  | .bank =>
    match e.coll, (getCore s n).group ((e.coll.map (·.cgid)).getD 0) with
    | some x, some g =>
      (if e.shown / 2 = 6 then (collTag s n x g).1 else ok ((collPiece s n x g e).bind (fun y => .ok y.1)), bankSpan e)
    | _, _ => (ok ((bankEl s n e).bind (fun y => .ok y.1)), bankSpan e)
  | .trellis => (s, 0)

/-- Each byte of a timed-out write to another package holds its prior value or that of t, in which the write was made (R142): a
free choice, byte by byte. DESIGN CHOICE, safe: log 53. -/
def mixBytes (s t : State) (ps : List Place) : State :=
  ps.foldl (fun (s : State) p =>
    let d := drawFree s
    match readPlace t p with
    | some b => if paPkg p.pa ≠ s.plat.pkg && d.2.getLsbD 0 then (writePlaces d.1 [(p, b)]).1 else d.1
    | none => d.1) s

/-- The places of the access at va that an entry's next step writes: a copy's stand where its swizzle puts them (R267). -/
def cutPlaces (s : State) (n : Nat) (q : EngQ) (e : Entry) (va len : Nat) : List Place :=
  let r := e.recNat
  let src := (elSpan (bitOf r) (widthOf r) (srcAddr e.i r 0 e.pos)).1
  let back : Bool := match e.i with | .cpswp _ => va = src | _ => false
  let ps := placesOf s (getCore s n) va len true
  if q = .copy && !owesPosting e && rbit r (if back then 702 else 703) then ps.map (swzPlace r) else ps

/-- The head of a queue, running or about to, gets no answer to its access at va, to another package: it ends with remote timeout
there, and what a write of it left is free. -/
def entryTimeout (core : Nat) (q : EngQ) (va : Nat) (wr : Bool) (s : State) : Res :=
  match (getCore s core).head q with
  | none => .next s
  | some e =>
    if (e.ph ≠ .running ∧ e.ph ≠ .waiting) ∨ q = .trellis then .next s
    else
      let s1 := modCore (goOn (modCore s core (fun c => { c with cut := some (va, wr) })) core q e) core (fun c => { c with cut := none })
      match (getCore s1 core).head q with
      | none => .next s
      | some f =>
        if f.ph ≠ .pushing ∨ f.code ≠ 0x1E then .next s
        else if !wr then .next s1
        else
          let g : Entry := { f with ph := .running, code := 0, out := [] }
          let x := oneStep (modCore s1 core (fun c => c.setHead q g)) core q g
          .next (mixBytes s1 x.1 (cutPlaces s1 core q g va x.2))

/-- REMOTE_TIMEOUT: an access to another package has not been acknowledged 2 ms after issue (R142). -/
def execRemoteTimeout (core : Nat) (what : TimedOut) (s : State) : Res :=
  match what with
  | .access id => accessTimeout core id s
  | .entry q va wr => entryTimeout core q va wr s

end Sys2Proof.Machine
end

