-- ==== Sys2Proof/Machine/History.lean ====
section
/-! DEFINITION. The trug words HPUSH to HDROP and ERASE (R230-R234, R168, R169). -/

namespace Sys2Proof.Machine

/-- HPUSH: the low n bits of D move onto the trug (R231). -/
def execHpush (f : SsysW) (s : State) : Res :=
  let v := lowBits f.sel (srcVal s f.d)
  runNext s (.hpush f) false [.trug] f.ramp [f.d] [dueAt s 1 f.ramp (.sreg f.d 0 f.sel 0)] (s.core.pushStop f.sel)
    f.sel (fun s => onCore s (fun c => c.setTrug (c.trug.push v f.sel)))

/-- HPOP: n bits popped are xored into D (R231). -/
def execHpop (f : SsysW) (s : State) : Res :=
  let v := lowBits f.sel (srcVal s f.d) ^^^ (s.core.trug.pop f.sel).1
  runNext s (.hpop f) false [.trug] f.ramp [f.d] [dueAt s 1 f.ramp (.sreg f.d 0 f.sel (BitVec.ofNat 64 v))]
    (s.core.popStop f.sel) f.sel (fun s => onCore s (fun c => c.setTrug (c.trug.pop f.sel).2))

/-- The completion tick of a trug word that writes no register (R211): 2 + ceil(n / per) + k - 1. -/
def trugDue (s : State) (ramp n per : Nat) : Pend := dueAt s (2 + (n + per - 1) / per) ramp .nothing

/-- The checks of HSPILL and HFILL that need no memory, in the order of R232. An area that is not in the core's own scratchpad
raises R232's 0x0C with XREC7 = 0 even where its extent is read-only or absent, for which R207 gives 0x0D, or XREC7 = 1; the
permission of one that is comes after it (DESIGN CHOICE, unsafe: log 92). -/
def spillStop (s : State) (va n : Nat) (fill : Bool) : Option Stop :=
  let c := s.core
  let a := BitVec.ofNat 64 va
  let t := c.trug
  if n % 128 ≠ 0 ∨ n < 128 ∨ c.trugCap < n then some (.fault 0x02 0 0)
  else if va % 16 ≠ 0 then some (.fault 0x0E a 0)
  else match ownSpad s c va (n / 8), coreSpans c va (n / 8) with
    | some _, some l =>
      if l.any (fun x => !x.1.wr) then some (.fault 0x0D a 0)
      else if fill then
        if t.base < n then some (.fault 0x06 0 0)
        else if c.limits.any (t.base - n + c.trugCap < ·) then some (.fault 0x05 0 0)
        else none
      else if t.depth < n then some (.fault 0x06 0 0) else none
    | _, _ => some (.fault 0x0C a 0)

/-- The area's bytes, or the uncorrectable error that stops the word. -/
def readArea (s : State) (va len : Nat) : Except Stop (List Byte) :=
  match readPlaces s (placesOf s s.core va len false) with
  | .ok bs => .ok bs
  | .error k => .error (.fault 0x1B (BitVec.ofNat 64 (va + k)) 0)

/-- HSPILL and HFILL as one exchange (R168, R232). -/
def runSpill (s : State) (i : Instr) (f : SsysW) (fill : Bool) : Res :=
  let va := (srcVal s f.a).toNat
  let n := (srcVal s f.d).toNat
  let run (lands : List Pend) (own : Option Stop) (eff : State → State) : Res :=
    runNext s i false [.trug] f.ramp [f.a, f.d] lands own n eff
  match spillStop s va n fill with
  | some st => run [] (some st) id
  | none =>
    match readArea s va (n / 8) with
    | .error st => run [] (some st) id
    | .ok bs =>
      let dirty := bs.findIdx? (· ≠ 0)
      match (if fill then none else dirty) with
      | some k => run [] (some (.fault 0x0D (BitVec.ofNat 64 (va + k)) 1)) id
      | none =>
        let t := s.core.trug
        let ps := placesOf s s.core va (n / 8) true
        let out := if fill then 0 else t.bits % 2 ^ n
        let t' := if fill then { t with bits := t.bits * 2 ^ n + leNat bs, base := t.base - n }
                  else { t with bits := t.bits / 2 ^ n, base := t.base + n }
        let a := { mkAcc s i [f.a, f.d] .rmw 0 0 va 0 [] [] with runs := (ownSpad s s.core va (n / 8)).getD [] }
        run [trugDue s f.ramp n 1024] none
          (fun s' => performWrite (onCore s' (·.setTrug t')) a va ps out)

/-- HSPILL (R232). -/
def execHspill (f : SsysW) (s : State) : Res := runSpill s (.hspill f) f false
/-- HFILL (R232). -/
def execHfill (f : SsysW) (s : State) : Res := runSpill s (.hfill f) f true

/-- HMARK: HMm := HTOP (R233). -/
def execHmark (f : SsysW) (s : State) : Res :=
  runNext s (.hmark f) false [.trug] f.ramp [] [] none 0
    (fun s => onCore s (fun c => c.setTrug (c.trug.setMark f.sel c.trug.top)))

/-- HCHK: history-mark when HTOP differs from HMm (R233). -/
def execHchk (f : SsysW) (s : State) : Res :=
  let t := s.core.trug
  runNext s (.hchk f) false [.trug] f.ramp [] [] (if t.top ≠ t.mark f.sel then some (.fault 0x07 0 0) else none) 0 id

/-- HDROP: n bits dropped and charged (R233). -/
def execHdrop (f : SsysW) (s : State) : Res :=
  runNext s (.hdrop f) false [.trug] f.ramp [] [] (s.core.popStop f.sel) f.sel
    (fun s => onCore s (fun c => (c.setTrug (c.trug.pop f.sel).2).eraseReg f.sel))

/-- Physical runs set to zero, with any error in their code words cleared (R245). -/
def zeroRuns (s : State) (l : List (Nat × Nat)) : State :=
  l.foldl (fun t x => { t with
    mem := zeroN t.mem x.1 x.2
    ecc := t.ecc.filter (fun cw => !(x.1 ≤ cw && cw < x.1 + x.2)) }) s

/-- ERASE: zeros over b bytes of the core's own scratchpad, 8 b cell bits charged (R234). -/
def execErase (f : SsysW) (s : State) : Res :=
  let c := s.core
  let va := (srcVal s f.a).toNat
  let b := (srcVal s f.d).toNat
  let a := BitVec.ofNat 64 va
  let run (lands : List Pend) (own : Option Stop) (eff : State → State) : Res :=
    runNext s (.erase f) false [.trug] f.ramp [f.a, f.d] lands own (8 * b) eff
  if b % 16 ≠ 0 ∨ b < 16 ∨ 2097152 < b then run [] (some (.fault 0x02 0 0)) id
  else match addrStop s c va b 16 true false with
    | some st => run [] (some st) id
    | none =>
      match ownSpad s c va b with
      | none => run [] (some (.fault 0x0C a 0)) id
      | some runs =>
        let acc := { mkAcc s (.erase f) [f.a, f.d] .store 0 0 va 0 [] [] with runs := runs }
        run [trugDue s f.ramp b 2048] none
          (fun s' => onCore (postAcc (zeroRuns s' runs) acc) (·.erase (8 * b) true))

end Sys2Proof.Machine
end

