-- ==== Sys2Proof/Machine/Lsc.lean ====
section
/-! DEFINITION. The launch scheduler's records (R388-R398, R433), the ends of units, launches, graphs, phases and jobs
(R399-R402), and one meaning per record type. The ends happen one at a time (`settle`), each counter before its
record (R398). -/

namespace Sys2Proof.Machine

/-! ### Rails (R420, R421, R424) -/

/-- Phases of each rail and the amperes of each (R420): VCD0-VCD3, VMD0-VMD3, VIO, VSB. -/
def railOf (n : Nat) : Nat × Nat := if n < 4 then (8, 30) else if n < 8 then (4, 15) else if n = 8 then (6, 25) else (1, 2)

/-- The working phases of a rail. -/
def working (s : State) (n : Nat) : Nat := (railOf n).1 - tget 0 s.plat.phases n

/-- A rail is below one third of its full ILIM (R421). -/
def railDown (s : State) (n : Nat) : Bool := 3 * working s n < (railOf n).1

/-- The package answers over its ports: power is up, and VIO has not failed (R424, R429). -/
def answers (s : State) : Bool :=
  (s.plat.power == .ready || s.plat.power == .linked || s.plat.power == .tripped || s.plat.power == .recovery) && !railDown s 8

/-- The DRAM stack of a die can be reached (R424). -/
def dramUp (s : State) (die : Nat) : Bool := !railDown s (4 + die)

/-- The submission region can be reached: it lies in the stack of die 0 (R388). -/
def subUp (s : State) : Bool := dramUp s 0

/-! ### The submission region (R388, R396, R397) -/

/-- A word of the submission region. -/
def subRd (s : State) (off : Nat) : Nat := rd64 s.mem (s.plat.subbase + off)
/-- A word of the submission region written. -/
def subWr (s : State) (off v : Nat) : State := { s with mem := wr64 s.mem (s.plat.subbase + off) v }

/-- A job. -/
def getJob (s : State) (j : Nat) : Option Job := s.lsc.jobs.find? (fun x => x.num = j)
/-- A job replaced, or added. -/
def putJob (s : State) (x : Job) : State :=
  { s with lsc := { s.lsc with
      jobs := if s.lsc.jobs.any (fun y => y.num = x.num) then s.lsc.jobs.map (fun y => if y.num = x.num then x else y)
              else s.lsc.jobs ++ [x] } }

/-- A launch. -/
def getLaunch (s : State) (j l : Nat) : Option Launch := s.lsc.launches.find? (fun x => x.job = j ∧ x.lid = l)
/-- A launch replaced. -/
def setLaunch (s : State) (x : Launch) : State :=
  { s with lsc := { s.lsc with launches := s.lsc.launches.map (fun y => if y.job = x.job ∧ y.lid = x.lid then x else y) } }

/-- A graph (level 2) or phase (level 3) of which nothing is known yet; a graph no launch names has no phase. -/
def Group.fresh (level job num : Nat) : Group :=
  { level := level, job := job, num := num, phase := 2 ^ 32, count := none, ended := 0, failed := false, undone := false
    diverged := false, cancelled := false, stands := 0, isOver := false, ebits := 0, ej := 0 }

/-- A graph or phase. -/
def getGroup (s : State) (level job num : Nat) : Group :=
  (s.lsc.groups.find? (fun x => x.level = level ∧ x.job = job ∧ x.num = num)).getD (Group.fresh level job num)
/-- A graph or phase replaced, or added. -/
def putGroup (s : State) (x : Group) : State :=
  let same (y : Group) : Bool := y.level = x.level && y.job = x.job && y.num = x.num
  { s with lsc := { s.lsc with
      groups := if s.lsc.groups.any same then s.lsc.groups.map (fun y => if same y then x else y) else s.lsc.groups ++ [x] } }

/-- A counter of a job's page (R397); nothing changes in a stack whose rail has failed (R424), nor where no DRAM lies (R425,
R427). -/
def ctrWr (s : State) (x : Job) (off v : Nat) : State :=
  if !dramUp s (paDie x.jstat) || mcHolds s (x.jstat + off) 8 then s else { s with mem := wr64 s.mem (x.jstat + off) v }
/-- A counter advanced by one. -/
def ctrInc (s : State) (x : Job) (off : Nat) : State := ctrWr s x off (rd64 s.mem (x.jstat + off) + 1)

/-- A completion record joins those to be written (R396). -/
def queueRec (s : State) (r : CRec) : State := { s with lsc := { s.lsc with backlog := s.lsc.backlog ++ [r] } }

/-- The 256 bits of a completion record (R395). -/
def CRec.nat (r : CRec) : Nat :=
  r.level + r.status * 2 ^ 4 + r.code % 2 ^ 8 * 2 ^ 8 + r.code2 % 2 ^ 8 * 2 ^ 16 + r.job % 2 ^ 16 * 2 ^ 32 +
    r.unit % 2 ^ 8 * 2 ^ 48 + r.id % 2 ^ 32 * 2 ^ 64 + r.detail % 2 ^ 32 * 2 ^ 96 + r.ebits % 2 ^ 64 * 2 ^ 128 +
    r.ej % 2 ^ 64 * 2 ^ 192

/-- The next record may be written (R396). -/
def recordRoom (s : State) : Bool := subRd s 0x18 < subRd s 0x20 + 32768

/-- The oldest record kept is written to the ring, and to the host where its job has CDEST (R395, R396): as long as the stack
that holds the ring is up, and over ports that are (R424). -/
def writeRecord (s : State) : State :=
  match s.lsc.backlog with
  | [] => s
  | r :: rest =>
    if !subUp s || !recordRoom s then s
    else
      let m := subRd s 0x18
      let off := 32 * (m % 32768)
      let s1 := subWr { s with
        mem := wrN s.mem (s.plat.subbase + 0x101000 + off) (leBytes 32 r.nat)
        lsc := { s.lsc with backlog := rest } } 0x18 (m + 1)
      match getJob s r.job with
      | some j => if j.cdest ≠ 0 && answers s then { s1 with log := s1.log ++ [.pushed j.peer j.ckey (j.cdest + off) r] } else s1
      | none => s1

/-! ### Units (R398, R399, R433) -/

/-- Nothing of a core's unit is under way any more (R398). -/
def Core.quiet (c : Core) : Bool :=
  !c.busyQueues && c.accs.isEmpty && c.pend.isEmpty && c.vq.isEmpty && !c.dying

/-- Unit `idx` of a launch has issued its entry of instance k of a group, or still can. -/
def unitIssues (s : State) (x : Launch) (idx cgid k : Nat) : Bool :=
  match x.units.find? (fun u => u.idx = idx) with
  | none => true
  | some u =>
    let c := getCore s u.core
    let here := c.run == .ended && c.job = x.job && c.lid = x.lid && c.unit = idx
    u.state != .ended && (!here || c.bq.es.any (·.ofInstance cgid k) || (c.group cgid).any (fun g => k < g.issued))

/-- A launch holds a rank of a group: the first rank of its entry there. -/
def Launch.rankBase (x : Launch) (cgid r : Nat) : Option Nat :=
  (x.cgs.find? (fun g => g.1 = cgid && g.2.2.2 ≤ r && r < g.2.2.2 + (x.upb + 1) * x.nbeds)).map (·.2.2.2)

/-- A rank of a group may still issue instance k, or has: no launch that holds it is known, so that one is still to be
submitted, or one that has not ended holds it and its unit can. -/
def rankAlive (s : State) (job cgid k r : Nat) : Bool :=
  let holders := s.lsc.launches.filterMap (fun x => if x.job = job then (x.rankBase cgid r).map (fun b => (x, b)) else none)
  holders.isEmpty || holders.any (fun y => !y.1.isOver && unitIssues s y.1 (r - y.2) cgid k)

/-- The head of a queue waits for a token or a handle, or for the entry of a member that can issue it no longer. A stamped entry
waits for nothing: its stamp tick comes (R319). -/
def headStuck (s : State) (c : Core) (q : EngQ) : Bool :=
  match c.head q with
  | none => true
  | some e =>
    (e.ph == .waiting && e.stamp = 0 && c.keptBack e) ||
    (match e.coll with
     | some x => e.shown / 2 = 0 &&
        (match c.group x.cgid with
         | some g => (List.range g.n).any (fun r => !rankAlive s c.job x.cgid e.inst r)
         | none => true)
     | none => false)

/-- The end of a unit can be recorded (R398, R399): its entries have run to completion; of a killed unit, those are left
that nothing can let start any more, which make no access. DEDUCED, unsafe: log 20. -/
def Core.through (s : State) (c : Core) : Bool :=
  c.quiet ||
    (2 ≤ c.endStatus && c.accs.isEmpty && c.pend.isEmpty && c.vq.isEmpty && !c.dying &&
      [EngQ.trellis, .copy, .graft, .bank].all (headStuck s c))

/-- A unit of a launch has ended, in its turn (R399, R433). -/
def Launch.noteEnd (x : Launch) (idx : Nat) : Launch := if x.ends.contains idx then x else { x with ends := x.ends ++ [idx] }

/-- CODE of a launch's record (R433): that of the first of its units, in order of ending, whose STATUS is not 0. -/
def Launch.code (x : Launch) : Nat :=
  (((x.ends.filterMap (fun i => x.units.find? (fun u => u.idx = i))).find? (fun u => u.status ≠ 0)).map (·.code)).getD 0

/-- A unit has ended: LCNT, its completion record, and what the launch keeps of it. -/
def endUnit (s : State) (x : Launch) (u : UnitRec) (status code code2 detail ebits ej : Nat) : State :=
  let u1 := { u with state := .ended, status := status, code := code, saved := [], spad := [] }
  let x1 := { x.noteEnd u.idx with
    units := x.units.map (fun y => if y.idx = u.idx then u1 else y)
    ebits := x.ebits + ebits, ej := x.ej + ej }
  let s1 := setLaunch s x1
  let s2 := match getJob s1 x.job with | some j => ctrInc s1 j (2048 + 8 * (x.lid % 256)) | none => s1
  queueRec s2 { level := 0, status := status, code := code, code2 := code2, job := x.job, unit := u.idx, id := x.lid
                detail := detail, ebits := ebits, ej := ej }

/-- A launch as it stands now. -/
def again (s : State) (x : Launch) : Launch := (getLaunch s x.job x.lid).getD x

/-- A unit is cancelled (R402): killed where it runs or stands stopped, charged on its saved state where it is saved, with
the STATUS given, ended where it has not started. -/
def cancelUnit (s : State) (x : Launch) (saved : Nat) (u : UnitRec) : State :=
  match u.state with
  | .running | .stopped => modCore s u.core (fun c => c.kill 4 0 0 0)
  | .saved | .placed | .none =>
    match u.saved with
    | c :: _ =>
      let d := (c.kill saved 0 0 0).countRegs
      endUnit s (again s x) u saved 0 0 0 d.ebits d.ej
    | [] => endUnit s (again s x) u 4 0 0 0 0 0
  | .ended => s

/-- Every unit of a launch that has not ended is cancelled. -/
def cancelUnits (s : State) (x : Launch) : State := x.units.foldl (fun s u => cancelUnit s x 4 u) s

/-- The core that runs a unit. -/
def unitCore (s : State) (u : UnitRec) : Core := getCore s u.core

/-- A unit killed of itself (R433), not by a cancel. -/
def Core.killed (c : Core) : Bool := c.endStatus = 2 || c.endStatus = 5 || c.endStatus = 6

/-- The core that a unit of a launch runs on holds it, and it has come to its DONE or has been killed. -/
def unitStops (s : State) (x : Launch) (u : UnitRec) : Bool :=
  let c := unitCore s u
  (u.state == .running || u.state == .stopped) && c.run = .ended && c.job = x.job && c.lid = x.lid && c.unit = u.idx

/-- A unit has ended (R399), whether its record is made or not. -/
def unitOver (s : State) (x : Launch) (u : UnitRec) : Bool := u.state == .ended || (unitStops s x u && (unitCore s u).isOver)

/-- STATUS of a unit that has ended, as far as it is known. -/
def unitStatus (s : State) (u : UnitRec) : Nat := if u.state = .ended then u.status else (unitCore s u).endStatus

/-- Every unit of a launch has ended, whether its record is made or not (R399, R400). -/
def launchOver (s : State) (x : Launch) : Bool := x.isOver || (!x.units.isEmpty && x.units.all (unitOver s x))

/-- The units of a launch that have ended are noted, each once. -/
def noteEnds (s : State) (x : Launch) : State :=
  setLaunch s ((x.units.filter (unitOver s x)).foldl (fun y u => y.noteEnd u.idx) x)

/-- The kill of a unit ends it and fails its launch, whose other units are cancelled (R407); an ended unit whose work is through
gets its record, and its handles are free (R240). DEDUCED, unsafe: log 40. -/
def reapUnit (s : State) (x : Launch) (u : UnitRec) : State :=
  let c := unitCore s u
  if unitStops s x u then
    let s0 := if c.killed then cancelUnits s (again s x) else s
    let d := getCore s0 c.num
    if d.through s0 && d.dones.isEmpty then
      endUnit (setCore s0 { d with handles := [] }) (again s0 x) u d.endStatus d.endCode d.endCode2 d.endDetail d.ebits d.ej
    else s0
  else s

/-- Every unit whose end can be recorded now; which have ended is noted first. -/
def reapAll (s : State) : State :=
  let s1 := s.lsc.launches.foldl (fun s x => noteEnds s (again s x)) s
  s1.lsc.launches.foldl (fun s x => x.units.foldl (fun s u => reapUnit s (again s x) u) s) s1

/-! ### Launches, graphs, phases, jobs (R400, R401, R433) -/

/-- A launch is ended by cancellation: its units go, or it never had any. One whose units have all ended has ended (R400, R402). -/
def cancelLaunch (s : State) (x : Launch) : State :=
  if launchOver s x ∨ x.state = .cancelled then s
  else
    let s1 := setLaunch s { x with state := .cancelled }
    let s2 := { s1 with lsc := { s1.lsc with holder := if s1.lsc.holder = some (x.job, x.lid) then none else s1.lsc.holder } }
    cancelUnits s2 (again s2 x)

/-- A core goes back to its idle state; its noise source runs on (R61). -/
def freeCore (s : State) (n : Nat) : State := modCore s n (fun c => { Core.reset n with noise := c.noise })

/-- The cores of the beds of a launch go back. -/
def freeBeds (s : State) (beds : List Nat) : State :=
  beds.foldl (fun s b => (List.range 8).foldl (fun s c => freeCore s (8 * b + c)) s) s

/-- STATUS of a launch that has ended (R433, R415). DEDUCED, unsafe: log 44. -/
def launchStatus (x : Launch) : Nat :=
  let any (k : Nat) : Bool := x.units.any (fun u => u.status = k)
  if x.aborted then 6
  else if x.state = .cancelled then 4
  else if any 6 then 6
  else if any 5 then 5
  else if x.state = .failed ∨ x.units.any (fun u => u.status ≠ 0) then 3
  else 0

/-- A launch ends: its beds are free, GCNT advances, its record follows. -/
def endLaunch (s : State) (x : Launch) : State :=
  let st := launchStatus x
  let x1 := { x with
    isOver := true, beds := [], sbm := []
    state := if x.state = .cancelled then .cancelled else if st = 0 then .done else .failed }
  let s1 := setLaunch (freeBeds s x.beds) x1
  let g := getGroup s1 2 x.job x.graph
  let s2 := putGroup s1 { g with
    ended := g.ended + 1, failed := g.failed || x1.state = .failed, undone := g.undone || x1.state ≠ .done, ebits := g.ebits + x.ebits, ej := g.ej + x.ej }
  let s3 := match getJob s2 x.job with | some j => ctrInc s2 j (64 + 8 * (x.graph % 248)) | none => s2
  queueRec s3 { level := 1, status := st, code := x.code, code2 := 0, job := x.job, unit := 0, id := x.lid, detail := 0
                ebits := x.ebits, ej := x.ej }

/-- A cancel has named a graph or phase, or a level above it. -/
def isCancelled (s : State) (j : Job) (g : Group) : Bool :=
  g.cancelled || j.cancelled || (g.level = 2 && (getGroup s 3 j.num g.phase).cancelled)

/-- A graph ends (R401): PCNT advances, its record follows; a Failed graph fails its phase, which so ends with the STATUS it has
then, though its record is withheld (DEDUCED, unsafe: log 81). -/
def endGraph (s : State) (j : Job) (g : Group) : State :=
  let p := getGroup s 3 j.num g.phase
  let st := if isCancelled s j g then 4 else if g.failed then 3 else 0
  let s1 := putGroup s { g with isOver := true }
  let s2 := if g.phase = 2 ^ 32 then s1 else putGroup s1 { p with
    ended := p.ended + 1, failed := p.failed || g.failed, undone := p.undone || st ≠ 0
    stands := if p.stands = 0 && g.failed && !p.diverged && !isCancelled s j p then 3 else p.stands }
  let s3 := if g.phase = j.phase then ctrWr s2 j 16 (p.ended + 1) else s2
  queueRec s3 { level := 2, status := st, code := 0, code2 := 0, job := j.num, unit := 0, id := g.num, detail := 0
                ebits := g.ebits, ej := g.ej }

/-- A phase has Failed or Diverged. -/
def Group.bad (p : Group) : Bool := p.diverged || p.failed

/-- A phase Fails or Diverges: its job is Halted (R401). -/
def haltJob (s : State) (j : Job) (p : Group) : State :=
  ctrWr (putJob s { j with state := .halted, why := if p.diverged then 5 else 3 }) j 24 1

/-- EBITS and EJ summed over the graphs of a job that a test picks, those that never end among them (R433). -/
def graphSums (s : State) (job : Nat) (pick : Group → Bool) : Nat × Nat :=
  let gs := s.lsc.groups.filter (fun g => g.level = 2 && g.job = job && pick g)
  ((gs.map (·.ebits)).sum, (gs.map (·.ej)).sum)

/-- A phase ends: JCNT advances, its record follows; Done, the next phase opens (R401). -/
def endPhase (s : State) (j : Job) (p : Group) : State :=
  let st := if p.stands ≠ 0 then p.stands else if isCancelled s j p then 4 else if p.diverged then 5 else if p.failed then 3 else 0
  let sum := graphSums s j.num (fun g => g.phase = p.num)
  let s1 := ctrInc (putGroup s { p with isOver := true, ebits := sum.1, ej := sum.2 }) j 0
  let s2 :=
    if st ≠ 0 then s1
    else
      let n := (getGroup s1 3 j.num (p.num + 1)).ended
      ctrWr (ctrWr (putJob s1 { j with phase := p.num + 1 }) j 8 (p.num + 1)) j 16 n
  queueRec s2 { level := 3, status := st, code := 0, code2 := 0, job := j.num, unit := 0, id := p.num, detail := 0
                ebits := sum.1, ej := sum.2 }

/-- A job ends (R401): the sums are over all its phases, whether they ended or not (R433). -/
def endJobNow (s : State) (j : Job) : State :=
  let st := if j.cancelled then 4 else j.why
  let sum := graphSums s j.num (fun _ => true)
  queueRec (ctrWr (putJob s { j with state := .ended, ebits := sum.1, ej := sum.2 }) j 24 2)
    { level := 4, status := st, code := 0, code2 := 0, job := j.num, unit := 0, id := j.num % 2 ^ 16, detail := 0
      ebits := sum.1, ej := sum.2 }

/-- The job a launch, graph or phase belongs to is in a state. -/
def jobIs (s : State) (n : Nat) (p : Job → Bool) : Bool := match getJob s n with | some j => p j | none => false

/-- A launch's predecessors, as far as they are known. -/
def predsOf (s : State) (x : Launch) : List Launch := x.preds.filterMap (fun l => getLaunch s x.job l)

/-- A Queued launch can become Ready (R400). -/
def canReady (s : State) (x : Launch) : Bool :=
  x.state == .queued && jobIs s x.job (fun j => j.state == .active && j.phase == x.phase) &&
    (predsOf s x).all (fun p => p.state == .done)

/-- A Queued launch whose predecessor failed, or one not yet placed of a Halted job, is Cancelled (R400, R401). -/
def mustCancel (s : State) (x : Launch) : Bool :=
  (x.state == .queued && (predsOf s x).any (fun p => p.isOver && p.state != .done)) ||
    ((x.state == .queued || x.state == .ready) && jobIs s x.job (fun j => j.state == .halted))

/-- A graph or phase is closed and as many of its members as its COUNT says have ended. -/
def Group.complete (g : Group) : Bool := !g.isOver && g.count = some g.ended

/-- A graph ends once it is complete, where every launch is Done, one Failed, or a cancel named it (R401, R433). DEDUCED,
unsafe: log 43. -/
def graphEnds (s : State) (g : Group) : Bool :=
  g.level = 2 && g.complete && (!g.undone || g.failed || (match getJob s g.job with | some j => isCancelled s j g | none => false))

/-- A phase is to Halt its job. -/
def phaseHalts (s : State) (p : Group) : Bool := p.level = 3 && !p.isOver && p.bad && jobIs s p.job (fun j => j.state == .active)

/-- A phase ends once it is complete and open with every graph Done, or cancelled; one that Failed or Diverged, whose
completion is withheld, once none of its launches is live (R372, R398, R401). DEDUCED, unsafe: log 81. -/
def phaseEnds (s : State) (p : Group) : Bool :=
  p.level = 3 && !p.isOver && (match getJob s p.job with
    | some j =>
      if p.bad then s.lsc.launches.all (fun x => x.job ≠ p.job || x.phase ≠ p.num || x.isOver)
      else p.complete && (isCancelled s j p || (!p.undone && j.state == .active && j.phase = p.num))
    | none => false)

/-- A launch that is stopped by pre-emption is Ready once more: every unit is saved or has ended (R400, R409). -/
def stopsDone (x : Launch) : Bool :=
  x.state == .preempting && x.units.all (fun u => u.state == .saved || u.state == .ended) && x.units.any (fun u => u.state == .saved)

/-- The beds of a pre-empted launch go back, its units' states being saved. -/
def preempted (s : State) (x : Launch) : State :=
  setLaunch { freeBeds s x.beds with lsc := { s.lsc with readies := s.lsc.readies + 1 } }
    { x with state := .ready, beds := [], since := s.lsc.readies, age := 0 }

/-- A launch all of whose units have ended. -/
def launchEnds (x : Launch) : Bool :=
  !x.isOver && (x.state == .cancelled || x.state == .failed || !x.units.isEmpty) && x.units.all (fun u => u.state == .ended)

/-- A launch becomes Ready (R400). -/
def becomeReady (s : State) (x : Launch) : State :=
  setLaunch { s with lsc := { s.lsc with readies := s.lsc.readies + 1 } } { x with state := .ready, since := s.lsc.readies, age := 0 }

/-- A job that an end-job record named ends once none of its launches is live. -/
def jobEnds (s : State) (j : Job) : Bool :=
  j.ending && j.state != .ended && s.lsc.launches.all (fun x => x.job ≠ j.num || x.isOver)

/-- A change to a group of a job that is known. -/
def withJob (s : State) (f : State → Job → Group → State) (g : Group) : Option State := (getJob s g.job).map (fun j => f s j g)

/-- One end or change of state that is due, the first found. -/
def settleStep (s : State) : Option State :=
  let l := s.lsc
  let due : List (Option State) := [
    (l.launches.find? launchEnds).map (endLaunch s), (l.groups.find? (graphEnds s)).bind (withJob s endGraph),
    (l.groups.find? (phaseHalts s)).bind (withJob s haltJob), (l.groups.find? (phaseEnds s)).bind (withJob s endPhase),
    (l.launches.find? (mustCancel s)).map (cancelLaunch s), (l.launches.find? stopsDone).map (preempted s),
    (l.launches.find? (canReady s)).map (becomeReady s), (l.jobs.find? (jobEnds s)).map (endJobNow s)]
  due.findSome? id

/-- Every end and change of state that is due, at most m. -/
def settleLsc (s : State) : Nat → State
  | 0 => s
  | m + 1 => match settleStep s with | some s1 => settleLsc s1 m | none => s

/-- How many ends and changes there can be. -/
def settleFuel (s : State) : Nat := 4 * (s.lsc.launches.length + s.lsc.groups.length + s.lsc.jobs.length) + 8

/-- What the LSC does at once after any event of its own. -/
def afterLsc (s : State) : State := settleLsc s (settleFuel s)

/-! ### Records taken (R389, R390, R394) -/

/-- The record at the head of the ring, when the LSC may take it: its index and its bits (R389, R396). -/
def nextRecord (s : State) : Option (Nat × Nat) :=
  let n := subRd s 8
  if s.plat.power = .ready ∧ n < subRd s 0 ∧ s.lsc.backlog.isEmpty then
    some (n, leNat (rdN s.mem (s.plat.subbase + 0x1000 + 256 * (n % 4096)) 256))
  else none

/-- The TYPE of a record. -/
def recType (r : Nat) : Nat := fld r 0 8

/-- The lowest set bit of a field, if any. -/
def setBit (r lo len : Nat) : Option Nat := ((List.range len).find? (fun i => r.testBit (lo + i))).map (lo + ·)

/-- The reserved fields of a record type: first bit and length (R391-R393). -/
def reservedOf (t r : Nat) : List (Nat × Nat) :=
  match t with
  | 1 => [(15, 1), (27, 5), (37, 11), (168, 24), (272, 48), (424, 24), (451, 29), (616, 24), (678, 2), (692, 12)] ++
      (List.range (min 8 (fld r 164 4))).map (fun k => (960 + 64 * k + 36, 28)) ++ [(1472, 576)]
  | 2 => [(11, 37), (96, 1952)]
  | 3 => [(8, 40), (64, 1984)]
  | 4 => [(13, 35), (64, 1984)]
  | 5 => [(11, 37), (128, 1920)]
  | 6 => [(8, 40), (64, 128), (448, 1600)]
  | 7 => [(8, 40), (64, 1984)]
  | 8 => [(14, 34), (64, 1984)]
  | _ => []

/-- TYPE 4's field BED is bits 12..8; TYPE 8's as well, with PARK. LEVEL is bits 10..8 of TYPE 2 and 5. -/
def levelBad (t r : Nat) : Bool :=
  let l := fld r 8 3
  (t = 2 && (l = 0 || 4 < l)) || (t = 5 && !(l = 2 || l = 3))

/-- The first row of R394: the lowest offending bit. DEDUCED, unsafe: log 42. -/
def firstRow (r : Nat) : Option Nat :=
  let t := recType r
  let own : List Nat :=
    (if t = 0 || 8 < t then [0] else []) ++ (if levelBad t r then [8] else []) ++
    (if t = 1 && 64 < fld r 20 7 then [20] else []) ++ (if t = 1 && 4 < fld r 448 3 then [448] else [])
  (own ++ (reservedOf t r).filterMap (fun x => setBit r x.1 x.2)).min?

/-- Collective-group entry k of a launch record: CGID, NR, N, RBASE (R392). -/
def cgOf (r k : Nat) : Nat × Nat × Nat × Nat :=
  let b := 960 + 64 * k
  (fld r b 8, fld r (b + 8) 4 + 1, fld r (b + 12) 12 + 1, fld r (b + 24) 12)

/-- The dies of a mask. -/
def diesOf (m : Nat) : List Nat := (List.range 4).filter (fun d => m.testBit d)

/-- Bytes from the first to the last of the sections of a kind. -/
def kindSpan (i : Image) (k : SecKind) : Nat × Nat :=
  let l := i.sections.filter (fun x => x.kind == k)
  match (l.map (·.base)).min?, (l.map (fun x => x.base + x.size)).max? with
  | some a, some b => (a, b)
  | _, _ => (0, 0)

/-- The image a launch record names. -/
def imageOf (s : State) (addr : Nat) : Option Image := s.lsc.images.find? (fun i => i.addr = addr)

/-- The rows of R394 after the first for a launch record, in their order. DEDUCED, unsafe: log 41. -/
def launchRows (s : State) (r : Nat) : Option Nat :=
  let job := fld r 48 16
  let lid := fld r 64 32
  let g := fld r 96 32
  let nb := fld r 32 5 + 1
  let units := (fld r 10 3 + 1) * nb
  let dies := (diesOf (fld r 16 4)).length
  let img := imageOf s (fld r 192 64)
  let mine := s.lsc.launches.filter (fun x => x.job = job)
  let checks : List (Bool × Nat) := [
    (!jobIs s job (fun j => j.state == .active), 0x10000),
    (dies = 0 || (rbit r 13 && dies < nb) || 8 * dies < nb, 0x10001),
    ((match img with | some i => decide (i.templates.length ≤ fld r 256 16) | none => true) || fld r 320 64 % 8 ≠ 0 ||
      fld r 512 64 % 8 ≠ 0, 0x10002),
    (mine.any (fun x => x.lid = lid || (!x.isOver && x.lid % 256 = lid % 256)) ||
      s.lsc.groups.any (fun x => x.level = 2 && x.job = job && !x.isOver && x.num ≠ g && x.num % 248 = g % 248), 0x10003),
    ((List.range (min 8 (fld r 160 4))).any (fun k => !mine.any (fun x => x.lid = fld r (704 + 32 * k) 32 && x.graph = g)), 0x10004),
    (jobIs s job (fun j => fld r 128 32 < j.phase), 0x10005),
    ((List.range (min 8 (fld r 164 4))).any (fun k => let (_, nr, n, rb) := cgOf r k; n % nr ≠ 0 || n < rb + units), 0x10006),
    (fld r 640 32 ≠ 0 && fld r 672 6 < fld r 680 6, 0x10007),
    ((match img with | some i => decide (fld r 576 40 < (kindSpan i .sbm).2 - (kindSpan i .sbm).1) | none => false), 0x10009)]
  (checks.find? (·.1)).map (·.2)

/-- The rows of R394 after the first, for every type. -/
def laterRows (s : State) (r : Nat) : Option Nat :=
  let job := fld r 48 16
  let live := jobIs s job (fun j => j.state == .active)
  let js := fld r 256 64
  match recType r with
  | 1 => launchRows s r
  | 2 | 7 => none
  | 5 =>
    let x := getGroup s (fld r 8 3) job (fld r 64 32)
    if !live then some 0x10000 else if x.count.isSome then some 0x10008 else none
  | 6 =>
    if jobIs s job (fun j => j.state != .ended) then some 0x10000
    else if fld r 192 64 % 8 ≠ 0 || js % 4096 ≠ 0 || 2 ^ 52 ≤ js || paPkg js ≠ s.plat.pkg || paSpace js ≠ 0 || !paOk js ||
      mcHolds s js 4096 then some 0x10002
    else none
  | _ => if live then none else some 0x10000

/-- A record is taken: TAKEN advances; rejected, REJECT advances and a LEVEL 5 record follows, else it acts (R389,
R394). Nothing happens when the next record is of another type. -/
def takeRecord (s : State) (mine : Nat → Bool) (act : State → Nat → State) : Res :=
  match nextRecord s with
  | none => .next s
  | some (n, r) =>
    if !mine (recType r) then .next s
    else
      let s1 := subWr s 8 (n + 1)
      match (firstRow r).or (laterRows s r) with
      | some d =>
        .next (queueRec (subWr s1 0x10 (subRd s1 0x10 + 1))
          { level := 5, status := 7, code := 0, code2 := 0, job := fld r 48 16, unit := 0, id := n % 2 ^ 32, detail := d
            ebits := 0, ej := 0 })
      | none => .next (afterLsc (act s1 r))

/-- A launch from its record (R391). -/
def launchOf (s : State) (r : Nat) : Launch :=
  let t := (imageOf s (fld r 192 64)).bind (fun i => i.templates[fld r 256 16]?)
  { job := fld r 48 16, lid := fld r 64 32, graph := fld r 96 32, phase := fld r 128 32, prio := fld r 8 2, upb := fld r 10 3
    spread := rbit r 13, dbg := rbit r 14, dmask := fld r 16 4, gres := fld r 20 7, nbeds := fld r 32 5 + 1
    image := fld r 192 64, tmpl := fld r 256 16, args := fld r 320 64
    budget := if fld r 384 40 ≠ 0 then fld r 384 40 else (t.map (·.budget)).getD 0
    seedmode := fld r 448 3, seedcnt := fld r 480 32, seedlog := fld r 512 64, sbmlen := fld r 576 40, gang := fld r 640 32
    gnp := fld r 672 6, grk := fld r 680 6, gcp := fld r 686 6
    preds := (List.range (min 8 (fld r 160 4))).map (fun k => fld r (704 + 32 * k) 32)
    cgs := (List.range (min 8 (fld r 164 4))).map (cgOf r)
    state := .queued, since := 0, age := 0, placedAt := 0, beds := [], sbm := [], frames := 0, units := [], barrier := 0
    diverged := false, aborted := false, isOver := false, ends := [], ebits := 0, ej := 0 }

/-- A graph that nothing has named yet: its counter starts at 0, whatever graph used its place before (R397). -/
def freshGraph (s : State) (job num : Nat) : State :=
  match getJob s job with
  | some j => if s.lsc.groups.any (fun g => g.level = 2 && g.job = job && g.num = num) then s else ctrWr s j (64 + 8 * (num % 248)) 0
  | none => s

/-- A gang that has committed or was aborted, and all of whose members here have ended, is forgotten, so that the host can submit
it again (R415). -/
def forgetGang (s : State) (job gang : Nat) : State :=
  if s.lsc.launches.all (fun x => x.job ≠ job || x.gang ≠ gang || x.isOver) then
    { s with lsc := { s.lsc with gangs := s.lsc.gangs.filter (fun g => !(g.job = job && g.num = gang && (g.committed || g.aborted))) } }
  else s

/-- LAUNCH_RECORD: a launch record is queued (R391, R400), its counter at 0 (R397); a record of reserved TYPE is rejected here
(R394). -/
def execLaunchRecord (s : State) : Res :=
  takeRecord s (fun t => t = 1 || t = 0 || 8 < t) fun s r =>
    let x := launchOf s r
    let s0 := freshGraph (forgetGang s x.job x.gang) x.job x.graph
    let s1 := match getJob s0 x.job with | some j => ctrWr s0 j (2048 + 8 * (x.lid % 256)) 0 | none => s0
    let g := getGroup s1 2 x.job x.graph
    let s2 := putGroup { s1 with lsc := { s1.lsc with launches := s1.lsc.launches ++ [x] } }
      { g with phase := if g.phase = 2 ^ 32 then x.phase else g.phase }
    putGroup s2 (getGroup s2 3 x.job x.phase)

/-- A gang of which nothing is known yet. -/
def Gang.fresh (job gang : Nat) : Gang := { job := job, num := gang, acks := [], committed := false, aborted := false }

/-- A gang as the coordinator knows it. -/
def gangOf (s : State) (job gang : Nat) : Gang :=
  (s.lsc.gangs.find? (fun g => g.job = job ∧ g.num = gang)).getD (Gang.fresh job gang)

/-- A gang replaced, or added. -/
def putGang (s : State) (x : Gang) : State :=
  { s with lsc := { s.lsc with gangs := s.lsc.gangs.filter (fun g => !(g.job = x.job && g.num = x.num)) ++ [x] } }

/-- A gang is aborted (R415): Running members take gang-abort, the others are cancelled with status aborted. -/
def abortGang (s : State) (job gang : Nat) : State :=
  let old := gangOf s job gang
  if old.committed || old.aborted then s
  else
    let s1 := putGang s { old with aborted := true }
    s1.lsc.launches.foldl (fun (s : State) (x : Launch) =>
      if x.job = job ∧ x.gang = gang ∧ !x.isOver then
        let s2 := setLaunch s { (again s x) with aborted := true }
        if x.state = .running then
          x.units.foldl (fun (s : State) (u : UnitRec) => if u.state = .running then modCore s u.core (fun c =>
            if c.run = .running then c.hearEvent (eventRec 0x19 gang) else c) else s) s2
        else cancelLaunch s2 (again s2 x)
      else s) s1

/-- A launch is named by a cancel record. -/
def cancelNames (r : Nat) (x : Launch) : Bool :=
  let id := fld r 64 32
  x.job = fld r 48 16 && (match fld r 8 3 with
    | 1 => x.lid = id
    | 2 => x.graph = id
    | 3 => x.phase = id
    | _ => true)

/-- A closed graph has ended (R401), whether the records of its launches are made or not. -/
def graphOver (s : State) (g : Group) : Bool :=
  let rest := s.lsc.launches.filter (fun x => x.job = g.job && x.graph = g.num && !x.isOver)
  g.isOver || (g.count = some (g.ended + rest.length) && rest.all (launchOver s) &&
    (g.failed || rest.any (fun x => x.units.any (fun u => unitStatus s u ≠ 0)) ||
      !(g.undone || rest.any (fun x => x.state == .cancelled))))

/-- The level a cancel record names has ended: a phase that has Failed has (R401; DEDUCED, unsafe: log 81). -/
def cancelIdle (s : State) (j : Job) (lvl id : Nat) : Bool :=
  match lvl with
  | 1 => false
  | 2 => graphOver s (getGroup s 2 j.num id)
  | 3 => let g := getGroup s 3 j.num id; g.isOver || g.stands ≠ 0
  | _ => j.state == .ended

/-- A level above launches is marked as cancelled. -/
def markCancelled (s : State) (j : Job) (lvl id : Nat) : State :=
  match lvl with
  | 1 => s
  | 2 | 3 => putGroup s { getGroup s lvl j.num id with cancelled := true }
  | _ => putJob s { j with cancelled := true }

/-- CANCEL_RECORD (R402): the named level and everything below it; a gang not yet committed is aborted (R415). A level that has
ended is not touched. -/
def execCancelRecord (s : State) : Res :=
  takeRecord s (· = 2) fun s r =>
    let lvl := fld r 8 3
    let id := fld r 64 32
    match getJob s (fld r 48 16) with
    | none => s
    | some j =>
      if j.state = .ended ∨ cancelIdle s j lvl id then s
      else
        let s1 := markCancelled s j lvl id
        s1.lsc.launches.foldl (fun s x =>
          if cancelNames r x && !launchOver s (again s x) then
            let s2 := cancelLaunch s (again s x)
            if x.gang ≠ 0 then abortGang s2 j.num x.gang else s2
          else s) s1

/-- REPLAY_RECORD: REPLAY for the job's parked accesses (R253, R393). -/
def execReplayRecord (s : State) : Res := takeRecord s (· = 3) fun s r => retryJob s (fld r 48 16)

/-- The entries a halt held go on. -/
def EQueue.goOn (q : EQueue) : EQueue := { q with es := q.es.map (fun e => if e.ph = .held then { e with ph := .running } else e) }

/-- RESUME_BED: a debug halt ends, and held entries go on from the row at which they stopped (R181, R393). -/
def execResumeBed (s : State) : Res :=
  takeRecord s (· = 4) fun s r =>
    let b := fld r 8 5
    (bedCores s b).foldl (fun (s : State) (c : Core) => modCore s c.num (fun c =>
      { c with tq := c.tq.goOn, cq := c.cq.goOn, gq := c.gq.goOn })) (modBed s b (fun b => { b with halt := false, park := false }))

/-- HALT_BED: a debug halt, with PARK as asked (R181, R393). -/
def execHaltBed (s : State) : Res := takeRecord s (· = 8) fun s r => haltBed s (fld r 8 5) (rbit r 13)

/-- CLOSE: a graph or phase is closed with COUNT (R393, R401). -/
def execClose (s : State) : Res :=
  takeRecord s (· = 5) fun s r =>
    let s1 := if fld r 8 3 = 2 then freshGraph s (fld r 48 16) (fld r 64 32) else s
    putGroup s1 { getGroup s1 (fld r 8 3) (fld r 48 16) (fld r 64 32) with count := some (fld r 96 32) }

/-- The endpoint of the NOTIFY that covers record n: the first that raised NOTIFY above it (R395). -/
def noticeOf (s : State) (n : Nat) : Nat := ((s.lsc.notices.find? (fun x => n < x.1)).map (·.2)).getD 0

/-- OPEN_JOB: a job opens with phase 0, and its counter page is zeroed (R393, R397, R401). -/
def execOpenJob (s : State) : Res :=
  takeRecord s (· = 6) fun s r =>
    let n := fld r 48 16
    let j : Job := { num := n, xvec := fld r 192 64, jstat := fld r 256 64, cdest := fld r 320 64, ckey := fld r 384 64
                     peer := noticeOf s (subRd s 8 - 1), phase := 0, state := .active, cancelled := false, why := 0, ending := false, ebits := 0, ej := 0
                     map := ((s.lsc.maps.find? (fun m => m.1 = n)).map (·.2)).getD [] }
    let s1 := putJob { s with
      mem := zeroN s.mem j.jstat 4096
      lsc := { s.lsc with
        launches := s.lsc.launches.filter (fun x => x.job ≠ n), groups := s.lsc.groups.filter (fun x => x.job ≠ n)
        gangs := s.lsc.gangs.filter (fun x => x.job ≠ n) } } j
    putGroup s1 (getGroup s1 3 n 0)

/-- END_JOB: the job ends once none of its launches is live (R393, R401). -/
def execEndJob (s : State) : Res :=
  takeRecord s (· = 7) fun s r =>
    match getJob s (fld r 48 16) with | some j => putJob s { j with ending := true } | none => s

/-- COMPLETION_RECORD_WRITE: the ends that are due are recorded, and the oldest record kept is written as soon as CREAD
allows (R396, R398). -/
def execCompletionRecordWrite (s : State) : Res :=
  if s.plat.power = .ready ∨ s.plat.power = .tripped then .next (writeRecord (afterLsc (reapAll s))) else .next s

/-- What the host's ports answer while the package gives no full service (R424, R428, R429): an error, or nothing. -/
def refuseAccess (s : State) (addr : Nat) : State :=
  if answers s then { s with log := s.log ++ [.error addr] } else s

/-- NOTIFY: the host adds to NOTIFY (R388, R389), and the endpoint it did so from is kept for the records it covers (R395);
before READY it receives an error (R429). -/
def execNotify (n : Submission) (s : State) : Res :=
  if s.plat.power = .ready then
    let v := subRd s 0
    let new := (v + n.count) % 2 ^ 64
    .next { subWr s 0 new with
      log := s.log ++ [.old s.plat.subbase (BitVec.ofNat 64 v)]
      lsc := { s.lsc with notices := s.lsc.notices.filter (fun x => subRd s 8 < x.1) ++ [(new, n.peer)] } }
  else .next (refuseAccess s s.plat.subbase)

/-- CREAD: the host reports the records it has consumed; a store that lowers CREAD, or raises it above CDONE, is ignored
(R396). -/
def execCread (n : Nat) (s : State) : Res :=
  if (s.plat.power = .ready ∨ s.plat.power = .tripped) ∧ answers s ∧ subUp s then
    let s1 := if subRd s 0x20 ≤ n ∧ n ≤ subRd s 0x18 then subWr s 0x20 n else s
    .next { s1 with log := s1.log ++ [.stored (s.plat.subbase + 0x20)] }
  else .next (refuseAccess s (s.plat.subbase + 0x20))

end Sys2Proof.Machine
end

