-- ==== Sys2Proof/Machine/Units.lean ====
section
/-! DEFINITION. Placement of launches (R403-R405), start and save of units (R42, R399, R409-R412), the barrier (R408), gangs
(R413-R415), the sieves' votes (R371-R373), and deadlines (R406, R407). -/

namespace Sys2Proof.Machine

/-! ### Beds and SBM (R403) -/

/-- The beds no launch occupies, lowest first. -/
def unheldBeds (s : State) : List Nat :=
  (List.range 32).filter (fun b => !s.lsc.launches.any (fun x => x.beds.contains b))

/-- An address rounded down to a page of 4 KiB. -/
def pageFloor (a : Nat) : Nat := a / 4096 * 4096
/-- An address rounded up to a page of 4 KiB. -/
def pageCeil (a : Nat) : Nat := (a + 4095) / 4096 * 4096

/-- The virtual base of a launch's SBM region and its bytes, in whole pages (R99); a base that is no multiple of a page
stands as it is (DESIGN CHOICE, unsafe: log 84). -/
def sbmRange (s : State) (x : Launch) : Nat × Nat :=
  match imageOf s x.image with
  | some i => (i.sbmBase, pageCeil (max x.sbmlen ((kindSpan i .sbm).2 - i.sbmBase)))
  | none => (0x40000000, pageCeil x.sbmlen)

/-- The SBM regions in use on a die: offset and length. -/
def sbmUsed (s : State) (d : Nat) : List (Nat × Nat) :=
  s.lsc.launches.flatMap (fun x => (x.sbm.filter (fun r => r.1 = d)).map (fun r => (r.2, (sbmRange s x).2)))

/-- The lowest offset at which len bytes of a die's SBM are free. -/
def sbmFind (s : State) (d len : Nat) : Option Nat :=
  let used := sbmUsed s d
  let ok (o : Nat) : Bool := o + len ≤ 96 * 2 ^ 20 && used.all (fun u => o + len ≤ u.1 || u.1 + u.2 ≤ o)
  ((0 :: used.map (fun u => u.1 + u.2)).filter ok).min?

/-- Stretches of a die's DRAM that are not the LSC's to choose: memory the host allots to jobs, and their counter pages. -/
def allotted (s : State) (die : Nat) : List (Nat × Nat) :=
  let maps := s.lsc.maps.flatMap (·.2) ++ s.lsc.jobs.flatMap (·.map)
  let l := maps.map (fun m => (m.pbase, if m.cmp then (m.len + 127) / 128 * 160 else m.len)) ++
    s.lsc.jobs.map (fun j => (j.jstat, 4096))
  (l.filter (fun x => paDie x.1 = die ∧ paSpace x.1 = 0)).map (fun x => (paOff x.1, x.2))

/-- The lowest page from an offset on at which len bytes of a die's DRAM are the LSC's to choose.
DESIGN CHOICE, safe: log 9. -/
def frameFind (s : State) (die start len : Nat) : Nat :=
  let used := allotted s die
  let ok (o : Nat) : Bool := start ≤ o && used.all (fun u => o + len ≤ u.1 || u.1 + u.2 ≤ o)
  (((start :: used.map (fun u => pageCeil (u.1 + u.2))).filter ok).min?).getD start

/-- A launch holds an SBM region on a die. -/
def Launch.sbmOn (x : Launch) (d : Nat) : Bool := x.sbm.any (fun r => r.1 = d)

/-- A launch that has been placed before keeps its memory. -/
def Launch.loaded (x : Launch) : Bool := x.frames ≠ 0

/-- The beds a launch takes out of a list of free ones; none where it does not fit (R403). -/
def fits (s : State) (x : Launch) (free : List Nat) : Option (List Nat) :=
  let dies := (diesOf x.dmask).filter (fun d => x.sbmOn d || (sbmFind s d (sbmRange s x).2).isSome)
  let cand :=
    if x.spread then dies.filterMap (fun d => (free.filter (fun b => b / 8 = d)).min?)
    else free.filter (fun b => dies.contains (b / 8))
  if x.nbeds ≤ cand.length then some (cand.take x.nbeds) else none

/-! ### The image in memory (R100, R403) -/

/-- The sections that lie in package DRAM. -/
def dramSections (i : Image) : List Section :=
  i.sections.filter (fun x => x.kind == .text || x.kind == .rodata || x.kind == .data)

/-- Page runs, in rising order, that cover ranges; touching ones are one run. -/
def pageRuns (l : List (Nat × Nat)) : List (Nat × Nat) :=
  let sorted := (l.map (fun x => (pageFloor x.1, pageCeil x.2))).insertionSort (fun a b => a.1 ≤ b.1)
  (sorted.foldl (fun (acc : List (Nat × Nat)) x => match acc with
    | y :: r => if x.1 ≤ y.2 then (y.1, max y.2 x.2) :: r else x :: acc
    | [] => [x]) []).reverse

/-- The page runs of the sections in DRAM. -/
def imageRuns (i : Image) : List (Nat × Nat) := pageRuns ((dramSections i).map (fun x => (x.base, x.base + x.size)))

/-- The offset of a virtual address among runs laid end to end. -/
def runOffset : List (Nat × Nat) → Nat → Nat
  | [], _ => 0
  | r :: l, va => if r.1 ≤ va ∧ va < r.2 then va - r.1 else r.2 - r.1 + runOffset l va

/-- The bytes runs cover. -/
def runBytes (l : List (Nat × Nat)) : Nat := (l.map (fun r => r.2 - r.1)).sum

/-- The bytes of an image's program copies. -/
def imageBytes (s : State) (x : Launch) : Nat := match imageOf s x.image with | some i => runBytes (imageRuns i) | none => 0

/-- The physical address of a byte of a launch's program copies. -/
def framePa (x : Launch) (i : Image) (va : Nat) : Nat := x.frames + runOffset (imageRuns i) va

/-- A section's contents written at a physical address. -/
def putSection (s : State) (pa : Nat) (z : Section) : State := { s with mem := wrN s.mem pa (z.bytes.take z.size) }

/-- A launch's program copies are written, once (R100). -/
def loadCopies (s : State) (x : Launch) : State :=
  match imageOf s x.image with
  | none => s
  | some i => (dramSections i).foldl (fun s z => putSection s (framePa x i z.base) z) (zeroRuns s [(x.frames, imageBytes s x)])

/-- A stretch of memory, as it stood in `s0`, written elsewhere, with the errors in its code words. -/
def copyRun (s0 s : State) (a b n : Nat) : State :=
  let inside (p : Nat) : Bool := a ≤ p && p < a + n
  let s1 := zeroRuns s [(b, n)]
  { s1 with
    mem := (s0.mem.filter (fun z => inside z.1)).foldl (fun m z => wr8 m (b + (z.1 - a)) z.2) s1.mem
    ecc := s1.ecc ++ (s0.ecc.filter inside).map (fun p => b + (p - a)) }

/-- A launch's SBM region on a die is written. The rule says that nothing an earlier launch left is seen; what the bytes
outside every section read is open, and the model zeroes them (DESIGN CHOICE, unsafe: log 1). -/
def loadSbm (s : State) (x : Launch) (r : Nat × Nat) : State :=
  match imageOf s x.image with
  | none => s
  | some i =>
    let rg := sbmRange s x
    let pa := paMk s.plat.pkg r.1 1 r.2
    (i.sections.filter (fun z => z.kind == .sbm)).foldl (fun s z => putSection s (pa + (z.base - rg.1)) z) (zeroRuns s [(pa, rg.2)])

/-! ### Extent tables (R247, R248, R432) -/

/-- A mapped stretch, and whether it may be executed. -/
abbrev Seg := MapEnt × Bool

/-- The physical address at which a stretch holds a virtual address. -/
def MapEnt.at_ (m : MapEnt) (va : Nat) : Nat :=
  if m.cmp then m.pbase + 160 * ((va - m.vbase) / 128) else m.pbase + (va - m.vbase)

/-- A stretch clipped to a range. -/
def MapEnt.clip (m : MapEnt) (a b : Nat) : MapEnt :=
  let lo := max a m.vbase
  { m with vbase := lo, len := min b (m.vbase + m.len) - lo, pbase := m.at_ lo }

/-- A stretch of plain memory. -/
def plainEnt (va len pa : Nat) (rd wr : Bool) : MapEnt :=
  { vbase := va, len := len, pbase := pa, rd := rd, wr := wr, abs := false, cmp := false, expt := 0 }

/-- The sections of a launch as one unit sees them: copies in DRAM, its scratchpad, its die's SBM region. -/
def sectionSegs (s : State) (x : Launch) (die core : Nat) : List Seg :=
  match imageOf s x.image with
  | none => []
  | some i =>
    let copies := (dramSections i).map fun z =>
      let a := pageFloor z.base
      (plainEnt a (pageCeil (z.base + z.size) - a) (framePa x i a) true (z.kind == .data), z.kind == .text)
    let rg := sbmRange s x
    let sbm := (x.sbm.filter (fun r => r.1 = die ∧ rg.2 ≠ 0)).map fun r =>
      (plainEnt rg.1 rg.2 (paMk s.plat.pkg die 1 r.2) true true, false)
    copies ++ [(plainEnt i.spadBase (2 ^ 21) (spadPa s.plat.pkg core 0) true true, false)] ++ sbm

/-- Frames that extents with ABS or CMP may have: DRAM, and apertures over DRAM (R248). -/
def dramBacked (s : State) (pa : Nat) : Bool :=
  paSpace pa = 0 ||
    (paSpace pa = 3 && paSpace (tget Aperture.reset (getDie s (paDie pa)).aps (paOff pa / 2 ^ 36)).tgt.toNat = 0)

/-- The memory the host allots to a job, absent and compressed only where it may be (R248). -/
def jobMap (s : State) (job : Nat) : List MapEnt :=
  (match getJob s job with | some j => j.map | none => []).map fun (m : MapEnt) =>
    if dramBacked s m.pbase then m else { m with abs := false, cmp := false }

/-- The part of the job's memory that covers a range, rounded out to pages: to 16 KiB where the frames are compressed,
so that every cut leaves PBASE aligned (DESIGN CHOICE, safe: log 48). The rules give the allotment no permissions: in the model it
carries its own RD and WR, which narrow those of the range (DESIGN CHOICE, unsafe: log 104). -/
def rangeSegs (map : List MapEnt) (a b : Nat) (rd wr : Bool) : List Seg :=
  map.filterMap fun m =>
    let u := if m.cmp then 16384 else 4096
    let lo := if a ≤ m.vbase then m.vbase else m.vbase + (a - m.vbase) / u * u
    let hi := if b ≤ m.vbase then m.vbase else m.vbase + (b - m.vbase + u - 1) / u * u
    let c := m.clip lo hi
    if b ≤ a ∨ c.len = 0 then none else some ({ c with rd := rd && m.rd, wr := wr && m.wr }, false)

/-- Every byte of a range lies in some stretch. -/
def covered (l : List Seg) (a b : Nat) : Bool :=
  let inside (p : Nat) : Bool := l.any (fun m => m.1.vbase ≤ p && p < m.1.vbase + m.1.len)
  b ≤ a || (inside a && l.all (fun m => let e := m.1.vbase + m.1.len; e ≤ a || b ≤ e || inside e))

/-- A word of the argument block, read through what is mapped for the launch. The rules do not say what base and length a
declared range has whose words lie outside the job's mapped memory: it reads 0, an empty range (DESIGN CHOICE, unsafe: log
83). -/
def argWord (s : State) (l : List Seg) (va : Nat) : Nat :=
  match l.find? (fun m => m.1.vbase ≤ va && va < m.1.vbase + m.1.len) with
  | some m => if m.1.cmp then leNat ((List.range 8).map (fun i =>
      ((readTgt s (.blk (m.1.at_ va) ((va - m.1.vbase) % 128 + i) m.1.expt)).getD 0))) else rd64 s.mem (m.1.at_ va)
  | none => 0

/-- Rising numbers without repeats. -/
def risingSet (l : List Nat) : List Nat := (l.insertionSort (· ≤ ·)).dedup

/-- The extent of one stretch between two cuts: the first stretch that covers it gives the frames, and the permissions
are joined (R432); a page of .text is executable and not writable (R248). -/
def cutExtent (l : List Seg) (a b : Nat) : Option Extent :=
  match l.filter (fun m => m.1.vbase ≤ a && b ≤ m.1.vbase + m.1.len) with
  | [] => none
  | m :: r =>
    let ex := m.2 || r.any (·.2)
    some { ps := 0, vbase := a, npg := (b - a) / 4096, rd := m.1.rd || r.any (·.1.rd)
           wr := !ex && (m.1.wr || r.any (·.1.wr)), ex := ex, abs := m.1.abs, cmp := m.1.cmp, expt := m.1.expt, pbase := m.1.at_ a
           serviced := false, requested := false }

/-- Two extents are one in both spaces. -/
def Extent.joins (e f : Extent) : Bool :=
  e.vbase + e.len = f.vbase && e.rd == f.rd && e.wr == f.wr && e.ex == f.ex && e.abs == f.abs && e.cmp == f.cmp &&
    e.expt == f.expt && f.pbase == (if e.cmp then e.pbase + 160 * (e.len / 128) else e.pbase + e.len)

/-- Extents of rising addresses, neighbours joined. -/
def joinExtents (l : List Extent) : List Extent :=
  l.foldr (fun e acc => match acc with
    | f :: r => if e.joins f then { e with npg := e.npg + f.npg } :: r else e :: acc
    | [] => [e]) []

/-- The extent table of a unit (R247, R432). -/
def buildExtents (s : State) (x : Launch) (core : Nat) : List Extent :=
  let map := jobMap s x.job
  let secs := sectionSegs s x (core / 64) core
  let all : List Seg := secs ++ map.map (fun m => (m, false))
  let t := (imageOf s x.image).bind (fun i => i.templates[x.tmpl]?)
  let ranges := (t.map (·.ranges)).getD []
  let decl := ranges.flatMap fun r =>
    let a := argWord s all (x.args + r.1)
    rangeSegs map a (a + argWord s all (x.args + r.1 + 8)) r.2.1 r.2.2
  let stop := x.args + (t.map (·.argBytes)).getD 0
  let segs := secs ++ decl ++ (if covered (secs ++ decl) x.args stop then [] else rangeSegs map x.args stop true false)
  let cuts := risingSet (segs.flatMap (fun m => [m.1.vbase, m.1.vbase + m.1.len]))
  joinExtents ((cuts.zip cuts.tail).filterMap (fun p => cutExtent segs p.1 p.2))

/-! ### Placement (R403-R405) -/

/-- e(X) of R404. -/
def Launch.eff (x : Launch) : Nat := if x.prio = 3 then 3 else min 2 (x.prio + x.age)

/-- Of two Ready launches that fit, the one to place first. -/
def before (x y : Launch) : Bool := x.eff > y.eff || (x.eff = y.eff && x.since < y.since)

/-- The Ready launch to place next, with its beds: while beds are held for one, only that one. -/
def pickReady (s : State) : Option (Launch × List Nat) :=
  let free := unheldBeds s
  let may (x : Launch) : Bool := match s.lsc.holder with | some h => decide (h = (x.job, x.lid)) | none => true
  s.lsc.launches.foldl (fun (best : Option (Launch × List Nat)) x =>
    if x.state == .ready && may x && jobIs s x.job (fun j => j.state == .active) then
      match fits s x free with
      | some b => match best with | some y => if before x y.1 then some (x, b) else best | none => some (x, b)
      | none => best
    else best) none

/-- The units of a launch on its beds: unit (UPB + 1) i + c runs on core c of the i-th bed. -/
def unitsOn (x : Launch) (beds : List Nat) : List UnitRec :=
  let old (n : Nat) : UnitRec := (x.units.find? (fun u => u.idx = n)).getD
    { idx := n, state := .none, core := 0, saved := [], spad := [], arrived := false, status := 0, code := 0 }
  beds.zipIdx.flatMap fun b => (List.range (x.upb + 1)).map fun c =>
    let u := old ((x.upb + 1) * b.2 + c)
    { u with core := 8 * b.1 + c, state := if u.state = .ended then .ended else .placed }

/-- The SBM region of a launch on a die: its physical address. -/
def Launch.sbmPa (x : Launch) (pkg d : Nat) : Option Nat := (x.sbm.find? (fun r => r.1 = d)).map (fun r => paMk pkg d 1 r.2)

/-- A launch placed again keeps the regions and copies where they are, or has them moved: physical runs (from, to, bytes)
from the launch as it was to the launch as it is now. Its program copies move with its lowest die (R403). The rules do not say
what becomes of the contents of an SBM region whose units go to another die: the region there gets those of the die its first
unit was on (DESIGN CHOICE, unsafe: log 47). -/
def placeMoves (s : State) (old x : Launch) : List (Nat × Nat × Nat) :=
  let n := (sbmRange s x).2
  let sbm := x.sbm.filterMap fun r =>
    let was := ((x.units.find? (fun u => u.core / 64 = r.1)).bind (fun u => old.units.find? (fun v => v.idx = u.idx))).map (·.core / 64)
    match was.bind (old.sbmPa s.plat.pkg) with
    | some a => some (a, paMk s.plat.pkg r.1 1 r.2, n)
    | none => none
  ((old.frames, x.frames, imageBytes s x) :: sbm).filter (fun m => m.1 ≠ m.2.1)

/-- The extents of a saved unit name its launch's program copies, and its die's SBM region, where they are now. DEDUCED,
unsafe: log 47. -/
def followMoves (s : State) (old x : Launch) (u : UnitRec) : UnitRec :=
  let shift (a b n : Nat) (e : Extent) : Option Nat :=
    if a ≤ e.pbase ∧ e.pbase < a + n then some (b + (e.pbase - a)) else none
  let follow (was : Nat) (e : Extent) : Extent :=
    let sbm := match old.sbmPa s.plat.pkg (was / 64), x.sbmPa s.plat.pkg (u.core / 64) with
      | some a, some b => shift a b (sbmRange s x).2 e
      | _, _ => none
    { e with pbase := ((shift old.frames x.frames (imageBytes s x) e).or sbm).getD e.pbase }
  { u with saved := u.saved.map (fun c => { c with extents := c.extents.map (follow c.num) }) }

/-- A Ready launch is placed: beds are assigned, SBM on each die, program copies in the DRAM of the lowest; the first time they
are written, again they are moved there (R400, R403, R412). -/
def placeLaunch (s : State) (x : Launch) (beds : List Nat) : State :=
  let dies := (beds.map (· / 8)).dedup
  let low := dies.headD 0
  let fresh := !(x.loaded && paDie x.frames = low)
  let off := frameFind s low s.lsc.nextFrame (imageBytes s x)
  let region (d : Nat) : Nat × Nat :=
    (x.sbm.find? (fun r => r.1 = d)).getD (d, (sbmFind s d (sbmRange s x).2).getD 0)
  let y := { x with
    state := .placing, beds := beds, units := unitsOn x beds, placedAt := s.lsc.placements, sbm := dies.map region
    frames := if fresh then paMk s.plat.pkg low 0 off else x.frames }
  let z := { y with units := y.units.map (followMoves s x y) }
  let s1 := setLaunch { s with lsc := { s.lsc with
    placements := s.lsc.placements + 1
    nextFrame := if fresh then off + imageBytes s x else s.lsc.nextFrame
    holder := if s.lsc.holder = some (x.job, x.lid) then none else s.lsc.holder } } z
  if x.loaded then (placeMoves s x z).foldl (fun t m => copyRun s t m.1 m.2.1 m.2.2) s1
  else z.sbm.foldl (fun s r => loadSbm s z r) (loadCopies s1 z)

/-- A gang has not committed (R414). -/
def gangOpen (s : State) (x : Launch) : Bool :=
  x.gang ≠ 0 && !s.lsc.gangs.any (fun g => g.job = x.job && g.num = x.gang && g.committed)

/-- Launches R405 may stop, in its order: lowest PRIO first, the most recently placed first among equals. -/
def victimOrder (s : State) : List Launch :=
  (s.lsc.launches.filter (fun x => x.state == .running && x.prio ≤ 2 && !gangOpen s x)).insertionSort
    (fun x y => x.prio < y.prio ∨ (x.prio = y.prio ∧ y.placedAt ≤ x.placedAt))

/-- Pass 1 of R405: launches taken until X fits, the latest first; none where it never does. -/
def takeVictims (s : State) (x : Launch) : List Launch → List Launch → List Nat → Option (List Launch)
  | rest, taken, free =>
    if (fits s x free).isSome then some taken
    else match rest with
      | [] => none
      | v :: r => takeVictims s x r (v :: taken) ((free ++ v.beds).insertionSort (· ≤ ·))

/-- Pass 2 of R405, over the launches taken, latest first: each that X does not need is released. -/
def releaseVictims (s : State) (x : Launch) (free : List Nat) : List Launch → List Launch → List Launch
  | kept, [] => kept
  | kept, v :: r =>
    let beds := (free ++ (kept ++ r).flatMap (·.beds)).insertionSort (· ≤ ·)
    if (fits s x beds).isSome then releaseVictims s x free kept r else releaseVictims s x free (v :: kept) r

/-- Pre-emption of the launches that a Ready launch of PRIO 3 needs (R405): PRE is set in their units, and beds are held. -/
def startPreemption (s : State) (x : Launch) : State :=
  let free := unheldBeds s
  match takeVictims s x (victimOrder s) [] free with
  | none => s
  | some taken =>
    let s1 : State := { s with lsc := { s.lsc with holder := some (x.job, x.lid) } }
    (releaseVictims s x free [] taken).foldl (fun (s : State) (v : Launch) =>
      (setLaunch s { v with state := .preempting } |> fun s2 => v.units.foldl (fun (s : State) (u : UnitRec) =>
        if u.state = .running then modCore s u.core (fun c => if c.run = .running then { c with pre := true } else c)
        else s) s2)) s1

/-- The Ready launch of PRIO 3 for which a pre-emption starts. -/
def preemptFor (s : State) : Option Launch :=
  if s.lsc.holder.isSome then none
  else s.lsc.launches.foldl (fun (best : Option Launch) x =>
    if x.state == .ready && x.prio = 3 && (fits s x (unheldBeds s)).isNone &&
        (takeVictims s x (victimOrder s) [] (unheldBeds s)).isSome then
      match best with | some y => if x.since < y.since then some x else best | none => some x
    else best) none

/-- LAUNCH_PLACEMENT: one Ready launch is placed, or a pre-emption starts for one that does not fit (R404, R405). -/
def execLaunchPlacement (s : State) : Res :=
  if s.plat.power ≠ .ready then .next s
  else match pickReady s with
    | some p => .next (placeLaunch s p.1 p.2)
    | none => match preemptFor s with | some x => .next (startPreemption s x) | none => .next s

/-- LAUNCH_AGEING: a launch has been Ready for one more whole millisecond (R404). DESIGN CHOICE, safe: log 46. -/
def execLaunchAgeing (job lid : Nat) (s : State) : Res :=
  match getLaunch s job lid with
  | some x => if x.state = .ready then .next (setLaunch s { x with age := x.age + 1 }) else .next s
  | none => .next s

/-! ### Start and save of units -/

/-- A core as R42 gives it to a unit, with its registers from the record and the job (R62, R153, R391); the reserved bits of
SEEDLOG read 0 (R8). -/
def freshUnit (s : State) (x : Launch) (u : UnitRec) (c : Core) : Core :=
  let t := (imageOf s x.image).bind (fun i => i.templates[x.tmpl]?)
  let groups := x.cgs.map fun g =>
    { cgid := g.1, nr := g.2.1, n := g.2.2.1, rank := g.2.2.2 + u.idx, issued := 0, vres := 0, vgen := 0, minor := 0 : CGroup }
  { Core.reset c.num with
    noise := c.noise, pc := BitVec.ofNat 64 ((t.map (·.entry)).getD 0)
    s := tset 0 (tset 0 (tset 0 [] 1 (BitVec.ofNat 64 x.args)) 2 (BitVec.ofNat 64 u.idx)) 3 (BitVec.ofNat 64 x.units.length)
    seedctl := BitVec.ofNat 64 (x.seedmode + x.seedcnt * 2 ^ 32), seedlog := BitVec.ofNat 64 (x.seedlog % 2 ^ 57)
    graft := Graft.reset x.gres, groups := groups }

/-- A saved unit on its new core (R411, R412): its scratchpad extents name the new core's scratchpad, as `followMoves` has made
the others name its launch's new frames. DEDUCED, unsafe: log 47. -/
def restoredUnit (s : State) (d c : Core) : Core :=
  { d with
    num := c.num, noise := c.noise, pc := d.xpc, xpc := 0, xcause := 0
    extents := d.extents.map fun e =>
      if paSpace e.pbase = 2 ∧ paPkg e.pbase = s.plat.pkg ∧ paCore e.pbase = d.num then
        { e with pbase := spadPa s.plat.pkg c.num (paOff e.pbase % 2 ^ 21) }
      else e }

/-- The scratchpad of a core written afresh from the image (R100); bytes outside every section are zeroed (DESIGN CHOICE,
unsafe: log 1). -/
def loadSpad (s : State) (x : Launch) (core : Nat) : State :=
  let pa := spadPa s.plat.pkg core 0
  let s1 := zeroRuns s [(pa, 2 ^ 21)]
  match imageOf s x.image with
  | none => s1
  | some i => (i.sections.filter (fun z => z.kind == .spad)).foldl (fun s z => putSection s (pa + (z.base - i.spadBase)) z) s1

/-- The scratchpad of a core as it was saved. -/
def restoreSpad (s : State) (u : UnitRec) (core : Nat) : State :=
  let pa := spadPa s.plat.pkg core 0
  u.spad.foldl (fun (s : State) (x : Host.Cell) => { s with mem := wr8 s.mem (pa + x.1) x.2 }) (zeroRuns s [(pa, 2 ^ 21)])

/-- The ports of a restored unit: what was saved, then what its neighbours have sent since. -/
def joinPorts (saved now : Tab (List QWord)) : Tab (List QWord) :=
  (List.range 8).foldl (fun t q => tset [] t q (tget [] saved q ++ tget [] now q)) []

/-- A unit runs from the next bt of its bed on; its launch is Running with the last of them (R42, R399, R400). -/
def startUnit (s : State) (x : Launch) (u : UnitRec) : State :=
  let c := getCore s u.core
  let again := u.saved.head?
  let s1 := match again with | some _ => restoreSpad s u u.core | none => loadSpad s x u.core
  let d0 := match again with
    | some d => { restoredUnit s d c with ports := joinPorts d.ports c.ports }
    | none => { freshUnit s x u c with extents := buildExtents s1 x u.core }
  let d := { d0 with
    run := .running, view := .unit, wait := none, trap := none, pre := false, nextBt := btOf s u.core + 1, busy := []
    lastPop := [], flights := c.flights, span := if again.isSome then d0.span else true
    xvec := BitVec.ofNat 64 (match getJob s x.job with | some j => j.xvec | none => 0), budget := x.budget
    job := x.job, lid := x.lid, unit := u.idx, gang := if gangOpen s x then x.gang else 0, dbg := x.dbg
    noise := c.noise }
  let us := x.units.map (fun y => if y.idx = u.idx then { y with state := .running, saved := [], spad := [] } else y)
  let run := us.all (fun y => y.state == .running || y.state == .ended)
  setLaunch (setCore s1 d) { x with units := us, state := if run ∧ x.state = .placing then .running else x.state }

/-- The LSC makes resident the first stretch of a job's memory that is absent in a table too long (R248). -/
def makeResident (s : State) (job : Nat) (l : List Extent) : State :=
  match getJob s job, l.find? (·.abs) with
  | some j, some e =>
    putJob s { j with map := j.map.map (fun m => if m.abs && m.vbase ≤ e.vbase && e.vbase < m.vbase + m.len then { m with abs := false } else m) }
  | _, _ => s

/-- UNIT_START: a placed unit starts or is restored. While its table would need more than 64 extents it does not, and the LSC
makes pages resident, so that neighbours become one (R248, R399). -/
def execUnitStart (job lid unit : Nat) (s : State) : Res :=
  match getLaunch s job lid with
  | none => .next s
  | some x => match x.units.find? (fun u => u.idx = unit) with
    | none => .next s
    | some u =>
      let table := buildExtents (loadSpad s x u.core) x u.core
      if s.plat.power ≠ .ready ∨ u.state ≠ .placed ∨ x.isOver ∨ x.state = .cancelled then .next s
      else if u.saved.isEmpty ∧ 64 < table.length then .next (makeResident s job table)
      else .next (startUnit s x u)

/-- What of a stopped core is saved: everything R411 saves always, and of the rest what the live map lists; a SEL beyond
the table saves every register (R238). Schedule ticks of the old bed mean nothing on the next (R10). R411 lists the unspent
chunks of a seed word neither as saved nor as not saved: they are dropped, and a restored unit draws a new word (DESIGN CHOICE,
unsafe: log 7). -/
def savedCore (c : Core) (maps : List LiveMap) : Core :=
  let keepAll := c.livemap ≥ maps.length
  let m := maps.getD c.livemap { s := [], v := [], p := [], a := [], h := [] }
  { c with
    s := if keepAll then c.s else c.s.filter (fun x => m.s.contains x.1)
    v := if keepAll then c.v else c.v.filter (fun x => m.v.contains (x.1 / 1024))
    p := if keepAll then c.p else c.p.filter (fun x => m.p.contains (x.1 / 2048))
    tiles := if keepAll then c.tiles else c.tiles.filter (fun x => m.a.contains x.1)
    slots := if keepAll then c.slots else c.slots.filter (fun x => m.h.contains (x.1 / 16384))
    handles := if keepAll then c.handles else c.handles.filter (fun x => m.h.contains x.1)
    bad := c.bad.filter (fun b => match b with
      | .slot h _ => keepAll || m.h.contains h
      | .tile t _ => keepAll || m.a.contains t
      | .bnd _ => true
      | .act _ | .shd _ => false)
    ports := c.ports.map (fun x => (x.1, x.2.map (fun w => { w with ready := 0 })))
    st := Trug.reset 32768, xs := [], act := Plane.reset, shd := Plane.reset, org := 0, lane := none, seedWord := 0, seedLeft := 0
    seedHeld := 0, tq := { c.tq with next := 0 }, cq := { c.cq with next := 0 }, gq := { c.gq with next := 0 }
    bq := { c.bq with next := 0 }, lastPop := [], busy := [] }

/-- No other core of a bed can send a unit a word any more, and none is on its way (R411: the ports are saved). -/
def portsSettled (s : State) (c : Core) : Bool :=
  c.flights.isEmpty && (bedCores s c.bedNum).all (fun d => d.run != .running && d.pend.isEmpty && d.vq.isEmpty)

/-- UNIT_SAVE: a stopped unit whose queues and accesses have drained is saved (R410, R411). -/
def execUnitSave (core : Nat) (s : State) : Res :=
  let c := getCore s core
  match getLaunch s c.job c.lid with
  | none => .next s
  | some x => match x.units.find? (fun u => u.idx = c.unit) with
    | none => .next s
    | some u =>
      if c.run ≠ .stopped ∨ u.core ≠ core ∨ (u.state ≠ .running ∧ u.state ≠ .stopped) then .next s
      else if !c.quiet || !portsSettled s c then
        .next (setLaunch s { x with units := x.units.map (fun y => if y.idx = u.idx then { u with state := .stopped } else y) })
      else
        let pa := spadPa s.plat.pkg core 0
        let cells := (s.mem.filter (fun z => pa ≤ z.1 && z.1 < pa + 2 ^ 21)).map (fun z => (z.1 - pa, z.2))
        let d := savedCore c ((imageOf s x.image).map (·.maps) |>.getD [])
        let u1 := { u with state := .saved, saved := [d], spad := cells }
        let x1 := { x with units := x.units.map (fun y => if y.idx = u.idx then u1 else y) }
        .next (afterLsc (setLaunch (freeCore s core) x1))

/-! ### The barrier (R228, R387, R408) -/

/-- Some vote of a group with a member in the launch is outstanding, or has diverged: no advance (R387). -/
def voteHolds (s : State) (x : Launch) : Bool :=
  let mine (c : Core) : Bool := c.run != .idle && c.job = x.job && c.lid = x.lid
  let cs := (s.core :: s.others).filter mine
  x.diverged || cs.any (fun c => !c.dones.isEmpty) ||
    cs.any (fun c => c.groups.any (fun g => (groupMembers s x.job g.cgid).any (fun d => d.dones.any (fun k => k.1 = g.cgid))))

/-- The target takes slots as they are: this package, and one that advertises compressed migration (R260, R427). -/
def takesSlots (s : State) (pa : Nat) : Bool := paPkg pa = s.plat.pkg || Config.migratesCompressed (paPkg pa)

/-- Block k of an extent's frames goes to new frames as its 128 bytes, coded there where they are compressed, as a foreign
writer's are in another package (R259, R260). A corrupt block does not move. -/
def moveBlock (s : State) (e : Extent) (m : Move) (k : Nat) : State :=
  let old := if e.cmp then readBlock s (e.pbase + 160 * k) else some (rdN s.mem (e.pbase + 128 * k) 128)
  let tgt (i : Nat) : Tgt :=
    if m.cmp then .blk (m.pbase + 160 * k) i (if paPkg m.pbase = s.plat.pkg then m.expt else 0) else .byte (m.pbase + 128 * k + i)
  match old with
  | some bs => (writeTgts s (bs.zipIdx.map (fun x => (tgt x.2, x.1)))).1
  | none => s

/-- The contents of an extent's frames go to its new frames: compressed ones as slots, headers included, where the target
takes them, else as expanded blocks (R260). -/
def moveFrames (s : State) (e : Extent) (m : Move) : State :=
  if e.cmp && m.cmp && takesSlots s m.pbase then copyRun s s e.pbase m.pbase (e.len / 128 * 160)
  else if !e.cmp && !m.cmp then copyRun s s e.pbase m.pbase e.len
  else (List.range (e.len / 128)).foldl (fun s k => moveBlock s e m k) s

/-- The bytes of frames that back a stretch: slots where they are compressed (R255). -/
def frameBytes (cmp : Bool) (len : Nat) : Nat := if cmp then (len + 127) / 128 * 160 else len

/-- The LSC may make a change of an extent: frames of DRAM that hold absent or compressed pages, PBASE aligned (R247, R248). -/
def moveFits (s : State) (e : Extent) (m : Move) : Bool :=
  if m.evict then dramBacked s e.pbase
  else paSpace e.pbase = 0 && paSpace m.pbase = 0 && paOk m.pbase && !mcHolds s m.pbase (frameBytes m.cmp e.len) &&
    !mcHolds s e.pbase (frameBytes e.cmp e.len) && m.pbase % (if m.cmp then 4096 else pageSize e.ps) = 0 && m.expt < 4

/-- The extent a change is of. -/
def moveExtent (s : State) (x : Launch) (m : Move) : Option Extent :=
  match x.units.find? (fun u => u.idx = m.unit) with
  | some u => (getCore s u.core).extents[m.ext]?
  | none => none

/-- The changes the LSC makes during an exchange: contents move once, whichever units name their frames; the tables follow as
each XBAR completes (R254, R260). DEDUCED, unsafe: log 79. -/
def makeMoves (s : State) (x : Launch) (ms : List Move) : State :=
  let ok := ms.filter (fun m => match moveExtent s x m with | some e => moveFits s e m | none => false)
  let runs := (ok.filterMap (fun m => if m.evict then none else (moveExtent s x m).map (fun e =>
    ({ e with vbase := 0, rd := true, wr := true, ex := false, abs := false, serviced := false, requested := false },
      { m with unit := 0, ext := 0 })))).dedup
  let s1 := runs.foldl (fun (s : State) (y : Extent × Move) => moveFrames s y.1 y.2) s
  { s1 with lsc := { s1.lsc with moves := s1.lsc.moves ++ ok.map (fun m => (x.job, x.lid, m)) } }

/-- An extent after a change. -/
def Extent.moved (e : Extent) (m : Move) : Extent :=
  if m.evict then { e with abs := true, serviced := false, requested := false }
  else { e with pbase := m.pbase, cmp := m.cmp, expt := m.expt }

/-- The superstep of a core ends: serviced extents become present, the changes made for its unit take effect, and the next
span's budget starts (R228, R254, R406). -/
def nextSuperstep (s : State) (c : Core) : State :=
  let mine (y : Nat × Nat × Move) : Bool := y.1 = c.job && y.2.1 = c.lid && y.2.2.unit = c.unit
  let table := c.extents.map (fun e => if e.serviced then { e with abs := false, serviced := false } else e)
  let table := (s.lsc.moves.filter mine).foldl (fun t y => match t[y.2.2.ext]? with | some e => t.set y.2.2.ext (e.moved y.2.2) | none => t) table
  let s1 := setCore s { c with supers := c.supers + 1, span := true, spent := 0, extents := table }
  { s1 with lsc := { s1.lsc with moves := s1.lsc.moves.filter (fun y => !mine y) } }

/-- A unit counts as arrived: it has posted its arrival, or it has ended, its last entry complete (R399, R408). -/
def hasArrived (s : State) (u : UnitRec) : Bool :=
  let c := getCore s u.core
  u.arrived || u.state == .ended || (u.state == .running && c.run == .ended && c.quiet)

/-- BARRIER_ADVANCE: every unit that has not ended has posted its arrival, so the barrier's generation advances
(R408); the LSC's changes of the units' mappings go with it (R254). -/
def execBarrierAdvance (job : Nat) (ex : Exchange) (s : State) : Res :=
  match getLaunch s job ex.lid with
  | none => .next s
  | some x =>
    if x.isOver ∨ !x.units.any (·.arrived) ∨ !x.units.all (hasArrived s) ∨ voteHolds s x then .next s
    else .next (setLaunch (makeMoves s x ex.moves) { x with
      barrier := x.barrier + 1, units := x.units.map (fun u => { u with arrived := false }) })

/-! ### Deadline (R406, R407) -/

/-- BUDGET_EXPIRY: the unit's count has passed BUDGET: deadline is raised as an event. -/
def execBudgetExpiry (core : Nat) (s : State) : Res :=
  let c := getCore s core
  if c.run = .running ∧ c.span ∧ c.budget ≠ 0 ∧ c.budget < c.spent then
    .next (setCore s { (c.hearEvent (eventRec 0x17 c.budget)) with span := false })
  else .next s

/-! ### Gangs (R413-R415) -/

/-- Commit reaches the units of the gang's members here: their WSEND waits end (R414). -/
def commitGang (s : State) (job gang : Nat) : State :=
  s.lsc.launches.foldl (fun s y => if y.job = job ∧ y.gang = gang then
    y.units.foldl (fun s u => if u.state = .running then modCore s u.core (fun c => { c with gang := 0 }) else s) s else s) s

/-- GANG_ACK: the coordinator hears that every unit of the member of a rank is Running, whether it has a member of its own or
not; with the last of the GNP + 1 the gang commits (R414). A member placed here does not send one before that holds. Of a gang
that has committed or was aborted, and of which no member lives here, an acknowledgement is the first of the gang submitted again
(R415), or a late one of the old, which is ignored: the former where its rank has been heard of before, else a free value says
which. DESIGN CHOICE, safe: log 45. -/
def execGangAck (job gang : Nat) (m : GangMember) (s : State) : Res :=
  let old := gangOf s job gang
  let ours (y : Launch) : Bool := y.job = job && y.gang = gang && !y.isOver
  let past := old.committed || old.aborted
  let heard := old.acks.contains m.rank
  if m.gnp < m.rank ∨ s.lsc.launches.any (fun y => ours y && (past || (y.grk = m.rank && y.state != .running))) then .next s
  else
    let d := if past && !heard then drawFree s else (s, 1)
    if past ∧ !d.2.getLsbD 0 then .next (putGang d.1 { old with acks := old.acks ++ [m.rank] })
    else
      let g := if past then Gang.fresh job gang else old
      let acks := if g.acks.contains m.rank then g.acks else g.acks ++ [m.rank]
      let done := m.gnp < acks.length
      let s1 := putGang d.1 { g with acks := acks, committed := done }
      .next (if done then commitGang s1 job gang else s1)

/-- GANG_ABORT: the coordinator's timer expires before commit (R415). -/
def execGangAbort (job gang : Nat) (s : State) : Res := .next (afterLsc (abortGang s job gang))

/-! ### Waits (R28, R29, R321) -/

/-- The cores of a bed that hold a unit, in order. -/
def liveCores (s : State) (b : Nat) : List Core := (bedCores s b).filter (fun c => c.run ≠ .idle)

/-- A wait that only the core's own trellis can end: the core holds and its bed does not stall (R321). The rest of XBAR's wait
stalls the bed; the columns still to act can then not do so, and it waits for none of them. DEDUCED, unsafe: log 21. -/
def waitHolds (c : Core) (w : Waiting) : Bool :=
  match w.w with
  | .token k => c.producedBy .trellis k
  | .port q => q = 4
  | .xbar false _ _ _ => !c.tq.es.isEmpty
  | _ => false

/-- The barrier of the core's launch has reached a generation. -/
def barrierAt (s : State) (c : Core) (gen : Nat) : Bool :=
  match getLaunch s c.job c.lid with | some x => gen ≤ x.barrier | none => false

/-- QWAIT on q4 holds until the entry that pushed the front word, a TSTAT, has completed (R321, R332). -/
def Core.tstatDone (c : Core) : Bool :=
  match c.port 4 with | w :: _ => !(w.q = 1 && c.tq.es.any (fun e => e.seq = w.seq)) | [] => false

/-- A wait need go on no longer: its condition holds, a fault is to be delivered, or a terminal event interrupts it
(R28, R176, R407). -/
def waitOver (s : State) (c : Core) (w : Waiting) : Bool :=
  (c.view == .unit && c.event.isSome) ||
  match w.w with
  | .token k => c.tokSet k || (c.twaitFault k).isSome
  | .syexp a _ _ => (c.access a).isNone
  | .sywait pa g => syncBad s pa || genReached (readSync s.mem pa).2.2.1 g
  | .port q => if q = 4 then c.tstatDone else !(c.port q).isEmpty
  | .xbar posted g _ _ => !c.pending.isEmpty || (posted && barrierAt s c g)
  | .gang => !c.gangWaits

/-- The core stalls its bed: by its word's wait, or by its trellis's (R28, R319). -/
def Core.stallsOn (s : State) (c : Core) : Bool :=
  c.trellisWaits ||
    (c.run == .running && (match c.wait with | some w => !waitHolds c w && !waitOver s c w | none => false))

/-! ### The sieves (R371-R373, R387) -/

/-- The digest of replica a: the lane-wise sum over its members. -/
def replicaDigest (l : List Digest) (m a : Nat) : Word × Word :=
  (l.filter (fun d => d.rank / m = a)).foldl (fun x d => (x.1 + d.lane0, x.2 + d.lane1)) (0, 0)

/-- A vote on replica digests: VRES, MINOR and the value held by a majority. -/
def vote (l : List (Word × Word)) : Nat × Nat × (Word × Word) :=
  if l.all (fun x => x = l.headD (0, 0)) then (1, 0, l.headD (0, 0))
  else match l.find? (fun x => l.length < 2 * (l.filter (· = x)).length) with
    | some v =>
      if 3 ≤ l.length then
        (2, l.zipIdx.foldl (fun a x => if x.1 = v then a else a + 2 ^ x.2) 0, v)
      else (3, 0, (0, 0))
    | none => (3, 0, (0, 0))

/-- The record of divergence for a unit (R373): of a member its own entry and digests, else XREC7 alone. -/
def divergeRec (l : List Digest) (nr cgid inst : Nat) (v : Nat × Nat × (Word × Word)) (g : Option CGroup) : FaultRec :=
  let detail := v.2.1 + v.1 * 2 ^ 16 + (nr - 1) * 2 ^ 20 + cgid * 2 ^ 24 + inst % 2 ^ 16 * 2 ^ 32
  let e := eventRec 0x18 detail
  match g.bind (fun g => l.find? (fun d => d.rank = g.rank)) with
  | none => e
  | some d =>
    let own := replicaDigest l (d.n / d.nr) (d.rank / (d.n / d.nr))
    { e with ipc := d.ipc, word := d.word, seq := d.seq, queue := 4, opa := own.1, opb := own.2, opc := v.2.2.1, addr := v.2.2.2 }

/-- The vote as a member's registers show it, and as it lets go of the instance. -/
def takeVote (cgid inst : Nat) (v : Nat × Nat × (Word × Word)) (c : Core) : Core :=
  { c with
    dones := c.dones.filter (· ≠ (cgid, inst))
    groups := c.groups.map fun g =>
      if g.cgid = cgid then { g with vres := v.1, vgen := inst % 2 ^ 16, minor := v.2.1 } else g }

/-- Divergence reaches a unit: as an event while it runs, in the record of a member that has ended (R372). -/
def diverge (f : FaultRec) (member : Bool) (c : Core) : Core :=
  match c.run with
  | .running => c.hearEvent f
  | .ended =>
    if member then
      { c with endStatus := max 1 c.endStatus, endCode := 0x18, endDetail := f.detail.toNat % 2 ^ 32 }
    else c
  | _ => c

/-- A TWAIT of the core is about to complete: its bed is not halted, and no other core stalls it (R29). -/
def leavesTwait (s : State) (c : Core) : Bool :=
  c.run == .running && !(getBed s c.bedNum).halt && !(liveCores s c.bedNum).any (Core.stallsOn s) && (match c.wait with
    | some w => (match w.w with | .token k => c.tokSet k | _ => false)
    | none => false)

/-- The oldest instance of a group that is ready to be voted on: all its digests are in, its entries have completed and set
their tokens (R150, R372), and so have the waits they end. DEDUCED, unsafe: log 22. -/
def ripeInstance (s : State) (job cgid : Nat) : Option Nat :=
  let ds := s.digests.filter (fun d => d.job = job ∧ d.cgid = cgid)
  let left (k : Nat) : Bool := (s.core :: s.others).any (fun c => c.job = job && c.run != .idle &&
    (c.bq.es.any (·.ofInstance cgid k) ||
      (leavesTwait s c && c.groups.any (fun g => g.cgid = cgid))))
  ((ds.map (·.inst)).dedup.filter (fun k =>
    (match ds.find? (fun d => d.inst = k) with
      | some d => decide ((ds.filter (fun e => e.inst = k)).length = d.n)
      | none => false) && !left k)).min?

/-- SIEVE_VOTE: the sieve votes on the oldest instance whose digests are in, and reports to the LSC (R371, R372). -/
def execSieveVote (job cgid : Nat) (s : State) : Res :=
  match ripeInstance s job cgid with
  | none => .next s
  | some k =>
    let l := s.digests.filter (fun d => d.job = job ∧ d.cgid = cgid ∧ d.inst = k)
    let n := (l.head?.map (·.n)).getD 1
    let nr := (l.head?.map (·.nr)).getD 1
    let v := vote ((List.range nr).map (replicaDigest l (n / nr)))
    let bad := v.1 ≠ 1
    let inGroup (c : Core) : Bool := c.job = job && c.run != .idle && c.groups.any (fun g => g.cgid = cgid)
    let hit := s.lsc.launches.filter (fun x => x.job = job && x.cgs.any (fun g => g.1 = cgid) && !x.isOver)
    let f (c : Core) : Core :=
      let c1 := if inGroup c then takeVote cgid k v c else c
      if bad && c.job = job && c.run != .idle && hit.any (fun x => x.lid = c.lid) then
        diverge (divergeRec l nr cgid k v (c.group cgid)) (inGroup c) c1
      else c1
    let s1 : State := { s with
      core := f s.core, others := s.others.map f
      digests := s.digests.filter (fun d => !(d.job = job && d.cgid = cgid && d.inst = k))
      lsc := { s.lsc with launches := s.lsc.launches.map (fun x =>
        if x.job = job then { x with
          diverged := x.diverged || (bad && x.cgs.any (fun g => g.1 = cgid) && !x.isOver)
          units := x.units.map (fun u => { u with saved := u.saved.map (takeVote cgid k v) }) } else x) } }
    if !bad then .next s1
    else .next (afterLsc (hit.foldl (fun (s : State) (x : Launch) =>
      let p := getGroup s 3 job x.phase
      if p.isOver then s else putGroup s { p with diverged := true }) s1))

end Sys2Proof.Machine
end

