-- ==== Sys2Proof/Machine/Platform.lean ====
section
/-! DEFINITION. Power, heat, attachment, security and bring-up (R416-R429), accesses from outside (R144, R426), memory errors
(R183), aperture registers (R261). -/

namespace Sys2Proof.Machine

/-! ### Tick periods and throttle notices (R416-R419) -/

/-- The thermal demand of a die at T in 1/16 degC (R416). -/
def thermalDemand (t16 : Int) : Nat :=
  if t16 ≤ 1680 then 16 else if 1760 ≤ t16 then 64 else 16 + (48 * (t16 - 1680).toNat + 79) / 80

/-- What the four demands ask of a pair: cap, thermal, derating, balance. -/
def demands (s : State) (p : Nat) : Nat × Nat × Nat × Nat :=
  (16 + tget 0 s.plat.cap p, thermalDemand (getDie s (p / 4)).t16, 16 + tget 0 s.plat.der p, 16 + tget 0 s.plat.bal p)

/-- The PERIOD the demands make (R416). -/
def periodOf (d : Nat × Nat × Nat × Nat) : Nat := max (max d.1 d.2.1) (max d.2.2.1 d.2.2.2)

/-- The cause a throttle notice names for a rise to PERIOD; none for one that balance alone asks for (R419). -/
def riseCause (d : Nat × Nat × Nat × Nat) : Option Nat :=
  let p := periodOf d
  if d.1 = p then some 0 else if d.2.1 = p then some 1 else if d.2.2.1 = p then some 2 else none

/-- A throttle notice reaches the units of a bed; a later one takes the place of one not yet taken (R419).
DEDUCED, unsafe: log 54. -/
def noticeBed (s : State) (b period cause : Nat) : State :=
  let f (c : Core) : Core := if c.bedNum = b ∧ c.run = .running then
      { c with thr := true, thrDetail := BitVec.ofNat 64 (period + cause * 2 ^ 8) } else c
  { s with core := f s.core, others := s.others.map f }

/-- A bed takes a PERIOD. -/
def setPeriod (s : State) (b period : Nat) (cause : Option Nat) : State :=
  let old := (getBed s b).period
  let s1 := modBed s b (fun x => { x with period := period })
  match cause with
  | some c => if old < period then noticeBed s1 b period c else s1
  | none => s1

/-- The power controller's modelled demands drawn anew for a pair (R416, R418; the powers are not in the spec, log 10).
DESIGN CHOICE, safe: log 10. -/
def drawDemands (s : State) (p : Nat) : State :=
  let x (k : Nat) : Nat := Config.powerDemand p (s.fresh + k) % 49
  { s with
    fresh := s.fresh + 3
    plat := { s.plat with
      cap := tset 0 s.plat.cap p (x 0), der := tset 0 s.plat.der p (x 1), bal := tset 0 s.plat.bal p (x 2) } }

/-- What a pair carries, in the model's measure: cores that run a unit, and entries that run. DESIGN CHOICE, safe: log 10. -/
def pairLoad (s : State) (p : Nat) : Nat :=
  let entries (c : Core) : Nat := ([EngQ.trellis, .copy, .graft, .bank].filter (fun q => match c.head q with
    | some e => e.ph == .running
    | none => false)).length
  ((bedCores s (2 * p) ++ bedCores s (2 * p + 1)).map (fun c => (if c.run = .running then 1 else 0) + entries c)).sum

/-- The power controller looks at every pair anew. -/
def rouse (s : State) : State :=
  { s with plat := { s.plat with taper := (List.range 16).foldl (fun t p => tset 0 t p (max 1 (tget 0 t p))) s.plat.taper } }

/-- A pair whose load has changed: its current tapers to the new level over 64 of its ticks (R418). -/
def noteLoad (s : State) (p : Nat) : State :=
  let n := pairLoad s p
  if n = tget 0 s.plat.load p then s
  else { s with plat := { s.plat with load := tset 0 s.plat.load p n, taper := tset 0 s.plat.taper p 64 } }

/-- The demands on a pair for its next tick: drawn anew while some pair's current changes, as the cap is the package's (R416,
R418). -/
def nextDemands (s : State) (p : Nat) : State :=
  if s.plat.taper.isEmpty then s
  else
    let s1 := drawDemands s p
    { s1 with plat := { s1.plat with taper := tset 0 s1.plat.taper p (tget 0 s1.plat.taper p - 1) } }

/-- A tick boundary that both beds of a pair share: both take the PERIOD their demands make (R416). -/
def tickPair (s : State) (p : Nat) : State :=
  let s1 := nextDemands (noteLoad s p) p
  let d := demands s1 p
  setPeriod (setPeriod s1 (2 * p) (periodOf d) (riseCause d)) (2 * p + 1) (periodOf d) (riseCause d)

/-- The voltage of a die's VCD rail follows its temperature and the PERIODs of its pairs (R420, R422). -/
def setVoltage (s : State) (die : Nat) : State :=
  let d := getDie s die
  let ps := (List.range 4).map (fun i => (getBed s (8 * die + 2 * i)).period)
  setDie s { d with vcd := 1200 + Config.coreVoltage d.t16 ps % 401 }

/-- A tick boundary of a bed: RAMPHINT by the latest sample, and with the pair's first bed the PERIOD of both, and the voltage
of their die (R22, R416, R422). -/
def tickPower (s : State) (b : Nat) : State :=
  let s1 := modBed s b (fun x => { x with ramphint := rampHint ((getDie s (b / 8)).t16 - 1360) })
  if b % 2 = 0 then setVoltage (tickPair s1 (b / 2)) (b / 8) else s1

/-! ### Reset, bring-up, trips (R424, R428, R429) -/

/-- A core at reset; its noise source does not start again (R61). -/
def coldCore (c : Core) : Core := { Core.reset c.num with noise := c.noise }

/-- An event that the outside world makes: a reset does not take it back, and it gets its answer (R429). -/
def fromOutside (i : Instr) : Bool :=
  match i with
  | .remoteAccess _ | .notify _ | .cread _ | .preset _ | .rdoor _ | .pwrcap _ | .attestationRequest _ | .powerOn
  | .lossOfInputPower | .phaseLoss _ | .temperatureSample _ _ | .thermalTrip _ => true
  | _ => false

/-- Cores and beds as they leave reset, RAMPHINT by their die's temperature. -/
def coldBeds (s : State) : State :=
  let bed (b : Bed) : Bed := { Bed.reset b.num with ramphint := rampHint ((getDie s (b.num / 8)).t16 - 1360) }
  { s with
    core := coldCore s.core, others := s.others.map coldCore, bed := bed s.bed
    otherBeds := (((List.range 32).filter (fun n => n ≠ s.bed.num)).map (fun n => bed (Bed.reset n))).filter
      (fun b => b ≠ Bed.reset b.num)
    digests := [], agenda := s.agenda.filter fromOutside }

/-- The launch scheduler as it leaves reset; what the host holds for it stays (log 9). -/
def coldLsc (s : State) : State := { s with lsc := { Lsc.reset with images := s.lsc.images, maps := s.lsc.maps } }

/-- The ROM verifies an image (R428); that of delivery as log 12 says. -/
def verified (p : Platform) (img : List Byte) : Bool := match img with | [] => p.imageOk | _ => Config.verifies img

/-- The image that runs: the latest one where it verifies, else the previous one (R428); its version is free. DESIGN CHOICE,
safe: log 64. -/
def boot (s : State) : Option State :=
  if verified s.plat s.plat.image then some s
  else if verified s.plat s.plat.prev then
    let d := drawFree s
    some { d.1 with plat := { s.plat with image := s.plat.prev, fwver := d.2.toNat % 2 ^ 32 } }
  else none

/-- Steps 1-5 of R429: the ports are trained and READY is 0; or recovery, where no image verifies. DESIGN CHOICE, unsafe: log
12. -/
def bringUp (s : State) : State :=
  let s1 := coldLsc (coldBeds { s with dies := s.dies.map (fun d => { d with aps := [] }) })
  let pl := { s1.plat with
    phases := [], derate := 0, recov := false, pwrcap := 1400, cap := [], der := [], bal := [], load := [], taper := []
    railTrip := false, heatTrip := false, stopped := [] }
  match boot { s1 with plat := pl } with
  | some t =>
    { t with
      plat := { t.plat with power := .linked }, mem := zeroN t.mem pl.subbase 0x201000
      ecc := t.ecc.filter (fun a => !(pl.subbase ≤ a && a < pl.subbase + 0x201000)) }
  | none => { s1 with plat := { pl with power := .recovery, recov := true } }

/-- POWER_ON (R429): steps 1-5, RFAIL and TTRIP being 0; and of a package that has come so far, step 6: READY. -/
def execPowerOn (s : State) : Res :=
  match s.plat.power with
  | .off | .up => .next (bringUp { s with plat := { s.plat with rfail := false, ttrip := false } })
  | .linked => .next { s with plat := { s.plat with power := .ready } }
  | .ready | .recovery | .tripped => .next s

/-- LOSS_OF_INPUT_POWER: the package is down, and nothing volatile is kept (R421). -/
def execLossOfInputPower (s : State) : Res :=
  let s1 := coldLsc (coldBeds { s with mem := [], ecc := [], writes := [], dies := [Die.reset 0, Die.reset 1, Die.reset 2, Die.reset 3] })
  .next { s1 with
    plat := { s.plat with
      power := .off, rfail := false, ttrip := false, recov := false, derate := 0, pwrcap := 1400, phases := [], plog := []
      cap := [], der := [], bal := [], load := [], taper := [], railTrip := false, heatTrip := false, stopped := [] } }

/-- A unit killed by a trip, one past DONE whose entries still run among them (R399): charged at once, and everything its core
had under way is gone (R424). -/
def Core.trip (c : Core) : Core :=
  let c1 := match c.run with | .running | .stopped | .ended => c.kill 2 0 0 0 | .idle => c
  { c1 with
    pend := [], vq := [], accs := [], dones := [], tq := EQueue.reset, cq := EQueue.reset, gq := EQueue.reset
    bq := EQueue.reset }.countRegs

/-- The units that a pre-emption has stopped and saved end killed by a trip (R424). -/
def tripSaved (s : State) : State :=
  s.lsc.launches.foldl (fun s x => (x.units.filter (fun u => u.state == .saved)).foldl (fun s u => cancelUnit s x 2 u) s) s

/-- Every launch that has not ended is Failed, and its units that have no core yet end with it (R424): the launches that had
ended before the trip are given. DEDUCED, unsafe: log 58. -/
def failLaunches (ended : List (Nat × Nat)) (s : State) : State :=
  s.lsc.launches.foldl (fun (s : State) (x : Launch) =>
    let y := again s x
    if y.isOver || ended.contains (x.job, x.lid) then s
    else
      let s1 := setLaunch s { y with state := if y.state = .cancelled then .cancelled else .failed }
      cancelUnits s1 x) s

/-- A trip (R424): the beds stop, units end killed with CODE 0, launches fail, and the rails of beds and engines go down. -/
def trip (s : State) : State :=
  let s1 : State := { s with core := s.core.trip, others := s.others.map Core.trip }
  let ended := (s.lsc.launches.filter (launchOver s)).map (fun x => (x.job, x.lid))
  let s2 := afterLsc (failLaunches ended (reapAll (tripSaved s1)))
  let s3 := coldBeds s2
  { s3 with plat := { s3.plat with power := .tripped } }

/-- What has asked for a trip, as PSTAT shows it: RFAIL and TTRIP. -/
def writePstat (s : State) : State := { s with plat := { s.plat with
  rfail := s.plat.rfail || s.plat.railTrip, ttrip := s.plat.ttrip || s.plat.heatTrip
  railTrip := false, heatTrip := false, stopped := [] } }

/-- A trip is asked for (R424): its beds stop each at their next tick boundary where the package runs (`tripTick`); where it
comes up, or is in recovery, no unit runs, and the trip is at once. -/
def tripNow (s : State) : State :=
  match s.plat.power with | .ready => s | .linked | .recovery => trip (writePstat s) | .off | .up | .tripped => writePstat s

/-- A trip is on its way. -/
def Platform.tripping (p : Platform) : Bool := p.railTrip || p.heatTrip

/-- A host reset (R429): units and launches end without records, and bring-up runs again; RFAIL and TTRIP are kept.
DESIGN CHOICE, unsafe: log 57. -/
def hostReset (s : State) : State := bringUp (writePstat s)

/-- PRESET: a store of 1 requests a host reset (R425, R429). -/
def execPreset (v : Word) (s : State) : Res :=
  if answers s then
    let s1 : State := { s with log := s.log ++ [.stored (s.plat.platbase + 0x18)] }
    .next (if v = 1 then hostReset s1 else s1)
  else .next s

/-- The recovery window (R428). -/
def recoveryBase : Nat := 0x10000000
/-- Its 64 MiB. -/
def recoveryLen : Nat := 64 * 2 ^ 20

/-- RDOOR: in recovery, an image in the window that verifies becomes the firmware, and a host reset follows (R425, R428); no
bytes hold no signatures, so they are discarded. DESIGN CHOICE, safe: log 64. -/
def execRdoor (n : Nat) (s : State) : Res :=
  if !answers s then .next s
  else
    let s1 : State := { s with log := s.log ++ [if s.plat.power = .tripped ∨ s.plat.power = .linked then
      .error (s.plat.platbase + 0x20) else .stored (s.plat.platbase + 0x20)] }
    if s.plat.power ≠ .recovery ∨ recoveryLen < n then .next s1
    else
      let img := rdN s.mem (paMk s.plat.pkg 0 0 0 + recoveryBase) n
      if n ≠ 0 ∧ Config.verifies img then
        let d := drawFree s1
        .next (hostReset { d.1 with plat := { d.1.plat with
          image := img, prev := d.1.plat.image, fwver := d.2.toNat % 2 ^ 32 } })
      else .next s1

/-! ### Sensors, cap, rails (R421-R425) -/

/-- TEMPERATURE_SAMPLE: the die's temperature is the highest of its four sensors'; RAMPHINT, the tick periods and the
voltage follow at the next tick boundaries (R22, R416, R422). -/
def execTemperatureSample (die : Nat) (x : Sensors) (s : State) : Res :=
  match s.plat.power with
  | .linked | .ready | .tripped =>
    if 4 ≤ die then .next s else .next (rouse (setDie s { getDie s die with t16 := max (max x.a x.b) (max x.c x.d) }))
  | .off | .up | .recovery => .next s

/-- PWRCAP: the host writes the cap; a value outside 300-1,400 W is ignored (R425). -/
def execPwrcap (v : Word) (s : State) : Res :=
  if s.plat.power ≠ .ready then .next (refuseAccess s (s.plat.platbase + 8))
  else
    let s1 : State := { s with log := s.log ++ [.stored (s.plat.platbase + 8)] }
    if 300 ≤ v.toNat ∧ v.toNat ≤ 1400 then .next (rouse { s1 with plat := { s1.plat with pwrcap := v.toNat } })
    else .next s1

/-- PHASE_LOSS: a phase of a rail is lost (R421): derated, a rail trip below a third, and with VSB's phase the package is
down. DEDUCED, safe: log 65. -/
def execPhaseLoss (rail : Nat) (s : State) : Res :=
  if s.plat.power = .off ∨ s.plat.power = .up ∨ 9 < rail ∨ working s rail = 0 then .next s
  else if rail = 9 then execLossOfInputPower s
  else
    let s1 : State := { s with plat := { s.plat with
      phases := tset 0 s.plat.phases rail (tget 0 s.plat.phases rail + 1), plog := s.plat.plog ++ [rail] } }
    if railDown s1 rail then .next (tripNow { s1 with plat := { s1.plat with railTrip := true } })
    else .next (rouse { s1 with plat := { s1.plat with derate := s1.plat.derate ||| 2 ^ rail } })

/-- THERMAL_TRIP: a die has stood at 115 degC or above for 1 ms (R423, R424). -/
def execThermalTrip (die : Nat) (s : State) : Res :=
  match s.plat.power with
  | .linked | .ready =>
    if die < 4 ∧ 1840 ≤ (getDie s die).t16 then .next (tripNow { s with plat := { s.plat with heatTrip := true } }) else .next s
  | .off | .up | .recovery | .tripped => .next s

/-! ### The platform page and the identity record (R425, R427) -/

/-- PSTAT. -/
def pstat (s : State) : Nat :=
  let bit (x : Bool) (n : Nat) : Nat := if x then 2 ^ n else 0
  s.plat.derate % 2 ^ 9 + bit s.plat.rfail 16 + bit s.plat.ttrip 17 + bit (s.plat.power == .ready) 18 +
    bit s.plat.recov 19

/-- A word of the platform page; `w` is the measured power (R425, log 10). -/
def platWord (s : State) (w off : Nat) : Nat :=
  if off = 0 then pstat s
  else if off = 8 then s.plat.pwrcap
  else if off = 0x10 then w % 2 ^ 11
  else if 0x40 ≤ off ∧ off < 0x60 then wrapN 16 (getDie s ((off - 0x40) / 8)).t16
  else if 0x80 ≤ off ∧ off < 0x100 then (getBed s (2 * ((off - 0x80) / 8))).period
  else if 0x180 ≤ off ∧ off < 0x1D0 then
    let n := (off - 0x180) / 8
    working s n * (railOf n).2 + working s n * 2 ^ 16
  else 0

/-- ATTESTATION_REQUEST (R428). -/
def execAttestationRequest (nonce : Nat) (s : State) : Res :=
  if s.plat.power ≠ .ready ∧ s.plat.power ≠ .linked then .next (refuseAccess s 0)
  else
    let m := measOf s
    let p := pstat s
    let msg := leBytes 48 m ++ leBytes 32 nonce ++ leBytes 8 p
    .next { s with log := s.log ++ [.attest m (nonce % 2 ^ 256) p (Config.signature msg)] }

/-! ### Accesses from outside (R144, R426) -/

/-- Where a physical address lies for an access from outside. -/
inductive RemoteHome where
  | ident | page (off : Nat) | sub (off : Nat) | job | window | nowhere
  deriving DecidableEq, Repr

/-- The frames of the jobs: of each stretch whether it is compressed, its physical address and its bytes; memory allotted to
live jobs, and the extents of their units. DEDUCED, unsafe: log 60. -/
def jobFrames (s : State) : List (Bool × Nat × Nat) :=
  (s.lsc.jobs.filter (fun j => j.state != .ended)).flatMap (fun j => j.map.map (fun m => (m.cmp, m.pbase, frameBytes m.cmp m.len))) ++
    ((s.core :: s.others).filter (fun c => c.run != .idle)).flatMap (fun c =>
      c.extents.map (fun e => (e.cmp, e.pbase, frameBytes e.cmp e.len)))

/-- A byte of a physical address belongs to a job: to its frames, or to its counter page, which stays when the job has ended
(R397). -/
def jobHolds (s : State) (pa : Nat) : Bool :=
  (jobFrames s).any (fun x => x.2.1 ≤ pa && pa < x.2.1 + x.2.2) || s.lsc.jobs.any (fun j => j.jstat ≤ pa && pa < j.jstat + 4096)

/-- A view of physical memory as an extent, through which an access from outside passes. -/
def outerExtent (cmp : Bool) (pa : Nat) : Extent :=
  { ps := 0, vbase := 0, npg := 1, rd := true, wr := true, ex := false, abs := false, cmp := cmp, expt := 0, pbase := pa
    serviced := false, requested := false }

/-- Where a byte of a job's memory lies for an access from outside, and the address of the byte that follows it (R145, R258,
R259): compressed frames show their blocks' bytes, the address naming a slot and a byte of its block; none where a byte is no
job's. DEDUCED, unsafe: log 82. -/
def outerByte (s : State) (pa : Nat) (wr : Bool) : Option (Place × Nat) :=
  match (jobFrames s).find? (fun x => x.1 && x.2.1 ≤ pa && pa < x.2.1 + x.2.2) with
  | some x =>
    let o := pa - x.2.1
    if o % 160 < 128 then
      (placeOf s (outerExtent true x.2.1) (o / 160 * 128 + o % 160) wr).toOption.map (fun p => (p, if o % 160 = 127 then pa + 33 else pa + 1))
    else none
  | none => if jobHolds s pa then (placeOf s (outerExtent false pa) 0 wr).toOption.map (fun p => (p, pa + 1)) else none

/-- The places of an access from outside to jobs' memory, each byte by the frame it lies in. -/
def outerPlaces (s : State) (addr : Nat) (wr : Bool) : Nat → Option (List Place)
  | 0 => some []
  | n + 1 => (outerByte s addr wr).bind (fun x => (outerPlaces s x.2 wr n).map (x.1 :: ·))

/-- The home of a range of an access from outside, in what the package answers for now. -/
def remoteHome (s : State) (addr len : Nat) : RemoteHome :=
  let base := paMk s.plat.pkg 0 0 0
  let within (a n : Nat) : Bool := a ≤ addr && addr + len ≤ a + n
  if len = 0 ∨ 4096 < len then .nowhere
  else if within base (256 + 3373) then .ident
  else if within s.plat.platbase 4096 then .page (addr - s.plat.platbase)
  else match s.plat.power with
    | .recovery => if within (base + recoveryBase) recoveryLen && subUp s then .window else .nowhere
    | .ready => if within s.plat.subbase 0x201000 then (if subUp s then .sub (addr - s.plat.subbase) else .nowhere) else .job
    | .tripped => if within s.plat.subbase 0x201000 && subUp s then .sub (addr - s.plat.subbase) else .nowhere
    | .linked | .off | .up => .nowhere

/-- The eight-byte words of the platform page from an offset, as bytes. -/
def pageBytes (s : State) (w off len : Nat) : List Byte :=
  (List.range len).map (fun i => BitVec.ofNat 8 (platWord s w ((off + i) / 8 * 8) / 2 ^ (8 * ((off + i) % 8))))

/-- A remote load. -/
def remoteLoad (s : State) (addr len : Nat) : State :=
  let answer (s : State) (bs : List Byte) : State := { s with log := s.log ++ [.loaded addr bs] }
  match remoteHome s addr len with
  | .ident => answer s (((identityAll s).drop (addr - paMk s.plat.pkg 0 0 0)).take len)
  | .page off => let d := drawFree s; answer d.1 (pageBytes d.1 d.2.toNat off len)
  | .sub _ => answer s (rdN s.mem addr len)
  | .job =>
    match (outerPlaces s addr false len).map (readPlaces s) with
    | some (.ok bs) => answer s bs
    | _ => refuseAccess s addr
  | _ => refuseAccess s addr

/-- Bytes written for an access from outside, and its completion: an error where a byte was dropped (R257). -/
def outerWrite (s : State) (addr : Nat) (ps : Option (List Place)) (bytes : List Byte) : State :=
  match ps with
  | none => refuseAccess s addr
  | some l =>
    let r := writePlaces s (l.zip bytes)
    { r.1 with log := r.1.log ++ [if r.2.isSome then .error addr else .stored addr] }

/-- A range of physical memory as it stands. -/
def plainPlaces (addr len : Nat) : List Place := (List.range len).map (fun i => .one (.byte (addr + i)))

/-- A remote store: the record ring and CREAD of the submission region, the three words of the platform page, the recovery
window, memory of a job. DEDUCED, unsafe: log 59. -/
def remoteStore (s : State) (addr : Nat) (bytes : List Byte) : Res :=
  let len := bytes.length
  let plain := outerWrite s addr (some (plainPlaces addr len)) bytes
  match remoteHome s addr len with
  | .page 8 => if len = 8 then execPwrcap (BitVec.ofNat 64 (leNat bytes)) s else .next (refuseAccess s addr)
  | .page 0x18 => if len = 8 then execPreset (BitVec.ofNat 64 (leNat bytes)) s else .next (refuseAccess s addr)
  | .page 0x20 => if len = 8 then execRdoor (leNat bytes) s else .next (refuseAccess s addr)
  | .sub off =>
    if off = 0x20 ∧ len = 8 then execCread (leNat bytes) s
    else .next (if s.plat.power = .ready ∧ 0x1000 ≤ off ∧ off + len ≤ 0x101000 then plain else refuseAccess s addr)
  | .window => .next plain
  | .job => .next (outerWrite s addr (outerPlaces s addr true len) bytes)
  | _ => .next (refuseAccess s addr)

/-- An address lies in the window of an aperture that is no identity: no atomic passes it (R263). -/
def bentAperture (s : State) (addr : Nat) : Bool :=
  paSpace addr = 3 && (tget Aperture.reset (getDie s (paDie addr)).aps (paOff addr / 2 ^ 36)).xf ≠ 0

/-- A remote atomic on a naturally aligned word (R75, R426): NOTIFY by add, or a job's memory. -/
def remoteAtomic (s : State) (aop : Aop) (addr : Nat) (b c : Word) (peer : Nat) : Res :=
  let len := if aop = .fadd then 4 else 8
  if addr % len ≠ 0 then .next (refuseAccess s addr)
  else match remoteHome s addr len with
    | .sub 0 => if aop = .add then execNotify ⟨b.toNat, peer⟩ s else .next (refuseAccess s addr)
    | .job =>
      let ps := (outerPlaces s addr true len).getD []
      match if ps.isEmpty || bentAperture s addr then .error 0 else readPlaces s ps with
      | .error _ => .next (refuseAccess s addr)
      | .ok bs =>
        let old := leNat bs
        let s1 := match aopNew aop old b.toNat c.toNat with
          | some v => (writePlaces s (ps.zip (leBytes len v))).1
          | none => s
        .next { s1 with log := s1.log ++ [.old addr (BitVec.ofNat 64 old)] }
    | _ => .next (refuseAccess s addr)

/-- REMOTE_ACCESS: an access of the host or a peer, performed at dom, and its completion (R144, R426). -/
def execRemoteAccess (r : RemoteReq) (s : State) : Res :=
  if !answers s then .next s
  else match r with
    | .load addr len => if paPkg addr ≠ s.plat.pkg then .next s else .next (remoteLoad s addr len)
    | .store addr bytes => if paPkg addr ≠ s.plat.pkg then .next s else remoteStore s addr bytes
    | .atomic aop addr b c peer => if paPkg addr ≠ s.plat.pkg then .next s else remoteAtomic s aop addr b c peer

/-! ### Correctable errors (R183) -/

/-- CORRECTABLE_ERROR: CECNT counts, and the bed freezes for 32 wt from here (R183, R184). -/
def execCorrectableError (bed : Nat) (s : State) : Res :=
  if s.plat.power ≠ .ready ∨ 32 ≤ bed then .next s
  else .next (modBed s bed (fun b => { b with freeze := 32, cecnt := min (b.cecnt + 1) (2 ^ 32 - 1) }))

/-- FREEZE_END: the last wall tick of a freeze is over (R183). -/
def execFreezeEnd (bed : Nat) (s : State) : Res :=
  .next (modBed s bed (fun b => if b.freeze = 1 then { b with freeze := 0 } else b))

/-! ### Aperture registers (R261, R262) -/

/-- The bytes left in the space of a physical address. -/
def spaceLeft (pa : Nat) : Nat :=
  (match paSpace pa with | 0 => 192 * 2 ^ 30 | 1 => 96 * 2 ^ 20 | 2 => 2 ^ 27 | _ => 2 ^ 40) - paOff pa

/-- The registers of an aperture obey R262 and, where it is enabled, lie within a space of their own die (R261).
DEDUCED, unsafe: log 62. -/
def apertureOk (s : State) (die : Nat) (a : Aperture) : Bool :=
  let tb := a.tgt.toNat
  let len := a.len.toNat
  let n := a.ctl.toNat
  let area := (a.nr + 1) * (a.nc + 1) * a.esz
  let al := match a.xf with | 1 => 4096 | 2 => 16384 | 3 => a.esz | 4 => a.gsz | _ => 1
  tb < 2 ^ 52 && len < 2 ^ 36 && n < 2 ^ 48 && n / 2 ^ 9 % 2 ^ 7 = 0 && a.xf ≤ 4 && tb % al = 0 &&
    (match a.xf with
      | 1 => len % 160 = 0
      | 2 => len % 16384 = 0
      | 3 => len = area
      | 4 => len % a.gsz = 0
      | _ => true) &&
    (!a.en || ((paSpace tb = 0 || (paSpace tb = 1 && a.xf ≠ 1)) && paDie tb = die && paPkg tb = s.plat.pkg && paOk tb &&
      len ≤ spaceLeft tb))

/-- APERTURE_REGISTER_WRITE: registers 0 APTGT, 1 APLEN, 2 APCTL; refused, and reported so, where a rule breaks. While an extent of
a running unit lies over the aperture, an entry of one past DONE among them (R399), the registers do not change (R261), and the
model reports that as a refusal too (DESIGN CHOICE, unsafe: log 98). -/
def execApertureRegisterWrite (die n reg : Nat) (v : Word) (s : State) : Res :=
  let d := getDie s die
  let old := tget Aperture.reset d.aps n
  let a := match reg with | 0 => { old with tgt := v } | 1 => { old with len := v } | _ => { old with ctl := v }
  let lies (e : Extent) : Bool := paSpace e.pbase = 3 && paDie e.pbase = die && paPkg e.pbase = s.plat.pkg && paOff e.pbase / 2 ^ 36 = n
  let used := (s.core :: s.others).any (fun c => c.run != .idle && !c.isOver && c.extents.any lies)
  if s.plat.power ≠ .ready ∨ 4 ≤ die ∨ 16 ≤ n ∨ 3 ≤ reg then .next s
  else if used ∨ !apertureOk s die a then .next { s with log := s.log ++ [.refused die n reg] }
  else .next (setDie s { d with aps := tset Aperture.reset d.aps n a })

end Sys2Proof.Machine
end

