-- ==== Sys2Proof/Machine/VecMem.lean ====
section
/-! DEFINITION. Vector memory words (R295-R298, R122): the element checks at issue, and the accesses of each
column on its tick. An active element is named 128 j + r. -/

namespace Sys2Proof.Machine

/-- The fields of a vector memory word, whether it loads into a register, reads memory, writes memory. -/
def vmemOf : Instr → Option (VmemW × Bool × Bool × Bool)
  | .vld f => some (f, true, true, false)
  | .vldx f => some (f, true, true, false)
  | .vst f => some (f, false, false, true)
  | .vstx f => some (f, false, true, true)
  | .vswpm f => some (f, true, true, true)
  | _ => none

/-- The memory width m in bytes (R295). -/
def vmemWidth (fmt : Nat) : Nat := fmtBits fmt / 8

/-- addr(r, j) (R295) from A + OFF and the stride. -/
def vmemAddr (base stride : Word) (m r j : Nat) : Nat :=
  (base + BitVec.ofNat 64 r * stride + BitVec.ofNat 64 (j * m)).toNat

/-- The checks of the active elements in row-ascending, then column-ascending order (R296, R312): the first
fault. -/
def vmemCheck (s : State) (base stride : Word) (m : Nat) (rd wr : Bool) : List (Nat × Nat) → Option Stop
  | [] => none
  | x :: r =>
    let va := vmemAddr base stride m x.1 x.2
    match addrStop s s.core va m m wr false with
    | some st => some st
    | none =>
      if !wr && loadAbsent s.core va then vmemCheck s base stride m rd wr r
      else match (if rd then readAt s va (placesOf s s.core va m wr) else .ok 0) with
        | .error st => some st
        | .ok _ => vmemCheck s base stride m rd wr r

/-- The access of one element (R297). -/
def vmemAcc (s : State) (fl : VFlight) (f : VmemW) (kind : AccKind) (va due : Nat) (ps : List Place)
    (undo : List (Tgt × Byte × Nat)) : Access :=
  { mkAcc s fl.i [] kind f.cl f.sc va due ps undo with
    pc := fl.pc, opa := fl.sa - BitVec.ofInt 64 (sgn 19 f.off), opb := if f.b = 0 then 0 else fl.stride, order := fl.order }

/-- The access of active element number n of a word joins the buffer: sixteen of them share an entry (R297). -/
def postEl (s : State) (fl : VFlight) (n : Nat) (a : Access) : State × VFlight :=
  let g := if n % 16 = 0 then s.core.nextAcc else fl.acc
  (postAcc s { a with grp := g }, { fl with acc := g })

/-- One active element's access (R297): its write, its posting, and its own result in flight, which waits for this
access's reply alone (R210). -/
def vmemEl (s : State) (fl : VFlight) (f : VmemW) (n r j due : Nat) : State × VFlight :=
  let m := vmemWidth f.fmt
  let va := vmemAddr fl.sa fl.stride m r j
  let cont := s.core.vcont f.vd f.fmt r j
  let x := cont % 2 ^ fmtBits f.fmt
  let wr : Bool := match fl.i with | .vld _ | .vldx _ => false | _ => true
  let ps := placesOf s s.core va m wr
  let mv : Option Nat := match fl.i with
    | .vst _ => some 0
    | _ => match readPlaces s ps with | .ok bs => some (leNat bs) | .error _ => none
  let load (l : List (Nat × Cont × Cont)) : State × VFlight :=
    let p : Pend := { due := due, land := .vcol f.vd j l, acc := s.core.nextAcc }
    let q := postEl s fl n (vmemAcc s fl f .load va due ps [])
    (onCore q.1 (fun c => { c with pend := c.pend ++ [p] }), q.2)
  let store (kind : AccKind) (d v : Nat) : State × VFlight :=
    let w := writeAt s ps v
    let q := postEl w.1 fl n (vmemAcc s fl f kind va d ps (undoOf s ps))
    match w.2 with
    | some k => (dropFault q.1 (vmemAcc s fl f kind va d ps []) va k, q.2)
    | none => q
  match mv with
  | none =>
    let q := load []
    (dropFault q.1 (vmemAcc s fl f .load va due ps []) va 0, q.2)
  | some v =>
    match fl.i with
    | .vld _ => load [elWrite f.fmt r v]
    | .vldx _ => load [contWrite f.fmt r (cont ^^^ extEl f.fmt v)]
    | .vst _ => store .store 0 x
    | .vstx _ => store .rmw 0 (v ^^^ x)
    | _ =>
      let p : Pend := { due := due, land := .vcol f.vd j [lowWrite f.fmt r v], acc := s.core.nextAcc }
      let q := store .rmw due x
      (onCore q.1 (fun c => { c with pend := c.pend ++ [p] }), q.2)

/-- The active elements of column j that make an access, row ascending. -/
def VFlight.present (fl : VFlight) (j : Nat) : List Nat := fl.pm.filter (fun x => x / 128 = j && !fl.absent.contains x)

/-- How many accesses the columns before j make. -/
def VFlight.made (fl : VFlight) (j : Nat) : Nat := (fl.pm.filter (fun x => x / 128 < j && !fl.absent.contains x)).length

/-- How many entries of the buffer column j opens: sixteen elements share one (R297). -/
def VFlight.opens (fl : VFlight) (j : Nat) : Nat := (fl.made j + (fl.present j).length + 15) / 16 - (fl.made j + 15) / 16

/-- Column j of a vector memory word on the focused core: elements row ascending (R122), charges, work, and
the results in flight: the column's, which holds its tick whatever its active elements (R291), and each element's. -/
def vmemCol (s : State) (fl : VFlight) (j : Nat) : State × VFlight :=
  match vmemOf fl.i with
  | none => (s, fl)
  | some (f, ld, _, _) =>
    let c := contBits f.fmt
    let due := colDue fl j fl.base
    let s0 := settleDrain s s.core.num [f.vd] j
    let mine := fl.pm.filter (fun x => x / 128 = j)
    let present := fl.present j
    let gone := mine.filter (fun x => fl.absent.contains x)
    let before := fl.made j
    let r := present.zipIdx.foldl (fun (a : State × VFlight) x => vmemEl a.1 a.2 f (before + x.2) (x.1 % 128) j due) (s0, fl)
    let zeros := match fl.i with | .vld _ => gone.map (fun x => elWrite f.fmt (x % 128) 0) | _ => []
    let s1 := r.1
    let land : List Pend := if ld then [{ due := due, land := .vcol f.vd j zeros, acc := 0 }] else []
    let flags : List Pend := if f.pm ≠ 0 ∧ !gone.isEmpty then
      [{ due := due, land := .mcol f.pm j (gone.map (fun x => (x % 128, false))), acc := 0 }] else []
    let data : Nat := match fl.i with | .vld _ => c * present.length | _ => 0
    let cell : Nat := match fl.i with | .vst _ => fmtBits f.fmt * present.length | _ => 0
    let s2 := onCore s1 fun k => ({ k with pend := k.pend ++ land ++ flags }.erase data false).erase cell true
    let s3 := if fl.sys then s2 else addWork s2 s2.core.num (2 * c * mine.length) fl.k
    (s3, { r.2 with next := j + 1 })

/-- A vector memory word in flight has a column to act on bt b. -/
def VFlight.vmemDue (fl : VFlight) (b : Nat) : Bool := (vmemOf fl.i).isSome && fl.next < fl.cols && fl.t + fl.next ≤ b

/-- The addresses and bytes of column j's accesses. -/
def VFlight.spans (fl : VFlight) (j : Nat) : List (Nat × Nat) :=
  match vmemOf fl.i with
  | some (f, _, _, _) =>
    let m := vmemWidth f.fmt
    (fl.present j).map (fun x => (vmemAddr fl.sa fl.stride m (x % 128) j, m))
  | none => []

/-- The columns of the focused core's vector memory words that act on this bt. R122 puts each of two words' columns after
the other's accesses; the model takes the older word's first (DESIGN CHOICE, unsafe: log 73). -/
def vmemColumns (s : State) : State :=
  let b := s.bed.btick
  s.core.vq.foldl (fun s fl =>
    if fl.vmemDue b then
      let r := vmemCol s fl fl.next
      onCore r.1 (fun c => putFlight c fl r.2 (fl.cols - 1))
    else s) s

/-- The focused core has vector memory columns to act on this bt. -/
def vmemPending (s : State) : Bool := s.core.vq.any (·.vmemDue s.bed.btick)

/-- The active elements of a shape under mask PM, row ascending, then column ascending. -/
def shapeActive (c : Core) (pm : Nat) : List (Nat × Nat) :=
  (List.range c.shape.1).flatMap (fun r => (List.range c.shape.2).filterMap (fun j => if c.mbit pm r j then some (r, j) else none))

/-- A vector memory word as it would go into flight now: PM is read whole, and elements of absent extents make no access (R298,
R431). Its latency is that of its farthest home (R297); of a word with no active element that makes an access, for which R297
gives none, it is 4 (DESIGN CHOICE, unsafe: log 96). -/
def vmemFlight (s : State) (i : Instr) (f : VmemW) (ld wr : Bool) : VFlight :=
  let c := s.core
  let t := s.bed.btick
  let k := rampK f.ramp
  let (rows, cols) := c.shape
  let m := vmemWidth f.fmt
  let base := srcVal s f.a + BitVec.ofInt 64 (sgn 19 f.off)
  let stride := if f.b = 0 then BitVec.ofNat 64 (cols * m) else srcVal s f.b
  let act := shapeActive c f.pm
  let gone := act.filter (fun x => !wr && loadAbsent c (vmemAddr base stride m x.1 x.2))
  let lat := (act.filter (fun x => !gone.contains x)).foldl (fun b x =>
    max b (accLat s c (placesOf s c (vmemAddr base stride m x.1 x.2) m wr) false)) 4
  let key (j : Nat) : List (Nat × Nat × Nat × Nat) :=
    let d := t + j + lat + k - 1
    (if ld then [(d, 3, f.vd, j)] else []) ++
      (if f.pm ≠ 0 ∧ gone.any (fun x => x.2 = j) then [(d, 4, f.pm, j)] else [])
  { i := i, pc := c.pc, t := t, k := k, rows := rows, cols := cols, sa := base, stride := stride, rm := 0
    pm := (List.range cols).flatMap (fun j => (act.filter (fun x => x.2 = j)).map (fun x => 128 * j + x.1))
    absent := gone.map (fun x => 128 * x.2 + x.1), base := lat, sys := c.view = .system, next := 0, cap := [], act := []
    acc := 0, resv := (List.range cols).flatMap key, order := c.order }

/-- The issue of a vector memory word (R290, R294-R298): every active element is checked, and column 0 acts. -/
def runVmem (s : State) (i : Instr) : Res :=
  match vmemOf i with
  | none => .next s
  | some (f, ld, rd, wr) =>
    let c := s.core
    let fl := vmemFlight s i f ld wr
    let coll := if c.collides fl.resv then some (Stop.fault 0x04 0 0) else none
    let own := ((shapeStop (contBits f.fmt = 32) fl.rows fl.k).or (bad0 (f.fmt = 7) 0x12 0 0)).or
      (vmemCheck s fl.sa fl.stride (vmemWidth f.fmt) rd wr (shapeActive c f.pm))
    match (((gate s false [.vec] [] []).or coll).or (reservedStop c fl.resv)).or (stopOf s false [] [f.a, f.b] [] own) with
    | some st => .next (stopWord s i [f.a, f.b] st)
    | none =>
      let s1 := issueCore s [.vec] fl.k [f.a, f.b] [] 0 (c.pc + 8) (s.bed.btick + 1)
      let s2 := onCore s1 (fun c => c.erase (if f.pm = 0 then 0 else fl.absent.length) false)
      let r := vmemCol s2 fl 0
      .next (onCore r.1 fun c => if fl.cols ≤ r.2.next then c else { c with vq := c.vq ++ [r.2] })

/-- VLD (R297, R298). -/
def execVld (f : VmemW) (s : State) : Res := runVmem s (.vld f)
/-- VLDX (R297, R298). -/
def execVldx (f : VmemW) (s : State) : Res := runVmem s (.vldx f)
/-- VST (R297). -/
def execVst (f : VmemW) (s : State) : Res := runVmem s (.vst f)
/-- VSTX (R297). -/
def execVstx (f : VmemW) (s : State) : Res := runVmem s (.vstx f)
/-- VSWPM (R297). -/
def execVswpm (f : VmemW) (s : State) : Res := runVmem s (.vswpm f)

end Sys2Proof.Machine
end

