-- ==== Sys2Proof/Machine/Sched.lean ====
section
/-! DEFINITION. The clock of a bed: the end of a schedule tick, the wall tick, and the start of the next schedule tick
(R16-R20, R28-R30, R89-R95, R181, R183, R210, R211, R221, R319-R322, R430), and the moves of the asynchronous agents
between ticks (log 2). -/

namespace Sys2Proof.Machine

/-- The next state of a meaning that has one. -/
def after (s : State) (r : Res) : State := match r with | .next t => t | _ => s

/-! ### Results that fall due (R89, R90) -/

/-- A container write: row, mask of bits, their values (R287); the containers at `kept` stay as they are. -/
def landCol (v : Tab Cont) (kept : List Nat) (r j : Nat) (l : List (Nat × Cont × Cont)) : Tab Cont :=
  l.foldl (fun v x =>
    let k := 1024 * r + 64 * j + x.1
    if kept.contains k then v else tset 0 v k ((tget 0 v k &&& ~~~x.2.1) ||| (x.2.2 &&& x.2.1))) v

/-- The containers that show what a running drain has put there (R328). -/
def Core.drainKeys (c : Core) : List Nat := match c.tq.es with | e :: _ => e.drained | [] => []

/-- A push that falls due: toward a neighbour it is on its way, in the system view's own status ports it is there (R32,
R33). -/
def landPush (s : State) (n q : Nat) (v : Word) : State :=
  let b := getBed s (n / 8)
  let t := portTarget n q
  if q < 4 then modCore s t.1 (fun c => { c with flights := c.flights ++ [{ port := t.2, v := v, bt := b.btick, wt := b.bwall }] })
  else modCore s n (fun c => c.setPort q (c.port q ++ [{ v := v, ready := b.btick, q := 0, seq := 0 }]))

/-- One result lands. -/
def landOne (s : State) (n : Nat) (l : Land) : State :=
  match l with
  | .sreg r lo len v => modCore s n (fun c => c.setField r lo len v)
  | .push q v => landPush s n q v
  | .creg r v => modCore s n (fun c => c.crWrite r v)
  | .vcol r j l => modCore s n (fun c => { c with v := landCol c.v c.drainKeys r j l })
  | .mcol p j l => modCore s n (fun c => { c with p := l.foldl (fun t x => tset false t (2048 * p + 128 * j + x.1) x.2) c.p })
  | .pat p bs => modCore s n (fun c => { c with bp := tset patIdentity c.bp p bs })
  | .amax clr part sa =>
    let s1 := advanceDrain s n
    let old : BitVec 33 := if clr then 0 else (getCore s1 n).amax
    let m := BitVec.ofNat 33 (max (old.toNat % 2 ^ 32) (part.toNat % 2 ^ 32)) ||| ((old ||| part) &&& 0x100000000#33)
    let s2 := modCore s1 n (fun c => { c with amax := m })
    if sa = 0 then s2
    else if isPort sa then landPush s2 n (sa - 56) (m.setWidth 64)
    else modCore s2 n (fun c => c.setReg sa (m.setWidth 64))
  | .tok k => modCore s n (fun c => c.setToken k)
  | .cell k => modCore s n (fun c => c.erase k true)
  | .nothing => s

/-- Every result of a core that is due by tick b lands. -/
def landDue (s : State) (n b : Nat) : State :=
  let due := (getCore s n).pend.filter (fun p => p.due ≤ b)
  let s1 := modCore s n (fun c => { c with pend := c.pend.filter (fun p => b < p.due) })
  due.foldl (fun s p => landOne s n p.land) s1

/-! ### The end of a tick -/

/-- A virtual range of a core reaches the scratchpad of core n. -/
def Core.reaches (s : State) (c : Core) (n : Nat) (x : Nat × Nat) : Bool := c.extents.any (fun e =>
  let lo := max x.1 e.vbase
  let hi := min (x.1 + x.2) (e.vbase + e.len)
  lo < hi && paSpace e.pbase = 2 && paPkg e.pbase = s.plat.pkg &&
    paCore (e.pbase + (lo - e.vbase)) ≤ n && n ≤ paCore (e.pbase + (hi - 1 - e.vbase)))

/-- The ranges that the copy, graft and bank engines of a core are at work on, or may be at once: those of the heads that are
neither parked nor held and wait for no token, of a copy the row it has come to. -/
def Core.atWork (c : Core) : List (Nat × Nat) :=
  let at_ (q : EngQ) (f : Entry → List (Nat × Nat)) : List (Nat × Nat) :=
    match c.head q with
    | some e => if e.ph = .parked ∨ e.ph = .held ∨ !c.tokensSet e.tokens.kcs then [] else f e
    | none => []
  at_ .copy (fun e => copyRanges e (min e.pos (totalOf e.recNat - 1))) ++ at_ .graft (graftRanges c) ++ at_ .bank (fun e =>
    match e.coll with
    | some x => (match c.group x.cgid with | some g => collRanges x g e | none => [])
    | none => bankRanges e)

/-- Something besides the trellis may use a bank of a core's scratchpad (R246): an access of any core that is not yet
acknowledged, its own among them, or an engine entry at work on a range there. -/
def spadTraffic (s : State) (n : Nat) : Bool :=
  let hits (a : Access) : Bool := a.runs.any (fun r => paSpace r.1 = 2 && paPkg r.1 = s.plat.pkg && paCore r.1 = n)
  (s.core :: s.others).any fun c => c.accs.any hits || c.atWork.any (c.reaches s n)

/-- The trellis of a core makes one tick: its running head counts it, and completes with its last (R319). An entry of minimum
duration loses ticks to its own lines' bank conflicts, and may lose one to any that can be (R320, R246). DESIGN CHOICE, unsafe:
log 29. A status word goes out as soon as there is room (R33, R332). -/
def trellisTick (s : State) (n : Nat) : State :=
  match (getCore s n).head .trellis with
  | some e =>
    if e.ph = .running then
      let d := if !e.mustLose && isMinimum e.i && (e.ownMeet || spadTraffic s n) then drawFree s else (s, 0)
      let e1 := if e.mustLose || d.2.getLsbD 0 then { e with lost := e.lost + 1 } else { e with pos := e.pos + 1 }
      let s1 := modCore d.1 n (fun c => c.setHead .trellis e1)
      let s2 := pushOut s1 n .trellis
      after s2 (execTrellisEntryCompletion n s2)
    else s
  | none => s

/-- The head that can start on this tick starts, or ends in its fault (R319). -/
def trellisStarts (s : State) (n : Nat) : State :=
  let s1 := after s (execStampTick n s)
  after s1 (execTrellisEntryStart n s1)

/-- The tick in progress ends: the trellises count it (R319). -/
def endTick (s : State) (b : Nat) : State := (liveCores s b).foldl (fun (s : State) (c : Core) => trellisTick s c.num) s

/-! ### Arrivals and the end of waits (R28, R228) -/

/-- A unit's arrival at its launch's barrier, posted or withdrawn. -/
def setArrived (s : State) (c : Core) (v : Bool) : State :=
  match getLaunch s c.job c.lid with
  | some x => setLaunch s { x with units := x.units.map (fun u => if u.idx = c.unit then { u with arrived := v } else u) }
  | none => s

/-- A core has columns left that draw from a log, and bt goes on, so that they can act (R64, R114). DEDUCED, unsafe: log 74. -/
def Core.seedsLeft (c : Core) (still : Bool) : Bool := !still && c.seedMode ≠ 0 && c.vq.any (·.draws)

/-- XBAR's step 3 is met, so it posts its arrival (R228 step 4): in superstep 0 of a gang only once the gang has committed,
as it has acted as WSEND (R227). -/
def postArrival (s : State) (n : Nat) : State :=
  let c := getCore s n
  match c.wait with
  | some w =>
    match w.w with
    | .xbar false _ wasOpen upto =>
      if c.run = .running ∧ !c.gangWaits ∧ c.tq.es.isEmpty ∧ c.cq.es.isEmpty ∧ c.gq.es.isEmpty ∧ c.bq.es.isEmpty ∧
          !c.accs.any (fun a => a.id < upto || a.isSeed) ∧ !c.seedsLeft (getBed s c.bedNum).stall ∧ c.pending.isEmpty then
        let gen := ((getLaunch s c.job c.lid).map (·.barrier + 1)).getD 1
        setCore (setArrived s c true) { c with wait := some { w with w := .xbar true gen wasOpen upto } }
      else s
    | _ => s
  | none => s

/-- The record of a waiting word's own fault, with what was read as it issued. R223 names no address; XREC6 takes A (DESIGN
CHOICE, unsafe: log 75). -/
def waitRec (w : Waiting) : FaultRec :=
  { FaultRec.none with ipc := w.pc, word := wordOf w.i, opa := w.opa, opb := w.opb, addr := w.opa }

/-- A core whose waiting word has no effect: it waits no more, what it popped as it issued stands in front of its port again, its
work is taken back (R223), an expectation that its home has not taken is not posted (R407), and XBAR has not ended the span
(R228). DEDUCED, unsafe: log 76. -/
def Core.backTo (c : Core) (w : Waiting) : Core :=
  let c1 := w.popped.foldl (fun c x => c.setPort x.1 (x.2 :: c.port x.1)) c
  { c1 with
    wait := none
    ej := c1.ej - w.ej
    accs := match w.w with | .syexp id _ _ => c1.accs.filter (fun a => a.id ≠ id) | _ => c1.accs
    span := match w.w with | .xbar _ _ wasOpen _ => wasOpen | _ => c.span }

/-- What a waiting word raises or delivers on tick b once it need not wait on (R174 rows 1 and 2): SYEXP's own fault
(R223), an uncorrectable error of the word it names (R245), a pending fault (R176, R219, R228). -/
def waitFault (s : State) (c : Core) (w : Waiting) (b : Nat) : Option Core :=
  match w.w with
  | .token k => (c.twaitFault k).map (fun f => c.deliver f w.pc b)
  | .syexp _ code addr => if code = 0 then none else some (c.raise { waitRec w with code := code, addr := addr } w.pc b)
  | .sywait pa _ =>
    let f : FaultRec := { waitRec w with code := 0x1B, addr := BitVec.ofNat 64 (badAt s pa w.opa.toNat) }
    if syncBad s pa then some (c.raise f w.pc b) else none
  | .xbar _ _ _ _ => c.firstFault.map (fun f => c.deliver f w.pc b)
  | _ => none

/-- The record of a crossing kept in XSTAT.QP (R242). -/
def quotaRec : FaultRec := { FaultRec.none with code := 0x08, kind := 1 }

/-- A terminal event interrupts a waiting word (R407), but a SYEXP whose home has taken its expectation, which is over (R223). -/
def interrupts (c : Core) (w : Waiting) : Option FaultRec :=
  let taken : Bool := match w.w with | .syexp id _ _ => (c.access id).isNone | _ => false
  if c.view == .unit && !taken then c.event else none

/-- The wait of a core's word ends on tick b (R29, R91): its faults come first, then an event that interrupts it, behind an
erasure-quota crossing (R174, R407); else the word completes. -/
def endWait (s : State) (n b : Nat) : State :=
  let c := getCore s n
  match c.wait with
  | none => s
  | some w =>
    if c.run ≠ .running ∨ !waitOver s c w then s
    else
      let c0 := c.backTo w
      match waitFault s c0 w b with
      | some d => setCore (setArrived s c false) d
      | none =>
        match interrupts c w with
        | some e =>
          setCore (setArrived s c false)
            (if c.qp then { c0 with qp := false }.raise quotaRec w.pc b else { c0 with event := none }.raise e w.pc b)
        | none =>
          let done : Core := { c with wait := none, pc := w.pc + 8, nextBt := b + 1 }
          match w.w with | .xbar _ _ _ _ => nextSuperstep s done | _ => setCore s done

/-! ### Freezes before an issue (R211, R232, R430) -/

/-- The word a core is about to issue on tick bt, if it is. -/
def aboutToIssue (s : State) (c : Core) (bt : Nat) : Option Instr :=
  let due := c.run == .running && c.wait.isNone && c.trap.isNone && c.nextBt ≤ bt &&
    !(c.view == .unit && (c.event.isSome || c.qp || c.deferred.isSome || (c.thr && c.xvec ≠ 0)))
  if !due then none
  else
    let s1 := focus s c.num
    if (fetchStop s1).isSome then none else (decode (fetchWord s1)).toOption

/-- How many entries of the post buffer a word takes as it issues (R211, R297, R379). -/
def wordOpens (s : State) (i : Instr) : Nat :=
  match i with
  | .ld _ | .ldx _ | .st _ | .stx _ | .swpm _ | .bpld _ | .atomAdd _ | .atomMin _ | .atomMax _ | .atomAnd _ | .atomOr _
  | .atomXor _ | .atomSwp _ | .atomCas _ | .atomFadd _ | .syexp _ | .syarr _ | .erase _ | .hspill _ | .hfill _
  | .bcollAllreduce _ | .bcollRedscat _ | .bcollAllgath _ | .bcollBcast _ => 1
  | _ => match vmemOf i with | some (f, ld, _, wr) => (vmemFlight s i f ld wr).opens 0 | none => 0

/-- The addresses and bytes of the accesses a word makes as it issues. -/
def wordSpans (s : State) (i : Instr) : List (Nat × Nat) :=
  match i with
  | .ld f | .ldx f | .st f | .stx f | .swpm f => [(effAddr s f.a 23 f.off, tyBits f.ty / 8)]
  | .bpld f => [(effAddr s f.a 23 f.off, 128)]
  | .atomAdd f | .atomMin f | .atomMax f | .atomAnd f | .atomOr f | .atomXor f | .atomSwp f | .atomCas f =>
    [(effAddr s f.a 16 f.off, 8)]
  | .atomFadd f => [(effAddr s f.a 16 f.off, 4)]
  | .syexp f | .syarr f => [((srcVal s f.a).toNat, 16)]
  | .hspill f | .hfill f => [((srcVal s f.a).toNat, (srcVal s f.d).toNat / 8)]
  | .erase f => [((srcVal s f.a).toNat, (srcVal s f.d).toNat)]
  | .bcollAllreduce f | .bcollRedscat f | .bcollAllgath f | .bcollBcast f => [((srcVal s f.a).toNat, 64)]
  | _ => match vmemOf i with | some (f, ld, _, wr) => (vmemFlight s i f ld wr).spans 0 | none => []

/-- The physical runs of an access; of a long one those in the core's own scratchpad. -/
def spanRuns (s : State) (c : Core) (x : Nat × Nat) : List (Nat × Nat) :=
  if x.2 ≤ 128 then (placesOf s c x.1 x.2 false).flatMap Place.runs else (ownSpad s c x.1 x.2).getD []

/-- The bytes of the sync words of a bed that an arrival or an expectation posted so far has still to change: the accesses to
them that come later in the bed's order follow it (R120, R130). DEDUCED, unsafe: log 33. -/
def arrivalsDue (s : State) (b : Nat) : List (List (Nat × Nat)) :=
  (liveCores s b).flatMap (fun c => (c.accs.filter (fun a => (a.kind = .arrive && a.due = 0) || a.kind = .expect)).map (·.runs))

/-- How many entries of the buffer the next column of a flight takes: those it opens, and that of a group that goes on where the
elements before it have left (R211, R297). -/
def Core.colOpens (c : Core) (fl : VFlight) : Nat :=
  let goes : Bool := fl.made fl.next % 16 ≠ 0 && !(fl.present fl.next).isEmpty
  fl.opens fl.next + (if goes && !c.inBuffer.any (·.grp = fl.acc) then 1 else 0)

/-- The bytes of the core's own scratchpad a word reads as it issues (R430), where it passes the checks made first, and
the bits of trug it exchanges (R232). -/
def readsAtIssue (s : State) (c : Core) (i : Instr) : Option (Nat × Nat × Nat) :=
  let s1 := focus s c.num
  let spill (f : SsysW) (fill : Bool) : Option (Nat × Nat × Nat) :=
    let va := (srcVal s1 f.a).toNat
    let n := (srcVal s1 f.d).toNat
    if ((gate s1 false [.trug] [f.a, f.d] []).or (spillStop s1 va n fill)).isNone then some (va, n / 8, n) else none
  let coll (f : EregW) : Option (Nat × Nat × Nat) :=
    let va := (srcVal s1 f.a).toNat
    if va % 64 = 0 ∧ (ownSpad s1 c va 64).isSome then some (va, 64, 0) else none
  match i with
  | .hspill f => spill f false
  | .hfill f => spill f true
  | .bcollAllreduce f | .bcollRedscat f | .bcollAllgath f | .bcollBcast f => coll f
  | _ => none

/-- An earlier write of the core, not yet performed for what its buffer knows, overlaps a range (R430).
DEDUCED, unsafe: log 56. -/
def writesOver (s : State) (c : Core) (va len : Nat) : Bool :=
  match ownSpad s c va len with
  | some runs => c.accs.any (fun a => (a.kind == .store || a.kind == .rmw || a.kind == .atomic) && runsMeet a.runs runs)
  | none => false

/-- What a core is about to do on a tick, its columns of vector memory words and its word, keeps its bed frozen: there is no
room for it in the post buffer (R211), it must follow an arrival that is still to be counted (R120, R130), or the area its word
reads is not ready (R232, R430). -/
def preFreeze (s : State) (bt : Nat) (due : List (List (Nat × Nat))) (c : Core) : Bool :=
  let w := aboutToIssue s c bt
  let s1 := focus s c.num
  let cols := c.vq.filter (·.vmemDue bt)
  let need := (cols.map c.colOpens).sum + (w.map (wordOpens s1)).getD 0
  (need ≠ 0 && 64 < c.bufferLoad + need) ||
    (!due.isEmpty &&
      (cols.flatMap (fun fl => fl.spans fl.next) ++ (w.map (wordSpans s1)).getD []).any (fun x =>
        due.any (fun y => runsMeet y (spanRuns s c x)))) ||
    (match w.bind (readsAtIssue s c) with
      | some x => writesOver s c x.1 x.2.1 || (x.2.2 ≠ 0 && c.areaWait ≤ (x.2.2 + 1023) / 1024)
      | none => false)

/-- One more wall tick of reading an area, once no earlier write stands before it (R232). -/
def tickArea (s : State) (bt : Nat) (c : Core) : State :=
  match aboutToIssue s c bt with
  | none => s
  | some i =>
    match readsAtIssue s c i with
    | some x => if x.2.2 ≠ 0 ∧ !writesOver s c x.1 x.2.1 then modCore s c.num (fun d => { d with areaWait := d.areaWait + 1 }) else s
    | none => s

/-- Every core of a bed that reads an area as its word issues gets on with it. -/
def tickAreas (s : State) (b : Nat) : State :=
  let bt := (getBed s b).btick
  (liveCores s b).foldl (fun (s : State) (c : Core) => tickArea s bt c) s

/-- A bed's tick stands held, or goes on. -/
def setHeld (s : State) (b : Nat) (stop : Bool) : State := modBed s b (fun x => { x with closed := stop, held := stop, stall := stop })

/-- A tick that has begun goes on to its issues, unless a word about to issue holds it. DEDUCED, unsafe: log 55. -/
def release (s : State) (b : Nat) : State :=
  let bt := (getBed s b).btick
  let s1 := tickAreas s b
  setHeld s1 b ((liveCores s1 b).any (preFreeze s1 bt (arrivalsDue s1 b)))

/-- The focused core's turn must follow an arrival or an expectation that an earlier core posted on this tick (R130). -/
def turnHeld (s : State) : Bool :=
  let due := arrivalsDue s s.bed.num
  !due.isEmpty && preFreeze s s.bed.btick due s.core

/-! ### The start of a tick -/

/-- A bed takes its next schedule tick (R17, R20): results land, columns are charged, waits end, the trellises start. A fault
of an entry that starts now is delivered on the next tick (R364). -/
def openBed (s : State) (b : Nat) : State :=
  let s1 := modBed s b (fun x => { x with btick := x.btick + 1, closed := false, held := false, stall := false })
  let bt := (getBed s1 b).btick
  let ns := (liveCores s b).map (·.num)
  let each (f : State → Nat → State) (s : State) : State := ns.foldl f s
  let s2 := each (fun s n => landDue s n bt) s1
  let s3 := each (fun s n => vecCharges s n bt) s2
  let s4 := each (fun s n => modCore s n (fun c => { c.countRegs with areaWait := 0 })) s3
  let s5 := each (fun s n => endWait s n bt) s4
  release (each (fun s n => trellisStarts s n) s5) b

/-- A reply that a result due on the next tick needs has not come (R210). -/
def lateReply (s : State) (b : Nat) : Bool :=
  let bt := (getBed s b).btick + 1
  (liveCores s b).any (fun c => c.accs.any (fun a => a.wantsReply && a.due ≠ 0 && a.due ≤ bt))

/-- Nothing keeps a bed from its next schedule tick (R29, R181, R183, R210). -/
def mayOpen (s : State) (b : Nat) : Bool :=
  let x := getBed s b
  !x.halt && x.freeze = 0 && !(liveCores s b).any (Core.stallsOn s) && !lateReply s b

/-! ### The wall tick -/

/-- A work span's budget counts a wall tick, and deadline is raised when it is passed (R406, R407). -/
def tickBudget (s : State) (n : Nat) : State :=
  let c := getCore s n
  if c.run = .running ∧ c.span ∧ c.budget ≠ 0 ∧ 0 < c.order then
    let s1 := setCore s { c with spent := c.spent + 1 }
    after s1 (execBudgetExpiry n s1)
  else s

/-- BWALL advances: words land in ports, budgets count, arrivals are posted (R17, R221, R228, R406). -/
def wallTick (s : State) (b : Nat) : State :=
  let s1 := modBed s b (fun x => { x with bwall := x.bwall + 1 })
  let w := (getBed s1 b).bwall
  let halted := (getBed s1 b).halt
  ((liveCores s b).map (·.num)).foldl (fun s n =>
    let s2 := modCore s n (fun c => landFlights c w)
    postArrival (if halted then s2 else tickBudget s2 n) n) s1

/-- A debug halt as every core records it (R181). DEDUCED, unsafe: log 35. -/
def recordHalt (s : State) (b : Nat) : State :=
  (liveCores s b).foldl (fun (s : State) (c : Core) =>
    if c.run = .running then
      setCore s { (getCore s c.num) with xcause := causeWord (eventRec 0x22 0) false, xpc := (getCore s c.num).pc }
    else s) s

/-- A halt that does not ask engines to park: the trellises run their entries to completion (R181).
DEDUCED, unsafe: log 34. -/
def haltTrellis (s : State) (b : Nat) : State :=
  (liveCores s b).foldl (fun (s : State) (c : Core) =>
    let s1 := after s (execTrellisEntryStart c.num s)
    trellisTick s1 c.num) s

/-- A halt that asks engines to park (R181): each engine goes on to its next row boundary and holds its entry there. The
trellis gets there, as it gets to its end in any other halt, on wall ticks. DEDUCED, unsafe: log 34. -/
def parkEngines (s : State) (b : Nat) : State :=
  (liveCores s b).foldl (fun (s : State) (c : Core) =>
    let s1 := match (getCore s c.num).head .trellis with
      | some e => if e.ph ≠ .running then s else if atTrellisRow s (getCore s c.num) e then holdTrellis s c.num e else trellisTick s c.num
      | none => s
    [EngQ.copy, .graft].foldl (fun s q => holdEngine s c.num q) s1) s

/-- What a wall tick brings a bed: halt, freeze, held tick, or the next schedule tick where nothing keeps it. Freezes and
what a held tick waits for run on side by side, a halt beside them (R183); a freeze holds the trellis in a halt as out of it
(R322). -/
def decideTick (s : State) (b : Nat) : State :=
  let x := getBed s b
  let shut (s : State) : State := modBed s b (fun y => { y with closed := true, stall := !x.halt && x.freeze = 0 })
  let s := if x.held ∧ (x.halt ∨ x.freeze ≠ 0) then tickAreas s b else s
  let s := if x.freeze = 0 then s else if x.freeze = 1 then after s (execFreezeEnd b s)
    else modBed s b (fun x => { x with freeze := x.freeze - 1 })
  if x.halt then
    let s1 := recordHalt s b
    shut (if x.freeze ≠ 0 then s1 else if x.park then parkEngines s1 b else haltTrellis s1 b)
  else if x.freeze ≠ 0 then shut s
  else if x.held then release s b
  else if mayOpen s b then openBed s b
  else shut s

/-! ### Asynchronous agents (log 2) -/

/-- What the engines and accesses of a core can do. -/
def coreEvents (c : Core) : List Instr :=
  let eng (q : EngQ) : List Instr :=
    match c.head q with
    | none => []
    | some e => match e.ph with
      | .waiting => [.engineEntryStart c.num q]
      | .running => (if q = .copy then [.syncTagPosting c.num] else []) ++ [.engineEntryStart c.num q]
      | .pushing => [.engineEntryCompletion c.num q]
      | .parked | .held => []
  let acc := c.accs.map (fun a =>
    if a.wantsReply then Instr.memoryReply c.num a.id else .writeAcknowledgement c.num a.id)
  let pages := (List.range c.extents.length).filterMap (fun i =>
    match c.extents[i]? with | some x => if x.requested then some (Instr.pageServiced c.num i true) else none | none => none)
  (if c.inBuffer.isEmpty then [] else [.postBufferRoom c.num]) ++ eng .copy ++ eng .graft ++ eng .bank ++ acc ++ pages ++
    (if c.run = .stopped then [.unitSave c.num] else [])

/-- The event that takes the next submission record. -/
def recordEvent (s : State) : List Instr :=
  match nextRecord s with
  | none => []
  | some (_, r) => [match recType r with
    | 2 => .cancelRecord | 3 => .replayRecord | 4 => .resumeBed | 5 => .close | 6 => .openJob | 7 => .endJob | 8 => .haltBed
    | _ => .launchRecord]

/-- What the launch scheduler can do. -/
def lscEvents (s : State) : List Instr :=
  let ls := s.lsc.launches.filter (fun x => !x.isOver)
  let starts := ls.flatMap (fun x => (x.units.filter (fun u => u.state = .placed)).map (fun u => Instr.unitStart x.job x.lid u.idx))
  let bars := (ls.filter (fun x => x.units.any (·.arrived))).map (fun x => Instr.barrierAdvance x.job ⟨x.lid, []⟩)
  let acks := (ls.filter (fun x => x.state == .running && gangOpen s x)).map (fun x => Instr.gangAck x.job x.gang ⟨x.grk, x.gnp⟩)
  let votes := (s.digests.map (fun d => (d.job, d.cgid))).dedup.map (fun x => Instr.sieveVote x.1 x.2)
  recordEvent s ++ votes ++ bars ++ acks ++
    (if s.lsc.launches.isEmpty && s.lsc.groups.isEmpty && s.lsc.backlog.isEmpty && s.lsc.jobs.isEmpty then [] else [.completionRecordWrite]) ++
    (if ls.any (fun x => x.state == .ready) then [.launchPlacement] else []) ++ starts

/-- The moves of the cores' asynchronous agents after a wall tick. What lands at a sync word so lands before the words of the
next ticks issue, an expectation of the same tick among them (R37). -/
def asyncEvents (s : State) : List Instr := ((s.core :: s.others).filter (fun c => c.run ≠ .idle)).flatMap coreEvents

/-! ### The turn of a bed -/

/-- The beds that hold a unit. -/
def activeBeds (s : State) : List Nat := (List.range 32).filter (fun b => !(liveCores s b).isEmpty)

/-- The bed whose turn follows that of b. -/
def bedAfter (s : State) (b : Nat) : Nat :=
  let l := activeBeds s
  ((l.filter (b < ·)).head?.or l.head?).getD b

/-- The first core of a bed from number n on that has something to do on a tick: it runs a unit, or a unit that has ended
left columns that have not acted (R130). -/
def runnerFrom (s : State) (b n : Nat) : Option Nat :=
  ((bedCores s b).find? (fun c => n ≤ c.num && (c.run == .running || !c.vq.isEmpty))).map (·.num)

/-- The turn goes to a bed: to its first core that runs, or to its clock when none may issue. -/
def enterBed (s : State) (b : Nat) : State :=
  match (if (getBed s b).closed then none else runnerFrom s b (8 * b)) with
  | some n => focus s n
  | none => { s with agenda := s.agenda ++ [.scheduleTick b] }

/-- The tick of a bed ends, a wall tick passes, its power follows at the boundary, and the bed takes its next schedule tick where
nothing keeps it. -/
def tickBed (s : State) (b : Nat) : State :=
  decideTick (tickPower (wallTick (if (getBed s b).closed then s else endTick s b) b) b) b

/-- The beds whose turn comes after that of b and before that of c: they hold no unit, and their clocks run (R17). -/
def idleBetween (b c : Nat) : List Nat := ((List.range 31).map (fun i => (b + 1 + i) % 32)).takeWhile (fun x => x ≠ c)

/-- The tick of a bed ends, and a trip stops the bed at its boundary; with the last of the beds that hold a unit, PSTAT is written
and the trip takes place (R424). -/
def tripTick (s : State) (b : Nat) : State :=
  let s1 := modBed (if (getBed s b).closed then s else endTick s b) b (fun x => { x with closed := true })
  let s2 : State := { s1 with plat := { s1.plat with stopped := b :: s1.plat.stopped } }
  if (activeBeds s2).all s2.plat.stopped.contains then trip (writePstat s2) else enterBed s2 (bedAfter s2 b)

/-- SCHEDULE_TICK: the tick of a bed ends, a wall tick passes, and the bed takes its next schedule tick where nothing keeps
it (R17, R20, R29); the asynchronous agents and the LSC move once every bed has had its turn, so that units of several beds see
what they do on the same tick; and the turn goes to the next bed that holds a unit, the clocks of those before it having run. -/
def execScheduleTick (bed : Nat) (s : State) : Res :=
  if s.plat.power ≠ .ready ∨ 32 ≤ bed then .next s
  else if s.plat.tripping then .next (tripTick s bed)
  else
    let s2 := tickBed s bed
    let next := bedAfter s2 bed
    let moves := if s2.auto && next ≤ bed then asyncEvents s2 ++ lscEvents s2 else []
    let s3 : State := { s2 with agenda := s2.agenda ++ moves }
    .next (enterBed ((idleBetween bed next).foldl tickBed s3) next)

/-- BED_RESUME: every waiting core's condition holds, so the stalled bed takes its next schedule tick with the next wall
tick (R29). -/
def execBedResume (bed : Nat) (s : State) : Res :=
  let x := getBed s bed
  if s.plat.power ≠ .ready ∨ s.plat.tripping ∨ 32 ≤ bed ∨ !x.closed ∨ x.held then .next s
  else
    let s1 := tickPower (wallTick s bed) bed
    if mayOpen s1 bed then .next (enterBed (openBed s1 bed) bed) else .next s

end Sys2Proof.Machine
end

