-- ==== Sys2Proof/Machine/Dispatch.lean ====
section
/-! DEFINITION. One arm per row of the opcode table. -/

namespace Sys2Proof.Machine

/-- The meaning of an instruction or event. -/
def exec (i : Instr) (s : State) : Host.Outcome State Fault Refusal :=
  match i with
  | .nop f => Sys2Proof.Machine.execNop f s
  | .add f => Sys2Proof.Machine.execAdd f s
  | .sub f => Sys2Proof.Machine.execSub f s
  | .xor f => Sys2Proof.Machine.execXor f s
  | .neg f => Sys2Proof.Machine.execNeg f s
  | .rol f => Sys2Proof.Machine.execRol f s
  | .mulo f => Sys2Proof.Machine.execMulo f s
  | .swap f => Sys2Proof.Machine.execSwap f s
  | .cswap f => Sys2Proof.Machine.execCswap f s
  | .bperm f => Sys2Proof.Machine.execBperm f s
  | .bpermE f => Sys2Proof.Machine.execBpermE f s
  | .addi f => Sys2Proof.Machine.execAddi f s
  | .xori f => Sys2Proof.Machine.execXori f s
  | .roli f => Sys2Proof.Machine.execRoli f s
  | .muloi f => Sys2Proof.Machine.execMuloi f s
  | .xorw f => Sys2Proof.Machine.execXorw f s
  | .add3 f => Sys2Proof.Machine.execAdd3 f s
  | .sub3 f => Sys2Proof.Machine.execSub3 f s
  | .xor3 f => Sys2Proof.Machine.execXor3 f s
  | .and f => Sys2Proof.Machine.execAnd f s
  | .or f => Sys2Proof.Machine.execOr f s
  | .mul f => Sys2Proof.Machine.execMul f s
  | .mulh f => Sys2Proof.Machine.execMulh f s
  | .min f => Sys2Proof.Machine.execMin f s
  | .max f => Sys2Proof.Machine.execMax f s
  | .minK f => Sys2Proof.Machine.execMinK f s
  | .maxK f => Sys2Proof.Machine.execMaxK f s
  | .minB f => Sys2Proof.Machine.execMinB f s
  | .maxB f => Sys2Proof.Machine.execMaxB f s
  | .keepForm f => Sys2Proof.Machine.execKeepForm f s
  | .backForm f => Sys2Proof.Machine.execBackForm f s
  | .shl f => Sys2Proof.Machine.execShl f s
  | .shr f => Sys2Proof.Machine.execShr f s
  | .sar f => Sys2Proof.Machine.execSar f s
  | .mov f => Sys2Proof.Machine.execMov f s
  | .clr f => Sys2Proof.Machine.execClr f s
  | .ext f => Sys2Proof.Machine.execExt f s
  | .norm f => Sys2Proof.Machine.execNorm f s
  | .popc f => Sys2Proof.Machine.execPopc f s
  | .cmpeq f => Sys2Proof.Machine.execCmpeq f s
  | .cmplt f => Sys2Proof.Machine.execCmplt f s
  | .cmplo f => Sys2Proof.Machine.execCmplo f s
  | .andi f => Sys2Proof.Machine.execAndi f s
  | .ori f => Sys2Proof.Machine.execOri f s
  | .shli f => Sys2Proof.Machine.execShli f s
  | .shri f => Sys2Proof.Machine.execShri f s
  | .sari f => Sys2Proof.Machine.execSari f s
  | .movi f => Sys2Proof.Machine.execMovi f s
  | .movw f => Sys2Proof.Machine.execMovw f s
  | .bfx f => Sys2Proof.Machine.execBfx f s
  | .bfi f => Sys2Proof.Machine.execBfi f s
  | .bpld f => Sys2Proof.Machine.execBpld f s
  | .bc f => Sys2Proof.Machine.execBc f s
  | .call f => Sys2Proof.Machine.execCall f s
  | .ret f => Sys2Proof.Machine.execRet f s
  | .loop f => Sys2Proof.Machine.execLoop f s
  | .ld f => Sys2Proof.Machine.execLd f s
  | .ldx f => Sys2Proof.Machine.execLdx f s
  | .st f => Sys2Proof.Machine.execSt f s
  | .stx f => Sys2Proof.Machine.execStx f s
  | .swpm f => Sys2Proof.Machine.execSwpm f s
  | .atomAdd f => Sys2Proof.Machine.execAtomAdd f s
  | .atomMin f => Sys2Proof.Machine.execAtomMin f s
  | .atomMax f => Sys2Proof.Machine.execAtomMax f s
  | .atomAnd f => Sys2Proof.Machine.execAtomAnd f s
  | .atomOr f => Sys2Proof.Machine.execAtomOr f s
  | .atomXor f => Sys2Proof.Machine.execAtomXor f s
  | .atomSwp f => Sys2Proof.Machine.execAtomSwp f s
  | .atomCas f => Sys2Proof.Machine.execAtomCas f s
  | .atomFadd f => Sys2Proof.Machine.execAtomFadd f s
  | .fence f => Sys2Proof.Machine.execFence f s
  | .tmark f => Sys2Proof.Machine.execTmark f s
  | .twait f => Sys2Proof.Machine.execTwait f s
  | .syexp f => Sys2Proof.Machine.execSyexp f s
  | .syarr f => Sys2Proof.Machine.execSyarr f s
  | .sywait f => Sys2Proof.Machine.execSywait f s
  | .qwait f => Sys2Proof.Machine.execQwait f s
  | .hclaim f => Sys2Proof.Machine.execHclaim f s
  | .hrel f => Sys2Proof.Machine.execHrel f s
  | .wsend f => Sys2Proof.Machine.execWsend f s
  | .xbar f => Sys2Proof.Machine.execXbar f s
  | .pgreq f => Sys2Proof.Machine.execPgreq f s
  | .hpush f => Sys2Proof.Machine.execHpush f s
  | .hpop f => Sys2Proof.Machine.execHpop f s
  | .hspill f => Sys2Proof.Machine.execHspill f s
  | .hfill f => Sys2Proof.Machine.execHfill f s
  | .hmark f => Sys2Proof.Machine.execHmark f s
  | .hchk f => Sys2Proof.Machine.execHchk f s
  | .hdrop f => Sys2Proof.Machine.execHdrop f s
  | .erase f => Sys2Proof.Machine.execErase f s
  | .vld f => Sys2Proof.Machine.execVld f s
  | .vldx f => Sys2Proof.Machine.execVldx f s
  | .vst f => Sys2Proof.Machine.execVst f s
  | .vstx f => Sys2Proof.Machine.execVstx f s
  | .vswpm f => Sys2Proof.Machine.execVswpm f s
  | .vadd f => Sys2Proof.Machine.execVadd f s
  | .vsub f => Sys2Proof.Machine.execVsub f s
  | .vmul f => Sys2Proof.Machine.execVmul f s
  | .vfma f => Sys2Proof.Machine.execVfma f s
  | .vmin f => Sys2Proof.Machine.execVmin f s
  | .vmax f => Sys2Proof.Machine.execVmax f s
  | .vabs f => Sys2Proof.Machine.execVabs f s
  | .vneg f => Sys2Proof.Machine.execVneg f s
  | .vand f => Sys2Proof.Machine.execVand f s
  | .vor f => Sys2Proof.Machine.execVor f s
  | .vxor f => Sys2Proof.Machine.execVxor f s
  | .vshl f => Sys2Proof.Machine.execVshl f s
  | .vshr f => Sys2Proof.Machine.execVshr f s
  | .vsar f => Sys2Proof.Machine.execVsar f s
  | .vradd f => Sys2Proof.Machine.execVradd f s
  | .vrsub f => Sys2Proof.Machine.execVrsub f s
  | .vrxor f => Sys2Proof.Machine.execVrxor f s
  | .vswap f => Sys2Proof.Machine.execVswap f s
  | .vcmpeq f => Sys2Proof.Machine.execVcmpeq f s
  | .vcmplt f => Sys2Proof.Machine.execVcmplt f s
  | .vcmple f => Sys2Proof.Machine.execVcmple f s
  | .vclass f => Sys2Proof.Machine.execVclass f s
  | .vsel f => Sys2Proof.Machine.execVsel f s
  | .vcvt f => Sys2Proof.Machine.execVcvt f s
  | .vscacc f => Sys2Proof.Machine.execVscacc f s
  | .vredr f => Sys2Proof.Machine.execVredr f s
  | .vredrScalar f => Sys2Proof.Machine.execVredrScalar f s
  | .vredc f => Sys2Proof.Machine.execVredc f s
  | .vrot f => Sys2Proof.Machine.execVrot f s
  | .vbcast f => Sys2Proof.Machine.execVbcast f s
  | .vxcol f => Sys2Proof.Machine.execVxcol f s
  | .vrcp f => Sys2Proof.Machine.execVrcp f s
  | .vrsq f => Sys2Proof.Machine.execVrsq f s
  | .vexp2 f => Sys2Proof.Machine.execVexp2 f s
  | .vamax f => Sys2Proof.Machine.execVamax f s
  | .vamaxClr f => Sys2Proof.Machine.execVamaxClr f s
  | .vmovs f => Sys2Proof.Machine.execVmovs f s
  | .vmovsAll f => Sys2Proof.Machine.execVmovsAll f s
  | .vmovv f => Sys2Proof.Machine.execVmovv f s
  | .vpand f => Sys2Proof.Machine.execVpand f s
  | .vpor f => Sys2Proof.Machine.execVpor f s
  | .vpnot f => Sys2Proof.Machine.execVpnot f s
  | .vpany f => Sys2Proof.Machine.execVpany f s
  | .tfetchRow f => Sys2Proof.Machine.execTfetchRow f s
  | .tfetchCol f => Sys2Proof.Machine.execTfetchCol f s
  | .tloadw f => Sys2Proof.Machine.execTloadw f s
  | .tswap f => Sys2Proof.Machine.execTswap f s
  | .tmac f => Sys2Proof.Machine.execTmac f s
  | .tmacb f => Sys2Proof.Machine.execTmacb f s
  | .tdrain f => Sys2Proof.Machine.execTdrain f s
  | .tdrainVec f => Sys2Proof.Machine.execTdrainVec f s
  | .tdrainb f => Sys2Proof.Machine.execTdrainb f s
  | .anorm f => Sys2Proof.Machine.execAnorm f s
  | .aclr f => Sys2Proof.Machine.execAclr f s
  | .torg f => Sys2Proof.Machine.execTorg f s
  | .tstat f => Sys2Proof.Machine.execTstat f s
  | .tnop f => Sys2Proof.Machine.execTnop f s
  | .cpy f => Sys2Proof.Machine.execCpy f s
  | .cpyt f => Sys2Proof.Machine.execCpyt f s
  | .cpgath f => Sys2Proof.Machine.execCpgath f s
  | .cpscat f => Sys2Proof.Machine.execCpscat f s
  | .cpfill f => Sys2Proof.Machine.execCpfill f s
  | .cpxor f => Sys2Proof.Machine.execCpxor f s
  | .cpswp f => Sys2Proof.Machine.execCpswp f s
  | .cpstat f => Sys2Proof.Machine.execCpstat f s
  | .graftAppend f => Sys2Proof.Machine.execGraftAppend f s
  | .graftSum f => Sys2Proof.Machine.execGraftSum f s
  | .graftSplit f => Sys2Proof.Machine.execGraftSplit f s
  | .gproj f => Sys2Proof.Machine.execGproj f s
  | .gload f => Sys2Proof.Machine.execGload f s
  | .gstore f => Sys2Proof.Machine.execGstore f s
  | .gsetm f => Sys2Proof.Machine.execGsetm f s
  | .gsetb f => Sys2Proof.Machine.execGsetb f s
  | .gclr f => Sys2Proof.Machine.execGclr f s
  | .gstat f => Sys2Proof.Machine.execGstat f s
  | .gstatInfo f => Sys2Proof.Machine.execGstatInfo f s
  | .batomAdd f => Sys2Proof.Machine.execBatomAdd f s
  | .batomMin f => Sys2Proof.Machine.execBatomMin f s
  | .batomMax f => Sys2Proof.Machine.execBatomMax f s
  | .batomAnd f => Sys2Proof.Machine.execBatomAnd f s
  | .batomOr f => Sys2Proof.Machine.execBatomOr f s
  | .batomXor f => Sys2Proof.Machine.execBatomXor f s
  | .batomSwp f => Sys2Proof.Machine.execBatomSwp f s
  | .batomCas f => Sys2Proof.Machine.execBatomCas f s
  | .batomFadd f => Sys2Proof.Machine.execBatomFadd f s
  | .bred f => Sys2Proof.Machine.execBred f s
  | .bcollAllreduce f => Sys2Proof.Machine.execBcollAllreduce f s
  | .bcollRedscat f => Sys2Proof.Machine.execBcollRedscat f s
  | .bcollAllgath f => Sys2Proof.Machine.execBcollAllgath f s
  | .bcollBcast f => Sys2Proof.Machine.execBcollBcast f s
  | .bdig f => Sys2Proof.Machine.execBdig f s
  | .bcopy f => Sys2Proof.Machine.execBcopy f s
  | .bfill f => Sys2Proof.Machine.execBfill f s
  | .bseed f => Sys2Proof.Machine.execBseed f s
  | .bstat f => Sys2Proof.Machine.execBstat f s
  | .bstatInfo f => Sys2Proof.Machine.execBstatInfo f s
  | .trap f => Sys2Proof.Machine.execTrap f s
  | .sret f => Sys2Proof.Machine.execSret f s
  | .crrd f => Sys2Proof.Machine.execCrrd f s
  | .crwr f => Sys2Proof.Machine.execCrwr f s
  | .crswp f => Sys2Proof.Machine.execCrswp f s
  | .crset f => Sys2Proof.Machine.execCrset f s
  | .crclr f => Sys2Proof.Machine.execCrclr f s
  | .uhtopWrite how f => Sys2Proof.Machine.execUhtopWrite how f s
  | .safept f => Sys2Proof.Machine.execSafept f s
  | .dbgbrk f => Sys2Proof.Machine.execDbgbrk f s
  | .replay f => Sys2Proof.Machine.execReplay f s
  | .done f => Sys2Proof.Machine.execDone f s
  | .kill f => Sys2Proof.Machine.execKill f s
  | .bedResume bed => Sys2Proof.Machine.execBedResume bed s
  | .memoryReply core id => Sys2Proof.Machine.execMemoryReply core id s
  | .postBufferRoom core => Sys2Proof.Machine.execPostBufferRoom core s
  | .writeAcknowledgement core id => Sys2Proof.Machine.execWriteAcknowledgement core id s
  | .remoteTimeout core what => Sys2Proof.Machine.execRemoteTimeout core what s
  | .neighbourWordLanding core => Sys2Proof.Machine.execNeighbourWordLanding core s
  | .statusWordPush core q => Sys2Proof.Machine.execStatusWordPush core q s
  | .syncWordEvent ev addr n => Sys2Proof.Machine.execSyncWordEvent ev addr n s
  | .trellisEntryStart core => Sys2Proof.Machine.execTrellisEntryStart core s
  | .stampTick core => Sys2Proof.Machine.execStampTick core s
  | .trellisEntryCompletion core => Sys2Proof.Machine.execTrellisEntryCompletion core s
  | .engineEntryStart core q => Sys2Proof.Machine.execEngineEntryStart core q s
  | .syncTagPosting core => Sys2Proof.Machine.execSyncTagPosting core s
  | .engineEntryCompletion core q => Sys2Proof.Machine.execEngineEntryCompletion core q s
  | .sieveVote job cgid => Sys2Proof.Machine.execSieveVote job cgid s
  | .pageServiced core extent ok => Sys2Proof.Machine.execPageServiced core extent ok s
  | .barrierAdvance job lid => Sys2Proof.Machine.execBarrierAdvance job lid s
  | .budgetExpiry core => Sys2Proof.Machine.execBudgetExpiry core s
  | .notify n => Sys2Proof.Machine.execNotify n s
  | .cread n => Sys2Proof.Machine.execCread n s
  | .unitStart job lid unit => Sys2Proof.Machine.execUnitStart job lid unit s
  | .unitSave core => Sys2Proof.Machine.execUnitSave core s
  | .gangAck job gang rank => Sys2Proof.Machine.execGangAck job gang rank s
  | .gangAbort job gang => Sys2Proof.Machine.execGangAbort job gang s
  | .remoteAccess r => Sys2Proof.Machine.execRemoteAccess r s
  | .correctableError bed => Sys2Proof.Machine.execCorrectableError bed s
  | .freezeEnd bed => Sys2Proof.Machine.execFreezeEnd bed s
  | .temperatureSample die t16 => Sys2Proof.Machine.execTemperatureSample die t16 s
  | .pwrcap v => Sys2Proof.Machine.execPwrcap v s
  | .phaseLoss rail => Sys2Proof.Machine.execPhaseLoss rail s
  | .thermalTrip die => Sys2Proof.Machine.execThermalTrip die s
  | .apertureRegisterWrite die n reg v => Sys2Proof.Machine.execApertureRegisterWrite die n reg v s
  | .preset v => Sys2Proof.Machine.execPreset v s
  | .rdoor n => Sys2Proof.Machine.execRdoor n s
  | .attestationRequest nonce => Sys2Proof.Machine.execAttestationRequest nonce s
  | .scheduleTick bed => Sys2Proof.Machine.execScheduleTick bed s
  | .illegalInstruction w => Sys2Proof.Machine.execIllegalInstruction w s
  | .trapEntry => Sys2Proof.Machine.execTrapEntry s
  | .preemptionStop => Sys2Proof.Machine.execPreemptionStop s
  | .launchRecord => Sys2Proof.Machine.execLaunchRecord s
  | .cancelRecord => Sys2Proof.Machine.execCancelRecord s
  | .replayRecord => Sys2Proof.Machine.execReplayRecord s
  | .resumeBed => Sys2Proof.Machine.execResumeBed s
  | .haltBed => Sys2Proof.Machine.execHaltBed s
  | .close => Sys2Proof.Machine.execClose s
  | .openJob => Sys2Proof.Machine.execOpenJob s
  | .endJob => Sys2Proof.Machine.execEndJob s
  | .launchPlacement => Sys2Proof.Machine.execLaunchPlacement s
  | .launchAgeing job lid => Sys2Proof.Machine.execLaunchAgeing job lid s
  | .completionRecordWrite => Sys2Proof.Machine.execCompletionRecordWrite s
  | .powerOn => Sys2Proof.Machine.execPowerOn s
  | .fetchFault => Sys2Proof.Machine.execFetchFault s
  | .lossOfInputPower => Sys2Proof.Machine.execLossOfInputPower s

end Sys2Proof.Machine
end

