-- ==== Sys2Proof/Machine/Fetch.lean ====
section
/-! DEFINITION. One step of the machine: an event of the agenda, or the turn of the focused core on its tick: the vector
memory columns, the boundary conditions of R174, and the issue of the word at PC (R83, R84, R91, R172, R205). -/

namespace Sys2Proof.Machine

/-- A next state changed. -/
def mapNext (f : State → State) (r : Res) : Res := match r with | .next t => .next (f t) | r => r

/-- The trap of the focused core is to be taken now (R172). -/
def trapNow (s : State) : Bool :=
  match s.core.trap with | some r => r.at_ ≤ s.bed.btick && s.core.drained s.bed.btick | none => false

/-- The focused core's VREG columns of this tick read and draw, after the word it issued on it (R61, R93): slice 0 of a
new word draws before the later slices of older ones. -/
def lateColumns (s : State) : State := if s.bed.closed then s else vecColumns s s.core.num s.bed.btick (fun _ => true)

/-- The word that issues at the focused core on this tick is a vector word that draws seed bits: its slice 0 draws before the later
slices of older words (R61). -/
def drawsNow (s : State) : Bool :=
  match aboutToIssue s s.core s.bed.btick with
  | some i => (match vecPlan i with | some p => p.draws && rmOf s.core p.f = 4 | none => false)
  | none => false

/-- Columns of the focused core take words of a seed log before the word it issues on this tick: the log's accesses stand in
issue order (R64, R114), and the word draws nothing itself. DEDUCED, unsafe: log 74. -/
def earlyPending (s : State) : Bool := seedDue s && !drawsNow s

/-- Those columns act. -/
def earlyColumns (s : State) : State := vecColumns s s.core.num s.bed.btick VFlight.draws

/-- The turn goes on from the focused core: it stays while a trap is to be taken, else to the next core of the bed that
runs, and after the last to the bed's clock. -/
def passOn (s : State) : State :=
  if s.core.run == .running && trapNow s then s
  else match runnerFrom s s.bed.num (s.core.num + 1) with
    | some n => focus s n
    | none => { s with agenda := s.agenda ++ [.scheduleTick s.bed.num] }

/-- The focused core's turn ends. -/
def moveOn (s : State) : State := passOn (lateColumns s)

/-- The word at PC is fetched, decoded and executed, or raises its fault (R84, R205). -/
def issueWord (ex : Instr → State → Res) (s : State) : Res :=
  match fetchStop s with
  | some _ => ex .fetchFault s
  | none =>
    let w := fetchWord s
    match decode w with
    | .ok i => ex i s
    | .error .illegal => ex (.illegalInstruction (BitVec.ofNat 64 w)) s
    | .error .reserved => .next (wordFault s w 0x02)

/-- The word about to issue owes a precise fault, or the delivery of an attributed one (R174 rows 1 and 2). -/
def owes (ex : Instr → State → Res) (s : State) : Bool :=
  match issueWord ex (onCore s (fun c => { c with trap := none })) with
  | .next t => match t.core.trap with | some r => r.fr.kind = 0 || r.fr.kind = 2 | none => false
  | _ => false

/-- The erasure-quota trap of a crossing kept in XSTAT.QP (R162, R242). -/
def raiseQuota (s : State) : State := onCore s fun c => { c with qp := false }.raise quotaRec c.pc s.bed.btick

/-- A terminal event is taken (R407). -/
def raiseEvent (s : State) (e : FaultRec) : State :=
  onCore s fun c => { c with event := none }.raise e c.pc s.bed.btick

/-- The condition that is taken at the boundary before a unit-view word, if any (R174 rows 3 to 7). -/
def boundary (ex : Instr → State → Res) (s : State) : Option State :=
  let c := s.core
  let t := s.bed.btick
  if c.view == .system || !(c.qp || c.deferred.isSome || c.event.isSome || c.thr) then none
  else if owes ex s then none
  else
    let kept := c.deferred.map (fun r => { r with at_ := t, xpc := c.pc })
    let take (r : TrapReq) : State := onCore s fun c => { c with deferred := none, trap := some r }
    match (if c.qp && kept.all (fun r => r.fr.code ≠ 0x08) then some (raiseQuota s) else none) with
    | some q => some q
    | none =>
    match kept, c.event with
    | some r, some e => some (if r.stop then raiseEvent s e else take r)
    | some r, none => some (take r)
    | none, some e => some (raiseEvent s e)
    | none, none =>
      if c.xvec = 0 then some (onCore s fun c => { c with thr := false })
      else some (onCore s fun c => c.raise (eventRec 0x23 c.thrDetail.toNat) c.pc t)

/-- A trap taken after its word, or a stop, gives way to what R174 puts before it; it stays pending. -/
def putOff (s : State) (r : TrapReq) : State := onCore s fun c => { c with trap := none, deferred := some r }

/-- A trap that is due: taken, unless something of R174 comes before it. A notice that gives way stays pending (R419). -/
def trapTurn (ex : Instr → State → Res) (s : State) (r : TrapReq) : Res :=
  let late := r.fr.kind = 1 || r.stop
  if r.fr.code = 0x23 && (s.core.qp || s.core.event.isSome) then .next (onCore s fun c => { c with trap := none })
  else if late && (owes ex s || (r.fr.code ≠ 0x08 && s.core.qp) || (r.stop && s.core.event.isSome)) then .next (putOff s r)
  else mapNext moveOn (ex (if r.stop then .preemptionStop else .trapEntry) s)

/-- The turn waits: the bed's tick is held as it stands, and its clock runs. -/
def holdTurn (s : State) : State :=
  let s1 := setHeld s s.bed.num true
  { s1 with agenda := s1.agenda ++ [.scheduleTick s.bed.num] }

/-- Bytes of memory, with the errors in their code words, as they stand in another state. -/
def bytesOf (from_ s : State) (l : List (Nat × Nat)) : State :=
  l.foldl (fun (s : State) x =>
    let out (a : Nat) : Bool := !(x.1 ≤ a && a < x.1 + x.2)
    { s with mem := wrN s.mem x.1 (rdN from_.mem x.1 x.2), ecc := s.ecc.filter out ++ from_.ecc.filter (fun a => !out a) }) s

/-- The seed log's bytes that the word with an order number has written. -/
def logRuns (s : State) (order : Nat) : List (Nat × Nat) :=
  (s.core.accs.filter (fun a => a.isSeed && a.kind = .store && a.order = order)).flatMap (·.runs)

/-- Older words' columns draw from a log after the word that issues now (R61), and columns of vector memory words act too: the
accesses of these come after the older words' to the log and before the new word's (R114, R122). In log mode the new word's
log words are put into memory after them; else the older words load what memory held before them. DEDUCED, unsafe: log 74. -/
def crossTurn (ex : Instr → State → Res) (s : State) : Res :=
  if s.core.seedMode = 1 then
    mapNext (fun a =>
      let b := lateColumns a
      let own := logRuns a s.core.order
      passOn (bytesOf b (vmemColumns (bytesOf s b own)) own)) (issueWord ex s)
  else
    mapNext (fun a =>
      let b := lateColumns { a with mem := s.mem, ecc := s.ecc }
      passOn { b with mem := a.mem, ecc := a.ecc }) (issueWord ex (vmemColumns s))

/-- The focused core's turn, where no arrival of this tick holds it: its columns of a vector memory word, and those that use a seed
log, act before the word it issues on that tick. R122 says so,
and says too that a later word follows every element only from t + COLS + 1; the model takes the first (DESIGN CHOICE,
unsafe: log 73). -/
def coreTurn (ex : Instr → State → Res) (s : State) : Res :=
  let c := s.core
  if s.bed.closed then .next (moveOn s)
  else if turnHeld s then .next (holdTurn s)
  else if earlyPending s then .next (earlyColumns s)
  else if vmemPending s then (if seedDue s then crossTurn ex s else .next (vmemColumns s))
  else if c.run ≠ .running then .next (moveOn s)
  else match c.trap with
    | some r => if trapNow s then trapTurn ex s r else .next (moveOn s)
    | none =>
      if c.wait.isSome ∨ s.bed.btick < c.nextBt then .next (moveOn s)
      else match boundary ex s with
        | some t => .next t
        | none => mapNext moveOn (issueWord ex s)

/-- One step: the next event of the agenda, or the focused core's turn. A package that comes up goes on to READY, one that
has tripped writes its completion records (R424, R429), and one without power stands still. DESIGN CHOICE, unsafe: log 2. -/
def turn (ex : Instr → State → Res) (s : State) : Res :=
  match s.agenda with
  | e :: r => ex e { s with agenda := r }
  | [] =>
    match s.plat.power with
    | .off => .fault .noInputPower
    | .up | .linked => ex .powerOn s
    | .ready => coreTurn ex s
    | .tripped => ex .completionRecordWrite s
    | .recovery => .next s

/-- A page of package DRAM a placed word stands in. -/
def wordFrame : Nat := 0x2000000000

/-- The core that a placed word is to issue on: its unit runs, nothing stands before the word at PC. -/
def readyCore (s : State) : Core :=
  let c := s.core
  { c with
    run := .running, pc := BitVec.ofNat 64 (c.pc.toNat / 8 * 8), wait := none, trap := none, deferred := none, event := none
    qp := false, thr := false, nextBt := min c.nextBt s.bed.btick, vq := if vmemPending s || seedDue s then [] else c.vq }

/-- An executable page at an address. -/
def wordExtent (pkg va : Nat) : Extent :=
  { ps := 0, vbase := va / 4096 * 4096, npg := 1, rd := true, wr := false, ex := true, abs := false, cmp := false, expt := 0
    pbase := paMk pkg 0 0 wordFrame, serviced := false, requested := false }

/-- A core of which no arrival and no expectation is on its way. -/
def Core.noArrivals (c : Core) : Core := { c with accs := c.accs.filter (fun a => !(a.kind == .arrive || a.kind == .expect)) }

/-- A word stored where the focused core fetches next (the load that a placed program stands for, log 3), with no arrival left
that it would have to follow. DESIGN CHOICE, safe: log 3. -/
def placeWord (s : State) (w : Nat) : State :=
  let s1 : State := { s with
    core := readyCore s, bed := { s.bed with closed := false, held := false }, agenda := []
    plat := { s.plat with power := .ready } }
  let s2 := if (fetchStop s1).isSome then onCore s1 (fun c => { c with extents := [wordExtent s.plat.pkg c.pc.toNat] }) else s1
  let s3 := (writePlaces s2 ((placesOf s2 s2.core s2.core.pc.toNat 8 false).zip (leBytes 8 w))).1
  if turnHeld s3 then { s3 with core := s3.core.noArrivals, others := s3.others.map Core.noArrivals } else s3

end Sys2Proof.Machine
end

