-- ==== Sys2Proof/Safety.lean ====
section
/-! DEFINITION. What counts as a safe run, and the vocabulary of the statements: when a word issues, what its issue
does, and what it leaves as it was. -/

namespace Sys2Proof.Machine

/-- A step goes on: no fault, no refusal. -/
def State.goesOn (s : State) : Prop := ∃ t, step s = .next t

/-- Memory stands in its canonical form. -/
abbrev State.MemWf (s : State) : Prop := Memory.wf s.mem = true

/-- One step leads from s to t. -/
def Steps (s t : State) : Prop := step s = .next t

/-- A state a run reaches from reset. -/
inductive Reached : State → Prop where
  | reset : Reached State.reset
  | step (s t : State) : Reached s → Steps s t → Reached t

/-! ### The issue of one word -/

/-- A word about to issue as the rules see it: whether it is a system-view word, its units, ramp field and sources
(R92, R186), the results it puts in flight (R20), its bit-operations (R163), the next PC and the bt it issues on (R91),
and the bits it erases: registers of whoever runs, register bits of the unit, and memory cells (R159, R164). -/
structure Issue where
  sys : Bool
  units : List FUnit
  ramp : Nat
  srcs : List Nat
  results : List Pend
  work : Nat
  npc : Word
  nbt : Nat
  regs : Nat
  own : Nat
  cells : Nat
  deriving DecidableEq, Repr

/-- The ordinary word: unit or system view, PC + 8 on the next bt, nothing erased. -/
def Issue.plain (s : State) (units : List FUnit) (ramp : Nat) (srcs : List Nat) (results : List Pend) (work : Nat) :
    Issue :=
  { sys := false, units := units, ramp := ramp, srcs := srcs, results := results, work := work
    npc := s.core.pc + 8, nbt := s.bed.btick + 1, regs := 0, own := 0, cells := 0 }

/-- No check of R84 from privilege on stops the word: the view is right, its units are free, no result falls due where
another does, every port it reads has a word that carries no fault to deliver, every port it writes has room. -/
abbrev Issue.ready (w : Issue) (s : State) : Prop :=
  let c := s.core
  let t := s.bed.btick
  (c.view = .unit → w.sys = false ∧ ∀ q ∈ pushPorts w.results, q < 4) ∧
  (∀ u ∈ w.units, c.unitBusy t u = false) ∧
  c.collides (pendKeys w.results) = false ∧
  (∀ n ∈ w.srcs, isPort n = true →
    (c.front (n - 56) t).any (fun x => x.q = 0 || c.pending.all (fun f => f.queue ≠ x.q || f.seq ≠ x.seq)) = true) ∧
  (∀ q ∈ pushPorts w.results, portFull s c.num q t = false)

/-- The word's erasures cross EQUOTA (R161, R162). -/
abbrev Issue.crosses (w : Issue) (s : State) : Prop :=
  let n := (if s.core.view = .unit then w.regs else 0) + w.own + w.cells
  s.core.equota ≠ 0 ∧ s.core.ebits < s.core.equota.toNat ∧ s.core.equota.toNat ≤ s.core.ebits + n

/-- What the issue of a word does to the fields it may change: results in flight, the next word, ports popped once,
units occupied, erasures and energy charged (R20, R33, R91, R92, R159-R164). -/
def Issue.went (w : Issue) (s t : State) : Prop :=
  let c := s.core
  let d := t.core
  let k := rampK w.ramp
  d.pend = c.pend ++ w.results ∧ d.pc = w.npc ∧ d.nextBt = w.nbt ∧ d.order = c.order + 1 ∧
  (∀ q < 8, d.port q = if 56 + q ∈ w.srcs then (c.port q).tail else c.port q) ∧
  (∀ u n, d.unitBusy n u = if u ∈ w.units then decide (n < s.bed.btick + k) else c.unitBusy n u) ∧
  (c.view = .unit → d.ebits = c.ebits + (w.regs + w.own + w.cells) ∧ d.xebits = c.xebits ∧
    d.ej = c.ej + 2600 * (w.regs + w.own) + 3000 * w.cells + workUnits w.work k (heat s c.num)) ∧
  (c.view = .system → d.ebits = c.ebits + (w.own + w.cells) ∧ d.xebits = c.xebits + w.regs ∧
    d.ej = c.ej + 2600 * w.own + 3000 * w.cells) ∧
  (¬ w.crosses s → d.trap = c.trap ∧ d.qp = c.qp)

/-- c with the fields that the issue of a word may change taken from d. -/
def Core.withIssue (c d : Core) : Core :=
  { c with
    pc := d.pc, nextBt := d.nextBt, order := d.order, busy := d.busy, pend := d.pend, ports := d.ports
    lastPop := d.lastPop, ebits := d.ebits, xebits := d.xebits, ej := d.ej, qp := d.qp, trap := d.trap }

/-- The instruction completes: exec answers a next state, which is e (the state before with the word's own effect) but
for what its issue changes. With e = s the word changes nothing else: no register, flag, special register,
accumulator or byte of memory. -/
def Issue.does (w : Issue) (i : Instr) (s e : State) : Prop :=
  ∃ t, exec i s = .next t ∧ w.went s t ∧ t = { e with core := e.core.withIssue t.core }

/-- The state in which the word at the focused core has no effect but the trap its fault asks for (R84, R171). -/
def stops (i : Instr) (s : State) (srcs : List Nat) (code : Nat) (addr detail : Word) : Prop :=
  exec i s = .next (stopWord s i srcs (.fault code addr detail))

end Sys2Proof.Machine
end

