-- ==== Sys2Proof/Certificates/Slice0/Obligations.lean ====
section
/-! DEFINITION. The statements for the provers. The helpers in `Sys2Proof.Stmt` say in the rules' own terms what an
instruction's issue is expected to be; each statement says that exec does that. -/

namespace Sys2Proof.Stmt
open Sys2Proof.Machine

/-! ### Scalar words -/

/-- The low w bits of a source (R187). -/
abbrev lo (s : State) (w n : Nat) : BitVec w := (srcVal s n).setWidth w

/-- A reversible word (R189): one unit, D and its other sources read, the low w bits of D take v on tick
t + base + k - 1; a result to s0 is charged w bits and discarded, a port is pushed with D's other bits kept (R186). -/
def rev (s : State) (u : FUnit) (base work ramp d w : Nat) (srcs : List Nat) (v : BitVec w) : Issue :=
  { Issue.plain s [u] ramp srcs [dueAt s base ramp (dstLand d 0 w (v.setWidth 64) (srcVal s d))] work with
    regs := if d = 0 then w else 0 }

/-- The two-register and one-register reversible words (R189): D + A, D - A, D xor A, -D, D rotated left by A[5:0]
modulo w, D times A made odd. -/
def reversible (s : State) (f : SregW) : List (Instr × Issue) :=
  let w := tyBits f.ty
  let x := lo s w f.d
  let y := lo s w f.a
  [ (.add f, rev s .alu 1 w f.ramp f.d w [f.d, f.a] (x + y)),
    (.sub f, rev s .alu 1 w f.ramp f.d w [f.d, f.a] (x - y)),
    (.xor f, rev s .alu 1 w f.ramp f.d w [f.d, f.a] (x ^^^ y)),
    (.neg f, rev s .alu 1 w f.ramp f.d w [f.d] (-x)),
    (.rol f, rev s .alu 1 w f.ramp f.d w [f.d, f.a] (x.rotateLeft ((srcVal s f.a).toNat % 64 % w))),
    (.mulo f, rev s .mul 3 (w * w) f.ramp f.d w [f.d, f.a] (x * (y ||| 1))) ]

/-- The reversible words with an immediate (R189); imm is the signed 36-bit value. -/
def reversibleImm (s : State) (f : SimmW) : List (Instr × Issue) :=
  let w := tyBits f.ty
  let x := lo s w f.d
  let imm := BitVec.ofInt w (sgn 36 f.imm)
  [ (.addi f, rev s .alu 1 w f.ramp f.d w [f.d] (x + imm)),
    (.xori f, rev s .alu 1 w f.ramp f.d w [f.d] (x ^^^ imm)),
    (.roli f, rev s .alu 1 w f.ramp f.d w [f.d] (x.rotateLeft (f.imm % w))),
    (.muloi f, rev s .mul 3 (w * w) f.ramp f.d w [f.d] (x * imm)) ]

/-- XORW (R189): the half H of D is xored with imm, 32 bits at bit 32 H. -/
def xorw (s : State) (f : SwideW) : Issue :=
  let x := (srcVal s f.d).extractLsb' (32 * f.h) 32
  { Issue.plain s [.alu] f.ramp [f.d]
      [dueAt s 1 f.ramp (dstLand f.d (32 * f.h) 32 ((x ^^^ BitVec.ofNat 32 f.imm).setWidth 64) (srcVal s f.d))] 32 with
    regs := if f.d = 0 then 32 else 0 }

/-- The exchange of D and A over w bits (R189, R190): with D = A nothing is written, but a port gets its word back; a
side that is s0 is charged. -/
def exchange (s : State) (f : SregW) (srcs : List Nat) (swap : Bool) : Issue :=
  let w := tyBits f.ty
  let x := (lo s w f.d).setWidth 64
  let y := (lo s w f.a).setWidth 64
  { Issue.plain s [.alu] f.ramp srcs
      (if f.d = f.a then (if isPort f.d then [dueAt s 1 f.ramp (.push (f.d - 56) (srcVal s f.d))] else [])
       else [dueAt s 1 f.ramp (dstLand f.d 0 w (if swap then y else x) (srcVal s f.d)),
             dueAt s 1 f.ramp (dstLand f.a 0 w (if swap then x else y) (srcVal s f.a))]) (2 * w) with
    regs := if f.d = f.a then 0 else (if f.d = 0 then w else 0) + (if f.a = 0 then w else 0) }

/-- A plain erasing word (R191, R193): D takes the n bits of v from bit lo up; n bits are charged unless D is a port;
`base` gives a port's other bits. -/
def erasing (s : State) (u : FUnit) (lat work ramp d lo n : Nat) (srcs : List Nat) (v base : Word) : Issue :=
  { Issue.plain s [u] ramp srcs [dueAt s lat ramp (dstLand d lo n v base)] work with
    regs := if isPort d then 0 else n }

/-- The number of bits directly below the top bit that equal it (R191, NORM): the leading equal bits less one. -/
def equalLead {w : Nat} (x : BitVec w) : Nat := (if x.msb then (~~~x).clz else x.clz).toNat - 1

/-- The double-width product's upper half (R191, MULH). -/
def highProduct {w : Nat} (sg : Bool) (x y : BitVec w) : BitVec w :=
  if sg then (x.signExtend (2 * w) * y.signExtend (2 * w)).extractLsb' w w
  else (x.setWidth (2 * w) * y.setWidth (2 * w)).extractLsb' w w

/-- f of an erasing SREG form at width w (R191), as the 64-bit value whose low bits D takes. -/
def regValue (op : EReg) (sg : Bool) {w : Nat} (x y : BitVec w) : Word :=
  let n := y.toNat % 64
  match op with
  | .add3 => (x + y).setWidth 64
  | .sub3 => (x - y).setWidth 64
  | .xor3 => (x ^^^ y).setWidth 64
  | .and => (x &&& y).setWidth 64
  | .or => (x ||| y).setWidth 64
  | .mul => (x * y).setWidth 64
  | .mulh => (highProduct sg x y).setWidth 64
  | .shl => (x <<< n).setWidth 64
  | .shr => (x >>> n).setWidth 64
  | .sar => (x.sshiftRight n).setWidth 64
  | .mov => x.setWidth 64
  | .clr => 0
  | .ext => if sg then x.signExtend 64 else x.setWidth 64
  | .norm => BitVec.ofNat 64 (equalLead x)
  | .popc => BitVec.ofNat 64 ((List.range w).countP (fun i => x.getLsbD i))
  | .cmpeq => if x = y then 1 else 0
  | .cmplt => if x.slt y then 1 else 0
  | .cmplo => if x.ult y then 1 else 0

/-- The bits an erasing SREG form writes: EXT and the comparisons write 64, the others the width (R191). -/
def regBits (op : EReg) (w : Nat) : Nat :=
  match op with | .ext | .cmpeq | .cmplt | .cmplo => 64 | _ => w

/-- The sources of an erasing SREG form (R191). -/
def regSrcs (op : EReg) (f : SregW) : List Nat :=
  match op with | .clr => [] | .mov | .ext | .norm | .popc => [f.a] | _ => [f.a, f.b]

/-- An erasing SREG word: MUL and MULH on the multiplier with base latency 3 and w * w bit-operations, the others on
the ALU with 1 and w (R188). -/
def erasingReg (s : State) (op : EReg) (f : SregW) : Issue :=
  let w := tyBits f.ty
  let m := op = .mul ∨ op = .mulh
  erasing s (if m then .mul else .alu) (if m then 3 else 1) (if m then w * w else w) f.ramp f.d 0 (regBits op w)
    (regSrcs op f) (regValue op (tySigned f.ty) (lo s w f.a) (lo s w f.b)) 0

/-- The erasing SREG words by name. -/
def erasingRegs (s : State) (f : SregW) : List (Instr × Issue) :=
  [ (.add3 f, erasingReg s .add3 f), (.sub3 f, erasingReg s .sub3 f), (.xor3 f, erasingReg s .xor3 f),
    (.and f, erasingReg s .and f), (.or f, erasingReg s .or f), (.mul f, erasingReg s .mul f),
    (.mulh f, erasingReg s .mulh f), (.shl f, erasingReg s .shl f), (.shr f, erasingReg s .shr f),
    (.sar f, erasingReg s .sar f), (.mov f, erasingReg s .mov f), (.clr f, erasingReg s .clr f),
    (.ext f, erasingReg s .ext f), (.norm f, erasingReg s .norm f), (.popc f, erasingReg s .popc f),
    (.cmpeq f, erasingReg s .cmpeq f), (.cmplt f, erasingReg s .cmplt f), (.cmplo f, erasingReg s .cmplo f) ]

/-- pos and len of BFX and BFI (R192). -/
def fieldAt (imm : Nat) : Nat × Nat := (imm % 64, imm / 64 + 1)

/-- What an erasing SIMM form writes: lowest bit, width, value (R191, R192). -/
def immValue (s : State) (op : EImm) (f : SimmW) : Nat × Nat × Word :=
  let w := tyBits f.ty
  let x := lo s w f.a
  let imm := BitVec.ofInt w (sgn 36 f.imm)
  let (p, l) := fieldAt f.imm
  match op with
  | .andi => (0, w, (x &&& imm).setWidth 64)
  | .ori => (0, w, (x ||| imm).setWidth 64)
  | .shli => (0, w, (x <<< f.imm).setWidth 64)
  | .shri => (0, w, (x >>> f.imm).setWidth 64)
  | .sari => (0, w, (x.sshiftRight f.imm).setWidth 64)
  | .movi => (0, w, imm.setWidth 64)
  | .bfx =>
    let v := (srcVal s f.a).extractLsb' p l
    (0, 64, if tySigned f.ty then v.signExtend 64 else v.setWidth 64)
  | .bfi => (p, l, ((srcVal s f.a).extractLsb' 0 l).setWidth 64)

/-- An erasing SIMM word; BFI reads D too (R186). -/
def erasingImm (s : State) (op : EImm) (f : SimmW) : Issue :=
  let r := immValue s op f
  erasing s .alu 1 (tyBits f.ty) f.ramp f.d r.1 r.2.1
    (match op with | .movi => [] | .bfi => [f.d, f.a] | _ => [f.a]) r.2.2
    (match op with | .bfi => srcVal s f.d | _ => 0)

/-- The erasing SIMM words and MOVW by name. -/
def erasingImms (s : State) (f : SimmW) (h : SwideW) : List (Instr × Issue) :=
  [ (.andi f, erasingImm s .andi f), (.ori f, erasingImm s .ori f), (.shli f, erasingImm s .shli f),
    (.shri f, erasingImm s .shri f), (.sari f, erasingImm s .sari f), (.movi f, erasingImm s .movi f),
    (.bfx f, erasingImm s .bfx f), (.bfi f, erasingImm s .bfi f),
    (.movw h, erasing s .alu 1 32 h.ramp h.d (32 * h.h) 32 [h.d] (BitVec.ofNat 64 h.imm) (srcVal s h.d)) ]

/-- The plain erasing word a .k or .b form is made of, what it writes, and its units and costs. -/
def plainOf (s : State) : EForm → Issue × Nat × Nat × Word
  | .reg op f =>
    let w := tyBits f.ty
    (erasingReg s op f, 0, regBits op w, regValue op (tySigned f.ty) (lo s w f.a) (lo s w f.b))
  | .imm op f => (erasingImm s op f, immValue s op f)
  | .wide f =>
    (erasing s .alu 1 32 f.ramp f.d (32 * f.h) 32 [f.d] (BitVec.ofNat 64 f.imm) (srcVal s f.d),
      32 * f.h, 32, BitVec.ofNat 64 f.imm)

/-- The bits of D that a form overwrites, as a number. -/
def overwritten (s : State) (e : EForm) : Nat :=
  let r := (plainOf s e).2
  ((srcVal s e.dst).extractLsb' r.1 r.2.1).toNat

/-- The latency of a form. -/
def formLat : EForm → Nat | .reg .mul _ | .reg .mulh _ => 3 | _ => 1

/-- A .k or .b form: D is read too, D[W] takes v, nothing is charged (R193). -/
def kept (s : State) (e : EForm) (v : Word) : Issue :=
  let p := plainOf s e
  { p.1 with
    srcs := e.dst :: e.sources
    results := [dueAt s (formLat e) p.1.ramp (.sreg e.dst p.2.1 p.2.2.1 v)]
    regs := 0 }

/-- The trug of the current view with n bits above it (R66, R167): bit 0 of v lowest. -/
def pushed (t : Trug) (v n : Nat) : Trug :=
  { t with bits := t.bits % 2 ^ t.depth + v * 2 ^ t.depth, top := t.top + n }

/-- The trug without its top n bits, and those bits (R167). -/
def popped (t : Trug) (n : Nat) : Trug × Nat :=
  ({ t with bits := t.bits % 2 ^ (t.depth - n), top := t.top - n }, t.bits / 2 ^ (t.depth - n) % 2 ^ n)

/-- The state with another partition in the current view. -/
def withTrug (s : State) (t : Trug) : State := { s with core := s.core.setTrug t }

/-- A trug word may leave HTOP at x: HLIM allows it, and so does every value that a write to it has still to put there (R166). -/
abbrev underLimits (c : Core) (x : Nat) : Prop :=
  x ≤ c.trug.lim ∧ ∀ p ∈ c.pend, ∀ v, p.land = .creg (if c.view = .unit then 0x11A else 0x00A) v → x ≤ v.toNat

/-- None of them lies above x. -/
abbrev limitsUpTo (c : Core) (x : Nat) : Prop :=
  c.trug.lim ≤ x ∧ ∀ p ∈ c.pend, ∀ v, p.land = .creg (if c.view = .unit then 0x11A else 0x00A) v → v.toNat ≤ x

/-- c of R195: A beats D. -/
def beats (isMax : Bool) (ty : Nat) {w : Nat} (x y : BitVec w) : Bool :=
  if isMax then (if tySigned ty then x.slt y else x.ult y) else (if tySigned ty then y.slt x else y.ult x)

/-- Plain MIN or MAX (R195): D is written only when A beats it, a port is pushed in every case, the charge is w either
way. -/
def minmax (s : State) (isMax : Bool) (f : SregW) : Issue :=
  let w := tyBits f.ty
  let x := lo s w f.d
  let y := lo s w f.a
  let c := beats isMax f.ty x y
  { Issue.plain s [.alu] f.ramp [f.d, f.a]
      (if isPort f.d ∨ c then
        [dueAt s 1 f.ramp (dstLand f.d 0 w ((if c then y else x).setWidth 64) (srcVal s f.d))] else []) w with
    regs := if isPort f.d then 0 else w }

/-- MIN or MAX kept or undone (R195): both registers are written, exchanged when c. -/
def ordered (s : State) (f : SregW) (c : Bool) : Issue :=
  let w := tyBits f.ty
  let x := (lo s w f.d).setWidth 64
  let y := (lo s w f.a).setWidth 64
  Issue.plain s [.alu] f.ramp [f.d, f.a]
    [dueAt s 1 f.ramp (.sreg f.d 0 w (if c then y else x)), dueAt s 1 f.ramp (.sreg f.a 0 w (if c then x else y))] (2 * w)

/-- PC + 8 times the signed 29-bit offset (R201). -/
def target (s : State) (f : SbrW) : Word := s.core.pc + 8 * BitVec.ofInt 64 (sgn 29 f.off)

/-- A control-flow word: the control unit, no erasure, the next word at npc on bt t + k (R91, R201-R204). -/
def flow (s : State) (f : SbrW) (srcs : List Nat) (results : List Pend) (npc : Word) : Issue :=
  { Issue.plain s [.ctl] f.ramp srcs results 64 with npc := npc, nbt := s.bed.btick + rampK f.ramp }

/-- The condition of BC over the full values (R76). -/
def condIs (cc : Nat) (x y : Word) : Bool :=
  match cc with
  | 0 => true | 1 => x = y | 2 => x ≠ y | 3 => x.slt y | 4 => y.sle x | 5 => x.ult y | _ => y.ule x

/-! ### The bit permuter -/

/-- r is what the pattern routes from q (R196): bit i of r is bit bp.byte[i] of q, and 0 where the byte is Z. -/
def routes (pat : List Byte) (q r : BitVec 128) : Prop :=
  ∀ i < 128, r.getLsbD i = (pat[i]?).any (fun b => decide (b.toNat < 128) && q.getLsbD b.toNat)

/-- A register pair, the even register low. -/
def pair (s : State) (e : Nat) : BitVec 128 := srcVal s (e + 1) ++ srcVal s e

/-- BPERM and BPERM.e (R198, R199): the pair D, D + 1 takes r two ticks and k - 1 after issue. -/
def permuted (s : State) (f : SregW) (src : Nat) (r : BitVec 128) (erased : Nat) : Issue :=
  { Issue.plain s [.perm] f.ramp [src, src + 1]
      [dueAt s 2 f.ramp (.sreg f.d 0 64 (r.extractLsb' 0 64)), dueAt s 2 f.ramp (.sreg (f.d + 1) 0 64 (r.extractLsb' 64 64))]
      128 with
    regs := erased }

/-! ### Memory words -/

/-- The address of a memory word: A plus the signed offset modulo 2^64 (R207). -/
def addrOf (s : State) (a bits off : Nat) : Nat := (srcVal s a + BitVec.ofInt 64 (sgn bits off)).toNat

/-- The physical bytes a place stands in: its own, or the 160 bytes of each compressed block it shows (R255, R262). -/
def footprint : Place → List Nat
  | .one (.byte pa) => [pa]
  | .one (.blk slot _ _) => (List.range 160).map (slot + ·)
  | .bits l => l.flatMap fun x => match x.1 with
    | .byte pa => [pa]
    | .blk slot _ _ => (List.range 160).map (slot + ·)

/-- LD of a present extent (R212, R208, R209): D takes the w bits at the address extended to 64, on tick
t + b + k - 1; 64 bits are charged unless D is a port. LDX xors them into D and is charged nothing. -/
def load (s : State) (xor : Bool) (f : SmemW) (b m : Nat) : Issue :=
  let w := tyBits f.ty
  let v : BitVec w := BitVec.ofNat w m
  let x : Word := if tySigned f.ty then v.signExtend 64 else v.setWidth 64
  let old := srcVal s f.d
  { Issue.plain s [.mem] f.ramp (if xor then [f.d, f.a] else [f.a])
      [{ due := s.bed.btick + b + rampK f.ramp - 1, acc := s.core.nextAcc
         land := if isPort f.d then .push (f.d - 56) (if xor then old ^^^ x else x)
                 else .sreg f.d 0 64 (if xor then old ^^^ x else x) }] (w + 64) with
    regs := if xor then (if f.d = 0 then 64 else 0) else (if isPort f.d then 0 else 64) }

/-- LD and LDX of an absent extent (R208): D is 0 or unchanged (a port popped by LDX gets its word back), bit 0 of the
flag register is cleared, both on tick t + 4 + k - 1. -/
def loadOfAbsent (s : State) (xor : Bool) (f : SmemW) : Issue :=
  let d : Land :=
    if isPort f.d then .push (f.d - 56) (if xor then srcVal s f.d else 0)
    else if xor then .sreg f.d 0 0 0 else .sreg f.d 0 64 0
  { Issue.plain s [.mem] f.ramp (if xor then [f.d, f.a] else [f.a])
      (dueAt s 4 f.ramp d :: (if f.b = 0 then [] else [dueAt s 4 f.ramp (.sreg f.b 0 1 0)])) (tyBits f.ty + 64) with
    regs := (if xor then (if f.d = 0 then 64 else 0) else (if isPort f.d then 0 else 64)) + (if f.b = 0 then 0 else 1) }

/-- The state with an access in the post buffer (R211). -/
def posted (s : State) (a : Access) : State :=
  let n := s.core.nextAcc
  { s with core := { s.core with
    accs := s.core.accs ++ [{ a with id := n, grp := if a.grp = 0 then n else a.grp }], nextAcc := n + 1 } }

/-- m is s's memory after the bytes of v have been written at places, none of them dropped: outside the places' bytes
nothing changes, and where the places are plain bytes, each its own and none in a code word with an error, they hold v
in little-endian order, but for those that the management controller answers for, which stay (R7, R245, R259, R427). -/
def wrote (s : State) (ps : List Place) (v : Nat) (m : List Host.Cell) : Prop :=
  (∀ a, (∀ p ∈ ps, a ∉ footprint p) → rd8 m a = rd8 s.mem a) ∧
  (∀ pas : List Nat, ps = pas.map (fun pa => .one (.byte pa)) → pas.Nodup → s.ecc = [] →
    ∀ j pa, pas[j]? = some pa → rd8 m pa = if mcHolds s pa 1 then rd8 s.mem pa else BitVec.ofNat 8 (v / 256 ^ j))

/-- The instruction completes, its word written at its places and its access posted; nothing else changes but what its
issue changes. -/
def stores (w : Issue) (i : Instr) (s : State) (ps : List Place) (v : Nat) (a : Access) : Prop :=
  ∃ m x n, wrote s ps v m ∧ w.does i s (posted { s with mem := m, ecc := x, writes := n } a)

/-- ST and STX (R212): no result; ST is charged w cell bits, STX nothing. -/
def store (s : State) (xor : Bool) (f : SmemW) : Issue :=
  let w := tyBits f.ty
  { Issue.plain s [.mem] f.ramp [f.d, f.a] [] (w + 64) with cells := if xor then 0 else w }

/-- SWPM (R212): D's low w bits take the word read, nothing is charged. -/
def swapMem (s : State) (f : SmemW) (b m : Nat) : Issue :=
  let w := tyBits f.ty
  Issue.plain s [.mem] f.ramp [f.d, f.a]
    [{ due := s.bed.btick + b + rampK f.ramp - 1, acc := s.core.nextAcc
       land := .sreg f.d 0 w (BitVec.ofNat 64 m) }] (2 * w + 64)

/-- The new word of an atomic (R75, R214) over 64 bits; none where .cas finds another value. -/
def atomNew (op : Aop) (old b c : Word) : Option Word :=
  match op with
  | .add => some (old + b)
  | .min => some (if old.slt b then old else b)
  | .max => some (if old.slt b then b else old)
  | .and => some (old &&& b)
  | .or => some (old ||| b)
  | .xor => some (old ^^^ b)
  | .swp => some b
  | .cas => if old = c then some b else none
  | .fadd => some (BitVec.ofNat 64 (fadd32 old.toNat (b.toNat % 2 ^ 32)))

/-- ATOM's charge for memory at issue (R214); .cas is charged 64 on its due tick, if it wrote. -/
def atomCells : Aop → Nat
  | .add | .min | .max | .and | .or => 64
  | .fadd => 32
  | .xor | .swp | .cas => 0

/-- ATOM (R214): D receives the old value on tick t + b + k - 1. -/
def atom (s : State) (op : Aop) (f : SatmW) (b : Nat) (old : Word) : Issue :=
  let due := s.bed.btick + b + rampK f.ramp - 1
  { Issue.plain s [.mem] f.ramp (if op = .cas then [f.a, f.b, f.c] else [f.a, f.b])
      ({ due := due, acc := s.core.nextAcc
         land := if isPort f.d then .push (f.d - 56) old else .sreg f.d 0 64 old } ::
        (if op = .cas ∧ old = srcVal s f.c then [{ due := due, acc := s.core.nextAcc, land := .cell 64 }] else [])) 128 with
    regs := if isPort f.d then 0 else 64
    cells := atomCells op }

/-- The atomics by name. -/
def atomOps (f : SatmW) : List (Aop × Instr) :=
  [(.add, .atomAdd f), (.min, .atomMin f), (.max, .atomMax f), (.and, .atomAnd f), (.or, .atomOr f), (.xor, .atomXor f),
   (.swp, .atomSwp f), (.cas, .atomCas f), (.fadd, .atomFadd f)]

/-- A word that accesses memory at one address, as its checks see it: the address and bytes, whether it reads, writes, is an
atomic, its sources, and its issue for the checks of R84, with the result that its address alone names. -/
structure MemWord where
  i : Instr
  va : Nat
  len : Nat
  rd : Bool
  wr : Bool
  atom : Bool
  srcs : List Nat
  issue : Issue

/-- The words that access memory at one address (R208, R212, R214). -/
def memWords (s : State) (f : SmemW) (g : SatmW) : List MemWord :=
  let va := addrOf s f.a 23 f.off
  let w := tyBits f.ty
  let of_ (i : Instr) (rd wr : Bool) (srcs : List Nat) (l : List Pend) : MemWord :=
    { i := i, va := va, len := w / 8, rd := rd, wr := wr, atom := false, srcs := srcs
      issue := Issue.plain s [.mem] f.ramp srcs l 0 }
  let got (xor : Bool) (l : Land) : List Pend :=
    if loadAbsent s.core va then (loadOfAbsent s xor f).results else refusedLand s va false false f.ramp l
  [of_ (.ld f) true false [f.a] (got false (dstLand f.d 0 64 0 0)),
   of_ (.ldx f) true false [f.d, f.a] (got true (dstLand f.d 0 64 0 (srcVal s f.d))),
   of_ (.st f) false true [f.d, f.a] [], of_ (.stx f) true true [f.d, f.a] [],
   of_ (.swpm f) true true [f.d, f.a] (refusedLand s va true false f.ramp (.sreg f.d 0 w 0))] ++
  (atomOps g).map fun p =>
    let va := addrOf s g.a 16 g.off
    let srcs := if p.1 = .cas then [g.a, g.b, g.c] else [g.a, g.b]
    { i := p.2, va := va, len := if p.1 = .fadd then 4 else 8, rd := true, wr := true, atom := true, srcs := srcs
      issue := Issue.plain s [.mem] g.ramp srcs (refusedLand s va true true g.ramp (dstLand g.d 0 64 0 0)) 0 }

/-! ### Ordering, waits and handles -/

/-- A word of the memory port or the control unit without a result. -/
def quick (s : State) (u : FUnit) (ramp : Nat) (srcs : List Nat) (work : Nat) : Issue := Issue.plain s [u] ramp srcs [] work

/-- A word that waits: it has issued, its ports have popped, and the word stays at PC (R28, R91, R186). -/
def waiting (s : State) (ramp : Nat) (srcs : List Nat) (work : Nat) : Issue :=
  { Issue.plain s [.ctl] ramp srcs [] work with npc := s.core.pc }

/-- The state e in which the core waits: the word's sources kept as they were read at issue, with what it popped and the energy it
added, which a wait without effect gives back (R223, R407). -/
def waitsFor (s e : State) (i : Instr) (w : Wait) (ramp : Nat) (srcs : List Nat) (work : Nat) : State :=
  let op (k : Nat) : Word := (srcs[k]?.map (srcVal s)).getD 0
  { e with core := { e.core with wait := some {
    w := w, i := i, pc := s.core.pc, opa := op 0, opb := op 1
    popped := ((srcs.filter isPort).dedup).filterMap fun n => (s.core.front (n - 56) s.bed.btick).map fun x => (n - 56, x)
    ej := if s.core.view = .unit then workUnits work (rampK ramp) (heat s s.core.num) else 0 } } }

/-- No fault waits for delivery at this core. -/
abbrev calm (s : State) : Prop := s.core.pending = []

/-- A fence or mark in the post buffer: its classes as a mask, its scope, its token. -/
def ordering (s : State) (i : Instr) (kind : AccKind) (f : SsysW) (tok : Nat) : Access :=
  { mkAcc s i [] kind f.mask f.sc 0 0 [] [] with remote := false, tok := tok }

/-- The state with token k clear, produced by a TMARK of these classes. -/
def marked (s : State) (k mask : Nat) : State :=
  { s with core := { s.core.clearToken k with tmarks := tset 0 s.core.tmarks k (mask + 1) } }

/-! ### The trug -/

/-- A trug word: one s-register result or none. -/
def trugWord (s : State) (f : SsysW) (srcs : List Nat) (results : List Pend) (work : Nat) : Issue :=
  Issue.plain s [.trug] f.ramp srcs results work

/-! ### Engine words -/

/-- An engine word at issue: its queue, tokens (R78), sources, its own checks in order (whether each fails, its code,
XREC6 and XREC7), what the entry keeps beside its operands, and what else its acceptance does. -/
structure EngineWord where
  i : Instr
  q : EngQ
  kp : Nat
  kcs : List Nat
  srcs : List Nat
  bads : List (Bool × Nat × Nat × Nat)
  keep : Entry → Entry
  also : Core → Core

/-- An EREG word. -/
def ereg (i : Instr) (q : EngQ) (f : EregW) (bads : List (Bool × Nat × Nat × Nat)) : EngineWord :=
  { i := i, q := q, kp := f.kp, kcs := [f.kc0, f.kc1, f.kc2], srcs := [f.a, f.b, f.c], bads := bads, keep := id
    also := id }

/-- An ESTAMP word. -/
def estamp (i : Instr) (f : EstampW) (bads : List (Bool × Nat × Nat × Nat)) : EngineWord :=
  { i := i, q := .trellis, kp := f.kp, kcs := [f.kc0, f.kc1, f.kc2], srcs := [], bads := bads, keep := id, also := id }

/-- The issue of an engine word: no unit, no result, its ports popped (R91, R186). -/
def EngineWord.issue (w : EngineWord) (s : State) : Issue := Issue.plain s [] 0 w.srcs [] 0

/-- The produced token is clear, or consumed by the word itself (R84, R31). -/
abbrev EngineWord.reuses (w : EngineWord) (s : State) : Prop := w.kp ≠ 63 ∧ (s.core.tokSet w.kp = false ∨ w.kp ∈ w.kcs)

/-- The queue is full (R24): 16 entries in the graft engine's, 32 in the others. -/
abbrev EngineWord.full (w : EngineWord) (s : State) : Prop :=
  (if w.q = .graft then 16 else 32) ≤ (s.core.queue w.q).es.length

/-- What an engine word does at issue (R25, R84, R175): token-reuse, then queue-overrun, then its own checks in order;
else its entry stands last in the queue with the next sequence number and its produced token is clear. -/
def EngineWord.accepted (w : EngineWord) (s : State) : Prop :=
  w.i.wf = true → (w.issue s).ready s →
    (w.reuses s → stops w.i s w.srcs 0x0B 0 0) ∧
    (¬ w.reuses s → w.full s → stops w.i s w.srcs 0x0A 0 0) ∧
    (¬ w.reuses s → ¬ w.full s →
      match w.bads.find? (·.1) with
      | some (_, code, addr, detail) => stops w.i s w.srcs code (BitVec.ofNat 64 addr) (BitVec.ofNat 64 detail)
      | none =>
        (w.issue s).does w.i s
          { s with core := w.also (s.core.accept w.q (w.keep (mkEntry s w.i w.q w.srcs))) })

/-- Trellis words (R335): TFETCH's shape has P and Q below 128 and row strides of at least 1 byte in bits 15..0, 47..16;
addresses are multiples of 16; TDRAIN's row stride is a multiple of 16 from 512; TDRAINV's selector names a column of
0 or 64; TMACB has a stamp, and in column 1 names handle 0 (R341). -/
def trellisWords (s : State) (f : EregW) (g : EstampW) : List EngineWord :=
  let a := (srcVal s f.a).toNat
  let b := (srcVal s f.b).toNat
  let vr := a / 2 ^ 16 % 32
  let shape := b.testBit 7 || b.testBit 15 || decide (2 ^ 48 ≤ b) || decide (b / 2 ^ 16 % 2 ^ 16 = 0) ||
    decide (b / 2 ^ 32 % 2 ^ 16 = 0)
  let fetch := [(shape, 0x02, 0, 0), (decide (a % 16 ≠ 0), 0x0E, a, 0)]
  let sel := a.testBit 7 || decide (a / 2 ^ 11 % 32 ≠ 0) || decide (2 ^ 21 ≤ a) || decide (a % 128 ≠ 0 ∧ a % 128 ≠ 64)
  [ ereg (.tfetchRow f) .trellis f fetch, ereg (.tfetchCol f) .trellis f fetch, ereg (.tloadw f) .trellis f [],
    estamp (.tswap g) g [], estamp (.tmac g) g [],
    estamp (.tmacb g) g
      [(decide (g.stamp = 0) || (decide (s.core.num % 2 = 1) && decide (g.opf / 2 ^ 10 % 32 ≠ 0)), 0x02, 0, 0)],
    ereg (.tdrain f) .trellis f [(decide (b % 16 ≠ 0) || decide (b < 512), 0x02, 0, 0), (decide (a % 16 ≠ 0), 0x0E, a, 0)],
    { ereg (.tdrainVec f) .trellis f [(sel, 0x02, 0, 0), (s.core.reserved.contains vr, 0x04, 0, vr)] with
      also := fun c => { c with reserved := c.reserved ++ [vr] } },
    ereg (.tdrainb f) .trellis f [(decide (a % 16 ≠ 0), 0x0E, a, 0)], ereg (.anorm f) .trellis f [],
    ereg (.aclr f) .trellis f [], ereg (.torg f) .trellis f [(a.testBit 7 || decide (2 ^ 15 ≤ a), 0x02, 0, 0)],
    ereg (.tstat f) .trellis f [], estamp (.tnop g) g [] ]

/-- Graft words (R350, R352-R355). -/
def graftWords (s : State) (f : EregW) : List EngineWord :=
  let a := (srcVal s f.a).toNat
  let b := (srcVal s f.b).toNat
  let shape (split proj : Bool) : Bool :=
    a.testBit 55 || decide (2 ^ 59 ≤ a) || (!split && decide (a / 2 ^ 40 % 2 ^ 12 ≠ 0)) ||
      (proj && decide (a / 2 ^ 24 % 2 ^ 16 ≠ 0))
  let align := decide (a % (if f.md.testBit 0 then 2 else 4) ≠ 0)
  let dims := (List.range 4).any (fun i => decide (a / 2 ^ (16 * i + 12) % 16 ≠ 0))
  [ ereg (.graftAppend f) .graft f [(shape false false, 0x02, 0, 0)],
    ereg (.graftSum f) .graft f [(shape false false, 0x02, 0, 0)],
    ereg (.graftSplit f) .graft f [(shape true false, 0x02, 0, 0)],
    ereg (.gproj f) .graft f [(shape false true, 0x02, 0, 0)],
    ereg (.gload f) .graft f
      [(decide (b / 2 ^ 12 % 16 ≠ 0) || decide (2 ^ 28 ≤ b), 0x02, 0, 0), (align, 0x0E, a, 0)],
    ereg (.gstore f) .graft f [(align, 0x0E, a, 0)],
    ereg (.gsetm f) .graft f [(decide (16 < f.md / 4 % 32), 0x02, 0, 0)],
    ereg (.gsetb f) .graft f [(dims, 0x02, 0, 0)],
    ereg (.gclr f) .graft f [], ereg (.gstat f) .graft f [], ereg (.gstatInfo f) .graft f [] ]

/-- Bank words but BCOLL and BSEED (R376-R378, R381, R382). -/
def bankWords (s : State) (f : EregW) : List EngineWord :=
  let a := (srcVal s f.a).toNat
  let b := (srcVal s f.b).toNat
  let c := (srcVal s f.c).toNat
  let at_ (x n : Nat) : Bool × Nat × Nat × Nat := (decide (x % n ≠ 0), 0x0E, x, 0)
  let len := (decide (c = 0) || decide (c % 8 ≠ 0) || decide (2 ^ 32 ≤ c), 0x02, 0, 0)
  let e := if f.md / 8 % 8 = 4 then 2 else 4
  let none_ := (s.core.groups.find? (fun g => g.cgid = a % 256)).isNone
  [ ereg (.batomAdd f) .bank f [at_ a 8], ereg (.batomMin f) .bank f [at_ a 8], ereg (.batomMax f) .bank f [at_ a 8],
    ereg (.batomAnd f) .bank f [at_ a 8], ereg (.batomOr f) .bank f [at_ a 8], ereg (.batomXor f) .bank f [at_ a 8],
    ereg (.batomSwp f) .bank f [at_ a 8], ereg (.batomCas f) .bank f [at_ a 8], ereg (.batomFadd f) .bank f [at_ a 4],
    ereg (.bred f) .bank f
      [(decide (c % 2 ^ 32 = 0) || decide (2 ^ 40 ≤ c), 0x02, 0, 0), at_ a e, at_ b e],
    ereg (.bdig f) .bank f [at_ a 8, (decide (b % 8 ≠ 0) || decide (2 ^ 39 ≤ b), 0x02, 0, 0),
      (decide (f.c ≠ 0) && decide (c % 16 ≠ 0), 0x0E, c, 0)],
    ereg (.bcopy f) .bank f [at_ a 8, at_ b 8, len], ereg (.bfill f) .bank f [at_ a 8, at_ b 8, len],
    ereg (.bstat f) .bank f [], ereg (.bstatInfo f) .bank f [(none_, 0x02, 0, 0)] ]

/-- The copy words that read a layout record from s16-s27 (R264, R274). -/
def copyWords (f : EregW) : List Instr :=
  [.cpy f, .cpyt f, .cpgath f, .cpscat f, .cpfill f, .cpxor f, .cpswp f]

/-- The record's twelve words as they stand in s16-s27. -/
def record (s : State) : List Word := (List.range 12).map (fun k => s.core.reg (16 + k))

/-- The fields of a record that the entry of a word requires to be zero: their lowest bits and lengths (R274-R276). -/
def mustBeZero : Instr → List (Nat × Nat)
  | .cpgath _ => strides 128
  | .cpscat _ => strides 128 ++ strides 320
  | .cpfill _ => [(96, 16), (112, 16), (128, 32)] ++ strides 128 ++ [(512, 64), (672, 16), (701, 1), (702, 1)]
  | .cpswp _ => [(96, 16), (112, 16), (672, 16)]
  | _ => []
where strides (b : Nat) : List (Nat × Nat) := (List.range' 1 5).map fun d => (b + 32 * d, 32)

/-- The checks of R268 in their order, on the record in s16-s27: each with its code, XREC6 and XREC7. -/
def recordBads (s : State) (i : Instr) (f : EregW) : List (Bool × Nat × Nat × Nat) :=
  let r := (record s).zipIdx.foldl (fun a x => a + x.1.toNat * 2 ^ (64 * x.2)) 0
  let len (lo n : Nat) : Nat := r / 2 ^ lo % 2 ^ n
  let fmt := len 688 4
  let hold := f.md.testBit 1
  let (scat, swp, cpyt, indexed) := match i with
    | .cpscat _ => (true, false, false, true) | .cpswp _ => (false, true, false, false)
    | .cpyt _ => (false, false, true, false) | .cpgath _ => (false, false, false, true) | _ => (false, false, false, false)
  let (bit, dh, rev, swzd) := (r.testBit 692, r.testBit 700, r.testBit 701, r.testBit 703)
  let e := if fmt = 0 ∨ fmt = 6 then 8 else if fmt = 2 ∨ fmt = 3 then 32 else if fmt = 7 then (if bit then 1 else 8) else 16
  let fields : List (Bool × Nat) :=
    [(decide (8 ≤ fmt), 688), (bit && decide (fmt ≠ 7), 692), (decide (4 < len 693 3), 693), (dh && decide (len 581 59 ≠ 0), 576),
     ((hold && !scat && !swp && !dh) || ((scat || swp) && dh), 700), (rev && bit, 701), (swzd && dh, 703)] ++
      (mustBeZero i).map fun z => (decide (len z.1 z.2 ≠ 0), z.1)
  let a := (srcVal s f.a).toNat
  let b := (srcVal s f.b).toNat
  let nest := (List.range 6).foldl (fun n d => n * (len (16 * d) 16 + 1)) 1
  let tag : List (Bool × Nat × Nat × Nat) :=
    [(decide (a % 16 ≠ 0), 0x0E, a, 0), ((coreSpans s.core a 16).isNone, 0x0C, a, 0),
     ((placesOf s s.core a 16 false).head?.any (fun p => paSpace p.pa = 0), 0x0C, a, 2), (decide (nest * e % 8 ≠ 0), 0x02, 0, 692)]
  (List.range 56).map (fun k => (r.testBit (712 + k), 0x02, 0, 712 + k)) ++
    [match ((fields.filter (·.1)).map (·.2)).min? with | some k => (true, 0x02, 0, k) | none => (false, 0x02, 0, 0)] ++
    [(cpyt && decide (4096 < (len 0 16 + 1) * e), 0x02, 0, 0)] ++ (if f.a = 0 then [] else tag) ++
    [(indexed && decide (b % 4 ≠ 0), 0x0E, b, 0)]

/-- The collectives by kind. -/
def collectives (f : EregW) : List (Nat × Instr) :=
  [(0, .bcollAllreduce f), (1, .bcollRedscat f), (2, .bcollAllgath f), (3, .bcollBcast f)]

/-! ### Vector words -/

/-- The container width of a format (R287). -/
def cw (fmt : Nat) : Nat := if fmt = 2 ∨ fmt = 3 then 32 else 16

/-- FP32, BF16, FP16. -/
def flt (fmt : Nat) : Bool := fmt = 3 || fmt = 4 || fmt = 5

/-- A row of the tables of R292-R294 and R299-R311. -/
def row (f : VregW) (i : Instr) (kind : VKind) (ok : Bool) (base work : Nat) (regs : List Nat) (cell : Nat)
    (draws : Bool) : Instr × VPlan :=
  (i, { f := f, kind := kind, fmtOk := ok, wide := f.fmt = 2 || f.fmt = 3, base := base, work := work, regs := regs
        cell := cell, draws := draws })

/-- Every VREG word: how its columns work, the formats it allows, base latency, bit-operations and erased bits per active
element, the registers it reads, and whether it rounds. -/
def vecTable (f : VregW) : List (Instr × VPlan) :=
  let c := cw f.fmt
  let fl := flt f.fmt
  let five : Bool := f.fmt ≤ 5
  let six : Bool := f.fmt ≤ 6
  let ints : Bool := f.fmt ≤ 2
  let bin := [f.va, f.vb]
  let own := [f.va, f.vd]
  let op := f.imm % 4
  let red : Bool := if op = 0 then f.fmt ≤ 5 else if op = 3 then f.fmt ≤ 2 else f.fmt ≤ 6
  let rdr : Bool := op = 0 && fl
  let g := f.imm
  [ row f (.vadd f) .elem five (if fl then 4 else 2) (if fl then 2 * c else c) bin c fl,
    row f (.vsub f) .elem five (if fl then 4 else 2) (if fl then 2 * c else c) bin c fl,
    row f (.vmul f) .elem five 4 (c * c / 8) bin c fl, row f (.vfma f) .elem five 4 (c * c / 8) [f.va, f.vb, f.vc] c fl,
    row f (.vmin f) .elem six 2 c bin c false, row f (.vmax f) .elem six 2 c bin c false,
    row f (.vabs f) .elem five 2 c [f.va] c false, row f (.vneg f) .elem five 2 c [f.va] c false,
    row f (.vand f) .elem six 2 c bin c false, row f (.vor f) .elem six 2 c bin c false,
    row f (.vxor f) .elem six 2 c bin c false, row f (.vshl f) .elem ints 2 c [f.va] c false,
    row f (.vshr f) .elem ints 2 c [f.va] c false, row f (.vsar f) .elem ints 2 c [f.va] c false,
    row f (.vradd f) .elem ints 2 c own 0 false, row f (.vrsub f) .elem ints 2 c own 0 false,
    row f (.vrxor f) .cont six 2 c own 0 false, row f (.vswap f) .cont six 2 (2 * c) own 0 false,
    row f (.vcmpeq f) .mask six 2 c bin 1 false, row f (.vcmplt f) .mask six 2 c bin 1 false,
    row f (.vcmple f) .mask six 2 c bin 1 false, row f (.vclass f) .mask fl 2 c [f.va] 1 false,
    row f (.vsel f) .elem six 2 c bin c false,
    (.vcvt f, { (row f (.vcvt f) .elem (six && decide (g ≤ 5)) 4 (max c (cw g)) [f.va] (cw g)
        (!(ints && decide (g ≤ 2)) && !((f.fmt = 4 || f.fmt = 5) && decide (g = 3)))).2 with
      wide := f.fmt = 2 || f.fmt = 3 || g = 2 || g = 3 }),
    (.vscacc f, { (row f (.vscacc f) .elem (f.fmt = 2 && (g = 3 || g = 5 || g = 6)) 6 128 [f.va, f.vb, f.vc] 32 true).2 with
      wide := true }),
    row f (.vredr f) .cross red 20 c [f.va] c rdr, row f (.vredrScalar f) .scalar red 20 c [f.va] 0 rdr,
    row f (.vredc f) .colred red 24 c [f.va] c rdr, row f (.vrot f) .cross six 17 c [f.vd] 0 false,
    row f (.vbcast f) .cross six 17 c [f.va] c false, row f (.vxcol f) .cross six 17 c [f.va] c false,
    row f (.vrcp f) .elem (f.fmt = 3) 10 128 [f.va] c true, row f (.vrsq f) .elem (f.fmt = 3) 10 128 [f.va] c true,
    row f (.vexp2 f) .elem (f.fmt = 3) 10 128 [f.va] c true,
    row f (.vamax f) .scalar five 3 c [f.va] 0 false, row f (.vamaxClr f) .scalar five 3 c [f.va] 0 false,
    row f (.vmovs f) .movs six 1 c [] c false, row f (.vmovsAll f) .movs six 1 c [] c false,
    row f (.vmovv f) .scalar six 2 64 [f.va] 0 false, row f (.vpand f) .mbits six 1 1 [] 1 false,
    row f (.vpor f) .mbits six 1 1 [] 1 false, row f (.vpnot f) .mbits six 1 1 [] 1 false,
    row f (.vpany f) .scalar six 2 64 [] 0 false ]

/-- ROWS + 1 and COLS + 1 (R288). -/
def shapeOf (s : State) : Nat × Nat := (s.core.vshape.toNat % 128 + 1, s.core.vshape.toNat / 256 % 16 + 1)

/-- Row groups G (R290). -/
def groupsOf (wide : Bool) (rows : Nat) : Nat := if wide then (rows + 7) / 8 else (rows + 15) / 16

/-- The checks of R290: no 32-bit format above 64 rows, a ramp of at least G. -/
abbrev shapeFits (wide : Bool) (rows ramp : Nat) : Prop := (wide = true → rows ≤ 64) ∧ groupsOf wide rows ≤ rampK ramp

/-- What a VREG word reads as scalar and pushes as scalar (R291): SA is VMOVS's source, and the destination of the words
with a scalar result. -/
def vecSrcs (p : VPlan) : List Nat := if p.kind = .movs then [p.f.sa] else []

/-- What it will write, as due ticks and keys: column j's register or mask on t + j + b + k - 1, a scalar or AMAX result on
t + 15 + b + k - 1 (R291). -/
def vecKeys (s : State) (i : Instr) (p : VPlan) : List (Nat × Nat × Nat × Nat) :=
  let t := s.bed.btick
  let k := rampK p.f.ramp
  (List.range (shapeOf s).2).flatMap (fun j => (colKeys i p j).map (fun x => (t + j + p.base + k - 1, x))) ++
    pendKeys (if p.kind = .scalar then scalarLands i p.f (t + 15 + p.base + k - 1) else [])

/-- The port a scalar result pushes into, if it is one. -/
def vecPush (i : Instr) (p : VPlan) (t : Nat) : List Pend :=
  match i with
  | .vamax f | .vamaxClr f => if isPort f.sa then [{ due := 0, land := .push (f.sa - 56) 0, acc := 0 }] else []
  | _ => if p.kind = .scalar then scalarLands i p.f (t + 15 + p.base + rampK p.f.ramp - 1) else []

/-- The rounding mode in force (R58). -/
def modeOf (s : State) (f : VregW) : Nat := if f.rm = 7 then s.core.rmode.toNat % 8 else f.rm

/-- The word draws seed bits (R60). -/
abbrev drawsSeeds (s : State) (p : VPlan) : Prop := p.draws = true ∧ modeOf s p.f = 4

/-- A VREG word that passes its checks before that of the seed log: those of the issue, no collision, no register a drain has
reserved, the shape, the format, the element or column it names (R84, R290, R294, R312, R328, R431). -/
abbrev vecChecked (s : State) (i : Instr) (p : VPlan) : Prop :=
  let (rows, cols) := shapeOf s
  ({ Issue.plain s [.vec] p.f.ramp (vecSrcs p) (vecPush i p s.bed.btick) 0 with npc := 0 } : Issue).ready s ∧
  s.core.collides (vecKeys s i p) = false ∧
  (∀ x ∈ (List.range cols).flatMap (colKeys i p), x.1 = 3 → s.core.reserved.contains x.2.1 = false) ∧
  shapeFits p.wide rows p.f.ramp ∧ p.fmtOk = true ∧ indexStop i p.f rows cols = none

/-- The draws a word makes if every element of its shape is active (R307, R431). -/
def drawsOfShape (s : State) (p : VPlan) : Nat :=
  let (rows, cols) := shapeOf s
  if ¬ drawsSeeds s p then 0
  else match p.kind with
    | .cross => rows * (cols - 1) | .scalar => cols - 1 | .colred => cols * (rows - 1) | _ => rows * cols

/-- It passes that of the seed log too (R63). -/
abbrev vecReady (s : State) (i : Instr) (p : VPlan) : Prop :=
  vecChecked s i p ∧ seedStop s (drawsOfShape s p) = none

/-- The state after k draws of core n for the word with an order number, and the 16 bits that the draw after them gives (R60). -/
def drawn (s : State) (n order k : Nat) : State := (fun t => (drawSeed t n order).1)^[k] s
def chunk (s : State) (n order k : Nat) : Nat := (drawSeed (drawn s n order k) n order).2

/-- The draws that a column of m active elements makes as it acts: one an element, or one an addition of VREDC (R307, R431). -/
def drawsIn (p : VPlan) (m : Nat) : Nat :=
  match p.kind with | .elem => m | .colred => m - 1 | _ => 0

/-- The active rows of a word's column (R289). -/
def activeIn (c : Core) (i : Instr) (f : VregW) (rows j : Nat) : List Nat :=
  match i with
  | .vmovs _ | .vmovv _ => if j = f.imm / 128 % 16 then [f.imm % 128] else []
  | .vredrScalar _ => [f.imm / 8 % 128]
  | _ => (List.range rows).filter (fun r => c.mbit f.pm r j)

/-- t's core but for what a vector word may change: the issue's fields, the words in flight, the seed stream with its accesses,
a register that a drain fills. -/
def withVector (c d : Core) : Core :=
  { c.withIssue d with
    vq := d.vq, v := d.v, tq := d.tq, seedHeld := d.seedHeld, seedWord := d.seedWord, seedLeft := d.seedLeft, noise := d.noise
    seedctl := d.seedctl, seedlog := d.seedlog, accs := d.accs, nextAcc := d.nextAcc }

/-- A signed number of w bits held inside the range (satn of R66). -/
def clampTo (w : Nat) (x : Int) : Int := max (-(2 ^ (w - 1))) (min (2 ^ (w - 1) - 1) x)

/-- An integer result under wrap (RM 0) or saturate (RM 1), as a bit vector (R299). -/
def intOut (w rm : Nat) (x : Int) : BitVec w := BitVec.ofInt w (if rm = 1 then clampTo w x else x)

/-- The element-wise functions of R299-R302 on integers of w bits. -/
def intFns (f : VregW) (w rm : Nat) (a b c : BitVec w) (sel : Bool) : List (Instr × BitVec w) :=
  let bit (x : Bool) : BitVec w := if x then 1 else 0
  let n := f.imm % 32
  [ (.vadd f, intOut w rm (a.toInt + b.toInt)), (.vsub f, intOut w rm (a.toInt - b.toInt)),
    (.vmul f, intOut w rm (a.toInt * b.toInt)), (.vfma f, intOut w rm (a.toInt * b.toInt + c.toInt)),
    (.vmin f, if a.slt b then a else b), (.vmax f, if a.slt b then b else a),
    (.vabs f, intOut w rm (if a.toInt < 0 then -a.toInt else a.toInt)), (.vneg f, intOut w rm (-a.toInt)),
    (.vand f, a &&& b), (.vor f, a ||| b), (.vxor f, a ^^^ b),
    (.vshl f, a <<< n), (.vshr f, a >>> n), (.vsar f, a.sshiftRight n),
    (.vradd f, b + a), (.vrsub f, b - a),
    (.vcmpeq f, bit (a = b)), (.vcmplt f, bit (a.slt b)), (.vcmple f, bit (a.sle b)),
    (.vsel f, if sel then a else b) ]

/-- Fraction and exponent bits of FP32, BF16 and FP16 (R49). -/
def fracs (f : Nat) : Nat := [23, 7, 10].getD (f - 3) 0
def expos (f : Nat) : Nat := [8, 8, 5].getD (f - 3) 0

/-- 1.0 in units of a format's smallest subnormal (R49). -/
def one (f : Nat) : Nat := 2 ^ [149, 133, 24].getD (f - 3) 0

/-- The canonical NaN (R50) and the infinities. -/
def nanOf (f : Nat) : Nat := [0x7FC00000, 0x7FC0, 0x7E00].getD (f - 3) 0
def infOf (f : Nat) (neg : Bool) : Nat := (2 ^ expos f - 1) * 2 ^ fracs f + (if neg then 2 ^ (fracs f + expos f) else 0)

/-- The magnitude of a pattern without its sign, in units of the smallest subnormal (R49, R50). -/
def magOf (f v : Nat) : Nat :=
  let e := v / 2 ^ fracs f
  if e = 0 then v else (2 ^ fracs f + v % 2 ^ fracs f) * 2 ^ (e - 1)

/-- A value: none a NaN, else its sign, and its size in some unit, none of an infinity. -/
abbrev Val := Option (Bool × Option Nat)

/-- The value of a pattern, in units of its format's smallest subnormal (R49, R50); of an E8 scale, in units of 2^-127 (R53). -/
def valOf (f v : Nat) : Val :=
  if f = 6 then (if v = 255 then none else some (false, some (2 ^ v)))
  else
    let m := v % 2 ^ (fracs f + expos f)
    if infOf f false < m then none else some (v.testBit (fracs f + expos f), if m = infOf f false then none else some (magOf f m))

/-- What 1.0 is in those units. -/
def unit (f : Nat) : Nat := if f = 6 then 2 ^ 127 else one f

/-- A value in units k times as fine. -/
def finer (k : Nat) (x : Val) : Val := x.map fun y => (y.1, y.2.map (k * ·))

/-- A value's negation. -/
def opposite (x : Val) : Val := x.map fun y => (!y.1, y.2)

/-- A product (R50). -/
def times (x y : Val) : Val :=
  match x, y with
  | some (a, m), some (b, n) =>
    if (m = none ∧ n = some 0) ∨ (m = some 0 ∧ n = none) then none
    else some (a != b, m.bind fun p => n.map (p * ·))
  | _, _ => none

/-- A sum of values in one unit: opposite infinities make a NaN, and an exact zero is +0 but for two zeros of one sign and, of
other addends, under RDN (R50). -/
def plus (rm : Nat) (x y : Val) : Val :=
  match x, y with
  | some (a, some m), some (b, some n) =>
    let z : Int := (if a then -(m : Int) else m) + (if b then -(n : Int) else n)
    some (if z = 0 then (if m = 0 ∧ n = 0 ∧ a = b then a else decide (rm = 2)) else decide (z < 0), some z.natAbs)
  | some (a, none), some (b, none) => if a = b then some (a, none) else none
  | some (a, none), some _ => some (a, none)
  | some _, some (b, none) => some (b, none)
  | _, _ => none

/-- The order of values (R50, R301): -0 and +0 equal. -/
def keyOf (x : Bool × Option Nat) : Int := (if x.1 then -1 else 1) * ((x.2.getD (2 ^ 300) : Nat) : Int)

/-- Whether |x| between neighbours lo and hi goes to hi (R57, R60). x is given by what lies below it and above it: `le n d` says
n / d ≤ |x|, `ge n d` says |x| ≤ n / d; `odd` says that lo's last bit is 1. -/
def goesUp (rm rb : Nat) (neg odd : Bool) (le ge : Nat → Nat → Bool) (lo hi : Nat) : Bool :=
  let at_ (n : Nat) : Nat := lo * 2 ^ 16 + n * (hi - lo)
  match rm with
  | 0 => le (lo + hi) 2 && (!ge (lo + hi) 2 || odd)
  | 1 => false
  | 2 => neg && !ge lo 1
  | 3 => !neg && !ge lo 1
  | _ => le (at_ (rb + 1)) (2 ^ 16) || (rb % 2 = 0 && le (at_ rb) (2 ^ 16) && !ge (at_ rb) (2 ^ 16))

/-- r is the pattern that x of format f's units rounds to (R57, R60): the last pattern whose magnitude is not above |x|, or the
next one; beyond the finite ones R57's overflow. -/
def nearest (f rm rb : Nat) (neg : Bool) (le ge : Nat → Nat → Bool) (r : Nat) : Prop :=
  let sign := if neg then 2 ^ (fracs f + expos f) else 0
  let top := infOf f false
  (∀ p < top, le (magOf f p) 1 = true → le (magOf f (p + 1)) 1 = false →
    r = sign + (if goesUp rm rb neg (decide (p % 2 = 1)) le ge (magOf f p) (magOf f (p + 1)) then p + 1 else p)) ∧
  (le (magOf f top) 1 = true → r = sign + (if rm = 1 ∨ (rm = 2 ∧ neg = false) ∨ (rm = 3 ∧ neg = true) then top - 1 else top))

/-- n / d below and above m / den. -/
def below (m den n d : Nat) : Bool := n * den ≤ m * d
def above (m den n d : Nat) : Bool := m * d ≤ n * den

/-- r is the value x / den, in units of format f, rounded (R50, R57). -/
def roundsTo (f rm rb : Nat) (x : Val) (den r : Nat) : Prop :=
  match x with
  | none => r = nanOf f
  | some (neg, none) => r = infOf f neg
  | some (neg, some m) => nearest f rm rb neg (below m den) (above m den) r

/-- r is x / den as an integer of w bits: rounded, saturated, 0 of a NaN (R52). -/
def toInteger (w rm rb : Nat) (x : Val) (den r : Nat) : Prop :=
  match x with
  | none => r = 0
  | some (neg, none) => r = if neg then 2 ^ (w - 1) else 2 ^ (w - 1) - 1
  | some (neg, some m) =>
    let n := m / den
    let k := if goesUp rm rb neg (decide (n % 2 = 1)) (below m den) (above m den) n (n + 1) then n + 1 else n
    r = (BitVec.ofInt w (clampTo w (if neg then -(k : Int) else k))).toNat

/-- The class of an element (R301): the bit of IMM that selects it. -/
def classOf (f v : Nat) : Nat :=
  match valOf f v with
  | none => 0
  | some (neg, none) => if neg then 2 else 1
  | some (neg, some m) => (if m = 0 then 7 else if m < 2 ^ fracs f then 5 else 3) + (if neg then 1 else 0)

/-- A reduction of elements in order, the first of them its start (R65, R307): each step is the element-wise word's function, rb its
seed bits. -/
def reduced (f : VregW) (rm : Nat) (rb : Nat → Nat) (l : List Nat) : Nat :=
  let (op, fmt) := (f.imm % 4, f.fmt)
  let w := if fmt = 2 ∨ fmt = 3 then 32 else if fmt = 0 ∨ fmt = 6 then 8 else 16
  let step (a : Nat) (x : Nat × Nat) : Nat :=
    vecFn (if op = 0 then .vadd f else if op = 1 then .vmin f else if op = 2 then .vmax f else .vxor f) f rm (rb x.2) a x.1 0 false
  match l with
  | [] =>
    if op = 1 then (if flt fmt then infOf fmt false else if fmt = 6 then 255 else 2 ^ (w - 1) - 1)
    else if op = 2 then (if flt fmt then infOf fmt true else if fmt = 6 then 0 else 2 ^ (w - 1))
    else 0
  | x :: r => r.zipIdx.foldl step (if flt fmt = true ∧ valOf fmt x = none then nanOf fmt else x)

/-- The results one column adds when it reads, by kind of word (R299-R303, R307, R311); rb are the seed bits of its roundings in
turn, by row ascending. -/
def columnLands (c : Core) (fl : VFlight) (p : VPlan) (j : Nat) (rb : Nat → Nat) : List Land :=
  let f := p.f
  let rs := activeIn c fl.i f fl.rows j
  let bfmt := match fl.i with | .vscacc _ => f.imm | _ => f.fmt
  let cfmt := match fl.i with | .vscacc _ => 3 | _ => f.fmt
  let breg := match fl.i with | .vradd _ | .vrsub _ => f.vd | _ => f.vb
  let out := match fl.i with | .vcvt _ => f.imm | .vscacc _ => 3 | _ => f.fmt
  let val (k r : Nat) : Nat :=
    vecFn fl.i f fl.rm (rb k) (c.vel f.va f.fmt r j) (c.vel breg bfmt r j) (c.vel f.vc cfmt r j) (c.mbit f.vc r j)
  match p.kind with
  | .elem => [.vcol f.vd j (rs.zipIdx.map fun x => match fl.i with
      | .vradd _ | .vrsub _ => lowWrite f.fmt x.1 (val x.2 x.1)
      | _ => elWrite out x.1 (val x.2 x.1))]
  | .mask => [.mcol f.vd j (rs.map fun r => (r, decide (val 0 r = 1)))]
  | .mbits => [.mcol f.vd j (rs.map fun r => (r, match fl.i with
      | .vpand _ => c.mbit f.va r j && c.mbit f.vb r j
      | .vpor _ => c.mbit f.va r j || c.mbit f.vb r j
      | _ => !c.mbit f.va r j))]
  | .cont => match fl.i with
    | .vswap _ => if f.va = f.vd then [] else
        [.vcol f.vd j (rs.map fun r => contWrite f.fmt r (c.vcont f.va f.fmt r j)),
         .vcol f.va j (rs.map fun r => contWrite f.fmt r (c.vcont f.vd f.fmt r j))]
    | _ => [.vcol f.vd j (rs.map fun r => contWrite f.fmt r (c.vcont f.vd f.fmt r j ^^^ c.vcont f.va f.fmt r j))]
  | .movs => if rs = [] ∧ (oneEl fl.i f).isSome then [] else [.vcol f.vd j (rs.map fun r => elWrite f.fmt r fl.sa.toNat)]
  | .colred => [.vcol f.vd j (rs.map fun r => elWrite f.fmt r (reduced f fl.rm rb (rs.map fun r => c.vel f.va f.fmt r j)))]
  | _ => []

/-- The vector memory words: whether they load a register, read memory, write memory (R297). -/
def vmemWords (f : VmemW) : List (Instr × Bool × Bool × Bool) :=
  [(.vld f, true, true, false), (.vldx f, true, true, false), (.vst f, false, false, true), (.vstx f, false, true, true),
   (.vswpm f, true, true, true)]

/-- addr(r, j) of R295. -/
def elemAddr (s : State) (f : VmemW) (r j : Nat) : Nat :=
  let m := (if f.fmt = 2 ∨ f.fmt = 3 then 4 else if f.fmt = 0 ∨ f.fmt = 6 then 1 else 2)
  let stride : Word := if f.b = 0 then BitVec.ofNat 64 ((shapeOf s).2 * m) else srcVal s f.b
  (srcVal s f.a + BitVec.ofInt 64 (sgn 19 f.off) + BitVec.ofNat 64 r * stride + BitVec.ofNat 64 (j * m)).toNat

/-- The memory width in bytes (R295). -/
def elemBytes (fmt : Nat) : Nat := if fmt = 2 ∨ fmt = 3 then 4 else if fmt = 0 ∨ fmt = 6 then 1 else 2

/-- The active elements in row-ascending, then column-ascending order (R296). -/
def activeAll (s : State) (pm : Nat) : List (Nat × Nat) :=
  (List.range (shapeOf s).1).flatMap fun r =>
    (List.range (shapeOf s).2).filterMap fun j => if s.core.mbit pm r j then some (r, j) else none

/-- An element of a load that lies in an absent extent (R298). -/
def elemGone (s : State) (f : VmemW) (wr : Bool) (x : Nat × Nat) : Bool := !wr && loadAbsent s.core (elemAddr s f x.1 x.2)

/-- The base latency of a vector memory word: the largest over the elements that access memory (R292). -/
def vmemLat (s : State) (f : VmemW) (wr : Bool) : Nat :=
  ((activeAll s f.pm).filter (fun x => !elemGone s f wr x)).foldl (fun b x =>
    max b (accLat s s.core (placesOf s s.core (elemAddr s f x.1 x.2) (elemBytes f.fmt) wr) false)) 4

/-- What a vector memory word will write: column j of VD, and of PM where an element is absent. -/
def vmemKeys (s : State) (f : VmemW) (ld wr : Bool) : List (Nat × Nat × Nat × Nat) :=
  (List.range (shapeOf s).2).flatMap fun j =>
    let d := s.bed.btick + j + vmemLat s f wr + rampK f.ramp - 1
    (if ld then [(d, 3, f.vd, j)] else []) ++
      (if f.pm ≠ 0 ∧ ((activeAll s f.pm).filter (elemGone s f wr)).any (fun x => x.2 = j) then [(d, 4, f.pm, j)] else [])

/-- A vector memory word that passes its checks; every active element passes those of R207 at its address. -/
abbrev vmemReady (s : State) (f : VmemW) (ld rd wr : Bool) : Prop :=
  (Issue.plain s [.vec] f.ramp [f.a, f.b] [] 0).ready s ∧
  s.core.collides (vmemKeys s f ld wr) = false ∧
  (∀ x ∈ vmemKeys s f ld wr, x.2.1 = 3 → s.core.reserved.contains x.2.2.1 = false) ∧
  shapeFits (f.fmt = 2 || f.fmt = 3) (shapeOf s).1 f.ramp ∧ f.fmt ≠ 7 ∧
  (∀ x ∈ activeAll s f.pm,
    let va := elemAddr s f x.1 x.2
    addrStop s s.core va (elemBytes f.fmt) (elemBytes f.fmt) wr false = none ∧
    (elemGone s f wr x = false → rd = true →
      (readPlaces s (placesOf s s.core va (elemBytes f.fmt) wr)).toOption.isSome = true))

/-- t's core but for what a vector memory word may change. -/
def withVmem (c d : Core) : Core :=
  { c.withIssue d with vq := d.vq, v := d.v, tq := d.tq, accs := d.accs, nextAcc := d.nextAcc, pending := d.pending }

/-! ### System and trap words -/

/-- The control registers that a view may write (R153). -/
def crWrites : View → List Nat
  | .unit => [0x00A, 0x011, 0x018, 0x019, 0x01A, 0x01B]
  | .system => [0x00A, 0x011, 0x018, 0x019, 0x01A, 0x01B, 0x100, 0x110, 0x111, 0x112, 0x113, 0x114, 0x115, 0x116, 0x117, 0x119, 0x11A]

/-- The view may read a register, or write it (R154 steps 2 and 3). -/
abbrev crAllows (c : Core) (n : Nat) (wr : Bool) : Prop := (c.view = .unit → n < 0x100) ∧ (wr = true → n ∈ crWrites c.view)

/-- v lies in the range of register n (R154 step 4): HLIM (R166), VSHAPE (R288), RMODE (R58), SEEDCTL and SEEDLOG (R62), XPC
(R177), UHLIM (R166, R170). -/
abbrev crTakes (c : Core) (n : Nat) (v : Word) : Prop :=
  let x := v.toNat
  match n with
  | 0x00A => c.trug.top ≤ x ∧ x ≤ c.trug.base + c.trugCap
  | 0x018 => x < 2 ^ 12 ∧ v.getLsbD 7 = false
  | 0x019 => x ≤ 4
  | 0x01A => x % 8 ≤ 4 ∧ x / 8 % 2 ^ 29 = 0
  | 0x01B => x % 8 = 0 ∧ x < 2 ^ 57
  | 0x100 => x % 8 = 0
  | 0x11A => c.ut.top ≤ x ∧ x ≤ c.ut.base + 262144
  | _ => True

/-- The number under which a write lands: in the unit view HLIM is the unit's own, which a handler names UHLIM (R165, R166). -/
def landsAs (c : Core) (n : Nat) : Nat := if n = 0x00A ∧ c.view = .unit then 0x11A else n

/-- A control-register word: the control unit, its results one tick and k - 1 after issue (R235, R236). -/
def crWord (s : State) (ramp : Nat) (srcs : List Nat) (lands : List Land) (work : Nat) : Issue :=
  Issue.plain s [.ctl] ramp srcs (lands.map (dueAt s 1 ramp)) work

/-- CRWR, CRSET, CRCLR by name, with the value each leaves in the register (R236). -/
def crWriters (s : State) (f : SsysW) : List (Instr × Word) :=
  let a := srcVal s f.a
  let r := crRead s f.sel
  [(.crwr f, a), (.crset f, r ||| a), (.crclr f, r &&& ~~~a)]

/-- The four words that write UHTOP: their source, the value each would leave, and CRSWP's result (R170, R236). -/
def uhtopWriters (s : State) (f : SsysW) : List (CrWrite × Nat × Word × List Land) :=
  let a := srcVal s f.a
  let r := crRead s 0x119
  [(.wr, f.a, a, []), (.set, f.a, r ||| a, []), (.clr, f.a, r &&& ~~~a, []), (.swp, f.d, srcVal s f.d, [.sreg f.d 0 64 r])]

/-- The core after a control word that does no bit-operation has issued: PC + 8 on the next bt, the control unit occupied for k
ticks; `own` is what else the word does. -/
def ctlIssued (s : State) (ramp : Nat) : Core :=
  { s.core.occupy (s.bed.btick + rampK ramp) .ctl with
    pc := s.core.pc + 8, nextBt := s.bed.btick + 1, order := s.core.order + 1 }

/-- The same word of the system view alone. -/
def sysQuick (s : State) (ramp : Nat) : Issue := { quick s .ctl ramp [] 0 with sys := true }

/-- A fault record of a sequencer word without sources (R175). -/
def bareRec (s : State) (word : Word) (code kind : Nat) (addr detail : Word) : FaultRec :=
  { FaultRec.none with code := code, kind := kind, ipc := s.core.pc, word := word, addr := addr, detail := detail }

/-- The record of an unassigned word: what its fields name as sources, as they read now (R175). -/
def illegalRec (s : State) (w : Word) : FaultRec :=
  let op (k : Nat) : Word := ((wordSrcs w.toNat)[k]?.map (srcVal s)).getD 0
  { bareRec s w 0x01 0 0 0 with opa := op 0, opb := op 1, opc := op 2 }

/-- A trap that waits for tick T. -/
def trapAt (f : FaultRec) (xpc : Word) (t : Nat) (stop : Bool) : TrapReq :=
  { fr := f, xpc := xpc, at_ := t, stop := stop, terminal := f.code = 0x17 || f.code = 0x18 || f.code = 0x19 }

/-- The partition emptied: its bits gone, its top at its base. -/
def emptied (t : Trug) : Trug := { t with bits := 0, top := t.base }

/-- STATUS of a unit whose handler ends it after a trap with this code (R433). -/
def killedAs (code : Nat) : Nat := if code = 0x18 then 5 else if code = 0x19 then 6 else 2

/-- d is c after a kill (R179, R180, R433): what its trug held is charged to EBITS as datapath erasure, what the system partition
held to XEBITS, both are empty; nothing more issues, and the registers are still to be counted. `handled` then names the token that
no SRET sets any more (log 102). -/
def killed (c d : Core) (code code2 detail : Nat) : Prop :=
  d.run = .ended ∧ d.dying = true ∧ d.endStatus = killedAs code ∧ d.endCode = code ∧ d.endCode2 = code2 ∧ d.endDetail = detail ∧
  d.ebits = c.ebits + (c.ut.top - c.ut.base) ∧ d.xebits = c.xebits + (c.st.top - c.st.base) ∧
  d.ej = c.ej + 2600 * (c.ut.top - c.ut.base) ∧ d.ut = emptied c.ut ∧ d.st = emptied c.st ∧ d.trap = none ∧ d.wait = none ∧
  d.handled = (match c.trap with | some r => if r.fr.queue = 0 then c.handled else r.fr.tok | none => c.handled) ∧
  d = { c with
    run := d.run, dying := d.dying, endStatus := d.endStatus, endCode := d.endCode, endCode2 := d.endCode2, endDetail := d.endDetail
    handled := d.handled
    ebits := d.ebits, xebits := d.xebits, ej := d.ej, ut := d.ut, st := d.st, trap := none, wait := none, deferred := none, qp := d.qp }

/-- t is s after every access of a job that has parked retries (R239, R253): the park log's lines that stand for an entry
parked now, each in the order it was written; those entries run again, and take their turns in that order. -/
def retried (s : State) (job : Nat) (t : State) : Prop :=
  let lines := s.lsc.parks.filter fun p =>
    let c := getCore s p.core
    decide (c.job = job ∧ c.run ≠ .idle) && (c.queue p.queue).es.any (fun e => decide (e.ph = .parked ∧ e.seq = p.seq))
  let go (n : Nat) (q : EngQ) : EQueue :=
    let x := (getCore s n).queue q
    if lines.any (fun p => decide (p.core = n ∧ p.queue = q)) then
      { x with es := x.es.map (fun e => { e with ph := if e.ph = .parked then .running else e.ph }) }
    else x
  t = { s with core := t.core, others := t.others, agenda := s.agenda ++ lines.map (fun p => .engineEntryStart p.core p.queue) } ∧
  ∀ n, getCore t n = { getCore s n with tq := go n .trellis, cq := go n .copy, gq := go n .graft, bq := go n .bank }

/-- The words of registers alone that may charge, by name. -/
def chargingWords (s : State) (f : SregW) (g : SimmW) (h : SwideW) : List (Instr × Issue) :=
  let q : BitVec 128 := pair s f.a
  let r : BitVec 128 := BitVec.ofNat 128 (permute (s.core.pattern f.b) q.toNat)
  erasingRegs s f ++ erasingImms s g h ++ reversible s f ++ reversibleImm s g ++
    [(.xorw h, xorw s h), (.min f, minmax s false f), (.max f, minmax s true f), (.swap f, exchange s f [f.d, f.a] true),
     (.cswap f, exchange s f [f.d, f.a, f.c] ((srcVal s f.c).getLsbD 0)), (.bpermE f, permuted s f f.a r 128)]

/-- A unit-view word of a running unit whose charge is a crossing, with none pending (R162). -/
abbrev chargesOver (w : Issue) (s : State) : Prop :=
  w.crosses s ∧ s.core.qp = false ∧ s.core.run = .running ∧ s.core.view = .unit

/-- The instruction completes, and trap 0x08 is to be taken after it (R162, R175, R242). -/
def trapsAfter (w : Issue) (i : Instr) (s : State) : Prop :=
  let op (k : Nat) : Word := (w.srcs[k]?.map (srcVal s)).getD 0
  let n := w.regs + w.own + w.cells + owedCells w.results
  ∃ t, exec i s = .next t ∧ w.went s t ∧ t.core.qp = false ∧
    t.core.trap = some (trapAt
      { bareRec s (wordOf i) 0x08 1 0 (BitVec.ofNat 64 n) with opa := op 0, opb := op 1, opc := op 2, order := s.core.order }
      w.npc (s.bed.btick + 1) false)

/-! ### What reaches a core, and its engines -/

/-- A core's bed. -/
abbrev bedOf (s : State) (n : Nat) : Bed := getBed s (n / 8)

/-- Of two accesses of a core the first issued before the second: the seed log's, which name no word, go with the word that draws
(R114, R122). -/
abbrev earlier (x a : Access) : Prop := if x.word = 0 ∨ a.word = 0 then x.order < a.order else x.id < a.id

/-- What holds an access in the buffer: a fence before it that covers its class (R217), or an earlier access of another class to some
of its bytes (R120, R140). -/
abbrev heldBack (c : Core) (a : Access) : Prop :=
  ∃ x ∈ c.accs, earlier x a ∧
    ((x.kind = .fence ∧ x.mask &&& a.mask ≠ 0) ∨
      (x.kind ≠ .fence ∧ x.kind ≠ .tmark ∧ x.mask ≠ a.mask ∧ runsMeet x.runs a.runs = true))

/-- An access that stands in the buffer and takes room there (R211). -/
abbrev buffered (a : Access) : Prop := a.left = false ∧ a.kind ≠ .fence ∧ a.kind ≠ .tmark

/-- The core without an access. -/
def without (c : Core) (id : Nat) : Core := { c with accs := c.accs.filter (fun a => a.id ≠ id) }

/-- Nothing that a fence, mark or arrival covers was issued before it (R141, R218, R224): no access, but that a TMARK covers stores
alone (R127), that an arrival finds performed what stands in its own package, and that neither a fence nor a TMARK covers an access
of a column that acts on its own tick or a later one (R122); and no column that is still to draw from a log in its classes (R64; of
a TMARK one that writes the log), while bt goes on (`still`: it does not, R29). -/
abbrev alone (c : Core) (still : Bool) (a : Access) : Prop :=
  (∀ x ∈ c.accs, earlier x a → x.kind ≠ .fence → x.kind ≠ .tmark → x.mask &&& a.mask ≠ 0 →
    if a.kind = .arrive then x.remote = false
    else (a.kind = .tmark ∧ x.kind ≠ .store ∧ x.kind ≠ .rmw) ∨ (x.word ≠ 0 ∧ a.tick ≤ x.tick)) ∧
  (still = true ∨ c.seedMode = 0 ∨ a.mask.testBit 0 = false ∨ (a.kind = .tmark ∧ c.seedMode ≠ 1) ∨ ∀ x ∈ c.vq, x.draws = true → a.order ≤ x.order)

/-- The state after one event at the sync word at pa (R36, R37): m its memory. `fields` is TARGET, COUNT, GEN, SCOPE, OVS. -/
def synced (s : State) (ev : SyncEv) (pa n : Nat) (m : List Host.Cell) : Prop :=
  let (t, c, g, sc, ov) := readSync s.mem pa
  let t1 := if ev = .expect then t + n else t
  let c1 := if ev = .expect then c else c + n
  (n = 0 → m = s.mem) ∧
  (n ≠ 0 → (2 ^ 32 ≤ t1 ∨ 2 ^ 32 ≤ c1 ∨ (t1 ≠ 0 ∧ t1 < c1)) → readSync m pa = (t, c, g, sc, true)) ∧
  (n ≠ 0 → t1 < 2 ^ 32 → c1 < 2 ^ 32 → (t1 = 0 ∨ c1 ≤ t1) →
    readSync m pa = if t1 ≠ 0 ∧ c1 = t1 then (0, 0, (g + 1) % 2 ^ 32, sc, ov) else (t1, c1, g, sc, ov)) ∧
  ∀ a, a < pa ∨ pa + 16 ≤ a → rd8 m a = rd8 s.mem a

/-- An event at that sync word overshoots (R36). -/
abbrev overshoots (s : State) (ev : SyncEv) (pa n : Nat) : Prop :=
  let x := readSync s.mem pa
  let t1 := if ev = .expect then x.1 + n else x.1
  let c1 := if ev = .expect then x.2.1 else x.2.1 + n
  n ≠ 0 ∧ (2 ^ 32 ≤ t1 ∨ 2 ^ 32 ≤ c1 ∨ (t1 ≠ 0 ∧ t1 < c1))

/-- The record of a sequencer access whose fault waits for delivery (R142, R175, R220). -/
def accessRec (a : Access) (code mask : Nat) : FaultRec :=
  { FaultRec.none with
    code := code, kind := 2, ipc := a.pc, word := a.word, opa := a.opa, opb := a.opb, opc := a.opc, addr := a.addr
    order := a.order, mask := mask }

/-- An entry that has run to its end, or to a fault, with the words it still has to push (R125, R176). -/
def endedAs (e : Entry) (code addr detail : Nat) (out : List Word) : Entry :=
  { e with
    ph := .pushing, code := code, faddr := BitVec.ofNat 64 addr, fdetail := BitVec.ofNat 64 detail, out := out }

/-- The head of a queue waits, and its consumed tokens are set. -/
abbrev canStart (c : Core) (q : EngQ) (e : Entry) : Prop :=
  (c.queue q).es.head? = some e ∧ e.ph = .waiting ∧ ∀ k ∈ e.tokens.kcs, c.tokSet k = true

/-- The port, queue number and kinds of the status words (R32, R156). -/
def engineNo : EngQ → Nat | .trellis => 1 | .copy => 2 | .graft => 3 | .bank => 4

/-- The record of a failed entry (R175). -/
def entryFault (q : EngQ) (e : Entry) : FaultRec :=
  { code := e.code, kind := 2, queue := engineNo q, seq := e.seq, ipc := e.pc, word := e.word, opa := e.a, opb := e.b, opc := e.c
    addr := e.faddr, detail := e.fdetail, tok := e.tokens.kp, order := e.order, mask := 0 }

/-- The work of an entry in EJ units: nothing for one issued in the system view (R164). -/
def entryWork (s : State) (n : Nat) (e : Entry) (w : Nat) : Nat := if e.sys then 0 else workUnits w e.k (heat s n)

/-- The duration D of a trellis entry in ticks (R320). -/
def ticks (c : Core) (e : Entry) : Nat :=
  let k := e.k
  let rows (f : EregW) : Nat := (f.md / 2 % 8 + 1) * (e.b.toNat % 128 + 1)
  let pairs (g : EstampW) : Nat := (g.opf / 32 % 8 + 1) * (g.opf / 4 % 8 + 1)
  let product (g : EstampW) : Nat := 256 + (if c.act.sp then pairs g else 2 * pairs g) * k
  match e.i with
  | .tfetchRow f => 16 + (rows f + 7) / 8 * k
  | .tfetchCol f => 32 + (rows f + 7) / 8 * k
  | .tloadw f => 8 + (if f.md.testBit 0 then 8 * (f.md / 2 % 8 + 1) + 16 else 16 * (f.md / 2 % 8 + 1)) * k
  | .tmac g => product g
  | .tmacb g => product g + 4
  | .tdrain _ => 8 + 128 * k
  | .tdrainVec _ => 8 + 8 * k
  | .tdrainb _ => 8 + 32 * k
  | .anorm _ | .aclr _ => 2 + 16 * k
  | _ => k

/-- What a trellis entry checks as it starts, but for the bytes it reads or writes (R316, R323, R337): whether a check fails, its
code, XREC6 and XREC7. -/
def startChecks (c : Core) (e : Entry) : List (Bool × Nat × Nat × Nat) :=
  let (rows, cols) := (e.b.toNat % 128 + 1, e.b.toNat / 2 ^ 8 % 128 + 1)
  let fetch (f : EregW) (bad : Bool) : List (Bool × Nat × Nat × Nat) :=
    let h := f.md / 16 % 32
    [(decide (c.handle h ≠ .filling), 0x11, 0, h), (decide (f.md / 2 % 8 + 1 < 2), 0x12, 0, 1), (bad, 0x12, 0, 3)]
  let product (g : EstampW) (own : Bool) : List (Bool × Nat × Nat × Nat) :=
    let (a, b, h) := (g.opf / 32 % 8 + 1, g.opf / 4 % 8 + 1, g.opf / 2 ^ 10 % 32)
    [(own && decide (c.handle h = .free), 0x11, 0, h), (decide (a < 2) || decide (b < 2), 0x12, 0, 1), (decide (c.act.np < b), 0x12, 0, 2)]
  match e.i with
  | .tfetchRow f => fetch f (decide (cols % 8 ≠ 0))
  | .tfetchCol f => fetch f (decide (cols ≠ 128) || decide (rows % 8 ≠ 0))
  | .tloadw f =>
    let h := f.md / 16 % 32
    [(decide (c.handle h = .free), 0x11, 0, h), (decide (f.md / 2 % 8 + 1 < 2), 0x12, 0, 1), (f.md.testBit 0 && c.metaBad h, 0x12, 0, 4)]
  | .tmac g => product g true
  | .tmacb g => product g (decide (c.num % 2 = 0))
  | _ => []

/-- The runs of bytes that an entry reads, or, of a drain, writes in its scratchpad, in order (R316, R327, R329). -/
def startRows (e : Entry) : Bool × List (Nat × Nat) :=
  let (a, b) := (e.a.toNat, e.b.toNat)
  let fetch (f : EregW) : Bool × List (Nat × Nat) :=
    let (rows, cols, rp, pp) := (b % 128 + 1, b / 2 ^ 8 % 128 + 1, b / 2 ^ 16 % 2 ^ 16, b / 2 ^ 32 % 2 ^ 16)
    (false, (List.range ((f.md / 2 % 8 + 1) * rows)).map fun x => ((a + 16 * (x / rows * pp + x % rows * rp)) % 2 ^ 64, cols / 8))
  match e.i with
  | .tfetchRow f | .tfetchCol f => fetch f
  | .tdrain _ => (true, (List.range 128).map fun r => ((a + r * b) % 2 ^ 64, 512))
  | .tdrainb _ => (true, (List.range 1024).map fun l => ((a + 16 * l) % 2 ^ 64, 16))
  | _ => (false, [])

/-- Bytes that an entry may read, or write, as its core's own scratchpad (R337). -/
abbrev ownBytes (s : State) (c : Core) (wr : Bool) (a n : Nat) : Prop :=
  (ownSpad s c a n).isSome = true ∧ (wr = true → ∀ l, coreSpans c a n = some l → ∀ y ∈ l, y.1.wr = true)

/-- A queue without its oldest entry: the next may start on the bt after (R319). -/
def shorter (s : State) (n : Nat) (x : EQueue) : EQueue := { x with es := x.es.tail, next := (getBed s (n / 8)).btick + 1 }

/-- The park log without the line of an entry (R252). -/
def unlogged (s : State) (n : Nat) (q : EngQ) (e : Entry) : Lsc :=
  { s.lsc with parks := s.lsc.parks.filter (fun p => !(decide (p.core = n) && decide (p.queue = q) && decide (p.seq = e.seq))) }

/-- d is c after the oldest entry of a queue has completed (R125, R160, R163): it is gone, its token is set, and its cell bits and
work are charged. -/
def completed (s : State) (n : Nat) (q : EngQ) (e : Entry) (cells work : Nat) (c d : Core) : Prop :=
  d.queue q = shorter s n (c.queue q) ∧ (∀ p, p ≠ q → d.queue p = c.queue p) ∧
  (∀ k, d.tokSet k = (c.tokSet k || k = e.tokens.kp)) ∧
  d.ebits = c.ebits + cells ∧ d.ej = c.ej + 3000 * cells + entryWork s n e work ∧
  d = { c with tq := d.tq, cq := d.cq, gq := d.gq, bq := d.bq, clearTok := d.clearTok, ebits := d.ebits, ej := d.ej, qp := d.qp }

/-- d is c after the oldest entry of a queue has left it failed (R176, R277): as completed, but its token stays clear and FLT is
set; `told` are the faults it adds to those that wait for delivery (none where its fault was recorded as it ended). A handle it was to
fill stays filling, and is noted as one that it will not fill (log 102). -/
def failed (s : State) (n : Nat) (q : EngQ) (e : Entry) (told : List FaultRec) (cells work : Nat) (c d : Core) : Prop :=
  d.queue q = { shorter s n (c.queue q) with flt := true } ∧ (∀ p, p ≠ q → d.queue p = c.queue p) ∧
  d.clearTok = c.clearTok ∧ d.ebits = c.ebits + cells ∧ d.ej = c.ej + 3000 * cells + entryWork s n e work ∧
  d.pending.Perm (told ++ c.pending) ∧ d.fouled = (if told.isEmpty then c.fouled else (c.foul (e.fills q)).fouled) ∧
  d = { c with tq := d.tq, cq := d.cq, gq := d.gq, bq := d.bq, pending := d.pending, fouled := d.fouled, ebits := d.ebits, ej := d.ej, qp := d.qp }

/-- The value of a p-plane two's complement number whose bit planes are b, plane 0 the sign (R45). -/
def planes (p : Nat) (b : Nat → Nat) : Int := ((List.range p).map (fun i => planeWeight i p * (b i : Int))).sum

/-! ### The launch scheduler and the platform -/

/-- The LSC has done what was due after an event of its own that left t (R400, R401). -/
abbrev lscTo (i : Instr) (s t : State) : Prop := exec i s = .next (afterLsc t)

/-- Bits lo .. lo+len-1 of a record. -/
def bits (r lo len : Nat) : Nat := r / 2 ^ lo % 2 ^ len

/-- What the registers that hold a plain value read as (R17, R22, R153, R165, R169, R175, R184, R309). -/
def plainReads (s : State) : Prop :=
  let c := s.core
  let r := crRead s
  let n (x : Nat) : Word := BitVec.ofNat 64 x
  let t := match c.view with | .unit => c.ut | .system => c.st
  r 0x000 = n s.bed.btick ∧ r 0x001 = n s.bed.bwall ∧ r 0x002 = n s.bed.ramphint ∧
  r 0x008 = n t.base ∧ r 0x009 = n t.top ∧ r 0x00A = n t.lim ∧
  r 0x00C = n t.hm0 ∧ r 0x00D = n t.hm1 ∧ r 0x00E = n t.hm2 ∧ r 0x00F = n t.hm3 ∧
  r 0x010 = n c.ebits ∧ r 0x011 = c.equota ∧ r 0x012 = n c.ej ∧ r 0x018 = c.vshape ∧ r 0x019 = c.rmode ∧
  r 0x01A = c.seedctl ∧ r 0x01B = c.seedlog ∧ r 0x022 = c.amax.setWidth 64 ∧ r 0x023 = n (min s.bed.cecnt (2 ^ 32 - 1)) ∧
  r 0x100 = c.xpc ∧ r 0x101 = c.xcause ∧ r 0x102 = c.xvec ∧ r 0x103 = n c.xebits ∧
  r 0x118 = n c.ut.base ∧ r 0x119 = n c.ut.top ∧ r 0x11A = n c.ut.lim ∧
  ∀ k < 8, r (0x108 + k) = tget 0 c.xrec k ∧ r (0x110 + k) = tget 0 c.xs k

/-- QSTAT: the words in each port and the entries of each queue (R155); TKSET: the tokens, bit 63 reading 1 (R31). -/
def queueBits (s : State) : Prop :=
  let c := s.core
  let q := (crRead s 0x020).toNat
  ((∀ p < 8, (c.port p).length < 32) → c.tq.es.length < 64 → c.cq.es.length < 64 → c.gq.es.length < 32 → c.bq.es.length < 64 →
    (∀ p < 8, bits q (5 * p) 5 = (c.port p).length) ∧ bits q 40 6 = c.tq.es.length ∧ bits q 46 6 = c.cq.es.length ∧
    bits q 52 5 = c.gq.es.length ∧ bits q 57 6 = c.bq.es.length ∧ bits q 63 1 = 0) ∧
  ∀ k < 64, (crRead s 0x021).getLsbD k = (c.tokSet k || k = 63)

/-- XSTAT: an attributed fault that waits, from which queue; a crossing, a notice, a pre-emption that wait (R157). DBGSTAT: the
halt that has taken hold, PARK, the accesses that other beds have under way to scratchpads of this one, the queues in which no
entry runs, and STABLE (R182). -/
def statusBits (s : State) : Prop :=
  let c := s.core
  let x := crRead s 0x104
  let d := crRead s 0x028
  let b := c.bedNum
  let bed := getBed s b
  let here (a : Access) : Bool := a.runs.any (fun r => paSpace r.1 = 2 && paPkg r.1 = s.plat.pkg && paCore r.1 / 8 = b)
  let inb := (((s.core :: s.others).filter (fun c => c.num / 8 ≠ b)).map (fun c => (c.accs.filter here).length)).sum
  let still (q : EngQ) : Bool := (List.range 8).all fun k => ((getCore s (8 * b + k)).queue q).es.all fun e => e.ph ≠ .running
  let halt := bed.halt && bed.closed
  (∀ k < 4, x.getLsbD k = c.pending.any (fun f => f.queue = k + 1)) ∧
  x.getLsbD 4 = (c.qp || c.deferred.any (fun r => r.fr.code = 0x08)) ∧ x.getLsbD 5 = c.thr ∧ x.getLsbD 6 = c.pre ∧
  (∀ k ≥ 7, x.getLsbD k = false) ∧
  d.getLsbD 0 = halt ∧ d.getLsbD 1 = bed.park ∧ bits d.toNat 2 16 = min inb 65535 ∧
  d.getLsbD 18 = still .trellis ∧ d.getLsbD 19 = still .copy ∧ d.getLsbD 20 = still .graft ∧ d.getLsbD 21 = still .bank ∧
  d.getLsbD 22 = (halt && decide (inb = 0) && still .trellis && still .copy && still .graft && still .bank) ∧
  ∀ k ≥ 23, d.getLsbD k = false

/-- Record n, with bits r, is the one the LSC takes next (R389, R396): NOTIFY is above TAKEN = n, and no completion record is kept
back. -/
abbrev atHead (s : State) (n r : Nat) : Prop :=
  let sub := s.plat.subbase
  s.plat.power = .ready ∧ s.lsc.backlog = [] ∧ rd64 s.mem (sub + 8) = n ∧ n < rd64 s.mem sub ∧
    r = leNat (rdN s.mem (sub + 0x1000 + 256 * (n % 4096)) 256)

/-- The state once TAKEN is n + 1. -/
def taken (s : State) (n : Nat) : State := { s with mem := wr64 s.mem (s.plat.subbase + 8) (n + 1) }

/-- The record breaks no rule of R394. -/
abbrev accepted (s : State) (r : Nat) : Prop := (firstRow r).or (laterRows s r) = none

/-- The event that takes a record of a TYPE (R390); a reserved one is rejected. -/
def recordEvents (ty : Nat) : List Instr :=
  match ty with
  | 1 => [.launchRecord] | 2 => [.cancelRecord] | 3 => [.replayRecord] | 4 => [.resumeBed] | 5 => [.close] | 6 => [.openJob]
  | 7 => [.endJob] | 8 => [.haltBed] | _ => [.launchRecord]

/-- No two launches of the LSC are the same job's same LID. -/
abbrev distinct (s : State) : Prop := (s.lsc.launches.map (fun x => (x.job, x.lid))).Nodup

/-- A unit has ended, its last entry complete (R399). -/
abbrev hasEnded (s : State) (u : UnitRec) : Prop :=
  u.state = .ended ∨ (u.state = .running ∧ (getCore s u.core).run = .ended ∧ (getCore s u.core).quiet = true)

/-- A unit of a launch has ended (R399, R402), whether its completion record is made or not: its core has come to its DONE with no
entry left, or it was killed. -/
abbrev overNow (s : State) (x : Launch) (u : UnitRec) : Prop :=
  let c := getCore s u.core
  u.state = .ended ∨ ((u.state = .running ∨ u.state = .stopped) ∧ c.run = .ended ∧ c.job = x.job ∧ c.lid = x.lid ∧ c.unit = u.idx ∧
    (2 ≤ c.endStatus ∨ (c.tq.es = [] ∧ c.cq.es = [] ∧ c.gq.es = [] ∧ c.bq.es = [])))

/-- Every unit of a launch has ended (R399, R400). -/
abbrev launchEnded (s : State) (x : Launch) : Prop := x.isOver = true ∨ (x.units ≠ [] ∧ ∀ u ∈ x.units, overNow s x u)

/-- No unit of another launch runs on a core that a unit of x runs on. -/
abbrev apart (s : State) (x : Launch) : Prop :=
  let runs (u : UnitRec) : Prop := u.state = .running ∨ u.state = .stopped
  ∀ y ∈ s.lsc.launches, ∀ u ∈ x.units, ∀ v ∈ y.units, runs u → runs v → u.core = v.core → y.job = x.job ∧ y.lid = x.lid

/-- The counter page of a job can be written: its stack's rail has not failed, and DRAM lies there (R424, R425, R427). -/
abbrev counts (s : State) (j : Job) : Prop :=
  railDown s (4 + paDie j.jstat) = false ∧ ∀ off, off + 8 ≤ 4096 → mcHolds s (j.jstat + off) 8 = false

/-- A launch whose barrier has advanced (R408). -/
def advanced (x : Launch) : Launch :=
  { x with barrier := x.barrier + 1, units := x.units.map (fun u => { u with arrived := false }) }

/-- Words of eight bytes are zeroed; memory m becomes n. -/
def cleared (words : List Nat) (m n : List Host.Cell) : Prop :=
  ∀ a, rd8 n a = if ∃ p ∈ words, p ≤ a ∧ a < p + 8 then 0 else rd8 m a

/-- The counter of a graph that nothing has named yet (R397). -/
def newGraph (s : State) (j : Job) (g : Nat) : List Nat :=
  if s.lsc.groups.any (fun x => decide (x.level = 2 ∧ x.job = j.num ∧ x.num = g)) then [] else [j.jstat + 64 + 8 * (g % 248)]

/-- A queue whose held entries go on (R181). -/
def wentOn (q : EQueue) : EQueue :=
  { q with es := q.es.map (fun e => { e with ph := if e.ph = .held then .running else e.ph }) }

/-- The stretch of compressed frames in which a physical byte lies (R258). -/
def frameAt (s : State) (pa : Nat) : Option (Bool × Nat × Nat) :=
  (jobFrames s).find? (fun x => x.1 && x.2.1 ≤ pa && pa < x.2.1 + x.2.2)

/-- The physical bytes from addr are a job's, plain ones of this package (R144, R426). -/
abbrev plainJob (s : State) (addr len : Nat) : Prop :=
  ∀ i < len, frameAt s (addr + i) = none ∧ jobHolds s (addr + i) = true ∧ paSpace (addr + i) ≠ 3 ∧ paOk (addr + i) = true ∧
    paPkg (addr + i) = s.plat.pkg ∧ mcHolds s (addr + i) 1 = false

/-- No core holds a unit. -/
abbrev noUnits (t : State) : Prop := ∀ c ∈ t.core :: t.others, c.run = .idle

/-- The members' digests of an instance, and its replicas' digests (R371). -/
def replicas (s : State) (job cgid k : Nat) : List (Word × Word) :=
  let l := s.digests.filter (fun d => d.job = job ∧ d.cgid = cgid ∧ d.inst = k)
  let n := (l.head?.map (·.n)).getD 1
  let nr := (l.head?.map (·.nr)).getD 1
  (List.range nr).map fun a =>
    (l.filter (fun d => d.rank / (n / nr) = a)).foldl (fun x d => (x.1 + d.lane0, x.2 + d.lane1)) (0, 0)

/-- The state a unit starts in (R42, R62, R153, R342, R391), but for its extents and its noise source. -/
def atStart (c : Core) (x : Launch) (u : UnitRec) (t : Template) : Prop :=
  c.run = .running ∧ c.view = .unit ∧ c.pc = BitVec.ofNat 64 t.entry ∧
  c.reg 1 = BitVec.ofNat 64 x.args ∧ c.reg 2 = BitVec.ofNat 64 u.idx ∧ c.reg 3 = BitVec.ofNat 64 x.units.length ∧
  (∀ n, 4 ≤ n → n ≤ 55 → c.reg n = 0) ∧ (∀ q, c.port q = []) ∧ c.v = [] ∧ c.p = [] ∧ c.tiles = [] ∧ c.amax = 0 ∧
  c.vshape = 0xF3F ∧ c.rmode = 0 ∧ (∀ k, c.tokSet k = true) ∧ (∀ h, c.handle h = .free) ∧
  c.ut = { bits := 0, base := 0, top := 0, lim := 262144, hm0 := 0, hm1 := 0, hm2 := 0, hm3 := 0 } ∧
  c.st = { bits := 0, base := 0, top := 0, lim := 32768, hm0 := 0, hm1 := 0, hm2 := 0, hm3 := 0 } ∧
  c.ebits = 0 ∧ c.ej = 0 ∧ c.xebits = 0 ∧ c.equota = 0 ∧ (∀ n, tget 0 c.xrec n = 0) ∧ (∀ n, tget 0 c.xs n = 0) ∧
  c.xpc = 0 ∧ c.xcause = 0 ∧ c.qp = false ∧ c.thr = false ∧ c.pre = false ∧
  c.seedctl = BitVec.ofNat 64 (x.seedmode + 2 ^ 32 * x.seedcnt) ∧ c.seedlog = BitVec.ofNat 64 (x.seedlog % 2 ^ 57) ∧
  c.graft.gres = x.gres ∧ c.graft.empty = true ∧ c.budget = x.budget ∧ c.dbg = x.dbg ∧ c.span = true ∧ c.supers = 0 ∧
  c.job = x.job ∧ c.lid = x.lid ∧ c.unit = u.idx ∧
  (∀ q, c.queue q = { es := [], seq := 0, flt := false, next := 0 }) ∧ c.pend = [] ∧ c.vq = [] ∧ c.accs = [] ∧ c.pending = [] ∧
  c.fouled = []

/-- Replies of the device for a core's unit of nothing. -/
def said (s : State) (o : Output) : State := { s with log := s.log ++ [o] }

/-- 256-bit completion record (R395). -/
def recordBits (r : CRec) : Nat :=
  r.level + 2 ^ 4 * r.status + 2 ^ 8 * (r.code % 256) + 2 ^ 16 * (r.code2 % 256) + 2 ^ 32 * (r.job % 2 ^ 16) +
    2 ^ 48 * (r.unit % 256) + 2 ^ 64 * (r.id % 2 ^ 32) + 2 ^ 96 * (r.detail % 2 ^ 32) + 2 ^ 128 * (r.ebits % 2 ^ 64) +
    2 ^ 192 * (r.ej % 2 ^ 64)

/-- A bed right after reset, with RAMPHINT of its die (R17, R22, R184). -/
def freshBed (s : State) (n : Nat) : Bed := { Bed.reset n with ramphint := rampHint ((getDie s (n / 8)).t16 - 1360) }

/-- The focused core's next word is due: nothing waits in the agenda, the package runs, the bed issues on its tick, the
core runs and neither waits nor has a trap or vector columns before the word, it has no arrival of this tick to follow, and
nothing of R174 comes before it. -/
def wordDue (s : State) : Prop :=
  let c := s.core
  s.agenda = [] ∧ s.plat.power = .ready ∧ s.bed.closed = false ∧ turnHeld s = false ∧ c.run = .running ∧ earlyPending s = false ∧
    vmemPending s = false ∧ c.trap = none ∧
    c.wait = none ∧ c.nextBt ≤ s.bed.btick ∧
    (c.view = .system ∨ (c.qp = false ∧ c.deferred = none ∧ c.event = none ∧ c.thr = false))

/-! ### What entries move -/

/-- n bytes from va are plain memory, the first at pa: one extent that allows the access, its frames present, not compressed and
no aperture's (R249), and nothing that the management controller answers for (R425, R427). -/
def plainRun (s : State) (c : Core) (va n : Nat) (wr : Bool) (pa : Nat) : Prop :=
  ∃ x, findExt c.extents va = some x ∧ va + n ≤ x.vbase + x.len ∧ (wr = true → x.wr = true) ∧ x.abs = false ∧ x.cmp = false ∧
    paSpace x.pbase ≠ 3 ∧ pa = x.pbase + (va - x.vbase) ∧ ∀ i < n, paOk (pa + i) = true ∧ mcHolds s (pa + i) 1 = false

/-- They lie in this package. -/
def plainAt (s : State) (c : Core) (va n : Nat) (wr : Bool) (pa : Nat) : Prop :=
  plainRun s c va n wr pa ∧ ∀ i < n, paPkg (pa + i) = s.plat.pkg

/-- The head of a queue is e and takes its next step: it runs, or waits for nothing (R125); no halt holds it (R181). -/
def steps (s : State) (n : Nat) (q : EngQ) (e : Entry) : Prop :=
  let c := getCore s n
  (c.queue q).es.head? = some e ∧ ((bedOf s n).halt && (bedOf s n).park) = false ∧
    (e.ph = .running ∨ (e.ph = .waiting ∧ c.gang = 0 ∧ ∀ k ∈ e.tokens.kcs, c.tokSet k = true))

/-- The entry once it runs. -/
def begun (s : State) (n : Nat) (e : Entry) : Entry :=
  if e.ph = .waiting then { e with ph := .running, start := (bedOf s n).btick, shown := 0 } else e

/-- Where the head of a queue stands after a step that left e: at its end, with the words `out` to push, or further on. -/
def stepped (s : State) (n : Nat) (q : EngQ) (c : Core) (e : Entry) (ended : Bool) (out : List Word) : State :=
  { setCore s (c.setHead q (if ended then endedAs e 0 0 0 out else e)) with lsc := if ended then unlogged s n q e else s.lsc }

/-- n bytes of v, little-endian, written over bytes from pa on. -/
def laid (f : Nat → Byte) (pa n v : Nat) : Nat → Byte :=
  fun a => if pa ≤ a ∧ a < pa + n then BitVec.ofNat 8 (v / 256 ^ (a - pa)) else f a

/-- The bytes copies move: of memory (false) by physical address, of slots (true) by 16384 h + offset. -/
abbrev Bytes := Bool × Nat → Byte

/-- Memory and a core's slots as such bytes. -/
def bytesOf (m : List Host.Cell) (t : Tab Byte) : Bytes := fun x => if x.1 then tget 0 t x.2 else rd8 m x.2

/-- w bits of the bytes at l, from bit b on, the bytes little-endian. -/
def bitsAt (f : Bytes) (l : List (Bool × Nat)) (b w : Nat) : Nat := leNat (l.map f) / 2 ^ b % 2 ^ w

/-- Those bits replaced by v's. -/
def putAt (f : Bytes) (l : List (Bool × Nat)) (b w v : Nat) : Bytes := fun x =>
  match l.idxOf? x with
  | some i => BitVec.ofNat 8 ((leNat (l.map f) - bitsAt f l b w * 2 ^ b + v % 2 ^ w * 2 ^ b) / 256 ^ i)
  | none => f x

/-- Counter d of element k of a nest: dimension 0 runs fastest (R269). -/
def counter (r d k : Nat) : Nat :=
  k / ((List.range d).map (fun j => bits r (16 * j) 16 + 1)).prod % (bits r (16 * d) 16 + 1)

/-- The address of element k, strides from bit lo of the record on: by the nest (R269), or by its row's index (R275). -/
def address (r base lo k : Nat) (index : Option Nat) : Nat :=
  let term (d : Nat) : Int := counter r d k * sgn 32 (bits r (lo + 32 * d) 32)
  let x : Int := match index with
    | some v => base + sgn 32 v + term 0
    | none => base + ((List.range 6).map term).sum
  (x % 2 ^ 64).toNat

/-- Element k is fill: no source is read (R269, R274). -/
def filled (i : Instr) (r k : Nat) : Bool :=
  let out (d lo : Nat) : Bool := decide (bits r lo 16 ≠ 0) && decide (bits r lo 16 ≤ counter r d k)
  match i with
  | .cpfill _ => true
  | _ => out 0 96 || out 1 112 || out 2 672

/-- n bytes of memory from pa on; under the swizzle those in a scratchpad stand where R267 puts them. -/
def memBytes (r pa n : Nat) (swz : Bool) : List (Bool × Nat) := (List.range n).map fun i =>
  let a := (pa + i) % 2 ^ 21
  let x := a ^^^ (bits r 704 5 * 16) ^^^ (if bits r 709 3 = 0 then 0 else a / 2 ^ (9 + bits r 709 3) % 32 * 16)
  (false, if swz = true ∧ paSpace (pa + i) = 2 then pa + i - a + x else pa + i)

/-- Element k, of w bits: its bytes on either side and their first bits; f the bytes as they stand, g those it reads from
(R269, R271, R274, R276). -/
def copied (i : Instr) (r w k : Nat) (src dst : List (Bool × Nat)) (b t : Nat) (g f : Bytes) : Bytes :=
  let rev (v : Nat) : Nat := if r.testBit 701 then leNat (leBytes (w / 8) v).reverse else v
  let v := rev (if filled i r k then bits r 640 32 % 2 ^ w else bitsAt g src b w)
  match i with
  | .cpxor _ => putAt f dst t w (bitsAt f dst t w ^^^ v)
  | .cpswp _ => putAt (putAt f dst t w (rev (bitsAt f src b w))) src b w (rev (bitsAt f dst t w))
  | _ => putAt f dst t w v

/-- The cell bits and work of a copy entry that has come to element `pos` (R278). -/
def copyCosts (e : Entry) : Nat × Nat :=
  let w := widthOf e.recNat * e.pos
  match e.i with
  | .cpxor _ => (0, 3 * w)
  | .cpswp _ => (0, 4 * w)
  | .cpfill _ => (w, w)
  | .cpgath _ | .cpscat _ => (w, 2 * w + 32 * (e.pos / (bits e.recNat 0 16 + 1) + e.cap.length))
  | _ => (w, 2 * w)

/-- A BF16 pattern widened to FP32, a NaN made canonical (R352). -/
def widened (v : Nat) : Nat := if v / 2 ^ 7 % 2 ^ 8 = 255 ∧ v % 2 ^ 7 ≠ 0 then 0x7FC00000 else v * 2 ^ 16

/-- An FP32 pattern rounded to BF16, to nearest, ties to even (R353, R57). -/
def narrowed (v : Nat) : Nat :=
  if v / 2 ^ 23 % 2 ^ 8 = 255 ∧ v % 2 ^ 23 ≠ 0 then 0x7FC0 else (v + 0x7FFF + v / 2 ^ 16 % 2) / 2 ^ 16

/-- The elements of a batch row of a boundary (R342). -/
def batchRow (g : Graft) : Nat := ((List.range g.nf).map (fun m => tget 0 g.gm m + 1)).prod * (g.bd + 1)

/-- The tree of R369 over the values of ranks 0 to n - 1. -/
def treeOf (op : Nat → Nat → Nat) (n : Nat) (v : Nat → Nat) : Nat :=
  (List.range n).foldl (fun v l => fun r => if r % 2 ^ (l + 1) = 0 ∧ r + 2 ^ l < n then op (v r) (v (r + 2 ^ l)) else v r) v 0

/-- The two lanes of a region's digest, its words given by index (R370). -/
def lanes (n : Nat) (w : Nat → Word) : List Word :=
  [((List.range n).map (fun i => mixA (w i ^^^ (BitVec.ofNat 64 i * 0xC3A56D192E8F4B07)))).sum,
   ((List.range n).map (fun i => mixB (w i + BitVec.ofNat 64 i * 0x5D2BE871A46C0F93))).sum]

/-- AMAX with values of format f folded in (R309): integers round up to FP32; NaN is sticky. -/
def amaxWith (f : Nat) (m : BitVec 33) (vals : List Nat) : BitVec 33 :=
  let mag (v : Nat) : Nat :=
    if f ≤ 2 then packF 3 3 0 false (.fin false (sgn (fmtBits f) v).natAbs 0)
    else packF 3 3 0 false (match unpackF f v with | .fin _ a e => .fin false a e | .inf _ => .inf false | .nan => .nan)
  let isNaN (v : Nat) : Bool := decide (2 < f) && isNan (unpackF f v)
  BitVec.ofNat 33 (max (m.toNat % 2 ^ 32) (((vals.filter (fun v => !isNaN v)).map mag).foldl max 0) +
    (if m.msb || vals.any isNaN then 2 ^ 32 else 0))

/-- The atomics of the bank engine by name. -/
def batoms (f : EregW) : List (Aop × Instr) :=
  [(.add, .batomAdd f), (.min, .batomMin f), (.max, .batomMax f), (.and, .batomAnd f), (.or, .batomOr f), (.xor, .batomXor f),
   (.swp, .batomSwp f), (.cas, .batomCas f), (.fadd, .batomFadd f)]

/-- Words written out from the encodings of R67-R83, with the instruction each stands for. The field values are those of the
spec's own examples and tables. -/
def spelledWords : List (Nat × Instr) :=
  [ (0x0200A30000000000, .add { ramp := 0, d := 5, a := 6, b := 0, ty := 0, c := 0, e := 0 }),
    (0x1868828080000000, .maxK { ramp := 3, d := 4, a := 5, b := 0, ty := 2, c := 0, e := 0 }),
    (0x0901458046000000, .cswap { ramp := 0, d := 10, a := 11, b := 0, ty := 1, c := 12, e := 0 }),
    (0x0B00E01FFFFFFFFD, .addi { ramp := 0, d := 7, a := 0, ty := 1, imm := 2 ^ 36 - 3 }),
    (0x0F01900000000400, .xorw { ramp := 0, d := 12, h := 1, imm := 0x400 }),
    (0x330004801FFFFFFF, .loop { ramp := 0, d := 0, a := 9, b := 0, cc := 0, off := 2 ^ 29 - 1 }),
    (0x3400E21AC0000010, .ld { ramp := 0, d := 7, a := 4, cl := 3, sc := 2, ty := 6, b := 0, off := 16 }),
    (0x39014A0372CC0000, .atomCas { ramp := 0, d := 10, a := 20, cl := 0, sc := 3, b := 11, c := 12, off := 0 }),
    (0x5221C42448280040, .vst { ramp := 1, vd := 7, a := 4, cl := 2, sc := 2, pm := 2, fmt := 4, b := 5, off := 64 }),
    (0x5520864029800000, .vadd { ramp := 1, vd := 2, va := 3, vb := 4, vc := 0, pm := 5, fmt := 3, rm := 0, sa := 0, imm := 0 }),
    (0x83205FFFF827806E, .tmac { ramp := 1, kp := 2, kc0 := 63, kc1 := 63, kc2 := 63, stamp := 79, opf := 0x6E }),
    (0x900081FFFBC00001, .cpy { ramp := 0, kp := 4, kc0 := 3, kc1 := 63, kc2 := 63, a := 30, b := 0, c := 0, md := 1 }),
    (0x9800C2FFF9200042, .graftSplit { ramp := 0, kp := 6, kc0 := 5, kc1 := 63, kc2 := 63, a := 9, b := 0, c := 0, md := 0x42 }),
    (0xA000BFFFFA8480A8, .batomFadd { ramp := 0, kp := 5, kc0 := 63, kc1 := 63, kc2 := 63, a := 20, b := 9, c := 0, md := 0xA8 }),
    (0xAA01200000000010, .crrd { ramp := 0, d := 9, a := 0, k := 0, sc := 0, mask := 0, sel := 0x010 }) ]

end Sys2Proof.Stmt

open Sys2Proof Sys2Proof.Machine Sys2Proof.Stmt

/-- R186, R189, R190, R92: the reversible words, of registers or with an immediate, and XORW complete with D's low w bits taking
their function, and change nothing else. SWAP exchanges D and A; CSWAP exchanges them when C[0] is 1 and writes both back as they
were when it is 0. -/
def Obligations.ReversibleWords : Prop :=
  (∀ (s : State) (f : SregW), ∀ p ∈ reversible s f, p.1.wf = true → p.2.ready s → p.2.does p.1 s s) ∧
  (∀ (s : State) (f : SimmW), ∀ p ∈ reversibleImm s f, p.1.wf = true → p.2.ready s → p.2.does p.1 s s) ∧
  (∀ (s : State) (f : SwideW), (Instr.xorw f).wf = true → (xorw s f).ready s → (xorw s f).does (.xorw f) s s) ∧
  ∀ (s : State) (f : SregW),
    ((Instr.swap f).wf = true → (exchange s f [f.d, f.a] true).ready s → (exchange s f [f.d, f.a] true).does (.swap f) s s) ∧
    (let w := exchange s f [f.d, f.a, f.c] ((srcVal s f.c).getLsbD 0)
     (Instr.cswap f).wf = true → w.ready s → w.does (.cswap f) s s)

/-- R191, R192, R193: the plain erasing words, of registers or with an immediate, and MOVW. -/
def Obligations.ErasingWords : Prop :=
  (∀ (s : State) (f : SregW), ∀ p ∈ erasingRegs s f, p.1.wf = true → p.2.ready s → p.2.does p.1 s s) ∧
  ∀ (s : State) (f : SimmW) (h : SwideW), ∀ p ∈ erasingImms s f h, p.1.wf = true → p.2.ready s → p.2.does p.1 s s

/-- R193, R167: the .k form writes what the plain form writes and pushes the overwritten bits; the .b form writes D[W]
xor f xor the bits popped. Neither is charged. Beyond HLIM or HBASE they stop with 0x05 or 0x06.
Rests on the model's log 88 (DEDUCED). -/
def Obligations.KeepAndBackForms : Prop :=
  ∀ (s : State) (e : EForm),
    let n := (plainOf s e).2.2.1
    let v := (plainOf s e).2.2.2
    let t := s.core.trug
    let old := overwritten s e
    let back := BitVec.ofNat 64 (old ^^^ v.toNat % 2 ^ n ^^^ (popped t n).2)
    (Instr.keepForm e).wf = true →
      ((kept s e v).ready s →
        (underLimits s.core (t.top + n) → (kept s e v).does (.keepForm e) s (withTrug s (pushed t old n))) ∧
        (¬ underLimits s.core (t.top + n) → stops (.keepForm e) s (e.dst :: e.sources) 0x05 0 0)) ∧
      ((kept s e back).ready s →
        (t.base + n ≤ t.top → (kept s e back).does (.backForm e) s (withTrug s (popped t n).1)) ∧
        (t.top < t.base + n → stops (.backForm e) s (e.dst :: e.sources) 0x06 0 0))

/-- R194, R66: what a push put on the trug a pop of the same length gives back, and the partition is then as it was, so
that a .b form after its .k form restores D's overwritten bits. -/
def Obligations.PopUndoesPush : Prop :=
  ∀ (t : Trug) (v n : Nat), t.base ≤ t.top → t.bits < 2 ^ t.depth → v < 2 ^ n →
    (t.push v n).pop n = (v, t) ∧ (t.push v n).bits < 2 ^ (t.push v n).depth ∧
    ∀ old f : Nat, (old ^^^ f) ^^^ f ^^^ (((t.push v n).pop n).1 ^^^ v) = old

/-- R195: MIN and MAX in the plain, kept and undone forms.
Rests on the model's log 78 (DESIGN CHOICE), log 88 (DEDUCED). -/
def Obligations.MinMaxWords : Prop :=
  ∀ (s : State) (f : SregW) (isMax : Bool),
    let plain := if isMax then Instr.max f else .min f
    let k := if isMax then Instr.maxK f else .minK f
    let b := if isMax then Instr.maxB f else .minB f
    let w := tyBits f.ty
    let c := beats isMax f.ty (lo s w f.d) (lo s w f.a)
    let t := s.core.trug
    let undo := (popped t 1).2 = 1
    (plain.wf = true → (minmax s isMax f).ready s → (minmax s isMax f).does plain s s) ∧
    (k.wf = true → (ordered s f c).ready s →
      (underLimits s.core (t.top + 1) → (ordered s f c).does k s (withTrug s (pushed t (if c then 1 else 0) 1))) ∧
      (¬ underLimits s.core (t.top + 1) → stops k s [f.d, f.a] 0x05 0 0)) ∧
    (b.wf = true → (ordered s f undo).ready s →
      (t.base + 1 ≤ t.top → (ordered s f undo).does b s (withTrug s (popped t 1).1)) ∧
      (t.top < t.base + 1 → stops b s [f.d, f.a] 0x06 0 0))

/-- R200-R204, R91: NOP occupies the control unit; BC, CALL, RET and LOOP name the next word and the bt it issues on;
CALL's link and LOOP's count are not charged; RET to an address that is no multiple of 8 raises 0x0E. -/
def Obligations.FlowWords : Prop :=
  ∀ (s : State) (f : SbrW) (g : SsysW),
    let next := s.core.pc + 8
    let bc := flow s f [f.a, f.b] [] (if condIs f.cc (srcVal s f.a) (srcVal s f.b) then target s f else next)
    let call := flow s f [] [dueAt s 1 f.ramp (.sreg f.d 0 64 next)] (target s f)
    let ret := flow s f [f.a] [] (srcVal s f.a)
    let n := srcVal s f.a - 1
    let loop := flow s f [f.a] [dueAt s 1 f.ramp (.sreg f.a 0 64 n)] (if n = 0 then next else target s f)
    let nop := Issue.plain s [.ctl] g.ramp [] [] 0
    ((Instr.nop g).wf = true → nop.ready s → nop.does (.nop g) s s) ∧
    ((Instr.bc f).wf = true → bc.ready s → bc.does (.bc f) s s) ∧
    ((Instr.call f).wf = true → call.ready s → call.does (.call f) s s) ∧
    ((Instr.ret f).wf = true → ret.ready s →
      ((srcVal s f.a).toNat % 8 = 0 → ret.does (.ret f) s s) ∧
      ((srcVal s f.a).toNat % 8 ≠ 0 → stops (.ret f) s [f.a] 0x0E (srcVal s f.a) 0)) ∧
    ((Instr.loop f).wf = true → loop.ready s → loop.does (.loop f) s s) ∧
    ((Instr.ret f).wf = true → f.d = 0 ∧ f.b = 0 ∧ f.cc = 0 ∧ f.off = 0) ∧
    decode 0x32000F8000000000 = .ok (.ret { ramp := 0, d := 0, a := 31, b := 0, cc := 0, off := 0 })

/-- R196, R198, R199: BPERM routes the pair D by a bijective pattern and raises 0x1C for any other; BPERM.e routes the
pair A into D by any pattern and erases 128 bits.
Rests on the model's log 68 (DEDUCED). -/
def Obligations.PermuterWords : Prop :=
  ∀ (s : State) (f : SregW) (r : BitVec 128),
    let pat := s.core.pattern f.b
    let bij := (∀ b ∈ pat, b.toNat < 128) ∧ pat.Nodup
    ((Instr.bperm f).wf = true → routes pat (pair s f.d) r → (permuted s f f.d r 0).ready s →
      (bij → (permuted s f f.d r 0).does (.bperm f) s s) ∧
      (¬ bij → stops (.bperm f) s [f.d, f.d + 1] 0x1C 0 (BitVec.ofNat 64 f.b))) ∧
    ((Instr.bpermE f).wf = true → routes pat (pair s f.a) r → (permuted s f f.a r 128).ready s →
      (permuted s f f.a r 128).does (.bpermE f) s s)

/-- R197, R245: BPLD loads 128 bytes of the core's own scratchpad into a pattern on tick t + 11 + k, charged 1,024 bits of the
unit; a misaligned address raises 0x0E, a range outside the scratchpad 0x0C, an uncorrectable error 0x1B at its byte.
Rests on the model's log 13 (DESIGN CHOICE), log 16 (DEDUCED). -/
def Obligations.PatternLoad : Prop :=
  ∀ (s : State) (f : SmemW),
    let va := addrOf s f.a 23 f.off
    let ps := placesOf s s.core va 128 false
    let results (bs : List Byte) : List Pend :=
      [{ due := s.bed.btick + 11 + rampK f.ramp, acc := s.core.nextAcc, land := .pat f.d bs }]
    let w (bs : List Byte) : Issue := { Issue.plain s [.perm, .mem] f.ramp [f.a] (results bs) 1024 with own := 1024 }
    (Instr.bpld f).wf = true →
      (∀ bs, va % 16 = 0 → (ownSpad s s.core va 128).isSome → readPlaces s ps = .ok bs → (w bs).ready s →
        (w bs).does (.bpld f) s
          (posted s (mkAcc s (.bpld f) [f.a] .load f.cl f.sc va (s.bed.btick + 11 + rampK f.ramp) ps []))) ∧
      ((w []).ready s →
        (va % 16 ≠ 0 → stops (.bpld f) s [f.a] 0x0E (BitVec.ofNat 64 va) 0) ∧
        (va % 16 = 0 → ownSpad s s.core va 128 = none → stops (.bpld f) s [f.a] 0x0C (BitVec.ofNat 64 va) 0) ∧
        (∀ k, va % 16 = 0 → (ownSpad s s.core va 128).isSome → readPlaces s ps = .error k →
          stops (.bpld f) s [f.a] 0x1B (BitVec.ofNat 64 (va + k)) 0))

/-- R208, R209, R212: LD and LDX. The word read is extended; the access stands in the post buffer until its reply; from
an absent extent they complete without an access.
Rests on the model's log 13 (DESIGN CHOICE), log 72 (DESIGN CHOICE). -/
def Obligations.LoadWords : Prop :=
  ∀ (s : State) (f : SmemW) (xor : Bool) (m : Nat),
    let i := if xor then Instr.ldx f else .ld f
    let va := addrOf s f.a 23 f.off
    let len := tyBits f.ty / 8
    let ps := placesOf s s.core va len false
    let b := accLat s s.core ps false
    let w := load s xor f b m
    i.wf = true → addrStop s s.core va len len false false = none →
      (loadAbsent s.core va = false → readAt s va ps = .ok m → w.ready s →
        w.does i s (posted s (mkAcc s i w.srcs .load f.cl f.sc va (s.bed.btick + b + rampK f.ramp - 1) ps []))) ∧
      (loadAbsent s.core va = true → (loadOfAbsent s xor f).ready s → (loadOfAbsent s xor f).does i s s)

/-- R212, R213, R245: ST writes D's low bits, STX xors them into memory, SWPM exchanges them. The bytes stored to are those of
the places of the address; every other byte of memory reads as before. An ST of which a byte is dropped, as it covers an erroneous
code word in part, completes, and its fault 0x1B waits for delivery with the words of its class.
Rests on the model's log 13 (DESIGN CHOICE), log 16 (DEDUCED), log 77 (DEDUCED). -/
def Obligations.StoreWords : Prop :=
  ∀ (s : State) (f : SmemW) (m : Nat),
    let va := addrOf s f.a 23 f.off
    let w := tyBits f.ty
    let ps := placesOf s s.core va (w / 8) true
    let x := (lo s w f.d).toNat
    let b := accLat s s.core ps false
    let due := s.bed.btick + b + rampK f.ramp - 1
    let fits (v : Nat) : Prop := (writeAt s ps v).2 = none
    addrStop s s.core va (w / 8) (w / 8) true false = none →
      ((Instr.st f).wf = true → (store s false f).ready s → fits x →
        stores (store s false f) (.st f) s ps x
          (mkAcc s (.st f) [f.d, f.a] .store f.cl f.sc va 0 ps (undoOf s ps))) ∧
      (∀ k, (Instr.st f).wf = true → (store s false f).ready s → (writeAt s ps x).2 = some k →
        let a := mkAcc s (.st f) [f.d, f.a] .store f.cl f.sc va 0 ps (undoOf s ps)
        let r := { accessRec a 0x1B (2 ^ f.cl) with addr := BitVec.ofNat 64 (va + k) }
        ∃ m y n, wrote s ps x m ∧
          let e := posted { s with mem := m, ecc := y, writes := n } a
          (store s false f).does (.st f) s { e with core := e.core.addPending r }) ∧
      ((Instr.stx f).wf = true → readAt s va ps = .ok m → (store s true f).ready s → fits (m ^^^ x) →
        stores (store s true f) (.stx f) s ps (m ^^^ x)
          (mkAcc s (.stx f) [f.d, f.a] .rmw f.cl f.sc va 0 ps (undoOf s ps))) ∧
      ((Instr.swpm f).wf = true → readAt s va ps = .ok m → (swapMem s f b m).ready s → fits x →
        stores (swapMem s f b m) (.swpm f) s ps x
          (mkAcc s (.swpm f) [f.d, f.a] .rmw f.cl f.sc va due ps (undoOf s ps)))

/-- R75, R214: the atomics. D receives the old word and memory the new one; a .cas that finds another value than C
writes nothing.
Rests on the model's log 13 (DESIGN CHOICE), log 16 (DEDUCED). -/
def Obligations.AtomicWords : Prop :=
  ∀ (s : State) (f : SatmW) (old : Nat), ∀ p ∈ atomOps f,
    let va := addrOf s f.a 16 f.off
    let len := if p.1 = .fadd then 4 else 8
    let ps := placesOf s s.core va len true
    let b := accLat s s.core ps true
    let w := atom s p.1 f b (BitVec.ofNat 64 old)
    let a (undo : List (Tgt × Byte × Nat)) : Access :=
      mkAcc s p.2 w.srcs .atomic f.cl f.sc va (s.bed.btick + b + rampK f.ramp - 1) ps undo
    p.2.wf = true → addrStop s s.core va len len true true = none → readAt s va ps = .ok old → w.ready s →
      match atomNew p.1 (BitVec.ofNat 64 old) (srcVal s f.b) (srcVal s f.c) with
      | some v => (writeAt s ps v.toNat).2 = none → stores w p.2 s ps v.toNat (a (undoOf s ps))
      | none => w.does p.2 s (posted s (a []))

/-- R207, R209, R227, R245, R250, R263: the address checks of a memory word, in their order, and what they leave: LD, LDX, ST, STX,
SWPM and the atomics stop with the fault of the first that fails, after the checks of R84. Nothing stops an access that is
aligned, lies in the unit's extents, which it may write and which are present where it writes, and is translated: not through a
transforming aperture, of an atomic or a sync word, and not to another package before the gang commits. A read that passes and
meets an uncorrectable error raises 0x1B with XREC6 its first byte in the erroneous code word. The base latency of an access is
that of its home.
Rests on the model's log 14 (DEDUCED), log 80 (DEDUCED), log 90 (DESIGN CHOICE). -/
def Obligations.AddressChecks : Prop :=
  ∀ (s : State) (va len align : Nat) (wr ident : Bool),
    let c := s.core
    let bad (code detail : Nat) : Option Stop := some (.fault code (BitVec.ofNat 64 va) (BitVec.ofNat 64 detail))
    (va % align ≠ 0 → addrStop s c va len align wr ident = bad 0x0E 0) ∧
    (va % align = 0 → coreSpans c va len = none → addrStop s c va len align wr ident = bad 0x0C 0) ∧
    (∀ l, va % align = 0 → coreSpans c va len = some l →
      (wr = true → (∃ x ∈ l, x.1.wr = false) → addrStop s c va len align wr ident = bad 0x0D 0) ∧
      (wr = true → (∀ x ∈ l, x.1.wr = true) → (∃ x ∈ l, x.1.abs = true) →
        addrStop s c va len align wr ident = bad 0x0C 1) ∧
      (wr = false → (∃ x ∈ l, x.1.abs = true) → addrStop s c va len align wr ident = none) ∧
      ((wr = true → ∀ x ∈ l, x.1.wr = true) → (∀ x ∈ l, x.1.abs = false) →
        (∀ code detail, spansPlaces s wr l = .error (code, detail) → addrStop s c va len align wr ident = bad code detail) ∧
        (∀ ps, spansPlaces s wr l = .ok ps →
          let moved := ident = true ∧ ∃ x ∈ l, paSpace x.1.pbase = 3 ∧
            (tget Aperture.reset (getDie s (paDie x.1.pbase)).aps (paOff x.1.pbase / 2 ^ 36)).xf ≠ 0
          let barred := c.gang ≠ 0 ∧ ∃ p ∈ ps, paPkg p.pa ≠ s.plat.pkg
          (moved → addrStop s c va len align wr ident = bad 0x0D 3) ∧
          (¬ moved → barred → addrStop s c va len align wr ident = bad 0x0D 2) ∧
          (¬ moved → ¬ barred → addrStop s c va len align wr ident = none)) ∧
        ((∀ x ∈ l, x.1.cmp = false ∧ paSpace x.1.pbase ≠ 3) →
          let at_ (x : Extent × Nat × Nat) (i : Nat) : Nat := x.1.pbase + (x.2.1 + i)
          ((∀ x ∈ l, ∀ i < x.2.2, paOk (at_ x i) = true ∧ mcHolds s (at_ x i) 1 = false) →
            spansPlaces s wr l = .ok (l.flatMap fun x => (List.range x.2.2).map fun i => .one (.byte (at_ x i)))) ∧
          ((∃ x ∈ l, ∃ i < x.2.2, paOk (at_ x i) = false) → spansPlaces s wr l = .error (0x0C, 4))))) ∧
    (∀ (p : Place) (ps : List Place) (atom : Bool),
      let pa := p.pa
      let lat := accLat s c (p :: ps) atom
      let is_ (ld at_ : Nat) : Prop := lat = if atom then at_ else ld
      let here := paPkg pa = s.plat.pkg ∧ paDie pa = c.num / 64
      (here → paSpace pa = 2 → paCore pa = c.num → is_ 4 6) ∧
      (here → paSpace pa = 1 ∨ (paSpace pa = 2 ∧ paCore pa ≠ c.num) → is_ 24 28) ∧
      (here → paSpace pa = 0 → is_ 96 100) ∧
      (paPkg pa = s.plat.pkg → paDie pa ≠ c.num / 64 → is_ 192 196) ∧
      (paPkg pa ≠ s.plat.pkg → is_ 1350 1354)) ∧
    (∀ (f : SmemW) (g : SatmW), ∀ w ∈ memWords s f g, w.i.wf = true → w.issue.ready s →
      (∀ code addr detail, addrStop s c w.va w.len w.len w.wr w.atom = some (.fault code addr detail) →
        stops w.i s w.srcs code addr detail) ∧
      (∀ k, addrStop s c w.va w.len w.len w.wr w.atom = none → w.rd = true → (w.wr = true ∨ loadAbsent c w.va = false) →
        readPlaces s (placesOf s c w.va w.len w.wr) = .error k →
        stops w.i s w.srcs 0x1B (BitVec.ofNat 64 (w.va + k)) 0))

/-- R7, R244, R247: an access inside one plain extent (present, uncompressed, not behind an aperture) reads and writes the
bytes at its physical base plus the offset, in little-endian order; a write changes no other byte. -/
def Obligations.PlainMemory : Prop :=
  ∀ (s : State) (e : Extent) (va len : Nat) (wr : Bool),
    let pa := e.pbase + (va - e.vbase)
    findExt s.core.extents va = some e → 0 < len → va + len ≤ e.vbase + e.len → e.cmp = false → paSpace e.pbase ≠ 3 →
    (∀ i < len, paOk (pa + i) = true ∧ mcHolds s (pa + i) 1 = false) → s.ecc = [] →
      placesOf s s.core va len wr = (List.range len).map (fun i => .one (.byte (pa + i))) ∧
      readAt s va (placesOf s s.core va len wr) = .ok (leNat (rdN s.mem pa len)) ∧
      ∀ v, ∃ n, writeAt s (placesOf s s.core va len wr) v = ({ s with mem := wrN s.mem pa (leBytes len v), writes := n }, none) ∧
        ∀ a, rd8 (wrN s.mem pa (leBytes len v)) a =
          if pa ≤ a ∧ a < pa + len then BitVec.ofNat 8 (v / 256 ^ (a - pa)) else rd8 s.mem a

/-- R217, R218, R220: FENCE and TMARK enter the post buffer and never wait; a TMARK of a clear token raises 0x0B; both
deliver a recorded fault of their classes (a TMARK after its token's check). -/
def Obligations.FenceAndMark : Prop :=
  ∀ (s : State) (f : SsysW),
    let due := s.core.pending.find? (fun r => r.queue = 0 ∧ r.mask &&& f.mask ≠ 0)
    let wf := quick s .mem f.ramp [] 0
    let wt := Issue.plain s [.mem] f.ramp [] (if f.mask = 0 then [dueAt s 1 f.ramp (.tok f.k)] else []) 0
    ((Instr.fence f).wf = true → wf.ready s →
      (due = none → wf.does (.fence f) s (if f.mask = 0 then s else posted s (ordering s (.fence f) .fence f 63))) ∧
      (∀ r, due = some r → exec (.fence f) s = .next (stopWord s (.fence f) [] (.deliver r)))) ∧
    ((Instr.tmark f).wf = true → wt.ready s →
      (s.core.tokSet f.k = false → stops (.tmark f) s [] 0x0B 0 0) ∧
      (s.core.tokSet f.k = true → due = none →
        wt.does (.tmark f) s (if f.mask = 0 then marked s f.k f.mask
          else posted (marked s f.k f.mask) (ordering s (.tmark f) .tmark f f.k))) ∧
      (∀ r, s.core.tokSet f.k = true → due = some r → exec (.tmark f) s = .next (stopWord s (.tmark f) [] (.deliver r))))

/-- R28, R219, R221, R225, R227, R228: a wait whose condition holds completes on its issue tick; else the core waits with the word
at PC. XBAR and SYEXP always wait; WSEND waits only for a gang that has not committed. Once its condition holds and neither a fault
nor an event comes before it the wait is over: the core goes on to the next word on the next bt, and XBAR has begun the next
superstep. An XBAR whose queues are empty, whose accesses are done and which no fault concerns posts its arrival, once (R228 steps
3 and 4): its unit counts at the barrier, and it waits for the generation after the present one. TWAIT delivers the fault of the
entry that produced its token or of the accesses its TMARK covers, the WSEND that ends a work span the first recorded fault of an
access, XBAR the first pending fault; a TWAIT in the system view on the token of the fault being handled is a double fault.
Rests on the model's log 50 (DEDUCED), log 69 (DESIGN CHOICE), log 71 (DESIGN CHOICE), log 76 (DEDUCED). -/
def Obligations.WaitingWords : Prop :=
  (∀ (s : State) (n b : Nat) (w : Waiting),
    let c := getCore s n
    let done : Core := { c with wait := none, pc := w.pc + 8, nextBt := b + 1 }
    c.wait = some w → c.run = .running → (c.view = .unit → c.event = none) →
      (∀ k, w.w = .token k → c.tokSet k = true → c.twaitFault k = none → endWait s n b = setCore s done) ∧
      (∀ a x, w.w = .syexp a 0 x → (∀ y ∈ c.accs, y.id ≠ a) → endWait s n b = setCore s done) ∧
      (∀ pa g, w.w = .sywait pa g → syncBad s pa = false → genReached (readSync s.mem pa).2.2.1 g = true →
        endWait s n b = setCore s done) ∧
      (∀ q x l, w.w = .port q → c.port q = x :: l → (q = 4 → x.q = 1 → ∀ e ∈ c.tq.es, e.seq ≠ x.seq) →
        endWait s n b = setCore s done) ∧
      (w.w = .gang → (c.gang = 0 ∨ c.supers ≠ 0) → endWait s n b = setCore s done) ∧
      (∀ g was upto x, w.w = .xbar true g was upto → getLaunch s c.job c.lid = some x → g ≤ x.barrier → c.pending = [] →
        endWait s n b = nextSuperstep s done)) ∧
  (∀ (s : State) (n g upto : Nat) (was : Bool) (w : Waiting) (x : Launch),
    let c := getCore s n
    let done := c.tq.es = [] ∧ c.cq.es = [] ∧ c.gq.es = [] ∧ c.bq.es = [] ∧ (∀ a ∈ c.accs, upto ≤ a.id ∧ a.word ≠ 0) ∧
      ((getBed s c.bedNum).stall = true ∨ c.seedMode = 0 ∨ ∀ fl ∈ c.vq, fl.draws = false) ∧ c.pending = []
    c.wait = some w → w.w = .xbar false g was upto → c.run = .running → getLaunch s c.job c.lid = some x →
      let at_ : Launch := { x with units := x.units.map (fun u => { u with arrived := u.arrived || decide (u.idx = c.unit) }) }
      ((c.gang = 0 ∨ c.supers ≠ 0) → done → postArrival s n =
        setCore (setLaunch s at_) { c with wait := some { w with w := .xbar true (x.barrier + 1) was upto } }) ∧
      (¬ ((c.gang = 0 ∨ c.supers ≠ 0) ∧ done) → postArrival s n = s)) ∧
  ∀ (s : State) (f : SsysW),
    let at_ (i : Instr) (srcs : List Nat) (work : Nat) (due : Option FaultRec) (now : Bool) (w : Wait) (e : State) : Prop :=
      i.wf = true → (quick s .ctl f.ramp srcs work).ready s →
        match due, now with
        | some r, _ => exec i s = .next (stopWord s i srcs (.deliver r))
        | none, true => (quick s .ctl f.ramp srcs work).does i s e
        | none, false => (waiting s f.ramp srcs work).does i s (waitsFor s e i w f.ramp srcs work)
    let va := (srcVal s f.a).toNat
    let pa := syncPa s va
    let gen := (readSync s.mem pa).2.2.1
    let ended : State := { s with core := { s.core with span := false } }
    let own := s.core.view = .system ∧ s.core.handled = f.k ∧ f.k ≠ 63 ∧ s.core.tokSet f.k = false
    (¬ own → at_ (.twait f) [] 0 (s.core.twaitFault f.k) (s.core.tokSet f.k) (.token f.k) s) ∧
    ((Instr.twait f).wf = true → (quick s .ctl f.ramp [] 0).ready s → own → stops (.twait f) s [] (s.core.xcause.toNat % 256) 0 0) ∧
    at_ (.qwait f) [] 0 none (!(s.core.port f.k).isEmpty) (.port f.k) s ∧
    (syncStop s va (srcVal s f.d) false = none →
      (syncBad s pa = false →
        at_ (.sywait f) [f.a, f.d] 64 none (genReached gen (srcVal s f.d).toNat) (.sywait pa (srcVal s f.d).toNat) s) ∧
      (syncBad s pa = true → (quick s .ctl f.ramp [f.a, f.d] 64).ready s →
        stops (.sywait f) s [f.a, f.d] 0x1B (BitVec.ofNat 64 (badAt s pa va)) 0)) ∧
    at_ (.wsend f) [] 0 (if s.core.span then s.core.accFaults.head? else none) (!(s.core.span && decide (s.core.gang ≠ 0) && decide (s.core.supers = 0))) .gang ended ∧
    at_ (.xbar f) [] 0 s.core.firstFault false (.xbar false 0 s.core.span s.core.nextAcc) ended

/-- R114, R120, R222-R224, R245: SYEXP posts its expectation, which the home takes as it acknowledges it (MemoryEvents), and waits
for that; memory stands as it was. SYARR counts its arrival where what it covers is done and nothing
holds it, else leaves it in the buffer, and does not wait. An arrival's fault waits for delivery with the words of its mask. A sync
word in DRAM raises 0x0C with detail 2, a count of 2^32 or more 0x02.
Rests on the model's log 13 (DESIGN CHOICE), log 32 (DEDUCED), log 33 (DEDUCED), log 70 (DESIGN CHOICE), log 75 (DESIGN CHOICE). -/
def Obligations.SyncWords : Prop :=
  ∀ (s : State) (f : SsysW),
    let va := (srcVal s f.a).toNat
    let n := (srcVal s f.d).toNat
    let ps := placesOf s s.core va 16 true
    let srcs := [f.a, f.d]
    (quick s .ctl f.ramp srcs 64).ready s →
      (syncStop s va (srcVal s f.d) true = none →
        ((Instr.syexp f).wf = true →
          let a := mkAcc s (.syexp f) srcs .expect 0 0 va (s.bed.bwall + accLat s s.core ps true + rampK f.ramp - 1) ps []
          (waiting s f.ramp srcs 64).does (.syexp f) s
            (waitsFor s (posted s a) (.syexp f) (.syexp s.core.nextAcc 0 0) f.ramp srcs 64)) ∧
        ((Instr.syarr f).wf = true →
          let a := { mkAcc s (.syarr f) srcs .arrive f.mask 0 va 0 ps (undoOf s ps) with id := s.core.nextAcc }
          let acts (t : State) : Prop := (quick s .ctl f.ramp srcs 64).does (.syarr f) s t
          let told (t : State) (r : FaultRec) : State := { t with core := t.core.addPending r }
          (heldBack s.core a ∨ ¬ alone s.core s.bed.stall a → acts (posted s a)) ∧
          (¬ heldBack s.core a → alone s.core s.bed.stall a →
            (syncBad s a.pa = true → acts (told (posted s { a with due := 1 })
              { accessRec a 0x1B f.mask with addr := BitVec.ofNat 64 (badAt s a.pa va) })) ∧
            (syncBad s a.pa = false → ∃ m k, synced s .land a.pa n m ∧
              let t := posted { s with mem := m, writes := k } { a with due := 1 }
              acts (if overshoots s .land a.pa n then told t (accessRec a 0x16 f.mask) else t))))) ∧
      (∀ pa, addrStop s s.core va 16 16 true true = none → (ps.head? = some (.one (.byte pa))) →
        (paSpace pa = 0 → stops (.syexp f) s srcs 0x0C (BitVec.ofNat 64 va) 2 ∧
          stops (.syarr f) s srcs 0x0C (BitVec.ofNat 64 va) 2) ∧
        (paSpace pa ≠ 0 → 2 ^ 32 ≤ n → stops (.syexp f) s srcs 0x02 0 0 ∧ stops (.syarr f) s srcs 0x02 0 0))

/-- R34, R226: HCLAIM takes a free handle to filling; HREL takes a full or draining handle without a consumer to free;
any other state raises 0x11 and changes nothing.
Rests on the model's log 24 (DEDUCED). -/
def Obligations.HandleWords : Prop :=
  ∀ (s : State) (f : SsysW),
    let w := quick s .ctl f.ramp [] 0
    let h := s.core.handle f.k
    let may := (h = .full ∨ h = .draining) ∧ s.core.consumerOf f.k = false
    let become (x : HState) : State := { s with core := s.core.setHandle f.k x }
    w.ready s →
      ((Instr.hclaim f).wf = true →
        (h = .free → w.does (.hclaim f) s (become .filling)) ∧
        (h ≠ .free → stops (.hclaim f) s [] 0x11 0 (BitVec.ofNat 64 f.k))) ∧
      ((Instr.hrel f).wf = true →
        (may → w.does (.hrel f) s (become .free)) ∧
        (¬ may → stops (.hrel f) s [] 0x11 0 (BitVec.ofNat 64 f.k))) ∧
      ∀ x, (become x).core.handle f.k = x

/-- R229, R251: PGREQ marks the absent, unserviced extent that holds A as requested; outside every extent it raises 0x0C. -/
def Obligations.PageRequestWord : Prop :=
  ∀ (s : State) (f : SsysW),
    let va := (srcVal s f.a).toNat
    let w := quick s .mem f.ramp [f.a] 64
    let asked : List Extent := s.core.extents.map fun e =>
      if e.vbase ≤ va ∧ va < e.vbase + e.len ∧ e.abs = true ∧ e.serviced = false then { e with requested := true } else e
    (Instr.pgreq f).wf = true → w.ready s →
      ((findExt s.core.extents va).isSome → w.does (.pgreq f) s { s with core := { s.core with extents := asked } }) ∧
      (findExt s.core.extents va = none → stops (.pgreq f) s [f.a] 0x0C (BitVec.ofNat 64 va) 0)

/-- R165-R167, R231, R233: HPUSH moves D's low n bits onto the trug and clears them, HPOP xors n popped bits into D, HMARK
and HCHK set and test a mark, HDROP erases n bits of the trug. A push keeps HTOP under HLIM and under every value a write to HLIM
will put there.
Rests on the model's log 88 (DEDUCED). -/
def Obligations.TrugWords : Prop :=
  ∀ (s : State) (f : SsysW),
    let n := f.sel
    let t := s.core.trug
    let low := (lo s n f.d).toNat
    let push := trugWord s f [f.d] [dueAt s 1 f.ramp (.sreg f.d 0 n 0)] n
    let pop := trugWord s f [f.d] [dueAt s 1 f.ramp (.sreg f.d 0 n (BitVec.ofNat 64 (low ^^^ (popped t n).2)))] n
    let drop := { trugWord s f [] [] n with regs := n }
    let bare := trugWord s f [] [] 0
    ((Instr.hpush f).wf = true → push.ready s →
      (underLimits s.core (t.top + n) → push.does (.hpush f) s (withTrug s (pushed t low n))) ∧
      (¬ underLimits s.core (t.top + n) → stops (.hpush f) s [f.d] 0x05 0 0)) ∧
    ((Instr.hpop f).wf = true → pop.ready s →
      (t.base + n ≤ t.top → pop.does (.hpop f) s (withTrug s (popped t n).1)) ∧
      (t.top < t.base + n → stops (.hpop f) s [f.d] 0x06 0 0)) ∧
    ((Instr.hdrop f).wf = true → drop.ready s →
      (t.base + n ≤ t.top → drop.does (.hdrop f) s (withTrug s (popped t n).1)) ∧
      (t.top < t.base + n → stops (.hdrop f) s [] 0x06 0 0)) ∧
    ((Instr.hmark f).wf = true → bare.ready s →
      bare.does (.hmark f) s (withTrug s (t.setMark n t.top)) ∧ (t.setMark n t.top).mark n = t.top) ∧
    ((Instr.hchk f).wf = true → bare.ready s →
      (t.mark n = t.top → bare.does (.hchk f) s s) ∧ (t.mark n ≠ t.top → stops (.hchk f) s [] 0x07 0 0)) ∧
    (t.base ≤ t.top → t.bits < 2 ^ t.depth → popped (pushed t low n) n = (t, low)) ∧
    (let g : SsysW := { ramp := 0, d := 0, a := 0, k := 0, sc := 0, mask := 0, sel := 16 }
     decode 0x4600A00000000010 = .ok (.hpush { g with d := 5 }) ∧ decode 0x4700A00000000010 = .ok (.hpop { g with d := 5 }) ∧
     decode 0x4A00000000000002 = .ok (.hmark { g with sel := 2 }) ∧ decode 0x4C00000000000010 = .ok (.hdrop g))

/-- R168, R232: HSPILL moves the n oldest bits of the trug into an area of zeros of the core's own scratchpad, HFILL moves
an area's bits back below HBASE and leaves zeros. The checks of R232 stop them in its order: n, the alignment of A, the area in
the own scratchpad, its permission, the history there is, the capacity kept, an error in the area, and of HSPILL the first byte that
is not 0.
Rests on the model's log 13 (DESIGN CHOICE), log 88 (DEDUCED), log 92 (DESIGN CHOICE). -/
def Obligations.SpillAndFill : Prop :=
  ∀ (s : State) (f : SsysW) (bs : List Byte),
    let va := (srcVal s f.a).toNat
    let n := (srcVal s f.d).toNat
    let t := s.core.trug
    let cap := if s.core.view = .unit then 262144 else 32768
    let here := placesOf s s.core va (n / 8) false
    let ps := placesOf s s.core va (n / 8) true
    let w := trugWord s f [f.a, f.d] [dueAt s (2 + (n + 1023) / 1024) f.ramp .nothing] n
    let acc (i : Instr) : Access :=
      { mkAcc s i [f.a, f.d] .rmw 0 0 va 0 [] [] with runs := (ownSpad s s.core va (n / 8)).getD [] }
    let spilled : Trug := { t with bits := t.bits / 2 ^ n, base := t.base + n }
    let filled : Trug := { t with bits := t.bits * 2 ^ n + leNat bs, base := t.base - n }
    let stop (i : Instr) (code : Nat) (addr detail : Nat) : Prop :=
      stops i s [f.a, f.d] code (BitVec.ofNat 64 addr) (BitVec.ofNat 64 detail)
    let sized := n % 128 = 0 ∧ 128 ≤ n ∧ n ≤ cap
    let placed := sized ∧ va % 16 = 0 ∧ (ownSpad s s.core va (n / 8)).isSome
    let given := placed ∧ ∃ l, coreSpans s.core va (n / 8) = some l ∧ ∀ x ∈ l, x.1.wr = true
    let spills := given ∧ t.base + n ≤ t.top
    let fills := given ∧ n ≤ t.base ∧ limitsUpTo s.core (t.base - n + cap)
    t.base ≤ t.top → w.ready s →
      ((Instr.hspill f).wf = true → spills → readPlaces s here = .ok bs → (∀ b ∈ bs, b = 0) →
        (writeAt s ps (t.bits % 2 ^ n)).2 = none →
        ∃ m x k, wrote s ps (t.bits % 2 ^ n) m ∧
          w.does (.hspill f) s (posted (withTrug { s with mem := m, ecc := x, writes := k } spilled) (acc (.hspill f)))) ∧
      ((Instr.hfill f).wf = true → fills → readPlaces s here = .ok bs → (writeAt s ps 0).2 = none →
        ∃ m x k, wrote s ps 0 m ∧
          w.does (.hfill f) s (posted (withTrug { s with mem := m, ecc := x, writes := k } filled) (acc (.hfill f)))) ∧
      (∀ i ∈ [Instr.hspill f, .hfill f], i.wf = true →
        (¬ sized → stop i 0x02 0 0) ∧ (sized → va % 16 ≠ 0 → stop i 0x0E va 0) ∧
        (sized → va % 16 = 0 → ownSpad s s.core va (n / 8) = none → stop i 0x0C va 0) ∧
        (∀ l, placed → coreSpans s.core va (n / 8) = some l → (∃ x ∈ l, x.1.wr = false) → stop i 0x0D va 0)) ∧
      ((Instr.hspill f).wf = true → (given → t.top < t.base + n → stop (.hspill f) 0x06 0 0) ∧
        (∀ k, spills → readPlaces s here = .error k → stop (.hspill f) 0x1B (va + k) 0) ∧
        (∀ k b, spills → readPlaces s here = .ok bs → bs[k]? = some b → b ≠ 0 → (∀ j < k, bs[j]? = some 0) →
          stop (.hspill f) 0x0D (va + k) 1)) ∧
      ((Instr.hfill f).wf = true → (given → t.base < n → stop (.hfill f) 0x06 0 0) ∧
        (given → n ≤ t.base → ¬ limitsUpTo s.core (t.base - n + cap) → stop (.hfill f) 0x05 0 0) ∧
        (∀ k, fills → readPlaces s here = .error k → stop (.hfill f) 0x1B (va + k) 0))

/-- R234, R207: ERASE zeroes b bytes of the core's own scratchpad and charges 8 b cell bits; every other byte stays. A b that
is no multiple of 16 from 16 to 2,097,152 raises 0x02, then the address checks of R207 stop it, then a range outside the
scratchpad raises 0x0C.
Rests on the model's log 13 (DESIGN CHOICE), log 16 (DEDUCED), log 28 (DEDUCED). -/
def Obligations.EraseWord : Prop :=
  ∀ (s : State) (f : SsysW) (runs : List (Nat × Nat)),
    let va := (srcVal s f.a).toNat
    let b := (srcVal s f.d).toNat
    let w := { trugWord s f [f.a, f.d] [dueAt s (2 + (b + 2047) / 2048) f.ramp .nothing] (8 * b) with cells := 8 * b }
    let fits := b % 16 = 0 ∧ 16 ≤ b ∧ b ≤ 2097152
    (Instr.erase f).wf = true → w.ready s →
      (fits → addrStop s s.core va b 16 true false = none → ownSpad s s.core va b = some runs →
        ∃ m x, (∀ a, rd8 m a = if ∃ r ∈ runs, r.1 ≤ a ∧ a < r.1 + r.2 then 0 else rd8 s.mem a) ∧
          w.does (.erase f) s (posted { s with mem := m, ecc := x }
            { mkAcc s (.erase f) [f.a, f.d] .store 0 0 va 0 [] [] with runs := runs })) ∧
      (¬ fits → stops (.erase f) s [f.a, f.d] 0x02 0 0) ∧
      (∀ code addr detail, fits → addrStop s s.core va b 16 true false = some (.fault code addr detail) →
        stops (.erase f) s [f.a, f.d] code addr detail) ∧
      (fits → addrStop s s.core va b 16 true false = none → ownSpad s s.core va b = none →
        stops (.erase f) s [f.a, f.d] 0x0C (BitVec.ofNat 64 va) 0)

/-- R25, R31, R175: an accepted entry stands last in its queue, takes the queue's sequence number, which counts on modulo
2^32, and clears its produced token, so that no TMARK of that token is remembered; what TMARKs produced every other token stays,
and nothing else of the core changes. -/
def Obligations.AcceptedEntry : Prop :=
  ∀ (c : Core) (q : EngQ) (e : Entry),
    let d := c.accept q e
    let k := (wordTokens e.word).kp
    d.queue q = { c.queue q with es := (c.queue q).es ++ [e], seq := ((c.queue q).seq + 1) % 2 ^ 32 } ∧
    (∀ p, p ≠ q → d.queue p = c.queue p) ∧
    (∀ t, d.tokSet t = (c.tokSet t && (t ≠ k || k = 63))) ∧
    (k ≠ 63 → tget 0 d.tmarks k = 0 ∧ ∀ j, j ≠ k → tget 0 d.tmarks j = tget 0 c.tmarks j) ∧ (k = 63 → d.tmarks = c.tmarks) ∧
    d = { c with tq := d.tq, cq := d.cq, gq := d.gq, bq := d.bq, clearTok := d.clearTok, tmarks := d.tmarks }

/-- R84, R316-R335, R349-R357, R375-R382: the words of the trellis, the graft and the bank engine at issue, but the collectives
and BSEED: refused in the order of R84, or accepted. BFILL's value must be a multiple of 8 as BCOPY's source is.
Rests on the model's log 36 (DEDUCED). -/
def Obligations.EngineWordsAccepted : Prop :=
  ∀ (s : State) (f : EregW) (g : EstampW), ∀ w ∈ trellisWords s f g ++ graftWords s f ++ bankWords s f, w.accepted s

/-- R264, R268, R274-R277: a copy word keeps the record of s16-s27 as it stands at issue. The checks of R268 stop it in their
order: a reserved bit of the record, the fields of step 2 (the lowest bit of those in error in XREC7), CPYT's row above 4,096 bits,
the tag's address, the nest that is no whole number of bytes with a tag, the index's alignment. CPSTAT reads no record. -/
def Obligations.CopyWordsAccepted : Prop :=
  (∀ (s : State) (f : EregW), ∀ i ∈ copyWords f,
    ({ ereg i .copy f (recordBads s i f) with keep := fun e => { e with lay := record s } } : EngineWord).accepted s) ∧
  (∀ (s : State) (f : EregW), (ereg (.cpstat f) .copy f []).accepted s)

/-- R379, R368, R374, R382, R387: a collective reads its 64-byte descriptor at issue from the core's own scratchpad; its
entry keeps the descriptor and the group's instance number, which counts on; with D in MD its vote is outstanding. BSEED
joins its group alike without a descriptor. -/
def Obligations.CollectivesAccepted : Prop :=
  (∀ (s : State) (f : EregW) (bs : List Byte), ∀ p ∈ collectives f,
    let va := (srcVal s f.a).toNat
    let ps := placesOf s s.core va 64 false
    let d := leNat bs
    let cgid := d / 2 ^ 168 % 256
    let dig := f.md.testBit 5
    let w := ereg p.2 .bank f [(decide (va % 64 ≠ 0), 0x0E, va, 0)]
    let e := (mkEntry s p.2 .bank w.srcs).joins s.core cgid bs
    p.2.wf = true → (w.issue s).ready s → ¬ w.reuses s → ¬ w.full s →
      (va % 64 ≠ 0 → stops p.2 s w.srcs 0x0E (BitVec.ofNat 64 va) 0) ∧
      (va % 64 = 0 → (ownSpad s s.core va 64).isSome → readPlaces s ps = .ok bs → descBad s.core p.1 dig d = none →
        (∀ g, s.core.group cgid = some g → f.md.testBit 6 = true → seedShipBad s.core g = none) →
        (w.issue s).does p.2 s (posted { s with core := (s.core.accept .bank e).countInstance cgid dig }
          (mkAcc s p.2 [f.a] .load 0 0 va (s.bed.btick + 3 + rampK f.ramp) ps [])))) ∧
  (∀ (s : State) (f : EregW) (g : CGroup),
    let a := (srcVal s f.a).toNat
    let w := ereg (.bseed f) .bank f []
    let e := (mkEntry s (.bseed f) .bank w.srcs).joins s.core a []
    (Instr.bseed f).wf = true → (w.issue s).ready s → ¬ w.reuses s → ¬ w.full s →
      (a < 256 → s.core.group a = some g → seedShipBad s.core g = none →
        (w.issue s).does (.bseed f) s { s with core := (s.core.accept .bank e).countInstance a false }) ∧
      (s.core.group (a % 256) = none → stops (.bseed f) s w.srcs 0x02 0 0))

/-- R46, R47, R54-R56, R309, R316, R317, R323-R330, R336: what a trellis entry that has run its duration does, where no code word is
in error: TFETCH fills the slot with the bits of its source rows, in row or column order, zeros beside them; TLOADW loads the
shadow plane; a product adds into its tile, cleared first where z says so; a drain writes each element converted, to the
scratchpad, a vector register or as bit planes, folds what it wrote into AMAX and clears where it says so; ANORM shifts a tile
and counts the shift in the exponents. Each is charged as R336 says. A TFETCH of a shape that R316 does not allow (in row order a
number of columns that is no multiple of 8, in column order one other than 128, or rows that are no multiple of 8) moves nothing: it
ends as it starts in 0x12 with XREC7 = 3 (R337), its slot and handle as they were. -/
def Obligations.TrellisMoves : Prop :=
  (∀ (s : State) (n : Nat) (e : Entry) (f : EregW),
    let c := getCore s n
    let bt := (bedOf s n).btick
    let (rows, cols) := (e.b.toNat % 128 + 1, e.b.toNat / 2 ^ 8 % 128 + 1)
    canStart c .trellis e → e.stamp = 0 → e.t + 1 ≤ bt → c.tq.next ≤ bt → c.run ≠ .ended →
      c.handle (f.md / 16 % 32) = .filling → f.md / 2 % 8 ≠ 0 →
      (e.i = .tfetchRow f ∧ cols % 8 ≠ 0) ∨ (e.i = .tfetchCol f ∧ (cols ≠ 128 ∨ rows % 8 ≠ 0)) →
        ∃ d, exec (.trellisEntryStart n) s = .next (setCore s d) ∧ failed s n .trellis e [{ entryFault .trellis e with
          code := 0x12, addr := 0, detail := 3 }] 0 0 c d) ∧
  (∀ (s : State) (n : Nat) (e : Entry) (f : EregW) (g : EstampW) (p : Nat → Nat),
    let c := getCore s n
    let md := f.md
    let (a, b) := (e.a.toNat, e.b.toNat)
    let ends := exec (.trellisEntryCompletion n) s
    let bit (h i r j : Nat) : Nat := (tget (0 : Byte) c.slots (16384 * h + 2048 * i + 16 * r + j / 8)).toNat / 2 ^ (j % 8) % 2
    c.tq.es.head? = some e → e.ph = .running → e.dur ≤ e.pos → e.out = [] → e.posted = 0 → e.shown = 0 → e.desc = [] → c.bad = [] →
    s.ecc = [] →
      (let (np, h) := (md / 2 % 8 + 1, md / 16 % 32)
       let (rows, cols, rp, pp) := (b % 128 + 1, b / 2 ^ 8 % 128 + 1, b / 2 ^ 16 % 2 ^ 16, b / 2 ^ 32 % 2 ^ 16)
       let source (i r j : Nat) : Nat := (rd8 s.mem (p (i * rows + r) + j / 8)).toNat / 2 ^ (j % 8) % 2
       let fetched (slot : Nat → Nat → Nat → Nat) : Prop := ∃ d, ends = .next (setCore s d) ∧
         completed s n .trellis e 131072 (2 * np * rows * cols) (Core.setHandle { c with slots := d.slots } h .full) d ∧
         (∀ k < 32, k ≠ h → ∀ o < 16384, tget 0 d.slots (16384 * k + o) = tget 0 c.slots (16384 * k + o)) ∧
         ∀ i r j, i < 8 → r < 128 → j < 128 → d.slotBit h i r j = slot i r j
       (∀ i r, i < np → r < rows → plainAt s c ((a + 16 * (i * pp + r * rp)) % 2 ^ 64) (cols / 8) false (p (i * rows + r))) →
         (e.i = .tfetchRow f → cols % 8 = 0 →
           fetched fun i r j => if i < np ∧ r < rows ∧ j < cols then source i r j else 0) ∧
         (e.i = .tfetchCol f → cols = 128 → fetched fun i r j => if i < np ∧ j < rows then source i j r else 0)) ∧
      (e.i = .tloadw f →
        let (np, h, sp) := (md / 2 % 8 + 1, md / 16 % 32, md.testBit 0)
        let all := if sp then 8192 * np + 16384 else 16384 * np
        ∃ d, ends = .next (setCore s d) ∧ completed s n .trellis e all (2 * all) { c with shd := d.shd } d ∧
          d.shd.np = np ∧ d.shd.sp = sp ∧
          ∀ o < 16384, tget (0 : Byte) d.shd.w o =
            if (if sp then o < 1024 * np ∨ (8192 ≤ o ∧ o < 10240) else o < 2048 * np) then tget 0 c.slots (16384 * h + o) else 0) ∧
      (e.i = .tmac g ∨ e.i = .tmacb g →
        let (na, nb, z, t) := (g.opf / 32 % 8 + 1, g.opf / 4 % 8 + 1, g.opf.testBit 1, g.opf / 256 % 4)
        let lane := decide (e.i = .tmacb g ∧ n % 2 = 1)
        let q := getCore s (n - 1)
        let rows : Tab Byte := (q.lane.getD ([], [])).1
        let abit (i r j : Nat) : Nat := if lane then (tget (0 : Byte) rows (2048 * i + 16 * r + j / 8)).toNat / 2 ^ (j % 8) % 2
          else bit (g.opf / 2 ^ 10 % 32) i r j
        let t0 : Tile := if z then { el := [], exp := [], sat := false } else c.tile t
        let r := macTile t0 abit c.act na nb (na * nb)
        let s1 := if lane then setCore s { q with lane := none } else s
        (lane = true → q.num = n - 1 ∧ (q.lane.getD ([], [])).2 = []) →
          ∃ d, ends = .next (setCore s1 d) ∧ (∀ u < 4, u ≠ t → d.tile u = c.tile u) ∧ (d.tile t).exp = t0.exp ∧
            (d.tile t).sat = (t0.sat || decide (r.2 ≠ 0)) ∧
            (∀ m j, m < 128 → j < 128 → (d.tile t).get m j = r.1.get m j) ∧
            completed s n .trellis e ((if z then 656385 else 0) + 40 * r.2) ((if c.act.sp then 2 ^ 20 else 2 ^ 21) * na * nb)
              { c with tiles := d.tiles } d) ∧
      (let t := md % 4
       let x (r j : Nat) : Int := (c.tile t).get r j * 2 ^ (c.tile t).ex r
       let int (w : Nat) (y : Int) : Nat := (clampTo w y % 2 ^ w).toNat
       let fp := md.testBit 2
       let wide (r j : Nat) : Nat := if fp then packF 3 0 0 false (ofIntF (x r j)) else int 32 (x r j)
       let drained (rows cols : List Nat) (fmt w cells data : Nat) (clr clamps : Bool) (val : Nat → Nat → Nat) (d c1 : Core) : Prop :=
         let size := w * rows.length * cols.length
         let gone := if clr then 40 * rows.length * cols.length else 0
         (∀ u < 4, u ≠ t → d.tile u = c.tile u) ∧ (d.tile t).exp = (c.tile t).exp ∧ (d.tile t).sat = ((c.tile t).sat || clamps) ∧
         (∀ r j, r < 128 → j < 128 → (d.tile t).get r j = if clr = true ∧ r ∈ rows ∧ j ∈ cols then 0 else (c.tile t).get r j) ∧
         d.amax = amaxWith fmt c.amax (rows.flatMap (fun r => cols.map (val r))) ∧
         completed s n .trellis e (cells + gone) (2 * size)
           { c1 with tiles := d.tiles, amax := d.amax, ebits := c.ebits + data, ej := c.ej + 2600 * data } d
       let all := List.range 128
       let clampsAt (rows cols : List Nat) (w sh : Nat) : Bool :=
         rows.any (fun r => cols.any (fun j => decide (clampTo w (x r j / 2 ^ sh) ≠ x r j / 2 ^ sh)))
       (e.i = .tdrain f → (∀ r < 128, plainAt s c ((a + r * b) % 2 ^ 64) 512 true (p r)) → ∃ d m, ends = .next { setCore s d with mem := m } ∧
         drained all all (if fp then 3 else 2) 32 524288 0 (md.testBit 3) (!fp && clampsAt all all 32 0) wide d c ∧
         rd8 m = all.foldl (fun h r => all.foldl (fun h j => laid h (p r + 4 * j) 4 (wide r j)) h) (rd8 s.mem)) ∧
       (e.i = .tdrainVec f →
         let (lo, cb, vr) := (a % 128, a / 256 % 8, a / 2 ^ 16 % 32)
         let rows := List.range' lo 64
         let cols := List.range' (16 * cb) 16
         lo + 64 ≤ 128 → ∃ d, ends = .next (setCore s d) ∧
           drained rows cols (if fp then 3 else 2) 32 0 32768 (md.testBit 3) (!fp && clampsAt rows cols 32 0) wide d
             { c with v := d.v, reserved := c.reserved.erase vr } ∧
           ∀ v r j, v < 32 → r < 64 → j < 16 → tget (0 : Cont) d.v (1024 * v + 64 * j + r) =
             if v = vr then BitVec.ofNat 32 (wide (lo + r) (16 * cb + j)) else tget 0 c.v (1024 * v + 64 * j + r)) ∧
       (e.i = .tdrainb f →
         let sh := md / 8 % 64
         let v (r j : Nat) : Nat := int 8 (x r j / 2 ^ sh)
         (∀ i r, i < 8 → r < 128 → plainAt s c ((a + 2048 * i + 16 * r) % 2 ^ 64) 16 true (p (8 * r + i))) →
           ∃ d m, ends = .next { setCore s d with mem := m } ∧
             drained all all 0 8 131072 0 (md.testBit 2) (clampsAt all all 8 sh) v d c ∧
             rd8 m = all.foldl (fun h r => (List.range 8).foldl (fun h i => laid h (p (8 * r + i)) 16
               ((List.range 128).map (fun j => v r j / 2 ^ (7 - i) % 2 * 2 ^ j)).sum) h) (rd8 s.mem))) ∧
      (e.i = .anorm f →
        let (t, sh) := (md % 4, md / 4 % 16)
        ∃ d, ends = .next (setCore s d) ∧ completed s n .trellis e (16384 * sh) 655360 { c with tiles := d.tiles } d ∧
          (∀ u < 4, u ≠ t → d.tile u = c.tile u) ∧
          (d.tile t).sat = ((c.tile t).sat || (List.range 128).any (fun r => decide (255 < (c.tile t).ex r + sh ∧ sh ≠ 0))) ∧
          ∀ r j, r < 128 → j < 128 → (d.tile t).get r j = (c.tile t).get r j / 2 ^ sh ∧
            (d.tile t).ex r = (if sh = 0 then (c.tile t).ex r else min 255 ((c.tile t).ex r + sh))))

/-- R345-R348, R351-R358, R361: what graft entries do. GLOAD and GSTORE move a batch row of the boundary at a step, BF16 widened or
rounded; a contraction's handle drains as it starts, and once its batch rows are through it commits: every element of B' is the
sum of R345 over the bond, then the summed index, from +0, each product and sum rounded to FP32, and the free modes and the bond
are those of R346. GSETM, GSETB and GCLR set their registers, a GSETM that changes the element count ends in 0x15. Each is
charged as R358 says. -/
def Obligations.GraftMoves : Prop :=
  (∀ (s : State) (n : Nat) (e : Entry) (f : EregW) (p : Nat → Nat),
    let c := getCore s n
    let bf := f.md.testBit 0
    let sz := if bf then 2 else 4
    let b := e.b.toNat
    let g : Graft := if e.ph = .waiting ∧ e.i = .gload f then
      { c.graft with bnd := [], empty := false, batch := b % 2 ^ 12, bd := b / 2 ^ 16 % 2 ^ 12 } else c.graft
    let row := batchRow g
    let whole := (g.batch + 1) * row
    let last := (e.pos / row + 1) * row
    let out : List Word := if f.md.testBit 8 then [BitVec.ofNat 64 e.seq] else []
    let e1 : Entry := { begun s n e with pos := last }
    let goes (d : Core) : State := stepped s n .graft d e1 (decide (whole ≤ last)) out
    let plain (wr : Bool) : Prop := ∀ k, e.pos ≤ k → k < last → plainAt s c ((e.a.toNat + sz * k) % 2 ^ 64) sz wr (p k)
    steps s n .graft e → s.ecc = [] → c.bad = [] →
      (e.i = .gload f → g.empty = false → e.pos < whole → 4 * whole ≤ 4096 * g.gres → plain false →
        ∃ x, exec (.engineEntryStart n .graft) s = .next (goes { c with graft := { g with bnd := x } }) ∧
          ∀ k, tget 0 x k = if e.pos ≤ k ∧ k < last then
            (let v := leNat (rdN s.mem (p k) sz); BitVec.ofNat 32 (if bf then widened v else v)) else tget 0 g.bnd k) ∧
      (e.i = .gstore f → g.empty = false → e.pos < whole → plain true →
        ∃ m, exec (.engineEntryStart n .graft) s = .next { goes c with mem := m } ∧
          rd8 m = (List.range' e.pos (last - e.pos)).foldl (fun h k =>
            let v := (tget 0 g.bnd k).toNat; laid h (p k) sz (if bf then narrowed v else v)) (rd8 s.mem)) ∧
      (e.i = .gstore f → g.empty = true →
        exec (.engineEntryStart n .graft) s = .next (stepped s n .graft c (begun s n e) true out)) ∧
      (∀ op, graftOp e.i = some op → e.pos ≤ c.graft.batch →
        (e.ph = .waiting → c.handle op.h ≠ .filling ∧ graftCheck c e = none) →
          let c1 := if e.ph = .waiting then c.setHandle op.h .draining else c
          exec (.engineEntryStart n .graft) s = .next (stepped s n .graft c1 { begun s n e with
            pos := e.pos + 1, shown := if e.ph = .waiting then (if c.handle op.h = .full then 1 else 0) else e.shown }
            (decide (e.pos = c.graft.batch)) (if op.stat then [BitVec.ofNat 64 e.seq] else []))) ∧
      (e.i ∈ [.gsetb f, .gclr f] →
        exec (.engineEntryStart n .graft) s = .next (stepped s n .graft c (begun s n e) true out)) ∧
      (e.i = .gsetm f → c.run ≠ .ended →
        let q := f.md % 4
        let size (m : Nat) : Nat := (if 4 * q ≤ m ∧ m < 4 * q + 4 then e.a.toNat / 2 ^ (16 * (m - 4 * q)) % 2 ^ 16 else tget 0 g.gm m) + 1
        let now := (g.batch + 1) * ((List.range (f.md / 4 % 32)).map size).prod * (g.bd + 1)
        (g.empty = true ∨ now = whole →
          exec (.engineEntryStart n .graft) s = .next (stepped s n .graft c (begun s n e) true out)) ∧
        (g.empty = false → now ≠ whole →
          let h := endedAs (begun s n e) 0x15 0 5 (if f.md.testBit 8 then [BitVec.ofNat 64 (e.seq + 0x15 * 2 ^ 32)] else [])
          exec (.engineEntryStart n .graft) s = .next { setCore s ((c.setHead .graft h).addPending (entryFault .graft h)) with
            lsc := unlogged s n .graft e }))) ∧
  (∀ (s : State) (n : Nat) (e : Entry) (f : EregW),
    let c := getCore s n
    let g := c.graft
    let a := e.a.toNat
    let done (cells work : Nat) (h : Graft) (bad : List Mark) : Prop := ∃ d,
      exec (.engineEntryCompletion n .graft) s = .next (setCore s d) ∧ d.graft = h ∧
        completed s n .graft e cells work { c with graft := h, bad := bad } d
    let clean := c.bad.filter (fun m => match m with | .bnd _ => false | _ => true)
    c.gq.es.head? = some e → e.ph = .pushing → e.out = [] → e.code = 0 →
      (e.i = .gload f → done (32 * e.pos) (64 * e.pos) g c.bad) ∧
      (e.i = .gstore f → done ((if f.md.testBit 0 then 16 else 32) * e.pos) (64 * e.pos) g c.bad) ∧
      (e.i = .gsetm f → ∃ gm, done 69 69 { g with gm := gm, nf := f.md / 4 % 32 } c.bad ∧
        let q := f.md % 4
        ∀ m, tget 0 gm m = if 4 * q ≤ m ∧ m < 4 * q + 4 then a / 2 ^ (16 * (m - 4 * q)) % 2 ^ 16 else tget 0 g.gm m) ∧
      (e.i = .gsetb f → ∃ bonds, done 48 48 { g with bonds := bonds } c.bad ∧
        let q := f.md % 2
        ∀ m, tget 0 bonds m = if 4 * q ≤ m ∧ m < 4 * q + 4 then a / 2 ^ (16 * (m - 4 * q)) % 2 ^ 12 else tget 0 g.bonds m) ∧
      (e.i = .gclr f →
        let used := if g.empty then 0 else (g.batch + 1) * batchRow g
        done (32 * used) (32 * used) { g with bnd := [], empty := true, nf := 0 } clean) ∧
      (∀ op, graftOp e.i = some op →
        let (din, nk, dout, ok) := (bits a 0 12 + 1, bits a 24 16 + 1, bits a 12 12 + 1, bits a 40 12 + 1)
        let (dc, dn) := if op.right then (dout, din) else (din, dout)
        let (takes, appends, i, o) := match op.mode with
          | 0 => (false, true, 1, nk) | 1 => (true, false, nk, 1) | 2 => (true, true, nk / ok, ok) | _ => (false, false, 1, 1)
        let lo := if takes then 1 else 0
        let rest := ((List.range g.nf).map (fun m => if lo ≤ m then tget 0 g.gm m + 1 else 1)).prod
        let left := if takes then g.nf - 1 else g.nf
        let size := (g.batch + 1) * rest * o * dn
        let core (b p z : Nat) : Nat :=
          let at_ := 2 * (if op.right then (z * nk + p) * dout + b else (b * nk + p) * dout + z)
          c.slotByte op.h at_ + 256 * c.slotByte op.h (at_ + 1)
        let old (b r j x : Nat) : Nat :=
          (tget 0 g.bnd (if takes then ((b * i + j) * rest + r) * dc + x else (b * rest + r) * dc + x)).toNat
        ∃ bnd gm, done (32 * size) (64 * (size * dc * i) + 64 * size)
            { g with bnd := bnd, gm := gm, bd := dn - 1, nf := left + if appends then 1 else 0 } clean ∧
          (∀ m, tget 0 gm m = if appends ∧ m = left then o - 1
            else if takes ∧ m + 1 < g.nf then tget 0 g.gm (m + 1) else tget 0 g.gm m) ∧
          ∀ b r y z, b ≤ g.batch → r < rest → y < o → z < dn →
            tget 0 bnd (((b * rest + r) * o + y) * dn + z) = BitVec.ofNat 32 ((List.range dc).foldl (fun acc x =>
              (List.range i).foldl (fun acc j => fadd32 acc (packF 3 0 0 false
                (mulF (unpackF 4 (narrowed (old b r j x))) (unpackF 4 (core x (j * o + y) z))))) acc) 0)))

/-- R370, R377, R378, R380, R381: what bank entries do once they run. BCOPY reads and writes word by word; BRED reads and reduces
every element before it writes the first; BDIG's lanes are the sums of R370, written at C or pushed; BATOM makes the word at its
address R75's new one and keeps the old. Each entry then stands at its end with its words to push, its charges those of R383.
Rests on the model's log 36 (DEDUCED). -/
def Obligations.BankMoves : Prop :=
  (∀ (s : State) (n : Nat) (e : Entry) (f : EregW) (ps pd : Nat → Nat),
    let c := getCore s n
    let (a, b, z) := (e.a.toNat, e.b.toNat, e.c.toNat)
    let stat (k : Nat) : List Word := if f.md.testBit k then [BitVec.ofNat 64 e.seq] else []
    let goes (e1 : Entry) (out : List Word) : State := stepped s n .bank c e1 true out
    let wordAt (p : Nat) : Nat := leNat (rdN s.mem p 8)
    let e0 := begun s n e
    steps s n .bank e → s.ecc = [] → e.pos = 0 → e.cap = [] →
      (e.i = .bcopy f →
        let k := z / 8
        (∀ j < k, plainAt s c ((b + 8 * j) % 2 ^ 64) 8 false (ps j) ∧ plainAt s c ((a + 8 * j) % 2 ^ 64) 8 true (pd j)) →
          ∃ m, exec (.engineEntryStart n .bank) s =
              .next { goes { e0 with pos := k, bits := e.bits + 64 * k, work := e.work + 128 * k } (stat 3) with mem := m } ∧
            rd8 m = (List.range k).foldl (fun h j => laid h (pd j) 8 (leNat ((List.range 8).map (fun i => h (ps j + i))))) (rd8 s.mem)) ∧
      (e.i = .bred f →
        let (nel, nsrc, fmt) := (z % 2 ^ 32, z / 2 ^ 32 % 256 + 1, f.md / 8 % 8)
        let es := if fmt = 4 then 2 else 4
        let el (x j : Nat) : Nat := leNat (rdN s.mem (ps (x * nel + j)) es)
        let res (j : Nat) : Nat := (List.range' 1 (nsrc - 1)).foldl (fun acc x => redOp (f.md % 8) fmt acc (el x j)) (el 0 j)
        (∀ j < nsrc * nel, plainAt s c ((b + es * j) % 2 ^ 64) es false (ps j)) →
        (∀ j < nel, plainAt s c ((a + es * j) % 2 ^ 64) es true (pd j)) →
          ∃ m, exec (.engineEntryStart n .bank) s = .next { goes { e0 with
              pos := 2 * nel, cap := (List.range nel).map (fun j => BitVec.ofNat 64 (res j)), bits := e.bits + 8 * es * nel
              work := e.work + 8 * es * nel * (2 * nsrc) } [] with mem := m } ∧
            rd8 m = (List.range nel).foldl (fun h j => laid h (pd j) es (res j)) (rd8 s.mem)) ∧
      (e.i = .bdig f →
        let k := b / 8
        let l := lanes k (fun j => BitVec.ofNat 64 (wordAt (ps j)))
        let e1 : Entry := { e0 with cap := if k = 0 then [] else l, work := e.work + 16 * k }
        (∀ j < k, plainAt s c ((a + 8 * j) % 2 ^ 64) 8 false (ps j)) →
          (f.c = 0 → exec (.engineEntryStart n .bank) s = .next (goes { e1 with pos := k } (l ++ stat 0))) ∧
          (f.c ≠ 0 → plainAt s c z 16 true (pd 0) → ∃ m,
            exec (.engineEntryStart n .bank) s = .next { goes { e1 with pos := k + 1, bits := 128 } (stat 0) with mem := m } ∧
              rd8 m = laid (laid (rd8 s.mem) (pd 0) 8 (l.getD 0 0).toNat) (pd 0 + 8) 8 (l.getD 1 0).toNat)) ∧
      (∀ op, batomOp e.i = some op → (op, e.i) ∈ batoms f →
        let len := if op = .fadd then 4 else 8
        let pa := pd 0
        let old := leNat (rdN s.mem pa len)
        let new := atomNew op (BitVec.ofNat 64 old) e.b e.c
        plainAt s c a len true pa →
          ∃ m, exec (.engineEntryStart n .bank) s = .next { goes { e0 with
              pos := 1, cap := [BitVec.ofNat 64 old], work := 128
              bits := if op = .cas then (if new.isSome then 64 else 0) else atomCells op }
              ((if f.md.testBit 7 then [BitVec.ofNat 64 old] else []) ++ stat 8) with mem := m } ∧
            rd8 m = match new with | some v => laid (rd8 s.mem) pa len v.toNat | none => rd8 s.mem)) ∧
  (∀ (a b fmt : Nat), a < 2 ^ 32 → b < 2 ^ 32 →
    redOp 0 2 a b = (a + b) % 2 ^ 32 ∧ redOp 1 2 a b = (if sgn 32 a ≤ sgn 32 b then a else b) ∧
    redOp 2 2 a b = (if sgn 32 a ≤ sgn 32 b then b else a) ∧
    redOp 3 fmt a b = (a &&& b) ∧ redOp 4 fmt a b = (a ||| b) ∧ redOp 5 fmt a b = (a ^^^ b) ∧ redOp 0 3 a b = fadd32 a b)

/-- R269-R276, R278: a copy entry moves the elements of a row one after another, CPYT a row whole before any is written: the
source's bits, FILL beyond a limit, reversed where REV says so, replace the destination's, are xored into them, or change places
with them, in memory or a slot, at the addresses of the nest or of the row's index, swizzled where the record says so; no other
byte changes. An entry that has come to its end is charged as R278 says, and its slot is full unless HOLD keeps it.
Rests on the model's log 31 (DEDUCED). -/
def Obligations.CopyMoves : Prop :=
  (∀ (s : State) (n : Nat) (e : Entry) (f : EregW) (idx : Nat) (ps pd : Nat → Nat),
    let c := getCore s n
    let r := e.recNat
    let w := widthOf r
    let bit := r.testBit 692
    let dh := r.testBit 700
    let (swp, cpyt, gath, scat) := match e.i with
      | .cpswp _ => (true, false, false, false) | .cpyt _ => (false, true, false, false)
      | .cpgath _ => (false, false, true, false) | .cpscat _ => (false, false, false, true) | _ => (false, false, false, false)
    let n8 := if bit then 1 else w / 8
    let cnt := bits r 0 16 + 1
    let all := ((List.range 6).map (fun d => bits r (16 * d) 16 + 1)).prod
    let last := (e.pos / cnt + 1) * cnt
    let ks := List.range' e.pos (last - e.pos)
    let source (k : Nat) : Nat := address r (bits r 512 64) 128 k (if gath then some idx else none)
    let target (k : Nat) : Nat := address r (if dh then 0 else bits r 576 64) 320 k (if scat then some idx else none)
    let byte (x : Nat) : Nat := if bit then x / 8 else x
    let first (x : Nat) : Nat := if bit then x % 8 else 0
    let src (k : Nat) := memBytes r (ps k) n8 (r.testBit 702)
    let dst (k : Nat) := if dh then (List.range n8).map (fun j => (true, 16384 * bits r 576 5 + byte (target k) + j))
      else memBytes r (pd k) n8 (r.testBit 703)
    let f0 := bytesOf s.mem c.slots
    let e1 : Entry := { begun s n e with pos := last, cap := if cpyt then e.cap else [] }
    e.i ∈ copyWords f → steps s n .copy e → (e.ph = .waiting → copyCheck c e = none) → e.pos < all → owesPosting e = false →
    s.ecc = [] → c.bad = [] → (bit = true → w = 1) → (cpyt = true → e.pos % cnt = 0) →
    ((gath || scat) = true → (∃ v l, e.cap = v :: l ∧ idx = v.toNat) ∨
      (e.cap = [] ∧ ∃ p, plainAt s c ((e.b.toNat + 4 * (e.pos / cnt)) % 2 ^ 64) 4 false p ∧
        idx = bitsAt f0 (memBytes r p 4 (r.testBit 702)) 0 32)) →
    (∀ k ∈ ks, (swp = true ∨ filled e.i r k = false → plainAt s c (byte (source k)) n8 swp (ps k)) ∧
      (dh = false → plainAt s c (byte (target k)) n8 true (pd k)) ∧ ∀ x ∈ src k ++ dst k, x.1 = false → mcHolds s x.2 1 = false) →
      ∃ m sl, exec (.engineEntryStart n .copy) s = .next { stepped s n .copy { c with slots := sl } e1
          (decide (f.a = 0 ∧ all ≤ last)) (if f.md.testBit 0 then [BitVec.ofNat 64 (e.seq + if e.parks = 0 then 0 else 2 ^ 40)] else [])
          with mem := m } ∧
        bytesOf m sl = ks.foldl (fun g k => copied e.i r w k (src k) (dst k) (first (source k)) (first (target k))
          (if cpyt then f0 else g) g) f0) ∧
  (∀ (s : State) (n : Nat) (e : Entry) (f : EregW),
    let c := getCore s n
    let hold := match e.i with | .cpscat _ | .cpswp _ => false | _ => f.md.testBit 1
    let c1 := if e.recNat.testBit 700 && !hold then c.setHandle (bits e.recNat 576 5) .full else c
    c.cq.es.head? = some e → e.i ∈ copyWords f → e.ph = .pushing → e.out = [] →
      (e.code = 0 → ∃ d, exec (.engineEntryCompletion n .copy) s = .next (setCore s d) ∧
        completed s n .copy e (copyCosts e).1 (copyCosts e).2 c1 d) ∧
      (e.code ≠ 0 → ∃ d, exec (.engineEntryCompletion n .copy) s = .next (setCore s d) ∧
        failed s n .copy e [] (copyCosts e).1 (copyCosts e).2 c d))

/-- R369, R371, R374, R379, R383: what a member of a collective instance does at a step, stage by stage: it reads SRC; once every
member has, each has its results, by the tree of R369 or as its kind says; it writes DST; it digests its region, the digest going
to the sieve where a vote is outstanding; a leader's fresh noise words are written to its log region, a follower's to its own; it
posts its tag. Every byte a BCOLL reads or writes is work, every DST byte written charged.
Rests on the model's log 37 (DEDUCED), log 38 (DEDUCED), log 39 (DEDUCED). -/
def Obligations.CollectiveMoves : Prop :=
  ∀ (s : State) (n : Nat) (e : Entry) (x : Coll) (g : CGroup) (p : Nat → Nat),
    let c := getCore s n
    let es := if x.fmt = 4 then 2 else 4
    let leader := g.rank / (g.n / g.nr) = 0
    let own := if x.kind = 4 then 0 else 64
    let now (d : Core) (e1 : Entry) : State := setCore s (d.setHead .bank e1)
    let full (s1 : State) (k : Nat) : Prop := stageFull s1 c.job x.cgid e.inst g.n k = true
    let plain (base step len : Nat) (wr : Bool) : Prop := ∀ j < len, plainAt s c ((base + step * j) % 2 ^ 64) step wr (p j)
    let words (v : Nat → Nat) (len : Nat) : Nat → Byte := (List.range len).foldl (fun h j => laid h (p j) 8 (v j)) (rd8 s.mem)
    c.bq.es.head? = some e → e.ph = .running → e.pos = 0 → e.coll = some x → c.group x.cgid = some g → s.ecc = [] →
      (e.shown = 2 →
        let len := match x.kind with | 0 | 2 => x.count | 1 => g.n * x.count | 3 => if g.rank = x.root then x.count else 0 | _ => 0
        let e1 : Entry := { e with
          cap := e.cap ++ (List.range len).map (fun j => BitVec.ofNat 64 (leNat (rdN s.mem (p j) es)))
          pos := len, work := e.work + 8 * es * len, shown := 3 }
        let s1 := now c e1
        plain x.src es len false →
          (¬ full s1 1 → exec (.engineEntryStart n .bank) s = .next s1) ∧
          (full s1 1 → ((s.core :: s.others).map (·.num)).Nodup → ∃ t, exec (.engineEntryStart n .bank) s = .next t ∧ t.mem = s.mem ∧
            ∀ d ∈ groupMembers s1 c.job x.cgid, ∀ h y z, collEntry d x.cgid e.inst = some h → h.coll = some y → d.group x.cgid = some z →
              let el (r i : Nat) : Nat := ((rankCap (groupMembers s1 c.job x.cgid) x.cgid e.inst r).getD i 0).toNat
              let red (j : Nat) : Nat := treeOf (redOp y.op y.fmt) z.n (fun r => el r j)
              (getCore t d.num).bq.es.head? = some { h with shown := 4, pos := 0, cap := match y.kind with
                | 0 => (List.range y.count).map (fun j => BitVec.ofNat 64 (red j))
                | 1 => (List.range y.count).map (fun j => BitVec.ofNat 64 (red (z.rank * y.count + j)))
                | 2 => (List.range (z.n * y.count)).map (fun j => BitVec.ofNat 64 (el (j / y.count) (j % y.count)))
                | 3 => (List.range y.count).map (fun j => BitVec.ofNat 64 (el y.root j))
                | _ => [] })) ∧
      (e.shown = 4 →
        let len := match x.kind with | 2 => g.n * x.count | 4 => 0 | _ => x.count
        plain x.dst es len true →
          ∃ m, exec (.engineEntryStart n .bank) s = .next { now c { e with
              pos := 0, shown := 6, cap := [0, 0], bits := e.bits + 8 * es * len, work := e.work + 8 * es * len } with mem := m } ∧
            rd8 m = (List.range len).foldl (fun h j => laid h (p j) es (e.cap.getD j 0).toNat) (rd8 s.mem)) ∧
      (e.shown = 6 → e.cap = [0, 0] →
        let len := if x.dig then x.dgLen / 8 else 0
        let l := lanes len (fun j => BitVec.ofNat 64 (leNat (rdN s.mem (p j) 8)))
        let s1 := now c { e with pos := 0, shown := 8, cap := [], work := e.work + own * len }
        plain x.dgBase 8 len false →
          exec (.engineEntryStart n .bank) s = .next (if x.dig = true ∧ (x.cgid, e.inst) ∈ c.dones then { s1 with
            digests := s.digests ++ [{
              job := c.job, cgid := g.cgid, inst := e.inst, n := g.n, nr := g.nr, rank := g.rank, lane0 := l.getD 0 0
              lane1 := l.getD 1 0, ipc := e.pc, word := e.word, seq := e.seq }] } else s1)) ∧
      (e.shown = 8 → x.seeds = true → leader → plain e.seedAddr 8 e.seedCnt true →
        let e1 : Entry := { e with
          pos := e.seedCnt, shown := 9, work := e.work + own * e.seedCnt
          cap := e.cap ++ (List.range e.seedCnt).map (fun j => Config.noiseWord n (c.noise + j)) }
        let d : Core := { c with noise := c.noise + e.seedCnt }
        ∃ t, exec (.engineEntryStart n .bank) s = .next t ∧ (getCore t n).noise = c.noise + e.seedCnt ∧
          rd8 t.mem = words (fun j => (Config.noiseWord n (c.noise + j)).toNat) e.seedCnt ∧
          (¬ full (now d e1) 4 → t = { now d e1 with mem := t.mem })) ∧
      (e.shown = 10 → x.seeds = true → ¬ leader → plain e.seedAddr 8 e.seedCnt true →
        let block := rankCap (groupMembers s c.job x.cgid) g.cgid e.inst (g.rank % (g.n / g.nr))
        let e1 : Entry := { e with pos := e.seedCnt, shown := 11, work := e.work + own * e.seedCnt }
        ∃ t, exec (.engineEntryStart n .bank) s = .next t ∧
          rd8 t.mem = words (fun j => (block.getD j 0).toNat) e.seedCnt ∧ (¬ full (now c e1) 5 → t = { now c e1 with mem := t.mem })) ∧
      (e.shown = 12 →
        let bytes := es * match x.kind with | 2 => g.n * x.count | 4 => 0 | _ => x.count
        let out := Machine.bankWords c e 0
        (x.tag = 0 → exec (.engineEntryStart n .bank) s = .next (stepped s n .bank c e true out)) ∧
        (∀ pa, x.tag ≠ 0 → x.tag % 16 = 0 → tagPlace s c x.tag = .ok pa → syncBad s pa = false → ¬ overshoots s .land pa bytes →
          ∃ m w, synced s .land pa bytes m ∧
            exec (.engineEntryStart n .bank) s = .next { stepped s n .bank c e true out with mem := m, writes := w }) ∧
        (∀ pa, x.tag ≠ 0 → x.tag % 16 = 0 → tagPlace s c x.tag = .ok pa → syncBad s pa = false → overshoots s .land pa bytes →
          c.run ≠ .ended → ∃ m w out', synced s .land pa bytes m ∧
            let h := endedAs e 0x16 x.tag bytes out'
            exec (.engineEntryStart n .bank) s = .next { setCore s ((c.setHead .bank h).addPending (entryFault .bank h)) with
              mem := m, writes := w }))

/-- R93, R290-R294, R299-R311, R431: the figures of every VREG word are those of its table: base latency, bit-operations and
erased bits per active element, allowed formats, the formats that count as 32 bits wide, whether it rounds. A VREG word that passes
its checks issues: the vector unit is occupied for k ticks, column 0 reads and is charged, and the word stands in flight for its
other columns. A crossing of EQUOTA only sets XSTAT.QP. Unless a drain runs, nothing changes but its issue, its
flight, column 0's results and what column 0's draws do to the seed stream and its log (R60-R63; VectorColumns says what a draw
does). A word that would need more words of the log than COUNT, with every element active and what earlier words still hold, raises
0x0C with XREC6 = SEEDLOG.ADDR (R63, R431).
Rests on the model's log 7 (DESIGN CHOICE), log 16 (DEDUCED), log 30 (DEDUCED, DESIGN CHOICE), log 66 (DEDUCED). -/
def Obligations.VectorWordsIssue : Prop :=
  (∀ (f : VregW), ∀ p ∈ vecTable f, vecPlan p.1 = some p.2) ∧
  ∀ (s : State) (f : VregW), ∀ w ∈ vecTable f,
    let p := w.2
    let k := rampK f.ramp
    let m := (activeIn s.core w.1 f (shapeOf s).1 0).length
    let draws : Bool := p.draws && decide (modeOf s f = 4)
    let need := drawsOfShape s p
    (w.1.wf = true → vecChecked s w.1 p → need ≠ 0 → s.core.seedctl.toNat % 8 ≠ 0 →
      s.core.seedctl.toNat / 2 ^ 32 < (need + s.core.seedHeld - s.core.seedLeft + 3) / 4 →
        stops w.1 s (vecSrcs p) 0x0C (BitVec.ofNat 64 (s.core.seedlog.toNat % 2 ^ 57)) 0) ∧
    (w.1.wf = true → vecReady s w.1 p →
      ∃ t, exec w.1 s = .next t ∧
        (let c := s.core
         let d := t.core
         d.pc = c.pc + 8 ∧ d.nextBt = s.bed.btick + 1 ∧ d.order = c.order + 1 ∧
         (∀ q < 8, d.port q = if 56 + q ∈ vecSrcs p then (c.port q).tail else c.port q) ∧
         (∀ u n, d.unitBusy n u = if u = .vec then decide (n < s.bed.btick + k) else c.unitBusy n u) ∧
         d.trap = c.trap ∧ d.xebits = c.xebits ∧
         t = { s with mem := t.mem, ecc := t.ecc, writes := t.writes, fresh := t.fresh, core := withVector c d } ∧
         (if vecLast p (shapeOf s).2 = 0 then d.vq = c.vq
          else ∃ fl, d.vq = c.vq ++ [fl] ∧ fl.i = w.1 ∧ fl.next = 1 ∧ fl.t = s.bed.btick ∧ fl.k = k ∧
            (fl.rows, fl.cols) = shapeOf s ∧ fl.rm = modeOf s f ∧ fl.resv = vecKeys s w.1 p ∧
            fl.sa = (if p.kind = .movs then srcVal s f.sa else 0)) ∧
         (s.core.drain = none →
           let a := if draws then drawn s c.num c.order (drawsIn p m) else s
           let g := a.core
           t.mem = a.mem ∧ t.ecc = a.ecc ∧ t.writes = a.writes ∧ t.fresh = a.fresh ∧ d.v = c.v ∧ d.tq = c.tq ∧
           d.nextAcc = g.nextAcc ∧ d.seedWord = g.seedWord ∧ d.seedLeft = g.seedLeft ∧ d.noise = g.noise ∧
           d.seedctl = g.seedctl ∧ d.seedlog = g.seedlog ∧
           (draws = false → d.accs = c.accs ∧ d.seedHeld = c.seedHeld) ∧
           (draws = true → (d.accs.map fun x => { x with pc := 0 }) = g.accs.map (fun x => { x with pc := 0 })) ∧ d.ebits = c.ebits + m * p.cell ∧
           d.ej = c.ej + 2600 * (m * p.cell) + (if c.view = .unit then workUnits (m * p.work) k (heat s c.num) else 0) ∧
           ∃ fl : VFlight, fl.i = w.1 ∧ fl.rows = (shapeOf s).1 ∧ fl.rm = modeOf s f ∧
             fl.sa = (if p.kind = .movs then srcVal s f.sa else 0) ∧
             d.pend = c.pend ++ (columnLands c fl p 0 (fun x => if draws then chunk s c.num c.order x else 0)).map fun l =>
               { due := s.bed.btick + p.base + k - 1, land := l, acc := 0 })))

/-- R60-R64, R93, R291, R299-R303, R307, R311, R431: column j of an element-wise, mask, container, VREDC or VMOVS word, when it acts
at t + j, puts its results in flight for t + j + b + k - 1: each active element's function of the elements read then, VREDC's
reduction of the column; the words with a cross-column or scalar result keep what the column reads until column 15. Nothing else
changes where no drain runs, but the seed stream of a word that draws: its active elements take 16 bits each by row ascending, the
least significant ones left of the word in hand. When the word's four chunks are spent the next one is noise in live mode; noise
in log mode, written at SEEDLOG.ADDR; else the word at SEEDLOG.ADDR; and in all modes but live ADDR goes on by 8 and COUNT down by 1,
the access standing in the buffer as one of class 0 and core scope, and no other byte changes. At the start of t + j the column is charged: the erased bits of its
active elements, their work at the word's ramp (R163; of a unit's word alone), and with column 15 the scalar result's, a handler's
to XEBITS.
Rests on the model's log 7 (DESIGN CHOICE), log 16 (DEDUCED), log 30 (DEDUCED, DESIGN CHOICE), log 74 (DEDUCED). -/
def Obligations.VectorColumns : Prop :=
  (∀ (s : State) (n order pa : Nat),
    let c := getCore s n
    let mode := c.seedctl.toNat % 8
    let addr := c.seedlog.toNat % 2 ^ 57
    let fresh := Config.noiseWord n c.noise
    let kept := leNat (rdN s.mem pa 8)
    let took (c : Core) (w : Word) : Core := { c with seedWord := w >>> 16, seedLeft := 3 }
    let logged (a : Access) : Core := { c with
      seedlog := BitVec.ofNat 64 ((addr + 8) % 2 ^ 57), seedctl := c.seedctl - BitVec.ofNat 64 (2 ^ 32)
      accs := c.accs ++ [a], nextAcc := c.nextAcc + 1 }
    let stands (a : Access) (kind : AccKind) : Prop := a.id = c.nextAcc ∧ a.kind = kind ∧ a.cls = 0 ∧ a.sc = 0 ∧ a.word = 0 ∧
      a.order = order ∧ a.left = false ∧ a.runs = (List.range 8).map (fun i => (pa + i, 1))
    (c.seedLeft ≠ 0 → drawSeed s n order =
      (setCore s { c with seedWord := c.seedWord >>> 16, seedLeft := c.seedLeft - 1 }, c.seedWord.toNat % 2 ^ 16)) ∧
    (c.seedLeft = 0 →
      (mode = 0 → drawSeed s n order = (setCore s (took { c with noise := c.noise + 1 } fresh), fresh.toNat % 2 ^ 16)) ∧
      (c.seedctl.toNat / 2 ^ 32 ≠ 0 → s.ecc = [] →
        (mode = 1 → plainAt s c addr 8 true pa → ∃ a m k, stands a .store ∧
          drawSeed s n order = ({ setCore s (took { logged a with noise := c.noise + 1 } fresh) with mem := m, writes := k },
            fresh.toNat % 2 ^ 16) ∧ rd8 m = laid (rd8 s.mem) pa 8 fresh.toNat) ∧
        (2 ≤ mode → mode ≤ 4 → plainAt s c addr 8 false pa → ∃ a, stands a .load ∧
          drawSeed s n order = (setCore s (took (logged a) (BitVec.ofNat 64 kept)), kept % 2 ^ 16))))) ∧
  ∀ (s : State) (n j : Nat) (fl : VFlight) (f : VregW) (p : VPlan), (fl.i, p) ∈ vecTable f →
    let c := getCore s n
    let draws : Bool := p.draws && decide (fl.rm = 4)
    let m := (activeIn c fl.i f fl.rows j).length
    let after := if draws then drawn s n fl.order (drawsIn p m) else s
    let rb (x : Nat) : Nat := if draws then chunk s n fl.order x else 0
    (j < fl.cols → c.drain = none →
      (p.kind ∈ [VKind.elem, .mask, .mbits, .cont, .movs, .colred] → ∃ h, (draws = false → h = 0) ∧
        (vecCol s n fl j).1 = modCore after n (fun d => { d with
          seedHeld := d.seedHeld - h
          pend := d.pend ++ (columnLands c fl p j rb).map fun l => { due := fl.t + j + p.base + fl.k - 1, land := l, acc := 0 } }) ∧
        (vecCol s n fl j).2 = { fl with next := j + 1 }) ∧
      (p.kind ∈ [VKind.cross, .scalar] → j < 15 →
        (vecCol s n fl j).1 = modCore s n (fun c => c) ∧
        (vecCol s n fl j).2 = { fl with
          next := j + 1
          act := fl.act ++ (activeIn c fl.i f fl.rows j).map (fun r => 128 * j + r)
          cap := fl.cap ++ (List.range fl.rows).map (fun r => (128 * j + r, match fl.i with
            | .vpany _ => if c.mbit f.va r j then 1 else 0
            | .vrot _ => BitVec.ofNat 32 (c.vcont f.vd f.fmt r j)
            | _ => BitVec.ofNat 32 (c.vcont f.va f.fmt r j))) })) ∧
    (let m := if j < fl.cols then (activeIn c fl.i f fl.rows j).length else 0
     let last := j = 15 ∧ p.kind = .scalar
     let kept : Nat := if last ∧ fl.i ∈ [.vamax f, .vamaxClr f] then 64 else 0
     let put : Nat := if last ∧ isPort f.sa = false ∧ ¬ (f.sa = 0 ∧ fl.i ∈ [.vamax f, .vamaxClr f]) then 64 else 0
     let bits := m * p.cell + kept + (if fl.sys then 0 else put)
     c.num = n → vecCharge s n fl j = setCore s { c with
       ebits := c.ebits + bits
       xebits := c.xebits + (if fl.sys then put else 0)
       ej := c.ej + 2600 * bits + (if fl.sys then 0 else workUnits (m * p.work) fl.k (heat s n))
       qp := c.qp || (decide (c.equota ≠ 0) && decide (c.ebits < c.equota.toNat) && decide (c.equota.toNat ≤ c.ebits + bits)) }) ∧
    (∀ b, c.vq = [fl] → fl.t < b → b ≤ fl.t + 15 → vecCharges s n b = vecCharge s n fl (b - fl.t))

/-- R299-R302: the element-wise functions on INT8, INT16 and INT32 under .wrap and .sat. -/
def Obligations.IntegerElements : Prop :=
  ∀ (f : VregW) (rm rb : Nat) (sel : Bool), f.fmt ≤ 2 → rm ≤ 1 →
    let w := [8, 16, 32].getD f.fmt 32
    ∀ (a b c : BitVec w), f.imm % 32 < w →
      ∀ p ∈ intFns f w rm a b c sel, vecFn p.1 f rm rb a.toNat b.toNat c.toNat sel = p.2.toNat

/-- R49, R50, R57, R299, R301, R302: a value that a format holds rounds to itself in every mode; a NaN becomes the canonical NaN; a
NaN operand makes a sum, product or fused sum the canonical NaN. Minimum and maximum give one of their operands, -0 below +0, or
the canonical NaN; comparisons with a NaN give 0; VABS and VNEG change the sign bit alone; VCLASS tells the class. E8 elements
compare as unsigned numbers; the bitwise words and VSEL take the bits as they are. -/
def Obligations.FloatRoundTrip : Prop :=
  (∀ (f rm rb v : Nat), flt f = true → rm ≤ 4 → v < 2 ^ fmtBits f →
    (unpackF f v ≠ .nan → packF f rm rb false (unpackF f v) = v) ∧
    (unpackF f v = .nan → packF f rm rb false (unpackF f v) = canonNan f ∧
      ∀ (g : VregW) (x y : Nat), g.fmt = f → vecFn (.vadd g) g rm rb v x y false = canonNan f ∧
        vecFn (.vsub g) g rm rb x v y false = canonNan f ∧ vecFn (.vmul g) g rm rb x v y false = canonNan f ∧
        vecFn (.vfma g) g rm rb x y v false = canonNan f)) ∧
  (∀ (f : VregW) (rm rb a b c : Nat) (sel : Bool),
    let fn (i : Instr) : Nat := vecFn i f rm rb a b c sel
    let x := valOf f.fmt a
    let y := valOf f.fmt b
    let said (p : Int → Int → Bool) : Nat := match x, y with | some x, some y => if p (keyOf x) (keyOf y) then 1 else 0 | _, _ => 0
    flt f.fmt = true → a < 2 ^ fmtBits f.fmt → b < 2 ^ fmtBits f.fmt →
      fn (.vmin f) = (match x, y with
        | some p, some q => if keyOf p < keyOf q ∨ (keyOf p = keyOf q ∧ p.1 = true) then a else b
        | _, _ => nanOf f.fmt) ∧
      fn (.vmax f) = (match x, y with
        | some p, some q => if keyOf p < keyOf q ∨ (keyOf p = keyOf q ∧ p.1 = true) then b else a
        | _, _ => nanOf f.fmt) ∧
      fn (.vabs f) = (if x = none then nanOf f.fmt else a % 2 ^ (fmtBits f.fmt - 1)) ∧
      fn (.vneg f) = (if x = none then nanOf f.fmt else a ^^^ 2 ^ (fmtBits f.fmt - 1)) ∧
      fn (.vcmpeq f) = said (fun p q => p = q) ∧ fn (.vcmplt f) = said (fun p q => p < q) ∧
      fn (.vcmple f) = said (fun p q => p ≤ q) ∧
      fn (.vclass f) = (if f.imm.testBit (classOf f.fmt a) then 1 else 0)) ∧
  ∀ (f : VregW) (rm rb a b c : Nat) (sel : Bool),
    let fn (i : Instr) : Nat := vecFn i f rm rb a b c sel
    (f.fmt = 6 → a < 256 → b < 256 → fn (.vmin f) = min a b ∧ fn (.vmax f) = max a b ∧ fn (.vcmpeq f) = (if a = b then 1 else 0) ∧
      fn (.vcmplt f) = (if a < b then 1 else 0) ∧ fn (.vcmple f) = (if a ≤ b then 1 else 0)) ∧
    fn (.vand f) = a &&& b ∧ fn (.vor f) = a ||| b ∧ fn (.vxor f) = a ^^^ b ∧ fn (.vsel f) = if sel then a else b

/-- R50, R52, R53, R57, R59, R60, R299, R304-R306: the rounding words. Each gives its exact value rounded once in its mode: VADD,
VSUB, VMUL and VFMA of floats, VCVT between every two formats it allows (to an integer rounded and saturated; between integers
wrapped or saturated), VSCACC the converted partial times its scale plus the addend, VRCP and VRSQ, with the special operands of
R306. VEXP2 is stated for its special operands and for whole numbers: the value of a fractional power is the model's (log 15).
In mode SR rb are the 16 seed bits.
Rests on the model's log 15 (DESIGN CHOICE). -/
def Obligations.FloatElements : Prop :=
  ∀ (f : VregW) (rm rb a b c : Nat) (sel : Bool), rm ≤ 4 → rb < 2 ^ 16 →
    let fm := f.fmt
    let x := valOf fm a
    let y := valOf fm b
    let z := valOf fm c
    let fn (i : Instr) : Nat := vecFn i f rm rb a b c sel
    let int : Int := sgn (fmtBits fm) a
    let whole (k : Nat) : Val := some (decide (int < 0), some (int.natAbs * k))
    (flt fm = true → a < 2 ^ fmtBits fm → b < 2 ^ fmtBits fm → c < 2 ^ fmtBits fm →
      roundsTo fm rm rb (plus rm x y) 1 (fn (.vadd f)) ∧ roundsTo fm rm rb (plus rm x (opposite y)) 1 (fn (.vsub f)) ∧
      roundsTo fm rm rb (times x y) (one fm) (fn (.vmul f)) ∧
      roundsTo fm rm rb (plus rm (times x y) (finer (one fm) z)) (one fm) (fn (.vfma f))) ∧
    (fm ≤ 6 → a < 2 ^ fmtBits fm → f.imm ≤ 5 →
      let g := f.imm
      (3 ≤ fm → (3 ≤ g → roundsTo g rm rb (finer (one g) x) (unit fm) (fn (.vcvt f))) ∧
        (g ≤ 2 → toInteger (fmtBits g) rm rb x (unit fm) (fn (.vcvt f)))) ∧
      (fm ≤ 2 → (3 ≤ g → roundsTo g rm rb (whole (one g)) 1 (fn (.vcvt f))) ∧
        (g ≤ 2 → rm ≤ 1 → fn (.vcvt f) = (intOut (fmtBits g) rm int).toNat))) ∧
    (fm = 2 → f.imm ∈ [3, 5, 6] → a < 2 ^ 32 → b < 2 ^ fmtBits f.imm → c < 2 ^ 32 → ∀ p, roundsTo 3 0 0 (whole (one 3)) 1 p →
      roundsTo 3 rm rb (plus rm (times (valOf 3 p) (valOf f.imm b)) (finer (unit f.imm) (valOf 3 c))) (unit f.imm) (fn (.vscacc f))) ∧
    (fm = 3 → a < 2 ^ 32 →
      (match x with
        | none => fn (.vrcp f) = nanOf 3 ∧ fn (.vrsq f) = nanOf 3 ∧ fn (.vexp2 f) = nanOf 3
        | some (neg, none) => fn (.vrcp f) = (if neg then 2 ^ 31 else 0) ∧ fn (.vrsq f) = (if neg then nanOf 3 else 0) ∧
            fn (.vexp2 f) = if neg then 0 else infOf 3 false
        | some (neg, some 0) => fn (.vrcp f) = infOf 3 neg ∧ fn (.vrsq f) = infOf 3 neg ∧ fn (.vexp2 f) = 0x3F800000
        | some (neg, some m) =>
            roundsTo 3 rm rb (some (neg, some (one 3 * one 3))) m (fn (.vrcp f)) ∧
            (neg = true → fn (.vrsq f) = nanOf 3) ∧
            (neg = false → nearest 3 rm rb false (fun n d => n * n * m ≤ one 3 ^ 3 * (d * d))
              (fun n d => one 3 ^ 3 * (d * d) ≤ n * n * m) (fn (.vrsq f))) ∧
            ∀ k, m = k * one 3 → roundsTo 3 rm rb (some (false, some (if neg then one 3 else 2 ^ k * one 3)))
              (if neg then 2 ^ k else 1) (fn (.vexp2 f))))

/-- R303, R307-R311: what the cross-column words and the words with a scalar result build once column 15 has acted: VREDR gives
every active element of a row its reduction, or SA that of one row; VROT turns the columns, VBCAST repeats one, VXCOL exchanges by
the xor of the index; VAMAX folds the magnitudes of the active elements; VMOVV and VPANY give a scalar. A VREDR that rounds
stochastically draws a chunk for each addition, its rows in order (R307, R431). Nothing else changes.
Rests on the model's log 30 (DEDUCED, DESIGN CHOICE). -/
def Obligations.LateVectorResults : Prop :=
  ∀ (s : State) (n : Nat) (fl : VFlight) (f : VregW) (p : VPlan), (fl.i, p) ∈ vecTable f →
    let c := f.imm % 16
    let due (j : Nat) : Nat := fl.t + j + p.base + fl.k - 1
    let act (j : Nat) : List Nat := (List.range fl.rows).filter (fun r => fl.act.contains (128 * j + r))
    let got (r j : Nat) : Nat := (tget (0 : Cont) fl.cap (128 * j + r)).toNat
    let w := fmtBits f.fmt
    let els (r : Nat) : List Nat :=
      ((List.range fl.cols).filter (fun j => fl.act.contains (128 * j + r))).map (fun j => got r j % 2 ^ w)
    let draws : Bool := p.draws && decide (fl.rm = 4)
    let before (r : Nat) : Nat := ((List.range r).map (fun q => (els q).length - 1)).sum
    let row (from_ r : Nat) : Nat :=
      reduced f fl.rm (fun x => if draws then chunk s n fl.order (from_ + x) else 0) (els r)
    let after (k : Nat) : State := if draws then drawn s n fl.order k else s
    let ext (v : Nat) : Word := if f.fmt ≤ 2 then (BitVec.ofNat w v).signExtend 64 else (BitVec.ofNat w v).setWidth 64
    let part : BitVec 33 := amaxWith f.fmt 0 (fl.act.map (fun x => got (x % 128) (x / 128) % 2 ^ w))
    let max_ (clr : Bool) : State :=
      modCore s n fun k => { k with pend := k.pend ++ [{ due := due 15, acc := 0, land := .amax clr part f.sa }] }
    let columnsOf (s : State) (w : Nat → List (Nat × Cont × Cont)) : State :=
      modCore s n fun k => { k with
        pend := k.pend ++ (List.range fl.cols).map fun j => { due := due j, land := .vcol f.vd j (w j), acc := 0 } }
    let scalarOf (s : State) (v : Word) : State :=
      modCore s n fun k => { k with
        pend := k.pend ++ [{ due := due 15, acc := 0, land := if isPort f.sa then .push (f.sa - 56) v else .sreg f.sa 0 64 v }] }
    let columns := columnsOf s
    let scalar := scalarOf s
    (fl.i = .vrot f → crossDone s n fl p =
      columns fun j => (List.range fl.rows).map fun r => contWrite f.fmt r (got r ((j + c) % fl.cols))) ∧
    (fl.i = .vbcast f → crossDone s n fl p = columns fun j => (act j).map fun r => elWrite f.fmt r (got r c)) ∧
    (fl.i = .vxcol f → crossDone s n fl p =
      columns fun j => (act j).map fun r => elWrite f.fmt r (if j ^^^ c < fl.cols then got r (j ^^^ c) else 0)) ∧
    (fl.i = .vredr f → crossDone s n fl p =
      columnsOf (after (before fl.rows)) fun j => (act j).map fun r => elWrite f.fmt r (row (before r) r)) ∧
    (fl.i = .vredrScalar f →
      let r := f.imm / 8 % 128
      scalarDone s n fl p = scalarOf (after ((els r).length - 1)) (ext (row 0 r))) ∧
    (fl.i = .vamax f → scalarDone s n fl p = max_ false) ∧ (fl.i = .vamaxClr f → scalarDone s n fl p = max_ true) ∧
    (fl.i = .vmovv f → scalarDone s n fl p = scalar (ext (got (f.imm % 128) (f.imm / 128 % 16)))) ∧
    (fl.i = .vpany f → scalarDone s n fl p =
      scalar (if fl.act.any (fun x => got (x % 128) (x / 128) = 1) then 1 else 0))

/-- R295-R298, R207, R210: a vector memory word whose active elements all pass their checks issues, column 0's elements access
memory, and the word stands in flight for its other columns. Loads leave memory as it was: VLD puts each element read in
flight (0 for one in an absent extent, its mask bit cleared), VLDX its register element xor the element read. Stores change
the bytes of column 0's active elements and no other byte: VST and VSWPM leave the element of the register there, VSTX that
xor what memory held; VSWPM puts what memory held in flight for the low bits of its element. Where no drain runs, VLD is
charged a container for each element read, VST a cell for each bit stored, an absent element's mask bit one. A later column j
does the same with its own elements at t + j, from the addresses and the latency that the word had at issue; each element's work is
2 c bit-operations (R292), of a unit's word alone.
Rests on the model's log 13 (DESIGN CHOICE), log 16 (DEDUCED). -/
def Obligations.VectorMemoryWords : Prop :=
  (∀ (s : State) (f : VmemW), ∀ w ∈ vmemWords f,
    let (i, ld, rd, wr) := w
    let k := rampK f.ramp
    let here := (activeAll s f.pm).filter (fun x => x.2 = 0 ∧ elemGone s f wr x = false)
    let gone := (activeAll s f.pm).filter (fun x => elemGone s f wr x)
    let ps (r : Nat) : List Place := placesOf s s.core (elemAddr s f r 0) (elemBytes f.fmt) wr
    i.wf = true → vmemReady s f ld rd wr →
      ∃ t, exec i s = .next t ∧
        (let c := s.core
         let d := t.core
         d.pc = c.pc + 8 ∧ d.nextBt = s.bed.btick + 1 ∧ d.order = c.order + 1 ∧
         (∀ q < 8, d.port q = if 56 + q ∈ [f.a, f.b] then (c.port q).tail else c.port q) ∧
         (∀ u n, d.unitBusy n u = if u = .vec then decide (n < s.bed.btick + k) else c.unitBusy n u) ∧
         d.trap = c.trap ∧ d.xebits = c.xebits ∧
         t = { s with mem := t.mem, ecc := t.ecc, writes := t.writes, fresh := t.fresh, core := withVmem c d } ∧
         (if (shapeOf s).2 = 1 then d.vq = c.vq
          else ∃ fl, d.vq = c.vq ++ [fl] ∧ fl.i = i ∧ fl.next = 1 ∧ fl.t = s.bed.btick ∧ fl.k = k ∧
            (fl.rows, fl.cols) = shapeOf s ∧ fl.base = vmemLat s f wr ∧ fl.resv = vmemKeys s f ld wr) ∧
         (wr = false → t.mem = s.mem ∧ t.ecc = s.ecc) ∧
         (∀ a, (∀ x ∈ here, ∀ p ∈ ps x.1, a ∉ footprint p) → rd8 t.mem a = rd8 s.mem a) ∧
         (∀ (vals : Nat → Nat) (pas : Nat → List Nat), c.drain = none → s.ecc = [] →
           (rd = true → ∀ x ∈ here, readAt s (elemAddr s f x.1 0) (ps x.1) = .ok (vals x.1)) →
           (wr = true → (here.flatMap (fun x => pas x.1)).Nodup ∧ ∀ x ∈ here,
             ps x.1 = (pas x.1).map (fun pa => .one (.byte pa)) ∧ ∀ pa ∈ pas x.1, mcHolds s pa 1 = false) →
           let due := s.bed.btick + vmemLat s f wr + k - 1
           let gone0 := gone.filter (fun x => x.2 = 0)
           let el (r : Nat) : Nat := c.vcont f.vd f.fmt r 0
           let left (r : Nat) : Nat := (if i = .vstx f then vals r else 0) ^^^ el r % 2 ^ (8 * elemBytes f.fmt)
           let into (r : Nat) : Nat × Cont × Cont :=
             if i = .vld f then elWrite f.fmt r (vals r) else if i = .vldx f then contWrite f.fmt r (el r ^^^ extEl f.fmt (vals r))
             else lowWrite f.fmt r (vals r)
           (wr = true → ∀ x ∈ here, ∀ j pa, (pas x.1)[j]? = some pa → rd8 t.mem pa = BitVec.ofNat 8 (left x.1 / 256 ^ j)) ∧
           d.pend = c.pend ++
             (if ld then (here.zipIdx.map fun x =>
                ({ due := due, acc := c.nextAcc + x.2, land := .vcol f.vd 0 [into x.1.1] } : Pend)) ++
                [{ due := due, acc := 0
                   land := .vcol f.vd 0 (if i = .vld f then gone0.map (fun x => elWrite f.fmt x.1 0) else []) }] else []) ++
             (if f.pm = 0 ∨ gone0 = [] then []
              else [{ due := due, acc := 0, land := .mcol f.pm 0 (gone0.map (fun x => (x.1, false))) }]) ∧
           let bits := (if f.pm = 0 then 0 else gone.length) + (if i = .vld f then cw f.fmt * here.length else 0)
           let cells := if i = .vst f then 8 * elemBytes f.fmt * here.length else 0
           d.ebits = c.ebits + bits + cells ∧ d.ej = c.ej + 2600 * bits + 3000 * cells +
             (if c.view = .unit then workUnits (2 * cw f.fmt * (here.length + gone0.length)) k (heat s c.num) else 0)))) ∧
  (∀ (s : State) (f : VmemW) (fl : VFlight) (j : Nat), ∀ w ∈ vmemWords f,
    let (i, ld, rd, wr) := w
    let c := s.core
    let m := elemBytes f.fmt
    let mine := fl.pm.filter (fun x => x / 128 = j)
    let here := (mine.filter (fun x => x ∉ fl.absent)).map (· % 128)
    let gone := (mine.filter (fun x => x ∈ fl.absent)).map (· % 128)
    let ea (r : Nat) : Nat := (fl.sa + BitVec.ofNat 64 r * fl.stride + BitVec.ofNat 64 (j * m)).toNat
    let ps (r : Nat) : List Place := placesOf s c (ea r) m wr
    fl.i = i → f.fmt ≠ 7 → c.drain = none →
      ∃ t a, vmemCol s fl j = (t, { fl with next := j + 1, acc := a }) ∧
        (let d := t.core
         let bits := if i = .vld f then cw f.fmt * here.length else 0
         let cells := if i = .vst f then 8 * m * here.length else 0
         t = { s with mem := t.mem, ecc := t.ecc, writes := t.writes, fresh := t.fresh, core := { c with
           pend := d.pend, accs := d.accs, nextAcc := d.nextAcc, pending := d.pending, ebits := d.ebits, ej := d.ej, qp := d.qp } } ∧
         d.ebits = c.ebits + bits + cells ∧ d.ej = c.ej + 2600 * bits + 3000 * cells +
           (if fl.sys then 0 else workUnits (2 * cw f.fmt * mine.length) fl.k (heat s c.num)) ∧
         (wr = false → t.mem = s.mem ∧ t.ecc = s.ecc) ∧
         (∀ a, (∀ r ∈ here, ∀ p ∈ ps r, a ∉ footprint p) → rd8 t.mem a = rd8 s.mem a) ∧
         (∀ (vals : Nat → Nat) (pas : Nat → List Nat), s.ecc = [] →
           (rd = true → ∀ r ∈ here, readAt s (ea r) (ps r) = .ok (vals r)) →
           (wr = true → (here.flatMap pas).Nodup ∧ ∀ r ∈ here,
             ps r = (pas r).map (fun pa => .one (.byte pa)) ∧ ∀ pa ∈ pas r, mcHolds s pa 1 = false) →
           let due := fl.t + j + fl.base + fl.k - 1
           let el (r : Nat) : Nat := c.vcont f.vd f.fmt r j
           let left (r : Nat) : Nat := (if i = .vstx f then vals r else 0) ^^^ el r % 2 ^ (8 * m)
           let into (r : Nat) : Nat × Cont × Cont :=
             if i = .vld f then elWrite f.fmt r (vals r) else if i = .vldx f then contWrite f.fmt r (el r ^^^ extEl f.fmt (vals r))
             else lowWrite f.fmt r (vals r)
           (wr = true → ∀ r ∈ here, ∀ k pa, (pas r)[k]? = some pa → rd8 t.mem pa = BitVec.ofNat 8 (left r / 256 ^ k)) ∧
           d.pend = c.pend ++
             (if ld then (here.zipIdx.map fun x => ({ due := due, acc := c.nextAcc + x.2, land := .vcol f.vd j [into x.1] } : Pend)) ++
                [{ due := due, acc := 0, land := .vcol f.vd j (if i = .vld f then gone.map (fun r => elWrite f.fmt r 0) else []) }]
              else []) ++
             (if f.pm = 0 ∨ gone = [] then [] else [{ due := due, acc := 0, land := .mcol f.pm j (gone.map (fun r => (r, false))) }]))))

/-- R153, R154, R170, R235, R236, R241: the control-register words. A read gives the register as it stands at issue (AMAX after a
drain's rows so far, R330) and is charged 64 bits unless D is a port; CRSWP is charged nothing; a write is charged 64 bits, the
handler's registers to XEBITS. What the view may not do raises 0x1F, a value out of range 0x02. A write of UHTOP with a value from
UHBASE up to below UHTOP drops the bits from there up, charged to EBITS as datapath erasure (R170); any other value raises
0x1F. What each register reads as is given by R17, R20, R22, R31, R153, R155-R157, R165, R175, R182 and R309: HBASE, HTOP, HLIM and the
marks are those of the view's partition.
Rests on the model's log 61 (DEDUCED), log 87 (DESIGN CHOICE). -/
def Obligations.ControlRegisterWords : Prop :=
  (∀ (s : State) (f : SsysW),
    let c := s.core
    let s1 := if f.sel = 0x022 then advanceDrain s c.num else s
    let rd : Issue := { crWord s f.ramp [] [dstLand f.d 0 64 (crRead s1 f.sel) 0] 64 with
      regs := if isPort f.d then 0 else 64 }
    let swp := crWord s f.ramp [f.d] [.creg (landsAs c f.sel) (srcVal s f.d), .sreg f.d 0 64 (crRead s f.sel)] 128
    ((Instr.crrd f).wf = true → rd.ready s1 →
      (crAllows c f.sel false → ∃ t, exec (.crrd f) s = .next t ∧ rd.went s1 t ∧ t = { s1 with core := s1.core.withIssue t.core }) ∧
      (¬ crAllows c f.sel false → exec (.crrd f) s = .next (stopWord s1 (.crrd f) [] (.fault 0x1F 0 0)))) ∧
    ((Instr.crswp f).wf = true → swp.ready s →
      (¬ crAllows c f.sel true → stops (.crswp f) s [f.d] 0x1F 0 0) ∧
      (crAllows c f.sel true → crTakes c f.sel (srcVal s f.d) → swp.does (.crswp f) s s) ∧
      (crAllows c f.sel true → ¬ crTakes c f.sel (srcVal s f.d) → stops (.crswp f) s [f.d] 0x02 0 0)) ∧
    (∀ p ∈ crWriters s f,
      let w : Issue := { crWord s f.ramp [f.a] [.creg (landsAs c f.sel) p.2] 64 with
        own := if f.sel < 0x100 then 64 else 0, regs := if f.sel < 0x100 then 0 else 64 }
      p.1.wf = true → w.ready s →
        (¬ crAllows c f.sel true → stops p.1 s [f.a] 0x1F 0 0) ∧
        (crAllows c f.sel true → crTakes c f.sel p.2 → w.does p.1 s s) ∧
        (crAllows c f.sel true → ¬ crTakes c f.sel p.2 → stops p.1 s [f.a] 0x02 0 0))) ∧
  (∀ s : State, plainReads s ∧ queueBits s ∧ statusBits s) ∧
  (∀ (s : State) (f : SsysW), ∀ p ∈ uhtopWriters s f,
    let (how, src, v, lands) := p
    let u := s.core.ut
    let i := Instr.uhtopWrite how f
    let w : Issue := { crWord s f.ramp [src] (.creg 0x119 v :: lands) (if how = .swp then 128 else 64) with
      own := u.top - v.toNat }
    let ok := s.core.view = .system ∧ u.base ≤ v.toNat ∧ v.toNat < u.top
    i.wf = true → w.ready s →
      (ok → w.does i s s ∧
        ∀ c : Core, c.ut = u → (c.crWrite 0x119 v).ut = { u with bits := u.bits % 2 ^ (v.toNat - u.base), top := v.toNat }) ∧
      (¬ ok → stops i s [src] 0x1F 0 0))

/-- R237-R239, R177, R111: TRAP and a SAFEPT that finds XSTAT.PRE set in the unit view complete, and the trap or the stop waits for
the tick their result falls due; any other SAFEPT, and DBGBRK without debug, only issue; DBGBRK with debug asks for a halt of its
bed; REPLAY makes the parked entries of the job retry in the order in which they parked; SRET empties the system partition, sets
the token of the fault handled, and resumes at XPC one bt after its result falls due. REPLAY and SRET raise 0x1F in the unit view. -/
def Obligations.TrapWords : Prop :=
  ∀ (s : State) (f : SsysW),
    let c := s.core
    let q := quick s .ctl f.ramp [] 0
    let T := s.bed.btick + rampK f.ramp
    let issued : State := { s with core := ctlIssued s f.ramp }
    ((Instr.trap f).wf = true → q.ready s →
      (c.view = .unit → exec (.trap f) s = .next { issued with core := { issued.core with
        wait := none, trap := some (trapAt (bareRec s (wordOf (.trap f)) 0x20 1 0 (BitVec.ofNat 64 f.sel)) (c.pc + 8) T false) } }) ∧
      (c.view = .system → stops (.trap f) s [] 0x20 0 (BitVec.ofNat 64 f.sel))) ∧
    ((Instr.safept f).wf = true → q.ready s →
      (c.pre = true → c.view = .unit → exec (.safept f) s = .next { issued with core := { issued.core with
        livemap := f.sel
        trap := some (trapAt { FaultRec.none with code := 0x21, kind := 3 } (c.pc + 8) T true) } }) ∧
      (¬ (c.pre = true ∧ c.view = .unit) → exec (.safept f) s = .next issued)) ∧
    ((Instr.dbgbrk f).wf = true → q.ready s → s.bed.num = c.num / 8 →
      exec (.dbgbrk f) s = .next (if c.dbg then { issued with bed := { s.bed with halt := true, park := false } } else issued)) ∧
    ((Instr.replay f).wf = true →
      ((sysQuick s f.ramp).ready s → ∃ t, exec (.replay f) s = .next t ∧ retried issued c.job t) ∧
      (c.view = .unit → stops (.replay f) s [] 0x1F 0 0)) ∧
    ((Instr.sret f).wf = true →
      ((sysQuick s f.ramp).ready s → c.terminal = false → c.view = .system →
        exec (.sret f) s = .next { issued with core := { issued.core with
          view := .unit, pc := c.xpc, nextBt := T + 1, pend := c.pend ++ [dueAt s 1 f.ramp .nothing]
          st := emptied c.st, xebits := c.xebits + (c.st.top - c.st.base)
          clearTok := c.clearTok.filter (· ≠ c.handled), handled := 63 } }) ∧
      (c.view = .unit → stops (.sret f) s [] 0x1F 0 0)) ∧
    (let g : SsysW := { ramp := 0, d := 0, a := 0, k := 0, sc := 0, mask := 0, sel := 0 }
     decode 0xA800000000000005 = .ok (.trap { g with sel := 5 }) ∧ decode 0xA900000000000000 = .ok (.sret g))

/-- R240, R179, R407: DONE with no fault pending ends the unit: its trug is charged to EBITS, and its handles are free where no
accepted entry is still to run; with one pending it delivers the first. KILL, and the SRET of a terminal event once it has
done what every SRET does, end it by a kill with the code of the trap in hand. KILL raises 0x1F in the unit view. Registers
that hold a value are counted, 64 bits each, once nothing of a killed unit is in flight.
Rests on the model's log 71 (DESIGN CHOICE). -/
def Obligations.EndingWords : Prop :=
  (∀ (s : State) (f : SsysW),
    let c := s.core
    let code := c.xcause.toNat % 256
    let detail := (tget 0 c.xrec 7).toNat % 2 ^ 32
    let idle : Bool := c.tq.es.isEmpty && c.cq.es.isEmpty && c.gq.es.isEmpty && c.bq.es.isEmpty
    ((Instr.done f).wf = true → (quick s .ctl f.ramp [] 0).ready s → calm s → c.run = .running →
      ∃ t, exec (.done f) s = .next t ∧
        (let d := t.core
         d.ebits = c.ebits + (c.ut.top - c.ut.base) ∧ d.xebits = c.xebits + (c.st.top - c.st.base) ∧
         t = { s with core := { ctlIssued s f.ramp with
           run := .ended, endStatus := 0, endCode := 0, handles := if idle then [] else c.handles, ut := emptied c.ut, st := emptied c.st
           ebits := d.ebits, xebits := d.xebits, ej := c.ej + 2600 * (c.ut.top - c.ut.base), qp := d.qp } })) ∧
    ((Instr.done f).wf = true → (quick s .ctl f.ramp [] 0).ready s → ∀ r, c.firstFault = some r →
      exec (.done f) s = .next (stopWord s (.done f) [] (.deliver r))) ∧
    ((Instr.kill f).wf = true → c.run = .running →
      ((sysQuick s f.ramp).ready s → c.view = .system →
        ∃ d, exec (.kill f) s = .next { s with core := d } ∧ killed (ctlIssued s f.ramp) d code 0 detail) ∧
      (c.view = .unit → stops (.kill f) s [] 0x1F 0 0)) ∧
    ((Instr.sret f).wf = true → (sysQuick s f.ramp).ready s → c.view = .system → c.terminal = true → c.run = .running →
      ∃ d, exec (.sret f) s = .next { s with core := d } ∧
        killed { ctlIssued s f.ramp with
          pend := c.pend ++ [dueAt s 1 f.ramp .nothing], pc := c.pc, xebits := c.xebits + (c.st.top - c.st.base), st := emptied c.st
          clearTok := c.clearTok.filter (· ≠ c.handled), handled := 63 } d code 0 detail)) ∧
  (∀ c : Core, c.dying = true → c.pend = [] → c.vq = [] →
    c.countRegs.ebits = c.ebits + 64 * (List.range' 4 52).countP (fun n => c.reg n ≠ 0) ∧ c.countRegs.dying = false)

/-- R172, R175, R156, R176, R238: on the first tick at which everything has fallen due, the trap that waits is taken: XPC, XCAUSE
and XREC0-XREC7 are written, XCAUSE.MORE showing whether another attributed fault is pending then, the view is system, PC is XVEC
and the first handler word issues on the next bt; without XVEC the unit is killed. A pre-emption stop writes them alike and stops
the core, its view and PC as they were. A throttle notice reports the latest rise, and waits no more (R419).
Rests on the model's log 23 (DEDUCED), log 52 (DEDUCED). -/
def Obligations.TrapEntry : Prop :=
  ∀ (s : State) (r : TrapReq),
    let c := s.core
    let T := s.bed.btick
    let cause := r.fr.code + 2 ^ 8 * r.fr.kind + (if r.fr.kind = 2 then 2 ^ 10 * r.fr.queue else 0) + (if r.fr.kind = 2 ∧ c.pending ≠ [] then 2 ^ 13 else 0)
    let detail := if r.fr.code = 0x23 then c.thrDetail else r.fr.detail
    let words : List Word := [r.fr.ipc, BitVec.ofNat 64 (r.fr.seq + 2 ^ 32 * r.fr.queue), r.fr.word, r.fr.opa, r.fr.opb, r.fr.opc,
      r.fr.addr, detail]
    let thr := c.thr && decide (r.fr.code ≠ 0x23)
    let saved (d : Core) : Prop := d.xpc = r.xpc ∧ d.xcause = BitVec.ofNat 64 cause ∧ ∀ n < 8, tget 0 d.xrec n = words.getD n 0
    c.trap = some r → r.at_ ≤ T → c.vq = [] → (∀ p ∈ c.pend, p.due ≤ T) →
      (r.stop = false → c.xvec ≠ 0 → ∃ d, exec .trapEntry s = .next { s with core := d } ∧ saved d ∧
        d = { c with
          trap := none, thr := thr, xpc := d.xpc, xcause := d.xcause, xrec := d.xrec, view := .system, pc := c.xvec, nextBt := T + 1
          terminal := r.terminal, handled := r.fr.tok }) ∧
      (r.stop = false → c.xvec = 0 → c.run = .running → ∃ d, exec .trapEntry s = .next { s with core := d } ∧ saved d ∧
        killed { c with trap := none, thr := thr, xpc := d.xpc, xcause := d.xcause, xrec := d.xrec, handled := r.fr.tok } d
          r.fr.code 0 (detail.toNat % 2 ^ 32)) ∧
      (r.stop = true → ∃ d, exec .preemptionStop s = .next { s with core := d } ∧ saved d ∧
        d = { c with trap := none, thr := thr, xpc := d.xpc, xcause := d.xcause, xrec := d.xrec, run := .stopped, pre := false })

/-- R83, R84, R95, R172, R175, R180, R205, R245, R250: a word that stops has no effect but the trap its fault asks for from the next
bt on, with XPC naming it and XREC3-XREC5 its sources; in the system view the unit is killed with both codes. An unassigned word
raises 0x01; a fetch from an address that is no multiple of 8 0x0E, from no extent 0x0C, from one that is not executable 0x0D, and
what its translation or an uncorrectable error gives, with XREC6 the address and XREC2 zero.
Rests on the model's log 23 (DEDUCED), log 67 (DEDUCED). -/
def Obligations.PreciseFaults : Prop :=
  ∀ (s : State),
    let c := s.core
    let first := c.xcause.toNat % 256
    let takes (t : State) (f : FaultRec) : Prop :=
      (c.view = .unit → t = { s with core := { c with wait := none, trap := some (trapAt f c.pc (s.bed.btick + 1) false) } }) ∧
      (c.view = .system → c.run = .running → ∃ d, t = { s with core := d } ∧ killed c d first f.code ((tget 0 c.xrec 7).toNat % 2 ^ 32))
    (∀ i srcs code addr detail,
      let op (k : Nat) : Word := (srcs[k]?.map (srcVal s)).getD 0
      takes (stopWord s i srcs (.fault code addr detail))
        { bareRec s (wordOf i) code 0 addr detail with opa := op 0, opb := op 1, opc := op 2 }) ∧
    (∀ w, ∃ t, exec (.illegalInstruction w) s = .next t ∧ takes t (illegalRec s w)) ∧
    (c.pc.toNat % 8 ≠ 0 → ∃ t, exec .fetchFault s = .next t ∧ takes t (bareRec s 0 0x0E 0 c.pc 0)) ∧
    (c.pc.toNat % 8 = 0 →
      (findExt c.extents c.pc.toNat = none → ∃ t, exec .fetchFault s = .next t ∧ takes t (bareRec s 0 0x0C 0 c.pc 0)) ∧
      (∀ e, findExt c.extents c.pc.toNat = some e → e.ex = false →
        ∃ t, exec .fetchFault s = .next t ∧ takes t (bareRec s 0 0x0D 0 c.pc 0)) ∧
      (∀ e, findExt c.extents c.pc.toNat = some e → e.ex = true →
        (∀ code detail, places s c c.pc.toNat 8 false = .error (code, detail) →
          ∃ t, exec .fetchFault s = .next t ∧ takes t (bareRec s 0 code 0 c.pc (BitVec.ofNat 64 detail))) ∧
        (∀ ps k, places s c c.pc.toNat 8 false = .ok ps → readPlaces s ps = .error k →
          ∃ t, exec .fetchFault s = .next t ∧ takes t (bareRec s 0 0x1B 0 c.pc 0))))

/-- R161-R163, R242, R175: a charge adds its bits to EBITS and 2.6 fJ a datapath bit or 3.0 fJ a cell bit to EJ; while EQUOTA is
not 0, one that takes EBITS from below EQUOTA to EQUOTA or above is a crossing. A unit-view word that makes one (the register
words, HDROP and ERASE, the loads and stores, the atomics, the control-register words, BPERM.e and BPLD) completes, and trap 0x08
follows it: XPC names the next word, the record the word itself with its sources, XREC6 0 and XREC7 every bit the word charges,
those of an ATOM.cas at its due tick among them. In the system view XSTAT.QP is set instead. The work a word adds to EJ is R163's
formula, T the die's temperature, rounded to nearest with ties upward.
Rests on the model's log 13 (DESIGN CHOICE), log 68 (DEDUCED), log 72 (DESIGN CHOICE), log 78 (DESIGN CHOICE). -/
def Obligations.ErasureQuota : Prop :=
  (∀ (c : Core) (n : Nat) (cell : Bool),
    let crossing : Bool := c.equota ≠ 0 && c.ebits < c.equota.toNat && c.equota.toNat ≤ c.ebits + n
    c.erase n cell =
      { c with ebits := c.ebits + n, ej := c.ej + (if cell then 3000 else 2600) * n, qp := c.qp || crossing }) ∧
  (∀ (s : State) (n w k : Nat), 0 < k →
    let t : ℝ := (getDie s (n / 64)).t16 / 16
    (workUnits w k (heat s n) : ℤ) = ⌊(w : ℝ) * (900 / k + k * 15 * (2 : ℝ) ^ ((t - 85) / 12)) + 1 / 2⌋) ∧
  (∀ (s : State) (f : SregW) (g : SimmW) (h : SwideW), ∀ p ∈ chargingWords s f g h,
    p.1.wf = true → p.2.ready s → chargesOver p.2 s → trapsAfter p.2 p.1 s) ∧
  (∀ (s : State) (f : SsysW),
    let t := s.core.trug
    let drop := { trugWord s f [] [] f.sel with regs := f.sel }
    let va := (srcVal s f.a).toNat
    let b := (srcVal s f.d).toNat
    let zero := { trugWord s f [f.a, f.d] [dueAt s (2 + (b + 2047) / 2048) f.ramp .nothing] (8 * b) with cells := 8 * b }
    let rd : Issue := { crWord s f.ramp [] [dstLand f.d 0 64 (crRead s f.sel) 0] 64 with regs := if isPort f.d then 0 else 64 }
    ((Instr.hdrop f).wf = true → drop.ready s → t.base + f.sel ≤ t.top → chargesOver drop s → trapsAfter drop (.hdrop f) s) ∧
    ((Instr.erase f).wf = true → zero.ready s → b % 16 = 0 → 16 ≤ b → b ≤ 2097152 → addrStop s s.core va b 16 true false = none →
      (ownSpad s s.core va b).isSome → chargesOver zero s → trapsAfter zero (.erase f) s) ∧
    ((Instr.crrd f).wf = true → rd.ready s → f.sel ≠ 0x022 → crAllows s.core f.sel false → chargesOver rd s →
      trapsAfter rd (.crrd f) s) ∧
    (∀ p ∈ crWriters s f,
      let w : Issue := { crWord s f.ramp [f.a] [.creg (landsAs s.core f.sel) p.2] 64 with own := 64 }
      p.1.wf = true → w.ready s → f.sel < 0x100 → crAllows s.core f.sel true → crTakes s.core f.sel p.2 → chargesOver w s →
        trapsAfter w p.1 s)) ∧
  (∀ (s : State) (f : SmemW) (xor : Bool) (m : Nat),
    let i := if xor then Instr.ldx f else .ld f
    let va := addrOf s f.a 23 f.off
    let len := tyBits f.ty / 8
    let there := load s xor f (accLat s s.core (placesOf s s.core va len false) false) m
    let gone := loadOfAbsent s xor f
    let put := store s false f
    let pat (bs : List Byte) : Issue := { Issue.plain s [.perm, .mem] f.ramp [f.a]
      [{ due := s.bed.btick + 11 + rampK f.ramp, acc := s.core.nextAcc, land := .pat f.d bs }] 1024 with own := 1024 }
    (i.wf = true → addrStop s s.core va len len false false = none →
      (loadAbsent s.core va = false → readAt s va (placesOf s s.core va len false) = .ok m → there.ready s →
        chargesOver there s → trapsAfter there i s) ∧
      (loadAbsent s.core va = true → gone.ready s → chargesOver gone s → trapsAfter gone i s)) ∧
    ((Instr.st f).wf = true → addrStop s s.core va len len true false = none → put.ready s → chargesOver put s →
      trapsAfter put (.st f) s) ∧
    (∀ bs, (Instr.bpld f).wf = true → va % 16 = 0 → (ownSpad s s.core va 128).isSome →
      readPlaces s (placesOf s s.core va 128 false) = .ok bs → (pat bs).ready s → chargesOver (pat bs) s →
        trapsAfter (pat bs) (.bpld f) s)) ∧
  (∀ (s : State) (f : SatmW) (old : Nat), ∀ p ∈ atomOps f,
    let va := addrOf s f.a 16 f.off
    let len := if p.1 = .fadd then 4 else 8
    let ps := placesOf s s.core va len true
    let w := atom s p.1 f (accLat s s.core ps true) (BitVec.ofNat 64 old)
    p.2.wf = true → addrStop s s.core va len len true true = none → readAt s va ps = .ok old → w.ready s → chargesOver w s →
      trapsAfter w p.2 s) ∧
  (∀ (s : State) (f : SsysW),
    let n := f.sel
    let w : Issue := { crWord s f.ramp [f.a] [.creg n (srcVal s f.a)] 64 with own := 64 }
    (Instr.crwr f).wf = true → w.ready s → w.crosses s → s.core.view = .system → crAllows s.core n true →
      crTakes s.core n (srcVal s f.a) → n < 0x100 →
        ∃ t, exec (.crwr f) s = .next t ∧ w.went s t ∧ t.core.qp = true ∧ t.core.trap = s.core.trap)

/-- R20, R32, R33, R89, R90, R218, R197, R214, R236, R287, R301, R310, R328: what falls due by tick b has landed and the rest is
still in flight. A result takes its bits of its register and no other; a write to q0 or q1 goes to the other core of the row, to
q2 or q3 to the same column's core of the row above or below, and lands in its port with the next words; a control register holds
its new value (HLIM that of the partition of the view in which its word issued; UHTOP where the value still lies in the partition); of a vector column, the bits under each mask of a container take theirs, but where a running drain shows its own; a
mask takes its bits, a pattern its bytes, AMAX the greater magnitude and the NaN bit, which SA takes too; a token is set; cell
bits are charged. Nothing else changes. -/
def Obligations.ResultsLand : Prop :=
  (∀ (s : State) (n b : Nat), (getCore (landDue s n b) n).pend = (getCore s n).pend.filter (fun p => b < p.due)) ∧
  (∀ (c : Core) (r lo len : Nat) (v : Word), lo + len ≤ 64 → ∀ m i, i < 64 →
    ((c.setField r lo len v).reg m).getLsbD i =
      if m = r ∧ 1 ≤ r ∧ r ≤ 55 ∧ lo ≤ i ∧ i < lo + len then v.getLsbD (i - lo) else (c.reg m).getLsbD i) ∧
  (∀ (s : State) (n r lo len : Nat) (v : Word), landOne s n (.sreg r lo len v) = modCore s n (fun c => c.setField r lo len v)) ∧
  (∀ (s : State) (d b row col q : Nat) (v : Word), row < 4 → col < 2 → q < 4 →
    let n := 64 * d + 8 * b + 2 * row + col
    let base := 64 * d + 8 * b
    let (m, p) := [(base + 2 * row + (1 - col), 1), (base + 2 * row + (1 - col), 0), (base + 2 * ((row + 3) % 4) + col, 3),
      (base + 2 * ((row + 1) % 4) + col, 2)].getD q (0, 0)
    landOne s n (.push q v) = modCore s m (fun c => { c with
      flights := c.flights ++ [{ port := p, v := v, bt := (bedOf s n).btick, wt := (bedOf s n).bwall }] })) ∧
  (∀ (s : State) (n q : Nat) (v : Word), 4 ≤ q → landOne s n (.push q v) = modCore s n (fun c => c.setPort q
    (c.port q ++ [{ v := v, ready := (bedOf s n).btick, q := 0, seq := 0 }]))) ∧
  (∀ (s : State) (n r : Nat) (v : Word), landOne s n (.creg r v) = modCore s n (fun c => c.crWrite r v) ∧
    let after := crRead { s with core := s.core.crWrite r v }
    (r ∈ crWrites .system → r ≠ 0x119 → (r = 0x00A → s.core.view = .system) → after r = v) ∧
    (r = 0x11A → s.core.view = .unit → after 0x00A = v) ∧
    (r = 0x119 → s.core.ut.base ≤ v.toNat → v.toNat ≤ s.core.ut.top → after r = v)) ∧
  (∀ (s : State) (n r j : Nat) (l : List (Nat × Cont × Cont)),
    let key (x : Nat) : Nat := 1024 * r + 64 * j + x
    let held (x : Nat) : Prop := ∃ e, (getCore s n).tq.es.head? = some e ∧ key x ∈ e.drained
    let d := getCore (landOne s n (.vcol r j l)) n
    landOne s n (.vcol r j l) = modCore s n (fun c => { c with v := d.v }) ∧
    (l.Pairwise (fun x y => x.1 = y.1 → x.2.1 &&& y.2.1 = 0) → ∀ x ∈ l, ¬ held x.1 →
      tget (0 : Cont) d.v (key x.1) &&& x.2.1 = x.2.2 &&& x.2.1) ∧
    (∀ k i, (∀ x ∈ l, key x.1 = k → held x.1 ∨ x.2.1.getLsbD i = false) →
      (tget (0 : Cont) d.v k).getLsbD i = (tget (0 : Cont) (getCore s n).v k).getLsbD i)) ∧
  (∀ (s : State) (n p j : Nat) (l : List (Nat × Bool)),
    let key (r : Nat) : Nat := 2048 * p + 128 * j + r
    let d := getCore (landOne s n (.mcol p j l)) n
    landOne s n (.mcol p j l) = modCore s n (fun c => { c with p := d.p }) ∧
    ((l.map (·.1)).Nodup → ∀ x ∈ l, tget false d.p (key x.1) = x.2) ∧
    (∀ k, (∀ x ∈ l, key x.1 ≠ k) → tget false d.p k = tget false (getCore s n).p k)) ∧
  (∀ (s : State) (n p : Nat) (bs : List Byte),
    let d := getCore (landOne s n (.pat p bs)) n
    landOne s n (.pat p bs) = modCore s n (fun c => { c with bp := d.bp }) ∧ d.pattern p = bs ∧
      ∀ q, q ≠ p → d.pattern q = (getCore s n).pattern q) ∧
  (∀ (s : State) (n sa : Nat) (clr : Bool) (part : BitVec 33), (getCore s n).drain = none →
    let old : BitVec 33 := if clr then 0 else (getCore s n).amax
    ∃ m : BitVec 33, m.toNat % 2 ^ 32 = max (old.toNat % 2 ^ 32) (part.toNat % 2 ^ 32) ∧ m.msb = (old.msb || part.msb) ∧
      let s1 := modCore s n (fun c => { c with amax := m })
      landOne s n (.amax clr part sa) =
        if sa = 0 then s1
        else if 56 ≤ sa then landOne s1 n (.push (sa - 56) (m.setWidth 64))
        else modCore s1 n (fun c => c.setReg sa (m.setWidth 64))) ∧
  (∀ (s : State) (n k : Nat), landOne s n (.tok k) = modCore s n (fun c => c.setToken k) ∧
    (∀ c : Core, ∀ t, (c.setToken k).tokSet t = (decide (t = k) || c.tokSet t)) ∧
    landOne s n (.cell k) = modCore s n (fun c => c.erase k true) ∧ landOne s n .nothing = s)

/-- R122, R140, R141, R210, R211, R217, R218, R221, R223, R224, R245, R33, R36: room in the buffer lets the oldest access that
nothing holds leave; a reply or an acknowledgement ends its access, and changes nothing else, as the access performed when its word
issued; a fence, mark or arrival ends once it stands alone, the mark setting its token, the arrival counting at its sync word where
it has not counted as it issued; an expectation's acknowledgement comes no earlier than its tick, and with it TARGET rises, a fault
it finds being the waiting SYEXP's; words under way land in their ports. A sync word in an erroneous code word stays, with fault 0x1B.
Rests on the model's log 13 (DESIGN CHOICE), log 32 (DEDUCED), log 33 (DEDUCED), log 70 (DESIGN CHOICE), log 74 (DEDUCED). -/
def Obligations.MemoryEvents : Prop :=
  (∀ (s : State) (n : Nat) (a : Access) (pre post : List Access),
    let c := getCore s n
    c.accs = pre ++ a :: post → buffered a → ¬ heldBack c a → (∀ x ∈ pre, buffered x → heldBack c x) →
      exec (.postBufferRoom n) s =
        .next (setCore s { c with accs := c.accs.map (fun x => { x with left := x.left || x.id = a.id }) })) ∧
  (∀ (s : State) (n : Nat) (a : Access),
    let c := getCore s n
    let d := without c a.id
    let k := a.opb.toNat
    c.accs.find? (fun x => x.id = a.id) = some a →
      ((a.kind = .load ∨ a.kind = .atomic ∨ (a.kind = .rmw ∧ a.due ≠ 0)) → ¬ heldBack c a →
        exec (.memoryReply n a.id) s = .next (setCore s d)) ∧
      ((a.kind = .store ∨ (a.kind = .rmw ∧ a.due = 0)) → ¬ heldBack c a →
        exec (.writeAcknowledgement n a.id) s = .next (setCore s d)) ∧
      (a.kind = .fence → alone c (bedOf s n).stall a → exec (.writeAcknowledgement n a.id) s = .next (setCore s d)) ∧
      (a.kind = .tmark → alone c (bedOf s n).stall a → exec (.writeAcknowledgement n a.id) s = .next (setCore s (d.setToken a.tok))) ∧
      (a.kind = .arrive → a.due ≠ 0 → exec (.writeAcknowledgement n a.id) s = .next (setCore s d)) ∧
      (a.kind = .arrive → a.due = 0 → alone c (bedOf s n).stall a → ¬ heldBack c a →
        (syncBad s a.pa = true → exec (.writeAcknowledgement n a.id) s = .next (setCore s (d.addPending
          { accessRec a 0x1B a.cls with addr := BitVec.ofNat 64 (badAt s a.pa a.addr.toNat) }))) ∧
        (syncBad s a.pa = false → ∃ m w, synced s .land a.pa k m ∧
          exec (.writeAcknowledgement n a.id) s = .next (setCore { s with mem := m, writes := w }
            (if overshoots s .land a.pa k then d.addPending (accessRec a 0x16 a.cls) else d)))) ∧
      (a.kind = .arrive → a.due = 0 → ¬ alone c (bedOf s n).stall a ∨ heldBack c a → exec (.writeAcknowledgement n a.id) s = .next s) ∧
      (a.kind = .expect → (bedOf s n).bwall < a.due ∨ heldBack c a → exec (.writeAcknowledgement n a.id) s = .next s) ∧
      (a.kind = .expect → a.due ≤ (bedOf s n).bwall → ¬ heldBack c a →
        let found (code addr : Nat) : Core := { d with wait := c.wait.map fun w => match w.w with
          | .syexp i _ _ => if i = a.id then { w with w := .syexp i code (BitVec.ofNat 64 addr) } else w
          | _ => w }
        (syncBad s a.pa = true → exec (.writeAcknowledgement n a.id) s =
          .next (setCore s (found 0x1B (badAt s a.pa a.addr.toNat)))) ∧
        (syncBad s a.pa = false → ∃ m w, synced s .expect a.pa k m ∧
          exec (.writeAcknowledgement n a.id) s = .next (setCore { s with mem := m, writes := w }
            (found (if overshoots s .expect a.pa k then 0x16 else 0) a.addr.toNat))))) ∧
  (∀ (s : State) (n : Nat),
    let c := getCore s n
    let now (f : Flight) : Prop := f.wt ≤ (bedOf s n).bwall
    ∃ d, exec (.neighbourWordLanding n) s = .next (setCore s d) ∧ d.flights = c.flights.filter (fun f => ¬ now f) ∧
      (∀ q, d.port q = c.port q ++ (c.flights.filter (fun f => now f ∧ f.port = q)).map (fun f =>
        { v := f.v, ready := f.bt + 2, q := 0, seq := 0 })) ∧
      d = { c with flights := d.flights, ports := d.ports }) ∧
  (∀ (s : State) (ev : SyncEv) (pa n : Nat),
    (syncBad s pa = true → exec (.syncWordEvent ev pa n) s = .next s) ∧
    (syncBad s pa = false → ∃ m w, synced s ev pa n m ∧ exec (.syncWordEvent ev pa n) s = .next { s with mem := m, writes := w }))

/-- R142, R172, R242, R252, R267: an access to another package that gets no answer in 2 ms ends with fault 0x1E pending for the
words of its classes; what a load or atomic would have written becomes zero (LDX leaves its register, VLDX its elements), a
trap that waits no longer counts the bits an ATOM.cas now does not charge, and with the access of a SYEXP the reason of its wait
is gone (WaitingWords);
each byte of a write holds its value from before or the written one, where no later write has taken it, and an expectation or
arrival has been applied or not. An engine entry whose access to another package gets no answer ends there in 0x1E; a byte that
access would have written holds its prior value or the written one, and no other byte changes.
Rests on the model's log 46 (DESIGN CHOICE), log 49 (DEDUCED), log 53 (DESIGN CHOICE), log 94 (DESIGN CHOICE). -/
def Obligations.RemoteTimeouts : Prop :=
  (∀ (s : State) (n : Nat) (a : Access),
    let c := getCore s n
    let owed := owedCells (c.pend.filter (fun p => decide (p.acc = a.id)))
    let less (r : TrapReq) : TrapReq := if r.fr.code = 0x08 ∧ r.fr.order = a.order ∧ r.fr.ipc = a.pc then
      { r with fr := { r.fr with detail := r.fr.detail - BitVec.ofNat 64 owed } } else r
    let d : Core := { (without c a.id).addPending (accessRec a 0x1E a.mask) with
      pend := c.pend.map (fun p => if p.acc = a.id then { p with land := p.land.timedOut a, acc := 0 } else p)
      trap := c.trap.map less, deferred := c.deferred.map less }
    let bytes := (∀ x ∈ a.undo, ∃ pa, x.1 = .byte pa ∧ mcHolds s pa 1 = false) ∧ (a.undo.map (·.1)).Nodup ∧ s.ecc = []
    let outside (m : List Host.Cell) : Prop := ∀ pa, (∀ x ∈ a.undo, pa ∉ footprint (.one x.1)) → rd8 m pa = rd8 s.mem pa
    c.accs.find? (fun x => x.id = a.id) = some a → a.remote = true →
      (a.kind ≠ .expect → a.kind ≠ .arrive →
        ∃ m e w, exec (.remoteTimeout n (.access a.id)) s =
            .next { setCore s d with mem := m, ecc := e, writes := w, fresh := s.fresh + a.undo.length } ∧ outside m ∧
          (bytes → ∀ pa, rd8 m pa = rd8 s.mem pa ∨
            ∃ x ∈ a.undo, x.1 = .byte pa ∧ writesOf s x.1 = x.2.2 ∧ rd8 m pa = x.2.1)) ∧
      (∀ ev, (ev = .land ∧ a.kind = .arrive ∧ a.due = 0) ∨ (ev = .expect ∧ a.kind = .expect) →
        ∃ m w, exec (.remoteTimeout n (.access a.id)) s = .next { setCore s d with mem := m, writes := w, fresh := s.fresh + 1 } ∧
          (m = s.mem ∨ (syncBad s a.pa = false ∧ synced s ev a.pa a.opb.toNat m))) ∧
      (a.kind = .arrive → a.due ≠ 0 →
        ∃ m e w, exec (.remoteTimeout n (.access a.id)) s =
            .next { setCore s d with mem := m, ecc := e, writes := w, fresh := s.fresh + 1 } ∧ outside m ∧
          (m = s.mem ∨ ((∀ x ∈ a.undo, writesOf s x.1 = x.2.2) ∧
            (bytes → ∀ x ∈ a.undo, ∀ pa, x.1 = .byte pa → rd8 m pa = x.2.1))))) ∧
  (∀ (a : Access) (r lo len : Nat) (v : Word), a.word.toNat / 2 ^ 56 ≠ 0x35 →
    (Land.sreg r lo len v).timedOut a = .sreg r lo len 0 ∧ (Land.push r v).timedOut a = .push r 0) ∧
  (∀ (a : Access) (r : Nat) (v : Word), a.word.toNat / 2 ^ 56 = 0x35 → (Land.sreg r 0 64 v).timedOut a = .sreg r 0 64 a.opa) ∧
  (∀ (a : Access) (r j : Nat) (l : List (Nat × Cont × Cont)), (Land.vcol r j l).timedOut a =
    .vcol r j (if a.word.toNat / 2 ^ 56 = 0x51 then [] else l.map (fun x => (x.1, x.2.1, 0)))) ∧
  (∀ (a : Access) (k : Nat), (Land.cell k).timedOut a = .nothing) ∧
  (∀ (s : State) (c : Core) (va n pa : Nat) (wr : Bool), plainRun s c va n wr pa → 0 < n → paPkg pa ≠ s.plat.pkg → c.gang = 0 →
    c.cut = some (va, wr) → engPlaces s c va n wr = .fault 0x1E va 0) ∧
  (∀ (s : State) (n : Nat) (q : EngQ) (va : Nat) (e : Entry) (wr : Bool),
    let s1 := modCore (goOn (modCore s n (fun c => { c with cut := some (va, wr) })) n q e) n (fun c => { c with cut := none })
    let head := ((getCore s1 n).queue q).es.head?
    let ended (f : Entry) : Prop := f.ph = .pushing ∧ f.code = 0x1E
    ((getCore s n).queue q).es.head? = some e → q ≠ .trellis → (e.ph = .running ∨ e.ph = .waiting) →
      ((∀ f, head = some f → ¬ ended f) → exec (.remoteTimeout n (.entry q va wr)) s = .next s) ∧
      ∀ f, head = some f → ended f →
        (wr = false → exec (.remoteTimeout n (.entry q va wr)) s = .next s1) ∧
        (wr = true →
          let g : Entry := { f with ph := .running, code := 0, out := [] }
          let x := oneStep (modCore s1 n (fun c => c.setHead q g)) n q g
          let ps := cutPlaces s1 n q g va x.2
          ∃ m e w k, exec (.remoteTimeout n (.entry q va wr)) s = .next { s1 with mem := m, ecc := e, writes := w, fresh := k } ∧
            (∀ pa, (∀ p ∈ ps, pa ∉ footprint p) → rd8 m pa = rd8 s1.mem pa) ∧
            ((∀ p ∈ ps, ∃ pa, p = .one (.byte pa)) → ∀ pa, rd8 m pa = rd8 s1.mem pa ∨ (rd8 m pa = rd8 x.1.mem pa ∧ paPkg pa ≠ s.plat.pkg)))) ∧
  (∀ (s : State) (n : Nat) (e : Entry) (f : EregW) (pa : Nat),
    let c := getCore s n
    let ended (va : Nat) : State :=
      let h := endedAs e 0x1E va 0 (if f.md.testBit 3 then [BitVec.ofNat 64 (e.seq + 0x1E * 2 ^ 32)] else [])
      { setCore s ((c.setHead .bank h).addPending (entryFault .bank h)) with lsc := unlogged s n .bank e }
    c.bq.es.head? = some e → e.ph = .running → e.pos < e.c.toNat / 8 → c.gang = 0 → c.cut = none → c.run ≠ .ended → s.ecc = [] →
      (∀ va, e.i = .bcopy f → va = (e.b.toNat + 8 * e.pos) % 2 ^ 64 → plainRun s c va 8 false pa → paPkg pa ≠ s.plat.pkg →
        exec (.remoteTimeout n (.entry .bank va false)) s = .next (ended va)) ∧
      (∀ va, e.i = .bfill f → va = (e.a.toNat + 8 * e.pos) % 2 ^ 64 → plainRun s c va 8 true pa →
        (∀ i < 8, paPkg (pa + i) ≠ s.plat.pkg) →
          ∃ m w, exec (.remoteTimeout n (.entry .bank va true)) s =
              .next { ended va with mem := m, writes := w, fresh := s.fresh + 8 } ∧
            (∀ p, p < pa ∨ pa + 8 ≤ p → rd8 m p = rd8 s.mem p) ∧
            ∀ i < 8, rd8 m (pa + i) = if (Config.freeValue (s.fresh + i)).getLsbD 0 then BitVec.ofNat 8 (e.b.toNat / 256 ^ i)
              else rd8 s.mem (pa + i)))

/-- R125, R160, R163, R175-R177, R245, R252, R253, R273, R277, R381, R382: the course of an entry. CPSTAT and BSTAT at the head
make their status words and clear FLT; a copy to a handle that is not filling ends in 0x11, its fault waiting for delivery before
its word is pushed; a BFILL of plain memory fills it and nothing else, and is charged 64 bits a word; a word goes to the status
port when there is room; an entry without words left completes, or leaves failed; a finished row's bytes enter the tag's sync word;
a serviced page lets the job's parked entries retry, and a copy parked at one that cannot be serviced ends in extent fault 3.
Rests on the model's log 25 (DEDUCED), log 36 (DEDUCED), log 51 (DEDUCED). -/
def Obligations.EngineEvents : Prop :=
  (∀ (s : State) (n : Nat) (e : Entry) (f : EregW),
    let c := getCore s n
    let b := bedOf s n
    let held := b.halt && b.park
    let stat (flt : Bool) : Word := BitVec.ofNat 64 (e.seq + (if flt then 2 ^ 41 else 0) + 2 ^ 42 + e.a.toNat % 2 ^ 16 * 2 ^ 48)
    (canStart c .copy e → e.i = .cpstat f → held = false →
      exec (.engineEntryStart n .copy) s = .next (setCore s { c with
        cq := { c.cq with es := endedAs e 0 0 0 [stat c.cq.flt] :: c.cq.es.tail, flt := false } })) ∧
    (canStart c .bank e → e.i = .bstat f →
      exec (.engineEntryStart n .bank) s = .next (setCore s { c with
        bq := { c.bq with es := endedAs e 0 0 0 [stat c.bq.flt] :: c.bq.es.tail, flt := false } })) ∧
    (canStart c .copy e → e.i ∈ copyWords f → held = false → rbit e.recNat 700 = true → c.handle (fld e.recNat 576 5) ≠ .filling →
      c.run ≠ .ended →
      let g := endedAs e 0x11 0 (fld e.recNat 576 5)
        (if f.md.testBit 0 then [BitVec.ofNat 64 (e.seq + 0x11 * 2 ^ 32 + (if e.parks = 0 then 0 else 2 ^ 40))] else [])
      exec (.engineEntryStart n .copy) s = .next { setCore s ((c.setHead .copy g).addPending (entryFault .copy g)) with
        lsc := unlogged s n .copy e }) ∧
    (∀ x : Extent, canStart c .bank e → e.i = .bfill f → c.gang = 0 → e.pos = 0 → e.c.toNat % 8 = 0 → 0 < e.c.toNat →
      (∀ i < e.c.toNat, findExt c.extents (e.a.toNat + i) = some x) → e.a.toNat + e.c.toNat ≤ 2 ^ 64 → c.cut = none →
      x.wr = true → x.abs = false → x.cmp = false → paSpace x.pbase ≠ 3 → s.ecc = [] →
      (∀ i < e.c.toNat, paOk (x.pbase + (e.a.toNat - x.vbase) + i) = true ∧
        mcHolds s (x.pbase + (e.a.toNat - x.vbase) + i) 1 = false ∧
        paPkg (x.pbase + (e.a.toNat - x.vbase) + i) = s.plat.pkg) →
        let pa := x.pbase + (e.a.toNat - x.vbase)
        let e1 : Entry := { e with start := (bedOf s n).btick, shown := 0, pos := e.c.toNat / 8
                                   bits := e.bits + 8 * e.c.toNat, work := e.work + 8 * e.c.toNat }
        ∃ m, exec (.engineEntryStart n .bank) s = .next { setCore s (c.setHead .bank (endedAs e1 0 0 0
            (if f.md.testBit 3 then [BitVec.ofNat 64 e.seq] else []))) with mem := m, lsc := unlogged s n .bank e } ∧
          ∀ a, rd8 m a = if pa ≤ a ∧ a < pa + e.c.toNat then BitVec.ofNat 8 (e.b.toNat / 256 ^ ((a - pa) % 8)) else rd8 s.mem a)) ∧
  (∀ (s : State) (n : Nat) (q : EngQ) (e : Entry),
    let c := getCore s n
    let p := engineNo q + 3
    let room := (c.port p).length + pushesInFlight s n p < 16
    (c.queue q).es.head? = some e →
      (∀ v r, e.out = v :: r →
        (room → exec (.statusWordPush n q) s = .next (setCore s ((c.setPort p (c.port p ++
          [{ v := v, ready := (bedOf s n).btick, q := engineNo q, seq := e.seq }])).setHead q { e with out := r }))) ∧
        (¬ room → c.run ≠ .ended → exec (.statusWordPush n q) s = .next s)) ∧
      (e.ph = .pushing → e.out = [] → q = .bank →
        (e.code = 0 → ∃ d, exec (.engineEntryCompletion n q) s = .next (setCore s d) ∧ completed s n q e e.bits e.work c d) ∧
        (e.code ≠ 0 → ∃ d, exec (.engineEntryCompletion n q) s = .next (setCore s d) ∧ failed s n q e [] e.bits e.work c d)) ∧
      (∀ f, e.ph = .pushing → e.out = [] → q = .copy → e.i = .cpfill f → e.code = 0 → rbit e.recNat 700 = false →
        let w := widthOf e.recNat * e.pos
        ∃ d, exec (.engineEntryCompletion n q) s = .next (setCore s d) ∧ completed s n q e w w c d) ∧
      (∀ va pa, q = .copy → e.tagVa = some va → e.ph = .running → e.pos % cntOf e.recNat 0 = 0 →
        e.posted < e.pos * widthOf e.recNat / 8 → tagPlace s c va = .ok pa →
        let k := e.pos * widthOf e.recNat / 8 - e.posted
        let ends (m : List Host.Cell) (code addr detail : Nat) : Prop := ∃ out,
          let g := endedAs e code addr detail out
          exec (.syncTagPosting n) s = .next { setCore s (((c.setHead .copy g).addPending (entryFault .copy g)).foul (e.fills .copy)) with
            mem := m, lsc := unlogged s n .copy e }
        (syncBad s pa = true → c.run ≠ .ended → ends s.mem 0x1B (badAt s pa va) 0) ∧
        (syncBad s pa = false → ∃ m, synced s .land pa k m ∧
          (¬ overshoots s .land pa k → exec (.syncTagPosting n) s =
            .next (setCore { s with mem := m } (c.setHead .copy { e with posted := e.posted + k }))) ∧
          (overshoots s .land pa k → c.run ≠ .ended → ends m 0x16 va k)))) ∧
  (∀ (s : State) (n i : Nat) (x : Extent),
    let c := getCore s n
    c.extents[i]? = some x → x.abs = true → x.serviced = false →
      let s1 := setCore s { c with extents := c.extents.set i { x with serviced := true, requested := false } }
      let asked := ∃ k ∈ s1.core :: s1.others, k.job = c.job ∧ k.run ≠ .idle ∧ ∃ y ∈ k.extents, y.requested = true
      let s2 := setCore s { c with extents := c.extents.set i { x with requested := false } }
      (asked → exec (.pageServiced n i true) s = .next s1) ∧
      (¬ asked → ∃ t, exec (.pageServiced n i true) s = .next t ∧ retried s1 c.job t) ∧
      ((∀ q e, (c.queue q).es.head? = some e → e.ph ≠ .parked) → exec (.pageServiced n i false) s = .next s2) ∧
      (∀ e, c.cq.es.head? = some e → e.ph = .parked → x.vbase ≤ e.parkAddr → e.parkAddr < x.vbase + x.len → c.run ≠ .ended →
        (∀ q g, q ≠ .copy → (c.queue q).es.head? = some g → g.ph ≠ .parked) →
          ∃ out, let g := endedAs e 0x0C e.parkAddr 3 out
            exec (.pageServiced n i false) s = .next { setCore s2
                ((((getCore s2 n).setHead .copy g).addPending (entryFault .copy g)).foul (e.fills .copy)) with
              lsc := unlogged s n .copy e })) ∧
  (∀ (c : Core) (h : Nat), (c.foul none = c) ∧
    (c.foul (some h)).fouled = (if c.handle h = .filling then h :: c.fouled.filter (· ≠ h) else c.fouled) ∧
    c.foul (some h) = { c with fouled := (c.foul (some h)).fouled })

/-- R319, R320, R316, R318, R324, R326, R331, R333, R337, R34, R80: an unstamped head that has nothing to wait for, and a stamped one on
its tick, start: it runs from this bt on for the duration of R320, its handles are draining, TSWAP has exchanged the planes, a TMACB (which needs its
partner's) of column 0 has sent its rows into the lane; one whose tick is past ends in 0x10 with what kept it from that tick, and
a stamped entry behind the head misses this tick. What stops an entry as it starts is R337's: its handle, its plane counts, a shape
that TFETCH may not have, sparse metadata out of order, then the first byte outside its scratchpad or read-only. Nothing starts on the bt on which the entry before it ended. Having run its
duration an entry completes: ACLR clears its tile and is charged 656,385 bits, TORG sets the origin, TNOP does nothing.
Rests on the model's log 27 (DEDUCED). -/
def Obligations.TrellisEvents : Prop :=
  (∀ (s : State) (c : Core) (e : Entry),
    let wr := (startRows e).1
    let rows := (startRows e).2
    match (startChecks c e).find? (·.1) with
    | some x => trellisCheck s c e = some x.2
    | none =>
      ((∀ x ∈ rows, ownBytes s c wr x.1 x.2) → trellisCheck s c e = none) ∧
      ∀ pre x post i, rows = pre ++ x :: post → (∀ y ∈ pre, ownBytes s c wr y.1 y.2) → ¬ ownBytes s c wr x.1 x.2 → i < x.2 →
        (∀ j < i, ownBytes s c wr (x.1 + j) 1) → ¬ ownBytes s c wr (x.1 + i) 1 →
          trellisCheck s c e = some (if (ownSpad s c (x.1 + i) 1).isNone then 0x0C else 0x0D, x.1 + i, 0)) ∧
  ∀ (s : State) (n : Nat) (e : Entry),
    let c := getCore s n
    let bt := (bedOf s n).btick
    let filling (e : Entry) : Prop := ∃ h ∈ consumedHandles n e.i, c.handle h = .filling
    let waits (e : Entry) : Prop := ∃ k ∈ e.tokens.kcs, c.tokSet k = false
    let kept (e : Entry) : Nat := if waits e then 4 else if filling e then 2 else 1
    let behind (x : Entry) : Entry :=
      if x.ph = .waiting ∧ x.stamp ≠ 0 ∧ x.t + x.stamp = bt ∧ x.miss = 0 then { x with miss := kept x } else x
    let runs (rest : List Entry) (t : State) : Prop :=
      let d := getCore t n
      t.mem = s.mem ∧ (∃ f, d.tq.es = f :: rest ∧ f.ph = .running ∧ f.start = bt ∧ f.pos = 0 ∧ f.lost = 0 ∧ f.dur = ticks c e ∧
        f.i = e.i ∧ f.word = e.word) ∧
      (∀ h, d.handle h = if h ∈ consumedHandles n e.i then .draining else c.handle h) ∧
      (match e.i with | .tswap _ => d.act = c.shd ∧ d.shd = c.act | _ => d.act = c.act ∧ d.shd = c.shd) ∧
      (match e.i with
        | .tmacb f => d.lane = if n % 2 = 0 then some (c.slotRows (f.opf / 2 ^ 10 % 32)) else c.lane
        | _ => d.lane = c.lane)
    c.num = n → c.tq.es.head? = some e → e.ph = .waiting →
      (e.stamp = 0 → e.t + 1 ≤ bt → c.tq.next ≤ bt → ¬ waits e → ¬ filling e →
        (trellisCheck s c e = none → ∃ t, exec (.trellisEntryStart n) s = .next t ∧ runs c.tq.es.tail t) ∧
        (∀ code addr detail, trellisCheck s c e = some (code, addr, detail) → c.run ≠ .ended →
          ∃ d, exec (.trellisEntryStart n) s = .next (setCore s d) ∧ failed s n .trellis e [{ entryFault .trellis e with
            code := code, addr := BitVec.ofNat 64 addr, detail := BitVec.ofNat 64 detail }] 0 0 c d)) ∧
      (bt < c.tq.next → exec (.trellisEntryStart n) s = .next s) ∧
      (e.stamp ≠ 0 →
        let c1 : Core := { c with tq := { c.tq with es := e :: c.tq.es.tail.map behind } }
        let s1 := setCore s c1
        (e.t + e.stamp = bt → c.tq.next ≤ bt → e.miss = 0 → ¬ waits e → ¬ filling e → trellisCheck s1 c1 e = none →
          (∀ f, e.i = .tmacb f → partnerMatches s1 c1 e bt = true) →
            ∃ t, exec (.stampTick n) s = .next t ∧ runs (c.tq.es.tail.map behind) t) ∧
        (e.t + e.stamp < bt → c.tq.next ≤ bt → c.run ≠ .ended →
          ∃ d, exec (.stampTick n) s = .next (setCore s d) ∧ failed s1 n .trellis e [{ entryFault .trellis e with
            code := 0x10, addr := 0, detail := BitVec.ofNat 64 (if e.miss ≠ 0 then e.miss else kept e) }] 0 0 c1 d)) ∧
      ∀ r : Entry, r = { e with ph := .running } → ∀ u : State, u = setCore s (c.setHead .trellis r) →
        r.out = [] → r.dur ≤ r.pos →
        (∀ f, e.i = .tnop f → ∃ d, exec (.trellisEntryCompletion n) u = .next (setCore u d) ∧
          completed u n .trellis r 0 0 (c.setHead .trellis r) d) ∧
        (∀ f, e.i = .aclr f → ∃ d, exec (.trellisEntryCompletion n) u = .next (setCore u d) ∧
          d.tile (f.md % 4) = { el := [], exp := [], sat := false } ∧ (∀ t, t ≠ f.md % 4 → d.tile t = c.tile t) ∧
          completed u n .trellis r 656385 656385 { c.setHead .trellis r with tiles := d.tiles, bad := d.bad } d) ∧
        (∀ f, e.i = .torg f → ∃ d, exec (.trellisEntryCompletion n) u = .next (setCore u d) ∧
          d.org = e.a.toNat % 128 + 128 * (e.a.toNat / 256 % 128) ∧
          completed u n .trellis r 0 0 { c.setHead .trellis r with org := d.org } d)

/-- R45, R54, R65, R323: with the row's exponent 0 and no clamp in reach, a product of an a-plane by a b-plane tile adds to each
element the exact sum of the 128 products of the two's complement numbers the planes hold. -/
def Obligations.TrellisProduct : Prop :=
  ∀ (t : Tile) (x : Nat → Nat → Nat → Nat) (w : Plane) (a b m n : Nat), 1 ≤ a → a ≤ 8 → 1 ≤ b → b ≤ 8 → m < 128 → n < 128 →
    (∀ i r k, x i r k ≤ 1) → t.ex m = 0 → -(2 ^ 38) ≤ t.get m n → t.get m n ≤ 2 ^ 38 →
      (macTile t x w a b (a * b)).1.get m n =
        t.get m n + ((List.range 128).map (fun k => planes a (fun i => x i m k) * planes b (fun i => w.bit i k n))).sum

/-- R228, R254, R260, R371-R373, R387, R406-R408, R413-R415: a barrier advances once every unit has arrived or ended and no vote of
the launch is outstanding or has diverged, and not before; with it the LSC may move an extent to other frames, which then hold its
contents; as a unit's next superstep begins its serviced extents are present, the changes of its table take effect and its span
starts anew; a work span over its budget raises deadline; a sieve's vote is what R371's table says, reaches the members and marks
the launches it diverges; an acknowledgement of the last rank commits a gang; an abort before commit aborts every member; a gang that
is past and of which no member lives here starts anew with the acknowledgement of a rank heard of before (R415).
Rests on the model's log 22 (DEDUCED), log 45 (DESIGN CHOICE), log 79 (DEDUCED). -/
def Obligations.VotesAndBarriers : Prop :=
  (∀ (s : State) (x : Launch), getLaunch s x.job x.lid = some x → x.isOver = false → x.diverged = false →
    (∃ u ∈ x.units, u.arrived = true) → (∀ u ∈ x.units, u.arrived = true ∨ hasEnded s u) → (∀ c ∈ s.core :: s.others, c.dones = []) →
      exec (.barrierAdvance x.job ⟨x.lid, []⟩) s = .next (setLaunch s (advanced x)) ∧
      (∀ (m : Move) (e : Extent), moveExtent s x m = some e → moveFits s e m = true → m.evict = false → e.cmp = false →
        m.cmp = false → s.MemWf → ∃ t, exec (.barrierAdvance x.job ⟨x.lid, [m]⟩) s = .next (setLaunch t (advanced x)) ∧
          t.lsc = { s.lsc with moves := s.lsc.moves ++ [(x.job, x.lid, m)] } ∧ t.core = s.core ∧ t.others = s.others ∧
          ∀ a, rd8 t.mem a = if m.pbase ≤ a ∧ a < m.pbase + e.len then rd8 s.mem (e.pbase + (a - m.pbase)) else rd8 s.mem a)) ∧
  (∀ (s : State) (x : Launch), getLaunch s x.job x.lid = some x →
    (x.diverged = true ∨ (∃ c ∈ s.core :: s.others, c.run ≠ .idle ∧ c.job = x.job ∧ c.lid = x.lid ∧ c.dones ≠ []) ∨
      ∃ u ∈ x.units, u.arrived = false ∧ ¬ hasEnded s u) → ∀ ms, exec (.barrierAdvance x.job ⟨x.lid, ms⟩) s = .next s) ∧
  (∀ (s : State) (c : Core), c.num = s.core.num →
    let mine := s.lsc.moves.filter (fun y => y.1 = c.job ∧ y.2.1 = c.lid ∧ y.2.2.unit = c.unit)
    let t := nextSuperstep s c
    t.core = { c with supers := c.supers + 1, span := true, spent := 0, extents := t.core.extents } ∧ t.others = s.others ∧
      t.mem = s.mem ∧ t.lsc.moves = s.lsc.moves.filter (fun y => ¬ (y.1 = c.job ∧ y.2.1 = c.lid ∧ y.2.2.unit = c.unit)) ∧
      ∀ i e, c.extents[i]? = some e →
        let f := { e with abs := e.abs && !e.serviced, serviced := false }
        ((∀ y ∈ mine, y.2.2.ext ≠ i) → t.core.extents[i]? = some f) ∧
        (∀ m : Move, mine = [(c.job, c.lid, m)] → m.ext = i →
          t.core.extents[i]? = some (if m.evict then { f with abs := true, requested := false }
            else { f with pbase := m.pbase, cmp := m.cmp, expt := m.expt }))) ∧
  (∀ (s : State) (n : Nat),
    let c := getCore s n
    c.run = .running → c.span = true → c.budget ≠ 0 → c.budget < c.spent → c.event = none →
      exec (.budgetExpiry n) s = .next (setCore s { c with
        span := false
        event := some { FaultRec.none with code := 0x17, kind := 3, detail := BitVec.ofNat 64 c.budget } })) ∧
  (∀ l : List (Word × Word), l ≠ [] →
    ((∀ x ∈ l, ∀ y ∈ l, x = y) → (vote l).1 = 1 ∧ (vote l).2.1 = 0) ∧
    (¬ (∀ x ∈ l, ∀ y ∈ l, x = y) →
      (3 ≤ l.length → ∀ v ∈ l, l.length < 2 * l.count v → (vote l).1 = 2 ∧ (vote l).2.2 = v ∧
        ∀ a, (vote l).2.1.testBit a = (l[a]?).any (fun d => decide (d ≠ v))) ∧
      ((l.length < 3 ∨ ∀ v ∈ l, 2 * l.count v ≤ l.length) → (vote l).1 = 3 ∧ (vote l).2.1 = 0))) ∧
  (∀ (s : State) (job cgid k : Nat), ripeInstance s job cgid = some k →
    let v := vote (replicas s job cgid k)
    ∃ t, (if v.1 = 1 then exec (.sieveVote job cgid) s = .next t else lscTo (.sieveVote job cgid) s t) ∧ t.mem = s.mem ∧
      t.digests = s.digests.filter (fun d => ¬ (d.job = job ∧ d.cgid = cgid ∧ d.inst = k)) ∧
      (let c := s.core
       c.run ≠ .idle → c.job = job → (∃ g ∈ c.groups, g.cgid = cgid) →
         t.core.dones = c.dones.filter (fun x => x ≠ (cgid, k)) ∧
         t.core.groups = c.groups.map (fun g =>
           if g.cgid = cgid then { g with vres := v.1, vgen := k % 2 ^ 16, minor := v.2.1 } else g) ∧
         (v.1 = 1 → t.core.event = c.event) ∧
         (v.1 ≠ 1 → c.run = .running → c.event = none →
           (∃ x ∈ s.lsc.launches, x.job = job ∧ x.lid = c.lid ∧ x.isOver = false ∧ ∃ g ∈ x.cgs, g.1 = cgid) →
           ∃ r, t.core.event = some r ∧ r.code = 0x18 ∧ r.kind = 3)) ∧
      (v.1 ≠ 1 → ∀ x ∈ s.lsc.launches, x.job = job → x.isOver = false → (∃ g ∈ x.cgs, g.1 = cgid) →
        (∃ y ∈ t.lsc.launches, y.job = job ∧ y.lid = x.lid ∧ y.diverged = true) ∧
        ((getGroup t 3 job x.phase).isOver = true ∨ (getGroup t 3 job x.phase).diverged = true))) ∧
  (∀ (s : State) (job gang : Nat) (m : GangMember),
    let g := (s.lsc.gangs.find? (fun y => y.job = job ∧ y.num = gang)).getD ⟨job, gang, [], false, false⟩
    let k := g.acks.length + 1
    g.committed = false → g.aborted = false → m.rank ≤ m.gnp → m.rank ∉ g.acks →
    (∀ y ∈ s.lsc.launches, y.job = job → y.gang = gang → y.grk = m.rank → y.isOver = false → y.state = .running) →
      ∃ t, exec (.gangAck job gang m) s = .next t ∧ t.mem = s.mem ∧
        { g with acks := g.acks ++ [m.rank], committed := decide (m.gnp < k) } ∈ t.lsc.gangs ∧
        (k ≤ m.gnp → t.core = s.core ∧ t.others = s.others) ∧
        (m.gnp < k → ∀ x ∈ s.lsc.launches, x.job = job → x.gang = gang → ∀ u ∈ x.units, u.state = .running →
          (getCore t u.core).gang = 0)) ∧
  (∀ (s : State) (job gang : Nat) (m : GangMember), ∀ g ∈ s.lsc.gangs.find? (fun y => y.job = job ∧ y.num = gang),
    g.committed = true ∨ g.aborted = true → m.rank ≤ m.gnp →
      let lives := ∃ y ∈ s.lsc.launches, y.job = job ∧ y.gang = gang ∧ y.isOver = false
      (lives → exec (.gangAck job gang m) s = .next s) ∧
      (¬ lives → m.rank ∈ g.acks → ∃ t, exec (.gangAck job gang m) s = .next t ∧ t.mem = s.mem ∧
        ⟨job, gang, [m.rank], decide (m.gnp = 0), false⟩ ∈ t.lsc.gangs)) ∧
  (∀ (s : State) (job gang : Nat), ∃ t, lscTo (.gangAbort job gang) s t ∧
    ((∃ g ∈ s.lsc.gangs, g.job = job ∧ g.num = gang) → (∀ g ∈ s.lsc.gangs, g.job = job → g.num = gang → g.committed = true) →
      t = s) ∧
    ((∀ g ∈ s.lsc.gangs, g.job = job → g.num = gang → g.committed = false ∧ g.aborted = false) →
      (∃ g ∈ t.lsc.gangs, g.job = job ∧ g.num = gang ∧ g.aborted = true) ∧
      ∀ x ∈ s.lsc.launches, x.job = job → x.gang = gang → x.isOver = false →
        ∃ y ∈ t.lsc.launches, y.job = job ∧ y.lid = x.lid ∧ y.aborted = true))

/-- R389-R394, R181, R253, R401, R402: the LSC takes the next record: TAKEN advances; one that breaks a rule of R394 has no effect
but REJECT + 1 and a LEVEL 5 record with the rule's DETAIL; a launch is queued with the record's fields, its counter (and that of a
graph not named before) at 0, where the counter page can be written; a cancel cancels every launch it names that has not ended, and
has no effect on a level, or a launch, that has ended; the others do
what R393 says: a bed that resumes lets held entries go on. Nothing is taken while a completion record is kept back.
Rests on the model's log 42 (DEDUCED). -/
def Obligations.SubmissionRecords : Prop :=
  (∀ (s : State) (n r d : Nat), atHead s n r → (firstRow r).or (laterRows s r) = some d → ∀ i ∈ recordEvents (r % 256),
    exec i s = .next { s with
      mem := wr64 (wr64 s.mem (s.plat.subbase + 8) (n + 1)) (s.plat.subbase + 0x10) (rd64 s.mem (s.plat.subbase + 0x10) + 1)
      lsc := { s.lsc with backlog := [{
        level := 5, status := 7, code := 0, code2 := 0, job := bits r 48 16, unit := 0, id := n % 2 ^ 32, detail := d
        ebits := 0, ej := 0 }] } }) ∧
  (∀ r, r % 256 = 0 ∨ 8 < r % 256 → firstRow r = some 0) ∧
  (∀ (s : State) (r : Nat), r % 256 ∈ [1, 3, 4, 5, 8] → getJob s (bits r 48 16) = none → laterRows s r = some 0x10000) ∧
  (∀ (s : State), s.lsc.backlog ≠ [] → ∀ ty, ∀ i ∈ recordEvents ty, exec i s = .next s) ∧
  (∀ (s : State) (n r : Nat), atHead s n r → accepted s r →
    let job := bits r 48 16
    let s1 := taken s n
    (r % 256 = 1 → ∃ t x, lscTo .launchRecord s t ∧ t.core = s.core ∧ t.others = s.others ∧
      (∀ j, getJob s job = some j → counts s j →
        cleared ((j.jstat + 2048 + 8 * (bits r 64 32 % 256)) :: newGraph s j (bits r 96 32)) s1.mem t.mem) ∧
      t.lsc.launches = s.lsc.launches ++ [x] ∧ x.state = .queued ∧ x.isOver = false ∧ x.aborted = false ∧ x.diverged = false ∧ x.units = [] ∧ x.beds = [] ∧
      x.prio = bits r 8 2 ∧ x.upb = bits r 10 3 ∧ x.spread = r.testBit 13 ∧ x.dbg = r.testBit 14 ∧ x.dmask = bits r 16 4 ∧
      x.gres = bits r 20 7 ∧ x.nbeds = bits r 32 5 + 1 ∧ x.job = job ∧ x.lid = bits r 64 32 ∧ x.graph = bits r 96 32 ∧
      x.phase = bits r 128 32 ∧ x.image = bits r 192 64 ∧ x.tmpl = bits r 256 16 ∧ x.args = bits r 320 64 ∧
      (bits r 384 40 ≠ 0 → x.budget = bits r 384 40) ∧ x.seedmode = bits r 448 3 ∧ x.seedcnt = bits r 480 32 ∧
      x.seedlog = bits r 512 64 ∧ x.sbmlen = bits r 576 40 ∧ x.gang = bits r 640 32 ∧ x.gnp = bits r 672 6 ∧ x.grk = bits r 680 6 ∧
      x.gcp = bits r 686 6) ∧
    (r % 256 = 2 → ∀ j, getJob s job = some j → j.state = .ended ∨ cancelIdle s j (bits r 8 3) (bits r 64 32) = true →
      lscTo .cancelRecord s s1) ∧
    (r % 256 = 2 → distinct s → ∀ j, getJob s job = some j → j.state ≠ .ended → cancelIdle s j (bits r 8 3) (bits r 64 32) = false →
      ∃ t, lscTo .cancelRecord s t ∧ ∀ x ∈ s.lsc.launches, x.job = job →
        (launchEnded s x → x.gang = 0 → x ∈ t.lsc.launches) ∧
        (¬ launchEnded s x → (bits r 8 3 = 1 ∨ apart s x) →
          (match bits r 8 3 with
            | 1 => x.lid = bits r 64 32 | 2 => x.graph = bits r 64 32 | 3 => x.phase = bits r 64 32 | _ => True) →
          ∃ y ∈ t.lsc.launches, y.job = job ∧ y.lid = x.lid ∧ y.state = .cancelled)) ∧
    (r % 256 = 3 → ∃ t, lscTo .replayRecord s t ∧ retried s1 job t) ∧
    (r % 256 = 4 → ∃ t, lscTo .resumeBed s t ∧
      t = { modBed s1 (bits r 8 5) (fun b => { b with halt := false, park := false }) with core := t.core, others := t.others } ∧
      ∀ n, getCore t n =
        let c := getCore s n
        if n / 8 = bits r 8 5 then { c with tq := wentOn c.tq, cq := wentOn c.cq, gq := wentOn c.gq } else c) ∧
    (r % 256 = 8 → lscTo .haltBed s (modBed s1 (bits r 8 5) (fun b => { b with halt := true, park := r.testBit 13 }))) ∧
    (r % 256 = 5 → ∃ t, lscTo .close s t ∧
      t = { putGroup s1 { getGroup s1 (bits r 8 3) job (bits r 64 32) with count := some (bits r 96 32) } with mem := t.mem } ∧
      ∀ j, getJob s job = some j → counts s j → cleared (if bits r 8 3 = 2 then newGraph s j (bits r 64 32) else []) s1.mem t.mem) ∧
    (r % 256 = 6 → ∃ t j, lscTo .openJob s t ∧ getJob t job = some j ∧ j.state = .active ∧ j.phase = 0 ∧ j.cancelled = false ∧
      j.xvec = bits r 192 64 ∧ j.jstat = bits r 256 64 ∧ j.cdest = bits r 320 64 ∧ j.ckey = bits r 384 64 ∧
      (∀ x ∈ t.lsc.launches, x.job ≠ job) ∧
      ∀ a, rd8 t.mem a = if j.jstat ≤ a ∧ a < j.jstat + 4096 then 0 else rd8 s1.mem a) ∧
    (r % 256 = 7 → ∀ j, getJob s job = some j → lscTo .endJob s (putJob s1 { j with ending := true })))

/-- R400, R403-R405, R42, R395, R396, R398, R409-R412, R424: the launch chosen is Placing on its beds, unit (UPB + 1) i + c on core c of
the i-th; a Ready launch ages; the oldest completion record kept is written to the ring while CREAD allows and the stack of die 0 is
up, and to the host over ports that are up; a placed unit starts in
the state of R42, or goes on at its saved XPC on a core of its own, its ports holding what they held and what has come since; a
stopped unit whose work is through, and to whose ports nothing more can come, is saved.
Rests on the model's log 9 (DESIGN CHOICE), log 47 (DESIGN CHOICE, DEDUCED). -/
def Obligations.LaunchCourse : Prop :=
  (∀ (s : State) (x : Launch) (beds : List Nat), s.plat.power = .ready → pickReady s = some (x, beds) → distinct s →
    x ∈ s.lsc.launches → ∃ t, exec .launchPlacement s = .next t ∧ t.core = s.core ∧ t.others = s.others ∧
      ∃ y, getLaunch t x.job x.lid = some y ∧ y.state = .placing ∧ y.beds = beds ∧
        ∀ i b, beds[i]? = some b → ∀ c ≤ x.upb, ∃ u ∈ y.units, u.idx = (x.upb + 1) * i + c ∧ u.core = 8 * b + c) ∧
  (∀ (s : State) (x : Launch), getLaunch s x.job x.lid = some x → x.state = .ready →
    exec (.launchAgeing x.job x.lid) s = .next (setLaunch s { x with age := x.age + 1 })) ∧
  (∀ s : State, s.plat.power = .ready ∨ s.plat.power = .tripped →
    let t := afterLsc (reapAll s)
    let sub := t.plat.subbase
    let done := rd64 t.mem (sub + 0x18)
    let room := done < rd64 t.mem (sub + 0x20) + 32768 ∧ railDown t 4 = false
    let ports := t.plat.power ∈ [.ready, .linked, .tripped, .recovery] ∧ railDown t 8 = false
    (t.lsc.backlog = [] ∨ ¬ room → exec .completionRecordWrite s = .next t) ∧
    (∀ r rest, t.lsc.backlog = r :: rest → room →
      let u : State := { t with
        mem := wr64 (wrN t.mem (sub + 0x101000 + 32 * (done % 32768)) (leBytes 32 (recordBits r))) (sub + 0x18) (done + 1)
        lsc := { t.lsc with backlog := rest } }
      exec .completionRecordWrite s = .next (match getJob t r.job with
        | some j => if j.cdest ≠ 0 ∧ ports then said u (.pushed j.peer j.ckey (j.cdest + 32 * (done % 32768)) r) else u
        | none => u))) ∧
  (∀ (s : State) (x : Launch) (u : UnitRec) (i : Image) (t : Template),
    getLaunch s x.job x.lid = some x → x.units.find? (fun y => y.idx = u.idx) = some u → s.plat.power = .ready → u.state = .placed →
    x.isOver = false → x.state ≠ .cancelled → imageOf s x.image = some i → i.templates[x.tmpl]? = some t →
      (u.saved = [] → (buildExtents (loadSpad s x u.core) x u.core).length ≤ 64 →
        ∃ t', exec (.unitStart x.job x.lid u.idx) s = .next t' ∧ atStart (getCore t' u.core) x u t ∧
          (getCore t' u.core).extents = buildExtents (loadSpad s x u.core) x u.core) ∧
      (∀ c r, u.saved = c :: r →
        ∃ t', exec (.unitStart x.job x.lid u.idx) s = .next t' ∧
          (let d := getCore t' u.core
           d.run = .running ∧ d.view = .unit ∧ d.pc = c.xpc ∧ d.pre = false ∧ d.s = c.s ∧ d.ut = c.ut ∧
           (∀ q < 8, d.port q = c.port q ++ (getCore s u.core).port q) ∧ d.flights = (getCore s u.core).flights ∧
           d.ebits = c.ebits ∧ d.ej = c.ej ∧ d.equota = c.equota ∧ d.v = c.v ∧ d.p = c.p ∧ d.tiles = c.tiles ∧ d.slots = c.slots ∧
           d.handles = c.handles ∧ d.graft = c.graft ∧ d.vshape = c.vshape ∧ d.rmode = c.rmode))) ∧
  (∀ (s : State) (n : Nat) (x : Launch) (u : UnitRec),
    let c := getCore s n
    getLaunch s c.job c.lid = some x → x.units.find? (fun y => y.idx = c.unit) = some u → c.run = .stopped → u.core = n →
    (u.state = .running ∨ u.state = .stopped) →
      (c.quiet = true → portsSettled s c = true → ∃ t d, lscTo (.unitSave n) s t ∧ (getCore t n).run = .idle ∧ t.mem = s.mem ∧
        (∃ y z, getLaunch t x.job x.lid = some y ∧ z ∈ y.units ∧ z.idx = u.idx ∧ z.state = .saved ∧ z.saved = [d]) ∧
        d.xpc = c.xpc ∧ d.ut = c.ut ∧ d.ebits = c.ebits ∧ d.ej = c.ej ∧ d.equota = c.equota ∧ d.graft = c.graft ∧
        (((imageOf s x.image).map (fun i => i.maps.length)).getD 0 ≤ c.livemap →
          d.s = c.s ∧ d.v = c.v ∧ d.p = c.p ∧ d.tiles = c.tiles ∧ d.slots = c.slots ∧ d.handles = c.handles)) ∧
      (c.quiet = false ∨ portsSettled s c = false → exec (.unitSave n) s = .next (setLaunch s { x with
        units := x.units.map (fun y => if y.idx = u.idx then { u with state := .stopped } else y) })))

/-- R144, R257, R258, R388, R389, R396, R423, R425, R426, R428, R429: what the host's accesses do. NOTIFY is added to, CREAD moves
up to CDONE and no further, PWRCAP takes 300-1,400 W, a PRESET of 1 brings the package up anew, READY not yet set, or into recovery
where no image verifies; RDOOR verifies an image in recovery alone and makes it the firmware; an attestation signs MEAS, nonce and
PSTAT; an access to a job's memory reads and writes it, the blocks of compressed frames expanded, a corrupt one an error; a request
the package does not answer for now, or to an address that is none of its, gets an error.
Rests on the model's log 11 (DESIGN CHOICE), log 12 (DESIGN CHOICE), log 59 (DEDUCED), log 60 (DEDUCED), log 82 (DEDUCED). -/
def Obligations.HostDoors : Prop :=
  ∀ s : State,
    let sub := s.plat.subbase
    let up := railDown s 8 = false
    let page := s.plat.platbase
    let comes := s.plat.power = .linked ∨ s.plat.power = .ready
    let alive := comes ∨ s.plat.power = .tripped ∨ s.plat.power = .recovery
    (s.plat.power = .ready → ∀ n : Submission,
      let v := (rd64 s.mem sub + n.count) % 2 ^ 64
      exec (.notify n) s = .next (said { s with
        mem := wr64 s.mem sub v
        lsc := { s.lsc with notices := s.lsc.notices.filter (fun x => decide (rd64 s.mem (sub + 8) < x.1)) ++ [(v, n.peer)] }
        } (.old sub (BitVec.ofNat 64 (rd64 s.mem sub))))) ∧
    (alive → s.plat.power ≠ .ready → up → ∀ n, exec (.notify n) s = .next (said s (.error sub))) ∧
    (s.plat.power = .ready ∨ s.plat.power = .tripped → up → railDown s 4 = false → ∀ n,
      exec (.cread n) s = .next (said (if rd64 s.mem (sub + 0x20) ≤ n ∧ n ≤ rd64 s.mem (sub + 0x18) then
        { s with mem := wr64 s.mem (sub + 0x20) n } else s) (.stored (sub + 0x20)))) ∧
    (s.plat.power = .linked ∨ s.plat.power = .recovery → up → ∀ n, exec (.cread n) s = .next (said s (.error (sub + 0x20)))) ∧
    (s.plat.power = .ready → ∀ v : Word, ∃ t, exec (.pwrcap v) s = .next t ∧
      t.plat.pwrcap = (if 300 ≤ v.toNat ∧ v.toNat ≤ 1400 then v.toNat else s.plat.pwrcap) ∧ t.mem = s.mem) ∧
    (alive → up →
      (∀ v : Word, v ≠ 1 → exec (.preset v) s = .next (said s (.stored (page + 0x18)))) ∧
      ∃ t, exec (.preset 1) s = .next t ∧ t.plat.rfail = (s.plat.rfail || s.plat.railTrip) ∧
        t.plat.ttrip = (s.plat.ttrip || s.plat.heatTrip) ∧ noUnits t ∧
        t.lsc.launches = [] ∧ t.lsc.jobs = [] ∧
        (if verified s.plat s.plat.image = true ∨ verified s.plat s.plat.prev = true then
          t.plat.power = .linked ∧ (∀ a, sub ≤ a → a < sub + 0x201000 → rd8 t.mem a = 0) ∧
            t.plat.image = (if verified s.plat s.plat.image then s.plat.image else s.plat.prev)
        else t.plat.power = .recovery)) ∧
    (s.plat.power = .ready → up → ∀ n, exec (.rdoor n) s = .next (said s (.stored (page + 0x20)))) ∧
    (s.plat.power = .linked ∨ s.plat.power = .tripped → up → ∀ n, exec (.rdoor n) s = .next (said s (.error (page + 0x20)))) ∧
    (s.plat.power = .recovery → up → ∀ n, 0 < n → n ≤ 64 * 2 ^ 20 →
      let img := rdN s.mem (paMk s.plat.pkg 0 0 0 + 0x10000000) n
      (Config.verifies img = false → exec (.rdoor n) s = .next (said s (.stored (page + 0x20)))) ∧
      (Config.verifies img = true → ∃ t, exec (.rdoor n) s = .next t ∧ t.plat.image = img ∧ t.plat.prev = s.plat.image ∧
        t.plat.power = .linked)) ∧
    (comes → s.plat.recov = false → ∀ nonce, nonce < 2 ^ 256 →
      let m := leNat (sha384 (if s.plat.image = [] then Config.deliveryImage else s.plat.image))
      ∃ p, exec (.attestationRequest nonce) s =
          .next (said s (.attest m nonce p (Config.signature (leBytes 48 m ++ leBytes 32 nonce ++ leBytes 8 p)))) ∧
        (∀ i < 9, p.testBit i = s.plat.derate.testBit i) ∧ p.testBit 16 = s.plat.rfail ∧ p.testBit 17 = s.plat.ttrip ∧
        (p.testBit 18 = true ↔ s.plat.power = .ready) ∧ p.testBit 19 = false) ∧
    (alive → up → ∀ addr len, paPkg addr = s.plat.pkg →
      let load := exec (.remoteAccess (.load addr len)) s
      let store (bs : List Byte) := exec (.remoteAccess (.store addr bs)) s
      let none : Res := .next (said s (.error addr))
      (remoteHome s addr len = .job →
        (plainJob s addr len → s.ecc = [] →
          load = .next (said s (.loaded addr (rdN s.mem addr len))) ∧
          (∀ bs : List Byte, bs.length = len → store bs = .next (said { s with mem := wrN s.mem addr bs } (.stored addr))) ∧
          (∀ (b c : Word) (peer : Nat), len = 8 → addr % 8 = 0 → exec (.remoteAccess (.atomic .add addr b c peer)) s =
            .next (said { s with mem := wrN s.mem addr (leBytes 8 ((leNat (rdN s.mem addr 8) + b.toNat) % 2 ^ 64)) }
              (.old addr (BitVec.ofNat 64 (leNat (rdN s.mem addr 8))))))) ∧
        (∀ x k, k < len → (plainJob s addr k) → (∀ i, k ≤ i → i < len → frameAt s (addr + i) = some x) →
          k = 0 ∨ (x.2.1 = addr + k ∧ s.ecc = []) →
          let q := addr + k - x.2.1
          let slot := x.2.1 + 160 * (q / 160)
          q % 160 + (len - k) ≤ 128 → paSpace x.2.1 ≠ 3 → paOk slot = true → mcHolds s slot 160 = false →
            (readBlock s slot = .none → load = none) ∧
            ∀ bs, readBlock s slot = some bs → load = .next (said s (.loaded addr
              (rdN s.mem addr k ++ (List.range (len - k)).map (fun i => bs.getD (q % 160 + i) 0))))) ∧
        ((∀ i < len, frameAt s (addr + i) = .none) → (∃ i < len, jobHolds s (addr + i) = false) →
          load = none ∧ ∀ bs : List Byte, bs.length = len → store bs = none)) ∧
      (remoteHome s addr len = .nowhere → load = none ∧ ∀ bs : List Byte, bs.length = len → store bs = none))

/-- R16-R18, R22, R29, R181, R183, R184, R261, R416, R421-R424, R429: the clock and the platform. A wall tick of a bed advances
BWALL by one and BTICK by at most one, by none while a halt or freeze lasts, counts a freeze down, sets RAMPHINT by the die's
temperature (a bed that resumes sets it alike), and at a boundary that a pair shares gives both its beds one PERIOD, no shorter
than the temperature asks for; a bed that nothing keeps takes its next tick with the next wall tick. RAMPHINT is the ramp of the
least 0.90/k + k L(T) of R21, the shorter of two that tie, at every temperature, and the thermal demand takes the steps of R416. An
error freezes its bed for 32 wt and counts; a die's temperature is the highest of its four sensors'; a lost phase derates its rail
or asks for a trip, and VSB's takes the package down. A trip that a rail or heat asks for stops each bed at its next tick boundary,
changing nothing else; with the last bed that holds a unit PSTAT is written and every unit has ended. Where no unit can run, it is
at once. Power on brings the package up, READY last, on an image that verifies, and its loss takes everything volatile; an
aperture's registers change unless their rules, or the extent over it of a unit that has not ended, forbid it, which is reported.
Rests on the model's log 10 (DESIGN CHOICE), log 57 (DESIGN CHOICE), log 58 (DEDUCED), log 62 (DEDUCED), log 98 (DESIGN CHOICE). -/
def Obligations.PlatformEvents : Prop :=
  (∀ n : Int,
    let cost (e : Nat) : ℝ := 0.9 / 2 ^ e + 2 ^ e * (0.015 * (2 : ℝ) ^ ((n : ℝ) / 192))
    rampHint n ≤ 5 ∧ (∀ e ≤ 5, cost (rampHint n) ≤ cost e) ∧ ∀ e < rampHint n, cost (rampHint n) < cost e) ∧
  (∀ t : Int, (t ≤ 1680 → thermalDemand t = 16) ∧ (1760 ≤ t → thermalDemand t = 64) ∧
    (1680 < t → t < 1760 → (thermalDemand t : Int) = 16 + ⌈(48 : ℚ) * (t / 16 - 105) / 5⌉)) ∧
  ∀ s : State,
    let pw := s.plat.power
    let tripping := s.plat.railTrip = true ∨ s.plat.heatTrip = true
    (pw = .ready → tripping → ∀ b < 32,
      let live := ∃ n < 256, (getCore s n).run ≠ .idle ∧ n / 8 ≠ b ∧ n / 8 ∉ s.plat.stopped
      let counts := (getBed s b).closed = false ∧ ∃ n, n / 8 = b ∧ (getCore s n).run ≠ .idle ∧ ∃ e ∈ (getCore s n).tq.es.head?, e.ph = .running
      ∃ t, exec (.scheduleTick b) s = .next t ∧
        (t.plat.power = .tripped → noUnits t ∧ t.plat.rfail = (s.plat.rfail || s.plat.railTrip) ∧
          t.plat.ttrip = (s.plat.ttrip || s.plat.heatTrip)) ∧
        (t.plat.power ≠ .tripped → t.plat = { s.plat with stopped := b :: s.plat.stopped } ∧ (getBed t b).closed = true ∧
          (getBed t b).btick = (getBed s b).btick) ∧
        (¬ counts → (t.plat.power = .tripped ↔ ¬ live) ∧
          (live → t.mem = s.mem ∧ ∀ n, getCore t n = getCore s n))) ∧
    (pw = .ready → ¬ tripping → ∀ b, b < 32 →
      let x := getBed s b
      (∃ t, exec (.scheduleTick b) s = .next t ∧
        (let y := getBed t b
         y.bwall = x.bwall + 1 ∧ (y.btick = x.btick ∨ y.btick = x.btick + 1) ∧ y.cecnt = x.cecnt ∧
         (x.halt = true ∨ x.freeze ≠ 0 → y.btick = x.btick) ∧ y.freeze = x.freeze - 1 ∧
         y.ramphint = rampHint ((getDie s (b / 8)).t16 - 1360) ∧
         (b % 2 = 0 → y.period = (getBed t (b + 1)).period ∧ 16 ≤ y.period ∧ thermalDemand (getDie s (b / 8)).t16 ≤ y.period))) ∧
      (x.closed = true → x.held = false → mayOpen (tickPower (wallTick s b) b) b = true →
        ∃ t, exec (.bedResume b) s = .next t ∧ (getBed t b).bwall = x.bwall + 1 ∧ (getBed t b).btick = x.btick + 1 ∧
          (getBed t b).ramphint = rampHint ((getDie s (b / 8)).t16 - 1360))) ∧
    (pw = .ready → ∀ b, b < 32 →
      let x := getBed s b
      exec (.correctableError b) s = .next (setBed s { x with freeze := 32, cecnt := min (x.cecnt + 1) (2 ^ 32 - 1) }) ∧
      (x.freeze = 1 → exec (.freezeEnd b) s = .next (setBed s { x with freeze := 0 }))) ∧
    (pw = .linked ∨ pw = .ready ∨ pw = .tripped → ∀ d w x y z, d < 4 → (∃ x ∈ s.dies, x.num = d) →
      ∃ t, exec (.temperatureSample d ⟨w, x, y, z⟩) s = .next t ∧ (getDie t d).t16 = max (max w x) (max y z) ∧
        t = { s with dies := t.dies, plat := { s.plat with taper := t.plat.taper } } ∧ ∀ e, e ≠ d → getDie t e = getDie s e) ∧
    (pw = .linked ∨ pw = .ready ∨ pw = .recovery → ∀ n < 9, working s n ≠ 0 →
      let left := working s n - 1
      ∃ t, exec (.phaseLoss n) s = .next t ∧
        (3 * left < (railOf n).1 → if pw = .ready then working t n = left ∧ t = { s with plat := { s.plat with
              phases := t.plat.phases, plog := s.plat.plog ++ [n], railTrip := true } }
            else t.plat.rfail = true ∧ t.plat.power = .tripped ∧ noUnits t) ∧
        ((railOf n).1 ≤ 3 * left → working t n = left ∧ t.plat.derate = s.plat.derate ||| 2 ^ n ∧ t.plat.power = pw ∧
          t.plat.rfail = s.plat.rfail ∧ t.core = s.core ∧ t.others = s.others)) ∧
    (pw ≠ .off → pw ≠ .up → working s 9 ≠ 0 → exec (.phaseLoss 9) s = exec .lossOfInputPower s) ∧
    (pw = .ready → ∀ d < 4, 1840 ≤ (getDie s d).t16 →
      exec (.thermalTrip d) s = .next { s with plat := { s.plat with heatTrip := true } }) ∧
    (pw = .linked → ∀ d < 4, 1840 ≤ (getDie s d).t16 → ∃ t, exec (.thermalTrip d) s = .next t ∧
      t.plat.ttrip = true ∧ t.plat.power = .tripped ∧ noUnits t) ∧
    (pw = .off ∨ pw = .up → ∃ t, exec .powerOn s = .next t ∧ t.plat.rfail = false ∧ t.plat.ttrip = false ∧ t.plat.railTrip = false ∧
      t.plat.heatTrip = false ∧ t.plat.derate = 0 ∧
      t.plat.pwrcap = 1400 ∧ noUnits t ∧ (∀ b < 32, getBed t b = freshBed s b) ∧
      (if verified s.plat s.plat.image = true ∨ verified s.plat s.plat.prev = true then t.plat.power = .linked ∧
        (∀ a, rd8 t.mem a = if s.plat.subbase ≤ a ∧ a < s.plat.subbase + 0x201000 then 0 else rd8 s.mem a)
      else t.plat.power = .recovery)) ∧
    (pw = .linked → exec .powerOn s = .next { s with plat := { s.plat with power := .ready } }) ∧
    (∃ t, exec .lossOfInputPower s = .next t ∧ t.plat.power = .off ∧ t.mem = [] ∧ noUnits t ∧ t.plat.rfail = false ∧
      t.plat.ttrip = false ∧ t.plat.railTrip = false ∧ t.plat.heatTrip = false ∧ t.lsc.launches = [] ∧ t.lsc.jobs = []) ∧
    (pw = .ready → ∀ d n reg v, d < 4 → n < 16 → reg < 3 →
      let old := tget Aperture.reset (getDie s d).aps n
      let a : Aperture := if reg = 0 then { old with tgt := v } else if reg = 1 then { old with len := v } else { old with ctl := v }
      let held (c : Core) : Prop := c.run ≠ .idle ∧
        (c.run = .ended → c.endStatus < 2 ∧ c.tq.es ++ c.cq.es ++ c.gq.es ++ c.bq.es ≠ [])
      let lies (c : Core) : Prop := held c ∧ ∃ e ∈ c.extents,
        paSpace e.pbase = 3 ∧ paDie e.pbase = d ∧ paPkg e.pbase = s.plat.pkg ∧ paOff e.pbase / 2 ^ 36 = n
      let write := exec (.apertureRegisterWrite d n reg v) s
      ((∀ c ∈ s.core :: s.others, ¬ lies c) → apertureOk s d a = true →
        write = .next (setDie s { getDie s d with aps := tset Aperture.reset (getDie s d).aps n a })) ∧
      ((∃ c ∈ s.core :: s.others, lies c) ∨ apertureOk s d a = false → write = .next (said s (.refused d n reg))))

/-- R83, R84, R91, R205: the word at PC is fetched as it is due to issue, and the step that issues it is exec of the instruction it
decodes to, after which the turn moves on; an unassigned or ill-formed word raises 0x01 or 0x02, a fetch that fails its fault.
Within a plain executable extent the word is the eight bytes at its physical address, little-endian. Columns of
vector memory words, and those that take words of a seed log, act before the word. The turn moves on once the other columns of
earlier vector words have read and drawn; moving on changes no core, no bed and no memory: only which core and bed are
in focus and the events still to take place.
Rests on the model's log 2 (DESIGN CHOICE). -/
def Obligations.StepRunsTheWord : Prop :=
  (∀ s : State, wordDue s →
    let w := fetchWord s
    (fetchStop s = none →
      (∀ i, decode w = .ok i → step s = mapNext moveOn (exec i s)) ∧
      (decode w = .error .illegal → step s = mapNext moveOn (exec (.illegalInstruction (BitVec.ofNat 64 w)) s)) ∧
      (decode w = .error .reserved → step s = .next (moveOn (wordFault s w 0x02)))) ∧
    (fetchStop s ≠ none → step s = mapNext moveOn (exec .fetchFault s))) ∧
  (∀ (s : State) (e : Extent),
    let pc := s.core.pc.toNat
    let pa := e.pbase + (pc - e.vbase)
    pc % 8 = 0 → findExt s.core.extents pc = some e → e.ex = true → e.abs = false → e.cmp = false → paSpace e.pbase ≠ 3 →
    pc + 8 ≤ e.vbase + e.len → (∀ i < 8, paOk (pa + i) = true ∧ mcHolds s (pa + i) 1 = false) → s.ecc = [] →
      fetchStop s = none ∧ fetchWord s = leNat (rdN s.mem pa 8)) ∧
  (∀ s : State, moveOn s = passOn (lateColumns s) ∧ (s.core.vq = [] → lateColumns s = s) ∧
    (∀ n, getCore (passOn s) n = getCore s n) ∧ (∀ n, getBed (passOn s) n = getBed s n) ∧
    { passOn s with core := s.core, others := s.others, bed := s.bed, otherBeds := s.otherBeds, agenda := s.agenda } = s)

/-- R83: no encoding is without a defined outcome. Every instruction and every event answers a next state from every state, and
every step does, but in a package without input power, where nothing happens (R421). A word with an opcode of the list, a word of
all zeros and a word of all ones among them, is the illegal instruction whatever its other bits are; it has no effect but the trap
0x01, with XPC naming it, and in the system view the double fault.
Rests on the model's log 23 (DEDUCED). -/
def Obligations.EveryInstructionAnswers : Prop :=
  let dashes : List Nat := [0x00, 0x2E, 0x2F, 0x4E, 0x4F] ++ List.range' 0x7D 3 ++ List.range' 0x8C 4 ++ List.range' 0xB4 76
  (∀ (i : Instr) (s : State), ∃ t, exec i s = .next t) ∧
  (∀ s : State, (∃ t, step s = .next t) ∨ (step s = .fault .noInputPower ∧ s.agenda = [] ∧ s.plat.power = .off)) ∧
  (∀ v : Word, v.toNat / 2 ^ 56 ∈ dashes → decode v.toNat = .ok (.illegalInstruction v)) ∧
  (0 : Word).toNat / 2 ^ 56 ∈ dashes ∧ (BitVec.allOnes 64).toNat / 2 ^ 56 ∈ dashes ∧
  (∀ (s : State) (v : Word),
    let c := s.core
    (c.view = .unit → exec (.illegalInstruction v) s = .next { s with core := { c with
      wait := none, trap := some (trapAt (illegalRec s v) c.pc (s.bed.btick + 1) false) } }) ∧
    (c.view = .system → c.run = .running → ∃ d, exec (.illegalInstruction v) s = .next { s with core := d } ∧
      killed c d (c.xcause.toNat % 256) 0x01 ((tget 0 c.xrec 7).toNat % 2 ^ 32)))

/-- Every step keeps memory in its canonical form: addresses strictly rising, no entry equal to what an unlisted address reads as
(log 1), so that equal memories are equal data.
Rests on the model's log 1 (DESIGN CHOICE). -/
def Obligations.MemoryStaysCanonical : Prop :=
  ∀ s t : State, s.MemWf → Steps s t → t.MemWf

/-- R17, R42, R153, R181, R184, R425, R429: what reset leaves. Memory is canonical; the first step brings the package up and the
second makes it READY (log 3; the firmware image is taken as valid, log 12) with every bed's counters at 0, PERIOD 16, RAMPHINT for
85 degrees (log 8) and nothing halted, PWRCAP 1,400, the status bits of the platform clear, the submission region zero and no unit,
job or launch; a core without a unit holds the values R42 and R153 give at unit start, and 0 where they give none (log 6).
Rests on the model's log 3 (DESIGN CHOICE), log 6 (DESIGN CHOICE), log 8 (DESIGN CHOICE), log 12 (DESIGN CHOICE). -/
def Obligations.ResetState : Prop :=
  State.reset.MemWf ∧
  ∃ u t, step State.reset = .next u ∧ u.plat.power = .linked ∧ step u = .next t ∧ t.plat.power = .ready ∧ t.plat.derate = 0 ∧ t.plat.rfail = false ∧ t.plat.ttrip = false ∧
    t.plat.pwrcap = 1400 ∧ t.lsc.jobs = [] ∧ t.lsc.launches = [] ∧ t.agenda = [] ∧
    (∀ b < 32, getBed t b = freshBed State.reset b ∧
      (let x := getBed t b
       x.btick = 0 ∧ x.bwall = 0 ∧ x.period = 16 ∧ x.cecnt = 0 ∧ x.halt = false ∧ x.park = false ∧ x.freeze = 0)) ∧
    (∀ n < 256,
      let c := getCore t n
      c = Core.reset n ∧ c.run = .idle ∧ (∀ r < 56, c.reg r = 0) ∧ (∀ q < 8, c.port q = []) ∧ c.clearTok = [] ∧ c.handles = [] ∧
        c.ut = Trug.reset 262144 ∧ c.st = Trug.reset 32768 ∧ c.ebits = 0 ∧ c.ej = 0 ∧ c.equota = 0 ∧ c.vshape = 0xF3F ∧ c.rmode = 0) ∧
    (∀ a, t.plat.subbase ≤ a → a < t.plat.subbase + 0x201000 → rd8 t.mem a = 0)

/-- R67-R83: no bit of an encoding is dropped. The word that encode writes for a well-formed instruction fits 64 bits and decodes to
that instruction, with every operand at every value its encoding admits (for `illegalInstruction`, whose operand is the whole word,
that word has an unassigned opcode). -/
def Obligations.DecodeAfterEncode : Prop :=
  ∀ (i : Instr) (w : Nat), i.wf = true → encode i = some w →
    (∀ v, i = .illegalInstruction v → opAssigned (opOf v.toNat) = false) → w < 2 ^ 64 ∧ decode w = .ok i

/-- R67-R83, R84: words written out by the encoding tables decode to the instructions they stand for; a reserved bit, a ramp class 6
or 7, KB 11, and KB on an opcode that does not allow it are refused, and an unassigned opcode is the illegal instruction. -/
def Obligations.DecodedWords : Prop :=
  (∀ p ∈ spelledWords, decode p.1 = .ok p.2 ∧ encode p.2 = some p.1 ∧ p.2.wf = true) ∧
  decode 0x0200A30000000001 = .error .reserved ∧ decode 0x0208A30000000000 = .error .illegal ∧
  decode 0x02E0A30000000000 = .error .illegal ∧ decode 0x1018C20A00000000 = .error .illegal ∧
  decode 0 = .ok (.illegalInstruction 0) ∧ decode 0xC000000000000000 = .ok (.illegalInstruction 0xC000000000000000) ∧
  decode (2 ^ 64 - 1) = .ok (.illegalInstruction (BitVec.allOnes 64))
end

