-- ==== Sys2Proof/Laws/Table.lean ====
section
/-! SUPPORT. The laws of keyed tables and of memory: read after write, the frame of a write, and the canonical form. -/

namespace Sys2Proof.Machine

variable {α : Type}

@[simp] theorem tget_nil (d : α) (k : Nat) : tget d [] k = d := rfl

@[simp] theorem tget_cons (d : α) (x : Nat × α) (r : List (Nat × α)) (k : Nat) :
    tget d (x :: r) k = if x.1 = k then x.2 else tget d r k := rfl

/-- A table read behind another one: the second gives what the first does not list. -/
theorem tget_append (d : α) (t u : List (Nat × α)) (k : Nat) : tget d (t ++ u) k = tget (tget d u k) t k := by
  induction t <;> simp_all

/-- A table read after keys were dropped. -/
theorem tget_filter (d : α) (f : Nat → Bool) (t : List (Nat × α)) (k : Nat) :
    tget d (t.filter (fun x => f x.1)) k = if f k then tget d t k else d := by
  induction t with
  | nil => simp
  | cons x r ih => rw [List.filter_cons, apply_ite (tget d · k)]; simp only [tget_cons, ih]; grind

/-- A read after a write of a table gives the value written at its key, and any other key's value as before. -/
@[simp] theorem tget_tset [DecidableEq α] (d : α) (t : List (Nat × α)) (k j : Nat) (v : α) :
    tget d (tset d t k v) j = if j = k then v else tget d t j := by
  have lower (e : α) := tget_filter e (fun n => decide (n < k)) t j
  have upper := tget_filter d (fun n => decide (k < n)) t j
  rw [tset, tget_append, tget_append, lower, upper]
  by_cases hv : v = d <;> rcases Nat.lt_trichotomy j k with h | h | h <;>
    simp [hv, h, Nat.not_lt_of_gt, Nat.ne_of_lt, Nat.ne_of_gt]

/-! ### The canonical form -/

theorem tabWf_nil [DecidableEq α] (d : α) : tabWf d [] = true := rfl

theorem tabWf_iff [DecidableEq α] (d : α) (t : List (Nat × α)) :
    tabWf d t = true ↔ t.Pairwise (fun p q => p.1 < q.1) ∧ ∀ p ∈ t, p.2 ≠ d := by
  simp [tabWf]

theorem tabWf_filter [DecidableEq α] {d : α} {t : List (Nat × α)} (f : Nat × α → Bool) (h : tabWf d t = true) :
    tabWf d (t.filter f) = true := by
  rw [tabWf_iff] at *
  exact ⟨h.1.filter _, fun p hp => h.2 p (List.mem_of_mem_filter hp)⟩

/-- A write keeps the canonical form. -/
theorem tabWf_tset [DecidableEq α] {d : α} {t : List (Nat × α)} (k : Nat) (v : α) (h : tabWf d t = true) :
    tabWf d (tset d t k v) = true := by
  rw [tabWf_iff] at *
  simp only [tset, List.pairwise_append, List.mem_append, List.mem_filter, decide_eq_true_eq]
  by_cases hv : v = d
  · simp only [hv, if_true, List.not_mem_nil]
    exact ⟨⟨⟨h.1.filter _, .nil, by simp⟩, h.1.filter _, by grind⟩, by grind⟩
  · simp only [if_neg hv, List.mem_singleton]
    exact ⟨⟨⟨h.1.filter _, List.pairwise_singleton _ _, by grind⟩, h.1.filter _, by grind⟩, by grind⟩

/-- What a canonical table lists is what it reads. -/
theorem mem_iff_tget [DecidableEq α] {d : α} {t : List (Nat × α)} (h : tabWf d t = true) (x : Nat × α) :
    x ∈ t ↔ tget d t x.1 = x.2 ∧ x.2 ≠ d := by
  rw [tabWf_iff] at h
  obtain ⟨h1, h2⟩ := h
  induction h1 with
  | nil => grind [tget_nil]
  | cons hx hr ih => grind [tget_cons]

/-- Two canonical tables that read the same everywhere are equal. -/
theorem tabWf_ext [DecidableEq α] {d : α} {t u : List (Nat × α)} (ht : tabWf d t = true) (hu : tabWf d u = true)
    (h : ∀ k, tget d t k = tget d u k) : t = u := by
  have same (x : Nat × α) : x ∈ t ↔ x ∈ u := by rw [mem_iff_tget ht, mem_iff_tget hu, h]
  rw [tabWf_iff] at ht hu
  have irr {l : List (Nat × α)} (hl : l.Pairwise (fun p q => p.1 < q.1)) : l.Nodup := hl.imp (by grind)
  exact ((List.perm_ext_iff_of_nodup (irr ht.1) (irr hu.1)).2 same).eq_of_pairwise (by grind) ht.1 hu.1

/-! ### Memory -/

/-- One byte written: it reads back, and every other byte reads as before. -/
@[simp] theorem rd8_wr8 (m : List Host.Cell) (a b : Nat) (v : Byte) : rd8 (wr8 m a v) b = if b = a then v else rd8 m b :=
  tget_tset _ _ _ _ _

/-- A byte write keeps memory canonical. -/
theorem wr8_wf {m : List Host.Cell} (a : Nat) (v : Byte) (h : Memory.wf m = true) : Memory.wf (wr8 m a v) = true :=
  tabWf_tset _ _ h

/-- Bytes written from pa on read back; all other bytes read as before. -/
theorem rd8_wrN (m : List Host.Cell) (pa : Nat) (bs : List Byte) (a : Nat) :
    rd8 (wrN m pa bs) a = if pa ≤ a ∧ a < pa + bs.length then bs.getD (a - pa) 0 else rd8 m a := by
  induction bs generalizing m pa with
  | nil => grind [wrN]
  | cons b bs ih =>
    have (n : Nat) : (b :: bs).getD n 0 = if n = 0 then b else bs.getD (n - 1) 0 := by cases n <;> rfl
    grind [wrN, rd8_wr8]

theorem wrN_wf {m : List Host.Cell} (pa : Nat) (bs : List Byte) (h : Memory.wf m = true) :
    Memory.wf (wrN m pa bs) = true := by
  induction bs generalizing m pa with
  | nil => exact h
  | cons b bs ih => exact ih _ (wr8_wf _ _ h)

theorem wr64_wf {m : List Host.Cell} (pa v : Nat) (h : Memory.wf m = true) : Memory.wf (wr64 m pa v) = true :=
  wrN_wf _ _ h

/-- Zeros over a range: it reads 0 there, and every other byte as before. -/
theorem rd8_zeroN (m : List Host.Cell) (pa n a : Nat) :
    rd8 (zeroN m pa n) a = if pa ≤ a ∧ a < pa + n then 0 else rd8 m a := by
  have h := tget_filter (0 : Byte) (fun k => !(decide (pa ≤ k) && decide (k < pa + n))) m a
  unfold rd8 zeroN
  rw [h]
  by_cases ha : pa ≤ a <;> by_cases hb : a < pa + n <;> simp [ha, hb]

theorem zeroN_wf {m : List Host.Cell} (pa n : Nat) (h : Memory.wf m = true) : Memory.wf (zeroN m pa n) = true :=
  tabWf_filter _ h

theorem wrRuns_wf {m : List Host.Cell} (l : List (Nat × Nat)) (bs : List Byte) (h : Memory.wf m = true) :
    Memory.wf (wrRuns m l bs) = true := by
  induction l generalizing m bs with
  | nil => exact h
  | cons x r ih => exact ih _ (wrN_wf _ _ h)

end Sys2Proof.Machine
end

