-- ==== Sys2Proof/Laws/Issue.lean ====
section
/-! SUPPORT. What the issue of one word can do: the checks pass exactly when `Issue.ready` holds, and a word that passes
them completes with what `Issue.went` says. -/

namespace Sys2Proof.Machine

/-! ### The checks (R84) -/

/-- Sources that name ports whose words can be popped stop no word. -/
theorem srcStop_none {c : Core} {t : Nat} {l : List Nat} (h : ∀ n ∈ l, isPort n = true → (c.front (n - 56) t).isSome) :
    c.srcStop t l = none := by
  have full : (c.fronts t l).any Option.isNone = false := by
    simp only [Core.fronts, List.any_map, List.any_eq_false, List.mem_filter, Function.comp_apply, and_imp]
    intro n hn hp
    simpa [Option.isSome_iff_ne_none] using h n hn hp
  simp [Core.srcStop, full]

/-- Words that carry no fault deliver none (R176). -/
theorem srcDeliver_none {c : Core} {t : Nat} {l : List Nat}
    (h : ∀ n ∈ l, isPort n = true →
      (c.front (n - 56) t).any (fun x => x.q = 0 || c.pending.all (fun f => f.queue ≠ x.q || f.seq ≠ x.seq)) = true) :
    c.srcDeliver t l = none := by
  have quiet : ((c.fronts t l).filterMap id).findSome? c.statusFault = none := by
    simp only [Core.fronts, List.findSome?_eq_none_iff, List.mem_filterMap, List.mem_map, List.mem_filter, id]
    rintro w ⟨_, ⟨n, ⟨hn, hp⟩, rfl⟩, hw⟩
    obtain ⟨x, hx, ho⟩ := (Option.any_eq_true _ _).1 (h n hn hp)
    obtain rfl : x = w := Option.some.inj (hx.symm.trans hw)
    unfold Core.statusFault
    split_ifs <;> grind [List.find?_eq_none]
  rw [Core.srcDeliver, quiet]
  rfl

/-- A ready word that no check of its own stops is not stopped. -/
theorem stopOf_ready {w : Issue} {s : State} (h : w.ready s) : stopOf s w.sys w.units w.srcs w.results none = none := by
  obtain ⟨view, units, apart, srcs, room⟩ := h
  have noSys : (s.core.view = .unit && w.sys) = false := by grind
  have idle : w.units.any (s.core.unitBusy s.bed.btick) = false := by grind
  have own : (s.core.view = .unit && (pushPorts w.results).any (fun q => 4 ≤ q)) = false := by grind
  have space : (pushPorts w.results).any (fun q => portFull s s.core.num q s.bed.btick) = false := by grind
  have front : ∀ n ∈ w.srcs, isPort n = true → (s.core.front (n - 56) s.bed.btick).isSome := fun n hn hp =>
    Option.isSome_of_any (srcs n hn hp)
  simp [stopOf, gate, noSys, idle, own, space, apart, srcStop_none front, srcDeliver_none srcs]

/-! ### Ports and units -/

theorem pop_port (c : Core) (q t p : Nat) : (c.pop q t).port p = if p = q then (c.port q).tail else c.port p := by
  simp [Core.pop, Core.setPort, Core.port]

theorem foldl_pop_port (l : List Nat) (t p : Nat) (c : Core) (hn : l.Nodup) (h56 : ∀ n ∈ l, 56 ≤ n) :
    (l.foldl (fun c n => c.pop (n - 56) t) c).port p = if 56 + p ∈ l then (c.port p).tail else c.port p := by
  induction l generalizing c with
  | nil => rfl
  | cons n r ih =>
    have here : 56 ≤ n := h56 n List.mem_cons_self
    rw [List.foldl_cons, ih _ hn.of_cons (by grind), pop_port]
    grind

/-- Every port named as a source pops once, and no other (R33). -/
theorem popSrcs_port (c : Core) (t : Nat) (srcs : List Nat) (p : Nat) :
    (c.popSrcs t srcs).port p = if 56 + p ∈ srcs then (c.port p).tail else c.port p := by
  unfold Core.popSrcs
  rw [foldl_pop_port _ _ _ _ (List.nodup_dedup _)]
  · simp [isPort]
  · intro n hn; simp [isPort] at hn; exact hn.2

theorem pop_eq (c : Core) (q t : Nat) :
    c.pop q t = { c with ports := (c.pop q t).ports, lastPop := (c.pop q t).lastPop } := rfl

/-- Popping sources changes the ports and nothing else. -/
theorem popSrcs_eq (c : Core) (t : Nat) (srcs : List Nat) :
    c.popSrcs t srcs = { c with ports := (c.popSrcs t srcs).ports, lastPop := (c.popSrcs t srcs).lastPop } := by
  unfold Core.popSrcs
  generalize ((srcs.filter isPort).dedup) = l
  induction l generalizing c with
  | nil => rfl
  | cons n r ih => rw [List.foldl_cons, ih]; rfl

theorem occupy_eq (c : Core) (n : Nat) (u : FUnit) : c.occupy n u = { c with busy := (c.occupy n u).busy } := rfl

theorem occupyAll_eq (c : Core) (n : Nat) (l : List FUnit) :
    l.foldl (fun c u => c.occupy n u) c = { c with busy := (l.foldl (fun c u => c.occupy n u) c).busy } := by
  induction l generalizing c with
  | nil => rfl
  | cons u r ih => rw [List.foldl_cons, ih]; rfl

theorem occupy_unitBusy (c : Core) (n m : Nat) (u v : FUnit) :
    (c.occupy n u).unitBusy m v = if v = u then decide (m < n) else c.unitBusy m v := by
  cases u <;> cases v <;> simp [Core.occupy, Core.unitBusy]

/-- Units occupied until tick n are busy before it; the others are as they were (R92). -/
theorem occupyAll_unitBusy (c : Core) (n m : Nat) (l : List FUnit) (v : FUnit) :
    (l.foldl (fun c u => c.occupy n u) c).unitBusy m v = if v ∈ l then decide (m < n) else c.unitBusy m v := by
  induction l generalizing c with
  | nil => simp
  | cons u r ih =>
    rw [List.foldl_cons, ih, occupy_unitBusy]
    by_cases h : v ∈ r
    · simp [h]
    · by_cases h2 : v = u <;> simp [h, h2]

/-! ### The master lemma -/

/-- The own effect v of a word after its issue u: it charges regs, own and cells, and leaves the fields of the issue
that are not charges. -/
structure Charged (u v : Core) (regs own cells : Nat) : Prop where
  pend : v.pend = u.pend
  pc : v.pc = u.pc
  nextBt : v.nextBt = u.nextBt
  order : v.order = u.order
  ports : v.ports = u.ports
  busy : v.busy = u.busy
  trap : v.trap = u.trap
  ebits : v.ebits = u.ebits + ((if u.view = .unit then regs else 0) + own + cells)
  xebits : v.xebits = u.xebits + (if u.view = .unit then 0 else regs)
  ej : v.ej = u.ej + (2600 * ((if u.view = .unit then regs else 0) + own) + 3000 * cells)
  qp : v.qp = (u.qp || (decide (u.equota ≠ 0) && decide (u.ebits < u.equota.toNat) && decide (u.equota.toNat ≤ v.ebits)))

theorem issueCore_core (s : State) (units : List FUnit) (k : Nat) (srcs : List Nat) (lands : List Pend) (work : Nat)
    (npc : Word) (nbt : Nat) :
    (issueCore s units k srcs lands work npc nbt).core =
      { s.core with
        ports := (s.core.popSrcs s.bed.btick srcs).ports
        lastPop := (s.core.popSrcs s.bed.btick srcs).lastPop
        busy := (units.foldl (fun c u => c.occupy (s.bed.btick + k) u) (s.core.popSrcs s.bed.btick srcs)).busy
        pend := s.core.pend ++ lands
        ej := s.core.ej + (if s.core.view = .unit then workUnits work k (heat s s.core.num) else 0)
        pc := npc, nextBt := nbt, order := s.core.order + 1 } := by
  unfold issueCore onCore
  dsimp only
  rw [occupyAll_eq, popSrcs_eq]

theorem issueCore_eq (s : State) (units : List FUnit) (k : Nat) (srcs : List Nat) (lands : List Pend) (work : Nat)
    (npc : Word) (nbt : Nat) :
    issueCore s units k srcs lands work npc nbt =
      { s with core := (issueCore s units k srcs lands work npc nbt).core } := rfl

/-- A ready word without a check of its own that stops it completes. `eff` is its own effect: it charges what w says
(`Charged`), and apart from the issue's own fields leads to e. -/
theorem runWord_does {s e : State} {i : Instr} {w : Issue} {own : Option Stop} {eff : State → State} (hr : w.ready s)
    (hown : own = none)
    (hc : let u := issueCore s w.units (rampK w.ramp) w.srcs w.results w.work w.npc w.nbt
      Charged u.core (eff u).core w.regs w.own w.cells ∧
      eff u = { e with core := e.core.withIssue (eff u).core })
    (hx : exec i s = runWord s i w.sys w.units w.ramp w.srcs w.results own w.work w.npc w.nbt eff) :
    w.does i s e := by
  obtain ⟨hch, heff⟩ := hc
  rw [runWord, hown, stopOf_ready hr] at hx
  simp only at hx
  generalize hu : issueCore s w.units (rampK w.ramp) w.srcs w.results w.work w.npc w.nbt = u at *
  generalize hv : eff u = v at *
  have hu0 := issueCore_core s w.units (rampK w.ramp) w.srcs w.results w.work w.npc w.nbt
  rw [hu] at hu0
  refine ⟨_, hx, ?_, ?_⟩
  · have hcore : (afterWord s i w.srcs v).core = { v.core with qp := (afterWord s i w.srcs v).core.qp, trap := (afterWord s i w.srcs v).core.trap } := by
      unfold afterWord; split <;> rfl
    have hquiet : ¬ w.crosses s → (afterWord s i w.srcs v).core.qp = s.core.qp ∧ (afterWord s i w.srcs v).core.trap = s.core.trap := by
      intro hcr
      have hqp : v.core.qp = s.core.qp := by
        rw [hch.qp, hch.ebits, hu0]
        dsimp only
        rw [Issue.crosses] at hcr
        by_cases hq : s.core.equota ≠ 0 ∧ s.core.ebits < s.core.equota.toNat ∧
            s.core.equota.toNat ≤ s.core.ebits + ((if s.core.view = .unit then w.regs else 0) + w.own + w.cells)
        · exact absurd hq hcr
        · have : (decide (s.core.equota ≠ 0) && decide (s.core.ebits < s.core.equota.toNat) &&
              decide (s.core.equota.toNat ≤ s.core.ebits + ((if s.core.view = .unit then w.regs else 0) + w.own + w.cells))) = false := by
            rw [← Bool.not_eq_true]
            simp only [Bool.and_eq_true, decide_eq_true_eq]
            tauto
          rw [this, Bool.or_false]
      unfold afterWord
      rw [if_neg]
      · exact ⟨hqp, by rw [hch.trap, hu0]⟩
      · rw [hqp]; simp only [Bool.not_eq_true', not_and]; intro _ h1 h2; simp [h1] at h2
    unfold Issue.went
    dsimp only
    rw [hcore]
    dsimp only
    refine ⟨by rw [hch.pend, hu0], by rw [hch.pc, hu0], by rw [hch.nextBt, hu0], by rw [hch.order, hu0], ?_, ?_, ?_, ?_, ?_⟩
    · intro q _
      unfold Core.port
      dsimp only
      rw [hch.ports, hu0]
      exact popSrcs_port _ _ _ _
    · intro x n
      have := occupyAll_unitBusy (s.core.popSrcs s.bed.btick w.srcs) (s.bed.btick + rampK w.ramp) n w.units x
      have hb : (s.core.popSrcs s.bed.btick w.srcs).unitBusy n x = s.core.unitBusy n x := by
        rw [popSrcs_eq]; rfl
      rw [hb] at this
      rw [← this]
      unfold Core.unitBusy
      dsimp only
      rw [hch.busy, hu0]
    · intro hview
      rw [hch.ebits, hch.xebits, hch.ej, hu0]
      dsimp only
      simp only [if_pos hview]
      refine ⟨?_, ?_, ?_⟩ <;> first | trivial | omega
    · intro hview
      rw [hch.ebits, hch.xebits, hch.ej, hu0, hview]
      exact ⟨by simp, by simp, by simp; omega⟩
    · intro hcr; exact ⟨(hquiet hcr).2, (hquiet hcr).1⟩
  · unfold afterWord
    split
    · rw [heff]; rfl
    · rw [heff]; rfl

/-! ### The charges of a word's own effect -/

theorem Charged.zero (u : Core) : Charged u u 0 0 0 := by
  constructor <;> simp

theorem charged_eraseReg (u : Core) (n : Nat) : Charged u (u.eraseReg n) n 0 0 := by
  unfold Core.eraseReg
  constructor <;> cases h : u.view <;> simp [Core.erase, Core.eraseX, h] <;> try omega

theorem charged_chargeZero (u : Core) (d n : Nat) : Charged u (u.chargeZero d n) (if d = 0 then n else 0) 0 0 := by
  unfold Core.chargeZero
  split
  · exact charged_eraseReg u n
  · exact Charged.zero u

theorem eraseReg_eq (u : Core) (n : Nat) : u.eraseReg n = { u with ebits := (u.eraseReg n).ebits, xebits := (u.eraseReg n).xebits, ej := (u.eraseReg n).ej, qp := (u.eraseReg n).qp } := by
  unfold Core.eraseReg; split <;> rfl

theorem chargeZero_eq (u : Core) (d n : Nat) : u.chargeZero d n = { u with ebits := (u.chargeZero d n).ebits, xebits := (u.chargeZero d n).xebits, ej := (u.chargeZero d n).ej, qp := (u.chargeZero d n).qp } := by
  unfold Core.chargeZero; split
  · exact eraseReg_eq u n
  · rfl

theorem withIssue_issue (s : State) (units k srcs lands work npc nbt) (f : Core → Core)
   (hf : ∀ c, f c = { c with ebits := (f c).ebits, xebits := (f c).xebits, ej := (f c).ej, qp := (f c).qp }) :
   let u := issueCore s units k srcs lands work npc nbt
   onCore u f = { s with core := s.core.withIssue (onCore u f).core } := by
  intro u
  have : u = {s with core := u.core} := rfl
  unfold onCore
  rw [hf]
  rw [show u.core = _ from issueCore_core _ _ _ _ _ _ _ _]
  rfl

theorem tyBits_cases (ty : Nat) : tyBits ty = 64 ∨ tyBits ty = 32 ∨ tyBits ty = 16 ∨ tyBits ty = 8 := by
  unfold tyBits
  have : ty % 4 < 4 := Nat.mod_lt _ (by decide)
  interval_cases ty % 4 <;> simp

theorem tyBits_le (ty : Nat) : tyBits ty ≤ 64 := by rcases tyBits_cases ty with h|h|h|h <;> omega

theorem tyBits_pos (ty : Nat) : 0 < tyBits ty := by rcases tyBits_cases ty with h|h|h|h <;> omega

/-- A word made from a number below 2^w is the zero extension of a w-bit vector. -/
theorem ofNat_eq {w : Nat} (v : BitVec w) (n : Nat) (h : n = v.toNat) : BitVec.ofNat 64 n = v.setWidth 64 := by
  subst h
  apply BitVec.eq_of_toNat_eq
  simp

@[simp] theorem setWidth_srcVal_toNat (s : State) (w n : Nat) : ((srcVal s n).setWidth w).toNat = srcLow s w n := by
  simp [srcLow, lowBits]

/-! ### Words that only issue -/

/-- A word answers a next state whatever its checks find: the stop's, or its own. -/
theorem runWord_next (s : State) (i : Instr) (sys : Bool) (units : List FUnit) (ramp : Nat) (srcs : List Nat) (lands : List Pend)
    (own : Option Stop) (work : Nat) (npc : Word) (nbt : Nat) (eff : State → State) :
    (∃ st, runWord s i sys units ramp srcs lands own work npc nbt eff = .next (stopWord s i srcs st)) ∨
    runWord s i sys units ramp srcs lands own work npc nbt eff =
      .next (afterWord s i srcs (eff (issueCore s units (rampK ramp) srcs lands work npc nbt))) := by
  unfold runWord
  split
  · exact .inl ⟨_, rfl⟩
  · exact .inr rfl

@[simp] theorem afterWord_mem (s0 : State) (i : Instr) (srcs : List Nat) (s : State) : (afterWord s0 i srcs s).mem = s.mem := by
  unfold afterWord; split <;> rfl

@[simp] theorem stopWord_mem (s : State) (i : Instr) (srcs : List Nat) (st : Stop) : (stopWord s i srcs st).mem = s.mem := by
  unfold stopWord; split <;> rfl

@[simp] theorem issueCore_mem (s : State) (units : List FUnit) (k : Nat) (srcs : List Nat) (lands : List Pend) (work : Nat)
    (npc : Word) (nbt : Nat) : (issueCore s units k srcs lands work npc nbt).mem = s.mem := rfl

/-- A word whose own effect keeps memory canonical keeps it canonical. -/
theorem runWord_memWf {s t : State} {i : Instr} {sys : Bool} {units : List FUnit} {ramp : Nat} {srcs : List Nat} {lands : List Pend}
    {own : Option Stop} {work : Nat} {npc : Word} {nbt : Nat} {eff : State → State}
    (he : ∀ u : State, u.MemWf → (eff u).MemWf) (hs : s.MemWf)
    (h : runWord s i sys units ramp srcs lands own work npc nbt eff = .next t) : t.MemWf := by
  obtain ⟨st, h2⟩ | h2 := runWord_next s i sys units ramp srcs lands own work npc nbt eff
  · rw [h2] at h; cases h
    unfold State.MemWf; rwa [stopWord_mem]
  · rw [h2] at h; cases h
    unfold State.MemWf; rw [afterWord_mem]
    exact he _ (by unfold State.MemWf; rwa [issueCore_mem])

end Sys2Proof.Machine
end

