-- ==== Sys2Proof/Laws/Mem.lean ====
section
/-! SUPPORT. What the memory operations can do: they change memory, its error marks and its write counts only, and keep the
canonical form. -/

namespace Sys2Proof.Machine

/-- t is s but for memory, its error marks and its write counts, and memory stays canonical. -/
def MemStep (s t : State) : Prop :=
  t = { s with mem := t.mem, ecc := t.ecc, writes := t.writes } ∧ (Memory.wf s.mem = true → Memory.wf t.mem = true)

theorem MemStep.refl (s : State) : MemStep s s := ⟨rfl, id⟩

theorem MemStep.trans {s t u : State} (h : MemStep s t) (k : MemStep t u) : MemStep s u := by
  refine ⟨?_, k.2 ∘ h.2⟩
  rw [k.1, h.1]

theorem MemStep.mk' (s : State) {m : List Host.Cell} (e : List Nat) (h : Memory.wf s.mem = true → Memory.wf m = true) :
    MemStep s { s with mem := m, ecc := e } := ⟨rfl, h⟩

theorem foldl_memStep {β : Type} (f : State → β → State) (h : ∀ s b, MemStep s (f s b)) (l : List β) (s : State) :
    MemStep s (l.foldl f s) := by
  induction l generalizing s with
  | nil => exact .refl s
  | cons b l ih => exact (h s b).trans (ih _)

theorem foldl_memStep_fst {β γ : Type} (f : State × γ → β → State × γ) (h : ∀ a b, MemStep a.1 (f a b).1) (l : List β)
    (a : State × γ) : MemStep a.1 (l.foldl f a).1 := by
  induction l generalizing a with
  | nil => exact .refl _
  | cons b l ih => exact (h a b).trans (ih _)

theorem MemStep.ite {s t u : State} {p : Prop} [Decidable p] (h : MemStep s t) (k : MemStep s u) :
    MemStep s (if p then t else u) := by
  by_cases hp : p
  · rwa [if_pos hp]
  · rwa [if_neg hp]

/-- A write of bytes to targets (R245, R259). -/
theorem writeTgts_memStep (s : State) (l : List (Tgt × Byte)) : MemStep s (writeTgts s l).1 := by
  unfold writeTgts
  dsimp only
  refine MemStep.trans (MemStep.trans (foldl_memStep _ ?_ _ s) (MemStep.mk' _ _ id))
    (foldl_memStep_fst _ ?_ _ (_, []))
  · intro t x
    cases x.1 with
    | byte pa => exact .ite (.refl t) (MemStep.mk' t t.ecc (wr8_wf _ _))
    | blk a b c => exact .refl t
  · intro a b
    split
    · exact .refl _
    · exact .ite (MemStep.mk' a.1 _ (wrN_wf _ _)) (MemStep.mk' a.1 a.1.ecc (wrN_wf _ _))

theorem writeBits_memStep (s : State) (l : List (Tgt × Nat)) (b : Byte) : MemStep s (writeBits s l b).1 := by
  unfold writeBits
  refine foldl_memStep_fst _ ?_ _ (s, false)
  intro a x
  dsimp only
  cases readTgt a.1 x.1.1 with
  | none => exact .refl _
  | some o => exact writeTgts_memStep _ _

theorem putPlaces_memStep (s : State) (l : List (Place × Byte)) : MemStep s (putPlaces s l).1 := by
  unfold putPlaces
  dsimp only
  split
  · exact writeTgts_memStep _ _
  · refine MemStep.trans (writeTgts_memStep s _) (foldl_memStep_fst _ ?_ _ (_, none))
    intro a x
    cases x.1.1 with
    | one t => exact .refl _
    | bits t => exact writeBits_memStep _ _ _

theorem countWrites_memStep (s : State) (l : List Place) : MemStep s (countWrites s l) := ⟨rfl, id⟩

/-- A write of an access (R245, R259, R262). -/
theorem writePlaces_memStep (s : State) (l : List (Place × Byte)) : MemStep s (writePlaces s l).1 :=
  (putPlaces_memStep s l).trans (countWrites_memStep _ _)

theorem writeSync_wf {m : List Host.Cell} (pa target count gen scope : Nat) (ovs : Bool) (h : Memory.wf m = true) :
    Memory.wf (writeSync m pa target count gen scope ovs) = true := wrN_wf _ _ h

theorem fst_ite_wf {β : Type} {p : Prop} [Decidable p] {a b : List Host.Cell × β} (ha : Memory.wf a.1 = true)
    (hb : Memory.wf b.1 = true) : Memory.wf (if p then a else b).1 = true := by
  by_cases hp : p
  · rwa [if_pos hp]
  · rwa [if_neg hp]

/-- An event at a sync word (R36) keeps memory canonical. -/
theorem syncEvent_wf {m : List Host.Cell} (ev : SyncEv) (pa n : Nat) (h : Memory.wf m = true) :
    Memory.wf (syncEvent m ev pa n).1 = true := by
  unfold syncEvent
  cases ev <;>
    exact fst_ite_wf h (fst_ite_wf (writeSync_wf _ _ _ _ _ _ h)
      (fst_ite_wf (writeSync_wf _ _ _ _ _ _ h) (writeSync_wf _ _ _ _ _ _ h)))

/-- An event at a sync word, with the check of R245. -/
theorem syncAt_memStep (s : State) (ev : SyncEv) (pa n : Nat) : MemStep s (syncAt s ev pa n).1 := by
  unfold syncAt
  split
  · exact .refl s
  · dsimp only
    exact (MemStep.mk' s s.ecc (syncEvent_wf ev pa n)).trans (countWrites_memStep _ _)

/-- A plain byte write of one target, where memory is and on a code word without an error, writes that byte. -/
theorem writeTgts_byte (s : State) (pa : Nat) (b : Byte) (h : s.ecc = []) (hr : mcHolds s pa 1 = false) :
    (writeTgts s [(.byte pa, b)]).1 = { s with mem := wr8 s.mem pa b } := by
  have keep : [(Tgt.byte pa, b)].filter (fun x => !x.1.held s) = [(Tgt.byte pa, b)] := by
    rw [List.filter_cons_of_pos (by simp only [Tgt.held, hr, Bool.not_false])]
    rfl
  unfold writeTgts
  rw [keep]
  simp [h]

end Sys2Proof.Machine
end

