-- ==== Sys2Proof/Laws/State.lean ====
section
/-! SUPPORT. What each update of the state leaves as it was: one lemma per field per update. The first lemma of an update
names the fields it may change; the others give the fields that statements read. -/

namespace Sys2Proof.Machine

/-- setReg changes nothing but s. -/
theorem Core.setReg_only (c : Core) (n : Nat) (w : Word) : c.setReg n w = { c with s := (c.setReg n w).s } :=
  by unfold Core.setReg; split <;> rfl
@[simp] theorem Core.setReg_num (c : Core) (n : Nat) (w : Word) : (c.setReg n w).num = c.num := by unfold Core.setReg; split <;> rfl
@[simp] theorem Core.setReg_run (c : Core) (n : Nat) (w : Word) : (c.setReg n w).run = c.run := by unfold Core.setReg; split <;> rfl
@[simp] theorem Core.setReg_view (c : Core) (n : Nat) (w : Word) : (c.setReg n w).view = c.view := by unfold Core.setReg; split <;> rfl
@[simp] theorem Core.setReg_pc (c : Core) (n : Nat) (w : Word) : (c.setReg n w).pc = c.pc := by unfold Core.setReg; split <;> rfl
@[simp] theorem Core.setReg_ports (c : Core) (n : Nat) (w : Word) : (c.setReg n w).ports = c.ports := by unfold Core.setReg; split <;> rfl
@[simp] theorem Core.setReg_lastPop (c : Core) (n : Nat) (w : Word) : (c.setReg n w).lastPop = c.lastPop := by unfold Core.setReg; split <;> rfl
@[simp] theorem Core.setReg_clearTok (c : Core) (n : Nat) (w : Word) : (c.setReg n w).clearTok = c.clearTok := by unfold Core.setReg; split <;> rfl
@[simp] theorem Core.setReg_handles (c : Core) (n : Nat) (w : Word) : (c.setReg n w).handles = c.handles := by unfold Core.setReg; split <;> rfl
@[simp] theorem Core.setReg_fouled (c : Core) (n : Nat) (w : Word) : (c.setReg n w).fouled = c.fouled := by unfold Core.setReg; split <;> rfl
@[simp] theorem Core.setReg_ut (c : Core) (n : Nat) (w : Word) : (c.setReg n w).ut = c.ut := by unfold Core.setReg; split <;> rfl
@[simp] theorem Core.setReg_st (c : Core) (n : Nat) (w : Word) : (c.setReg n w).st = c.st := by unfold Core.setReg; split <;> rfl
@[simp] theorem Core.setReg_ebits (c : Core) (n : Nat) (w : Word) : (c.setReg n w).ebits = c.ebits := by unfold Core.setReg; split <;> rfl
@[simp] theorem Core.setReg_xebits (c : Core) (n : Nat) (w : Word) : (c.setReg n w).xebits = c.xebits := by unfold Core.setReg; split <;> rfl
@[simp] theorem Core.setReg_ej (c : Core) (n : Nat) (w : Word) : (c.setReg n w).ej = c.ej := by unfold Core.setReg; split <;> rfl
@[simp] theorem Core.setReg_equota (c : Core) (n : Nat) (w : Word) : (c.setReg n w).equota = c.equota := by unfold Core.setReg; split <;> rfl
@[simp] theorem Core.setReg_qp (c : Core) (n : Nat) (w : Word) : (c.setReg n w).qp = c.qp := by unfold Core.setReg; split <;> rfl
@[simp] theorem Core.setReg_trap (c : Core) (n : Nat) (w : Word) : (c.setReg n w).trap = c.trap := by unfold Core.setReg; split <;> rfl
@[simp] theorem Core.setReg_wait (c : Core) (n : Nat) (w : Word) : (c.setReg n w).wait = c.wait := by unfold Core.setReg; split <;> rfl
@[simp] theorem Core.setReg_pend (c : Core) (n : Nat) (w : Word) : (c.setReg n w).pend = c.pend := by unfold Core.setReg; split <;> rfl
@[simp] theorem Core.setReg_nextBt (c : Core) (n : Nat) (w : Word) : (c.setReg n w).nextBt = c.nextBt := by unfold Core.setReg; split <;> rfl
@[simp] theorem Core.setReg_order (c : Core) (n : Nat) (w : Word) : (c.setReg n w).order = c.order := by unfold Core.setReg; split <;> rfl
@[simp] theorem Core.setReg_busy (c : Core) (n : Nat) (w : Word) : (c.setReg n w).busy = c.busy := by unfold Core.setReg; split <;> rfl
@[simp] theorem Core.setReg_vq (c : Core) (n : Nat) (w : Word) : (c.setReg n w).vq = c.vq := by unfold Core.setReg; split <;> rfl
@[simp] theorem Core.setReg_pending (c : Core) (n : Nat) (w : Word) : (c.setReg n w).pending = c.pending := by unfold Core.setReg; split <;> rfl
@[simp] theorem Core.setReg_accs (c : Core) (n : Nat) (w : Word) : (c.setReg n w).accs = c.accs := by unfold Core.setReg; split <;> rfl
@[simp] theorem Core.setReg_extents (c : Core) (n : Nat) (w : Word) : (c.setReg n w).extents = c.extents := by unfold Core.setReg; split <;> rfl
@[simp] theorem Core.setReg_v (c : Core) (n : Nat) (w : Word) : (c.setReg n w).v = c.v := by unfold Core.setReg; split <;> rfl
@[simp] theorem Core.setReg_p (c : Core) (n : Nat) (w : Word) : (c.setReg n w).p = c.p := by unfold Core.setReg; split <;> rfl
@[simp] theorem Core.setReg_tiles (c : Core) (n : Nat) (w : Word) : (c.setReg n w).tiles = c.tiles := by unfold Core.setReg; split <;> rfl
@[simp] theorem Core.setReg_slots (c : Core) (n : Nat) (w : Word) : (c.setReg n w).slots = c.slots := by unfold Core.setReg; split <;> rfl

/-- setField changes nothing but s. -/
theorem Core.setField_only (c : Core) (n lo len : Nat) (w : Word) : c.setField n lo len w = { c with s := (c.setField n lo len w).s } :=
  by unfold Core.setField Core.setReg; split <;> rfl
@[simp] theorem Core.setField_num (c : Core) (n lo len : Nat) (w : Word) : (c.setField n lo len w).num = c.num := by unfold Core.setField Core.setReg; split <;> rfl
@[simp] theorem Core.setField_run (c : Core) (n lo len : Nat) (w : Word) : (c.setField n lo len w).run = c.run := by unfold Core.setField Core.setReg; split <;> rfl
@[simp] theorem Core.setField_view (c : Core) (n lo len : Nat) (w : Word) : (c.setField n lo len w).view = c.view := by unfold Core.setField Core.setReg; split <;> rfl
@[simp] theorem Core.setField_pc (c : Core) (n lo len : Nat) (w : Word) : (c.setField n lo len w).pc = c.pc := by unfold Core.setField Core.setReg; split <;> rfl
@[simp] theorem Core.setField_ports (c : Core) (n lo len : Nat) (w : Word) : (c.setField n lo len w).ports = c.ports := by unfold Core.setField Core.setReg; split <;> rfl
@[simp] theorem Core.setField_lastPop (c : Core) (n lo len : Nat) (w : Word) : (c.setField n lo len w).lastPop = c.lastPop := by unfold Core.setField Core.setReg; split <;> rfl
@[simp] theorem Core.setField_clearTok (c : Core) (n lo len : Nat) (w : Word) : (c.setField n lo len w).clearTok = c.clearTok := by unfold Core.setField Core.setReg; split <;> rfl
@[simp] theorem Core.setField_handles (c : Core) (n lo len : Nat) (w : Word) : (c.setField n lo len w).handles = c.handles := by unfold Core.setField Core.setReg; split <;> rfl
@[simp] theorem Core.setField_fouled (c : Core) (n lo len : Nat) (w : Word) : (c.setField n lo len w).fouled = c.fouled := by unfold Core.setField Core.setReg; split <;> rfl
@[simp] theorem Core.setField_ut (c : Core) (n lo len : Nat) (w : Word) : (c.setField n lo len w).ut = c.ut := by unfold Core.setField Core.setReg; split <;> rfl
@[simp] theorem Core.setField_st (c : Core) (n lo len : Nat) (w : Word) : (c.setField n lo len w).st = c.st := by unfold Core.setField Core.setReg; split <;> rfl
@[simp] theorem Core.setField_ebits (c : Core) (n lo len : Nat) (w : Word) : (c.setField n lo len w).ebits = c.ebits := by unfold Core.setField Core.setReg; split <;> rfl
@[simp] theorem Core.setField_xebits (c : Core) (n lo len : Nat) (w : Word) : (c.setField n lo len w).xebits = c.xebits := by unfold Core.setField Core.setReg; split <;> rfl
@[simp] theorem Core.setField_ej (c : Core) (n lo len : Nat) (w : Word) : (c.setField n lo len w).ej = c.ej := by unfold Core.setField Core.setReg; split <;> rfl
@[simp] theorem Core.setField_equota (c : Core) (n lo len : Nat) (w : Word) : (c.setField n lo len w).equota = c.equota := by unfold Core.setField Core.setReg; split <;> rfl
@[simp] theorem Core.setField_qp (c : Core) (n lo len : Nat) (w : Word) : (c.setField n lo len w).qp = c.qp := by unfold Core.setField Core.setReg; split <;> rfl
@[simp] theorem Core.setField_trap (c : Core) (n lo len : Nat) (w : Word) : (c.setField n lo len w).trap = c.trap := by unfold Core.setField Core.setReg; split <;> rfl
@[simp] theorem Core.setField_wait (c : Core) (n lo len : Nat) (w : Word) : (c.setField n lo len w).wait = c.wait := by unfold Core.setField Core.setReg; split <;> rfl
@[simp] theorem Core.setField_pend (c : Core) (n lo len : Nat) (w : Word) : (c.setField n lo len w).pend = c.pend := by unfold Core.setField Core.setReg; split <;> rfl
@[simp] theorem Core.setField_nextBt (c : Core) (n lo len : Nat) (w : Word) : (c.setField n lo len w).nextBt = c.nextBt := by unfold Core.setField Core.setReg; split <;> rfl
@[simp] theorem Core.setField_order (c : Core) (n lo len : Nat) (w : Word) : (c.setField n lo len w).order = c.order := by unfold Core.setField Core.setReg; split <;> rfl
@[simp] theorem Core.setField_busy (c : Core) (n lo len : Nat) (w : Word) : (c.setField n lo len w).busy = c.busy := by unfold Core.setField Core.setReg; split <;> rfl
@[simp] theorem Core.setField_vq (c : Core) (n lo len : Nat) (w : Word) : (c.setField n lo len w).vq = c.vq := by unfold Core.setField Core.setReg; split <;> rfl
@[simp] theorem Core.setField_pending (c : Core) (n lo len : Nat) (w : Word) : (c.setField n lo len w).pending = c.pending := by unfold Core.setField Core.setReg; split <;> rfl
@[simp] theorem Core.setField_accs (c : Core) (n lo len : Nat) (w : Word) : (c.setField n lo len w).accs = c.accs := by unfold Core.setField Core.setReg; split <;> rfl
@[simp] theorem Core.setField_extents (c : Core) (n lo len : Nat) (w : Word) : (c.setField n lo len w).extents = c.extents := by unfold Core.setField Core.setReg; split <;> rfl
@[simp] theorem Core.setField_v (c : Core) (n lo len : Nat) (w : Word) : (c.setField n lo len w).v = c.v := by unfold Core.setField Core.setReg; split <;> rfl
@[simp] theorem Core.setField_p (c : Core) (n lo len : Nat) (w : Word) : (c.setField n lo len w).p = c.p := by unfold Core.setField Core.setReg; split <;> rfl
@[simp] theorem Core.setField_tiles (c : Core) (n lo len : Nat) (w : Word) : (c.setField n lo len w).tiles = c.tiles := by unfold Core.setField Core.setReg; split <;> rfl
@[simp] theorem Core.setField_slots (c : Core) (n lo len : Nat) (w : Word) : (c.setField n lo len w).slots = c.slots := by unfold Core.setField Core.setReg; split <;> rfl

/-- setPort changes nothing but ports. -/
theorem Core.setPort_only (c : Core) (q : Nat) (l : List QWord) : c.setPort q l = { c with ports := (c.setPort q l).ports } :=
  rfl
@[simp] theorem Core.setPort_num (c : Core) (q : Nat) (l : List QWord) : (c.setPort q l).num = c.num := rfl
@[simp] theorem Core.setPort_run (c : Core) (q : Nat) (l : List QWord) : (c.setPort q l).run = c.run := rfl
@[simp] theorem Core.setPort_view (c : Core) (q : Nat) (l : List QWord) : (c.setPort q l).view = c.view := rfl
@[simp] theorem Core.setPort_pc (c : Core) (q : Nat) (l : List QWord) : (c.setPort q l).pc = c.pc := rfl
@[simp] theorem Core.setPort_s (c : Core) (q : Nat) (l : List QWord) : (c.setPort q l).s = c.s := rfl
@[simp] theorem Core.setPort_lastPop (c : Core) (q : Nat) (l : List QWord) : (c.setPort q l).lastPop = c.lastPop := rfl
@[simp] theorem Core.setPort_clearTok (c : Core) (q : Nat) (l : List QWord) : (c.setPort q l).clearTok = c.clearTok := rfl
@[simp] theorem Core.setPort_handles (c : Core) (q : Nat) (l : List QWord) : (c.setPort q l).handles = c.handles := rfl
@[simp] theorem Core.setPort_fouled (c : Core) (q : Nat) (l : List QWord) : (c.setPort q l).fouled = c.fouled := rfl
@[simp] theorem Core.setPort_ut (c : Core) (q : Nat) (l : List QWord) : (c.setPort q l).ut = c.ut := rfl
@[simp] theorem Core.setPort_st (c : Core) (q : Nat) (l : List QWord) : (c.setPort q l).st = c.st := rfl
@[simp] theorem Core.setPort_ebits (c : Core) (q : Nat) (l : List QWord) : (c.setPort q l).ebits = c.ebits := rfl
@[simp] theorem Core.setPort_xebits (c : Core) (q : Nat) (l : List QWord) : (c.setPort q l).xebits = c.xebits := rfl
@[simp] theorem Core.setPort_ej (c : Core) (q : Nat) (l : List QWord) : (c.setPort q l).ej = c.ej := rfl
@[simp] theorem Core.setPort_equota (c : Core) (q : Nat) (l : List QWord) : (c.setPort q l).equota = c.equota := rfl
@[simp] theorem Core.setPort_qp (c : Core) (q : Nat) (l : List QWord) : (c.setPort q l).qp = c.qp := rfl
@[simp] theorem Core.setPort_trap (c : Core) (q : Nat) (l : List QWord) : (c.setPort q l).trap = c.trap := rfl
@[simp] theorem Core.setPort_wait (c : Core) (q : Nat) (l : List QWord) : (c.setPort q l).wait = c.wait := rfl
@[simp] theorem Core.setPort_pend (c : Core) (q : Nat) (l : List QWord) : (c.setPort q l).pend = c.pend := rfl
@[simp] theorem Core.setPort_nextBt (c : Core) (q : Nat) (l : List QWord) : (c.setPort q l).nextBt = c.nextBt := rfl
@[simp] theorem Core.setPort_order (c : Core) (q : Nat) (l : List QWord) : (c.setPort q l).order = c.order := rfl
@[simp] theorem Core.setPort_busy (c : Core) (q : Nat) (l : List QWord) : (c.setPort q l).busy = c.busy := rfl
@[simp] theorem Core.setPort_vq (c : Core) (q : Nat) (l : List QWord) : (c.setPort q l).vq = c.vq := rfl
@[simp] theorem Core.setPort_pending (c : Core) (q : Nat) (l : List QWord) : (c.setPort q l).pending = c.pending := rfl
@[simp] theorem Core.setPort_accs (c : Core) (q : Nat) (l : List QWord) : (c.setPort q l).accs = c.accs := rfl
@[simp] theorem Core.setPort_extents (c : Core) (q : Nat) (l : List QWord) : (c.setPort q l).extents = c.extents := rfl
@[simp] theorem Core.setPort_v (c : Core) (q : Nat) (l : List QWord) : (c.setPort q l).v = c.v := rfl
@[simp] theorem Core.setPort_p (c : Core) (q : Nat) (l : List QWord) : (c.setPort q l).p = c.p := rfl
@[simp] theorem Core.setPort_tiles (c : Core) (q : Nat) (l : List QWord) : (c.setPort q l).tiles = c.tiles := rfl
@[simp] theorem Core.setPort_slots (c : Core) (q : Nat) (l : List QWord) : (c.setPort q l).slots = c.slots := rfl

/-- pop changes nothing but ports, lastPop. -/
theorem Core.pop_only (c : Core) (q t : Nat) : c.pop q t = { c with ports := (c.pop q t).ports, lastPop := (c.pop q t).lastPop } :=
  rfl
@[simp] theorem Core.pop_num (c : Core) (q t : Nat) : (c.pop q t).num = c.num := rfl
@[simp] theorem Core.pop_run (c : Core) (q t : Nat) : (c.pop q t).run = c.run := rfl
@[simp] theorem Core.pop_view (c : Core) (q t : Nat) : (c.pop q t).view = c.view := rfl
@[simp] theorem Core.pop_pc (c : Core) (q t : Nat) : (c.pop q t).pc = c.pc := rfl
@[simp] theorem Core.pop_s (c : Core) (q t : Nat) : (c.pop q t).s = c.s := rfl
@[simp] theorem Core.pop_clearTok (c : Core) (q t : Nat) : (c.pop q t).clearTok = c.clearTok := rfl
@[simp] theorem Core.pop_handles (c : Core) (q t : Nat) : (c.pop q t).handles = c.handles := rfl
@[simp] theorem Core.pop_fouled (c : Core) (q t : Nat) : (c.pop q t).fouled = c.fouled := rfl
@[simp] theorem Core.pop_ut (c : Core) (q t : Nat) : (c.pop q t).ut = c.ut := rfl
@[simp] theorem Core.pop_st (c : Core) (q t : Nat) : (c.pop q t).st = c.st := rfl
@[simp] theorem Core.pop_ebits (c : Core) (q t : Nat) : (c.pop q t).ebits = c.ebits := rfl
@[simp] theorem Core.pop_xebits (c : Core) (q t : Nat) : (c.pop q t).xebits = c.xebits := rfl
@[simp] theorem Core.pop_ej (c : Core) (q t : Nat) : (c.pop q t).ej = c.ej := rfl
@[simp] theorem Core.pop_equota (c : Core) (q t : Nat) : (c.pop q t).equota = c.equota := rfl
@[simp] theorem Core.pop_qp (c : Core) (q t : Nat) : (c.pop q t).qp = c.qp := rfl
@[simp] theorem Core.pop_trap (c : Core) (q t : Nat) : (c.pop q t).trap = c.trap := rfl
@[simp] theorem Core.pop_wait (c : Core) (q t : Nat) : (c.pop q t).wait = c.wait := rfl
@[simp] theorem Core.pop_pend (c : Core) (q t : Nat) : (c.pop q t).pend = c.pend := rfl
@[simp] theorem Core.pop_nextBt (c : Core) (q t : Nat) : (c.pop q t).nextBt = c.nextBt := rfl
@[simp] theorem Core.pop_order (c : Core) (q t : Nat) : (c.pop q t).order = c.order := rfl
@[simp] theorem Core.pop_busy (c : Core) (q t : Nat) : (c.pop q t).busy = c.busy := rfl
@[simp] theorem Core.pop_vq (c : Core) (q t : Nat) : (c.pop q t).vq = c.vq := rfl
@[simp] theorem Core.pop_pending (c : Core) (q t : Nat) : (c.pop q t).pending = c.pending := rfl
@[simp] theorem Core.pop_accs (c : Core) (q t : Nat) : (c.pop q t).accs = c.accs := rfl
@[simp] theorem Core.pop_extents (c : Core) (q t : Nat) : (c.pop q t).extents = c.extents := rfl
@[simp] theorem Core.pop_v (c : Core) (q t : Nat) : (c.pop q t).v = c.v := rfl
@[simp] theorem Core.pop_p (c : Core) (q t : Nat) : (c.pop q t).p = c.p := rfl
@[simp] theorem Core.pop_tiles (c : Core) (q t : Nat) : (c.pop q t).tiles = c.tiles := rfl
@[simp] theorem Core.pop_slots (c : Core) (q t : Nat) : (c.pop q t).slots = c.slots := rfl

/-- clearToken changes nothing but clearTok. -/
theorem Core.clearToken_only (c : Core) (k : Nat) : c.clearToken k = { c with clearTok := (c.clearToken k).clearTok } :=
  by unfold Core.clearToken; split <;> rfl
@[simp] theorem Core.clearToken_num (c : Core) (k : Nat) : (c.clearToken k).num = c.num := by unfold Core.clearToken; split <;> rfl
@[simp] theorem Core.clearToken_run (c : Core) (k : Nat) : (c.clearToken k).run = c.run := by unfold Core.clearToken; split <;> rfl
@[simp] theorem Core.clearToken_view (c : Core) (k : Nat) : (c.clearToken k).view = c.view := by unfold Core.clearToken; split <;> rfl
@[simp] theorem Core.clearToken_pc (c : Core) (k : Nat) : (c.clearToken k).pc = c.pc := by unfold Core.clearToken; split <;> rfl
@[simp] theorem Core.clearToken_s (c : Core) (k : Nat) : (c.clearToken k).s = c.s := by unfold Core.clearToken; split <;> rfl
@[simp] theorem Core.clearToken_ports (c : Core) (k : Nat) : (c.clearToken k).ports = c.ports := by unfold Core.clearToken; split <;> rfl
@[simp] theorem Core.clearToken_lastPop (c : Core) (k : Nat) : (c.clearToken k).lastPop = c.lastPop := by unfold Core.clearToken; split <;> rfl
@[simp] theorem Core.clearToken_handles (c : Core) (k : Nat) : (c.clearToken k).handles = c.handles := by unfold Core.clearToken; split <;> rfl
@[simp] theorem Core.clearToken_fouled (c : Core) (k : Nat) : (c.clearToken k).fouled = c.fouled := by unfold Core.clearToken; split <;> rfl
@[simp] theorem Core.clearToken_ut (c : Core) (k : Nat) : (c.clearToken k).ut = c.ut := by unfold Core.clearToken; split <;> rfl
@[simp] theorem Core.clearToken_st (c : Core) (k : Nat) : (c.clearToken k).st = c.st := by unfold Core.clearToken; split <;> rfl
@[simp] theorem Core.clearToken_ebits (c : Core) (k : Nat) : (c.clearToken k).ebits = c.ebits := by unfold Core.clearToken; split <;> rfl
@[simp] theorem Core.clearToken_xebits (c : Core) (k : Nat) : (c.clearToken k).xebits = c.xebits := by unfold Core.clearToken; split <;> rfl
@[simp] theorem Core.clearToken_ej (c : Core) (k : Nat) : (c.clearToken k).ej = c.ej := by unfold Core.clearToken; split <;> rfl
@[simp] theorem Core.clearToken_equota (c : Core) (k : Nat) : (c.clearToken k).equota = c.equota := by unfold Core.clearToken; split <;> rfl
@[simp] theorem Core.clearToken_qp (c : Core) (k : Nat) : (c.clearToken k).qp = c.qp := by unfold Core.clearToken; split <;> rfl
@[simp] theorem Core.clearToken_trap (c : Core) (k : Nat) : (c.clearToken k).trap = c.trap := by unfold Core.clearToken; split <;> rfl
@[simp] theorem Core.clearToken_wait (c : Core) (k : Nat) : (c.clearToken k).wait = c.wait := by unfold Core.clearToken; split <;> rfl
@[simp] theorem Core.clearToken_pend (c : Core) (k : Nat) : (c.clearToken k).pend = c.pend := by unfold Core.clearToken; split <;> rfl
@[simp] theorem Core.clearToken_nextBt (c : Core) (k : Nat) : (c.clearToken k).nextBt = c.nextBt := by unfold Core.clearToken; split <;> rfl
@[simp] theorem Core.clearToken_order (c : Core) (k : Nat) : (c.clearToken k).order = c.order := by unfold Core.clearToken; split <;> rfl
@[simp] theorem Core.clearToken_busy (c : Core) (k : Nat) : (c.clearToken k).busy = c.busy := by unfold Core.clearToken; split <;> rfl
@[simp] theorem Core.clearToken_vq (c : Core) (k : Nat) : (c.clearToken k).vq = c.vq := by unfold Core.clearToken; split <;> rfl
@[simp] theorem Core.clearToken_pending (c : Core) (k : Nat) : (c.clearToken k).pending = c.pending := by unfold Core.clearToken; split <;> rfl
@[simp] theorem Core.clearToken_accs (c : Core) (k : Nat) : (c.clearToken k).accs = c.accs := by unfold Core.clearToken; split <;> rfl
@[simp] theorem Core.clearToken_extents (c : Core) (k : Nat) : (c.clearToken k).extents = c.extents := by unfold Core.clearToken; split <;> rfl
@[simp] theorem Core.clearToken_v (c : Core) (k : Nat) : (c.clearToken k).v = c.v := by unfold Core.clearToken; split <;> rfl
@[simp] theorem Core.clearToken_p (c : Core) (k : Nat) : (c.clearToken k).p = c.p := by unfold Core.clearToken; split <;> rfl
@[simp] theorem Core.clearToken_tiles (c : Core) (k : Nat) : (c.clearToken k).tiles = c.tiles := by unfold Core.clearToken; split <;> rfl
@[simp] theorem Core.clearToken_slots (c : Core) (k : Nat) : (c.clearToken k).slots = c.slots := by unfold Core.clearToken; split <;> rfl

/-- setToken changes nothing but clearTok. -/
theorem Core.setToken_only (c : Core) (k : Nat) : c.setToken k = { c with clearTok := (c.setToken k).clearTok } :=
  rfl
@[simp] theorem Core.setToken_num (c : Core) (k : Nat) : (c.setToken k).num = c.num := rfl
@[simp] theorem Core.setToken_run (c : Core) (k : Nat) : (c.setToken k).run = c.run := rfl
@[simp] theorem Core.setToken_view (c : Core) (k : Nat) : (c.setToken k).view = c.view := rfl
@[simp] theorem Core.setToken_pc (c : Core) (k : Nat) : (c.setToken k).pc = c.pc := rfl
@[simp] theorem Core.setToken_s (c : Core) (k : Nat) : (c.setToken k).s = c.s := rfl
@[simp] theorem Core.setToken_ports (c : Core) (k : Nat) : (c.setToken k).ports = c.ports := rfl
@[simp] theorem Core.setToken_lastPop (c : Core) (k : Nat) : (c.setToken k).lastPop = c.lastPop := rfl
@[simp] theorem Core.setToken_handles (c : Core) (k : Nat) : (c.setToken k).handles = c.handles := rfl
@[simp] theorem Core.setToken_fouled (c : Core) (k : Nat) : (c.setToken k).fouled = c.fouled := rfl
@[simp] theorem Core.setToken_ut (c : Core) (k : Nat) : (c.setToken k).ut = c.ut := rfl
@[simp] theorem Core.setToken_st (c : Core) (k : Nat) : (c.setToken k).st = c.st := rfl
@[simp] theorem Core.setToken_ebits (c : Core) (k : Nat) : (c.setToken k).ebits = c.ebits := rfl
@[simp] theorem Core.setToken_xebits (c : Core) (k : Nat) : (c.setToken k).xebits = c.xebits := rfl
@[simp] theorem Core.setToken_ej (c : Core) (k : Nat) : (c.setToken k).ej = c.ej := rfl
@[simp] theorem Core.setToken_equota (c : Core) (k : Nat) : (c.setToken k).equota = c.equota := rfl
@[simp] theorem Core.setToken_qp (c : Core) (k : Nat) : (c.setToken k).qp = c.qp := rfl
@[simp] theorem Core.setToken_trap (c : Core) (k : Nat) : (c.setToken k).trap = c.trap := rfl
@[simp] theorem Core.setToken_wait (c : Core) (k : Nat) : (c.setToken k).wait = c.wait := rfl
@[simp] theorem Core.setToken_pend (c : Core) (k : Nat) : (c.setToken k).pend = c.pend := rfl
@[simp] theorem Core.setToken_nextBt (c : Core) (k : Nat) : (c.setToken k).nextBt = c.nextBt := rfl
@[simp] theorem Core.setToken_order (c : Core) (k : Nat) : (c.setToken k).order = c.order := rfl
@[simp] theorem Core.setToken_busy (c : Core) (k : Nat) : (c.setToken k).busy = c.busy := rfl
@[simp] theorem Core.setToken_vq (c : Core) (k : Nat) : (c.setToken k).vq = c.vq := rfl
@[simp] theorem Core.setToken_pending (c : Core) (k : Nat) : (c.setToken k).pending = c.pending := rfl
@[simp] theorem Core.setToken_accs (c : Core) (k : Nat) : (c.setToken k).accs = c.accs := rfl
@[simp] theorem Core.setToken_extents (c : Core) (k : Nat) : (c.setToken k).extents = c.extents := rfl
@[simp] theorem Core.setToken_v (c : Core) (k : Nat) : (c.setToken k).v = c.v := rfl
@[simp] theorem Core.setToken_p (c : Core) (k : Nat) : (c.setToken k).p = c.p := rfl
@[simp] theorem Core.setToken_tiles (c : Core) (k : Nat) : (c.setToken k).tiles = c.tiles := rfl
@[simp] theorem Core.setToken_slots (c : Core) (k : Nat) : (c.setToken k).slots = c.slots := rfl

/-- setHandle changes nothing but handles, and which of them a faulted entry has left filling. -/
theorem Core.setHandle_only (c : Core) (h : Nat) (x : HState) :
    c.setHandle h x = { c with handles := (c.setHandle h x).handles, fouled := (c.setHandle h x).fouled } :=
  rfl
@[simp] theorem Core.setHandle_num (c : Core) (h : Nat) (x : HState) : (c.setHandle h x).num = c.num := rfl
@[simp] theorem Core.setHandle_run (c : Core) (h : Nat) (x : HState) : (c.setHandle h x).run = c.run := rfl
@[simp] theorem Core.setHandle_view (c : Core) (h : Nat) (x : HState) : (c.setHandle h x).view = c.view := rfl
@[simp] theorem Core.setHandle_pc (c : Core) (h : Nat) (x : HState) : (c.setHandle h x).pc = c.pc := rfl
@[simp] theorem Core.setHandle_s (c : Core) (h : Nat) (x : HState) : (c.setHandle h x).s = c.s := rfl
@[simp] theorem Core.setHandle_ports (c : Core) (h : Nat) (x : HState) : (c.setHandle h x).ports = c.ports := rfl
@[simp] theorem Core.setHandle_lastPop (c : Core) (h : Nat) (x : HState) : (c.setHandle h x).lastPop = c.lastPop := rfl
@[simp] theorem Core.setHandle_clearTok (c : Core) (h : Nat) (x : HState) : (c.setHandle h x).clearTok = c.clearTok := rfl
@[simp] theorem Core.setHandle_ut (c : Core) (h : Nat) (x : HState) : (c.setHandle h x).ut = c.ut := rfl
@[simp] theorem Core.setHandle_st (c : Core) (h : Nat) (x : HState) : (c.setHandle h x).st = c.st := rfl
@[simp] theorem Core.setHandle_ebits (c : Core) (h : Nat) (x : HState) : (c.setHandle h x).ebits = c.ebits := rfl
@[simp] theorem Core.setHandle_xebits (c : Core) (h : Nat) (x : HState) : (c.setHandle h x).xebits = c.xebits := rfl
@[simp] theorem Core.setHandle_ej (c : Core) (h : Nat) (x : HState) : (c.setHandle h x).ej = c.ej := rfl
@[simp] theorem Core.setHandle_equota (c : Core) (h : Nat) (x : HState) : (c.setHandle h x).equota = c.equota := rfl
@[simp] theorem Core.setHandle_qp (c : Core) (h : Nat) (x : HState) : (c.setHandle h x).qp = c.qp := rfl
@[simp] theorem Core.setHandle_trap (c : Core) (h : Nat) (x : HState) : (c.setHandle h x).trap = c.trap := rfl
@[simp] theorem Core.setHandle_wait (c : Core) (h : Nat) (x : HState) : (c.setHandle h x).wait = c.wait := rfl
@[simp] theorem Core.setHandle_pend (c : Core) (h : Nat) (x : HState) : (c.setHandle h x).pend = c.pend := rfl
@[simp] theorem Core.setHandle_nextBt (c : Core) (h : Nat) (x : HState) : (c.setHandle h x).nextBt = c.nextBt := rfl
@[simp] theorem Core.setHandle_order (c : Core) (h : Nat) (x : HState) : (c.setHandle h x).order = c.order := rfl
@[simp] theorem Core.setHandle_busy (c : Core) (h : Nat) (x : HState) : (c.setHandle h x).busy = c.busy := rfl
@[simp] theorem Core.setHandle_vq (c : Core) (h : Nat) (x : HState) : (c.setHandle h x).vq = c.vq := rfl
@[simp] theorem Core.setHandle_pending (c : Core) (h : Nat) (x : HState) : (c.setHandle h x).pending = c.pending := rfl
@[simp] theorem Core.setHandle_accs (c : Core) (h : Nat) (x : HState) : (c.setHandle h x).accs = c.accs := rfl
@[simp] theorem Core.setHandle_extents (c : Core) (h : Nat) (x : HState) : (c.setHandle h x).extents = c.extents := rfl
@[simp] theorem Core.setHandle_v (c : Core) (h : Nat) (x : HState) : (c.setHandle h x).v = c.v := rfl
@[simp] theorem Core.setHandle_p (c : Core) (h : Nat) (x : HState) : (c.setHandle h x).p = c.p := rfl
@[simp] theorem Core.setHandle_tiles (c : Core) (h : Nat) (x : HState) : (c.setHandle h x).tiles = c.tiles := rfl
@[simp] theorem Core.setHandle_slots (c : Core) (h : Nat) (x : HState) : (c.setHandle h x).slots = c.slots := rfl

/-- setTrug changes nothing but ut, st. -/
theorem Core.setTrug_only (c : Core) (t : Trug) : c.setTrug t = { c with ut := (c.setTrug t).ut, st := (c.setTrug t).st } :=
  by unfold Core.setTrug; split <;> rfl
@[simp] theorem Core.setTrug_num (c : Core) (t : Trug) : (c.setTrug t).num = c.num := by unfold Core.setTrug; split <;> rfl
@[simp] theorem Core.setTrug_run (c : Core) (t : Trug) : (c.setTrug t).run = c.run := by unfold Core.setTrug; split <;> rfl
@[simp] theorem Core.setTrug_view (c : Core) (t : Trug) : (c.setTrug t).view = c.view := by unfold Core.setTrug; split <;> rfl
@[simp] theorem Core.setTrug_pc (c : Core) (t : Trug) : (c.setTrug t).pc = c.pc := by unfold Core.setTrug; split <;> rfl
@[simp] theorem Core.setTrug_s (c : Core) (t : Trug) : (c.setTrug t).s = c.s := by unfold Core.setTrug; split <;> rfl
@[simp] theorem Core.setTrug_ports (c : Core) (t : Trug) : (c.setTrug t).ports = c.ports := by unfold Core.setTrug; split <;> rfl
@[simp] theorem Core.setTrug_lastPop (c : Core) (t : Trug) : (c.setTrug t).lastPop = c.lastPop := by unfold Core.setTrug; split <;> rfl
@[simp] theorem Core.setTrug_clearTok (c : Core) (t : Trug) : (c.setTrug t).clearTok = c.clearTok := by unfold Core.setTrug; split <;> rfl
@[simp] theorem Core.setTrug_handles (c : Core) (t : Trug) : (c.setTrug t).handles = c.handles := by unfold Core.setTrug; split <;> rfl
@[simp] theorem Core.setTrug_fouled (c : Core) (t : Trug) : (c.setTrug t).fouled = c.fouled := by unfold Core.setTrug; split <;> rfl
@[simp] theorem Core.setTrug_ebits (c : Core) (t : Trug) : (c.setTrug t).ebits = c.ebits := by unfold Core.setTrug; split <;> rfl
@[simp] theorem Core.setTrug_xebits (c : Core) (t : Trug) : (c.setTrug t).xebits = c.xebits := by unfold Core.setTrug; split <;> rfl
@[simp] theorem Core.setTrug_ej (c : Core) (t : Trug) : (c.setTrug t).ej = c.ej := by unfold Core.setTrug; split <;> rfl
@[simp] theorem Core.setTrug_equota (c : Core) (t : Trug) : (c.setTrug t).equota = c.equota := by unfold Core.setTrug; split <;> rfl
@[simp] theorem Core.setTrug_qp (c : Core) (t : Trug) : (c.setTrug t).qp = c.qp := by unfold Core.setTrug; split <;> rfl
@[simp] theorem Core.setTrug_trap (c : Core) (t : Trug) : (c.setTrug t).trap = c.trap := by unfold Core.setTrug; split <;> rfl
@[simp] theorem Core.setTrug_wait (c : Core) (t : Trug) : (c.setTrug t).wait = c.wait := by unfold Core.setTrug; split <;> rfl
@[simp] theorem Core.setTrug_pend (c : Core) (t : Trug) : (c.setTrug t).pend = c.pend := by unfold Core.setTrug; split <;> rfl
@[simp] theorem Core.setTrug_nextBt (c : Core) (t : Trug) : (c.setTrug t).nextBt = c.nextBt := by unfold Core.setTrug; split <;> rfl
@[simp] theorem Core.setTrug_order (c : Core) (t : Trug) : (c.setTrug t).order = c.order := by unfold Core.setTrug; split <;> rfl
@[simp] theorem Core.setTrug_busy (c : Core) (t : Trug) : (c.setTrug t).busy = c.busy := by unfold Core.setTrug; split <;> rfl
@[simp] theorem Core.setTrug_vq (c : Core) (t : Trug) : (c.setTrug t).vq = c.vq := by unfold Core.setTrug; split <;> rfl
@[simp] theorem Core.setTrug_pending (c : Core) (t : Trug) : (c.setTrug t).pending = c.pending := by unfold Core.setTrug; split <;> rfl
@[simp] theorem Core.setTrug_accs (c : Core) (t : Trug) : (c.setTrug t).accs = c.accs := by unfold Core.setTrug; split <;> rfl
@[simp] theorem Core.setTrug_extents (c : Core) (t : Trug) : (c.setTrug t).extents = c.extents := by unfold Core.setTrug; split <;> rfl
@[simp] theorem Core.setTrug_v (c : Core) (t : Trug) : (c.setTrug t).v = c.v := by unfold Core.setTrug; split <;> rfl
@[simp] theorem Core.setTrug_p (c : Core) (t : Trug) : (c.setTrug t).p = c.p := by unfold Core.setTrug; split <;> rfl
@[simp] theorem Core.setTrug_tiles (c : Core) (t : Trug) : (c.setTrug t).tiles = c.tiles := by unfold Core.setTrug; split <;> rfl
@[simp] theorem Core.setTrug_slots (c : Core) (t : Trug) : (c.setTrug t).slots = c.slots := by unfold Core.setTrug; split <;> rfl

/-- erase changes nothing but ebits, ej, qp. -/
theorem Core.erase_only (c : Core) (n : Nat) (b : Bool) : c.erase n b = { c with ebits := (c.erase n b).ebits, ej := (c.erase n b).ej, qp := (c.erase n b).qp } :=
  rfl
@[simp] theorem Core.erase_num (c : Core) (n : Nat) (b : Bool) : (c.erase n b).num = c.num := rfl
@[simp] theorem Core.erase_run (c : Core) (n : Nat) (b : Bool) : (c.erase n b).run = c.run := rfl
@[simp] theorem Core.erase_view (c : Core) (n : Nat) (b : Bool) : (c.erase n b).view = c.view := rfl
@[simp] theorem Core.erase_pc (c : Core) (n : Nat) (b : Bool) : (c.erase n b).pc = c.pc := rfl
@[simp] theorem Core.erase_s (c : Core) (n : Nat) (b : Bool) : (c.erase n b).s = c.s := rfl
@[simp] theorem Core.erase_ports (c : Core) (n : Nat) (b : Bool) : (c.erase n b).ports = c.ports := rfl
@[simp] theorem Core.erase_lastPop (c : Core) (n : Nat) (b : Bool) : (c.erase n b).lastPop = c.lastPop := rfl
@[simp] theorem Core.erase_clearTok (c : Core) (n : Nat) (b : Bool) : (c.erase n b).clearTok = c.clearTok := rfl
@[simp] theorem Core.erase_handles (c : Core) (n : Nat) (b : Bool) : (c.erase n b).handles = c.handles := rfl
@[simp] theorem Core.erase_fouled (c : Core) (n : Nat) (b : Bool) : (c.erase n b).fouled = c.fouled := rfl
@[simp] theorem Core.erase_ut (c : Core) (n : Nat) (b : Bool) : (c.erase n b).ut = c.ut := rfl
@[simp] theorem Core.erase_st (c : Core) (n : Nat) (b : Bool) : (c.erase n b).st = c.st := rfl
@[simp] theorem Core.erase_xebits (c : Core) (n : Nat) (b : Bool) : (c.erase n b).xebits = c.xebits := rfl
@[simp] theorem Core.erase_equota (c : Core) (n : Nat) (b : Bool) : (c.erase n b).equota = c.equota := rfl
@[simp] theorem Core.erase_trap (c : Core) (n : Nat) (b : Bool) : (c.erase n b).trap = c.trap := rfl
@[simp] theorem Core.erase_wait (c : Core) (n : Nat) (b : Bool) : (c.erase n b).wait = c.wait := rfl
@[simp] theorem Core.erase_pend (c : Core) (n : Nat) (b : Bool) : (c.erase n b).pend = c.pend := rfl
@[simp] theorem Core.erase_nextBt (c : Core) (n : Nat) (b : Bool) : (c.erase n b).nextBt = c.nextBt := rfl
@[simp] theorem Core.erase_order (c : Core) (n : Nat) (b : Bool) : (c.erase n b).order = c.order := rfl
@[simp] theorem Core.erase_busy (c : Core) (n : Nat) (b : Bool) : (c.erase n b).busy = c.busy := rfl
@[simp] theorem Core.erase_vq (c : Core) (n : Nat) (b : Bool) : (c.erase n b).vq = c.vq := rfl
@[simp] theorem Core.erase_pending (c : Core) (n : Nat) (b : Bool) : (c.erase n b).pending = c.pending := rfl
@[simp] theorem Core.erase_accs (c : Core) (n : Nat) (b : Bool) : (c.erase n b).accs = c.accs := rfl
@[simp] theorem Core.erase_extents (c : Core) (n : Nat) (b : Bool) : (c.erase n b).extents = c.extents := rfl
@[simp] theorem Core.erase_v (c : Core) (n : Nat) (b : Bool) : (c.erase n b).v = c.v := rfl
@[simp] theorem Core.erase_p (c : Core) (n : Nat) (b : Bool) : (c.erase n b).p = c.p := rfl
@[simp] theorem Core.erase_tiles (c : Core) (n : Nat) (b : Bool) : (c.erase n b).tiles = c.tiles := rfl
@[simp] theorem Core.erase_slots (c : Core) (n : Nat) (b : Bool) : (c.erase n b).slots = c.slots := rfl

/-- eraseX changes nothing but xebits. -/
theorem Core.eraseX_only (c : Core) (n : Nat) : c.eraseX n = { c with xebits := (c.eraseX n).xebits } :=
  rfl
@[simp] theorem Core.eraseX_num (c : Core) (n : Nat) : (c.eraseX n).num = c.num := rfl
@[simp] theorem Core.eraseX_run (c : Core) (n : Nat) : (c.eraseX n).run = c.run := rfl
@[simp] theorem Core.eraseX_view (c : Core) (n : Nat) : (c.eraseX n).view = c.view := rfl
@[simp] theorem Core.eraseX_pc (c : Core) (n : Nat) : (c.eraseX n).pc = c.pc := rfl
@[simp] theorem Core.eraseX_s (c : Core) (n : Nat) : (c.eraseX n).s = c.s := rfl
@[simp] theorem Core.eraseX_ports (c : Core) (n : Nat) : (c.eraseX n).ports = c.ports := rfl
@[simp] theorem Core.eraseX_lastPop (c : Core) (n : Nat) : (c.eraseX n).lastPop = c.lastPop := rfl
@[simp] theorem Core.eraseX_clearTok (c : Core) (n : Nat) : (c.eraseX n).clearTok = c.clearTok := rfl
@[simp] theorem Core.eraseX_handles (c : Core) (n : Nat) : (c.eraseX n).handles = c.handles := rfl
@[simp] theorem Core.eraseX_fouled (c : Core) (n : Nat) : (c.eraseX n).fouled = c.fouled := rfl
@[simp] theorem Core.eraseX_ut (c : Core) (n : Nat) : (c.eraseX n).ut = c.ut := rfl
@[simp] theorem Core.eraseX_st (c : Core) (n : Nat) : (c.eraseX n).st = c.st := rfl
@[simp] theorem Core.eraseX_ebits (c : Core) (n : Nat) : (c.eraseX n).ebits = c.ebits := rfl
@[simp] theorem Core.eraseX_ej (c : Core) (n : Nat) : (c.eraseX n).ej = c.ej := rfl
@[simp] theorem Core.eraseX_equota (c : Core) (n : Nat) : (c.eraseX n).equota = c.equota := rfl
@[simp] theorem Core.eraseX_qp (c : Core) (n : Nat) : (c.eraseX n).qp = c.qp := rfl
@[simp] theorem Core.eraseX_trap (c : Core) (n : Nat) : (c.eraseX n).trap = c.trap := rfl
@[simp] theorem Core.eraseX_wait (c : Core) (n : Nat) : (c.eraseX n).wait = c.wait := rfl
@[simp] theorem Core.eraseX_pend (c : Core) (n : Nat) : (c.eraseX n).pend = c.pend := rfl
@[simp] theorem Core.eraseX_nextBt (c : Core) (n : Nat) : (c.eraseX n).nextBt = c.nextBt := rfl
@[simp] theorem Core.eraseX_order (c : Core) (n : Nat) : (c.eraseX n).order = c.order := rfl
@[simp] theorem Core.eraseX_busy (c : Core) (n : Nat) : (c.eraseX n).busy = c.busy := rfl
@[simp] theorem Core.eraseX_vq (c : Core) (n : Nat) : (c.eraseX n).vq = c.vq := rfl
@[simp] theorem Core.eraseX_pending (c : Core) (n : Nat) : (c.eraseX n).pending = c.pending := rfl
@[simp] theorem Core.eraseX_accs (c : Core) (n : Nat) : (c.eraseX n).accs = c.accs := rfl
@[simp] theorem Core.eraseX_extents (c : Core) (n : Nat) : (c.eraseX n).extents = c.extents := rfl
@[simp] theorem Core.eraseX_v (c : Core) (n : Nat) : (c.eraseX n).v = c.v := rfl
@[simp] theorem Core.eraseX_p (c : Core) (n : Nat) : (c.eraseX n).p = c.p := rfl
@[simp] theorem Core.eraseX_tiles (c : Core) (n : Nat) : (c.eraseX n).tiles = c.tiles := rfl
@[simp] theorem Core.eraseX_slots (c : Core) (n : Nat) : (c.eraseX n).slots = c.slots := rfl

/-- eraseReg changes nothing but ebits, xebits, ej, qp. -/
theorem Core.eraseReg_only (c : Core) (n : Nat) : c.eraseReg n = { c with ebits := (c.eraseReg n).ebits, xebits := (c.eraseReg n).xebits, ej := (c.eraseReg n).ej, qp := (c.eraseReg n).qp } :=
  by unfold Core.eraseReg; split <;> rfl
@[simp] theorem Core.eraseReg_num (c : Core) (n : Nat) : (c.eraseReg n).num = c.num := by unfold Core.eraseReg; split <;> rfl
@[simp] theorem Core.eraseReg_run (c : Core) (n : Nat) : (c.eraseReg n).run = c.run := by unfold Core.eraseReg; split <;> rfl
@[simp] theorem Core.eraseReg_view (c : Core) (n : Nat) : (c.eraseReg n).view = c.view := by unfold Core.eraseReg; split <;> rfl
@[simp] theorem Core.eraseReg_pc (c : Core) (n : Nat) : (c.eraseReg n).pc = c.pc := by unfold Core.eraseReg; split <;> rfl
@[simp] theorem Core.eraseReg_s (c : Core) (n : Nat) : (c.eraseReg n).s = c.s := by unfold Core.eraseReg; split <;> rfl
@[simp] theorem Core.eraseReg_ports (c : Core) (n : Nat) : (c.eraseReg n).ports = c.ports := by unfold Core.eraseReg; split <;> rfl
@[simp] theorem Core.eraseReg_lastPop (c : Core) (n : Nat) : (c.eraseReg n).lastPop = c.lastPop := by unfold Core.eraseReg; split <;> rfl
@[simp] theorem Core.eraseReg_clearTok (c : Core) (n : Nat) : (c.eraseReg n).clearTok = c.clearTok := by unfold Core.eraseReg; split <;> rfl
@[simp] theorem Core.eraseReg_handles (c : Core) (n : Nat) : (c.eraseReg n).handles = c.handles := by unfold Core.eraseReg; split <;> rfl
@[simp] theorem Core.eraseReg_fouled (c : Core) (n : Nat) : (c.eraseReg n).fouled = c.fouled := by unfold Core.eraseReg; split <;> rfl
@[simp] theorem Core.eraseReg_ut (c : Core) (n : Nat) : (c.eraseReg n).ut = c.ut := by unfold Core.eraseReg; split <;> rfl
@[simp] theorem Core.eraseReg_st (c : Core) (n : Nat) : (c.eraseReg n).st = c.st := by unfold Core.eraseReg; split <;> rfl
@[simp] theorem Core.eraseReg_equota (c : Core) (n : Nat) : (c.eraseReg n).equota = c.equota := by unfold Core.eraseReg; split <;> rfl
@[simp] theorem Core.eraseReg_trap (c : Core) (n : Nat) : (c.eraseReg n).trap = c.trap := by unfold Core.eraseReg; split <;> rfl
@[simp] theorem Core.eraseReg_wait (c : Core) (n : Nat) : (c.eraseReg n).wait = c.wait := by unfold Core.eraseReg; split <;> rfl
@[simp] theorem Core.eraseReg_pend (c : Core) (n : Nat) : (c.eraseReg n).pend = c.pend := by unfold Core.eraseReg; split <;> rfl
@[simp] theorem Core.eraseReg_nextBt (c : Core) (n : Nat) : (c.eraseReg n).nextBt = c.nextBt := by unfold Core.eraseReg; split <;> rfl
@[simp] theorem Core.eraseReg_order (c : Core) (n : Nat) : (c.eraseReg n).order = c.order := by unfold Core.eraseReg; split <;> rfl
@[simp] theorem Core.eraseReg_busy (c : Core) (n : Nat) : (c.eraseReg n).busy = c.busy := by unfold Core.eraseReg; split <;> rfl
@[simp] theorem Core.eraseReg_vq (c : Core) (n : Nat) : (c.eraseReg n).vq = c.vq := by unfold Core.eraseReg; split <;> rfl
@[simp] theorem Core.eraseReg_pending (c : Core) (n : Nat) : (c.eraseReg n).pending = c.pending := by unfold Core.eraseReg; split <;> rfl
@[simp] theorem Core.eraseReg_accs (c : Core) (n : Nat) : (c.eraseReg n).accs = c.accs := by unfold Core.eraseReg; split <;> rfl
@[simp] theorem Core.eraseReg_extents (c : Core) (n : Nat) : (c.eraseReg n).extents = c.extents := by unfold Core.eraseReg; split <;> rfl
@[simp] theorem Core.eraseReg_v (c : Core) (n : Nat) : (c.eraseReg n).v = c.v := by unfold Core.eraseReg; split <;> rfl
@[simp] theorem Core.eraseReg_p (c : Core) (n : Nat) : (c.eraseReg n).p = c.p := by unfold Core.eraseReg; split <;> rfl
@[simp] theorem Core.eraseReg_tiles (c : Core) (n : Nat) : (c.eraseReg n).tiles = c.tiles := by unfold Core.eraseReg; split <;> rfl
@[simp] theorem Core.eraseReg_slots (c : Core) (n : Nat) : (c.eraseReg n).slots = c.slots := by unfold Core.eraseReg; split <;> rfl

/-- occupy changes nothing but busy. -/
theorem Core.occupy_only (c : Core) (n : Nat) (u : FUnit) : c.occupy n u = { c with busy := (c.occupy n u).busy } :=
  rfl
@[simp] theorem Core.occupy_num (c : Core) (n : Nat) (u : FUnit) : (c.occupy n u).num = c.num := rfl
@[simp] theorem Core.occupy_run (c : Core) (n : Nat) (u : FUnit) : (c.occupy n u).run = c.run := rfl
@[simp] theorem Core.occupy_view (c : Core) (n : Nat) (u : FUnit) : (c.occupy n u).view = c.view := rfl
@[simp] theorem Core.occupy_pc (c : Core) (n : Nat) (u : FUnit) : (c.occupy n u).pc = c.pc := rfl
@[simp] theorem Core.occupy_s (c : Core) (n : Nat) (u : FUnit) : (c.occupy n u).s = c.s := rfl
@[simp] theorem Core.occupy_ports (c : Core) (n : Nat) (u : FUnit) : (c.occupy n u).ports = c.ports := rfl
@[simp] theorem Core.occupy_lastPop (c : Core) (n : Nat) (u : FUnit) : (c.occupy n u).lastPop = c.lastPop := rfl
@[simp] theorem Core.occupy_clearTok (c : Core) (n : Nat) (u : FUnit) : (c.occupy n u).clearTok = c.clearTok := rfl
@[simp] theorem Core.occupy_handles (c : Core) (n : Nat) (u : FUnit) : (c.occupy n u).handles = c.handles := rfl
@[simp] theorem Core.occupy_fouled (c : Core) (n : Nat) (u : FUnit) : (c.occupy n u).fouled = c.fouled := rfl
@[simp] theorem Core.occupy_ut (c : Core) (n : Nat) (u : FUnit) : (c.occupy n u).ut = c.ut := rfl
@[simp] theorem Core.occupy_st (c : Core) (n : Nat) (u : FUnit) : (c.occupy n u).st = c.st := rfl
@[simp] theorem Core.occupy_ebits (c : Core) (n : Nat) (u : FUnit) : (c.occupy n u).ebits = c.ebits := rfl
@[simp] theorem Core.occupy_xebits (c : Core) (n : Nat) (u : FUnit) : (c.occupy n u).xebits = c.xebits := rfl
@[simp] theorem Core.occupy_ej (c : Core) (n : Nat) (u : FUnit) : (c.occupy n u).ej = c.ej := rfl
@[simp] theorem Core.occupy_equota (c : Core) (n : Nat) (u : FUnit) : (c.occupy n u).equota = c.equota := rfl
@[simp] theorem Core.occupy_qp (c : Core) (n : Nat) (u : FUnit) : (c.occupy n u).qp = c.qp := rfl
@[simp] theorem Core.occupy_trap (c : Core) (n : Nat) (u : FUnit) : (c.occupy n u).trap = c.trap := rfl
@[simp] theorem Core.occupy_wait (c : Core) (n : Nat) (u : FUnit) : (c.occupy n u).wait = c.wait := rfl
@[simp] theorem Core.occupy_pend (c : Core) (n : Nat) (u : FUnit) : (c.occupy n u).pend = c.pend := rfl
@[simp] theorem Core.occupy_nextBt (c : Core) (n : Nat) (u : FUnit) : (c.occupy n u).nextBt = c.nextBt := rfl
@[simp] theorem Core.occupy_order (c : Core) (n : Nat) (u : FUnit) : (c.occupy n u).order = c.order := rfl
@[simp] theorem Core.occupy_vq (c : Core) (n : Nat) (u : FUnit) : (c.occupy n u).vq = c.vq := rfl
@[simp] theorem Core.occupy_pending (c : Core) (n : Nat) (u : FUnit) : (c.occupy n u).pending = c.pending := rfl
@[simp] theorem Core.occupy_accs (c : Core) (n : Nat) (u : FUnit) : (c.occupy n u).accs = c.accs := rfl
@[simp] theorem Core.occupy_extents (c : Core) (n : Nat) (u : FUnit) : (c.occupy n u).extents = c.extents := rfl
@[simp] theorem Core.occupy_v (c : Core) (n : Nat) (u : FUnit) : (c.occupy n u).v = c.v := rfl
@[simp] theorem Core.occupy_p (c : Core) (n : Nat) (u : FUnit) : (c.occupy n u).p = c.p := rfl
@[simp] theorem Core.occupy_tiles (c : Core) (n : Nat) (u : FUnit) : (c.occupy n u).tiles = c.tiles := rfl
@[simp] theorem Core.occupy_slots (c : Core) (n : Nat) (u : FUnit) : (c.occupy n u).slots = c.slots := rfl

/-- addPending changes nothing but pending. -/
theorem Core.addPending_only (c : Core) (f : FaultRec) : c.addPending f = { c with pending := (c.addPending f).pending } :=
  rfl
@[simp] theorem Core.addPending_num (c : Core) (f : FaultRec) : (c.addPending f).num = c.num := rfl
@[simp] theorem Core.addPending_run (c : Core) (f : FaultRec) : (c.addPending f).run = c.run := rfl
@[simp] theorem Core.addPending_view (c : Core) (f : FaultRec) : (c.addPending f).view = c.view := rfl
@[simp] theorem Core.addPending_pc (c : Core) (f : FaultRec) : (c.addPending f).pc = c.pc := rfl
@[simp] theorem Core.addPending_s (c : Core) (f : FaultRec) : (c.addPending f).s = c.s := rfl
@[simp] theorem Core.addPending_ports (c : Core) (f : FaultRec) : (c.addPending f).ports = c.ports := rfl
@[simp] theorem Core.addPending_lastPop (c : Core) (f : FaultRec) : (c.addPending f).lastPop = c.lastPop := rfl
@[simp] theorem Core.addPending_clearTok (c : Core) (f : FaultRec) : (c.addPending f).clearTok = c.clearTok := rfl
@[simp] theorem Core.addPending_handles (c : Core) (f : FaultRec) : (c.addPending f).handles = c.handles := rfl
@[simp] theorem Core.addPending_fouled (c : Core) (f : FaultRec) : (c.addPending f).fouled = c.fouled := rfl
@[simp] theorem Core.addPending_ut (c : Core) (f : FaultRec) : (c.addPending f).ut = c.ut := rfl
@[simp] theorem Core.addPending_st (c : Core) (f : FaultRec) : (c.addPending f).st = c.st := rfl
@[simp] theorem Core.addPending_ebits (c : Core) (f : FaultRec) : (c.addPending f).ebits = c.ebits := rfl
@[simp] theorem Core.addPending_xebits (c : Core) (f : FaultRec) : (c.addPending f).xebits = c.xebits := rfl
@[simp] theorem Core.addPending_ej (c : Core) (f : FaultRec) : (c.addPending f).ej = c.ej := rfl
@[simp] theorem Core.addPending_equota (c : Core) (f : FaultRec) : (c.addPending f).equota = c.equota := rfl
@[simp] theorem Core.addPending_qp (c : Core) (f : FaultRec) : (c.addPending f).qp = c.qp := rfl
@[simp] theorem Core.addPending_trap (c : Core) (f : FaultRec) : (c.addPending f).trap = c.trap := rfl
@[simp] theorem Core.addPending_wait (c : Core) (f : FaultRec) : (c.addPending f).wait = c.wait := rfl
@[simp] theorem Core.addPending_pend (c : Core) (f : FaultRec) : (c.addPending f).pend = c.pend := rfl
@[simp] theorem Core.addPending_nextBt (c : Core) (f : FaultRec) : (c.addPending f).nextBt = c.nextBt := rfl
@[simp] theorem Core.addPending_order (c : Core) (f : FaultRec) : (c.addPending f).order = c.order := rfl
@[simp] theorem Core.addPending_busy (c : Core) (f : FaultRec) : (c.addPending f).busy = c.busy := rfl
@[simp] theorem Core.addPending_vq (c : Core) (f : FaultRec) : (c.addPending f).vq = c.vq := rfl
@[simp] theorem Core.addPending_accs (c : Core) (f : FaultRec) : (c.addPending f).accs = c.accs := rfl
@[simp] theorem Core.addPending_extents (c : Core) (f : FaultRec) : (c.addPending f).extents = c.extents := rfl
@[simp] theorem Core.addPending_v (c : Core) (f : FaultRec) : (c.addPending f).v = c.v := rfl
@[simp] theorem Core.addPending_p (c : Core) (f : FaultRec) : (c.addPending f).p = c.p := rfl
@[simp] theorem Core.addPending_tiles (c : Core) (f : FaultRec) : (c.addPending f).tiles = c.tiles := rfl
@[simp] theorem Core.addPending_slots (c : Core) (f : FaultRec) : (c.addPending f).slots = c.slots := rfl

/-- onCore changes nothing but core. -/
theorem onCore_only (s : State) (f : Core → Core) : onCore s f = { s with core := (onCore s f).core } :=
  rfl
@[simp] theorem onCore_mem (s : State) (f : Core → Core) : (onCore s f).mem = s.mem := rfl
@[simp] theorem onCore_ecc (s : State) (f : Core → Core) : (onCore s f).ecc = s.ecc := rfl
@[simp] theorem onCore_others (s : State) (f : Core → Core) : (onCore s f).others = s.others := rfl
@[simp] theorem onCore_bed (s : State) (f : Core → Core) : (onCore s f).bed = s.bed := rfl
@[simp] theorem onCore_otherBeds (s : State) (f : Core → Core) : (onCore s f).otherBeds = s.otherBeds := rfl
@[simp] theorem onCore_dies (s : State) (f : Core → Core) : (onCore s f).dies = s.dies := rfl
@[simp] theorem onCore_lsc (s : State) (f : Core → Core) : (onCore s f).lsc = s.lsc := rfl
@[simp] theorem onCore_digests (s : State) (f : Core → Core) : (onCore s f).digests = s.digests := rfl
@[simp] theorem onCore_plat (s : State) (f : Core → Core) : (onCore s f).plat = s.plat := rfl
@[simp] theorem onCore_agenda (s : State) (f : Core → Core) : (onCore s f).agenda = s.agenda := rfl
@[simp] theorem onCore_auto (s : State) (f : Core → Core) : (onCore s f).auto = s.auto := rfl
@[simp] theorem onCore_fresh (s : State) (f : Core → Core) : (onCore s f).fresh = s.fresh := rfl
@[simp] theorem onCore_log (s : State) (f : Core → Core) : (onCore s f).log = s.log := rfl

/-- drawFree changes nothing but fresh. -/
theorem drawFree_only (s : State) : (drawFree s).1 = { s with fresh := ((drawFree s).1).fresh } :=
  rfl
@[simp] theorem drawFree_mem (s : State) : ((drawFree s).1).mem = s.mem := rfl
@[simp] theorem drawFree_ecc (s : State) : ((drawFree s).1).ecc = s.ecc := rfl
@[simp] theorem drawFree_core (s : State) : ((drawFree s).1).core = s.core := rfl
@[simp] theorem drawFree_others (s : State) : ((drawFree s).1).others = s.others := rfl
@[simp] theorem drawFree_bed (s : State) : ((drawFree s).1).bed = s.bed := rfl
@[simp] theorem drawFree_otherBeds (s : State) : ((drawFree s).1).otherBeds = s.otherBeds := rfl
@[simp] theorem drawFree_dies (s : State) : ((drawFree s).1).dies = s.dies := rfl
@[simp] theorem drawFree_lsc (s : State) : ((drawFree s).1).lsc = s.lsc := rfl
@[simp] theorem drawFree_digests (s : State) : ((drawFree s).1).digests = s.digests := rfl
@[simp] theorem drawFree_plat (s : State) : ((drawFree s).1).plat = s.plat := rfl
@[simp] theorem drawFree_agenda (s : State) : ((drawFree s).1).agenda = s.agenda := rfl
@[simp] theorem drawFree_auto (s : State) : ((drawFree s).1).auto = s.auto := rfl
@[simp] theorem drawFree_log (s : State) : ((drawFree s).1).log = s.log := rfl

/-- setCore changes nothing but core, others. -/
theorem setCore_only (s : State) (c : Core) : setCore s c = { s with core := (setCore s c).core, others := (setCore s c).others } :=
  by unfold setCore; split <;> rfl
@[simp] theorem setCore_mem (s : State) (c : Core) : (setCore s c).mem = s.mem := by unfold setCore; split <;> rfl
@[simp] theorem setCore_ecc (s : State) (c : Core) : (setCore s c).ecc = s.ecc := by unfold setCore; split <;> rfl
@[simp] theorem setCore_bed (s : State) (c : Core) : (setCore s c).bed = s.bed := by unfold setCore; split <;> rfl
@[simp] theorem setCore_otherBeds (s : State) (c : Core) : (setCore s c).otherBeds = s.otherBeds := by unfold setCore; split <;> rfl
@[simp] theorem setCore_dies (s : State) (c : Core) : (setCore s c).dies = s.dies := by unfold setCore; split <;> rfl
@[simp] theorem setCore_lsc (s : State) (c : Core) : (setCore s c).lsc = s.lsc := by unfold setCore; split <;> rfl
@[simp] theorem setCore_digests (s : State) (c : Core) : (setCore s c).digests = s.digests := by unfold setCore; split <;> rfl
@[simp] theorem setCore_plat (s : State) (c : Core) : (setCore s c).plat = s.plat := by unfold setCore; split <;> rfl
@[simp] theorem setCore_agenda (s : State) (c : Core) : (setCore s c).agenda = s.agenda := by unfold setCore; split <;> rfl
@[simp] theorem setCore_auto (s : State) (c : Core) : (setCore s c).auto = s.auto := by unfold setCore; split <;> rfl
@[simp] theorem setCore_fresh (s : State) (c : Core) : (setCore s c).fresh = s.fresh := by unfold setCore; split <;> rfl
@[simp] theorem setCore_log (s : State) (c : Core) : (setCore s c).log = s.log := by unfold setCore; split <;> rfl

/-- setBed changes nothing but bed, otherBeds. -/
theorem setBed_only (s : State) (b : Bed) : setBed s b = { s with bed := (setBed s b).bed, otherBeds := (setBed s b).otherBeds } :=
  by unfold setBed; split <;> rfl
@[simp] theorem setBed_mem (s : State) (b : Bed) : (setBed s b).mem = s.mem := by unfold setBed; split <;> rfl
@[simp] theorem setBed_ecc (s : State) (b : Bed) : (setBed s b).ecc = s.ecc := by unfold setBed; split <;> rfl
@[simp] theorem setBed_core (s : State) (b : Bed) : (setBed s b).core = s.core := by unfold setBed; split <;> rfl
@[simp] theorem setBed_others (s : State) (b : Bed) : (setBed s b).others = s.others := by unfold setBed; split <;> rfl
@[simp] theorem setBed_dies (s : State) (b : Bed) : (setBed s b).dies = s.dies := by unfold setBed; split <;> rfl
@[simp] theorem setBed_lsc (s : State) (b : Bed) : (setBed s b).lsc = s.lsc := by unfold setBed; split <;> rfl
@[simp] theorem setBed_digests (s : State) (b : Bed) : (setBed s b).digests = s.digests := by unfold setBed; split <;> rfl
@[simp] theorem setBed_plat (s : State) (b : Bed) : (setBed s b).plat = s.plat := by unfold setBed; split <;> rfl
@[simp] theorem setBed_agenda (s : State) (b : Bed) : (setBed s b).agenda = s.agenda := by unfold setBed; split <;> rfl
@[simp] theorem setBed_auto (s : State) (b : Bed) : (setBed s b).auto = s.auto := by unfold setBed; split <;> rfl
@[simp] theorem setBed_fresh (s : State) (b : Bed) : (setBed s b).fresh = s.fresh := by unfold setBed; split <;> rfl
@[simp] theorem setBed_log (s : State) (b : Bed) : (setBed s b).log = s.log := by unfold setBed; split <;> rfl

/-- focusBed changes nothing but bed, otherBeds. -/
theorem focusBed_only (s : State) (n : Nat) : focusBed s n = { s with bed := (focusBed s n).bed, otherBeds := (focusBed s n).otherBeds } :=
  by unfold focusBed; split <;> rfl
@[simp] theorem focusBed_mem (s : State) (n : Nat) : (focusBed s n).mem = s.mem := by unfold focusBed; split <;> rfl
@[simp] theorem focusBed_ecc (s : State) (n : Nat) : (focusBed s n).ecc = s.ecc := by unfold focusBed; split <;> rfl
@[simp] theorem focusBed_core (s : State) (n : Nat) : (focusBed s n).core = s.core := by unfold focusBed; split <;> rfl
@[simp] theorem focusBed_others (s : State) (n : Nat) : (focusBed s n).others = s.others := by unfold focusBed; split <;> rfl
@[simp] theorem focusBed_dies (s : State) (n : Nat) : (focusBed s n).dies = s.dies := by unfold focusBed; split <;> rfl
@[simp] theorem focusBed_lsc (s : State) (n : Nat) : (focusBed s n).lsc = s.lsc := by unfold focusBed; split <;> rfl
@[simp] theorem focusBed_digests (s : State) (n : Nat) : (focusBed s n).digests = s.digests := by unfold focusBed; split <;> rfl
@[simp] theorem focusBed_plat (s : State) (n : Nat) : (focusBed s n).plat = s.plat := by unfold focusBed; split <;> rfl
@[simp] theorem focusBed_agenda (s : State) (n : Nat) : (focusBed s n).agenda = s.agenda := by unfold focusBed; split <;> rfl
@[simp] theorem focusBed_auto (s : State) (n : Nat) : (focusBed s n).auto = s.auto := by unfold focusBed; split <;> rfl
@[simp] theorem focusBed_fresh (s : State) (n : Nat) : (focusBed s n).fresh = s.fresh := by unfold focusBed; split <;> rfl
@[simp] theorem focusBed_log (s : State) (n : Nat) : (focusBed s n).log = s.log := by unfold focusBed; split <;> rfl

/-- focus changes nothing but core, others, bed, otherBeds. -/
theorem focus_only (s : State) (n : Nat) : focus s n = { s with core := (focus s n).core, others := (focus s n).others, bed := (focus s n).bed, otherBeds := (focus s n).otherBeds } :=
  by unfold focus focusBed; split <;> split <;> rfl
@[simp] theorem focus_mem (s : State) (n : Nat) : (focus s n).mem = s.mem := by unfold focus focusBed; split <;> split <;> rfl
@[simp] theorem focus_ecc (s : State) (n : Nat) : (focus s n).ecc = s.ecc := by unfold focus focusBed; split <;> split <;> rfl
@[simp] theorem focus_dies (s : State) (n : Nat) : (focus s n).dies = s.dies := by unfold focus focusBed; split <;> split <;> rfl
@[simp] theorem focus_lsc (s : State) (n : Nat) : (focus s n).lsc = s.lsc := by unfold focus focusBed; split <;> split <;> rfl
@[simp] theorem focus_digests (s : State) (n : Nat) : (focus s n).digests = s.digests := by unfold focus focusBed; split <;> split <;> rfl
@[simp] theorem focus_plat (s : State) (n : Nat) : (focus s n).plat = s.plat := by unfold focus focusBed; split <;> split <;> rfl
@[simp] theorem focus_agenda (s : State) (n : Nat) : (focus s n).agenda = s.agenda := by unfold focus focusBed; split <;> split <;> rfl
@[simp] theorem focus_auto (s : State) (n : Nat) : (focus s n).auto = s.auto := by unfold focus focusBed; split <;> split <;> rfl
@[simp] theorem focus_fresh (s : State) (n : Nat) : (focus s n).fresh = s.fresh := by unfold focus focusBed; split <;> split <;> rfl
@[simp] theorem focus_log (s : State) (n : Nat) : (focus s n).log = s.log := by unfold focus focusBed; split <;> split <;> rfl

/-! ### The changed fields -/

@[simp] theorem onCore_core (s : State) (f : Core → Core) : (onCore s f).core = f s.core := rfl
@[simp] theorem drawFree_fresh (s : State) : (drawFree s).1.fresh = s.fresh + 1 := rfl
@[simp] theorem Core.erase_ebits (c : Core) (n : Nat) (b : Bool) : (c.erase n b).ebits = c.ebits + n := rfl
@[simp] theorem Core.eraseX_xebits (c : Core) (n : Nat) : (c.eraseX n).xebits = c.xebits + n := rfl

end Sys2Proof.Machine
end

