-- ==== Sys2Proof/Laws/Ops.lean ====
section
/-! SUPPORT. What the shared operations over cores, beds, registers, ports, tokens, charges, traps and sync words can do. -/

namespace Sys2Proof.Machine

/-! ### Cores and beds -/

/-- The thing put into a list is found by its number, and every other one as before. -/
theorem find_putBy {α : Type} (num : α → Nat) (x : α) (l : List α) (n : Nat) :
    (putBy num x l).find? (fun y => num y = n) = if num x = n then some x else l.find? (fun y => num y = n) := by
  rw [putBy, List.find?_append, List.find?_cons, List.find?_filter, List.find?_filter]
  have never : l.find? (fun _ => false) = none := List.find?_eq_none.2 (by simp)
  rcases Nat.lt_trichotomy n (num x) with h | rfl | h
  · have low : (fun y => decide (num y < num x) && decide (num y = n)) = fun y => decide (num y = n) := by grind
    have high : (fun y => decide (num x < num y) && decide (num y = n)) = fun _ => false := by grind
    simp [never, low, high, Nat.ne_of_gt h]
  · have low : (fun y => decide (num y < num x) && decide (num y = num x)) = fun _ => false := by grind
    simp [never, low]
  · have low : (fun y => decide (num y < num x) && decide (num y = n)) = fun _ => false := by grind
    have high : (fun y => decide (num x < num y) && decide (num y = n)) = fun y => decide (num y = n) := by grind
    simp [never, low, high, Nat.ne_of_lt h]

@[simp] theorem getCore_num (s : State) (n : Nat) : (getCore s n).num = n := by
  unfold getCore
  split
  · assumption
  · cases h : s.others.find? (fun c => c.num = n) with
    | none => rfl
    | some c => simpa using List.find?_some h

@[simp] theorem getBed_num (s : State) (n : Nat) : (getBed s n).num = n := by
  unfold getBed
  split
  · assumption
  · cases h : s.otherBeds.find? (fun c => c.num = n) with
    | none => rfl
    | some c => simpa using List.find?_some h

/-- A core read after one was replaced. -/
@[simp] theorem getCore_setCore (s : State) (c : Core) (n : Nat) :
    getCore (setCore s c) n = if c.num = n then c else getCore s n := by
  unfold getCore setCore
  split_ifs with h1 h2 h3 h4 h5 <;> simp_all [putCore, find_putBy]

@[simp] theorem getBed_setBed (s : State) (b : Bed) (n : Nat) :
    getBed (setBed s b) n = if b.num = n then b else getBed s n := by
  unfold getBed setBed
  split_ifs with h1 h2 h3 h4 h5 <;> simp_all [putBed, find_putBy]

@[simp] theorem getCore_setBed (s : State) (b : Bed) (n : Nat) : getCore (setBed s b) n = getCore s n := by
  unfold getCore; simp

@[simp] theorem getBed_setCore (s : State) (c : Core) (n : Nat) : getBed (setCore s c) n = getBed s n := by
  unfold getBed; simp

/-- Dropping one number hides no other. -/
theorem find_filter_ne {α : Type} (num : α → Nat) (l : List α) (k n : Nat) (h : k ≠ n) :
    (l.filter (fun d => num d ≠ k)).find? (fun d => num d = n) = l.find? (fun d => num d = n) := by
  rw [List.find?_filter]
  congr 1
  grind

@[simp] theorem getBed_focusBed (s : State) (k n : Nat) : getBed (focusBed s k) n = getBed s n := by
  unfold focusBed
  split
  · rfl
  · next hk =>
    rw [getBed]
    dsimp only
    by_cases hn : k = n
    · subst hn; simp
    · rw [if_neg (by simpa using hn), putBed, find_putBy, find_filter_ne Bed.num _ k n hn]
      conv_rhs => rw [getBed]
      split_ifs <;> rfl

@[simp] theorem getCore_focusBed (s : State) (k n : Nat) : getCore (focusBed s k) n = getCore s n := by
  unfold getCore; simp

/-- Moving the focus changes no core. -/
@[simp] theorem getCore_focus (s : State) (k n : Nat) : getCore (focus s k) n = getCore s n := by
  unfold focus
  split
  · simp
  · next hk =>
    rw [getCore_focusBed, getCore]
    dsimp only
    by_cases hn : k = n
    · subst hn; simp
    · rw [if_neg (by simpa using hn), putCore, find_putBy, find_filter_ne Core.num _ k n hn]
      conv_rhs => rw [getCore]
      split_ifs <;> rfl

/-- Moving the focus changes no bed. -/
@[simp] theorem getBed_focus (s : State) (k n : Nat) : getBed (focus s k) n = getBed s n := by
  unfold focus
  split
  · simp
  · rw [getBed_focusBed]; rfl

theorem focus_core (s : State) (n : Nat) : (focus s n).core = getCore s n := by
  unfold focus getCore
  split_ifs with h <;> unfold focusBed <;> split <;> simp

/-! ### Registers, ports, tokens and handles -/

@[simp] theorem Core.reg_setReg (c : Core) (n m : Nat) (v : Word) :
    (c.setReg n v).reg m = if m = n ∧ 1 ≤ n ∧ n ≤ 55 then v else c.reg m := by
  by_cases h : 1 ≤ n ∧ n ≤ 55
  · unfold Core.setReg Core.reg
    rw [if_pos h]
    dsimp only
    rw [tget_tset]
    by_cases hm : m = n
    · subst hm; simp [h]
    · simp [hm]
  · unfold Core.setReg
    rw [if_neg h, if_neg (by tauto)]

/-- s0 reads zero whatever was written (R152). -/
@[simp] theorem Core.reg_zero (c : Core) : c.reg 0 = 0 := rfl

@[simp] theorem Core.port_setPort (c : Core) (q p : Nat) (l : List QWord) :
    (c.setPort q l).port p = if p = q then l else c.port p := by
  simp [Core.setPort, Core.port]

@[simp] theorem Core.handle_setHandle (c : Core) (h k : Nat) (x : HState) :
    (c.setHandle h x).handle k = if k = h then x else c.handle k := by
  simp [Core.setHandle, Core.handle]

@[simp] theorem Core.tokSet_setToken (c : Core) (k j : Nat) : (c.setToken k).tokSet j = (decide (j = k) || c.tokSet j) := by
  unfold Core.setToken Core.tokSet
  by_cases h : j = k <;> simp [h]

@[simp] theorem Core.tokSet_clearToken (c : Core) (k j : Nat) :
    (c.clearToken k).tokSet j = (c.tokSet j && decide (k = 63 ∨ j ≠ k)) := by
  unfold Core.clearToken
  by_cases h : k = 63
  · simp [h]
  by_cases h2 : k ∈ c.clearTok
  · by_cases h3 : j = k <;> simp [h, h2, h3, Core.tokSet]
  · by_cases h3 : j = k <;> simp [h, h2, h3, Core.tokSet]

/-! ### The current view's partition -/

@[simp] theorem Core.trug_setTrug (c : Core) (t : Trug) : (c.setTrug t).trug = t := by
  cases h : c.view <;> simp [Core.setTrug, Core.trug, h]

/-! ### Faults, traps and their end (R171-R180) -/

/-- In the unit view a fault asks for its trap and ends a wait (R172). -/
theorem Core.raise_unit {c : Core} (h : c.view = .unit) (f : FaultRec) (xpc : Word) (t : Nat) :
    c.raise f xpc t = { c with
      wait := none
      trap := some { fr := f, xpc := xpc, at_ := t, stop := false, terminal := terminalCode f.code } } := by
  simp [Core.raise, h]

/-- In the system view a fault is a double fault (R180). -/
theorem Core.raise_system {c : Core} (h : c.view = .system) (f : FaultRec) (xpc : Word) (t : Nat) :
    c.raise f xpc t = c.kill (killStatus (c.xcause.toNat % 256)) (c.xcause.toNat % 256) f.code
      ((tget 0 c.xrec 7).toNat % 2 ^ 32) := by
  simp [Core.raise, Core.doubleFault, h]

/-- A unit that has not come to DONE has not ended (R399). -/
theorem Core.isOver_of_run {c : Core} (h : c.run ≠ .ended) : c.isOver = false := by simp [Core.isOver, h]

/-- What a kill does to a core whose unit has not ended (R179). -/
theorem Core.kill_only {c : Core} (h : c.isOver = false) (status code code2 detail : Nat) :
    c.kill status code code2 detail = { c with
      run := .ended, wait := none, trap := none, deferred := none, dying := true, handled := c.lostTok
      ut := { c.ut with bits := 0, top := c.ut.base }, st := { c.st with bits := 0, top := c.st.base }
      ebits := c.ebits + c.ut.depth, xebits := c.xebits + c.st.depth, ej := c.ej + c.ut.depth * 2600
      qp := (c.kill status code code2 detail).qp
      endStatus := status, endCode := code, endCode2 := code2, endDetail := detail } := by
  unfold Core.kill
  rw [if_neg (by rw [h]; decide)]
  rfl

/-- A trap with a handler to go to (R172, R175, R156). -/
theorem Core.takeTrap_handler {c : Core} {r : TrapReq} (t : Nat) (hs : r.stop = false) (hx : c.xvec ≠ 0) :
    c.takeTrap r t = { c with
      trap := none, thr := c.thr && r.fr.code ≠ 0x23, xpc := r.xpc, xcause := causeWord r.fr (r.fr.kind = 2 && !c.pending.isEmpty)
      xrec := recWords (c.latest r.fr), view := .system, pc := c.xvec
      nextBt := t + 1, terminal := r.terminal, handled := r.fr.tok } := by
  unfold Core.takeTrap
  dsimp only
  rw [if_neg (by simp [hs]), if_neg hx]

/-- A pre-emption stop (R238). -/
theorem Core.takeTrap_stop {c : Core} {r : TrapReq} (t : Nat) (hs : r.stop = true) :
    c.takeTrap r t = { c with
      trap := none, thr := c.thr && r.fr.code ≠ 0x23, xpc := r.xpc, xcause := causeWord r.fr (r.fr.kind = 2 && !c.pending.isEmpty)
      xrec := recWords (c.latest r.fr), run := .stopped, pre := false } := by
  simp [Core.takeTrap, hs]

/-- SRET that resumes the unit (R177). -/
theorem Core.sret_resume {c : Core} (t k : Nat) (h : c.terminal = false) :
    c.sret t k = { c with
      st := { c.st with bits := 0, top := c.st.base }, xebits := c.xebits + c.st.depth
      clearTok := c.clearTok.filter (· ≠ c.handled), handled := 63, view := .unit, pc := c.xpc, nextBt := t + k + 1 } := by
  simp [Core.sret, h, Core.eraseX, Core.setToken]

theorem mem_addPending_go (f g : FaultRec) (l : List FaultRec) :
    g ∈ Core.addPending.go f l ↔ g = f ∨ g ∈ l := by
  induction l with
  | nil => simp [Core.addPending.go]
  | cons a r ih =>
    unfold Core.addPending.go
    split
    · simp only [List.mem_cons, ih]; tauto
    · simp

/-- A fault joins those that wait, and none is lost (R176). -/
theorem Core.mem_addPending (c : Core) (f g : FaultRec) : g ∈ (c.addPending f).pending ↔ g = f ∨ g ∈ c.pending :=
  mem_addPending_go f g c.pending

/-! ### Moving on -/

/-- Passing the turn on changes which core and bed are in focus and the events still to take place, and nothing else. -/
theorem passOn_only (s : State) : passOn s = { s with
    core := (passOn s).core, others := (passOn s).others, bed := (passOn s).bed, otherBeds := (passOn s).otherBeds
    agenda := (passOn s).agenda } := by
  unfold passOn
  split
  · rfl
  · split
    · rw [focus_only]
    · rfl

@[simp] theorem passOn_mem (s : State) : (passOn s).mem = s.mem := by rw [passOn_only]

end Sys2Proof.Machine
end

