-- ==== Sys2Proof/Laws/PerInstr.lean ====
section
/-! SUPPORT. Of every instruction as syntax: the word of a well-formed instruction fits 64 bits and passes the first three checks
of R84, that is its opcode is assigned, its ramp class is one of R19 and its KB is allowed on its opcode. -/

namespace Sys2Proof.Laws.Enc
open Sys2Proof

set_option Elab.async false

theorem left {a b : Bool} (h : (a && b) = true) : a = true := by cases a <;> simp_all

/-- The word passes the checks of R84 on OP, RAMP and KB. -/
def Passes (w : Nat) : Prop := w < 2 ^ 64 ∧ opAssigned (opOf w) = true ∧ rampOk (rampOf w) = true ∧ kbOk w = true

/-- The family: the word of a well-formed instruction passes those checks; `illegalInstruction` stands for a word whose
opcode is not assigned, and an event has no word. -/
def Statement (i : Instr) : Prop :=
  i.wf = true → ∀ w, encode i = some w → (∃ v : Word, i = .illegalInstruction v ∧ w = v.toNat) ∨ Passes w

theorem passes_of {w : Nat} (op kb r : Nat) (hw : w < 2 ^ 64) (ho : opOf w = op) (hr : rampOf w = r) (hk : kbOf w = kb)
    (ha : opAssigned op = true) (hr5 : r ≤ 5) (hkb : kb = 0 ∨ (kb ≠ 3 ∧ 0x10 ≤ op ∧ op ≤ 0x2C)) : Passes w := by
  refine ⟨hw, by rw [ho]; exact ha, by rw [hr]; simpa [rampOk] using hr5, ?_⟩
  unfold kbOk
  rw [hk, ho]
  rcases hkb with h | ⟨h1, h2, h3⟩
  · simp [h]
  · simp [h1, h2, h3]

theorem passes_body (op r kb b : Nat) {w : Nat} (hop : op < 256) (hr : r ≤ 5) (hk : kb < 4) (hw : w = head op r kb + b)
    (hb : b < 2 ^ 51) (ha : opAssigned op = true) (hkb : kb = 0 ∨ (kb ≠ 3 ∧ 0x10 ≤ op ∧ op ≤ 0x2C)) : Passes w := by
  have hh : head op r kb = op * 2 ^ 56 + r * 2 ^ 53 + kb * 2 ^ 51 := rfl
  subst hw
  refine passes_of op kb r (by omega) ?_ ?_ ?_ ha hr hkb <;> simp only [opOf, rampOf, kbOf, bitsOf] <;> omega

theorem SregW_passes {f : SregW} (h : f.fits = true) (op kb : Nat) (hop : op < 256) (hk : kb < 4) (ha : opAssigned op = true) (hkb : kb = 0 ∨ (kb ≠ 3 ∧ 0x10 ≤ op ∧ op ≤ 0x2C)) :
    Passes (f.enc op kb) := by
  simp only [SregW.fits, rampOk, sOk, Bool.and_eq_true, decide_eq_true_eq] at h
  have e : f.enc op kb = head op f.ramp kb + (f.enc op kb - head op f.ramp kb) ∧ f.enc op kb - head op f.ramp kb < 2 ^ 51 := by
    unfold SregW.enc head; omega
  exact passes_body op f.ramp kb _ hop (by omega) hk e.1 e.2 ha hkb

theorem SimmW_passes {f : SimmW} (h : f.fits = true) (op kb : Nat) (hop : op < 256) (hk : kb < 4) (ha : opAssigned op = true) (hkb : kb = 0 ∨ (kb ≠ 3 ∧ 0x10 ≤ op ∧ op ≤ 0x2C)) :
    Passes (f.enc op kb) := by
  simp only [SimmW.fits, rampOk, sOk, Bool.and_eq_true, decide_eq_true_eq] at h
  have e : f.enc op kb = head op f.ramp kb + (f.enc op kb - head op f.ramp kb) ∧ f.enc op kb - head op f.ramp kb < 2 ^ 51 := by
    unfold SimmW.enc head; omega
  exact passes_body op f.ramp kb _ hop (by omega) hk e.1 e.2 ha hkb

theorem SwideW_passes {f : SwideW} (h : f.fits = true) (op kb : Nat) (hop : op < 256) (hk : kb < 4) (ha : opAssigned op = true) (hkb : kb = 0 ∨ (kb ≠ 3 ∧ 0x10 ≤ op ∧ op ≤ 0x2C)) :
    Passes (f.enc op kb) := by
  simp only [SwideW.fits, rampOk, sOk, Bool.and_eq_true, decide_eq_true_eq] at h
  have e : f.enc op kb = head op f.ramp kb + (f.enc op kb - head op f.ramp kb) ∧ f.enc op kb - head op f.ramp kb < 2 ^ 51 := by
    unfold SwideW.enc head; omega
  exact passes_body op f.ramp kb _ hop (by omega) hk e.1 e.2 ha hkb

theorem SmemW_passes {f : SmemW} (h : f.fits = true) (op : Nat) (hop : op < 256) (ha : opAssigned op = true) :
    Passes (f.enc op) := by
  simp only [SmemW.fits, rampOk, sOk, scOk, Bool.and_eq_true, decide_eq_true_eq] at h
  have e : f.enc op = head op f.ramp 0 + (f.enc op - head op f.ramp 0) ∧ f.enc op - head op f.ramp 0 < 2 ^ 51 := by
    unfold SmemW.enc head; omega
  exact passes_body op f.ramp 0 _ hop (by omega) (by decide) e.1 e.2 ha (.inl rfl)

theorem SatmW_passes {f : SatmW} (h : f.fits = true) (op aop : Nat) (hop : op < 256) (hp : aop < 16) (ha : opAssigned op = true) :
    Passes (f.enc op aop) := by
  simp only [SatmW.fits, rampOk, sOk, scOk, Bool.and_eq_true, decide_eq_true_eq] at h
  have e : f.enc op aop = head op f.ramp 0 + (f.enc op aop - head op f.ramp 0) ∧ f.enc op aop - head op f.ramp 0 < 2 ^ 51 := by
    unfold SatmW.enc head; omega
  exact passes_body op f.ramp 0 _ hop (by omega) (by decide) e.1 e.2 ha (.inl rfl)

theorem SbrW_passes {f : SbrW} (h : f.fits = true) (op : Nat) (hop : op < 256) (ha : opAssigned op = true) :
    Passes (f.enc op) := by
  simp only [SbrW.fits, rampOk, sOk, Bool.and_eq_true, decide_eq_true_eq] at h
  have e : f.enc op = head op f.ramp 0 + (f.enc op - head op f.ramp 0) ∧ f.enc op - head op f.ramp 0 < 2 ^ 51 := by
    unfold SbrW.enc head; omega
  exact passes_body op f.ramp 0 _ hop (by omega) (by decide) e.1 e.2 ha (.inl rfl)

theorem SsysW_passes {f : SsysW} (h : f.fits = true) (op : Nat) (hop : op < 256) (ha : opAssigned op = true) :
    Passes (f.enc op) := by
  simp only [SsysW.fits, rampOk, sOk, Bool.and_eq_true, decide_eq_true_eq] at h
  have e : f.enc op = head op f.ramp 0 + (f.enc op - head op f.ramp 0) ∧ f.enc op - head op f.ramp 0 < 2 ^ 51 := by
    unfold SsysW.enc head; omega
  exact passes_body op f.ramp 0 _ hop (by omega) (by decide) e.1 e.2 ha (.inl rfl)

theorem VregW_passes {f : VregW} (h : f.fits = true) (op : Nat) (hop : op < 256) (ha : opAssigned op = true) :
    Passes (f.enc op) := by
  simp only [VregW.fits, rampOk, sOk, Bool.and_eq_true, decide_eq_true_eq, bne_iff_ne] at h
  have e : f.enc op = head op f.ramp 0 + (f.enc op - head op f.ramp 0) ∧ f.enc op - head op f.ramp 0 < 2 ^ 51 := by
    unfold VregW.enc head; omega
  exact passes_body op f.ramp 0 _ hop (by omega) (by decide) e.1 e.2 ha (.inl rfl)

theorem VmemW_passes {f : VmemW} (h : f.fits = true) (op : Nat) (hop : op < 256) (ha : opAssigned op = true) :
    Passes (f.enc op) := by
  simp only [VmemW.fits, rampOk, sOk, scOk, Bool.and_eq_true, decide_eq_true_eq] at h
  have e : f.enc op = head op f.ramp 0 + (f.enc op - head op f.ramp 0) ∧ f.enc op - head op f.ramp 0 < 2 ^ 51 := by
    unfold VmemW.enc head; omega
  exact passes_body op f.ramp 0 _ hop (by omega) (by decide) e.1 e.2 ha (.inl rfl)

theorem EregW_passes {f : EregW} (h : f.fits = true) (op : Nat) (hop : op < 256) (ha : opAssigned op = true) :
    Passes (f.enc op) := by
  simp only [EregW.fits, rampOk, sOk, Bool.and_eq_true, decide_eq_true_eq] at h
  have e : f.enc op = head op f.ramp 0 + (f.enc op - head op f.ramp 0) ∧ f.enc op - head op f.ramp 0 < 2 ^ 51 := by
    unfold EregW.enc head; omega
  exact passes_body op f.ramp 0 _ hop (by omega) (by decide) e.1 e.2 ha (.inl rfl)

theorem EstampW_passes {f : EstampW} (h : f.fits = true) (op : Nat) (hop : op < 256) (ha : opAssigned op = true) :
    Passes (f.enc op) := by
  simp only [EstampW.fits, rampOk, Bool.and_eq_true, decide_eq_true_eq] at h
  have e : f.enc op = head op f.ramp 0 + (f.enc op - head op f.ramp 0) ∧ f.enc op - head op f.ramp 0 < 2 ^ 51 := by
    unfold EstampW.enc head; omega
  exact passes_body op f.ramp 0 _ hop (by omega) (by decide) e.1 e.2 ha (.inl rfl)

theorem EReg_fits {op : EReg} {f : SregW} (h : op.ok f = true) : f.fits = true := by
  unfold EReg.ok at h; exact (Bool.and_eq_true _ _ ▸ h).1

theorem EImm_fits {op : EImm} {f : SimmW} (h : op.ok f = true) : f.fits = true := by
  unfold EImm.ok at h; exact (Bool.and_eq_true _ _ ▸ h).1

theorem bare_fits {f : SsysW} (h : f.bare = true) : f.fits = true := by
  simp only [SsysW.bare, Bool.and_eq_true] at h; tauto

theorem EForm_passes {e : EForm} (h : e.keepOk = true) (kb : Nat) (hk : kb = 1 ∨ kb = 2) : Passes (e.enc kb) := by
  simp only [EForm.keepOk, Bool.and_eq_true] at h
  have h1 := h.1.1
  cases e with
  | reg op f =>
    refine SregW_passes (EReg_fits h1) _ _ ?_ (by omega) ?_ (.inr ⟨by omega, ?_⟩) <;> cases op <;> decide
  | imm op f =>
    refine SimmW_passes (EImm_fits h1) _ _ ?_ (by omega) ?_ (.inr ⟨by omega, ?_⟩) <;> cases op <;> decide
  | wide f =>
    exact SwideW_passes h1 _ _ (by decide) (by omega) (by decide) (.inr ⟨by omega, by decide⟩)

theorem nop (f : SsysW) : Statement (.nop f) := by
  intro h w hw; cases hw
  exact .inr (SsysW_passes (bare_fits h) _ (by decide) (by decide))

theorem add (f : SregW) : Statement (.add f) := by
  intro h w hw; cases hw
  exact .inr (SregW_passes (left (left h)) _ _ (by decide) (by decide) (by decide) (by decide))

theorem sub (f : SregW) : Statement (.sub f) := by
  intro h w hw; cases hw
  exact .inr (SregW_passes (left (left h)) _ _ (by decide) (by decide) (by decide) (by decide))

theorem xor (f : SregW) : Statement (.xor f) := by
  intro h w hw; cases hw
  exact .inr (SregW_passes (left (left h)) _ _ (by decide) (by decide) (by decide) (by decide))

theorem neg (f : SregW) : Statement (.neg f) := by
  intro h w hw; cases hw
  exact .inr (SregW_passes (left (left h)) _ _ (by decide) (by decide) (by decide) (by decide))

theorem rol (f : SregW) : Statement (.rol f) := by
  intro h w hw; cases hw
  exact .inr (SregW_passes (left (left h)) _ _ (by decide) (by decide) (by decide) (by decide))

theorem mulo (f : SregW) : Statement (.mulo f) := by
  intro h w hw; cases hw
  exact .inr (SregW_passes (left (left h)) _ _ (by decide) (by decide) (by decide) (by decide))

theorem swap (f : SregW) : Statement (.swap f) := by
  intro h w hw; cases hw
  exact .inr (SregW_passes (left h) _ _ (by decide) (by decide) (by decide) (by decide))

theorem cswap (f : SregW) : Statement (.cswap f) := by
  intro h w hw; cases hw
  exact .inr (SregW_passes (left (left (left (left h)))) _ _ (by decide) (by decide) (by decide) (by decide))

theorem bperm (f : SregW) : Statement (.bperm f) := by
  intro h w hw; cases hw
  exact .inr (SregW_passes (left (left (left (left (left (left (left (left h)))))))) _ _ (by decide) (by decide) (by decide) (by decide))

theorem bpermE (f : SregW) : Statement (.bpermE f) := by
  intro h w hw; cases hw
  exact .inr (SregW_passes (left (left (left (left (left (left (left (left (left h))))))))) _ _ (by decide) (by decide) (by decide) (by decide))

theorem addi (f : SimmW) : Statement (.addi f) := by
  intro h w hw; cases hw
  exact .inr (SimmW_passes (left h) _ _ (by decide) (by decide) (by decide) (by decide))

theorem xori (f : SimmW) : Statement (.xori f) := by
  intro h w hw; cases hw
  exact .inr (SimmW_passes (left h) _ _ (by decide) (by decide) (by decide) (by decide))

theorem roli (f : SimmW) : Statement (.roli f) := by
  intro h w hw; cases hw
  exact .inr (SimmW_passes (left (left h)) _ _ (by decide) (by decide) (by decide) (by decide))

theorem muloi (f : SimmW) : Statement (.muloi f) := by
  intro h w hw; cases hw
  exact .inr (SimmW_passes (left (left h)) _ _ (by decide) (by decide) (by decide) (by decide))

theorem xorw (f : SwideW) : Statement (.xorw f) := by
  intro h w hw; cases hw
  exact .inr (SwideW_passes h _ _ (by decide) (by decide) (by decide) (by decide))

theorem add3 (f : SregW) : Statement (.add3 f) := by
  intro h w hw; cases hw
  exact .inr (SregW_passes (EReg_fits (op := .add3) h) _ _ (by decide) (by decide) (by decide) (by decide))

theorem sub3 (f : SregW) : Statement (.sub3 f) := by
  intro h w hw; cases hw
  exact .inr (SregW_passes (EReg_fits (op := .sub3) h) _ _ (by decide) (by decide) (by decide) (by decide))

theorem xor3 (f : SregW) : Statement (.xor3 f) := by
  intro h w hw; cases hw
  exact .inr (SregW_passes (EReg_fits (op := .xor3) h) _ _ (by decide) (by decide) (by decide) (by decide))

theorem and (f : SregW) : Statement (.and f) := by
  intro h w hw; cases hw
  exact .inr (SregW_passes (EReg_fits (op := .and) h) _ _ (by decide) (by decide) (by decide) (by decide))

theorem or (f : SregW) : Statement (.or f) := by
  intro h w hw; cases hw
  exact .inr (SregW_passes (EReg_fits (op := .or) h) _ _ (by decide) (by decide) (by decide) (by decide))

theorem mul (f : SregW) : Statement (.mul f) := by
  intro h w hw; cases hw
  exact .inr (SregW_passes (EReg_fits (op := .mul) h) _ _ (by decide) (by decide) (by decide) (by decide))

theorem mulh (f : SregW) : Statement (.mulh f) := by
  intro h w hw; cases hw
  exact .inr (SregW_passes (EReg_fits (op := .mulh) h) _ _ (by decide) (by decide) (by decide) (by decide))

theorem min (f : SregW) : Statement (.min f) := by
  intro h w hw; cases hw
  exact .inr (SregW_passes (left h) _ _ (by decide) (by decide) (by decide) (by decide))

theorem max (f : SregW) : Statement (.max f) := by
  intro h w hw; cases hw
  exact .inr (SregW_passes (left h) _ _ (by decide) (by decide) (by decide) (by decide))

theorem minK (f : SregW) : Statement (.minK f) := by
  intro h w hw; cases hw
  exact .inr (SregW_passes (left (left (left (left h)))) _ _ (by decide) (by decide) (by decide) (by decide))

theorem maxK (f : SregW) : Statement (.maxK f) := by
  intro h w hw; cases hw
  exact .inr (SregW_passes (left (left (left (left h)))) _ _ (by decide) (by decide) (by decide) (by decide))

theorem minB (f : SregW) : Statement (.minB f) := by
  intro h w hw; cases hw
  exact .inr (SregW_passes (left (left (left (left h)))) _ _ (by decide) (by decide) (by decide) (by decide))

theorem maxB (f : SregW) : Statement (.maxB f) := by
  intro h w hw; cases hw
  exact .inr (SregW_passes (left (left (left (left h)))) _ _ (by decide) (by decide) (by decide) (by decide))

theorem keepForm (e : EForm) : Statement (.keepForm e) := by
  intro h w hw; cases hw
  exact .inr (EForm_passes h _ (by decide))

theorem backForm (e : EForm) : Statement (.backForm e) := by
  intro h w hw; cases hw
  exact .inr (EForm_passes h _ (by decide))

theorem shl (f : SregW) : Statement (.shl f) := by
  intro h w hw; cases hw
  exact .inr (SregW_passes (EReg_fits (op := .shl) h) _ _ (by decide) (by decide) (by decide) (by decide))

theorem shr (f : SregW) : Statement (.shr f) := by
  intro h w hw; cases hw
  exact .inr (SregW_passes (EReg_fits (op := .shr) h) _ _ (by decide) (by decide) (by decide) (by decide))

theorem sar (f : SregW) : Statement (.sar f) := by
  intro h w hw; cases hw
  exact .inr (SregW_passes (EReg_fits (op := .sar) h) _ _ (by decide) (by decide) (by decide) (by decide))

theorem mov (f : SregW) : Statement (.mov f) := by
  intro h w hw; cases hw
  exact .inr (SregW_passes (EReg_fits (op := .mov) h) _ _ (by decide) (by decide) (by decide) (by decide))

theorem clr (f : SregW) : Statement (.clr f) := by
  intro h w hw; cases hw
  exact .inr (SregW_passes (EReg_fits (op := .clr) h) _ _ (by decide) (by decide) (by decide) (by decide))

theorem ext (f : SregW) : Statement (.ext f) := by
  intro h w hw; cases hw
  exact .inr (SregW_passes (EReg_fits (op := .ext) h) _ _ (by decide) (by decide) (by decide) (by decide))

theorem norm (f : SregW) : Statement (.norm f) := by
  intro h w hw; cases hw
  exact .inr (SregW_passes (EReg_fits (op := .norm) h) _ _ (by decide) (by decide) (by decide) (by decide))

theorem popc (f : SregW) : Statement (.popc f) := by
  intro h w hw; cases hw
  exact .inr (SregW_passes (EReg_fits (op := .popc) h) _ _ (by decide) (by decide) (by decide) (by decide))

theorem cmpeq (f : SregW) : Statement (.cmpeq f) := by
  intro h w hw; cases hw
  exact .inr (SregW_passes (EReg_fits (op := .cmpeq) h) _ _ (by decide) (by decide) (by decide) (by decide))

theorem cmplt (f : SregW) : Statement (.cmplt f) := by
  intro h w hw; cases hw
  exact .inr (SregW_passes (EReg_fits (op := .cmplt) h) _ _ (by decide) (by decide) (by decide) (by decide))

theorem cmplo (f : SregW) : Statement (.cmplo f) := by
  intro h w hw; cases hw
  exact .inr (SregW_passes (EReg_fits (op := .cmplo) h) _ _ (by decide) (by decide) (by decide) (by decide))

theorem andi (f : SimmW) : Statement (.andi f) := by
  intro h w hw; cases hw
  exact .inr (SimmW_passes (EImm_fits (op := .andi) h) _ _ (by decide) (by decide) (by decide) (by decide))

theorem ori (f : SimmW) : Statement (.ori f) := by
  intro h w hw; cases hw
  exact .inr (SimmW_passes (EImm_fits (op := .ori) h) _ _ (by decide) (by decide) (by decide) (by decide))

theorem shli (f : SimmW) : Statement (.shli f) := by
  intro h w hw; cases hw
  exact .inr (SimmW_passes (EImm_fits (op := .shli) h) _ _ (by decide) (by decide) (by decide) (by decide))

theorem shri (f : SimmW) : Statement (.shri f) := by
  intro h w hw; cases hw
  exact .inr (SimmW_passes (EImm_fits (op := .shri) h) _ _ (by decide) (by decide) (by decide) (by decide))

theorem sari (f : SimmW) : Statement (.sari f) := by
  intro h w hw; cases hw
  exact .inr (SimmW_passes (EImm_fits (op := .sari) h) _ _ (by decide) (by decide) (by decide) (by decide))

theorem movi (f : SimmW) : Statement (.movi f) := by
  intro h w hw; cases hw
  exact .inr (SimmW_passes (EImm_fits (op := .movi) h) _ _ (by decide) (by decide) (by decide) (by decide))

theorem movw (f : SwideW) : Statement (.movw f) := by
  intro h w hw; cases hw
  exact .inr (SwideW_passes h _ _ (by decide) (by decide) (by decide) (by decide))

theorem bfx (f : SimmW) : Statement (.bfx f) := by
  intro h w hw; cases hw
  exact .inr (SimmW_passes (EImm_fits (op := .bfx) h) _ _ (by decide) (by decide) (by decide) (by decide))

theorem bfi (f : SimmW) : Statement (.bfi f) := by
  intro h w hw; cases hw
  exact .inr (SimmW_passes (EImm_fits (op := .bfi) h) _ _ (by decide) (by decide) (by decide) (by decide))

theorem bpld (f : SmemW) : Statement (.bpld f) := by
  intro h w hw; cases hw
  exact .inr (SmemW_passes (left (left (left h))) _ (by decide) (by decide))

theorem bc (f : SbrW) : Statement (.bc f) := by
  intro h w hw; cases hw
  exact .inr (SbrW_passes (left (left (left h))) _ (by decide) (by decide))

theorem call (f : SbrW) : Statement (.call f) := by
  intro h w hw; cases hw
  exact .inr (SbrW_passes (left (left (left (left h)))) _ (by decide) (by decide))

theorem ret (f : SbrW) : Statement (.ret f) := by
  intro h w hw; cases hw
  exact .inr (SbrW_passes (left (left (left (left h)))) _ (by decide) (by decide))

theorem loop (f : SbrW) : Statement (.loop f) := by
  intro h w hw; cases hw
  exact .inr (SbrW_passes (left (left (left (left h)))) _ (by decide) (by decide))

theorem ld (f : SmemW) : Statement (.ld f) := by
  intro h w hw; cases hw
  exact .inr (SmemW_passes (left h) _ (by decide) (by decide))

theorem ldx (f : SmemW) : Statement (.ldx f) := by
  intro h w hw; cases hw
  exact .inr (SmemW_passes (left h) _ (by decide) (by decide))

theorem st (f : SmemW) : Statement (.st f) := by
  intro h w hw; cases hw
  exact .inr (SmemW_passes (left h) _ (by decide) (by decide))

theorem stx (f : SmemW) : Statement (.stx f) := by
  intro h w hw; cases hw
  exact .inr (SmemW_passes (left h) _ (by decide) (by decide))

theorem swpm (f : SmemW) : Statement (.swpm f) := by
  intro h w hw; cases hw
  exact .inr (SmemW_passes (left (left h)) _ (by decide) (by decide))

theorem atomAdd (f : SatmW) : Statement (.atomAdd f) := by
  intro h w hw; cases hw
  exact .inr (SatmW_passes (left h) _ _ (by decide) (by decide) (by decide))

theorem atomMin (f : SatmW) : Statement (.atomMin f) := by
  intro h w hw; cases hw
  exact .inr (SatmW_passes (left h) _ _ (by decide) (by decide) (by decide))

theorem atomMax (f : SatmW) : Statement (.atomMax f) := by
  intro h w hw; cases hw
  exact .inr (SatmW_passes (left h) _ _ (by decide) (by decide) (by decide))

theorem atomAnd (f : SatmW) : Statement (.atomAnd f) := by
  intro h w hw; cases hw
  exact .inr (SatmW_passes (left h) _ _ (by decide) (by decide) (by decide))

theorem atomOr (f : SatmW) : Statement (.atomOr f) := by
  intro h w hw; cases hw
  exact .inr (SatmW_passes (left h) _ _ (by decide) (by decide) (by decide))

theorem atomXor (f : SatmW) : Statement (.atomXor f) := by
  intro h w hw; cases hw
  exact .inr (SatmW_passes (left h) _ _ (by decide) (by decide) (by decide))

theorem atomSwp (f : SatmW) : Statement (.atomSwp f) := by
  intro h w hw; cases hw
  exact .inr (SatmW_passes (left h) _ _ (by decide) (by decide) (by decide))

theorem atomCas (f : SatmW) : Statement (.atomCas f) := by
  intro h w hw; cases hw
  exact .inr (SatmW_passes h _ _ (by decide) (by decide) (by decide))

theorem atomFadd (f : SatmW) : Statement (.atomFadd f) := by
  intro h w hw; cases hw
  exact .inr (SatmW_passes (left h) _ _ (by decide) (by decide) (by decide))

theorem fence (f : SsysW) : Statement (.fence f) := by
  intro h w hw; cases hw
  exact .inr (SsysW_passes (left (left (left (left (left h))))) _ (by decide) (by decide))

theorem tmark (f : SsysW) : Statement (.tmark f) := by
  intro h w hw; cases hw
  exact .inr (SsysW_passes (left (left (left (left (left h))))) _ (by decide) (by decide))

theorem twait (f : SsysW) : Statement (.twait f) := by
  intro h w hw; cases hw
  exact .inr (SsysW_passes (left (left (left (left (left (left h)))))) _ (by decide) (by decide))

theorem syexp (f : SsysW) : Statement (.syexp f) := by
  intro h w hw; cases hw
  exact .inr (SsysW_passes (left (left h)) _ (by decide) (by decide))

theorem syarr (f : SsysW) : Statement (.syarr f) := by
  intro h w hw; cases hw
  exact .inr (SsysW_passes (left (left (left h))) _ (by decide) (by decide))

theorem sywait (f : SsysW) : Statement (.sywait f) := by
  intro h w hw; cases hw
  exact .inr (SsysW_passes (left (left h)) _ (by decide) (by decide))

theorem qwait (f : SsysW) : Statement (.qwait f) := by
  intro h w hw; cases hw
  exact .inr (SsysW_passes (left (left (left (left (left (left h)))))) _ (by decide) (by decide))

theorem hclaim (f : SsysW) : Statement (.hclaim f) := by
  intro h w hw; cases hw
  exact .inr (SsysW_passes (left (left (left (left (left (left h)))))) _ (by decide) (by decide))

theorem hrel (f : SsysW) : Statement (.hrel f) := by
  intro h w hw; cases hw
  exact .inr (SsysW_passes (left (left (left (left (left (left h)))))) _ (by decide) (by decide))

theorem wsend (f : SsysW) : Statement (.wsend f) := by
  intro h w hw; cases hw
  exact .inr (SsysW_passes (bare_fits h) _ (by decide) (by decide))

theorem xbar (f : SsysW) : Statement (.xbar f) := by
  intro h w hw; cases hw
  exact .inr (SsysW_passes (bare_fits h) _ (by decide) (by decide))

theorem pgreq (f : SsysW) : Statement (.pgreq f) := by
  intro h w hw; cases hw
  exact .inr (SsysW_passes (left (left (left h))) _ (by decide) (by decide))

theorem hpush (f : SsysW) : Statement (.hpush f) := by
  intro h w hw; cases hw
  exact .inr (SsysW_passes (left (left (left (left (left h))))) _ (by decide) (by decide))

theorem hpop (f : SsysW) : Statement (.hpop f) := by
  intro h w hw; cases hw
  exact .inr (SsysW_passes (left (left (left (left (left h))))) _ (by decide) (by decide))

theorem hspill (f : SsysW) : Statement (.hspill f) := by
  intro h w hw; cases hw
  exact .inr (SsysW_passes (left (left h)) _ (by decide) (by decide))

theorem hfill (f : SsysW) : Statement (.hfill f) := by
  intro h w hw; cases hw
  exact .inr (SsysW_passes (left (left h)) _ (by decide) (by decide))

theorem hmark (f : SsysW) : Statement (.hmark f) := by
  intro h w hw; cases hw
  exact .inr (SsysW_passes (left (left (left (left h)))) _ (by decide) (by decide))

theorem hchk (f : SsysW) : Statement (.hchk f) := by
  intro h w hw; cases hw
  exact .inr (SsysW_passes (left (left (left (left h)))) _ (by decide) (by decide))

theorem hdrop (f : SsysW) : Statement (.hdrop f) := by
  intro h w hw; cases hw
  exact .inr (SsysW_passes (left (left (left (left h)))) _ (by decide) (by decide))

theorem erase (f : SsysW) : Statement (.erase f) := by
  intro h w hw; cases hw
  exact .inr (SsysW_passes (left (left h)) _ (by decide) (by decide))

theorem vld (f : VmemW) : Statement (.vld f) := by
  intro h w hw; cases hw
  exact .inr (VmemW_passes h _ (by decide) (by decide))

theorem vldx (f : VmemW) : Statement (.vldx f) := by
  intro h w hw; cases hw
  exact .inr (VmemW_passes h _ (by decide) (by decide))

theorem vst (f : VmemW) : Statement (.vst f) := by
  intro h w hw; cases hw
  exact .inr (VmemW_passes h _ (by decide) (by decide))

theorem vstx (f : VmemW) : Statement (.vstx f) := by
  intro h w hw; cases hw
  exact .inr (VmemW_passes h _ (by decide) (by decide))

theorem vswpm (f : VmemW) : Statement (.vswpm f) := by
  intro h w hw; cases hw
  exact .inr (VmemW_passes h _ (by decide) (by decide))

theorem vadd (f : VregW) : Statement (.vadd f) := by
  intro h w hw; cases hw
  exact .inr (VregW_passes (left (left h)) _ (by decide) (by decide))

theorem vsub (f : VregW) : Statement (.vsub f) := by
  intro h w hw; cases hw
  exact .inr (VregW_passes (left (left h)) _ (by decide) (by decide))

theorem vmul (f : VregW) : Statement (.vmul f) := by
  intro h w hw; cases hw
  exact .inr (VregW_passes (left (left h)) _ (by decide) (by decide))

theorem vfma (f : VregW) : Statement (.vfma f) := by
  intro h w hw; cases hw
  exact .inr (VregW_passes (left (left (left h))) _ (by decide) (by decide))

theorem vmin (f : VregW) : Statement (.vmin f) := by
  intro h w hw; cases hw
  exact .inr (VregW_passes (left (left h)) _ (by decide) (by decide))

theorem vmax (f : VregW) : Statement (.vmax f) := by
  intro h w hw; cases hw
  exact .inr (VregW_passes (left (left h)) _ (by decide) (by decide))

theorem vabs (f : VregW) : Statement (.vabs f) := by
  intro h w hw; cases hw
  exact .inr (VregW_passes (left (left h)) _ (by decide) (by decide))

theorem vneg (f : VregW) : Statement (.vneg f) := by
  intro h w hw; cases hw
  exact .inr (VregW_passes (left (left h)) _ (by decide) (by decide))

theorem vand (f : VregW) : Statement (.vand f) := by
  intro h w hw; cases hw
  exact .inr (VregW_passes (left (left h)) _ (by decide) (by decide))

theorem vor (f : VregW) : Statement (.vor f) := by
  intro h w hw; cases hw
  exact .inr (VregW_passes (left (left h)) _ (by decide) (by decide))

theorem vxor (f : VregW) : Statement (.vxor f) := by
  intro h w hw; cases hw
  exact .inr (VregW_passes (left (left h)) _ (by decide) (by decide))

theorem vshl (f : VregW) : Statement (.vshl f) := by
  intro h w hw; cases hw
  exact .inr (VregW_passes (left h) _ (by decide) (by decide))

theorem vshr (f : VregW) : Statement (.vshr f) := by
  intro h w hw; cases hw
  exact .inr (VregW_passes (left h) _ (by decide) (by decide))

theorem vsar (f : VregW) : Statement (.vsar f) := by
  intro h w hw; cases hw
  exact .inr (VregW_passes (left h) _ (by decide) (by decide))

theorem vradd (f : VregW) : Statement (.vradd f) := by
  intro h w hw; cases hw
  exact .inr (VregW_passes (left (left (left h))) _ (by decide) (by decide))

theorem vrsub (f : VregW) : Statement (.vrsub f) := by
  intro h w hw; cases hw
  exact .inr (VregW_passes (left (left (left h))) _ (by decide) (by decide))

theorem vrxor (f : VregW) : Statement (.vrxor f) := by
  intro h w hw; cases hw
  exact .inr (VregW_passes (left (left (left h))) _ (by decide) (by decide))

theorem vswap (f : VregW) : Statement (.vswap f) := by
  intro h w hw; cases hw
  exact .inr (VregW_passes (left (left h)) _ (by decide) (by decide))

theorem vcmpeq (f : VregW) : Statement (.vcmpeq f) := by
  intro h w hw; cases hw
  exact .inr (VregW_passes (left (left (left h))) _ (by decide) (by decide))

theorem vcmplt (f : VregW) : Statement (.vcmplt f) := by
  intro h w hw; cases hw
  exact .inr (VregW_passes (left (left (left h))) _ (by decide) (by decide))

theorem vcmple (f : VregW) : Statement (.vcmple f) := by
  intro h w hw; cases hw
  exact .inr (VregW_passes (left (left (left h))) _ (by decide) (by decide))

theorem vclass (f : VregW) : Statement (.vclass f) := by
  intro h w hw; cases hw
  exact .inr (VregW_passes (left (left (left (left h)))) _ (by decide) (by decide))

theorem vsel (f : VregW) : Statement (.vsel f) := by
  intro h w hw; cases hw
  exact .inr (VregW_passes (left (left (left (left h)))) _ (by decide) (by decide))

theorem vcvt (f : VregW) : Statement (.vcvt f) := by
  intro h w hw; cases hw
  exact .inr (VregW_passes (left (left (left h))) _ (by decide) (by decide))

theorem vscacc (f : VregW) : Statement (.vscacc f) := by
  intro h w hw; cases hw
  exact .inr (VregW_passes (left (left h)) _ (by decide) (by decide))

theorem vredr (f : VregW) : Statement (.vredr f) := by
  intro h w hw; cases hw
  exact .inr (VregW_passes (left (left (left h))) _ (by decide) (by decide))

theorem vredrScalar (f : VregW) : Statement (.vredrScalar f) := by
  intro h w hw; cases hw
  exact .inr (VregW_passes (left (left (left (left (left (left (left h))))))) _ (by decide) (by decide))

theorem vredc (f : VregW) : Statement (.vredc f) := by
  intro h w hw; cases hw
  exact .inr (VregW_passes (left (left (left h))) _ (by decide) (by decide))

theorem vrot (f : VregW) : Statement (.vrot f) := by
  intro h w hw; cases hw
  exact .inr (VregW_passes (left (left (left (left (left h))))) _ (by decide) (by decide))

theorem vbcast (f : VregW) : Statement (.vbcast f) := by
  intro h w hw; cases hw
  exact .inr (VregW_passes (left (left (left h))) _ (by decide) (by decide))

theorem vxcol (f : VregW) : Statement (.vxcol f) := by
  intro h w hw; cases hw
  exact .inr (VregW_passes (left (left (left h))) _ (by decide) (by decide))

theorem vrcp (f : VregW) : Statement (.vrcp f) := by
  intro h w hw; cases hw
  exact .inr (VregW_passes (left (left h)) _ (by decide) (by decide))

theorem vrsq (f : VregW) : Statement (.vrsq f) := by
  intro h w hw; cases hw
  exact .inr (VregW_passes (left (left h)) _ (by decide) (by decide))

theorem vexp2 (f : VregW) : Statement (.vexp2 f) := by
  intro h w hw; cases hw
  exact .inr (VregW_passes (left (left h)) _ (by decide) (by decide))

theorem vamax (f : VregW) : Statement (.vamax f) := by
  intro h w hw; cases hw
  exact .inr (VregW_passes (left (left (left (left (left h))))) _ (by decide) (by decide))

theorem vamaxClr (f : VregW) : Statement (.vamaxClr f) := by
  intro h w hw; cases hw
  exact .inr (VregW_passes (left (left (left (left (left h))))) _ (by decide) (by decide))

theorem vmovs (f : VregW) : Statement (.vmovs f) := by
  intro h w hw; cases hw
  exact .inr (VregW_passes (left (left (left (left (left (left h)))))) _ (by decide) (by decide))

theorem vmovsAll (f : VregW) : Statement (.vmovsAll f) := by
  intro h w hw; cases hw
  exact .inr (VregW_passes (left (left (left (left (left h))))) _ (by decide) (by decide))

theorem vmovv (f : VregW) : Statement (.vmovv f) := by
  intro h w hw; cases hw
  exact .inr (VregW_passes (left (left (left (left (left (left h)))))) _ (by decide) (by decide))

theorem vpand (f : VregW) : Statement (.vpand f) := by
  intro h w hw; cases hw
  exact .inr (VregW_passes (left (left (left (left (left h))))) _ (by decide) (by decide))

theorem vpor (f : VregW) : Statement (.vpor f) := by
  intro h w hw; cases hw
  exact .inr (VregW_passes (left (left (left (left (left h))))) _ (by decide) (by decide))

theorem vpnot (f : VregW) : Statement (.vpnot f) := by
  intro h w hw; cases hw
  exact .inr (VregW_passes (left (left (left (left h)))) _ (by decide) (by decide))

theorem vpany (f : VregW) : Statement (.vpany f) := by
  intro h w hw; cases hw
  exact .inr (VregW_passes (left (left (left (left (left (left h)))))) _ (by decide) (by decide))

theorem tfetchRow (f : EregW) : Statement (.tfetchRow f) := by
  intro h w hw; cases hw
  exact .inr (EregW_passes (left (left h)) _ (by decide) (by decide))

theorem tfetchCol (f : EregW) : Statement (.tfetchCol f) := by
  intro h w hw; cases hw
  exact .inr (EregW_passes (left (left h)) _ (by decide) (by decide))

theorem tloadw (f : EregW) : Statement (.tloadw f) := by
  intro h w hw; cases hw
  exact .inr (EregW_passes (left h) _ (by decide) (by decide))

theorem tswap (f : EstampW) : Statement (.tswap f) := by
  intro h w hw; cases hw
  exact .inr (EstampW_passes (left h) _ (by decide) (by decide))

theorem tmac (f : EstampW) : Statement (.tmac f) := by
  intro h w hw; cases hw
  exact .inr (EstampW_passes (left h) _ (by decide) (by decide))

theorem tmacb (f : EstampW) : Statement (.tmacb f) := by
  intro h w hw; cases hw
  exact .inr (EstampW_passes (left h) _ (by decide) (by decide))

theorem tdrain (f : EregW) : Statement (.tdrain f) := by
  intro h w hw; cases hw
  exact .inr (EregW_passes (left (left h)) _ (by decide) (by decide))

theorem tdrainVec (f : EregW) : Statement (.tdrainVec f) := by
  intro h w hw; cases hw
  exact .inr (EregW_passes (left (left (left h))) _ (by decide) (by decide))

theorem tdrainb (f : EregW) : Statement (.tdrainb f) := by
  intro h w hw; cases hw
  exact .inr (EregW_passes (left h) _ (by decide) (by decide))

theorem anorm (f : EregW) : Statement (.anorm f) := by
  intro h w hw; cases hw
  exact .inr (EregW_passes (left (left h)) _ (by decide) (by decide))

theorem aclr (f : EregW) : Statement (.aclr f) := by
  intro h w hw; cases hw
  exact .inr (EregW_passes (left (left h)) _ (by decide) (by decide))

theorem torg (f : EregW) : Statement (.torg f) := by
  intro h w hw; cases hw
  exact .inr (EregW_passes (left (left h)) _ (by decide) (by decide))

theorem tstat (f : EregW) : Statement (.tstat f) := by
  intro h w hw; cases hw
  exact .inr (EregW_passes (left (left h)) _ (by decide) (by decide))

theorem tnop (f : EstampW) : Statement (.tnop f) := by
  intro h w hw; cases hw
  exact .inr (EstampW_passes (left h) _ (by decide) (by decide))

theorem cpy (f : EregW) : Statement (.cpy f) := by
  intro h w hw; cases hw
  exact .inr (EregW_passes (left (left h)) _ (by decide) (by decide))

theorem cpyt (f : EregW) : Statement (.cpyt f) := by
  intro h w hw; cases hw
  exact .inr (EregW_passes (left (left h)) _ (by decide) (by decide))

theorem cpgath (f : EregW) : Statement (.cpgath f) := by
  intro h w hw; cases hw
  exact .inr (EregW_passes (left (left h)) _ (by decide) (by decide))

theorem cpscat (f : EregW) : Statement (.cpscat f) := by
  intro h w hw; cases hw
  exact .inr (EregW_passes (left (left h)) _ (by decide) (by decide))

theorem cpfill (f : EregW) : Statement (.cpfill f) := by
  intro h w hw; cases hw
  exact .inr (EregW_passes (left (left h)) _ (by decide) (by decide))

theorem cpxor (f : EregW) : Statement (.cpxor f) := by
  intro h w hw; cases hw
  exact .inr (EregW_passes (left (left h)) _ (by decide) (by decide))

theorem cpswp (f : EregW) : Statement (.cpswp f) := by
  intro h w hw; cases hw
  exact .inr (EregW_passes (left (left h)) _ (by decide) (by decide))

theorem cpstat (f : EregW) : Statement (.cpstat f) := by
  intro h w hw; cases hw
  exact .inr (EregW_passes (left (left h)) _ (by decide) (by decide))

theorem graftAppend (f : EregW) : Statement (.graftAppend f) := by
  intro h w hw; cases hw
  exact .inr (EregW_passes (left (left h)) _ (by decide) (by decide))

theorem graftSum (f : EregW) : Statement (.graftSum f) := by
  intro h w hw; cases hw
  exact .inr (EregW_passes (left (left h)) _ (by decide) (by decide))

theorem graftSplit (f : EregW) : Statement (.graftSplit f) := by
  intro h w hw; cases hw
  exact .inr (EregW_passes (left (left h)) _ (by decide) (by decide))

theorem gproj (f : EregW) : Statement (.gproj f) := by
  intro h w hw; cases hw
  exact .inr (EregW_passes (left (left h)) _ (by decide) (by decide))

theorem gload (f : EregW) : Statement (.gload f) := by
  intro h w hw; cases hw
  exact .inr (EregW_passes (left (left h)) _ (by decide) (by decide))

theorem gstore (f : EregW) : Statement (.gstore f) := by
  intro h w hw; cases hw
  exact .inr (EregW_passes (left (left h)) _ (by decide) (by decide))

theorem gsetm (f : EregW) : Statement (.gsetm f) := by
  intro h w hw; cases hw
  exact .inr (EregW_passes (left (left h)) _ (by decide) (by decide))

theorem gsetb (f : EregW) : Statement (.gsetb f) := by
  intro h w hw; cases hw
  exact .inr (EregW_passes (left (left h)) _ (by decide) (by decide))

theorem gclr (f : EregW) : Statement (.gclr f) := by
  intro h w hw; cases hw
  exact .inr (EregW_passes (left (left h)) _ (by decide) (by decide))

theorem gstat (f : EregW) : Statement (.gstat f) := by
  intro h w hw; cases hw
  exact .inr (EregW_passes (left (left h)) _ (by decide) (by decide))

theorem gstatInfo (f : EregW) : Statement (.gstatInfo f) := by
  intro h w hw; cases hw
  exact .inr (EregW_passes (left (left h)) _ (by decide) (by decide))

theorem batomAdd (f : EregW) : Statement (.batomAdd f) := by
  intro h w hw; cases hw
  exact .inr (EregW_passes (left (left (left h))) _ (by decide) (by decide))

theorem batomMin (f : EregW) : Statement (.batomMin f) := by
  intro h w hw; cases hw
  exact .inr (EregW_passes (left (left (left h))) _ (by decide) (by decide))

theorem batomMax (f : EregW) : Statement (.batomMax f) := by
  intro h w hw; cases hw
  exact .inr (EregW_passes (left (left (left h))) _ (by decide) (by decide))

theorem batomAnd (f : EregW) : Statement (.batomAnd f) := by
  intro h w hw; cases hw
  exact .inr (EregW_passes (left (left (left h))) _ (by decide) (by decide))

theorem batomOr (f : EregW) : Statement (.batomOr f) := by
  intro h w hw; cases hw
  exact .inr (EregW_passes (left (left (left h))) _ (by decide) (by decide))

theorem batomXor (f : EregW) : Statement (.batomXor f) := by
  intro h w hw; cases hw
  exact .inr (EregW_passes (left (left (left h))) _ (by decide) (by decide))

theorem batomSwp (f : EregW) : Statement (.batomSwp f) := by
  intro h w hw; cases hw
  exact .inr (EregW_passes (left (left (left h))) _ (by decide) (by decide))

theorem batomCas (f : EregW) : Statement (.batomCas f) := by
  intro h w hw; cases hw
  exact .inr (EregW_passes (left (left h)) _ (by decide) (by decide))

theorem batomFadd (f : EregW) : Statement (.batomFadd f) := by
  intro h w hw; cases hw
  exact .inr (EregW_passes (left (left (left h))) _ (by decide) (by decide))

theorem bred (f : EregW) : Statement (.bred f) := by
  intro h w hw; cases hw
  exact .inr (EregW_passes (left (left (left (left h)))) _ (by decide) (by decide))

theorem bcollAllreduce (f : EregW) : Statement (.bcollAllreduce f) := by
  intro h w hw; cases hw
  exact .inr (EregW_passes (left (left (left (left h)))) _ (by decide) (by decide))

theorem bcollRedscat (f : EregW) : Statement (.bcollRedscat f) := by
  intro h w hw; cases hw
  exact .inr (EregW_passes (left (left (left (left h)))) _ (by decide) (by decide))

theorem bcollAllgath (f : EregW) : Statement (.bcollAllgath f) := by
  intro h w hw; cases hw
  exact .inr (EregW_passes (left (left (left (left h)))) _ (by decide) (by decide))

theorem bcollBcast (f : EregW) : Statement (.bcollBcast f) := by
  intro h w hw; cases hw
  exact .inr (EregW_passes (left (left (left (left h)))) _ (by decide) (by decide))

theorem bdig (f : EregW) : Statement (.bdig f) := by
  intro h w hw; cases hw
  exact .inr (EregW_passes (left h) _ (by decide) (by decide))

theorem bcopy (f : EregW) : Statement (.bcopy f) := by
  intro h w hw; cases hw
  exact .inr (EregW_passes (left (left h)) _ (by decide) (by decide))

theorem bfill (f : EregW) : Statement (.bfill f) := by
  intro h w hw; cases hw
  exact .inr (EregW_passes (left (left h)) _ (by decide) (by decide))

theorem bseed (f : EregW) : Statement (.bseed f) := by
  intro h w hw; cases hw
  exact .inr (EregW_passes (left (left h)) _ (by decide) (by decide))

theorem bstat (f : EregW) : Statement (.bstat f) := by
  intro h w hw; cases hw
  exact .inr (EregW_passes (left (left h)) _ (by decide) (by decide))

theorem bstatInfo (f : EregW) : Statement (.bstatInfo f) := by
  intro h w hw; cases hw
  exact .inr (EregW_passes (left (left h)) _ (by decide) (by decide))

theorem trap (f : SsysW) : Statement (.trap f) := by
  intro h w hw; cases hw
  exact .inr (SsysW_passes (left (left (left h))) _ (by decide) (by decide))

theorem sret (f : SsysW) : Statement (.sret f) := by
  intro h w hw; cases hw
  exact .inr (SsysW_passes (bare_fits h) _ (by decide) (by decide))

theorem crrd (f : SsysW) : Statement (.crrd f) := by
  intro h w hw; cases hw
  exact .inr (SsysW_passes (left (left (left h))) _ (by decide) (by decide))

theorem crwr (f : SsysW) : Statement (.crwr f) := by
  intro h w hw; cases hw
  exact .inr (SsysW_passes (left (left (left (left h)))) _ (by decide) (by decide))

theorem crswp (f : SsysW) : Statement (.crswp f) := by
  intro h w hw; cases hw
  exact .inr (SsysW_passes (left (left (left (left (left h))))) _ (by decide) (by decide))

theorem crset (f : SsysW) : Statement (.crset f) := by
  intro h w hw; cases hw
  exact .inr (SsysW_passes (left (left (left (left h)))) _ (by decide) (by decide))

theorem crclr (f : SsysW) : Statement (.crclr f) := by
  intro h w hw; cases hw
  exact .inr (SsysW_passes (left (left (left (left h)))) _ (by decide) (by decide))

theorem uhtopWrite (how : CrWrite) (f : SsysW) : Statement (.uhtopWrite how f) := by
  intro h w hw
  refine .inr ?_
  cases how <;> cases hw
  · exact SsysW_passes (left (left (left h))) _ (by decide) (by decide)
  · exact SsysW_passes (left (left (left (left h)))) _ (by decide) (by decide)
  · exact SsysW_passes (left (left (left h))) _ (by decide) (by decide)
  · exact SsysW_passes (left (left (left h))) _ (by decide) (by decide)

theorem safept (f : SsysW) : Statement (.safept f) := by
  intro h w hw; cases hw
  exact .inr (SsysW_passes (left (left (left h))) _ (by decide) (by decide))

theorem dbgbrk (f : SsysW) : Statement (.dbgbrk f) := by
  intro h w hw; cases hw
  exact .inr (SsysW_passes (bare_fits h) _ (by decide) (by decide))

theorem replay (f : SsysW) : Statement (.replay f) := by
  intro h w hw; cases hw
  exact .inr (SsysW_passes (bare_fits h) _ (by decide) (by decide))

theorem done (f : SsysW) : Statement (.done f) := by
  intro h w hw; cases hw
  exact .inr (SsysW_passes (bare_fits h) _ (by decide) (by decide))

theorem kill (f : SsysW) : Statement (.kill f) := by
  intro h w hw; cases hw
  exact .inr (SsysW_passes (bare_fits h) _ (by decide) (by decide))

theorem trapEntry : Statement (.trapEntry) :=
  fun _ _ h => nomatch h

theorem preemptionStop : Statement (.preemptionStop) :=
  fun _ _ h => nomatch h

theorem bedResume (bed : Nat) : Statement (.bedResume bed) :=
  fun _ _ h => nomatch h

theorem memoryReply (core id : Nat) : Statement (.memoryReply core id) :=
  fun _ _ h => nomatch h

theorem postBufferRoom (core : Nat) : Statement (.postBufferRoom core) :=
  fun _ _ h => nomatch h

theorem writeAcknowledgement (core id : Nat) : Statement (.writeAcknowledgement core id) :=
  fun _ _ h => nomatch h

theorem remoteTimeout (core : Nat) (what : TimedOut) : Statement (.remoteTimeout core what) :=
  fun _ _ h => nomatch h

theorem neighbourWordLanding (core : Nat) : Statement (.neighbourWordLanding core) :=
  fun _ _ h => nomatch h

theorem statusWordPush (core : Nat) (q : EngQ) : Statement (.statusWordPush core q) :=
  fun _ _ h => nomatch h

theorem syncWordEvent (ev : SyncEv) (addr n : Nat) : Statement (.syncWordEvent ev addr n) :=
  fun _ _ h => nomatch h

theorem trellisEntryStart (core : Nat) : Statement (.trellisEntryStart core) :=
  fun _ _ h => nomatch h

theorem stampTick (core : Nat) : Statement (.stampTick core) :=
  fun _ _ h => nomatch h

theorem trellisEntryCompletion (core : Nat) : Statement (.trellisEntryCompletion core) :=
  fun _ _ h => nomatch h

theorem engineEntryStart (core : Nat) (q : EngQ) : Statement (.engineEntryStart core q) :=
  fun _ _ h => nomatch h

theorem syncTagPosting (core : Nat) : Statement (.syncTagPosting core) :=
  fun _ _ h => nomatch h

theorem engineEntryCompletion (core : Nat) (q : EngQ) : Statement (.engineEntryCompletion core q) :=
  fun _ _ h => nomatch h

theorem sieveVote (job cgid : Nat) : Statement (.sieveVote job cgid) :=
  fun _ _ h => nomatch h

theorem pageServiced (core extent : Nat) (ok : Bool) : Statement (.pageServiced core extent ok) :=
  fun _ _ h => nomatch h

theorem barrierAdvance (job : Nat) (lid : Exchange) : Statement (.barrierAdvance job lid) :=
  fun _ _ h => nomatch h

theorem budgetExpiry (core : Nat) : Statement (.budgetExpiry core) :=
  fun _ _ h => nomatch h

theorem notify (n : Submission) : Statement (.notify n) :=
  fun _ _ h => nomatch h

theorem launchRecord : Statement (.launchRecord) :=
  fun _ _ h => nomatch h

theorem cancelRecord : Statement (.cancelRecord) :=
  fun _ _ h => nomatch h

theorem replayRecord : Statement (.replayRecord) :=
  fun _ _ h => nomatch h

theorem resumeBed : Statement (.resumeBed) :=
  fun _ _ h => nomatch h

theorem haltBed : Statement (.haltBed) :=
  fun _ _ h => nomatch h

theorem close : Statement (.close) :=
  fun _ _ h => nomatch h

theorem openJob : Statement (.openJob) :=
  fun _ _ h => nomatch h

theorem endJob : Statement (.endJob) :=
  fun _ _ h => nomatch h

theorem cread (n : Nat) : Statement (.cread n) :=
  fun _ _ h => nomatch h

theorem launchPlacement : Statement (.launchPlacement) :=
  fun _ _ h => nomatch h

theorem launchAgeing (job lid : Nat) : Statement (.launchAgeing job lid) :=
  fun _ _ h => nomatch h

theorem unitStart (job lid unit : Nat) : Statement (.unitStart job lid unit) :=
  fun _ _ h => nomatch h

theorem unitSave (core : Nat) : Statement (.unitSave core) :=
  fun _ _ h => nomatch h

theorem gangAck (job gang : Nat) (m : GangMember) : Statement (.gangAck job gang m) :=
  fun _ _ h => nomatch h

theorem gangAbort (job gang : Nat) : Statement (.gangAbort job gang) :=
  fun _ _ h => nomatch h

theorem remoteAccess (r : RemoteReq) : Statement (.remoteAccess r) :=
  fun _ _ h => nomatch h

theorem completionRecordWrite : Statement (.completionRecordWrite) :=
  fun _ _ h => nomatch h

theorem correctableError (bed : Nat) : Statement (.correctableError bed) :=
  fun _ _ h => nomatch h

theorem freezeEnd (bed : Nat) : Statement (.freezeEnd bed) :=
  fun _ _ h => nomatch h

theorem temperatureSample (die : Nat) (t16 : Sensors) : Statement (.temperatureSample die t16) :=
  fun _ _ h => nomatch h

theorem pwrcap (v : Word) : Statement (.pwrcap v) :=
  fun _ _ h => nomatch h

theorem phaseLoss (rail : Nat) : Statement (.phaseLoss rail) :=
  fun _ _ h => nomatch h

theorem thermalTrip (die : Nat) : Statement (.thermalTrip die) :=
  fun _ _ h => nomatch h

theorem apertureRegisterWrite (die n reg : Nat) (v : Word) : Statement (.apertureRegisterWrite die n reg v) :=
  fun _ _ h => nomatch h

theorem powerOn : Statement (.powerOn) :=
  fun _ _ h => nomatch h

theorem preset (v : Word) : Statement (.preset v) :=
  fun _ _ h => nomatch h

theorem rdoor (n : Nat) : Statement (.rdoor n) :=
  fun _ _ h => nomatch h

theorem attestationRequest (nonce : Nat) : Statement (.attestationRequest nonce) :=
  fun _ _ h => nomatch h

theorem scheduleTick (bed : Nat) : Statement (.scheduleTick bed) :=
  fun _ _ h => nomatch h

theorem illegalInstruction (w : Word) : Statement (.illegalInstruction w) :=
  fun _ _ h => .inl ⟨w, rfl, (Option.some.inj h).symm⟩

theorem fetchFault : Statement (.fetchFault) :=
  fun _ _ h => nomatch h

theorem lossOfInputPower : Statement (.lossOfInputPower) :=
  fun _ _ h => nomatch h

end Sys2Proof.Laws.Enc
end

