-- ==== Sys2Proof/Tests/Slice0.lean ====
section
/-! SUPPORT. The model's own tests: ill-formed terms refused, words of the spec's encodings decoded, values of the spec's worked
examples, and for every statement with hypotheses a state and operands that meet them. -/

/-! ### Well-formedness: each check refuses a term that breaks it alone (R68, R69) -/

namespace Sys2Proof.Tests
open Sys2Proof Sys2Proof.Machine Sys2Proof.Stmt

set_option Elab.async false

/-- SREG fields, all zero. -/
def r0 : SregW := { ramp := 0, d := 0, a := 0, b := 0, ty := 0, c := 0, e := 0 }
/-- SIMM fields, all zero. -/
def i0 : SimmW := { ramp := 0, d := 0, a := 0, ty := 0, imm := 0 }
/-- SWIDE fields, all zero. -/
def w0 : SwideW := { ramp := 0, d := 0, h := 0, imm := 0 }
/-- SMEM fields, all zero. -/
def m0 : SmemW := { ramp := 0, d := 0, a := 0, cl := 0, sc := 0, ty := 0, b := 0, off := 0 }
/-- SATM fields, all zero. -/
def a0 : SatmW := { ramp := 0, d := 0, a := 0, cl := 0, sc := 0, b := 0, c := 0, off := 0 }
/-- SBR fields, all zero. -/
def b0 : SbrW := { ramp := 0, d := 0, a := 0, b := 0, cc := 0, off := 0 }
/-- SSYS fields, all zero. -/
def y0 : SsysW := { ramp := 0, d := 0, a := 0, k := 0, sc := 0, mask := 0, sel := 0 }
/-- VREG fields, all zero. -/
def v0 : VregW := { ramp := 0, vd := 0, va := 0, vb := 0, vc := 0, pm := 0, fmt := 0, rm := 0, sa := 0, imm := 0 }
/-- VMEM fields, all zero. -/
def x0 : VmemW := { ramp := 0, vd := 0, a := 0, cl := 0, sc := 0, pm := 0, fmt := 0, b := 0, off := 0 }
/-- EREG fields without tokens. -/
def e0 : EregW := { ramp := 0, kp := 63, kc0 := 63, kc1 := 63, kc2 := 63, a := 0, b := 0, c := 0, md := 0 }
/-- ESTAMP fields without tokens. -/
def s0 : EstampW := { ramp := 0, kp := 63, kc0 := 63, kc1 := 63, kc2 := 63, stamp := 0, opf := 0 }

/-- A well-formed term, and terms that break one of its checks each. -/
abbrev Refuses (l : List (Instr × List Instr)) : Prop := ∀ p ∈ l, p.1.wf = true ∧ ∀ b ∈ p.2, b.wf = false

theorem test_wf_scalar_formats : Refuses
    [ (.add3 r0, [.add3 { r0 with ramp := 6 }, .add3 { r0 with d := 64 }, .add3 { r0 with a := 64 }, .add3 { r0 with b := 64 },
        .add3 { r0 with ty := 8 }, .add3 { r0 with c := 1 }, .add3 { r0 with e := 1 }]),
      (.cswap { r0 with c := 63 }, [.cswap { r0 with c := 64 }]),
      (.bpermE { r0 with d := 2, e := 1 }, [.bpermE { r0 with d := 2, e := 3 }]),
      (.ori i0, [.ori { i0 with ramp := 7 }, .ori { i0 with d := 64 }, .ori { i0 with a := 64 }, .ori { i0 with ty := 8 },
        .ori { i0 with imm := 2 ^ 36 }]),
      (.xorw { w0 with h := 1 }, [.xorw { w0 with ramp := 6 }, .xorw { w0 with d := 64 }, .xorw { w0 with h := 2 },
        .xorw { w0 with imm := 2 ^ 32 }]),
      (.ld m0, [.ld { m0 with ramp := 6 }, .ld { m0 with d := 64 }, .ld { m0 with a := 64 }, .ld { m0 with cl := 16 },
        .ld { m0 with sc := 5 }, .ld { m0 with ty := 8 }, .ld { m0 with b := 64 }, .ld { m0 with off := 2 ^ 23 }]),
      (.atomCas { a0 with c := 63 }, [.atomCas { a0 with ramp := 6 }, .atomCas { a0 with d := 64 }, .atomCas { a0 with a := 64 },
        .atomCas { a0 with cl := 16 }, .atomCas { a0 with sc := 5 }, .atomCas { a0 with b := 64 }, .atomCas { a0 with c := 64 },
        .atomCas { a0 with off := 2 ^ 16 }]),
      (.bc b0, [.bc { b0 with ramp := 6 }, .bc { b0 with off := 2 ^ 29 }]),
      (.bc { b0 with cc := 6, a := 63, b := 63 }, [.bc { b0 with cc := 6, a := 64 }, .bc { b0 with cc := 6, b := 64 }]),
      (.safept y0, [.safept { y0 with ramp := 6 }, .safept { y0 with sel := 2 ^ 14 }]),
      (.syexp { y0 with d := 63, a := 63 }, [.syexp { y0 with d := 64 }, .syexp { y0 with a := 64 }]),
      (.tmark { y0 with mask := 2 ^ 16 - 1 }, [.tmark { y0 with mask := 2 ^ 16 }]) ] := by decide +kernel

theorem test_wf_vector_engine_formats : Refuses
    [ (.vfma v0, [.vfma { v0 with ramp := 6 }, .vfma { v0 with vd := 32 }, .vfma { v0 with va := 32 }, .vfma { v0 with vb := 32 },
        .vfma { v0 with vc := 32 }, .vfma { v0 with pm := 16 }, .vfma { v0 with fmt := 8 }]),
      (.vfma { v0 with fmt := 3, rm := 7 }, [.vfma { v0 with fmt := 3, rm := 5 }, .vfma { v0 with fmt := 3, rm := 6 },
        .vfma { v0 with fmt := 3, rm := 8 }]),
      (.vmovs { v0 with sa := 63 }, [.vmovs { v0 with sa := 64 }]),
      (.vmovsAll { v0 with imm := 2048 }, [.vmovsAll { v0 with imm := 2 ^ 14 + 2048 }]),
      (.vld x0, [.vld { x0 with ramp := 6 }, .vld { x0 with vd := 32 }, .vld { x0 with a := 64 }, .vld { x0 with cl := 16 },
        .vld { x0 with sc := 5 }, .vld { x0 with pm := 16 }, .vld { x0 with fmt := 8 }, .vld { x0 with b := 64 },
        .vld { x0 with off := 2 ^ 19 }]),
      (.bred { e0 with md := 16 }, [.bred { e0 with md := 16, ramp := 6 }, .bred { e0 with md := 16, kp := 64 },
        .bred { e0 with md := 16, kc0 := 64 }, .bred { e0 with md := 16, kc1 := 64 }, .bred { e0 with md := 16, kc2 := 64 },
        .bred { e0 with md := 16, a := 64 }, .bred { e0 with md := 16, b := 64 }, .bred { e0 with md := 16, c := 64 },
        .bred { e0 with md := 16 + 2 ^ 9 }]),
      (.tmac s0, [.tmac { s0 with ramp := 6 }, .tmac { s0 with kp := 64 }, .tmac { s0 with kc0 := 64 }, .tmac { s0 with kc1 := 64 },
        .tmac { s0 with kc2 := 64 }, .tmac { s0 with stamp := 4096 }, .tmac { s0 with opf := 2 ^ 15 }]) ] := by decide +kernel

theorem test_wf_scalar_words : Refuses
    [ (.nop y0, [.nop { y0 with d := 1 }, .nop { y0 with a := 1 }, .nop { y0 with k := 1 }, .nop { y0 with sc := 1 },
        .nop { y0 with mask := 1 }, .nop { y0 with sel := 1 }]),
      (.add { r0 with d := 1 }, [.add { r0 with d := 1, a := 1 }, .add { r0 with d := 1, b := 1 }, .add { r0 with d := 1, c := 1 },
        .add { r0 with d := 1, e := 1 }]),
      (.neg { r0 with d := 1 }, [.neg { r0 with d := 1, a := 2 }, .neg { r0 with d := 1, b := 1 }]),
      (.swap { r0 with d := 1, a := 1 }, [.swap { r0 with b := 1 }, .swap { r0 with c := 1 }, .swap { r0 with e := 1 }]),
      (.cswap { r0 with d := 1, a := 2, c := 3 }, [.cswap { r0 with d := 1, a := 2, c := 1 }, .cswap { r0 with d := 1, a := 2, c := 2 },
        .cswap { r0 with d := 1, a := 2, c := 3, b := 1 }, .cswap { r0 with d := 1, a := 2, c := 3, e := 1 }]),
      (.bperm { r0 with d := 54, b := 7 }, [.bperm { r0 with d := 3 }, .bperm { r0 with d := 0 }, .bperm { r0 with d := 56 },
        .bperm { r0 with d := 2, b := 8 }, .bperm { r0 with d := 2, a := 2 }, .bperm { r0 with d := 2, ty := 1 },
        .bperm { r0 with d := 2, c := 1 }, .bperm { r0 with d := 2, e := 1 }]),
      (.bpermE { r0 with d := 2, a := 54, b := 7, e := 1 }, [.bpermE { r0 with d := 2 }, .bpermE { r0 with d := 3, e := 1 },
        .bpermE { r0 with e := 1 }, .bpermE { r0 with d := 56, e := 1 }, .bpermE { r0 with d := 2, b := 8, e := 1 },
        .bpermE { r0 with d := 2, a := 3, e := 1 }, .bpermE { r0 with d := 2, a := 56, e := 1 },
        .bpermE { r0 with d := 2, ty := 1, e := 1 }, .bpermE { r0 with d := 2, c := 1, e := 1 }]),
      (.addi i0, [.addi { i0 with a := 1 }]), (.roli { i0 with imm := 63 }, [.roli { i0 with imm := 64 }, .roli { i0 with a := 1 }]),
      (.muloi { i0 with imm := 1 }, [.muloi i0, .muloi { i0 with imm := 1, a := 1 }]),
      (.mov r0, [.mov { r0 with b := 1 }]), (.clr r0, [.clr { r0 with a := 1 }, .clr { r0 with b := 1 }]),
      (.ext r0, [.ext { r0 with b := 1 }]), (.norm r0, [.norm { r0 with c := 1 }]), (.popc r0, [.popc { r0 with e := 1 }]),
      (.cmplt { r0 with ty := 3 }, [.cmplt { r0 with ty := 4 }, .cmplt { r0 with c := 1 }]),
      (.cmplo { r0 with ty := 4 }, [.cmplo { r0 with ty := 3 }, .cmplo { r0 with ty := 4, c := 1 }]),
      (.shli { i0 with imm := 63 }, [.shli { i0 with imm := 64 }]), (.movi i0, [.movi { i0 with a := 1 }]),
      (.bfx { i0 with imm := 63 * 64 }, [.bfx { i0 with imm := 4096 }, .bfx { i0 with imm := 63 * 64 + 1 }, .bfx { i0 with ty := 1 }]),
      (.bfi { i0 with imm := 63 }, [.bfi { i0 with imm := 4096 }, .bfi { i0 with imm := 64 + 63 }, .bfi { i0 with ty := 4 }]),
      (.min r0, [.min { r0 with b := 1 }]),
      (.minK { r0 with d := 55, a := 1 }, [.minK { r0 with d := 0, a := 1 }, .minK { r0 with d := 56, a := 1 },
        .minK { r0 with d := 1, a := 0 }, .minK { r0 with d := 1, a := 56 }, .minK { r0 with d := 1, a := 1 },
        .minK { r0 with d := 1, a := 2, b := 1 }]),
      (.keepForm (.reg .add3 { r0 with d := 55 }), [.keepForm (.reg .add3 r0), .keepForm (.reg .add3 { r0 with d := 56 }),
        .keepForm (.reg .add3 { r0 with d := 5, a := 5 }), .keepForm (.reg .add3 { r0 with d := 5, b := 5 }),
        .keepForm (.reg .add3 { r0 with d := 5, c := 1 })]),
      (.backForm (.imm .movi { i0 with d := 1 }), [.backForm (.imm .movi i0), .backForm (.imm .ori { i0 with d := 1, a := 1 }),
        .backForm (.imm .movi { i0 with d := 1, a := 2 })]),
      (.keepForm (.wide { w0 with d := 1 }), [.keepForm (.wide w0), .keepForm (.wide { w0 with d := 1, h := 2 })]) ] := by decide +kernel

theorem test_wf_memory_control_words : Refuses
    [ (.bpld { m0 with d := 7 }, [.bpld { m0 with d := 8 }, .bpld { m0 with ty := 1 }, .bpld { m0 with b := 1 }]),
      (.bc b0, [.bc { b0 with d := 1 }, .bc { b0 with cc := 7 }, .bc { b0 with a := 1 }, .bc { b0 with b := 1 }]),
      (.call { b0 with d := 55 }, [.call b0, .call { b0 with d := 56 }, .call { b0 with d := 1, a := 1 },
        .call { b0 with d := 1, b := 1 }, .call { b0 with d := 1, cc := 1 }]),
      (.ret { b0 with a := 63 }, [.ret { b0 with d := 1 }, .ret { b0 with b := 1 }, .ret { b0 with cc := 1 }, .ret { b0 with off := 1 }]),
      (.loop { b0 with a := 1 }, [.loop b0, .loop { b0 with a := 56 }, .loop { b0 with a := 1, d := 1 },
        .loop { b0 with a := 1, b := 1 }, .loop { b0 with a := 1, cc := 1 }]),
      (.ldx { m0 with d := 2, b := 55 }, [.ldx { m0 with d := 2, b := 56 }, .ldx { m0 with d := 2, b := 2 }]),
      (.st m0, [.st { m0 with b := 1 }]), (.swpm { m0 with d := 1 }, [.swpm m0, .swpm { m0 with d := 56 }, .swpm { m0 with d := 1, b := 1 }]),
      (.atomAdd a0, [.atomAdd { a0 with c := 1 }]),
      (.fence { y0 with sc := 4, mask := 1 }, [.fence { y0 with sc := 5 }, .fence { y0 with d := 1 }, .fence { y0 with a := 1 },
        .fence { y0 with k := 1 }, .fence { y0 with sel := 1 }]),
      (.tmark { y0 with k := 62 }, [.tmark { y0 with k := 63 }, .tmark { y0 with sc := 5 }, .tmark { y0 with d := 1 },
        .tmark { y0 with a := 1 }, .tmark { y0 with sel := 1 }]),
      (.twait { y0 with k := 62 }, [.twait { y0 with k := 63 }, .twait { y0 with sc := 1 }, .twait { y0 with mask := 1 },
        .twait { y0 with d := 1 }, .twait { y0 with a := 1 }, .twait { y0 with sel := 1 }]),
      (.sywait y0, [.sywait { y0 with k := 1 }, .sywait { y0 with sc := 1 }, .sywait { y0 with mask := 1 }, .sywait { y0 with sel := 1 }]),
      (.syarr { y0 with mask := 1 }, [.syarr { y0 with k := 1 }, .syarr { y0 with sc := 1 }, .syarr { y0 with sel := 1 }]),
      (.qwait { y0 with k := 7 }, [.qwait { y0 with k := 8 }, .qwait { y0 with d := 1 }, .qwait { y0 with a := 1 },
        .qwait { y0 with sc := 1 }, .qwait { y0 with mask := 1 }, .qwait { y0 with sel := 1 }]),
      (.hclaim { y0 with k := 31 }, [.hclaim { y0 with k := 32 }, .hclaim { y0 with d := 1 }, .hclaim { y0 with a := 1 },
        .hclaim { y0 with sc := 1 }, .hclaim { y0 with mask := 1 }, .hclaim { y0 with sel := 1 }]),
      (.pgreq { y0 with a := 63 }, [.pgreq { y0 with d := 1 }, .pgreq { y0 with k := 1 }, .pgreq { y0 with sel := 1 }]),
      (.hpush { y0 with d := 1, sel := 64 }, [.hpush { y0 with sel := 1 }, .hpush { y0 with d := 56, sel := 1 },
        .hpush { y0 with d := 1, a := 1, sel := 1 }, .hpush { y0 with d := 1, k := 1, sel := 1 }, .hpush { y0 with d := 1 },
        .hpush { y0 with d := 1, sel := 65 }]),
      (.hspill { y0 with d := 1, a := 2 }, [.hspill { y0 with k := 1 }, .hspill { y0 with sel := 1 }]),
      (.hmark { y0 with sel := 3 }, [.hmark { y0 with sel := 4 }, .hmark { y0 with d := 1 }, .hmark { y0 with a := 1 },
        .hmark { y0 with mask := 1 }]),
      (.hdrop { y0 with sel := 1 }, [.hdrop y0, .hdrop { y0 with d := 1, sel := 1 }, .hdrop { y0 with a := 1, sel := 1 },
        .hdrop { y0 with sc := 1, sel := 1 }]) ] := by decide +kernel

theorem test_wf_vector_words : Refuses
    [ (.vadd v0, [.vadd { v0 with vc := 1 }, .vadd { v0 with sa := 1 }, .vadd { v0 with imm := 1 }, .vadd { v0 with rm := 2 },
        .vadd { v0 with fmt := 3, rm := 5 }]),
      (.vfma v0, [.vfma { v0 with sa := 1 }, .vfma { v0 with imm := 1 }, .vfma { v0 with rm := 7 }]),
      (.vmin v0, [.vmin { v0 with rm := 1 }, .vmin { v0 with vc := 1 }]),
      (.vabs v0, [.vabs { v0 with vb := 1 }, .vabs { v0 with vc := 1 }, .vabs { v0 with sa := 1 }, .vabs { v0 with imm := 1 },
        .vabs { v0 with rm := 2 }]),
      (.vshl { v0 with imm := 7 }, [.vshl { v0 with imm := 8 }, .vshl { v0 with fmt := 1, imm := 16 }, .vshl { v0 with fmt := 2, imm := 32 },
        .vshl { v0 with rm := 1 }, .vshl { v0 with vb := 1 }]),
      (.vradd { v0 with va := 1 }, [.vradd v0, .vradd { v0 with va := 1, rm := 1 }, .vradd { v0 with va := 1, vb := 1 }]),
      (.vswap v0, [.vswap { v0 with rm := 1 }, .vswap { v0 with imm := 1 }]),
      (.vcmpeq { v0 with vd := 15 }, [.vcmpeq v0, .vcmpeq { v0 with vd := 16 }, .vcmpeq { v0 with vd := 1, rm := 1 },
        .vcmpeq { v0 with vd := 1, vc := 1 }]),
      (.vclass { v0 with vd := 1, imm := 511 }, [.vclass { v0 with vd := 1, imm := 512 }, .vclass v0, .vclass { v0 with vd := 1, vb := 1 },
        .vclass { v0 with vd := 1, rm := 1 }]),
      (.vsel { v0 with vc := 15 }, [.vsel { v0 with vc := 16 }, .vsel { v0 with sa := 1 }, .vsel { v0 with imm := 1 }, .vsel { v0 with rm := 1 }]),
      (.vcvt { v0 with imm := 15, rm := 4 }, [.vcvt { v0 with imm := 16 }, .vcvt { v0 with vb := 1 }, .vcvt { v0 with imm := 1, rm := 2 },
        .vcvt { v0 with imm := 3, rm := 5 }]),
      (.vscacc v0, [.vscacc { v0 with sa := 1 }, .vscacc { v0 with rm := 5 }]),
      (.vredr { v0 with imm := 3 }, [.vredr { v0 with imm := 4 }, .vredr { v0 with imm := 1, rm := 1 }, .vredr { v0 with rm := 2 },
        .vredr { v0 with vb := 1 }]),
      (.vredrScalar { v0 with imm := 1023 }, [.vredrScalar { v0 with imm := 1024 + 4 }, .vredrScalar v0, .vredrScalar { v0 with imm := 4, vd := 1 },
        .vredrScalar { v0 with imm := 4, vb := 1 }, .vredrScalar { v0 with imm := 4, vc := 1 }, .vredrScalar { v0 with imm := 4, pm := 1 },
        .vredrScalar { v0 with imm := 4, rm := 2 }]),
      (.vredc v0, [.vredc { v0 with imm := 4 }, .vredc { v0 with rm := 2 }]),
      (.vrot { v0 with imm := 15 }, [.vrot { v0 with imm := 16 }, .vrot { v0 with va := 1 }, .vrot { v0 with pm := 1 }, .vrot { v0 with rm := 1 }]),
      (.vbcast { v0 with imm := 15 }, [.vbcast { v0 with imm := 16 }, .vbcast { v0 with rm := 1 }, .vbcast { v0 with sa := 1 }]),
      (.vrcp v0, [.vrcp { v0 with rm := 5 }, .vrcp { v0 with imm := 1 }]),
      (.vamax v0, [.vamax { v0 with vd := 1 }, .vamax { v0 with vb := 1 }, .vamax { v0 with vc := 1 }, .vamax { v0 with rm := 1 },
        .vamax { v0 with imm := 1 }]),
      (.vamaxClr { v0 with imm := 1 }, [.vamaxClr v0, .vamaxClr { v0 with imm := 1, vd := 1 }]),
      (.vmovs { v0 with imm := 2047 }, [.vmovs { v0 with imm := 2048 }, .vmovs { v0 with va := 1 }, .vmovs { v0 with vb := 1 },
        .vmovs { v0 with vc := 1 }, .vmovs { v0 with rm := 1 }, .vmovs { v0 with pm := 1 }]),
      (.vmovsAll { v0 with imm := 2048 }, [.vmovsAll { v0 with imm := 2049 }, .vmovsAll { v0 with imm := 2048, va := 1 }]),
      (.vmovv { v0 with imm := 2047 }, [.vmovv { v0 with imm := 2048 }, .vmovv { v0 with vd := 1 }, .vmovv { v0 with pm := 1 }]),
      (.vpand { v0 with vd := 15, va := 15, vb := 15 }, [.vpand v0, .vpand { v0 with vd := 1, va := 16 }, .vpand { v0 with vd := 1, vb := 16 },
        .vpand { v0 with vd := 1, rm := 1 }, .vpand { v0 with vd := 1, vc := 1 }]),
      (.vpnot { v0 with vd := 1 }, [.vpnot { v0 with vd := 1, va := 16 }, .vpnot { v0 with vd := 16 }, .vpnot { v0 with vd := 1, vb := 1 }]),
      (.vpany v0, [.vpany { v0 with vd := 1 }, .vpany { v0 with va := 16 }, .vpany { v0 with vb := 1 }, .vpany { v0 with vc := 1 },
        .vpany { v0 with imm := 1 }, .vpany { v0 with rm := 1 }]) ] := by decide +kernel

theorem test_wf_engine_words : Refuses
    [ (.tfetchRow e0, [.tfetchRow { e0 with c := 1 }, .tfetchRow { e0 with md := 1 }]),
      (.tfetchCol { e0 with md := 1 }, [.tfetchCol e0, .tfetchCol { e0 with md := 1, c := 1 }]),
      (.tloadw e0, [.tloadw { e0 with a := 1 }, .tloadw { e0 with b := 1 }, .tloadw { e0 with c := 1 }]),
      (.tswap s0, [.tswap { s0 with opf := 1 }]), (.tmac s0, [.tmac { s0 with opf := 1 }]),
      (.tmacb s0, [.tmacb { s0 with stamp := 1, opf := 1 }]),
      (.tdrain { e0 with md := 15 }, [.tdrain { e0 with md := 16 }, .tdrain { e0 with c := 1 }]),
      (.tdrainVec { e0 with md := 31 }, [.tdrainVec e0, .tdrainVec { e0 with md := 32 }, .tdrainVec { e0 with md := 16, b := 1 }]),
      (.tdrainb e0, [.tdrainb { e0 with b := 1 }, .tdrainb { e0 with c := 1 }]),
      (.anorm { e0 with md := 63 }, [.anorm { e0 with md := 64 }, .anorm { e0 with a := 1 }]),
      (.aclr { e0 with md := 3 }, [.aclr { e0 with md := 4 }]), (.torg e0, [.torg { e0 with md := 1 }, .torg { e0 with b := 1 }]),
      (.cpy { e0 with md := 3 }, [.cpy { e0 with md := 4 }, .cpy { e0 with b := 1 }]),
      (.cpgath { e0 with md := 3 }, [.cpgath { e0 with md := 4 }, .cpgath { e0 with c := 1 }]),
      (.cpscat { e0 with md := 1 }, [.cpscat { e0 with md := 2 }, .cpscat { e0 with c := 1 }]),
      (.cpswp { e0 with md := 1 }, [.cpswp { e0 with md := 2 }, .cpswp { e0 with b := 1 }]),
      (.cpstat e0, [.cpstat { e0 with md := 1 }, .cpstat { e0 with b := 1 }]),
      (.graftAppend e0, [.graftAppend { e0 with md := 32 }, .graftAppend { e0 with b := 1 }]),
      (.graftSum { e0 with md := 32 }, [.graftSum e0, .graftSum { e0 with md := 32, b := 1 }]),
      (.graftSplit { e0 with md := 64 }, [.graftSplit { e0 with md := 96 }, .graftSplit { e0 with md := 64, c := 1 }]),
      (.gproj e0, [.gproj { e0 with md := 32 }, .gproj { e0 with b := 1 }]),
      (.gload e0, [.gload { e0 with md := 32 }, .gload { e0 with c := 1 }]),
      (.gstore e0, [.gstore { e0 with md := 32 }, .gstore { e0 with b := 1 }]),
      (.gsetm { e0 with md := 256 }, [.gsetm { e0 with md := 128 }, .gsetm { e0 with b := 1 }]),
      (.gsetb { e0 with md := 257 }, [.gsetb { e0 with md := 2 }, .gsetb { e0 with b := 1 }]),
      (.gclr { e0 with md := 256 }, [.gclr { e0 with md := 1 }, .gclr { e0 with a := 1 }]),
      (.gstat e0, [.gstat { e0 with md := 1 }, .gstat { e0 with b := 1 }]), (.gstatInfo { e0 with md := 1 }, [.gstatInfo e0]),
      (.batomAdd e0, [.batomAdd { e0 with md := 1 }, .batomAdd { e0 with md := 80 }, .batomAdd { e0 with c := 1 }]),
      (.batomCas { e0 with md := 7, c := 1 }, [.batomCas { e0 with md := 8 }, .batomCas { e0 with md := 87 }]),
      (.batomFadd { e0 with md := 8 }, [.batomFadd { e0 with md := 9 }]),
      (.bred { e0 with md := 37 }, [.bred { e0 with md := 22 }, .bred { e0 with md := 8 }, .bred { e0 with md := 40 },
        .bred { e0 with md := 16 + 320 }]),
      (.bcollAllreduce { e0 with md := 20 }, [.bcollAllreduce { e0 with md := 24 }, .bcollAllreduce { e0 with md := 256 },
        .bcollAllreduce { e0 with md := 1 }, .bcollAllreduce { e0 with b := 1 }]),
      (.bcollRedscat { e0 with md := 1 }, [.bcollRedscat { e0 with md := 25 }]),
      (.bcollAllgath { e0 with md := 2 }, [.bcollAllgath { e0 with md := 6 }, .bcollAllgath { e0 with md := 258 }]),
      (.bcollBcast { e0 with md := 3 }, [.bcollBcast { e0 with md := 7 }]),
      (.bdig { e0 with md := 1 }, [.bdig { e0 with md := 2 }]), (.bcopy { e0 with md := 12 }, [.bcopy { e0 with md := 16 }, .bcopy { e0 with md := 5 }]),
      (.bseed { e0 with md := 1 }, [.bseed { e0 with md := 2 }, .bseed { e0 with b := 1 }]),
      (.bstat e0, [.bstat { e0 with md := 1 }, .bstat { e0 with b := 1 }]), (.bstatInfo { e0 with md := 1 }, [.bstatInfo e0]) ] := by
  decide +kernel

theorem test_wf_system_words : Refuses
    [ (.trap { y0 with sel := 5 }, [.trap { y0 with d := 1 }, .trap { y0 with a := 1 }, .trap { y0 with k := 1 },
        .trap { y0 with sc := 1 }, .trap { y0 with mask := 1 }]),
      (.sret y0, [.sret { y0 with sel := 1 }]), (.done y0, [.done { y0 with d := 1 }]),
      (.crrd { y0 with sel := 0x11A }, [.crrd { y0 with sel := 0x003 }, .crrd { y0 with sel := 0x00B }, .crrd { y0 with sel := 0x013 },
        .crrd { y0 with sel := 0x01C }, .crrd { y0 with sel := 0x024 }, .crrd { y0 with sel := 0x105 }, .crrd { y0 with sel := 0x11B },
        .crrd { y0 with a := 1 }, .crrd { y0 with mask := 1 }]),
      (.crwr { y0 with sel := 0x00A }, [.crwr { y0 with sel := 0x119 }, .crwr { y0 with d := 1 }, .crwr { y0 with sel := 0x29 },
        .crwr { y0 with k := 1 }]),
      (.crswp { y0 with d := 55, sel := 0x00A }, [.crswp { y0 with sel := 0x00A }, .crswp { y0 with d := 56, sel := 0x00A },
        .crswp { y0 with d := 1, a := 1 }, .crswp { y0 with d := 1, sel := 0x119 }, .crswp { y0 with d := 1, sel := 0x7 },
        .crswp { y0 with d := 1, sc := 1 }]),
      (.uhtopWrite .wr { y0 with sel := 0x119 }, [.uhtopWrite .wr y0, .uhtopWrite .wr { y0 with d := 1, sel := 0x119 },
        .uhtopWrite .clr { y0 with k := 1, sel := 0x119 }]),
      (.uhtopWrite .swp { y0 with d := 1, sel := 0x119 }, [.uhtopWrite .swp { y0 with sel := 0x119 },
        .uhtopWrite .swp { y0 with d := 1, a := 1, sel := 0x119 }, .uhtopWrite .swp { y0 with d := 1 }]),
      (.safept { y0 with sel := 9 }, [.safept { y0 with d := 1 }, .safept { y0 with a := 1 }, .safept { y0 with k := 1 }]) ] := by
  decide +kernel

/-! ### Decoding: a word for every instruction, laid out by hand from R71-R83 -/

/-- Words and the instructions they decode to. -/
abbrev Decodes (l : List (Nat × Instr)) : Prop := ∀ p ∈ l, decode p.1 = .ok p.2

theorem test_decode_sreg_1 : Decodes
    [ (0x0260BF0180000000, .add { r0 with ramp := 3, d := 5, a := 62, ty := 6 }),
      (0x0360BF0180000000, .sub { r0 with ramp := 3, d := 5, a := 62, ty := 6 }),
      (0x0460BF0180000000, .xor { r0 with ramp := 3, d := 5, a := 62, ty := 6 }),
      (0x0660BF0180000000, .rol { r0 with ramp := 3, d := 5, a := 62, ty := 6 }),
      (0x0760BF0180000000, .mulo { r0 with ramp := 3, d := 5, a := 62, ty := 6 }),
      (0x0524200080000000, .neg { r0 with ramp := 1, d := 33, ty := 2 }),
      (0x0802340140000000, .swap { r0 with d := 17, a := 40, ty := 5 }),
      (0x0901458046000000, .cswap { r0 with d := 10, a := 11, ty := 1, c := 12 }),
      (0x0A44400A00000000, .bperm { r0 with ramp := 2, d := 34, b := 5 }),
      (0x0A00DA0E00400000, .bpermE { r0 with d := 6, a := 52, b := 7, e := 1 }),
      (0x1040352B40000000, .add3 { r0 with ramp := 2, d := 1, a := 42, b := 21, ty := 5 }),
      (0x1140352B40000000, .sub3 { r0 with ramp := 2, d := 1, a := 42, b := 21, ty := 5 }),
      (0x1240352B40000000, .xor3 { r0 with ramp := 2, d := 1, a := 42, b := 21, ty := 5 }),
      (0x1340352B40000000, .and { r0 with ramp := 2, d := 1, a := 42, b := 21, ty := 5 }),
      (0x1440352B40000000, .or { r0 with ramp := 2, d := 1, a := 42, b := 21, ty := 5 }),
      (0x1540352B40000000, .mul { r0 with ramp := 2, d := 1, a := 42, b := 21, ty := 5 }),
      (0x1640352B40000000, .mulh { r0 with ramp := 2, d := 1, a := 42, b := 21, ty := 5 }),
      (0x1940352B40000000, .shl { r0 with ramp := 2, d := 1, a := 42, b := 21, ty := 5 }),
      (0x1A40352B40000000, .shr { r0 with ramp := 2, d := 1, a := 42, b := 21, ty := 5 }),
      (0x1B40352B40000000, .sar { r0 with ramp := 2, d := 1, a := 42, b := 21, ty := 5 }),
      (0x2140352B40000000, .cmpeq { r0 with ramp := 2, d := 1, a := 42, b := 21, ty := 5 }),
      (0x1C07F000C0000000, .mov { r0 with d := 63, a := 32, ty := 3 }),
      (0x1E07F000C0000000, .ext { r0 with d := 63, a := 32, ty := 3 }),
      (0x1F07F000C0000000, .norm { r0 with d := 63, a := 32, ty := 3 }) ] := by
  decide +kernel

theorem test_decode_sreg_2 : Decodes
    [ (0x2007F000C0000000, .popc { r0 with d := 63, a := 32, ty := 3 }),
      (0x1D03C00040000000, .clr { r0 with d := 30, ty := 1 }),
      (0x22010494C0000000, .cmplt { r0 with d := 8, a := 9, b := 10, ty := 3 }),
      (0x2301049500000000, .cmplo { r0 with d := 8, a := 9, b := 10, ty := 4 }),
      (0x1707620180000000, .min { r0 with d := 59, a := 4, ty := 6 }),
      (0x1800828080000000, .max { r0 with d := 4, a := 5, ty := 2 }),
      (0x17088281C0000000, .minK { r0 with d := 4, a := 5, ty := 7 }),
      (0x1868828080000000, .maxK { r0 with ramp := 3, d := 4, a := 5, ty := 2 }),
      (0x1716E08000000000, .minB { r0 with d := 55, a := 1 }),
      (0x1811218040000000, .maxB { r0 with d := 9, a := 3, ty := 1 }),
      (0x1008C20A00000000, .keepForm (.reg .add3 { r0 with d := 6, a := 4, b := 5 })),
      (0x1608E20B80000000, .keepForm (.reg .mulh { r0 with d := 7, a := 4, b := 5, ty := 6 })),
      (0x2310E20B80000000, .backForm (.reg .cmplo { r0 with d := 7, a := 4, b := 5, ty := 6 })) ] := by
  decide +kernel

theorem test_decode_simm : Decodes
    [ (0x0BA2A07FFFFFFFFD, .addi { i0 with ramp := 5, d := 21, ty := 7, imm := 68719476733 }),
      (0x0CA2A0780000004D, .xori { i0 with ramp := 5, d := 21, ty := 7, imm := 34359738445 }),
      (0x0DA2A0700000003F, .roli { i0 with ramp := 5, d := 21, ty := 7, imm := 63 }),
      (0x0EA2A07FFFFFFFFF, .muloi { i0 with ramp := 5, d := 21, ty := 7, imm := 68719476735 }),
      (0x2C10E200000000C8, .backForm (.imm .bfi { i0 with d := 7, a := 4, imm := 200 })),
      (0x2400764FFFFFFFFF, .andi { i0 with d := 3, a := 44, ty := 4, imm := 68719476735 }),
      (0x2500764000000001, .ori { i0 with d := 3, a := 44, ty := 4, imm := 1 }),
      (0x260076400000003F, .shli { i0 with d := 3, a := 44, ty := 4, imm := 63 }),
      (0x2700764000000005, .shri { i0 with d := 3, a := 44, ty := 4, imm := 5 }),
      (0x280076400000001F, .sari { i0 with d := 3, a := 44, ty := 4, imm := 31 }),
      (0x2901200000000003, .movi { i0 with d := 9, imm := 3 }),
      (0x2B007640000001F8, .bfx { i0 with d := 3, a := 44, ty := 4, imm := 504 }),
      (0x2C00760000000FC0, .bfi { i0 with d := 3, a := 44, imm := 4032 }) ] := by
  decide +kernel

theorem test_decode_swide : Decodes
    [ (0x0F01900000000400, .xorw { w0 with d := 12, h := 1, imm := 1024 }),
      (0x2A08F00080000000, .keepForm (.wide { w0 with d := 7, h := 1, imm := 2147483648 })),
      (0x2A251000DEADBEEF, .movw { w0 with ramp := 1, d := 40, h := 1, imm := 3735928559 }) ] := by
  decide +kernel

theorem test_decode_smem : Decodes
    [ (0x2D00CA19007FFFF0, .bpld { m0 with d := 6, a := 20, cl := 3, sc := 1, off := 8388592 }),
      (0x3400E21AC0000010, .ld { m0 with d := 7, a := 4, cl := 3, sc := 2, ty := 6, off := 16 }),
      (0x35014A0070FFFFF8, .ldx { m0 with d := 10, a := 20, ty := 3, b := 33, off := 8388600 }),
      (0x3601220A20000008, .st { m0 with d := 9, a := 4, cl := 1, sc := 2, ty := 1, off := 8 }),
      (0x3747E0FCE0000001, .stx { m0 with ramp := 2, d := 63, a := 1, cl := 15, sc := 4, ty := 7, off := 1 }),
      (0x3801621100000000, .swpm { m0 with d := 11, a := 4, cl := 2, sc := 1 }) ] := by
  decide +kernel

theorem test_decode_satm : Decodes
    [ (0x39014A0002400010, .atomAdd { a0 with d := 10, a := 20, b := 9, off := 16 }),
      (0x39014A0912400010, .atomMin { a0 with d := 10, a := 20, cl := 1, sc := 1, b := 9, off := 16 }),
      (0x39014A1222400010, .atomMax { a0 with d := 10, a := 20, cl := 2, sc := 2, b := 9, off := 16 }),
      (0x39014A1B32400010, .atomAnd { a0 with d := 10, a := 20, cl := 3, sc := 3, b := 9, off := 16 }),
      (0x39014A2442400010, .atomOr { a0 with d := 10, a := 20, cl := 4, sc := 4, b := 9, off := 16 }),
      (0x39014A2852400010, .atomXor { a0 with d := 10, a := 20, cl := 5, b := 9, off := 16 }),
      (0x39014A3162400010, .atomSwp { a0 with d := 10, a := 20, cl := 6, sc := 1, b := 9, off := 16 }),
      (0x39014A0372CC0000, .atomCas { a0 with d := 10, a := 20, sc := 3, b := 11, c := 12 }),
      (0x3900210080C0FFFC, .atomFadd { a0 with d := 1, a := 2, b := 3, off := 65532 }) ] := by
  decide +kernel

theorem test_decode_sbr : Decodes
    [ (0x3000061A7FFFFFFE, .bc { b0 with a := 12, b := 13, cc := 3, off := 536870910 }),
      (0x3103E00000000064, .call { b0 with d := 31, off := 100 }),
      (0x32000F8000000000, .ret { b0 with a := 31 }),
      (0x330004801FFFFFFF, .loop { b0 with a := 9, off := 536870911 }) ] := by
  decide +kernel

theorem test_decode_ssys_1 : Decodes
    [ (0x0180000000000000, .nop { y0 with ramp := 4 }),
      (0x3A00000120004000, .fence { y0 with sc := 4, mask := 32769 }),
      (0x3B20007CFFFFC000, .tmark { y0 with ramp := 1, k := 62, sc := 3, mask := 65535 }),
      (0x3C00003E00000000, .twait { y0 with k := 31 }),
      (0x3D00C28000000000, .syexp { y0 with d := 6, a := 5 }),
      (0x3E00C28000408000, .syarr { y0 with d := 6, a := 5, mask := 258 }),
      (0x3F07D08000000000, .sywait { y0 with d := 62, a := 33 }),
      (0x4000000E00000000, .qwait { y0 with k := 7 }),
      (0x4100003E00000000, .hclaim { y0 with k := 31 }),
      (0x4200002000000000, .hrel { y0 with k := 16 }),
      (0x4340000000000000, .wsend { y0 with ramp := 2 }),
      (0x4400000000000000, .xbar y0),
      (0x45000A8000000000, .pgreq { y0 with a := 21 }),
      (0x4606E00000000040, .hpush { y0 with d := 55, sel := 64 }),
      (0x4700200000000001, .hpop { y0 with d := 1, sel := 1 }),
      (0x4800418000000000, .hspill { y0 with d := 2, a := 3 }),
      (0x4920828000000000, .hfill { y0 with ramp := 1, d := 4, a := 5 }),
      (0x4A00000000000003, .hmark { y0 with sel := 3 }),
      (0x4B00000000000002, .hchk { y0 with sel := 2 }),
      (0x4C00000000003FFF, .hdrop { y0 with sel := 16383 }),
      (0x4D01250000000000, .erase { y0 with d := 9, a := 10 }),
      (0xA800000000000005, .trap { y0 with sel := 5 }),
      (0xA900000000000000, .sret y0),
      (0xAA01200000000010, .crrd { y0 with d := 9, sel := 16 }) ] := by
  decide +kernel

theorem test_decode_ssys_2 : Decodes
    [ (0xAB00048000000011, .crwr { y0 with a := 9, sel := 17 }),
      (0xAC01200000000110, .crswp { y0 with d := 9, sel := 272 }),
      (0xAD00048000000018, .crset { y0 with a := 9, sel := 24 }),
      (0xAE0004800000001B, .crclr { y0 with a := 9, sel := 27 }),
      (0xAB00038000000119, .uhtopWrite .wr { y0 with a := 7, sel := 281 }),
      (0xAD00038000000119, .uhtopWrite .set { y0 with a := 7, sel := 281 }),
      (0xAE00038000000119, .uhtopWrite .clr { y0 with a := 7, sel := 281 }),
      (0xAC00E00000000119, .uhtopWrite .swp { y0 with d := 7, sel := 281 }),
      (0xAF00000000003FFF, .safept { y0 with sel := 16383 }),
      (0xB000000000000000, .dbgbrk y0),
      (0xB1A0000000000000, .replay { y0 with ramp := 5 }),
      (0xB200000000000000, .done y0),
      (0xB300000000000000, .kill y0) ] := by
  decide +kernel

theorem test_decode_vreg_1 : Decodes
    [ (0x5520864029F00000, .vadd { v0 with ramp := 1, vd := 2, va := 3, vb := 4, pm := 5, fmt := 3, rm := 7 }),
      (0x5620864029F00000, .vsub { v0 with ramp := 1, vd := 2, va := 3, vb := 4, pm := 5, fmt := 3, rm := 7 }),
      (0x5720864029F00000, .vmul { v0 with ramp := 1, vd := 2, va := 3, vb := 4, pm := 5, fmt := 3, rm := 7 }),
      (0x5807E0827A400000, .vfma { v0 with vd := 31, va := 16, vb := 8, vc := 4, pm := 15, fmt := 4, rm := 4 }),
      (0x5907BBC00B000000, .vmin { v0 with vd := 30, va := 29, vb := 28, pm := 1, fmt := 6 }),
      (0x5A07BBC00B000000, .vmax { v0 with vd := 30, va := 29, vb := 28, pm := 1, fmt := 6 }),
      (0x5D07BBC00B000000, .vand { v0 with vd := 30, va := 29, vb := 28, pm := 1, fmt := 6 }),
      (0x5E07BBC00B000000, .vor { v0 with vd := 30, va := 29, vb := 28, pm := 1, fmt := 6 }),
      (0x5F07BBC00B000000, .vxor { v0 with vd := 30, va := 29, vb := 28, pm := 1, fmt := 6 }),
      (0x5B00620000100000, .vabs { v0 with vd := 1, va := 17, rm := 1 }),
      (0x5C00620000100000, .vneg { v0 with vd := 1, va := 17, rm := 1 }),
      (0x600062000100001F, .vshl { v0 with vd := 1, va := 17, fmt := 2, imm := 31 }),
      (0x610062000100001F, .vshr { v0 with vd := 1, va := 17, fmt := 2, imm := 31 }),
      (0x620062000100001F, .vsar { v0 with vd := 1, va := 17, fmt := 2, imm := 31 }),
      (0x6300620018800000, .vradd { v0 with vd := 1, va := 17, pm := 3, fmt := 1 }),
      (0x6400620018800000, .vrsub { v0 with vd := 1, va := 17, pm := 3, fmt := 1 }),
      (0x6500620018800000, .vrxor { v0 with vd := 1, va := 17, pm := 3, fmt := 1 }),
      (0x6601120002800000, .vswap { v0 with vd := 4, va := 9, fmt := 5 }),
      (0x6703E32001800000, .vcmpeq { v0 with vd := 15, va := 17, vb := 18, fmt := 3 }),
      (0x6803E32001800000, .vcmplt { v0 with vd := 15, va := 17, vb := 18, fmt := 3 }),
      (0x6903E32001800000, .vcmple { v0 with vd := 15, va := 17, vb := 18, fmt := 3 }),
      (0x6A00E200018001FF, .vclass { v0 with vd := 3, va := 17, fmt := 3, imm := 511 }),
      (0x6B04232781000000, .vsel { v0 with vd := 16, va := 17, vb := 18, vc := 15, fmt := 2 }),
      (0x6C02020001C00004, .vcvt { v0 with vd := 8, va := 1, fmt := 3, rm := 4, imm := 4 }) ] := by
  decide +kernel

theorem test_decode_vreg_2 : Decodes
    [ (0x6D410A6389000006, .vscacc { v0 with ramp := 2, vd := 4, va := 5, vb := 6, vc := 7, pm := 1, fmt := 2, imm := 6 }),
      (0x6E01440001800001, .vredr { v0 with vd := 5, va := 2, fmt := 3, imm := 1 }),
      (0x6E0004000183001C, .vredrScalar { v0 with va := 2, fmt := 3, sa := 12, imm := 28 }),
      (0x6F01440000000003, .vredc { v0 with vd := 5, va := 2, imm := 3 }),
      (0x700140000080000F, .vrot { v0 with vd := 5, fmt := 1, imm := 15 }),
      (0x71014C003880000F, .vbcast { v0 with vd := 5, va := 6, pm := 7, fmt := 1, imm := 15 }),
      (0x72014C0000800008, .vxcol { v0 with vd := 5, va := 6, fmt := 1, imm := 8 }),
      (0x73031A0001A00000, .vrcp { v0 with vd := 12, va := 13, fmt := 3, rm := 2 }),
      (0x74031A0001A00000, .vrsq { v0 with vd := 12, va := 13, fmt := 3, rm := 2 }),
      (0x75031A0001A00000, .vexp2 { v0 with vd := 12, va := 13, fmt := 3, rm := 2 }),
      (0x76002A00120E0000, .vamax { v0 with va := 21, pm := 2, fmt := 4, sa := 56 }),
      (0x76002A00020B0001, .vamaxClr { v0 with va := 21, fmt := 4, sa := 44, imm := 1 }),
      (0x7700C000010247FF, .vmovs { v0 with vd := 3, fmt := 2, sa := 9, imm := 2047 }),
      (0x7700C00031024800, .vmovsAll { v0 with vd := 3, pm := 6, fmt := 2, sa := 9, imm := 2048 }),
      (0x7800060000824082, .vmovv { v0 with va := 3, fmt := 1, sa := 9, imm := 130 }),
      (0x7900443000000000, .vpand { v0 with vd := 1, va := 2, vb := 3 }),
      (0x7A00443000000000, .vpor { v0 with vd := 1, va := 2, vb := 3 }),
      (0x7B039E0000000000, .vpnot { v0 with vd := 14, va := 15 }),
      (0x7C001E0000014000, .vpany { v0 with va := 15, sa := 5 }) ] := by
  decide +kernel

theorem test_decode_vmem : Decodes
    [ (0x5021C424482FFFFF, .vld { x0 with ramp := 1, vd := 7, a := 4, cl := 2, sc := 2, pm := 2, fmt := 4, b := 5, off := 524287 }),
      (0x51220424482FFFBF, .vldx { x0 with ramp := 1, vd := 8, a := 4, cl := 2, sc := 2, pm := 2, fmt := 4, b := 5, off := 524223 }),
      (0x52224424482FFF7F, .vst { x0 with ramp := 1, vd := 9, a := 4, cl := 2, sc := 2, pm := 2, fmt := 4, b := 5, off := 524159 }),
      (0x53228424482FFF3F, .vstx { x0 with ramp := 1, vd := 10, a := 4, cl := 2, sc := 2, pm := 2, fmt := 4, b := 5, off := 524095 }),
      (0x5422C424482FFEFF, .vswpm { x0 with ramp := 1, vd := 11, a := 4, cl := 2, sc := 2, pm := 2, fmt := 4, b := 5, off := 524031 }) ] := by
  decide +kernel

theorem test_decode_ereg_1 : Decodes
    [ (0x80007FFFFACB800E, .tfetchRow { e0 with kp := 3, a := 22, b := 23, md := 14 }),
      (0x800060FFFACB800F, .tfetchCol { e0 with kp := 3, kc0 := 1, a := 22, b := 23, md := 15 }),
      (0x81003FFFF8000016, .tloadw { e0 with kp := 1, md := 22 }),
      (0x85009FFFFA8A8003, .tdrain { e0 with kp := 4, a := 20, b := 21, md := 3 }),
      (0x85009FFFFA80001F, .tdrainVec { e0 with kp := 4, a := 20, md := 31 }),
      (0x8607FFFFFA800007, .tdrainb { e0 with a := 20, md := 7 }),
      (0x8707DFFFF800003F, .anorm { e0 with kp := 62, md := 63 }),
      (0x8807FFFFF8000003, .aclr { e0 with md := 3 }),
      (0x8907FFFFF9000000, .torg { e0 with a := 8 }),
      (0x8A07FFFFF9200000, .tstat { e0 with a := 9 }),
      (0x900081FFFBC00001, .cpy { e0 with kp := 4, kc0 := 3, a := 30, md := 1 }),
      (0x910081FFFBC00001, .cpyt { e0 with kp := 4, kc0 := 3, a := 30, md := 1 }),
      (0x940081FFFBC00001, .cpfill { e0 with kp := 4, kc0 := 3, a := 30, md := 1 }),
      (0x950081FFFBC00001, .cpxor { e0 with kp := 4, kc0 := 3, a := 30, md := 1 }),
      (0x9200BFFFFBCF8000, .cpgath { e0 with kp := 5, a := 30, b := 31 }),
      (0x9300BFFFFBCF8001, .cpscat { e0 with kp := 5, a := 30, b := 31, md := 1 }),
      (0x9607FFFFF8200001, .cpswp { e0 with a := 1, md := 1 }),
      (0x9700DFFFF9200000, .cpstat { e0 with kp := 6, a := 9 }),
      (0x9800DFFFF9200182, .graftAppend { e0 with kp := 6, a := 9, md := 386 }),
      (0x9807FFFFF9200021, .graftSum { e0 with a := 9, md := 33 }),
      (0x9800C2FFF9200042, .graftSplit { e0 with kp := 6, kc0 := 5, a := 9, md := 66 }),
      (0x9E07FFFFF9200183, .gproj { e0 with a := 9, md := 387 }),
      (0x99003FFFFA8A811F, .gload { e0 with kp := 1, a := 20, b := 21, md := 287 }),
      (0x9A07FFFFFA800101, .gstore { e0 with a := 20, md := 257 }) ] := by
  decide +kernel

theorem test_decode_ereg_2 : Decodes
    [ (0x9B07FFFFF940000D, .gsetm { e0 with a := 10, md := 13 }),
      (0x9C07FFFFF9800101, .gsetb { e0 with a := 12, md := 257 }),
      (0x9D07FFFFF8000100, .gclr { e0 with md := 256 }),
      (0x9F00FFFFF9200000, .gstat { e0 with kp := 7, a := 9 }),
      (0x9F00FFFFF9200001, .gstatInfo { e0 with kp := 7, a := 9, md := 1 }),
      (0xA000BFFFFA848020, .batomAdd { e0 with kp := 5, a := 20, b := 9, md := 32 }),
      (0xA000BFFFFA8480A1, .batomMin { e0 with kp := 5, a := 20, b := 9, md := 161 }),
      (0xA000BFFFFA848022, .batomMax { e0 with kp := 5, a := 20, b := 9, md := 34 }),
      (0xA000BFFFFA8480A3, .batomAnd { e0 with kp := 5, a := 20, b := 9, md := 163 }),
      (0xA000BFFFFA848024, .batomOr { e0 with kp := 5, a := 20, b := 9, md := 36 }),
      (0xA000BFFFFA8480A5, .batomXor { e0 with kp := 5, a := 20, b := 9, md := 165 }),
      (0xA000BFFFFA848026, .batomSwp { e0 with kp := 5, a := 20, b := 9, md := 38 }),
      (0xA000BFFFFA849017, .batomCas { e0 with kp := 5, a := 20, b := 9, c := 8, md := 23 }),
      (0xA000BFFFFA8480A8, .batomFadd { e0 with kp := 5, a := 20, b := 9, md := 168 }),
      (0xA107FFFFF8210715, .bred { e0 with a := 1, b := 2, c := 3, md := 277 }),
      (0xA200C2FFFAC000E0, .bcollAllreduce { e0 with kp := 6, kc0 := 5, a := 22, md := 224 }),
      (0xA200C2FFFAC000E1, .bcollRedscat { e0 with kp := 6, kc0 := 5, a := 22, md := 225 }),
      (0xA200C2FFFAC000E2, .bcollAllgath { e0 with kp := 6, kc0 := 5, a := 22, md := 226 }),
      (0xA200C2FFFAC000E3, .bcollBcast { e0 with kp := 6, kc0 := 5, a := 22, md := 227 }),
      (0xA300FFFFFA8AAC01, .bdig { e0 with kp := 7, a := 20, b := 21, c := 22, md := 1 }),
      (0xA407FFFFFA8AAC0C, .bcopy { e0 with a := 20, b := 21, c := 22, md := 12 }),
      (0xA507FFFFFA8AAC04, .bfill { e0 with a := 20, b := 21, c := 22, md := 4 }),
      (0xA607FFFFFA800001, .bseed { e0 with a := 20, md := 1 }),
      (0xA7009FFFF9200000, .bstat { e0 with kp := 4, a := 9 }) ] := by
  decide +kernel

theorem test_decode_ereg_3 : Decodes
    [ (0xA707FFFFF9200001, .bstatInfo { e0 with a := 9, md := 1 }) ] := by
  decide +kernel

theorem test_decode_estamp : Decodes
    [ (0x8207FFFFF8278000, .tswap { s0 with stamp := 79 }),
      (0x83205FFFF827806E, .tmac { s0 with ramp := 1, kp := 2, stamp := 79, opf := 110 }),
      (0x8407FFFE4FFFFFFE, .tmacb { s0 with kc2 := 9, stamp := 4095, opf := 32766 }),
      (0x8B00A00210020000, .tnop { s0 with kp := 5, kc0 := 0, kc1 := 1, kc2 := 2, stamp := 4 }) ] := by
  decide +kernel

/-! ### Refusals and the first fetch (R83, R84) -/

theorem test_decode_refusals :
    decode 0x0200A30000000001 = .error .reserved ∧ decode 0x0208A30000000000 = .error .illegal ∧
    decode 0x02E0A30000000000 = .error .illegal ∧ decode 0x1018828080000000 = .error .illegal ∧
    decode 0x3900000090000000 = .error .reserved ∧ decode 0xA00000000000000F = .error .reserved ∧
    decode 0x9800000000000060 = .error .reserved := by decide +kernel

theorem test_decode_unassigned :
    ∀ op ∈ [0x00, 0x2E, 0x2F, 0x4E, 0x4F, 0x7D, 0x7F, 0x8C, 0x8F, 0xB4, 0xFF],
      decode (op * 2 ^ 56 + 7) = .ok (.illegalInstruction (BitVec.ofNat 64 (op * 2 ^ 56 + 7))) := by decide +kernel

/-! ### States -/

/-- Four pages of the scratchpad of core 0. -/
def near : Extent :=
  { ps := 0, vbase := 0x100000, npg := 4, rd := true, wr := true, ex := false, abs := false, cmp := false, expt := 0
    pbase := spadPa 0 0 0x1000, serviced := false, requested := false }
/-- A page of text in DRAM. -/
def code : Extent := { near with vbase := 0x200000, npg := 1, wr := false, ex := true, pbase := paMk 0 0 0 0x5000000 }
/-- An absent page. -/
def away : Extent := { near with vbase := 0x300000, npg := 1, abs := true }
/-- A page of data in DRAM. -/
def dram : Extent := { near with vbase := 0x400000, npg := 1, pbase := paMk 0 0 0 0x6000000 }

/-- A unit about to issue, with a few bits on both partitions of its trug. -/
def go : State :=
  { State.reset with
    agenda := []
    plat := { Platform.reset with power := .ready }
    core := { Core.reset 0 with
      run := .running, pc := 0x200000, xvec := 0x200100, extents := [near, code, away, dram]
      s := [(1, 0x100000), (2, 0x100010), (3, 3), (4, 0x100040), (5, 0x200001), (6, 0x400000), (7, 0x300000)]
      ut := { Trug.reset 262144 with bits := 5, top := 8, hm1 := 8 }, st := { Trug.reset 32768 with bits := 9, top := 8 } } }

/-- The same in the system view. -/
def sysGo : State := onCore go (fun c => { c with view := .system })
/-- A register set. -/
def put (s : State) (n : Nat) (v : Word) : State := onCore s (·.setReg n v)
/-- An uncorrectable error in the code word at a physical address. -/
def marred (pa : Nat) : State := { go with ecc := [codeWord pa] }
/-- The trug full to its limit. -/
def fullTrug : State := onCore go (fun c => { c with ut := { c.ut with lim := 8 } })
/-- The trug empty. -/
def emptyTrug : State := onCore go (fun c => { c with ut := Trug.reset 262144 })

theorem test_placed_word_issues : fetchWord (State.reset.withFetchWord 64 0x2901200000000003) = 0x2901200000000003 ∧
    fetchStop (State.reset.withFetchWord 64 0x2901200000000003) = none := by decide +kernel

/-- R206, line 1: movi.i64 s9, 3 puts 3 in flight for s9. -/
theorem test_movi_issues :
    (match exec (.movi { i0 with d := 9, imm := 3 }) go with
      | .next t => decide (t.core.pend = [{ due := 1, land := .sreg 9 0 64 3, acc := 0 }]) && t.core.ebits == 64
      | _ => false) = true := by decide +kernel

/-- R370: the test vector of the digest. -/
theorem test_digest_vector : digestOf [1, 0] = (0x0A5517EEA53C8D7C, 0xBFE3828AB5F387E8) := by decide +kernel

/-- R22: RAMPHINT at 85 and at 105 degrees. -/
theorem test_ramphint : rampHint 0 = 3 ∧ rampHint (16 * 20) = 2 := by decide +kernel

/-- R189: 0xAAAB is the inverse of 3 at 16 bits. -/
theorem test_mulo_inverse :
    (match exec (.mulo { r0 with d := 1, a := 3, ty := 2 }) (put go 1 0xAAAB) with
      | .next t => decide (t.core.pend = [{ due := 3, land := .sreg 1 0 16 1, acc := 0 }])
      | _ => false) = true := by decide +kernel

/-! ### A state and operands for every statement with hypotheses -/

/-- Every word of a list is well formed, and ready. -/
abbrev Ready (s : State) (l : List (Instr × Issue)) : Prop := ∀ p ∈ l, p.1.wf = true ∧ p.2.ready s

theorem witness_ReversibleWords : Ready go (reversible go { r0 with d := 5 }) := by decide +kernel

theorem witness_ReversibleWords_immediate :
    Ready go (reversibleImm go { i0 with d := 5, imm := 63 }) ∧ Ready go [(.xorw { w0 with d := 5, h := 1 }, xorw go { w0 with d := 5, h := 1 })] := by
  decide +kernel

theorem witness_ReversibleWords_exchange :
    let f : SregW := { r0 with d := 1, a := 2 }
    let g : SregW := { f with c := 3 }
    Ready go [(.swap f, exchange go f [f.d, f.a] true),
      (.cswap g, exchange go g [g.d, g.a, g.c] ((srcVal go g.c).getLsbD 0))] := by decide +kernel

theorem witness_ErasingWords :
    Ready go (erasingRegs go { r0 with d := 56, ty := 3 }).dropLast ∧ Ready go ((erasingRegs go { r0 with d := 56, ty := 4 }).drop 17) := by
  decide +kernel

theorem witness_ErasingWords_immediate :
    Ready go (erasingImms go { i0 with d := 5 } { w0 with d := 5, h := 1 }) := by decide +kernel

/-- movi.i8 s1, -1. -/
def minusOne : EForm := .imm .movi { i0 with d := 1, ty := 3, imm := 2 ^ 36 - 1 }

theorem witness_KeepAndBackForms :
    (Instr.keepForm minusOne).wf = true ∧ (Instr.backForm minusOne).wf = true ∧ (plainOf go minusOne).2.2.1 = 8 ∧
    (kept go minusOne 255).ready go ∧ (kept fullTrug minusOne 255).ready fullTrug ∧ (kept emptyTrug minusOne 255).ready emptyTrug := by
  decide +kernel

theorem witness_KeepAndBackForms_depth :
    go.core.trug.top + 8 ≤ go.core.trug.lim ∧ fullTrug.core.trug.lim < fullTrug.core.trug.top + 8 ∧
    go.core.trug.base + 8 ≤ go.core.trug.top ∧ emptyTrug.core.trug.top < emptyTrug.core.trug.base + 8 := by decide +kernel

/-- A write of 9 to HLIM has still to land. -/
def limiting : State := onCore go (fun c => { c with pend := [{ due := 1, land := .creg 0x11A 9, acc := 0 }] })

theorem witness_KeepAndBackForms_limits :
    underLimits go.core (go.core.trug.top + 8) ∧ ¬ underLimits fullTrug.core (fullTrug.core.trug.top + 8) ∧
    underLimits limiting.core (limiting.core.trug.top + 1) ∧ ¬ underLimits limiting.core (limiting.core.trug.top + 8) := by
  have none_ : go.core.pend = [] := by decide +kernel
  refine ⟨⟨by decide +kernel, by simp [none_]⟩, fun h => absurd h.1 (by decide +kernel), ⟨by decide +kernel, ?_⟩,
    fun h => absurd (h.2 _ (List.mem_singleton_self _) 9 rfl) (by decide +kernel)⟩
  intro p hp v hv
  obtain rfl := List.mem_singleton.mp hp
  obtain rfl : (9 : Word) = v := by simpa [limiting, go, onCore, Core.reset] using hv
  decide +kernel

theorem witness_PopUndoesPush :
    let t : Trug := go.core.ut
    t.base ≤ t.top ∧ t.bits < 2 ^ t.depth ∧ 1 < 2 ^ 1 := by decide +kernel

theorem witness_MinMaxWords :
    let f : SregW := { r0 with d := 55, a := 1, ty := 3 }
    Ready go [(.min f, minmax go false f), (.max f, minmax go true f), (.minK f, ordered go f false), (.maxK f, ordered go f true),
      (.minB f, ordered go f false), (.maxB f, ordered go f true)] ∧
    (ordered fullTrug f true).ready fullTrug ∧ (ordered emptyTrug f false).ready emptyTrug := by decide +kernel

theorem witness_MinMaxWords_depth :
    go.core.trug.top + 1 ≤ go.core.trug.lim ∧ fullTrug.core.trug.lim < fullTrug.core.trug.top + 1 ∧
    go.core.trug.base + 1 ≤ go.core.trug.top ∧ emptyTrug.core.trug.top < emptyTrug.core.trug.base + 1 := by decide +kernel

theorem witness_FlowWords :
    let f : SbrW := { b0 with a := 1, off := 2 ^ 29 - 1 }
    let g : SbrW := { b0 with d := 55, off := 2 ^ 28 - 1 }
    Ready go [(.nop { y0 with ramp := 5 }, Issue.plain go [.ctl] 5 [] [] 0), (.bc { f with cc := 6 }, flow go f [1, 0] [] 0),
      (.call g, flow go g [] [dueAt go 1 0 (.sreg 55 0 64 0)] 0), (.ret { b0 with a := 1 }, flow go { b0 with a := 1 } [1] [] 0),
      (.ret { b0 with a := 5 }, flow go { b0 with a := 5 } [5] [] 0),
      (.loop f, flow go f [1] [dueAt go 1 0 (.sreg 1 0 64 0)] 0)] ∧
    (srcVal go 1).toNat % 8 = 0 ∧ (srcVal go 5).toNat % 8 ≠ 0 := by decide +kernel

/-- A pattern that is no bijection. -/
def zPattern : State := onCore go (fun c => { c with bp := [(7, 128 :: (List.range 127).map (BitVec.ofNat 8))] })

theorem witness_PermuterWords :
    let f : SregW := { r0 with d := 54, b := 7 }
    let g : SregW := { r0 with d := 2, a := 4, b := 7, e := 1 }
    (Instr.bperm f).wf = true ∧ (Instr.bpermE g).wf = true ∧ (permuted go f 54 0 0).ready go ∧ (permuted go g 4 0 128).ready go ∧
    (permuted zPattern f 54 0 0).ready zPattern ∧ (∀ b ∈ go.core.pattern 7, b.toNat < 128) ∧
    ¬ ∀ b ∈ zPattern.core.pattern 7, b.toNat < 128 := by decide +kernel

theorem witness_PermuterWords_bijection : (go.core.pattern 7).Nodup := by
  have h : (go.core.pattern 7).map BitVec.toNat = List.range 128 := by decide +kernel
  exact List.Nodup.of_map BitVec.toNat (h ▸ List.nodup_range)

theorem witness_PermuterWords_routes :
    routes (go.core.pattern 7) (pair go 4) (pair go 4) ∧ routes (zPattern.core.pattern 7) (pair zPattern 54) 0 := by
  unfold routes; decide +kernel

theorem witness_PatternLoad :
    let f : SmemW := { m0 with d := 7, a := 1 }
    (Instr.bpld f).wf = true ∧ addrOf go 1 23 0 % 16 = 0 ∧ (ownSpad go go.core (addrOf go 1 23 0) 128).isSome ∧
    (readPlaces go (placesOf go go.core (addrOf go 1 23 0) 128 false)).toOption.isSome ∧
    (quick go .mem 0 [1] 0).ready go ∧ go.core.unitBusy go.bed.btick .perm = false ∧ addrOf go 5 23 0 % 16 ≠ 0 ∧
    ownSpad go go.core (addrOf go 6 23 0) 128 = none ∧
    ({ Issue.plain go [.perm, .mem] 0 [1] [{ due := 12, acc := 1, land := .pat 7 [] }] 1024 with own := 1024 } : Issue).ready go := by
  decide +kernel

theorem witness_PatternLoad_error :
    let s := marred (spadPa 0 0 0x1000)
    addrOf s 1 23 0 % 16 = 0 ∧ (ownSpad s s.core (addrOf s 1 23 0) 128).isSome ∧
    readPlaces s (placesOf s s.core (addrOf s 1 23 0) 128 false) = .error 0 ∧
    ({ Issue.plain s [.perm, .mem] 0 [1] [{ due := 12, acc := 1, land := .pat 7 [] }] 1024 with own := 1024 } : Issue).ready s := by
  decide +kernel

theorem witness_LoadWords :
    let f : SmemW := { m0 with d := 56, a := 2, ty := 7, off := 2 ^ 23 - 1 }
    let g : SmemW := { m0 with d := 9, a := 7, b := 55 }
    (Instr.ld f).wf = true ∧ (Instr.ldx { g with d := 1 }).wf = true ∧
    addrStop go go.core (addrOf go 2 23 f.off) 1 1 false false = none ∧ loadAbsent go.core (addrOf go 2 23 f.off) = false ∧
    readAt go (addrOf go 2 23 f.off) (placesOf go go.core (addrOf go 2 23 f.off) 1 false) = .ok 0 ∧ (load go false f 4 0).ready go ∧
    addrStop go go.core (addrOf go 7 23 0) 8 8 false false = none ∧ loadAbsent go.core (addrOf go 7 23 0) = true ∧
    (loadOfAbsent go true g).ready go ∧ (loadOfAbsent go false g).ready go := by decide +kernel

theorem witness_StoreWords :
    let f : SmemW := { m0 with d := 1, a := 2 }
    let va := addrOf go 2 23 0
    let ps := placesOf go go.core va 8 true
    (Instr.st f).wf = true ∧ (Instr.stx f).wf = true ∧ (Instr.swpm f).wf = true ∧ addrStop go go.core va 8 8 true false = none ∧
    readAt go va ps = .ok 0 ∧ (writeAt go ps 0x100000).2 = none ∧ (store go false f).ready go ∧ (store go true f).ready go ∧
    (swapMem go f 4 0).ready go ∧ (lo go 64 1).toNat = 0x100000 := by decide +kernel

theorem witness_StoreWords_dropped :
    let f : SmemW := { m0 with d := 1, a := 2, ty := 7 }
    let s := marred (spadPa 0 0 0x1010)
    let va := addrOf s 2 23 0
    (Instr.st f).wf = true ∧ (store s false f).ready s ∧ addrStop s s.core va 1 1 true false = none ∧
    (writeAt s (placesOf s s.core va 1 true) (lo s 8 1).toNat).2 = some 0 := by decide +kernel

theorem witness_AtomicWords :
    let f : SatmW := { a0 with d := 9, a := 2, b := 3 }
    let va := addrOf go 2 16 0
    ∀ p ∈ atomOps f, p.2.wf = true ∧
      (let len := if p.1 = .fadd then 4 else 8
       let ps := placesOf go go.core va len true
       addrStop go go.core va len len true true = none ∧ readAt go va ps = .ok 0 ∧ (atom go p.1 f 6 0).ready go ∧
       ∀ v, atomNew p.1 0 (srcVal go 3) (srcVal go 0) = some v → (writeAt go ps v.toNat).2 = none) := by
  intro f va p hp
  simp only [f, atomOps, List.mem_cons, List.not_mem_nil, or_false] at hp
  rcases hp with rfl | rfl | rfl | rfl | rfl | rfl | rfl | rfl | rfl <;>
    (and_intros <;> first
      | (intro v hv; cases hv; decide +kernel; done)
      | decide +kernel)

/-- A .cas that finds another value than C. -/
theorem witness_AtomicWords_cas : atomNew .cas 0 (srcVal go 3) (srcVal go 3) = none := by decide +kernel

theorem witness_AddressChecks :
    0x100001 % 8 ≠ 0 ∧ 0x500000 % 8 = 0 ∧ coreSpans go.core 0x500000 8 = none ∧
    (coreSpans go.core 0x200000 8 = some [(code, 0, 8)] ∧ code.wr = false) ∧
    (coreSpans go.core 0x300000 8 = some [(away, 0, 8)] ∧ away.wr = true ∧ away.abs = true) ∧
    (∀ w ∈ memWords go { m0 with a := 5, d := 9 } { a0 with a := 5, d := 9, b := 3 }, w.i.wf = true ∧ w.issue.ready go ∧
      addrStop go go.core w.va w.len w.len w.wr w.atom = some (.fault 0x0E 0x200001 0)) := by decide +kernel

theorem witness_AddressChecks_error :
    let s := marred (spadPa 0 0 0x1010)
    ∀ w ∈ memWords s { m0 with a := 2, d := 9 } { a0 with a := 2, d := 9, b := 3 }, w.issue.ready s ∧
      addrStop s s.core w.va w.len w.len w.wr w.atom = none ∧ loadAbsent s.core w.va = false ∧
      readPlaces s (placesOf s s.core w.va w.len w.wr) = .error 0 := by decide +kernel

/-- A page of another package. -/
def beyond : Extent := { near with vbase := 0x500000, npg := 1, pbase := paMk 1 0 0 0x6000000 }
/-- A page behind aperture 2 of die 0. -/
def behind : Extent := { near with vbase := 0x600000, npg := 1, pbase := paMk 0 0 3 (2 * 2 ^ 36) }
/-- A page at an address that nothing has. -/
def nowhere : Extent := { near with vbase := 0x700000, npg := 1, pbase := 2 ^ 52 - 4096 }
/-- They are reached before the gang commits, the aperture with a transform over DRAM. -/
def outward : State :=
  let s := onCore go (fun c => { c with extents := c.extents ++ [beyond, behind, nowhere], gang := 1 })
  setDie s { getDie s 0 with aps := tset Aperture.reset (getDie s 0).aps 2 { Aperture.reset with tgt := 0x7000000, len := 4096, ctl := 3 } }

theorem witness_AddressChecks_passes :
    coreSpans go.core 0x100010 8 = some [(near, 16, 8)] ∧ near.wr = true ∧ near.abs = false ∧ near.cmp = false ∧ paSpace near.pbase ≠ 3 ∧
    (∀ i < 8, paOk (near.pbase + (16 + i)) = true ∧ mcHolds go (near.pbase + (16 + i)) 1 = false) ∧ go.core.gang = 0 ∧
    coreSpans outward.core 0x700000 8 = some [(nowhere, 0, 8)] ∧ nowhere.abs = false ∧ paOk (nowhere.pbase + (0 + 0)) = false ∧
    (coreSpans outward.core 0x600000 8 = some [(behind, 0, 8)] ∧ behind.abs = false ∧ paSpace behind.pbase = 3 ∧
      (tget Aperture.reset (getDie outward (paDie behind.pbase)).aps (paOff behind.pbase / 2 ^ 36)).xf ≠ 0 ∧
      (match spansPlaces outward true [(behind, 0, 8)] with | .ok _ => true | _ => false) = true) ∧
    (coreSpans outward.core 0x500000 8 = some [(beyond, 0, 8)] ∧ outward.core.gang ≠ 0 ∧
      (match spansPlaces outward true [(beyond, 0, 8)] with
        | .ok ps => ps.any fun p => decide (paPkg p.pa ≠ outward.plat.pkg)
        | _ => false) = true) := by and_intros <;> decide +kernel

theorem witness_AddressChecks_homes :
    let p (pa : Nat) : Nat := (Place.one (.byte pa)).pa
    let here (pa : Nat) : Prop := paPkg (p pa) = go.plat.pkg ∧ paDie (p pa) = go.core.num / 64
    (here (spadPa 0 0 8) ∧ paSpace (p (spadPa 0 0 8)) = 2 ∧ paCore (p (spadPa 0 0 8)) = go.core.num) ∧
    (here (spadPa 0 1 8) ∧ paSpace (p (spadPa 0 1 8)) = 2 ∧ paCore (p (spadPa 0 1 8)) ≠ go.core.num) ∧
    (here (paMk 0 0 1 8) ∧ paSpace (p (paMk 0 0 1 8)) = 1) ∧ (here (paMk 0 0 0 8) ∧ paSpace (p (paMk 0 0 0 8)) = 0) ∧
    (paPkg (p (paMk 0 1 0 8)) = go.plat.pkg ∧ paDie (p (paMk 0 1 0 8)) ≠ go.core.num / 64) ∧
    paPkg (p (paMk 1 0 0 8)) ≠ go.plat.pkg := by decide +kernel

theorem witness_PlainMemory :
    findExt go.core.extents 0x103FFF = some near ∧ 0x103FFF + 1 ≤ near.vbase + near.len ∧ near.cmp = false ∧
    paSpace near.pbase ≠ 3 ∧ (∀ i < 1, paOk (near.pbase + 0x3FFF + i) = true ∧ mcHolds go (near.pbase + 0x3FFF + i) 1 = false) ∧ go.ecc = [] := by decide +kernel

/-- A recorded overshoot of class 0. -/
def owed : FaultRec := { FaultRec.none with code := 0x16, kind := 2, mask := 1 }

theorem witness_FenceAndMark :
    let s := onCore go (fun c => c.addPending owed)
    let t := onCore go (fun c => c.clearToken 62)
    let f : SsysW := { y0 with mask := 1, sc := 4 }
    (Instr.fence f).wf = true ∧ (Instr.fence y0).wf = true ∧ (quick go .mem 0 [] 0).ready go ∧ (quick s .mem 0 [] 0).ready s ∧ calm go ∧
    s.core.pending.find? (fun r => r.queue = 0 ∧ r.mask &&& 1 ≠ 0) = some owed ∧ (Instr.tmark { f with k := 62 }).wf = true ∧
    (Issue.plain t [.mem] 0 [] [] 0).ready t ∧ t.core.tokSet 62 = false ∧ go.core.tokSet 62 = true ∧
    (Instr.tmark { y0 with k := 62 }).wf = true ∧ (Issue.plain go [.mem] 0 [] [dueAt go 1 0 (.tok 62)] 0).ready go := by decide +kernel

theorem witness_FenceAndMark_owed :
    let s := onCore go (fun c => c.addPending owed)
    (Issue.plain s [.mem] 0 [] [] 0).ready s ∧ s.core.tokSet 62 = true ∧
    s.core.pending.find? (fun r => r.queue = 0 ∧ r.mask &&& 2 ≠ 0) = none := by decide +kernel

theorem witness_WaitingWords :
    let t := onCore go (fun c => c.clearToken 62)
    let f : SsysW := { y0 with a := 2, d := 3 }
    (∀ s ∈ [go, t], (quick s .ctl 0 [] 0).ready s ∧ (quick s .ctl 0 [2, 3] 64).ready s ∧ calm s ∧ s.core.handled = 63) ∧
    (Instr.twait { y0 with k := 62 }).wf = true ∧ go.core.tokSet 62 = true ∧ t.core.tokSet 62 = false ∧
    (Instr.qwait { y0 with k := 7 }).wf = true ∧ go.core.port 7 = [] ∧ (Instr.sywait f).wf = true ∧
    syncStop go (srcVal go 2).toNat (srcVal go 3) false = none ∧ syncBad go (syncPa go 0x100010) = false ∧ (Instr.wsend y0).wf = true ∧ (Instr.xbar y0).wf = true := by
  decide +kernel

theorem witness_WaitingWords_error :
    let s := marred (spadPa 0 0 0x1018)
    syncStop s (srcVal s 2).toNat (srcVal s 3) false = none ∧ syncBad s (syncPa s 0x100010) = true ∧ (quick s .ctl 0 [2, 3] 64).ready s := by
  decide +kernel

theorem witness_WaitingWords_faults :
    let s := onCore go (fun c => { c with span := true, pending := [{ owed with queue := 1, tok := 9 }, owed] })
    let t := onCore go (fun c => { c.clearToken 62 with view := .system, handled := 62 })
    (∀ x ∈ [s, t], (quick x .ctl 0 [] 0).ready x) ∧ (Instr.twait { y0 with k := 9 }).wf = true ∧
    s.core.twaitFault 9 = some { owed with queue := 1, tok := 9 } ∧ s.core.twaitFault 8 = none ∧
    s.core.accFaults.head? = some owed ∧ s.core.firstFault = some { owed with queue := 1, tok := 9 } ∧
    (t.core.view = .system ∧ t.core.handled = 62 ∧ t.core.tokSet 62 = false) := by decide +kernel

theorem witness_EndingWords_faults :
    let s := onCore go (fun c => c.addPending owed)
    (Instr.done y0).wf = true ∧ (quick s .ctl 0 [] 0).ready s ∧ s.core.firstFault = some owed := by decide +kernel

theorem witness_WaitingWords_over :
    let s (w : Wait) : State := onCore go (fun c => { c.setPort 7 [⟨1, 0, 0, 0⟩] with wait := some ⟨w, .wsend y0, 0x200000, 0, 0, [], 0⟩ })
    (∀ w ∈ [Wait.token 9, .syexp 3 0 0, .sywait (spadPa 0 0 0x1010) 0, .port 7, .gang],
      (s w).core.wait = some ⟨w, .wsend y0, 0x200000, 0, 0, [], 0⟩ ∧ (s w).core.run = .running ∧ (s w).core.event = none) ∧
    go.core.tokSet 9 = true ∧ go.core.twaitFault 9 = none ∧ go.core.accs = [] ∧ syncBad go (spadPa 0 0 0x1010) = false ∧
    genReached (readSync go.mem (spadPa 0 0 0x1010)).2.2.1 0 = true ∧ (s (.port 7)).core.port 7 ≠ [] ∧ go.core.gang = 0 ∧ go.core.pending = [] := by
  decide +kernel

theorem witness_WaitingWords_trellis_port :
    let x : QWord := ⟨1, 0, 1, 7⟩
    let s := onCore go (fun c => { c.setPort 4 [x] with wait := some ⟨.port 4, .qwait { y0 with k := 4 }, 0x200000, 0, 0, [], 0⟩ })
    s.core.port 4 = [x] ∧ x.q = 1 ∧ ∀ e ∈ s.core.tq.es, e.seq ≠ x.seq := by decide +kernel

theorem witness_WaitingWords_gang :
    let s := onCore go (fun c => { c with span := true, gang := 1 })
    (quick s .ctl 0 [] 0).ready s ∧ calm s ∧ s.core.supers = 0 ∧ (onCore go (fun c => c.setPort 7 [⟨1, 0, 0, 0⟩])).core.port 7 ≠ [] ∧
    genReached 0 0 = true ∧ genReached 0 3 = false := by decide +kernel

theorem witness_SyncWords :
    let f : SsysW := { y0 with a := 2, d := 3 }
    let s := put go 3 (2 ^ 32)
    (quick go .ctl 0 [2, 3] 64).ready go ∧ syncStop go (srcVal go 2).toNat (srcVal go 3) true = none ∧ (Instr.syexp f).wf = true ∧
    (Instr.syarr { f with mask := 1 }).wf = true ∧ (quick go .ctl 0 [6, 3] 64).ready go ∧
    addrStop go go.core 0x400000 16 16 true true = none ∧
    (placesOf go go.core 0x400000 16 true).head? = some (.one (.byte (paMk 0 0 0 0x6000000))) ∧
    (placesOf s s.core 0x100010 16 true).head? = some (.one (.byte (spadPa 0 0 0x1010))) ∧ (quick s .ctl 0 [2, 3] 64).ready s ∧
    addrStop s s.core 0x100010 16 16 true true = none ∧ 2 ^ 32 ≤ (srcVal s 3).toNat := by decide +kernel

theorem witness_HandleWords :
    let s := onCore go (fun c => c.setHandle 31 .full)
    let t := onCore go (fun c => c.setHandle 31 .filling)
    (∀ x ∈ [go, s, t], (quick x .ctl 0 [] 0).ready x) ∧ (Instr.hclaim { y0 with k := 31 }).wf = true ∧ go.core.handle 31 = .free ∧
    s.core.handle 31 = .full ∧ (Instr.hrel { y0 with k := 31 }).wf = true ∧ s.core.consumerOf 31 = false ∧
    t.core.handle 31 = .filling := by decide +kernel

theorem witness_PageRequestWord :
    (Instr.pgreq { y0 with a := 7 }).wf = true ∧ (quick go .mem 0 [7] 64).ready go ∧ (findExt go.core.extents 0x300000).isSome ∧
    (quick go .mem 0 [3] 64).ready go ∧ findExt go.core.extents 3 = none := by decide +kernel

/-- A trug of 128 bits below its base and 128 above it, with the operands of HSPILL and HFILL. -/
def halves (a n : Nat) : State :=
  put (put (onCore go (fun c => { c with ut := { c.ut with bits := 2 ^ 127, top := 256, base := 128, lim := 262144 } })) 1 (BitVec.ofNat 64 a)) 3
    (BitVec.ofNat 64 n)
/-- The area of HSPILL and HFILL lies in the scratchpad, in writable extents. -/
abbrev given (s : State) : Prop :=
  let va := (srcVal s 1).toNat
  let n := (srcVal s 3).toNat
  (ownSpad s s.core va (n / 8)).isSome ∧ ∃ l ∈ coreSpans s.core va (n / 8), ∀ x ∈ l, x.1.wr = true

theorem witness_SpillAndFill :
    let t := halves 0x100000 128
    let f : SsysW := { y0 with a := 1, d := 3 }
    let w := trugWord t f [1, 3] [dueAt t 3 0 .nothing] 128
    readPlaces t (placesOf t t.core 0x100000 16 false) = .ok (List.replicate 16 0) ∧ w.ready t ∧ (Instr.hspill f).wf = true ∧
    given t ∧ t.core.trug.base ≤ t.core.trug.top ∧ t.core.trug.base + 128 ≤ t.core.trug.top ∧ t.core.trug.lim ≤ t.core.trug.base - 128 + 262144 ∧
    (writeAt t (placesOf t t.core 0x100000 16 true) (2 ^ 127)).2 = none ∧
    (Instr.hfill f).wf = true ∧ (writeAt t (placesOf t t.core 0x100000 16 true) 0).2 = none := by
  decide +kernel

theorem witness_SpillAndFill_stops :
    let far := onCore (halves 0x100000 128) (fun c => { c with extents := { near with wr := false } :: c.extents.tail })
    (∀ s ∈ [halves 0x100000 127, halves 0x100000 262272, halves 0x100008 128, halves 0x400000 128, far],
      (trugWord s { y0 with a := 1, d := 3 } [1, 3] [dueAt s (2 + ((srcVal s 3).toNat + 1023) / 1024) 0 .nothing] (srcVal s 3).toNat).ready s) ∧
    127 % 128 ≠ 0 ∧ 262144 < 262272 ∧ 0x100008 % 16 ≠ 0 ∧ ownSpad go go.core 0x400000 16 = none ∧
    (∃ l ∈ coreSpans far.core 0x100000 16, ∃ x ∈ l, x.1.wr = false) ∧ given (halves 0x100000 256) := by decide +kernel

theorem witness_SpillAndFill_depth :
    let s := halves 0x100000 128
    let bad := { s with ecc := [codeWord (spadPa 0 0 0x1008)] }
    let m := { s with mem := wr8 s.mem (spadPa 0 0 0x1003) 9 }
    s.core.trug.top < s.core.trug.base + 256 ∧ s.core.trug.base < 256 ∧
    (let full : Trug := { s.core.ut with lim := 262272 }; 128 ≤ full.base ∧ full.base - 128 + 262144 < full.lim) ∧
    (match readPlaces bad (placesOf bad bad.core 0x100000 16 false) with | .error k => decide (k = 8) | _ => false) = true ∧
    (match readPlaces m (placesOf m m.core 0x100000 16 false) with | .ok bs => decide (bs[3]? = some 9 ∧ ∀ j < 3, bs[j]? = some 0) | _ => false) = true := by
  decide +kernel

theorem witness_SpillAndFill_limits :
    let s := (halves 0x100000 128).core
    limitsUpTo s (s.trug.base - 128 + 262144) ∧ ¬ limitsUpTo { s with ut := { s.ut with lim := 262272 } } (s.trug.base - 128 + 262143) ∧
    ¬ limitsUpTo { s with pend := [{ due := 1, land := .creg 0x11A 262145, acc := 0 }] } (s.trug.base - 128 + 262144) := by
  have none_ : (halves 0x100000 128).core.pend = [] := by decide +kernel
  refine ⟨⟨by decide +kernel, by simp [none_]⟩, fun h => absurd h.1 (by decide +kernel),
    fun h => absurd (h.2 _ (List.mem_singleton_self _) 262145 rfl) (by decide +kernel)⟩

theorem witness_EraseWord :
    let s := put go 3 16
    let f : SsysW := { y0 with a := 1, d := 3 }
    let w : Issue := { trugWord s f [1, 3] [dueAt s 3 0 .nothing] 128 with cells := 128 }
    (Instr.erase f).wf = true ∧ w.ready s ∧ (srcVal s 3).toNat % 16 = 0 ∧ 16 ≤ (srcVal s 3).toNat ∧ (srcVal s 1).toNat % 16 = 0 ∧
    ownSpad s s.core 0x100000 16 = some [(spadPa 0 0 0x1000, 16)] ∧
    addrStop s s.core 0x100000 16 16 true false = none := by decide +kernel

theorem witness_EraseWord_stops :
    let w (s : State) (a n : Nat) : Issue := { trugWord s { y0 with a := a, d := 3 } [a, 3] [dueAt s 3 0 .nothing] (8 * n) with cells := 8 * n }
    let s := put go 3 16
    let odd : Issue := { trugWord go { y0 with a := 1, d := 3 } [1, 3] [dueAt go 3 0 .nothing] 24 with cells := 24 }
    odd.ready go ∧ (srcVal go 3).toNat % 16 ≠ 0 ∧ (w s 5 16).ready s ∧ addrStop s s.core 0x200001 16 16 true false = some (.fault 0x0E 0x200001 0) ∧
    (w s 6 16).ready s ∧ addrStop s s.core 0x400000 16 16 true false = none ∧ ownSpad s s.core 0x400000 16 = none := by decide +kernel


/-! ### Engine words -/

/-- Operands that the engine words' checks let through. -/
def eng : State := put (put go 10 (2 ^ 16 + 2 ^ 32)) 11 512

/-- Word n of a list passes every check at issue. -/
abbrev passes (s : State) (l : List EngineWord) (n : Nat) : Bool :=
  l[n]?.any fun w => w.i.wf && decide ((w.issue s).ready s) && decide (¬ w.reuses s) && decide (¬ w.full s) && (w.bads.find? (·.1)).isNone

/-- A column-1 core whose token 5 is clear, with full queues. -/
def jammed : State :=
  let e := mkEntry go (.aclr e0) .trellis []
  let q (n : Nat) : EQueue := { es := List.replicate n e, seq := n, flt := false, next := 0 }
  onCore eng (fun c => { c with num := 1, clearTok := [5], reserved := [31], tq := q 32, gq := q 16, bq := q 32, cq := q 32 })
/-- The same core with its queues empty. -/
def column1 : State :=
  onCore jammed (fun c => { c with tq := EQueue.reset, gq := EQueue.reset, bq := EQueue.reset, cq := EQueue.reset })

theorem witness_EngineWordsAccepted :
    (∀ n ∈ [0, 6], passes eng (trellisWords eng { e0 with b := 10 } s0) n) ∧ passes eng (trellisWords eng { e0 with b := 10, md := 1 } s0) 1 ∧
    (∀ n ∈ [2, 3, 4, 8, 9, 10, 11, 12, 13], passes eng (trellisWords eng e0 s0) n) ∧
    passes eng (trellisWords eng e0 { s0 with stamp := 1, opf := 2 ^ 14 }) 5 ∧ passes eng (trellisWords eng { e0 with md := 16 } s0) 7 := by
  decide +kernel

/-- Word n of a list is well formed and ready, and fails its own check with this code, address and detail. -/
abbrev fails (s : State) (l : List EngineWord) (n code addr detail : Nat) : Bool :=
  l[n]?.any fun w => w.i.wf && decide ((w.issue s).ready s) && decide (¬ w.reuses s) && decide (¬ w.full s) &&
    decide (w.bads.find? (·.1) = some (true, code, addr, detail))

theorem witness_EngineWordsAccepted_stops :
    let l := trellisWords column1 { e0 with a := 2, b := 10, md := 17 } { s0 with stamp := 1, opf := 2 ^ 10 }
    fails column1 (trellisWords column1 { e0 with a := 5, b := 10 } s0) 0 0x0E 0x200001 0 ∧
    fails column1 (trellisWords column1 e0 s0) 6 0x02 0 0 ∧ fails column1 l 5 0x02 0 0 ∧
    fails (put column1 2 (31 * 2 ^ 16)) (trellisWords (put column1 2 (31 * 2 ^ 16)) { e0 with a := 2, md := 17 } s0) 7 0x04 0 31 ∧
    fails (put column1 2 1) (trellisWords (put column1 2 1) { e0 with a := 2, md := 17 } s0) 7 0x02 0 0 := by decide +kernel

theorem witness_EngineWordsAccepted_queues :
    let w := ereg (.aclr { e0 with kp := 5 }) .trellis { e0 with kp := 5 } []
    let v := ereg (.gclr e0) .graft e0 []
    let u := ereg (.aclr { e0 with kp := 5, kc1 := 5 }) .trellis { e0 with kp := 5, kc1 := 5 } []
    w.reuses jammed ∧ u.reuses go ∧ ¬ w.reuses go ∧ v.full jammed ∧ w.full jammed ∧ ¬ v.reuses jammed ∧ ¬ v.full go ∧
    w.i.wf = true ∧ v.i.wf = true ∧ u.i.wf = true ∧ (w.issue jammed).ready jammed ∧ (v.issue jammed).ready jammed := by decide +kernel

theorem witness_EngineWordsAccepted_graft :
    (∀ n ∈ [0, 3, 4, 5, 6, 7, 8, 9], passes eng (graftWords eng e0) n) ∧ passes eng (graftWords eng { e0 with md := 32 }) 1 ∧
    passes eng (graftWords eng { e0 with md := 64 }) 2 ∧ passes eng (graftWords eng { e0 with md := 1 }) 10 ∧
    fails eng (graftWords eng { e0 with a := 10, md := 68 }) 6 0x02 0 0 ∧ fails eng (graftWords eng { e0 with a := 5, md := 1 }) 5 0x0E 0x200001 0 := by
  decide +kernel

theorem witness_EngineWordsAccepted_bank :
    (∀ n ∈ List.range 9, passes eng (bankWords eng { e0 with md := n }) n) ∧ passes eng (bankWords eng { e0 with c := 11, md := 16 }) 9 ∧
    (∀ n ∈ [10, 11, 12], passes eng (bankWords eng { e0 with c := 11 }) n) ∧ passes eng (bankWords eng e0) 13 ∧
    fails eng (bankWords eng { e0 with md := 1 }) 14 0x02 0 0 ∧ fails eng (bankWords eng e0) 11 0x02 0 0 ∧
    fails eng (bankWords eng { e0 with a := 5 }) 0 0x0E 0x200001 0 := by decide +kernel

/-- A unit of two groups: a leader of group 3 and the only member of group 255, with the descriptor of the latter at
0x100040. -/
def grouped : State :=
  let s := onCore go (fun c => { c with
    groups := [{ cgid := 3, n := 4, nr := 2, rank := 1, issued := 9, vres := 0, vgen := 0, minor := 0 },
               { cgid := 255, n := 1, nr := 1, rank := 0, issued := 0, vres := 0, vgen := 0, minor := 0 }]
    seedctl := BitVec.ofNat 64 (3 + 2 ^ 32 * 65536) })
  { s with mem := wrN s.mem (spadPa 0 0 0x1040) (leBytes 64 (0x100080 + 2 ^ 64 * 0x100100 + 2 ^ 128 * 4 + 2 ^ 160 * 3 + 2 ^ 168 * 255)) }

theorem witness_EngineWordsAccepted_group :
    let s := put grouped 10 255
    passes s (bankWords s { e0 with a := 10, md := 1 }) 14 := by decide +kernel

/-- A copy word with its record's checks. -/
def copyWord (s : State) (i : Instr) (f : EregW) : EngineWord := ereg i .copy f (recordBads s i f)

theorem witness_CopyWordsAccepted :
    (∀ i ∈ copyWords e0, passes go [copyWord go i e0] 0 = true) ∧ passes go [ereg (.cpstat e0) .copy e0 []] 0 := by decide +kernel

/-- A record with one register set is stopped with this code, address and detail. -/
abbrev recordFails (n v : Nat) (i : Instr) (f : EregW) (code addr detail : Nat) : Bool :=
  let s := put go n (BitVec.ofNat 64 v)
  fails s [copyWord s i f] 0 code addr detail

theorem witness_CopyWordsAccepted_fields :
    recordFails 27 (2 ^ 63) (.cpy e0) e0 0x02 0 767 ∧ recordFails 26 (8 * 2 ^ 48) (.cpy e0) e0 0x02 0 688 ∧
    recordFails 26 (2 ^ 52) (.cpy e0) e0 0x02 0 692 ∧ recordFails 26 (5 * 2 ^ 53) (.cpy e0) e0 0x02 0 693 ∧
    recordFails 26 (2 ^ 60) (.cpscat e0) e0 0x02 0 700 ∧
    recordFails 26 (7 * 2 ^ 48 + 2 ^ 52 + 2 ^ 61) (.cpy e0) e0 0x02 0 701 ∧ recordFails 26 (2 ^ 60 + 2 ^ 63) (.cpy e0) e0 0x02 0 703 ∧
    recordFails 18 1 (.cpfill e0) e0 0x02 0 128 := by decide +kernel

theorem witness_CopyWordsAccepted_tags :
    let tag (a : Nat) : EregW := { e0 with a := a }
    let tail : EregW := { e0 with b := 5 }
    recordFails 16 600 (.cpyt e0) e0 0x02 0 0 ∧ recordFails 9 0 (.cpy (tag 5)) (tag 5) 0x0E 0x200001 0 ∧
    recordFails 9 0x900000 (.cpy (tag 9)) (tag 9) 0x0C 0x900000 0 ∧ recordFails 9 0 (.cpy (tag 6)) (tag 6) 0x0C 0x400000 2 ∧
    recordFails 26 (7 * 2 ^ 48 + 2 ^ 52) (.cpy (tag 1)) (tag 1) 0x02 0 692 ∧ recordFails 9 0 (.cpgath tail) tail 0x0E 0x200001 0 := by
  decide +kernel

theorem witness_CollectivesAccepted :
    let f : EregW := { e0 with a := 4, md := 2 ^ 6 + 2 }
    let d := 0x100080 + 2 ^ 64 * 0x100100 + 2 ^ 128 * 4 + 2 ^ 160 * 3 + 2 ^ 168 * 255
    let w := ereg (.bcollAllgath f) .bank f [(decide ((srcVal grouped 4).toNat % 64 ≠ 0), 0x0E, 0x100040, 0)]
    w.i.wf = true ∧ (w.issue grouped).ready grouped ∧ ¬ w.reuses grouped ∧ ¬ w.full grouped ∧
    (srcVal grouped 4).toNat % 64 = 0 ∧ (ownSpad grouped grouped.core 0x100040 64).isSome ∧
    readPlaces grouped (placesOf grouped grouped.core 0x100040 64 false) = .ok (leBytes 64 d) ∧
    descBad grouped.core 2 false (leNat (leBytes 64 d)) = none ∧ leNat (leBytes 64 d) / 2 ^ 168 % 256 = 255 ∧
    (∀ g, grouped.core.group 255 = some g → seedShipBad grouped.core g = none) ∧
    (∀ i ∈ [Instr.bcollAllreduce { f with md := 0 }, .bcollRedscat { f with md := 5 }, .bcollBcast { f with md := 3 }], i.wf = true) ∧
    descBad grouped.core 0 false d = none ∧ descBad grouped.core 1 false d = none ∧ descBad grouped.core 3 false d = none ∧
    (srcVal grouped 5).toNat % 64 ≠ 0 := by
  and_intros <;> first
    | (intro g hg; cases hg; decide +kernel; done)
    | decide +kernel

theorem witness_CollectivesAccepted_bseed :
    let f : EregW := { e0 with a := 3 }
    let w := ereg (.bseed f) .bank f []
    w.i.wf = true ∧ (w.issue grouped).ready grouped ∧ ¬ w.reuses grouped ∧ ¬ w.full grouped ∧ (srcVal grouped 3).toNat = 3 ∧
    (grouped.core.group 3).isSome ∧ (∀ g ∈ grouped.core.group 3, seedShipBad grouped.core g = none) ∧ go.core.group 3 = none := by
  decide +kernel

/-! ### Vector words -/

/-- A shape of 9 rows and 2 columns, v1 and v2 held, mask 1 on rows 0 and 8. -/
def vec : State := onCore go (fun c => { c with
  vshape := 0x108, v := [(1024, 7), (1024 + 8, 0x80), (2048, 3)], p := [(2048, true), (2048 + 8, true)] })

/-- Word n of the table with these operands passes its checks. -/
abbrev vpasses (f : VregW) (n : Nat) : Bool :=
  (vecTable f)[n]?.any fun w => w.1.wf && decide (vecReady vec w.1 w.2)

/-- Two-operand form, ramp 2. -/
def f1 : VregW := { v0 with ramp := 2, vd := 1, va := 2, pm := 1 }

theorem witness_VectorWordsIssue :
    (∀ n ∈ List.range 4, vpasses f1 n) ∧ (∀ n ∈ [4, 5, 6, 7, 8, 9, 10, 11, 12, 13, 14, 15, 16, 17, 18, 19, 20, 22, 23, 25, 27, 29, 30], vpasses f1 n) ∧
    (∀ n ∈ [21, 31, 32, 33], vpasses { f1 with fmt := 3, pm := 0, ramp := 3 } n) ∧ vpasses { v0 with ramp := 3, vd := 1, fmt := 2, imm := 3 } 24 := by
  decide +kernel

theorem witness_VectorWordsIssue_more :
    vpasses { v0 with ramp := 2 } 28 ∧ (∀ n ∈ [34, 42], vpasses { v0 with ramp := 2, sa := 9 } n) ∧ vpasses { v0 with ramp := 2, vd := 1, va := 2 } 41 ∧ vpasses { v0 with ramp := 2, imm := 4 } 26 ∧
    vpasses { v0 with ramp := 2, imm := 1 } 35 ∧ vpasses { v0 with ramp := 2, sa := 3, imm := 2 ^ 7 + 8 } 36 ∧
    vpasses { v0 with ramp := 2, sa := 3, imm := 2048 } 37 ∧ vpasses { v0 with ramp := 2, sa := 9, imm := 8 } 38 ∧
    (∀ n ∈ [39, 40], vpasses { v0 with ramp := 2, vd := 1, va := 2, vb := 3 } n) := by decide +kernel

/-- Draws from a log of n words in a mode. -/
def logged (mode n : Nat) : State := onCore vec (fun c => { c with
  seedctl := BitVec.ofNat 64 (mode + n * 2 ^ 32), seedlog := 0x100040, seedWord := 0x1234, seedLeft := 0 })

/-- Word n of the table draws, and passes its checks but that of the log, which it passes or not. -/
abbrev vdraws (s : State) (f : VregW) (n : Nat) (fits : Bool) : Bool :=
  (vecTable f)[n]?.any fun w => w.1.wf && decide (vecChecked s w.1 w.2 ∧ drawsSeeds s w.2 ∧ drawsOfShape s w.2 ≠ 0) &&
    if fits then decide (vecReady s w.1 w.2)
    else decide (s.core.seedctl.toNat % 8 ≠ 0 ∧
      s.core.seedctl.toNat / 2 ^ 32 < (drawsOfShape s w.2 + s.core.seedHeld - s.core.seedLeft + 3) / 4)

theorem witness_VectorWordsIssue_draws :
    let f : VregW := { f1 with fmt := 3, rm := 4, ramp := 3 }
    (∀ n ∈ [0, 25, 32], vdraws (logged 1 30) f n true) ∧ ∀ n ∈ [0, 25, 32], vdraws (logged 2 1) f n false := by decide +kernel

/-- A vector word at its last column of 2, in 9 rows. -/
def flight (i : Instr) (imm : Nat) : VFlight :=
  { i := i, pc := 0x200000, t := 0, k := 4, rows := 9, cols := 2, sa := 0, stride := 0, rm := 0, pm := [], absent := [], base := 0, sys := false
    next := 1, cap := [(imm, 5), (129, 7)], act := [imm, 129], acc := 0, resv := [], order := 0 }

theorem witness_VectorColumns :
    ∀ i ∈ [Instr.vadd f1, .vcmpeq f1, .vrxor f1, .vpnot f1, .vmovsAll f1, .vredc f1], ∃ p ∈ (vecTable f1).map (·.2),
      ((flight i 0).i, p) ∈ vecTable f1 ∧ p.kind ∈ [VKind.elem, .mask, .mbits, .cont, .movs, .colred] ∧ 1 < (flight i 0).cols ∧
      (getCore vec 0).drain = none ∧ ¬ (p.draws = true ∧ (flight i 0).rm = 4) := by decide +kernel

theorem witness_VectorColumns_draws :
    (onCore (logged 0 0) (fun c => { c with seedLeft := 1 })).core.seedLeft ≠ 0 ∧
    (∀ mode ∈ [1, 2, 3, 4], (logged mode 2).core.seedLeft = 0 ∧ (logged mode 2).core.seedctl.toNat % 8 = mode ∧
      (logged mode 2).core.seedctl.toNat / 2 ^ 32 ≠ 0 ∧ (logged mode 2).ecc = [] ∧ (logged mode 2).core.seedlog.toNat % 2 ^ 57 = 0x100040 ∧
      ∀ wr ∈ [true, false], plainAt (logged mode 2) (logged mode 2).core 0x100040 8 wr (spadPa 0 0 0x1040)) ∧
    (logged 0 2).core.seedctl.toNat % 8 = 0 := by
  refine ⟨by decide +kernel, ?_, by decide +kernel⟩
  intro mode hm
  refine ⟨by decide +revert +kernel, by decide +revert +kernel, by decide +revert +kernel, by decide +revert +kernel, by decide +revert +kernel, ?_⟩
  intro wr hw
  exact ⟨⟨near, by decide +revert +kernel⟩, by decide +revert +kernel⟩

theorem witness_VectorColumns_late :
    (∀ i ∈ [Instr.vrot f1, .vredr f1, .vamax f1, .vpany f1], ∃ p ∈ (vecTable f1).map (·.2),
      ((flight i 0).i, p) ∈ vecTable f1 ∧ p.kind ∈ [VKind.cross, .scalar] ∧ ¬ (p.draws = true ∧ (flight i 0).rm = 4)) ∧
    (let fl := flight (.vamax f1) 0
     let s := onCore vec (fun c => { c with vq := [fl] })
     (getCore s 0).num = 0 ∧ (getCore s 0).vq = [fl] ∧ fl.t < 15 ∧ 15 ≤ fl.t + 15) := by decide +kernel

theorem witness_IntegerElements :
    let f : VregW := { v0 with fmt := 2, imm := 31 }
    f.fmt ≤ 2 ∧ 1 ≤ 1 ∧ f.imm % 32 < [8, 16, 32].getD f.fmt 32 ∧ ({ v0 with imm := 7 } : VregW).imm % 32 < 8 := by decide +kernel

theorem witness_FloatRoundTrip :
    ∀ f ∈ [3, 4, 5], flt f = true ∧ 2 ^ fmtBits f - 1 < 2 ^ fmtBits f ∧ unpackF f (2 ^ fmtBits f - 1) = .nan ∧ unpackF f 1 ≠ .nan := by decide +kernel

theorem witness_FloatRoundTrip_words :
    (∀ f ∈ [3, 4, 5], flt f = true ∧ valOf f (2 ^ fmtBits f - 1) = none ∧ (valOf f (2 ^ (fmtBits f - 1))).isSome) ∧
    (∀ f ∈ [3, 4, 5], (List.range 8).all fun k => [nanOf f, infOf f false, infOf f true, one f / one f * 2 ^ fracs f, 2 ^ fracs f + 2 ^ (fracs f + expos f),
      1, 2 ^ (fracs f + expos f) + 1, 0].any fun v => decide (classOf f v = k)) := by decide +kernel

/-- A magnitude is 0 of the first pattern alone. -/
theorem magOf_zero {p : Nat} (h : magOf 3 p ≤ 0) : p = 0 := by
  by_cases hp : p / 2 ^ fracs 3 = 0
  · simpa [magOf, hp] using h
  · have : 0 < magOf 3 p := by simp only [magOf, hp, if_false]; positivity
    omega

theorem witness_FloatElements :
    roundsTo 3 0 0 (some (false, some 0)) 1 0 ∧ (2 : Nat) ≤ 4 ∧ 65535 < 2 ^ 16 ∧ (3 : Nat) ∈ [3, 5, 6] ∧
    valOf 3 0x40000000 = some (false, some (2 * one 3)) ∧ valOf 3 0xC0000000 = some (true, some (2 * one 3)) := by
  refine ⟨⟨fun p hp h _ => ?_, fun h => absurd h (by decide +kernel)⟩, by decide +kernel⟩
  have h0 : p = 0 := magOf_zero (by simpa [below] using h)
  subst h0; decide +kernel

theorem witness_FloatElements_specials :
    valOf 3 0x7FC00000 = none ∧ valOf 3 0xFF800000 = some (true, none) ∧ valOf 3 0x7F800000 = some (false, none) ∧
    valOf 3 0x80000000 = some (true, some 0) ∧ valOf 6 255 = none ∧ valOf 6 127 = some (false, some (Stmt.unit 6)) := by decide +kernel

theorem witness_LateVectorResults :
    ∀ i ∈ [Instr.vrot f1, .vbcast f1, .vxcol f1, .vredr f1, .vredrScalar f1, .vamax f1, .vamaxClr f1, .vmovv f1, .vpany f1],
      ∃ p ∈ (vecTable f1).map (·.2), ((flight i 0).i, p) ∈ vecTable f1 ∧ ¬ (p.draws = true ∧ (flight i 0).rm = 4) := by decide +kernel

/-- vld, vst and their kin on v1 through mask 1, in the shape of `vec`, elements 16 bits wide. -/
def x1 : VmemW := { x0 with ramp := 1, vd := 1, a := 1, pm := 1, fmt := 1, b := 3 }
/-- `vec` with an even row stride in s3. -/
def vecm : State := put vec 3 32

theorem witness_VectorMemoryWords : ∀ w ∈ vmemWords x1, w.1.wf = true ∧ vmemReady vecm x1 w.2.1 w.2.2.1 w.2.2.2 := by decide +kernel

theorem witness_VectorMemoryWords_load :
    let here := (activeAll vecm 1).filter (fun x => x.2 = 0 ∧ elemGone vecm x1 false x = false)
    vecm.core.drain = none ∧ vecm.ecc = [] ∧
    ∀ x ∈ here, readAt vecm (elemAddr vecm x1 x.1 0) (placesOf vecm vecm.core (elemAddr vecm x1 x.1 0) (elemBytes x1.fmt) false) = .ok 0 := by
  decide +kernel

theorem witness_VectorMemoryWords_store :
    let pas (r : Nat) : List Nat := (List.range 2).map (fun k => spadPa 0 0 (0x1000 + 32 * r + k))
    let here := (activeAll vecm 1).filter (fun x => x.2 = 0 ∧ elemGone vecm x1 true x = false)
    here = [(0, 0), (8, 0)] ∧ vecm.core.drain = none ∧ vecm.ecc = [] ∧
    (∀ x ∈ here, placesOf vecm vecm.core (elemAddr vecm x1 x.1 0) (elemBytes x1.fmt) true = (pas x.1).map (fun pa => .one (.byte pa))) ∧
    (here.flatMap (fun x => pas x.1)).Nodup ∧ ∀ x ∈ here, ∀ pa ∈ pas x.1, mcHolds vecm pa 1 = false := by decide +kernel

theorem witness_VectorMemoryWords_columns :
    let here (wr : Bool) : List Nat := ((vmemFlight vecm (.vst x1) x1 true wr).pm.filter (fun x => x / 128 = 0)).map (· % 128)
    (∀ w ∈ vmemWords x1, (vmemFlight vecm w.1 x1 w.2.1 w.2.2.2).i = w.1) ∧ x1.fmt ≠ 7 ∧ vecm.core.drain = none ∧ vecm.ecc = [] ∧
    here true = [0, 8] ∧ here false = [0, 8] ∧
    (let fl := vmemFlight vecm (.vst x1) x1 true true
     ∀ r ∈ here true, (fl.sa + BitVec.ofNat 64 r * fl.stride).toNat = elemAddr vecm x1 r 0) := by decide +kernel

/-! ### System words -/

theorem witness_ControlRegisterWords :
    let f : SsysW := { y0 with sel := 0x00A, d := 9 }
    let rd (s : State) (f : SsysW) : Issue := { crWord s 0 [] [dstLand f.d 0 64 (crRead s f.sel) 0] 64 with regs := 64 }
    (Instr.crrd f).wf = true ∧ (rd go f).ready go ∧ crAllows go.core 0x00A false ∧ ¬ crAllows go.core 0x100 false ∧
    (Instr.crrd { f with sel := 0x100 }).wf = true ∧ (Instr.crswp f).wf = true ∧
    (crWord go 0 [9] [.creg 0x00A (srcVal go 9), .sreg 9 0 64 (crRead go 0x00A)] 128).ready go ∧
    crAllows go.core 0x00A true ∧ ¬ crAllows go.core 0x020 true ∧ (Instr.crswp { f with sel := 0x020 }).wf = true := by
  decide +kernel

theorem witness_ControlRegisterWords_ranges :
    let c := go.core
    crTakes c 0x00A 8 ∧ crTakes c 0x00A 262144 ∧ ¬ crTakes c 0x00A 7 ∧ ¬ crTakes c 0x00A 262145 ∧ crTakes c 0x018 0xF7F ∧
    ¬ crTakes c 0x018 0x80 ∧ ¬ crTakes c 0x018 0x1000 ∧ crTakes c 0x019 4 ∧ ¬ crTakes c 0x019 5 ∧ crTakes c 0x01A 0xFFFFFFFF00000004 ∧
    ¬ crTakes c 0x01A 5 ∧ ¬ crTakes c 0x01A 8 ∧ crTakes c 0x01B (2 ^ 57 - 8) ∧ ¬ crTakes c 0x01B 4 ∧ ¬ crTakes c 0x01B (2 ^ 57) ∧
    crTakes c 0x100 8 ∧ ¬ crTakes c 0x100 4 ∧ crTakes c 0x11A 8 ∧ ¬ crTakes c 0x11A 7 ∧ crTakes c 0x011 (2 ^ 64 - 1) := by
  simp only [crTakes]; decide +kernel

theorem witness_ControlRegisterWords_queues :
    (∀ p < 8, (go.core.port p).length < 32) ∧ go.core.tq.es.length < 64 ∧ go.core.cq.es.length < 64 ∧ go.core.gq.es.length < 32 ∧
    go.core.bq.es.length < 64 := by decide +kernel

theorem witness_ControlRegisterWords_writes :
    let f : SsysW := { y0 with a := 3, sel := 0x100 }
    let s := put sysGo 3 8
    (∀ p ∈ crWriters s f, p.1.wf = true ∧ ({ crWord s 0 [3] [.creg 0x100 p.2] 64 with regs := 64 } : Issue).ready s) ∧
    crAllows s.core 0x100 true ∧ (∀ p ∈ crWriters s f, crTakes s.core 0x100 p.2) ∧ ¬ crAllows go.core 0x100 true ∧
    ¬ crTakes s.core 0x100 (crRead s 0x100 ||| srcVal sysGo 3) := by
  simp only [crTakes]; decide +kernel

theorem witness_ControlRegisterWords_uhtop :
    let s := put sysGo 3 7
    ∀ f ∈ [({ y0 with sel := 0x119, a := 3 } : SsysW)], ∀ p ∈ (uhtopWriters s f).take 2,
      (Instr.uhtopWrite p.1 f).wf = true ∧ s.core.view = .system ∧ s.core.ut.base ≤ 7 ∧ 7 < s.core.ut.top ∧
      ({ crWord s 0 [p.2.1] (.creg 0x119 p.2.2.1 :: p.2.2.2) 64 with own := s.core.ut.top - p.2.2.1.toNat } : Issue).ready s := by decide +kernel

theorem witness_ControlRegisterWords_uhtop_swap :
    let s := put sysGo 3 0
    let f : SsysW := { y0 with sel := 0x119, d := 3 }
    (Instr.uhtopWrite .swp f).wf = true ∧ (Instr.uhtopWrite .clr { f with d := 0, a := 3 }).wf = true ∧ (srcVal s 3).toNat < s.core.ut.top ∧
    (Issue.ready { crWord s 0 [3] [.creg 0x119 0, .sreg 3 0 64 8] 128 with own := 8 } s) ∧ (srcVal sysGo 1).toNat ≥ sysGo.core.ut.top := by decide +kernel

theorem witness_TrapWords :
    let s := onCore go (fun c => { c with pre := true, dbg := true })
    (∀ x ∈ [go, s, sysGo], (quick x .ctl 5 [] 0).ready x) ∧ s.core.pre = true ∧ s.core.view = .unit ∧ s.bed.num = s.core.num / 8 ∧
    (Instr.trap { y0 with ramp := 5, sel := 0xFFF }).wf = true ∧ (Instr.safept { y0 with ramp := 5, sel := 0xFFF }).wf = true ∧
    (Instr.dbgbrk { y0 with ramp := 5 }).wf = true ∧ (Instr.replay { y0 with ramp := 5 }).wf = true ∧
    (Instr.sret { y0 with ramp := 5 }).wf = true ∧ (sysQuick sysGo 5).ready sysGo ∧ sysGo.core.terminal = false ∧
    sysGo.core.view = .system ∧ go.core.view = .unit := by decide +kernel

theorem witness_EndingWords :
    let s := onCore sysGo (fun c => { c with terminal := true })
    let d := onCore go (fun c => { c with dying := true })
    (Instr.done y0).wf = true ∧ (Instr.kill y0).wf = true ∧ (Instr.sret y0).wf = true ∧ (quick go .ctl 0 [] 0).ready go ∧ calm go ∧
    go.core.run = .running ∧ go.core.view = .unit ∧ (sysQuick s 0).ready s ∧ s.core.view = .system ∧ s.core.terminal = true ∧
    s.core.run = .running ∧ d.core.dying = true ∧ d.core.pend = [] ∧ d.core.vq = [] := by decide +kernel

theorem witness_TrapEntry :
    let r := trapAt (bareRec go 0 0x08 1 0 0) 0x200008 0 false
    ∀ s ∈ [onCore go (fun c => { c with trap := some r, pend := [⟨0, .nothing, 0⟩] }), onCore go (fun c => { c with trap := some r, xvec := 0 }),
        onCore go (fun c => { c with trap := some { r with stop := true } })],
      s.core.vq = [] ∧ (∀ p ∈ s.core.pend, p.due ≤ s.bed.btick) ∧ r.at_ ≤ s.bed.btick ∧ s.core.run = .running := by decide +kernel

theorem witness_PreciseFaults_fetch :
    let s := onCore go (fun c => { c with extents := [{ code with pbase := paMk 0 0 0 (192 * 2 ^ 30) }] })
    let t := marred (paMk 0 0 0 0x5000000)
    places s s.core 0x200000 8 false = .error (0x0C, 4) ∧
    (match places t t.core 0x200000 8 false with | .ok ps => decide (readPlaces t ps = .error 0) | _ => false) = true := by decide +kernel

theorem witness_PreciseFaults :
    go.core.pc.toNat % 8 = 0 ∧ findExt (put go 1 0).core.extents go.core.pc.toNat = some code ∧
    findExt (onCore go (fun c => { c with pc := 0x500000 })).core.extents 0x500000 = none ∧
    findExt (onCore go (fun c => { c with pc := 0x100000 })).core.extents 0x100000 = some near ∧ near.ex = false ∧
    go.core.view = .unit ∧ sysGo.core.view = .system ∧ sysGo.core.run = .running := by decide +kernel

theorem witness_ErasureQuota :
    let s := onCore go (fun c => { c with equota := 8, ebits := 0 })
    let t := onCore sysGo (fun c => { c with equota := 64, ebits := 0 })
    (∀ p ∈ (erasingRegs s { r0 with d := 9, ty := 3 }).dropLast, p.1.wf = true ∧ p.2.ready s ∧ p.2.crosses s) ∧
    s.core.qp = false ∧ s.core.run = .running ∧ s.core.view = .unit ∧ (Instr.crwr { y0 with a := 3, sel := 0x011 }).wf = true ∧
    ({ crWord t 0 [3] [.creg 0x011 3] 64 with own := 64 } : Issue).ready t ∧ ({ crWord t 0 [3] [.creg 0x011 3] 64 with own := 64 } : Issue).crosses t ∧
    t.core.view = .system ∧ crAllows t.core 0x011 true := by decide +kernel

/-- A unit that is below its quota by 8 bits. -/
def lean : State := onCore go (fun c => { c with equota := 8 })
/-- An instruction that issues there and crosses. -/
abbrev atQuota (s : State) (p : Instr × Issue) : Prop := p.1.wf = true ∧ p.2.ready s ∧ chargesOver p.2 s

theorem witness_ErasureQuota_registers :
    (∀ p ∈ (erasingRegs lean { r0 with d := 9, ty := 3 }).dropLast, atQuota lean p) ∧
    (∀ p ∈ (erasingImms lean { i0 with d := 5 } { w0 with d := 5 }).take 7, atQuota lean p) ∧
    (∀ p ∈ (reversible lean { r0 with a := 1 }).filter (·.1.wf), atQuota lean p) ∧ (∀ p ∈ reversibleImm lean { i0 with imm := 3 }, atQuota lean p) ∧
    atQuota lean (.xorw w0, xorw lean w0) ∧ atQuota lean (.swap { r0 with a := 1 }, exchange lean { r0 with a := 1 } [0, 1] true) ∧
    atQuota lean (.max { r0 with d := 9, a := 1 }, minmax lean true { r0 with d := 9, a := 1 }) ∧
    atQuota lean (.bpermE { r0 with d := 2, a := 4, e := 1 }, permuted lean { r0 with d := 2, a := 4, e := 1 } 4 0 128) := by
  refine ⟨?_, ?_, ?_, ?_, ?_, ?_, ?_, ?_⟩ <;> decide +kernel

theorem witness_ErasureQuota_system :
    let f : SsysW := { y0 with d := 9, a := 3, sel := 0x011 }
    let s := put lean 3 16
    let e : SsysW := { y0 with a := 1, d := 3 }
    atQuota lean (.hdrop { y0 with sel := 8 }, { trugWord lean { y0 with sel := 8 } [] [] 8 with regs := 8 }) ∧
    atQuota s (.erase e, { trugWord s e [1, 3] [dueAt s 3 0 .nothing] 128 with cells := 128 }) ∧
    atQuota lean (.crrd { f with a := 0 }, { crWord lean 0 [] [dstLand 9 0 64 (crRead lean 0x011) 0] 64 with regs := 64 }) ∧
    crAllows lean.core 0x011 false ∧ crAllows lean.core 0x011 true ∧
    (∀ p ∈ crWriters lean { f with d := 0 }, atQuota lean (p.1, { crWord lean 0 [3] [.creg 0x011 p.2] 64 with own := 64 })) ∧
    ∀ p ∈ crWriters lean { f with d := 0 }, crTakes lean.core 0x011 p.2 := by
  refine ⟨?_, ?_, ?_, ?_, ?_, ?_, fun _ _ => trivial⟩ <;> decide +kernel

theorem witness_ErasureQuota_memory :
    let f : SmemW := { m0 with d := 9, a := 2 }
    let g : SmemW := { m0 with d := 9, a := 7, b := 55 }
    let h : SatmW := { a0 with d := 9, a := 2, b := 3 }
    let pat : Issue := { Issue.plain lean [.perm, .mem] 0 [1] [{ due := 12, acc := 1, land := .pat 7 [] }] 1024 with own := 1024 }
    atQuota lean (.ld f, load lean false f 4 0) ∧ atQuota lean (.ld g, loadOfAbsent lean false g) ∧ atQuota lean (.st f, store lean false f) ∧
    atQuota lean (.bpld { m0 with d := 7, a := 1 }, pat) ∧ ∀ p ∈ atomOps h, atQuota lean (p.2, atom lean p.1 h 6 0) := by
  refine ⟨?_, ?_, ?_, ?_, ?_⟩ <;> decide +kernel

/-! ### Events -/

theorem witness_ResultsLand :
    0 + 64 ≤ 64 ∧ 63 + 1 ≤ 64 ∧ (3 : Nat) < 4 ∧ (1 : Nat) < 2 ∧ (4 : Nat) ≤ 4 ∧ 0x119 ∈ crWrites .system ∧
    ([(0, 0xFF, 1), (0, 0xFF00, 2)] : List (Nat × Cont × Cont)).Pairwise (fun x y => x.1 = y.1 → x.2.1 &&& y.2.1 = 0) ∧ go.core.tq.es = [] ∧
    ([(0, true), (127, false)].map Prod.fst).Nodup ∧ (getCore go 0).drain = none ∧
    (getCore (landDue (onCore go (fun c => { c with pend := [⟨0, .nothing, 0⟩, ⟨1, .nothing, 0⟩] })) 0 0) 0).pend = [⟨1, .nothing, 0⟩] := by decide +kernel

theorem witness_ResultsLand_registers :
    (0x00A ∈ crWrites .system ∧ (0x00A : Nat) ≠ 0x119 ∧ sysGo.core.view = .system) ∧ go.core.view = .unit ∧
    go.core.ut.base ≤ (8 : Word).toNat ∧ (8 : Word).toNat ≤ go.core.ut.top := by decide +kernel

/-- Access n of a kind, with a class mask and the bits an expectation or an arrival counts. -/
def access (n : Nat) (kind : AccKind) (mask due count : Nat) : Access :=
  { mkAcc go (.ld m0) [] kind 0 0 0x100010 due [.one (.byte (spadPa 0 0 0x1010))] [] with id := n, cls := mask, opb := BitVec.ofNat 64 count }
/-- A unit with these accesses outstanding. -/
def outstanding (l : List Access) : State := onCore go (fun c => { c with accs := l })

/-- The arrival of 3 at 0x100010 in class 0. -/
def arrives (s : State) : Access :=
  { mkAcc s (.syarr { y0 with a := 2, d := 3, mask := 1 }) [2, 3] .arrive 1 0 0x100010 0 (placesOf s s.core 0x100010 16 true) [] with
    id := s.core.nextAcc }

theorem witness_SyncWords_acts :
    let s := onCore go (fun c => { c with accs := [access 0 .fence 1 0 0], nextAcc := 1 })
    let t := marred (spadPa 0 0 0x1018)
    (∀ x ∈ [go, s, t], (quick x .ctl 0 [2, 3] 64).ready x ∧ syncStop x 0x100010 3 true = none) ∧
    heldBack s.core (arrives s) ∧ ¬ heldBack go.core (arrives go) ∧ alone go.core false (arrives go) ∧
    ¬ heldBack t.core (arrives t) ∧ alone t.core false (arrives t) ∧
    syncBad go (arrives go).pa = false ∧ syncBad t (arrives t).pa = true ∧
    ¬ overshoots go .land (arrives go).pa 3 ∧ ¬ overshoots go .expect (spadPa 0 0 0x1010) 3 := by
  and_intros <;> decide +kernel

theorem witness_MemoryEvents_room :
    let held := { access 2 .load 1 0 0 with runs := [(spadPa 0 0 0x1020, 1)] }
    let a := access 3 .store 2 0 0
    let pre := [access 1 .fence 1 0 0, { held with cls := 0 }]
    let s := outstanding (pre ++ [a])
    let b : Access := { a with id := 4, cls := 3, remote := true }
    buffered a ∧ ¬ heldBack s.core a ∧ (∀ x ∈ pre, buffered x → heldBack s.core x) ∧ heldBack s.core b := by decide +kernel

theorem witness_MemoryEvents_ends :
    (∀ a ∈ [access 1 .load 0 4 0, access 1 .atomic 0 4 0, access 1 .rmw 0 4 0, access 1 .store 0 0 0, access 1 .rmw 0 0 0],
      (outstanding [a]).core.accs.find? (fun x => x.id = a.id) = some a ∧ ¬ heldBack (outstanding [a]).core a) ∧
    (∀ a ∈ [access 2 .fence 1 0 0, access 2 .tmark 1 0 0, access 2 .arrive 1 0 0, access 2 .arrive 1 0 (2 ^ 32)],
      alone (outstanding [access 1 .tmark 1 0 0, a, access 3 .store 0 0 0]).core false a) ∧
    alone (outstanding [access 1 .load 0 0 0, access 2 .tmark 1 0 0]).core false (access 2 .tmark 1 0 0) ∧
    ¬ alone (outstanding [access 1 .store 0 0 0, access 2 .tmark 1 0 0]).core false { access 2 .tmark 1 0 0 with tick := 1 } := by
  refine ⟨by decide +kernel, ?_, ?_, ?_⟩ <;> unfold alone <;> decide +kernel

theorem witness_MemoryEvents_stall :
    let s := onCore (outstanding [access 2 .fence 1 0 0]) (fun c => { c with seedctl := 1, vq := [{ flight (.vadd { f1 with fmt := 3, rm := 4 }) 0 with rm := 4 }] })
    (∃ fl ∈ s.core.vq, fl.draws = true) ∧ s.core.seedMode ≠ 0 ∧ alone s.core true (access 2 .fence 1 0 0) ∧
    ¬ alone s.core false { access 2 .fence 1 0 0 with order := 1 } := by
  and_intros <;> (try unfold alone) <;> decide +kernel

theorem witness_MemoryEvents_sync :
    let pa := spadPa 0 0 0x1010
    (access 1 .arrive 1 0 0).pa = pa ∧ syncBad go pa = false ∧ syncBad (marred pa) pa = true ∧ go.core.wait = none ∧ ¬ overshoots go .land pa (2 ^ 32 - 1) ∧ overshoots go .land pa (2 ^ 32) ∧ ¬ overshoots go .land pa 0 ∧
    ¬ overshoots go .expect pa 3 ∧ overshoots go .expect pa (2 ^ 32) ∧ (access 1 .expect 0 0 3).due ≤ (bedOf go 0).bwall ∧
    (onCore (outstanding [access 1 .expect 0 0 (2 ^ 32)]) (fun c => { c with wait := some { w := .syexp 1 0 0, i := .syexp y0, pc := 0, opa := 0, opb := 0, popped := [], ej := 0 } })).core.wait =
      some { w := .syexp 1 0 0, i := .syexp y0, pc := 0, opa := 0, opb := 0, popped := [], ej := 0 } := by decide +kernel

theorem witness_MemoryEvents_arrivals :
    (access 2 .arrive 1 1 0).due ≠ 0 ∧ (access 2 .arrive 1 0 0).due = 0 ∧
    ¬ heldBack (outstanding [access 1 .tmark 1 0 0, access 2 .arrive 1 0 0]).core (access 2 .arrive 1 0 0) ∧
    heldBack (outstanding [access 1 .fence 1 0 0, access 2 .arrive 1 0 0]).core (access 2 .arrive 1 0 0) ∧
    (bedOf go 0).bwall < (access 1 .expect 0 4 0).due := by decide +kernel

theorem witness_RemoteTimeouts :
    let a : Access := { access 1 .load 0 0 0 with remote := true, undo := [(.byte 5, 1, 2)], word := BitVec.ofNat 64 (0x34 * 2 ^ 56) }
    let b : Access := { a with word := BitVec.ofNat 64 (0x35 * 2 ^ 56) }
    (outstanding [a]).core.accs.find? (fun x => x.id = a.id) = some a ∧ a.remote = true ∧ a.kind ≠ .expect ∧ a.kind ≠ .arrive ∧
    (access 1 .expect 0 0 0).kind = .expect ∧ (∀ x ∈ a.undo, ∃ pa, x.1 = .byte pa) ∧
    a.word.toNat / 2 ^ 56 ≠ 0x35 ∧ b.word.toNat / 2 ^ 56 = 0x35 := by
  and_intros <;> first
    | decide +kernel
    | simp

theorem witness_RemoteTimeouts_sync :
    let a (kind : AccKind) (due : Nat) : Access := { access 1 kind 0 due 3 with remote := true, undo := [(.byte (spadPa 0 0 0x1010), 1, writesOf go (.byte (spadPa 0 0 0x1010)))] }
    ∀ x ∈ [a .arrive 0, a .arrive 1, a .expect 0],
      (outstanding [x]).core.accs.find? (fun y => y.id = x.id) = some x ∧ x.remote = true ∧ syncBad go x.pa = false ∧
      (∀ y ∈ x.undo, mcHolds go (spadPa 0 0 0x1010) 1 = false ∧ writesOf go y.1 = y.2.2) ∧ (x.undo.map (·.1)).Nodup := by decide +kernel

/-- A page of another package, and one of plain DRAM without a compressed form. -/
def afar : Extent := { near with vbase := 0x600000, npg := 1, pbase := paMk 1 0 0 0x5000000 }
/-- A BFILL of 8 bytes at an address. -/
def fill (va : Nat) : Entry :=
  { mkEntry go (.bfill { e0 with a := 1, b := 2, c := 3, md := 8 }) .bank [] with a := BitVec.ofNat 64 va, b := 0x1122334455667788, c := 8 }
/-- A unit whose bank queue starts with an entry. -/
def banked (e : Entry) : State :=
  onCore go (fun c => { c with extents := c.extents ++ [afar], bq := { es := [e], seq := 1, flt := true, next := 0 } })

theorem witness_RemoteTimeouts_entry :
    let e := { fill 0x400000 with i := .bcopy { e0 with a := 1, b := 2, c := 3, md := 8 }, b := 0x600000 }
    let s := banked e
    (s.core.queue .bank).es.head? = some e ∧ e.ph = .waiting ∧
    (let s1 := modCore (goOn (modCore s 0 (fun c => { c with cut := some (0x600000, false) })) 0 .bank e) 0 (fun c => { c with cut := none })
     (((getCore s1 0).queue .bank).es.head?.any (fun f => f.ph = .pushing && f.code = 0x1E)) = true) := by decide +kernel

theorem witness_RemoteTimeouts_place (wr : Bool) :
    let s := banked (fill 0x600000)
    plainRun s s.core 0x600008 8 wr (paMk 1 0 0 0x5000008) ∧ (∀ i < 8, paPkg (paMk 1 0 0 0x5000008 + i) ≠ s.plat.pkg) ∧ s.core.gang = 0 := by
  refine ⟨⟨afar, ?_⟩, ?_⟩ <;> revert wr <;> decide +kernel

/-- A bank entry over 16 bytes of another package, one word through. -/
def half (i : Instr) : Entry := { fill 0x600000 with i := i, b := 0x600000, c := 16, ph := .running, pos := 1 }

theorem witness_RemoteTimeouts_running :
    ∀ i ∈ [Instr.bcopy e0, .bfill e0], let s := banked (half i)
      s.core.bq.es.head? = some (half i) ∧ (half i).ph = .running ∧ (half i).pos < (half i).c.toNat / 8 ∧ s.core.gang = 0 ∧
      s.core.cut = none ∧ s.core.run ≠ .ended ∧ s.ecc = [] ∧ (0x600000 + 8 * (half i).pos) % 2 ^ 64 = 0x600008 := by decide +kernel

theorem witness_RemoteTimeouts_write :
    let e := half (.bfill e0)
    let s := banked e
    let s1 := modCore (goOn (modCore s 0 (fun c => { c with cut := some (0x600008, true) })) 0 .bank e) 0 (fun c => { c with cut := none })
    (s.core.queue .bank).es.head? = some e ∧
    (((getCore s1 0).queue .bank).es.head?.any (fun f => f.ph = .pushing && f.code = 0x1E)) = true ∧
    (let s2 := modCore (goOn (modCore s 0 (fun c => { c with cut := some (0x700000, true) })) 0 .bank e) 0 (fun c => { c with cut := none })
     (((getCore s2 0).queue .bank).es.head?.any (fun f => f.ph = .pushing && f.code = 0x1E)) = false) := by decide +kernel

/-- A unit whose copy queue starts with an entry. -/
def copying (e : Entry) : State := onCore go (fun c => { c with cq := { es := [e], seq := 1, flt := true, next := 0 } })
/-- An entry of a copy word with a record. -/
def copyEntry (i : Instr) (lay : List Word) : Entry := { mkEntry go i .copy [] with lay := lay }

theorem witness_EngineEvents_start :
    let e := copyEntry (.cpstat { e0 with a := 3 }) []
    let g := copyEntry (.cpy { e0 with md := 1 }) [0, 0, 0, 0, 0, 0, 0, 0, 0, 31, BitVec.ofNat 64 (2 ^ 60), 0]
    let b : Entry := mkEntry go (.bstat { e0 with a := 3 }) .bank []
    canStart (copying e).core .copy e ∧ (copying e).bed.halt = false ∧ canStart (copying g).core .copy g ∧ g.i ∈ copyWords { e0 with md := 1 } ∧
    rbit g.recNat 700 = true ∧ (copying g).core.handle (fld g.recNat 576 5) ≠ .filling ∧ fld g.recNat 576 5 = 31 ∧ canStart (banked b).core .bank b := by
  decide +kernel

theorem witness_EngineEvents_fill :
    let e := fill 0x400000
    let s := banked e
    canStart s.core .bank e ∧ s.core.gang = 0 ∧ e.pos = 0 ∧ e.c.toNat % 8 = 0 ∧ 0 < e.c.toNat ∧
    (∀ i < e.c.toNat, findExt s.core.extents (e.a.toNat + i) = some dram) ∧ e.a.toNat + e.c.toNat ≤ 2 ^ 64 ∧ dram.wr = true ∧ dram.abs = false ∧
    dram.cmp = false ∧ paSpace dram.pbase ≠ 3 ∧ s.ecc = [] ∧ s.core.cut = none ∧
    (∀ i < e.c.toNat, mcHolds s (dram.pbase + (e.a.toNat - dram.vbase) + i) 1 = false) ∧ (∀ i < e.c.toNat, paOk (dram.pbase + (e.a.toNat - dram.vbase) + i) = true ∧ paPkg (dram.pbase + (e.a.toNat - dram.vbase) + i) = s.plat.pkg) := by
  decide +kernel

theorem witness_EngineEvents_end :
    let e := { fill 0x400000 with ph := .pushing, out := [7] }
    let s := banked e
    let full := onCore s (fun c => c.setPort 7 (List.replicate 16 ⟨1, 0, 0, 0⟩))
    let c := { copyEntry (.cpfill e0) [] with ph := .pushing, pos := 2 }
    (s.core.queue .bank).es.head? = some e ∧ engineNo .bank + 3 = 7 ∧ (s.core.port 7).length + pushesInFlight s 0 7 < 16 ∧ ¬ (full.core.port 7).length + pushesInFlight full 0 7 < 16 ∧
    full.core.run ≠ .ended ∧ ({ e with out := [] }).code = 0 ∧ ({ e with code := 0x0D }).code ≠ 0 ∧ s.core.run ≠ .ended ∧
    ((copying c).core.queue .copy).es.head? = some c ∧ c.out = [] ∧ rbit c.recNat 700 = false ∧ (bedOf (copying c) 0).halt = false := by decide +kernel

theorem witness_EngineEvents_tag :
    let e : Entry := { copyEntry (.cpy { e0 with a := 2 }) [] with a := 0x100010, ph := .running, pos := 1 }
    let s := copying e
    (s.core.queue .copy).es.head? = some e ∧ e.tagVa = some 0x100010 ∧ e.pos % cntOf e.recNat 0 = 0 ∧ e.posted < e.pos * widthOf e.recNat / 8 ∧
    (match tagPlace s s.core 0x100010 with | .ok pa => decide (pa = spadPa 0 0 0x1010) | _ => false) = true ∧
    syncBad s (spadPa 0 0 0x1010) = false ∧ syncBad (marred (spadPa 0 0 0x1010)) (spadPa 0 0 0x1010) = true ∧ s.core.run ≠ .ended ∧
    ¬ overshoots s .land (spadPa 0 0 0x1010) 1 ∧ overshoots s .land (spadPa 0 0 0x1010) (2 ^ 32) := by
  decide +kernel

theorem witness_EngineEvents_page :
    go.core.extents[2]? = some away ∧ away.abs = true ∧ away.serviced = false ∧ go.core.cq.es = [] ∧ go.core.bq.es = [] ∧ go.core.gq.es = [] ∧
    go.core.tq.es = [] ∧
    (let p : Entry := { copyEntry (.cpfill e0) [] with ph := .parked, parkAddr := 0x300008 }
     (copying p).core.cq.es.head? = some p ∧ away.vbase ≤ p.parkAddr ∧ p.parkAddr < away.vbase + away.len ∧ (copying p).core.run ≠ .ended ∧
     ∀ q ∈ [EngQ.trellis, .graft, .bank], ((copying p).core.queue q).es = []) ∧
    (let s1 := setCore go { go.core with extents := go.core.extents.set 2 { away with serviced := true, requested := false } }
     ¬ ∃ k ∈ s1.core :: s1.others, k.job = go.core.job ∧ k.run ≠ .idle ∧ ∃ y ∈ k.extents, y.requested = true) := by decide +kernel

/-- A unit on bt 5 whose trellis queue starts with an entry of bt t. -/
def trellised (i : Instr) (t : Nat) : State :=
  let s := onCore go (fun c => { c with tq := { es := [{ mkEntry go i .trellis [] with t := t }], seq := 1, flt := false, next := 0 } })
  { s with bed := { s.bed with btick := 5 } }
/-- Its entry. -/
def trellisHead (s : State) : Entry := s.core.tq.es.headD (fill 0)

theorem witness_TrellisEvents :
    (∀ s ∈ [trellised (.tswap s0) 4, trellised (.aclr e0) 4, trellised (.tloadw e0) 4],
      let e := trellisHead s
      s.core.tq.es.head? = some e ∧ e.ph = .waiting ∧ e.stamp = 0 ∧ e.t + 1 ≤ (bedOf s 0).btick ∧ (∀ k ∈ e.tokens.kcs, s.core.tokSet k = true) ∧
      (∀ h ∈ consumedHandles 0 e.i, s.core.handle h ≠ .filling) ∧ s.core.run ≠ .ended ∧ s.core.num = 0 ∧ s.core.tq.next ≤ (bedOf s 0).btick ∧
      (bedOf s 0).btick < 6) ∧
    trellisCheck (trellised (.tswap s0) 4) (trellised (.tswap s0) 4).core (trellisHead (trellised (.tswap s0) 4)) = none ∧
    trellisCheck (trellised (.tloadw e0) 4) (trellised (.tloadw e0) 4).core (trellisHead (trellised (.tloadw e0) 4)) = some (0x11, 0, 0) := by
  decide +kernel

theorem witness_TrellisEvents_stamped :
    let i := Instr.tswap { s0 with stamp := 3 }
    (∀ t ∈ [2, 1], (trellisHead (trellised i t)).stamp = 3 ∧ (trellisHead (trellised i t)).ph = .waiting ∧ (trellisHead (trellised i t)).miss = 0 ∧
      (trellised i t).core.tq.next ≤ 5) ∧
    (trellisHead (trellised i 2)).t + 3 = (bedOf (trellised i 2) 0).btick ∧ (trellisHead (trellised i 1)).t + 3 < (bedOf (trellised i 1) 0).btick ∧
    trellisCheck (trellised i 2) (trellised i 2).core (trellisHead (trellised i 2)) = none ∧
    ∀ j ∈ [Instr.tnop s0, .aclr { e0 with md := 3 }, .torg e0],
      let r := { trellisHead (trellised j 4) with ph := .running, pos := 2000 }
      r.out = [] ∧ r.dur ≤ r.pos := by decide +kernel

/-- A drain of 512 bytes a row, from the start of the scratchpad's pages. -/
def drainHead : Entry := { trellisHead (trellised (.tdrain e0) 4) with a := 0x100000, b := 512 }

theorem witness_TrellisEvents_checks :
    let c := go.core
    let locked : Core := { c with extents := [{ near with wr := false }] }
    let rows := (startRows drainHead).2
    (startChecks c drainHead).find? (·.1) = none ∧
    (startChecks c (trellisHead (trellised (.tloadw e0) 4))).find? (·.1) = some (true, 0x11, 0, 0) ∧
    (startRows (trellisHead (trellised (.tnop s0) 4))).2 = [] ∧
    rows = rows.take 32 ++ (0x104000, 512) :: rows.drop 33 ∧ (∀ y ∈ rows.take 32, ownBytes go c true y.1 y.2) ∧
    ¬ ownBytes go c true 0x104000 512 ∧ ¬ ownBytes go c true (0x104000 + 0) 1 ∧
    ¬ ownBytes go locked true 0x100000 512 ∧ ¬ ownBytes go locked true (0x100000 + 0) 1 := by
  have own (c : Core) (a n : Nat) : ownBytes go c true a n ↔
      (ownSpad go c a n).isSome = true ∧ ∀ l ∈ coreSpans c a n, ∀ y ∈ l, y.1.wr = true := by simp [ownBytes]
  simp only [own]
  and_intros <;> decide +kernel

theorem witness_TrellisEvents_partner :
    let i := Instr.tmacb { s0 with stamp := 3, opf := 36 }
    let e : Entry := { mkEntry go i .trellis [] with t := 2 }
    let c (n : Nat) : Core := { go.core with num := n, slots := [], handles := [(0, .full)], tq := { es := [e], seq := 1, flt := false, next := 0 } }
    let s : State := { go with core := c 0, others := [c 1], bed := { go.bed with btick := 5 } }
    e.stamp ≠ 0 ∧ e.t + e.stamp = 5 ∧ e.miss = 0 ∧ trellisCheck s s.core e = none ∧ partnerMatches s s.core e 5 = true := by decide +kernel

theorem witness_TrellisProduct :
    let t : Tile := { el := [], exp := [], sat := false }
    t.ex 127 = 0 ∧ -(2 ^ 38) ≤ t.get 127 127 ∧ t.get 127 127 ≤ 2 ^ 38 ∧ (∀ i < 8, ∀ r < 3, ∀ k < 3, (fun i r k => (i + r + k) % 2) i r k ≤ 1) := by
  decide +kernel

/-! ### What entries move -/

/-- 64 KiB of DRAM. -/
def field : Extent := { near with vbase := 0x800000, npg := 16, pbase := 0x7000000 }
/-- The state with that extent as the first. -/
def fielded (f : Core → Core) : State := onCore go (fun c => f { c with extents := field :: c.extents })

/-- What lies in it is plain memory of the package. -/
theorem plain_field {s : State} {c : Core} {l : List Extent} (hx : c.extents = field :: l) (hs : s.plat = go.plat) {va n pa : Nat}
    (wr : Bool) (lo : 0x800000 ≤ va) (hn : 1 ≤ n) (hi : va + n ≤ 0x810000) (hp : pa + 0x800000 = va + 0x7000000) : plainAt s c va n wr pa := by
  have hl : field.len = 65536 := by decide
  have hv : field.vbase = 0x800000 := rfl
  have hf : findExt c.extents va = some field := by
    have h1 : (decide (field.vbase ≤ va) && decide (va < field.vbase + field.len)) = true := by
      simp; omega
    rw [hx, findExt, if_pos (by omega), List.find?, h1]
  have hm : go.plat.pkg = 0 ∧ go.plat.platbase = 4096 := by decide +kernel
  refine ⟨⟨field, hf, by omega, fun _ => rfl, rfl, rfl, by decide, ?_, fun i h => ⟨?_, ?_⟩⟩, fun i h => ?_⟩
  · simp only [field]; omega
  · have h0 : paSpace (pa + i) = 0 := by simp only [paSpace]; omega
    have h1 : pa + i < 2 ^ 52 := by omega
    have h2 : paOff (pa + i) < 192 * 2 ^ 30 := by simp only [paOff]; omega
    simp only [paOk, h0, h1, h2, decide_true, Bool.and_self]
  · unfold mcHolds; rw [hs, hm.2]; simp [paMk, paPkg]; omega
  · simp only [hs, hm, paPkg]; omega

/-- A unit whose trellis queue starts with an entry that has run its duration. -/
def through (i : Instr) (a b : Nat) : State :=
  let e := { mkEntry go i .trellis [] with ph := .running, pos := 9, a := BitVec.ofNat 64 a, b := BitVec.ofNat 64 b }
  fielded (fun c => { c with tq := { es := [e], seq := 1, flt := false, next := 0 } })

theorem witness_TrellisMoves :
    ∀ s ∈ [through (.tmac s0) 0 0, through (.tmacb s0) 0 0, through (.anorm e0) 0 0, through (.tloadw e0) 0 0, through (.tdrainVec e0) 0 0],
      ∃ e ∈ s.core.tq.es.head?, e.ph = .running ∧ e.dur ≤ e.pos ∧ e.out = [] ∧ e.posted = 0 ∧ e.shown = 0 ∧ e.desc = [] ∧ s.core.bad = [] ∧
        s.ecc = [] := by
  decide +kernel

/-- A TFETCH of 9 rows and 9 columns, and one of 9 rows and 128, whose handle is filling. -/
def fetching (i : Instr) (b : Word) : State :=
  onCore (trellised i 4) (fun c => { c.setHandle 0 .filling with tq := { c.tq with es := c.tq.es.map (fun e => { e with b := b }) } })

theorem witness_TrellisMoves_shape :
    ∀ x ∈ [(Instr.tfetchRow { e0 with md := 2 }, (8 + 2 ^ 8 * 8 : Word)), (Instr.tfetchCol { e0 with md := 3 }, 7 + 2 ^ 8 * 63),
        (Instr.tfetchCol { e0 with md := 3 }, 8 + 2 ^ 8 * 127)],
      let s := fetching x.1 x.2
      let e := trellisHead s
      canStart s.core .trellis e ∧ e.stamp = 0 ∧ e.t + 1 ≤ (bedOf s 0).btick ∧ s.core.tq.next ≤ (bedOf s 0).btick ∧ s.core.run ≠ .ended ∧
      s.core.handle 0 = .filling ∧
      ((e.b.toNat / 2 ^ 8 % 128 + 1) % 8 ≠ 0 ∨ e.b.toNat / 2 ^ 8 % 128 + 1 ≠ 128 ∨ (e.b.toNat % 128 + 1) % 8 ≠ 0) := by decide +kernel

theorem witness_TrellisMoves_memory :
    (let s := through (.tfetchRow { e0 with md := 2 }) 0x800000 (6 + 23 * 2 ^ 8 + 2 * 2 ^ 16 + 17 * 2 ^ 32)
     ∀ i < 2, ∀ r < 7, plainAt s s.core ((0x800000 + 16 * (i * 17 + r * 2)) % 2 ^ 64) 3 false (0x7000000 + 16 * (i * 17 + r * 2))) ∧
    (let s := through (.tfetchCol { e0 with md := 2 }) 0x800000 (6 + 127 * 2 ^ 8 + 2 * 2 ^ 16 + 17 * 2 ^ 32)
     ∀ i < 2, ∀ r < 7, plainAt s s.core ((0x800000 + 16 * (i * 17 + r * 2)) % 2 ^ 64) 16 false (0x7000000 + 16 * (i * 17 + r * 2))) ∧
    (let s := through (.tdrain e0) 0x800000 512
     ∀ r < 128, plainAt s s.core ((0x800000 + r * 512) % 2 ^ 64) 512 true (0x7000000 + r * 512)) ∧
    (let s := through (.tdrainb e0) 0x800000 0
     ∀ i r, i < 8 → r < 128 → plainAt s s.core ((0x800000 + 2048 * i + 16 * r) % 2 ^ 64) 16 true (0x7000000 + 2048 * i + 16 * r)) := by
  refine ⟨?_, ?_, ?_, ?_⟩ <;> intros <;> rw [Nat.mod_eq_of_lt (by omega)] <;>
    exact plain_field rfl rfl _ (by omega) (by omega) (by omega) (by omega)

theorem witness_TrellisMoves_lane :
    let s := through (.tmacb s0) 0 0
    s.core.num = 0 ∧ (s.core.lane.getD ([], [])).2 = [] ∧ s.core.handle 0 = .free := by decide +kernel

/-- A unit with an entry at the head of an engine's queue, its boundary two rows of four and its slot 3 full. -/
def headed (q : EngQ) (e : Entry) : State :=
  let g : Graft := { bnd := [(5, 0x3F800000)], empty := false, batch := 1, nf := 1, bd := 1, gm := [(0, 1)], bonds := [(0, 1), (1, 1)], gres := 64 }
  fielded (fun c => { c.setQueue q { es := [e], seq := 1, flt := false, next := 0 } with graft := g, handles := [(3, .full)] })
/-- An entry of a word in a phase, at 0x800000 for A. -/
def entry (i : Instr) (q : EngQ) (ph : EPhase) (b z : Nat) : Entry :=
  { mkEntry go i q [] with ph := ph, a := 0x800000, b := BitVec.ofNat 64 b, c := BitVec.ofNat 64 z }

theorem witness_GraftMoves :
    let h (i : Instr) (ph : EPhase) : State := headed .graft (entry i .graft ph 1 0)
    let l : EregW := { e0 with md := 1 }
    (∀ i ∈ [Instr.gload l, .gstore l, .gsetb l, .gclr l, .gsetm l], ∀ ph ∈ [EPhase.waiting, .running],
      steps (h i ph) 0 .graft (entry i .graft ph 1 0)) ∧
    (h (.gload l) .waiting).ecc = [] ∧ (h (.gload l) .waiting).core.bad = [] ∧ batchRow (h (.gload l) .running).core.graft = 4 ∧
    4 * 8 ≤ 4096 * (h (.gload l) .running).core.graft.gres ∧ (h (.gsetm l) .waiting).core.run ≠ .ended := by
  unfold steps; decide +kernel

theorem witness_GraftMoves_memory :
    let l : EregW := { e0 with md := 1 }
    ∀ i ∈ [Instr.gload l, .gstore l], ∀ wr k, k < 4 →
      plainAt (headed .graft (entry i .graft .running 1 0)) (headed .graft (entry i .graft .running 1 0)).core
        (((entry i .graft .running 1 0).a.toNat + 2 * k) % 2 ^ 64) 2 wr (0x7000000 + 2 * k) := by
  intro l i _ wr k _
  have h : (entry i .graft .running 1 0).a.toNat = 0x800000 := rfl
  rw [h, Nat.mod_eq_of_lt (by omega)]
  exact plain_field rfl rfl _ (by omega) (by omega) (by omega) (by omega)

/-- The operand of a contraction: Din, Dout, K and the output part of K, of bond column 0. -/
def shaped (din dout nk ok : Nat) : Word := BitVec.ofNat 64 (din - 1 + (dout - 1) * 2 ^ 12 + (nk - 1) * 2 ^ 24 + (ok - 1) * 2 ^ 40 + 2 ^ 56)

theorem witness_GraftMoves_contractions :
    let f : EregW := { e0 with md := 3 }
    ∀ p ∈ [(Instr.graftAppend f, shaped 2 2 2 1), (.graftSum f, shaped 2 2 2 1), (.graftSplit f, shaped 2 2 4 2), (.gproj f, shaped 2 2 1 1)],
      let e : Entry := { entry p.1 .graft .waiting 0 0 with a := p.2 }
      let s := headed .graft e
      steps s 0 .graft e ∧ (graftOp p.1).any (fun op => decide (s.core.handle op.h ≠ .filling)) = true ∧ graftCheck s.core e = none ∧
        e.pos ≤ s.core.graft.batch := by
  unfold steps; decide +kernel

theorem witness_GraftMoves_ends :
    let l : EregW := { e0 with md := 1 }
    ∀ i ∈ [Instr.gload l, .gstore l, .gsetm l, .gsetb l, .gclr l, .gproj l],
      let s := headed .graft (entry i .graft .pushing 1 0)
      ∃ e ∈ s.core.gq.es.head?, e.i = i ∧ e.ph = .pushing ∧ e.out = [] ∧ e.code = 0 := by decide +kernel

theorem witness_BankMoves :
    (∀ i ∈ [Instr.bcopy e0, .bred e0, .bdig e0, .bdig { e0 with c := 3 }, .batomAdd e0, .batomCas e0, .batomFadd e0], ∀ ph ∈ [EPhase.waiting, .running],
      let e := entry i .bank ph 0x800100 16
      steps (headed .bank e) 0 .bank e ∧ e.pos = 0 ∧ e.cap = []) ∧ (headed .bank (entry (.bdig e0) .bank .running 16 0)).ecc = [] := by
  unfold steps; decide +kernel

theorem witness_BankMoves_memory :
    let e := entry (.bcopy e0) .bank .running 0x800100 16
    let r := entry (.bred { e0 with md := 8 * 4 }) .bank .running 0x800100 (2 + 2 ^ 32)
    (∀ j < 2, plainAt (headed .bank e) (headed .bank e).core ((0x800100 + 8 * j) % 2 ^ 64) 8 false (0x7000100 + 8 * j) ∧
      plainAt (headed .bank e) (headed .bank e).core ((0x800000 + 8 * j) % 2 ^ 64) 8 true (0x7000000 + 8 * j)) ∧
    (∀ j < 2 * 2, plainAt (headed .bank r) (headed .bank r).core ((0x800100 + 2 * j) % 2 ^ 64) 2 false (0x7000100 + 2 * j)) ∧
    plainAt (headed .bank e) (headed .bank e).core 0x800000 16 true 0x7000000 := by
  refine ⟨fun j _ => ⟨?_, ?_⟩, fun j _ => ?_, plain_field rfl rfl _ (by omega) (by omega) (by omega) (by omega)⟩ <;>
    rw [Nat.mod_eq_of_lt (by omega)] <;> exact plain_field rfl rfl _ (by omega) (by omega) (by omega) (by omega)

theorem witness_BankMoves_atomics :
    (∀ p ∈ batoms e0, batomOp p.2 = some p.1) ∧ redOp 3 4 (2 ^ 32 - 1) 7 = 7 := by decide +kernel

/-- A copy entry over three bytes from 0x800000 to 0x800100, its indices at 0x800200. -/
def moving (i : Instr) (ph : EPhase) (r : Nat) : Entry :=
  let all := r + 2 + 2 ^ 128 + 2 ^ 320 + 2 ^ 512 * 0x800000 + 2 ^ 576 * 0x800100
  { entry i .copy ph 0x800200 0 with lay := (List.range 12).map (fun k => BitVec.ofNat 64 (all / 2 ^ (64 * k))) }

theorem witness_CopyMoves :
    ∀ i ∈ copyWords e0, ∀ ph ∈ [EPhase.waiting, .running],
      let e := moving i ph 0
      let s := headed .copy e
      steps s 0 .copy e ∧ copyCheck s.core e = none ∧ e.pos < 3 ∧ owesPosting e = false ∧ s.ecc = [] ∧ s.core.bad = [] ∧
        e.recNat % 2 ^ 96 = 2 ∧ widthOf e.recNat = 8 ∧ e.pos % 3 = 0 ∧ e.cap = [] := by
  unfold steps; decide +kernel

theorem witness_CopyMoves_addresses :
    let e := moving (.cpswp e0) .running 0
    let s := headed .copy e
    (∀ k < 3, plainAt s s.core (address e.recNat (bits e.recNat 512 64) 128 k none) 1 true (0x7000000 + k) ∧
      plainAt s s.core (address e.recNat (bits e.recNat 576 64) 320 k none) 1 true (0x7000100 + k) ∧
      ∀ x ∈ memBytes e.recNat (0x7000000 + k) 1 false ++ memBytes e.recNat (0x7000100 + k) 1 false, mcHolds s x.2 1 = false) ∧
    plainAt s s.core 0x800200 4 false 0x7000200 := by
  have h : ∀ k < 3, address (moving (.cpswp e0) .running 0).recNat 0x800000 128 k none = 0x800000 + k ∧
    address (moving (.cpswp e0) .running 0).recNat 0x800100 320 k none = 0x800100 + k := by decide +kernel
  have hb : bits (moving (.cpswp e0) .running 0).recNat 512 64 = 0x800000 ∧ bits (moving (.cpswp e0) .running 0).recNat 576 64 = 0x800100 := by
    decide +kernel
  refine ⟨fun k hk => ?_, plain_field rfl rfl _ (by omega) (by omega) (by omega) (by omega)⟩
  rw [hb.1, hb.2, (h k hk).1, (h k hk).2]
  refine ⟨plain_field rfl rfl _ (by omega) (by omega) (by omega) (by omega), plain_field rfl rfl _ (by omega) (by omega) (by omega) (by omega), ?_⟩
  revert k; decide +kernel

theorem witness_CopyMoves_index :
    let e := { moving (.cpgath e0) .running 0 with cap := [8] }
    let b := moving (.cpy e0) .running (2 ^ 688 * 7 + 2 ^ 692)
    (∃ v l, e.cap = v :: l ∧ 8 = v.toNat) ∧ widthOf b.recNat = 1 ∧ b.recNat.testBit 692 = true := by
  refine ⟨⟨8, [], rfl, rfl⟩, ?_⟩; decide +kernel

theorem witness_CopyMoves_ends :
    ∀ i ∈ copyWords e0, ∀ code ∈ [0, 0x0C],
      let s := headed .copy { moving i .pushing (2 ^ 700) with code := code }
      ∃ e ∈ s.core.cq.es.head?, e.ph = .pushing ∧ e.out = [] ∧ e.code = code := by decide +kernel

/-- A descriptor of group 5: three FP32 or integer elements from 0x800000 to 0x800040, a digest of 24 bytes, a tag. -/
def descriptor (tag : Nat) : List Byte :=
  leBytes 64 (0x800000 + 0x800040 * 2 ^ 64 + 3 * 2 ^ 128 + 2 * 2 ^ 160 + 5 * 2 ^ 168 + 0x800080 * 2 ^ 192 + 24 * 2 ^ 256 + tag * 2 ^ 320)
/-- Core k as rank k of the three of group 5, its collective in a stage. -/
def member (k : Nat) (f : EregW) (tag sh : Nat) (cap : List Word) : Core :=
  let e := { mkEntry go (.bcollAllreduce f) .bank [] with
    ph := .running, desc := descriptor tag, shown := sh, cap := cap, seedAddr := 0x8000C0, seedCnt := 2, inst := 0 }
  { (Core.reset k) with
    run := .running, extents := [field, near], job := 1, dones := [(5, 0)]
    groups := [{ cgid := 5, n := 3, nr := 3, rank := k, issued := 1, vres := 0, vgen := 0, minor := 0 }]
    bq := { es := [e], seq := 1, flt := false, next := 0 } }
/-- The three of them, core 0 with the first stage and what it has read, the others with the second. -/
def members (f : EregW) (tag sh : Nat) (cap : List Word) (sh2 : Nat) (cap2 : List Word) : State :=
  { go with core := member 0 f tag sh cap, others := [member 1 f tag sh2 cap2, member 2 f tag sh2 cap2] }

/-- The members of group 5 hold their collective at the head of their queues. -/
abbrev joined (s : State) : Prop :=
  (groupMembers s 1 5).map (·.num) = [0, 1, 2] ∧ ((s.core :: s.others).map (·.num)).Nodup ∧ s.ecc = [] ∧
  ∀ c ∈ groupMembers s 1 5, ∃ e ∈ c.bq.es.head?, e.ph = .running ∧ e.pos = 0 ∧ e.coll.isSome ∧ (c.group 5).isSome ∧ (collEntry c 5 0).isSome

theorem witness_CollectiveMoves :
    let s := members e0 0 2 [] 3 [1, 2, 3]
    let t := members e0 0 2 [] 2 []
    let now (s : State) : State := setCore s (s.core.setHead .bank { s.core.bq.es.headD (fill 0) with cap := [0, 0, 0], pos := 3, shown := 3 })
    joined s ∧ joined t ∧ stageFull (now s) 1 5 0 3 1 = true ∧ stageFull (now t) 1 5 0 3 1 = false := by decide +kernel

theorem witness_CollectiveMoves_stages :
    (∀ sh ∈ [4, 6, 8, 10, 12], joined (members e0 0x100100 sh [0, 0] sh [])) ∧
    (let f : EregW := { e0 with md := 96 }
     let s := members f 0 8 [] 10 []
     joined s ∧ s.core.bq.es.head?.any (fun e => e.coll.any (fun x => x.seeds && x.dig && decide (x.fmt = 2 ∧ x.count = 3 ∧ x.dgLen = 24))) = true ∧
     s.core.group 5 = some { cgid := 5, n := 3, nr := 3, rank := 0, issued := 1, vres := 0, vgen := 0, minor := 0 }) ∧
    (let s := members e0 0x100010 12 [] 12 []
     let pa := spadPa 0 0 0x1010
     (match tagPlace s s.core 0x100010 with | .ok x => decide (x = pa) | _ => false) = true ∧ syncBad s pa = false ∧
       ¬ overshoots s .land pa 12 ∧ overshoots { s with mem := wrN s.mem pa (leBytes 16 5) } .land pa 12 ∧ s.core.run ≠ .ended) := by decide +kernel

theorem witness_CollectiveMoves_memory :
    let s := members e0 0 4 [] 4 []
    (∀ wr, ∀ j < 3, plainAt s s.core ((0x800040 + 4 * j) % 2 ^ 64) 4 wr (0x7000040 + 4 * j)) ∧
    (∀ wr, ∀ j < 3, plainAt s s.core ((0x8000C0 + 8 * j) % 2 ^ 64) 8 wr (0x70000C0 + 8 * j)) := by
  refine ⟨fun wr j _ => ?_, fun wr j _ => ?_⟩ <;> rw [Nat.mod_eq_of_lt (by omega)] <;>
    exact plain_field rfl rfl _ (by omega) (by omega) (by omega) (by omega)

theorem witness_TrugWords :
    let s := onCore go (fun c => { c with ut := { c.ut with lim := 72 } })
    let t := go.core.ut
    (Instr.hpush { y0 with d := 1, sel := 64 }).wf = true ∧ (Instr.hpop { y0 with d := 1, sel := 8 }).wf = true ∧
    (Instr.hdrop { y0 with sel := 8 }).wf = true ∧ (Instr.hmark { y0 with sel := 3 }).wf = true ∧ (Instr.hchk { y0 with sel := 1 }).wf = true ∧
    (trugWord s { y0 with d := 1 } [1] [dueAt s 1 0 (.sreg 1 0 64 0)] 64).ready s ∧ (trugWord s y0 [] [] 0).ready s ∧
    s.core.trug.top + 64 ≤ s.core.trug.lim ∧ fullTrug.core.trug.lim < fullTrug.core.trug.top + 1 ∧ t.base + 8 ≤ t.top ∧ t.top < t.base + 9 ∧
    t.mark 1 = t.top ∧ t.mark 0 ≠ t.top := by decide +kernel

theorem witness_StepRunsTheWord :
    let s := onCore go (fun c => c)
    let w := { s with mem := wrN s.mem (paMk 0 0 0 0x5000000) (leBytes 8 0x2901200000000003) }
    fetchStop w = none ∧ fetchWord w = 0x2901200000000003 ∧ decode (fetchWord w) = .ok (.movi { i0 with d := 9, imm := 3 }) ∧
    decode (fetchWord go) = .ok (.illegalInstruction 0) ∧ fetchStop (onCore go (fun c => { c with pc := 0x500000 })) ≠ none ∧
    go.core.pc.toNat % 8 = 0 ∧ findExt go.core.extents go.core.pc.toNat = some code ∧ code.ex = true ∧ code.abs = false ∧ code.cmp = false ∧
    paSpace code.pbase ≠ 3 ∧ (∀ i < 8, paOk (code.pbase + i) = true ∧ mcHolds go (code.pbase + i) 1 = false) ∧ go.ecc = [] := by decide +kernel

theorem witness_StepRunsTheWord_due : wordDue go ∧ wordDue sysGo := by
  unfold wordDue; decide +kernel

theorem witness_EveryInstructionAnswers :
    go.core.view = .unit ∧ sysGo.core.view = .system ∧ sysGo.core.run = .running ∧
    (0xFF00000000000001 : Word).toNat / 2 ^ 56 ∈ List.range' 0xB4 76 := by decide +kernel

theorem witness_MemoryStaysCanonical : State.reset.MemWf ∧ go.MemWf := by decide +kernel

theorem witness_DecodeAfterEncode :
    (Instr.movi { i0 with d := 9, imm := 2 ^ 36 - 1 }).wf = true ∧ (encode (.movi { i0 with d := 9, imm := 2 ^ 36 - 1 })).isSome ∧
    opAssigned (opOf (0xFF00000000000001 : Nat)) = false := by decide +kernel

/-- The bed's own events. -/
theorem witness_PlatformEvents_bed :
    let s := setBed go { getBed go 1 with closed := true }
    s.plat.power = .ready ∧ (getBed s 1).closed = true ∧ (getBed s 1).held = false ∧ mayOpen (tickPower (wallTick s 1) 1) 1 = true ∧
    (setBed go { getBed go 1 with freeze := 1 }).otherBeds.any (fun b => b.freeze = 1) = true := by decide +kernel

/-! ### The launch scheduler, the host and the platform -/

/-- A record of a type for job 1, with further fields. -/
def rec0 (ty rest : Nat) : Nat := ty + 2 ^ 48 + rest
/-- An image of one template and one map. -/
def image : Image :=
  { addr := 0x900, sections := [{ kind := .text, base := 0x400000, size := 64, bytes := [] }]
    templates := [{ entry := 0x400008, argBytes := 16, budget := 77, ranges := [] }], maps := [{ s := [4], v := [], p := [], a := [], h := [] }]
    spadBase := 0x100000, sbmBase := 0x40000000 }
/-- Job 1, active. -/
def job1 : Job :=
  { num := 1, xvec := 0x4000, jstat := paMk 0 0 0 0x3000000, cdest := 8, ckey := 5, peer := 2, phase := 0, state := .active, cancelled := false, why := 0
    ending := false, ebits := 0, ej := 0, map := [⟨0x10000, 0x4000, paMk 0 0 0 0x6000000, true, true, false, false, 0⟩] }
/-- Unit n of the launch, on core n. -/
def unit (n : Nat) (st : UState) : UnitRec :=
  { idx := n, state := st, core := n, saved := [], spad := [], arrived := true, status := 0, code := 0 }
/-- A launch of job 1 in a state, of rank 0 in gang 1 of one rank. -/
def launch (st : LState) (units : List UnitRec) : Launch :=
  { job := 1, lid := 1, graph := 0, phase := 0, prio := 2, upb := 1, spread := false, dbg := false, dmask := 15, gres := 3, nbeds := 1
    image := 0x900, tmpl := 0, args := 0x10040, budget := 5, seedmode := 3, seedcnt := 9, seedlog := 0x10080, sbmlen := 0, gang := 1, gnp := 0
    grk := 0, gcp := 0, preds := [], cgs := [(7, 2, 2, 0)], state := st, since := 1, age := 0, placedAt := 1, beds := [0], sbm := []
    frames := 0x2000000000, units := units, barrier := 4, diverged := false, aborted := false, isOver := false, ends := [], ebits := 0
    ej := 0 }
/-- Unit 0 of that launch as it runs. -/
def ranks : Core :=
  { go.core with job := 1, lid := 1, gang := 1, span := true, budget := 9, spent := 10
                 groups := [{ cgid := 7, n := 2, nr := 2, rank := 0, issued := 1, vres := 0, vgen := 0, minor := 0 }] }
/-- The package with job 1, its launch and its gang. -/
def hosted (st : LState) (units : List UnitRec) : State :=
  { go with core := ranks, lsc := { Lsc.reset with jobs := [job1], images := [image], launches := [launch st units], gangs := [⟨1, 1, [], false, false⟩] } }

/-- A change of extent 3 of unit 0 to other frames of DRAM. -/
def change : Move := { unit := 0, ext := 3, evict := false, pbase := paMk 0 0 0 0x8000000, cmp := false, expt := 0 }

theorem witness_VotesAndBarriers :
    let s := hosted .running [unit 0 .running, unit 1 .ended]
    let x := launch .running [unit 0 .running, unit 1 .ended]
    getLaunch s 1 1 = some x ∧ x.isOver = false ∧ x.diverged = false ∧ (∃ u ∈ x.units, u.arrived = true) ∧
    (∀ u ∈ x.units, u.arrived = true ∨ hasEnded s u) ∧ (∀ c ∈ s.core :: s.others, c.dones = []) ∧
    moveExtent s x change = some dram ∧ moveFits s dram change = true ∧ s.MemWf := by decide +kernel

theorem witness_VotesAndBarriers_held :
    let u : UnitRec := { unit 0 .running with arrived := false }
    let s := hosted .running [u]
    let x := launch .running [u]
    getLaunch s 1 1 = some x ∧ (∃ v ∈ x.units, v.arrived = false ∧ ¬ hasEnded s v) ∧
    (onCore s (fun c => { c with dones := [(7, 0)] })).core.dones ≠ [] ∧ s.core.run ≠ .idle ∧ s.core.job = x.job ∧ s.core.lid = x.lid := by
  decide +kernel

theorem witness_VotesAndBarriers_superstep :
    let s : State := { hosted .running [unit 0 .running] with lsc := { (hosted .running []).lsc with moves := [(1, 1, change)] } }
    s.core.num = 0 ∧ s.core.extents[3]? = some dram ∧ s.core.extents[2]? = some away ∧
    s.lsc.moves.filter (fun y => y.1 = s.core.job ∧ y.2.1 = s.core.lid ∧ y.2.2.unit = s.core.unit) = [(s.core.job, s.core.lid, change)] ∧
    change.ext = 3 ∧ ∀ y ∈ s.lsc.moves, y.2.2.ext ≠ 2 := by decide +kernel

theorem witness_WaitingWords_barrier :
    let s := hosted .running [unit 0 .running]
    (getLaunch s s.core.job s.core.lid).map (·.barrier) = some 4 ∧ s.core.pending = [] := by decide +kernel

theorem witness_WaitingWords_arrival :
    let w : Waiting := ⟨.xbar false 0 true 1, .xbar y0, 0x200000, 0, 0, [], 0⟩
    let s := onCore (hosted .running [unit 0 .running]) (fun c => { c with gang := 0, wait := some w })
    let t := onCore s (fun c => { c with accs := [mkAcc go (.tmark y0) [] .store 0 0 0 0 [] []] })
    let u : State := { onCore s (fun c => { c with seedctl := 1, vq := [{ flight (.vadd f1) 0 with rm := 4 }] }) with bed := { s.bed with stall := true } }
    (∀ r ∈ [s, t], r.core.wait = some w ∧ r.core.run = .running ∧ (getLaunch r r.core.job r.core.lid).isSome) ∧
    s.core.tq.es = [] ∧ s.core.cq.es = [] ∧ s.core.gq.es = [] ∧ s.core.bq.es = [] ∧ s.core.accs = [] ∧ s.core.seedMode = 0 ∧
    (getBed u u.core.bedNum).stall = true ∧ s.core.pending = [] ∧ (∃ a ∈ t.core.accs, a.word = 0 ∨ a.id < 1) := by decide +kernel

theorem witness_VotesAndBarriers_budget :
    let s := hosted .running [unit 0 .running]
    s.core.run = .running ∧ s.core.span = true ∧ s.core.budget ≠ 0 ∧ s.core.budget < s.core.spent ∧ s.core.event = none := by decide +kernel

theorem witness_VotesAndBarriers_gang :
    let s := hosted .running [unit 0 .running]
    let x := launch .running [unit 0 .running]
    s.lsc.launches.find? (fun y => y.job = x.job ∧ y.gang = x.gang ∧ !y.isOver) = some x ∧ 0 ≤ x.gnp ∧
    s.lsc.gangs.find? (fun y => y.job = x.job ∧ y.num = x.gang) = some ⟨1, 1, [], false, false⟩ ∧
    (∀ y ∈ s.lsc.launches, y.job = x.job → y.gang = x.gang → y.grk = 0 → y.state = .running) ∧
    (∀ g ∈ s.lsc.gangs, g.job = 1 → g.num = 1 → g.committed = false ∧ g.aborted = false) ∧
    (let t := { s with lsc := { s.lsc with gangs := [⟨1, 1, [0], true, false⟩] } }
     ∀ g ∈ t.lsc.gangs, g.job = 1 → g.num = 1 → g.committed = true) := by decide +kernel

theorem witness_VotesAndBarriers_acks :
    let s := hosted .running [unit 0 .running]
    let fresh : State := { s with lsc := { s.lsc with gangs := [] } }
    let g (s : State) : Gang := (s.lsc.gangs.find? (fun y => y.job = 1 ∧ y.num = 1)).getD ⟨1, 1, [], false, false⟩
    (∀ t ∈ [s, fresh], (g t).committed = false ∧ (g t).aborted = false ∧ 0 ∉ (g t).acks ∧ 1 ∉ (g t).acks) ∧ 1 ≤ (1 : Nat) ∧
    (∀ y ∈ s.lsc.launches, y.job = 1 → y.gang = 1 → y.grk = 0 → y.isOver = false → y.state = .running) := by decide +kernel

theorem witness_VotesAndBarriers_again :
    let past : Gang := ⟨1, 1, [0], true, false⟩
    let s : State := { hosted .running [] with lsc := { (hosted .running []).lsc with gangs := [past], launches := [] } }
    let t : State := { hosted .running [] with lsc := { (hosted .running []).lsc with gangs := [past] } }
    (∀ r ∈ [s, t], r.lsc.gangs.find? (fun y => y.job = 1 ∧ y.num = 1) = some past) ∧ past.committed = true ∧ 0 ∈ past.acks ∧ 0 ≤ 0 ∧
    (¬ ∃ y ∈ s.lsc.launches, y.job = 1 ∧ y.gang = 1 ∧ y.isOver = false) ∧ ∃ y ∈ t.lsc.launches, y.job = 1 ∧ y.gang = 1 ∧ y.isOver = false := by
  decide +kernel

/-- The package with the digests 1 and m of the two replicas of group 7. -/
def digested (m : Nat) : State :=
  let d (r n : Nat) : Digest :=
    { job := 1, cgid := 7, inst := 0, n := 2, nr := 2, rank := r, lane0 := BitVec.ofNat 64 n, lane1 := 3, ipc := 0, word := 0, seq := 0 }
  onCore { hosted .running [unit 0 .running] with digests := [d 0 1, d 1 m] } (fun c => { c with dones := [(7, 0)] })

theorem witness_VotesAndBarriers_vote :
    (∀ m ∈ [1, 2], ripeInstance (digested m) 1 7 = some 0) ∧ (digested 2).core.run = .running ∧ (digested 2).core.event = none ∧
    (∃ x ∈ (digested 2).lsc.launches, x.job = 1 ∧ x.lid = (digested 2).core.lid ∧ x.isOver = false ∧ ∃ g ∈ x.cgs, g.1 = 7) := by decide +kernel

/-- A digest. -/
def digest (n m : Nat) : Word × Word := (BitVec.ofNat 64 n, BitVec.ofNat 64 m)

theorem witness_VotesAndBarriers_agree : ∀ x ∈ [digest 1 3, digest 1 3], ∀ y ∈ [digest 1 3, digest 1 3], x = y := by simp

theorem witness_VotesAndBarriers_majority :
    [digest 1 3, digest 2 3, digest 1 3].length < 2 * [digest 1 3, digest 2 3, digest 1 3].count (digest 1 3) := by
  have h : digest 2 3 ≠ digest 1 3 := by decide +kernel
  simp [h]

theorem witness_VotesAndBarriers_none :
    ∀ x ∈ [digest 1 3, digest 2 3, digest 2 4], 2 * [digest 1 3, digest 2 3, digest 2 4].count x ≤ 3 := by
  have h1 : digest 1 3 ≠ digest 2 3 := by decide +kernel
  have h2 : digest 1 3 ≠ digest 2 4 := by decide +kernel
  have h3 : digest 2 3 ≠ digest 2 4 := by decide +kernel
  simp [h1, h2, h3, h1.symm, h2.symm, h3.symm]

/-- That package with a record in its ring. -/
def recorded (r : Nat) : State :=
  let s := hosted .queued []
  { s with mem := wr64 (wrN s.mem (0x1000000 + 0x1000) (leBytes 256 r)) 0x1000000 1 }

/-- The record is next and breaks no rule. -/
abbrev taking (r : Nat) : Prop := atHead (recorded r) 0 r ∧ accepted (recorded r) r

theorem witness_SubmissionRecords :
    taking (rec0 1 (2 ^ 16 + 2 ^ 64 * 2 + 2 ^ 192 * 0x900 + 2 ^ 384 * 9)) ∧ taking (rec0 2 (2 ^ 8 + 2 ^ 64)) ∧ taking (rec0 3 0) ∧
    taking (rec0 4 (31 * 2 ^ 8)) := by refine ⟨?_, ?_, ?_, ?_⟩ <;> decide +kernel

theorem witness_SubmissionRecords_more :
    taking (rec0 5 (2 * 2 ^ 8)) ∧ taking (rec0 6 (2 ^ 48 + 2 ^ 192 * 8 + 2 ^ 256 * 0x4000000)) ∧ taking (rec0 7 0) ∧ taking (rec0 8 (2 ^ 13)) := by
  refine ⟨?_, ?_, ?_, ?_⟩ <;> decide +kernel

theorem witness_SubmissionRecords_rejected :
    let r := rec0 3 (2 ^ 48)
    atHead (recorded r) 0 r ∧ (firstRow r).or (laterRows (recorded r) r) = some 0x10000 ∧ getJob (recorded r) 2 = none ∧ bits r 48 16 = 2 ∧
    (9 : Nat) % 256 = 9 ∧ (firstRow 256).isSome ∧ distinct (recorded r) ∧ getJob (recorded r) 1 = some job1 ∧ job1.state ≠ .ended := by decide +kernel

theorem witness_SubmissionRecords_idle :
    let s := recorded (rec0 2 (2 ^ 9))
    let t : State := { s with lsc := { s.lsc with groups := [{ Group.fresh 2 1 0 with isOver := true }] } }
    cancelIdle t job1 2 0 = true ∧ cancelIdle s job1 1 1 = false ∧ distinct s ∧ getJob s 1 = some job1 ∧ job1.state ≠ .ended ∧
    atHead t 0 (rec0 2 (2 ^ 9)) ∧ accepted t (rec0 2 (2 ^ 9)) := by decide +kernel

theorem witness_SubmissionRecords_ended :
    let s := onCore (hosted .running [unit 0 .running]) (fun c => { c with run := .ended, endStatus := 1, tq := EQueue.reset })
    let x := launch .running [unit 0 .running]
    launchEnded s x ∧ ¬ launchEnded (hosted .running [unit 0 .running]) x ∧ apart (hosted .running [unit 0 .running]) x ∧
    ({ x with gang := 0 } : Launch).gang = 0 ∧ railDown s (4 + paDie job1.jstat) = false ∧ mcHolds s (job1.jstat + 0) 8 = false := by
  decide +kernel

theorem witness_SubmissionRecords_counts : counts (hosted .running []) job1 := by
  refine ⟨by decide +kernel, fun off h => ?_⟩
  have at_ : job1.jstat = 0x3000000 := by decide +kernel
  have page : (hosted .running []).plat.platbase = 0x1000 := by decide +kernel
  simp only [mcHolds, at_, paMk, paPkg, page]
  simp
  omega

theorem witness_LaunchCourse :
    let s := hosted .ready []
    s.plat.power = .ready ∧ (pickReady { s with core := Core.reset 0 }).map (·.1.lid) = some 1 ∧ distinct s ∧
    getLaunch s 1 1 = some (launch .ready []) ∧ (launch .ready []).state = .ready := by decide +kernel

theorem witness_LaunchCourse_records :
    let r : CRec := { level := 0, status := 2, code := 3, code2 := 0, job := 1, unit := 0, id := 1, detail := 4, ebits := 5, ej := 6 }
    let s := hosted .queued []
    let t := afterLsc (reapAll { s with lsc := { s.lsc with backlog := [r] } })
    t.lsc.backlog.head? = some r ∧ rd64 t.mem (t.plat.subbase + 0x18) < rd64 t.mem (t.plat.subbase + 0x20) + 32768 ∧
    railDown t 4 = false ∧ t.plat.power ∈ [.ready, .linked, .tripped, .recovery] ∧ railDown t 8 = false ∧
    (afterLsc (reapAll s)).lsc.backlog = [] := by decide +kernel

theorem witness_LaunchCourse_start :
    let s := hosted .placing [unit 0 .placed]
    let x := launch .placing [unit 0 .placed]
    getLaunch s 1 1 = some x ∧ x.units.find? (fun y => y.idx = 0) = some (unit 0 .placed) ∧ x.isOver = false ∧ x.state ≠ .cancelled ∧
    (imageOf s x.image).isSome ∧ ((imageOf s x.image).bind (fun i => i.templates[x.tmpl]?)).isSome ∧ (unit 0 .placed).saved = [] ∧
    (buildExtents (loadSpad s x 0) x 0).length ≤ 64 := by decide +kernel

theorem witness_LaunchCourse_save :
    let s := onCore (hosted .running [unit 0 .running]) (fun c => { c with run := .stopped, livemap := 1 })
    let x := launch .running [unit 0 .running]
    let c := getCore s 0
    getLaunch s c.job c.lid = some x ∧ x.units.find? (fun y => y.idx = c.unit) = some (unit 0 .running) ∧ c.run = .stopped ∧
    (unit 0 .running).core = 0 ∧ c.quiet = true ∧ portsSettled s c = true ∧ ((imageOf s x.image).map (fun i => i.maps.length)).getD 0 ≤ c.livemap ∧
    (getCore (onCore s (fun c => { c with dying := true })) 0).quiet = false := by decide +kernel

/-- That package in another state of power. -/
def powered (p : Power) : State := { hosted .queued [] with plat := { (hosted .queued []).plat with power := p } }

theorem witness_HostDoors :
    (∀ p ∈ [Power.ready, .linked, .tripped, .recovery], (powered p).plat.power = p ∧ railDown (powered p) 8 = false ∧ railDown (powered p) 4 = false) ∧
    verified (powered .ready).plat (powered .ready).plat.image = true ∧ (powered .ready).plat.recov = false ∧
    (let bare : Platform := { (powered .ready).plat with imageOk := false }
     verified bare bare.image = false ∧ verified bare bare.prev = false) := by decide +kernel

theorem witness_HostDoors_memory :
    let s := powered .ready
    paPkg 0x6000000 = s.plat.pkg ∧ remoteHome s 0x6000000 8 = .job ∧ plainJob s 0x6000000 8 ∧ s.ecc = [] ∧ 0x6000000 % 8 = 0 ∧
    remoteHome s 0x7000000 8 = .job ∧ jobHolds s 0x7000000 = false ∧ (∀ x ∈ jobFrames s, x.1 = false) ∧
    remoteHome (powered .linked) 0x6000000 8 = .nowhere := by decide +kernel

/-- The job's memory in compressed frames. -/
def packed : State :=
  let j : Job := { job1 with map := [⟨0x10000, 0x4000, paMk 0 0 0 0x6000000, true, true, false, true, 0⟩] }
  { powered .ready with lsc := { (powered .ready).lsc with jobs := [j] } }

theorem witness_HostDoors_packed :
    let a := 0x6000000 + 160 + 8
    let zeros : State := { packed with mem := wr8 packed.mem (0x6000000 + 160) 0x10 }
    remoteHome packed a 8 = .job ∧ (jobFrames packed).find? (fun x => x.1 && x.2.1 ≤ a && a < x.2.1 + x.2.2) = some (true, 0x6000000, 128 * 160) ∧
    168 % 160 + 8 ≤ 128 ∧ paSpace 0x6000000 ≠ 3 ∧ paOk (0x6000000 + 160) = true ∧ readBlock packed (0x6000000 + 160) = none ∧
    readBlock zeros (0x6000000 + 160) = some (List.replicate 128 0) := by decide +kernel

/-- The job's memory in plain frames, then in compressed ones. -/
def mixed : State :=
  let j : Job := { job1 with
    map := [⟨0x10000, 0x1000, paMk 0 0 0 0x6000000, true, true, false, false, 0⟩, ⟨0x11000, 0x4000, paMk 0 0 0 0x6001000, true, true, false, true, 0⟩] }
  { powered .ready with lsc := { (powered .ready).lsc with jobs := [j] } }

theorem witness_HostDoors_mixed :
    let a := 0x6001000 - 8
    remoteHome mixed a 16 = .job ∧ plainJob mixed a 8 ∧ (∀ i, 8 ≤ i → i < 16 → frameAt mixed (a + i) = some (true, 0x6001000, 128 * 160)) ∧
    mixed.ecc = [] ∧ 0 % 160 + (16 - 8) ≤ 128 ∧ paSpace 0x6001000 ≠ 3 ∧ paOk 0x6001000 = true ∧ mcHolds mixed 0x6001000 160 = false := by
  refine ⟨by decide +kernel, by decide +kernel, fun i lo hi => ?_, by decide +kernel⟩
  have h : ∀ i < 8, frameAt mixed (0x6001000 - 8 + (8 + i)) = some (true, 0x6001000, 128 * 160) := by decide +kernel
  obtain ⟨j, rfl⟩ := Nat.exists_eq_add_of_le lo
  exact h j (by omega)

theorem witness_PlatformEvents :
    let s (n : Nat) : State := { go with plat := { go.plat with phases := [(0, n)] } }
    let off : State := { go with plat := { go.plat with power := .off } }
    go.plat.power = .ready ∧ go.plat.railTrip = false ∧ go.plat.heatTrip = false ∧ (∃ x ∈ go.dies, x.num = 3) ∧ working (s 7) 0 = 1 ∧ 3 * 0 < (railOf 0).1 ∧ working go 8 ≠ 0 ∧ working go 9 ≠ 0 ∧
    (railOf 8).1 ≤ 3 * (working go 8 - 1) ∧ 1840 ≤ (getDie (setDie go { Die.reset 3 with t16 := 1840 }) 3).t16 ∧ off.plat.power = .off ∧
    verified off.plat off.plat.image = true ∧ (powered .linked).plat.power = .linked := by decide +kernel

/-- The package while a trip that heat asked for is on its way, a unit on bed 0, and one on bed 1. -/
def tripping (l : List Core) : State := { go with others := l ++ go.others, plat := { go.plat with heatTrip := true } }

theorem witness_PlatformEvents_trip :
    let s := tripping []
    let t := tripping [{ Core.reset 8 with run := .running }]
    (∀ r ∈ [s, t], r.plat.power = .ready ∧ r.plat.heatTrip = true ∧ ∀ e ∈ (getCore r 0).tq.es.head?, e.ph ≠ .running) ∧
    (¬ ∃ n < 256, (getCore s n).run ≠ .idle ∧ n / 8 ≠ 0 ∧ n / 8 ∉ s.plat.stopped) ∧
    (∃ n < 256, (getCore t n).run ≠ .idle ∧ n / 8 ≠ 0 ∧ n / 8 ∉ t.plat.stopped) := by
  refine ⟨by decide +kernel, by decide +kernel, 8, by decide +kernel⟩

/-- A unit that has not ended has an extent over aperture 15 of die 2. -/
abbrev lies (c : Core) : Prop :=
  (c.run ≠ .idle ∧ (c.run = .ended → c.endStatus < 2 ∧ c.tq.es ++ c.cq.es ++ c.gq.es ++ c.bq.es ≠ [])) ∧ ∃ e ∈ c.extents,
    paSpace e.pbase = 3 ∧ paDie e.pbase = 2 ∧ paPkg e.pbase = go.plat.pkg ∧ paOff e.pbase / 2 ^ 36 = 15

theorem witness_PlatformEvents_aperture :
    let under : State := onCore go (fun c => { c with extents := [{ near with pbase := paMk 0 2 3 (15 * 2 ^ 36) }] })
    let late : State := onCore under (fun c => { c with run := .ended, endStatus := 1, cq := { c.cq with es := [mkEntry go (.cpy e0) .copy []] } })
    let past : State := onCore late (fun c => { c with cq := { c.cq with es := [] } })
    (∀ c ∈ go.core :: go.others, ¬ lies c) ∧ (∀ c ∈ past.core :: past.others, ¬ lies c) ∧
    (∃ c ∈ under.core :: under.others, lies c) ∧ (∃ c ∈ late.core :: late.others, lies c) ∧
    apertureOk go 2 { Aperture.reset with len := 4096 } = true ∧ apertureOk go 2 { Aperture.reset with len := 2 ^ 36 } = false := by
  and_intros <;> decide +kernel

end Sys2Proof.Tests
end

section
/-! Plain bytes of memory: the little-endian bytes of a value (R7), the translation of an access inside one plain extent
(R244, R247), and what an access to plain bytes without error marks reads and writes. -/

namespace Sys2Proof.Machine

/-! ### Little-endian bytes (R7) -/

@[simp] theorem leBytes_length (n v : Nat) : (leBytes n v).length = n := by
  induction n generalizing v with
  | zero => rfl
  | succ n ih => simp [leBytes, ih]

/-- Byte i of a value is its digit i to base 256. -/
theorem leBytes_getD {n i : Nat} (v : Nat) (h : i < n) : (leBytes n v).getD i 0 = BitVec.ofNat 8 (v / 256 ^ i) := by
  induction n generalizing v i with
  | zero => exact absurd h (Nat.not_lt_zero i)
  | succ n ih =>
    cases i with
    | zero => simp [leBytes]
    | succ i => rw [leBytes, List.getD_cons_succ, ih _ (by omega), Nat.div_div_eq_div_mul, Nat.pow_succ']

/-- The bytes of a value written from pa on: the value's digits there, and every other byte as before. -/
theorem rd8_wrN_leBytes (m : List Host.Cell) (pa n v a : Nat) :
    rd8 (wrN m pa (leBytes n v)) a =
      if pa ≤ a ∧ a < pa + n then BitVec.ofNat 8 (v / 256 ^ (a - pa)) else rd8 m a := by
  rw [rd8_wrN, leBytes_length]
  split
  · exact leBytes_getD v (by omega)
  · rfl

/-- Single byte writes at the addresses from pa on, in their order, are one write of the bytes. -/
theorem foldl_wr8_range' (m : List Host.Cell) (pa : Nat) (bs : List Byte) :
    ((List.range' pa bs.length).zip bs).foldl (fun m x => wr8 m x.1 x.2) m = wrN m pa bs := by
  induction bs generalizing m pa with
  | nil => rfl
  | cons b bs ih => exact ih (wr8 m pa b) (pa + 1)

/-! ### Translation (R244, R247) -/

theorem findExt_covers {es : List Extent} {va : Nat} {e : Extent} (h : findExt es va = some e) :
    e.vbase ≤ va ∧ va < e.vbase + e.len := by
  unfold findExt at h
  split at h
  · simpa using List.find?_some h
  · cases h

/-- An access inside one extent is one span. -/
theorem coreSpans_inside {c : Core} {va len : Nat} {e : Extent} (h : findExt c.extents va = some e) (pos : 0 < len)
    (fits : va + len ≤ e.vbase + e.len) : coreSpans c va len = some [(e, va - e.vbase, len)] := by
  obtain ⟨low, -⟩ := findExt_covers h
  obtain ⟨n, rfl⟩ := Nat.exists_eq_add_of_lt pos
  have all : min (0 + n + 1) (e.len - (va - e.vbase)) = 0 + n + 1 := by omega
  simp only [coreSpans, spans, h, all, Nat.sub_self, Option.map_some]

/-- Where every byte of a span has a place, the span's places are these. -/
theorem spanPlaces_ok {s : State} {wr : Bool} {e : Extent} {o n : Nat} {f : Nat → Place}
    (h : ∀ i < n, placeOf s e (o + i) wr = .ok (f i)) : spanPlaces s wr (e, o, n) = .ok ((List.range n).map f) := by
  have bound : ∀ i ∈ List.range n, i < n := fun i => List.mem_range.1
  unfold spanPlaces
  dsimp only
  generalize List.range n = l at bound ⊢
  induction l with
  | nil => rfl
  | cons i l ih =>
    rw [List.forall_mem_cons] at bound
    rw [List.foldr_cons, ih bound.2, h i bound.1, List.map_cons]

/-- A byte of a plain extent that is memory's and in the limits of its space lies at PBASE plus its offset. -/
theorem placeOf_plain {s : State} {e : Extent} {o : Nat} (wr : Bool) (plain : e.cmp = false) (direct : paSpace e.pbase ≠ 3)
    (ok : paOk (e.pbase + o) = true) (ram : mcHolds s (e.pbase + o) 1 = false) :
    placeOf s e o wr = .ok (.one (.byte (e.pbase + o))) := by
  simp [placeOf, plain, direct, ok, Place.reach, Place.tgts, Tgt.held, ram]

/-- The places of an access inside one plain extent. -/
theorem placesOf_plain {s : State} {c : Core} {e : Extent} {va len : Nat} (wr : Bool) (h : findExt c.extents va = some e)
    (pos : 0 < len) (fits : va + len ≤ e.vbase + e.len) (plain : e.cmp = false) (direct : paSpace e.pbase ≠ 3)
    (ram : ∀ i < len, paOk (e.pbase + (va - e.vbase) + i) = true ∧ mcHolds s (e.pbase + (va - e.vbase) + i) 1 = false) :
    placesOf s c va len wr = (List.range len).map fun i => .one (.byte (e.pbase + (va - e.vbase) + i)) := by
  have span := spanPlaces_ok (wr := wr) fun i hi => by
    obtain ⟨ok, mem⟩ := ram i hi
    rw [Nat.add_assoc] at ok mem
    exact placeOf_plain wr plain direct ok mem
  simp only [placesOf, places, coreSpans_inside h pos fits, spansPlaces, List.foldr_cons, List.foldr_nil, span,
    List.append_nil, Nat.add_assoc]

/-! ### Plain bytes read and written, without error marks (R245) -/

theorem readPlace_byte {s : State} (clean : s.ecc = []) (pa : Nat) :
    readPlace s (.one (.byte pa)) = some (rd8 s.mem pa) := by
  simp [readPlace, readTgt, clean]

/-- Plain bytes from pa on read as memory holds them. -/
theorem readPlaces_bytes {s : State} (clean : s.ecc = []) (pa n : Nat) :
    readPlaces s ((List.range n).map fun i => .one (.byte (pa + i))) = .ok (rdN s.mem pa n) := by
  have all : ((List.range n).map fun i => Place.one (.byte (pa + i))).findIdx? (fun p => (readPlace s p).isNone) = none := by
    simp [List.findIdx?_eq_none_iff, readPlace_byte clean]
  simp [readPlaces, all, rdN, readPlace_byte clean]

/-- Byte writes at plain targets, all of them memory's, are done one after another, and none is dropped. -/
theorem writeTgts_bytes {s : State} {l : List (Nat × Byte)} (clean : s.ecc = []) (ram : ∀ x ∈ l, mcHolds s x.1 1 = false) :
    writeTgts s (l.map fun x => (.byte x.1, x.2)) =
      ({ s with mem := l.foldl (fun m x => wr8 m x.1 x.2) s.mem }, List.replicate l.length false) := by
  have keep : (l.map fun x => (Tgt.byte x.1, x.2)).filter (fun x => !x.1.held s) = l.map fun x => (.byte x.1, x.2) := by
    rw [List.filter_eq_self, List.forall_mem_map]
    exact fun x hx => by simp [Tgt.held, ram x hx]
  have run := List.foldl_hom (l := l) (init := s.mem) (g₁ := fun m x => wr8 m x.1 x.2)
    (g₂ := fun t x => { t with mem := wr8 t.mem x.1 x.2 }) (fun m => { s with mem := m }) fun _ _ => rfl
  unfold writeTgts
  rw [keep]
  have kept : l.map (fun x => Tgt.held s (.byte x.1)) = List.replicate l.length false := List.map_eq_replicate_iff.2 ram
  simp [clean, List.foldl_map, run, Function.comp_def, kept]

/-- The byte writes of an access at plain places, all of them memory's. -/
theorem putPlaces_bytes {s : State} {l : List (Nat × Byte)} (clean : s.ecc = []) (ram : ∀ x ∈ l, mcHolds s x.1 1 = false) :
    putPlaces s (l.map fun x => (.one (.byte x.1), x.2)) =
      ({ s with mem := l.foldl (fun m x => wr8 m x.1 x.2) s.mem }, none) := by
  simp [putPlaces, List.filterMap_map, writeTgts_bytes clean ram]

/-- A write of a value at plain places, all of them memory's, drops no byte; it counts the writes to other packages. -/
theorem writeAt_bytes {s : State} {pa n : Nat} (v : Nat) (clean : s.ecc = []) (ram : ∀ i < n, mcHolds s (pa + i) 1 = false) :
    ∃ w, writeAt s ((List.range n).map fun i => .one (.byte (pa + i))) v =
      ({ s with mem := wrN s.mem pa (leBytes n v), writes := w }, none) := by
  have bytes : ((List.range n).map fun i => Place.one (.byte (pa + i))).zip (leBytes n v) =
      ((List.range' pa n).zip (leBytes n v)).map fun x => (.one (.byte x.1), x.2) := by
    simp [List.range'_eq_map_range, List.zip_map_left, Function.comp_def]
  have each : ∀ x ∈ (List.range' pa n).zip (leBytes n v), mcHolds s x.1 1 = false := fun x hx => by
    obtain ⟨i, hi, hxi⟩ := List.mem_range'.1 (List.of_mem_zip hx).1
    rw [hxi, Nat.one_mul]
    exact ram i hi
  have written := foldl_wr8_range' s.mem pa (leBytes n v)
  rw [leBytes_length] at written
  rw [writeAt, List.length_map, List.length_range, bytes, writePlaces, putPlaces_bytes clean each, written]
  exact ⟨_, rfl⟩

/-- Settles O13: the places of the access are the plain bytes from PBASE plus the offset on; without error marks they read as
memory holds them, and a write at them changes these bytes alone. -/
theorem plainMemory : Obligations.PlainMemory := by
  unfold Obligations.PlainMemory
  intro s e va len wr pa inside pos fits plain direct ram clean
  have at_ := placesOf_plain wr inside pos fits plain direct ram
  refine ⟨at_, ?_, fun v => ?_⟩
  · rw [at_, readAt, readPlaces_bytes clean]
  · obtain ⟨w, hw⟩ := writeAt_bytes v clean fun i hi => (ram i hi).2
    exact ⟨w, at_ ▸ hw, rd8_wrN_leBytes s.mem pa len v⟩

end Sys2Proof.Machine
end

section
/-! Command queues: what a queue shows after one was replaced, and what the acceptance of an entry changes (R24, R25, R31, R175). -/

namespace Sys2Proof.Machine

@[simp] theorem Core.queue_setQueue (c : Core) (q p : EngQ) (x : EQueue) :
    (c.setQueue q x).queue p = if p = q then x else c.queue p := by
  cases q <;> cases p <;> rfl

theorem Core.clearToken_setQueue (c : Core) (q : EngQ) (x : EQueue) (k : Nat) :
    (c.setQueue q x).clearToken k = { c.setQueue q x with clearTok := (c.clearToken k).clearTok } := by
  have same : (c.setQueue q x).clearTok = c.clearTok := by cases q <;> rfl
  by_cases h : k = 63 ∨ c.clearTok.contains k
  · rw [Core.clearToken, same, if_pos h, Core.clearToken, if_pos h, ← same]
  · rw [Core.clearToken, same, if_neg h, Core.clearToken, if_neg h]

/-- A queue with an entry accepted (R25, R175). -/
def EQueue.accepted (x : EQueue) (e : Entry) : EQueue := { x with es := x.es ++ [e], seq := (x.seq + 1) % 2 ^ 32 }

/-- Acceptance puts the entry into its queue, clears its token and forgets a TMARK that produced it (R25, R31): token 63 is
no token, so that nothing is then cleared. -/
theorem Core.accept_eq (c : Core) (q : EngQ) (e : Entry) :
    c.accept q e = { c.setQueue q ((c.queue q).accepted e) with
      clearTok := (c.clearToken e.tokens.kp).clearTok
      tmarks := if e.tokens.kp = 63 then c.tmarks else tset 0 c.tmarks e.tokens.kp 0 } := by
  unfold Core.accept
  by_cases h : e.tokens.kp = 63
  · have keep : c.clearToken e.tokens.kp = c := if_pos (.inl h)
    simp only [keep, if_pos h]
    cases q <;> rfl
  · simp only [if_neg h, Core.clearToken_setQueue]
    cases q <;> rfl

theorem Core.queue_accept (c : Core) (q p : EngQ) (e : Entry) :
    (c.accept q e).queue p = if p = q then (c.queue q).accepted e else c.queue p := by
  rw [Core.accept_eq, ← Core.queue_setQueue c q p]
  cases p <;> rfl

theorem Core.tokSet_accept (c : Core) (q : EngQ) (e : Entry) (t : Nat) :
    (c.accept q e).tokSet t = (c.tokSet t && (t ≠ e.tokens.kp || e.tokens.kp = 63)) := by
  rw [Core.accept_eq]
  refine (Core.tokSet_clearToken c e.tokens.kp t).trans ?_
  simp only [Bool.decide_or, Bool.or_comm]

/-- accept changes nothing but the queues, the clear tokens and the remembered marks. -/
theorem Core.accept_only (c : Core) (q : EngQ) (e : Entry) : c.accept q e = { c with
    tq := (c.accept q e).tq, cq := (c.accept q e).cq, gq := (c.accept q e).gq, bq := (c.accept q e).bq
    clearTok := (c.accept q e).clearTok, tmarks := (c.accept q e).tmarks } := by
  rw [Core.accept_eq]
  cases q <;> rfl

/-- Settles O22: the queue, the tokens and the remembered marks after an acceptance, each by its own lemma. -/
theorem acceptedEntry : Obligations.AcceptedEntry := by
  unfold Obligations.AcceptedEntry
  intro c q e
  have marks : (c.accept q e).tmarks =
      if (wordTokens e.word).kp = 63 then c.tmarks else tset 0 c.tmarks (wordTokens e.word).kp 0 := by
    rw [Core.accept_eq, Entry.tokens]
  refine ⟨?_, fun p hp => ?_, Core.tokSet_accept c q e, fun hk => ?_, fun hk => ?_, Core.accept_only c q e⟩
  · rw [Core.queue_accept, if_pos rfl, EQueue.accepted]
  · rw [Core.queue_accept, if_neg hp]
  · rw [marks, if_neg hk]
    exact ⟨by simp, fun j hj => by simp [hj]⟩
  · rw [marks, if_pos hk]

end Sys2Proof.Machine
end

section
/-! Results that fall due (R20, R89, R90): what one landing does to the core it is for. -/

namespace Sys2Proof.Machine
open Sys2Proof.Stmt

/-! ### Cores changed -/

/-- A core changed by a function that keeps its number. -/
theorem getCore_modCore {s : State} {n : Nat} {f : Core → Core} (keeps : (f (getCore s n)).num = (getCore s n).num) (k : Nat) :
    getCore (modCore s n f) k = if n = k then f (getCore s n) else getCore s k := by
  rw [modCore, getCore_setCore, keeps, getCore_num]

theorem getCore_modCore_same {s : State} {n : Nat} {f : Core → Core} (keeps : (f (getCore s n)).num = (getCore s n).num) :
    getCore (modCore s n f) n = f (getCore s n) := by
  rw [getCore_modCore keeps, if_pos rfl]

/-! ### Fields of a register -/

/-- The mask of bits lo .. lo+len-1. -/
theorem getLsbD_fieldMask {lo len i : Nat} (hi : i < 64) :
    (BitVec.ofNat 64 ((2 ^ len - 1) * 2 ^ lo)).getLsbD i = decide (lo ≤ i ∧ i < lo + len) := by
  rw [BitVec.getLsbD_ofNat, Nat.testBit_mul_two_pow, Nat.testBit_two_pow_sub_one]
  by_cases h : lo ≤ i
  · simp [hi, h, Nat.sub_lt_iff_lt_add h, Nat.add_comm]
  · simp [h]

/-- A field put into a word shows in its own bits, and every other bit stays. -/
theorem getLsbD_insBits (old v : Word) (lo len : Nat) {i : Nat} (hi : i < 64) :
    (insBits old lo len v).getLsbD i = if lo ≤ i ∧ i < lo + len then v.getLsbD (i - lo) else old.getLsbD i := by
  rw [insBits, BitVec.getLsbD_or, BitVec.getLsbD_and, BitVec.getLsbD_and, BitVec.getLsbD_not, getLsbD_fieldMask hi,
    BitVec.getLsbD_shiftLeft]
  by_cases h : lo ≤ i ∧ i < lo + len
  · simp [h, hi]
  · simp [h, hi]

/-- A field of a register written (R89): that register's bits lo .. lo+len-1, where it is s1 to s55. -/
theorem Core.getLsbD_setField (c : Core) (r lo len : Nat) (v : Word) (m : Nat) {i : Nat} (hi : i < 64) :
    ((c.setField r lo len v).reg m).getLsbD i =
      if m = r ∧ 1 ≤ r ∧ r ≤ 55 ∧ lo ≤ i ∧ i < lo + len then v.getLsbD (i - lo) else (c.reg m).getLsbD i := by
  rw [Core.setField, Core.reg_setReg]
  by_cases h : m = r ∧ 1 ≤ r ∧ r ≤ 55
  · obtain ⟨rfl, low, high⟩ := h
    simp only [low, high, and_self, true_and, if_true, getLsbD_insBits _ _ _ _ hi]
  · rw [if_neg h, if_neg fun k => h ⟨k.1, k.2.1, k.2.2.1⟩]

/-! ### Tables written at several keys -/

/-- Values put into a table one after another, each at its own key. -/
def putAll {α : Type} [DecidableEq α] (d : α) (key : Nat → Nat) (t : Tab α) (l : List (Nat × α)) : Tab α :=
  l.foldl (fun t x => tset d t (key x.1) x.2) t

/-- A key at which nothing is put keeps its value. -/
theorem tget_putAll_other {α : Type} [DecidableEq α] (d : α) (key : Nat → Nat) {l : List (Nat × α)} {k : Nat}
    (h : ∀ x ∈ l, key x.1 ≠ k) (t : Tab α) : tget d (putAll d key t l) k = tget d t k := by
  induction l generalizing t with
  | nil => rfl
  | cons x l ih =>
    rw [List.forall_mem_cons] at h
    exact (ih h.2 _).trans ((tget_tset ..).trans (if_neg fun e => h.1 e.symm))

/-- What is put at a key once is read there. -/
theorem tget_putAll_mem {α : Type} [DecidableEq α] (d : α) {key : Nat → Nat} (inj : key.Injective) {l : List (Nat × α)}
    (once : (l.map (·.1)).Nodup) {x : Nat × α} (hx : x ∈ l) (t : Tab α) : tget d (putAll d key t l) (key x.1) = x.2 := by
  induction l generalizing t with
  | nil => cases hx
  | cons y l ih =>
    rw [List.map_cons, List.nodup_cons] at once
    obtain rfl | hx := List.mem_cons.1 hx
    · have later : ∀ z ∈ l, key z.1 ≠ key x.1 := fun z hz e => once.1 (inj e ▸ List.mem_map_of_mem hz)
      exact (tget_putAll_other d key later _).trans ((tget_tset ..).trans (if_pos rfl))
    · exact ih once.2 hx _

/-! ### Columns of a vector register (R287, R328) -/

/-- A container with the masked bits taken from another. -/
theorem getLsbD_mergeBits (old v m : Cont) (i : Nat) :
    ((old &&& ~~~m) ||| (v &&& m)).getLsbD i = if m.getLsbD i then v.getLsbD i else old.getLsbD i := by
  rw [BitVec.getLsbD_or, BitVec.getLsbD_and, BitVec.getLsbD_and, BitVec.getLsbD_not]
  by_cases hi : i < 32
  · cases m.getLsbD i <;> simp [hi]
  · simp [BitVec.getLsbD_of_ge _ _ (Nat.le_of_not_lt hi)]

theorem landCol_cons (v : Tab Cont) (kept : List Nat) (r j : Nat) (x : Nat × Cont × Cont) (l : List (Nat × Cont × Cont)) :
    landCol v kept r j (x :: l) =
      landCol (if 1024 * r + 64 * j + x.1 ∈ kept then v else
        tset 0 v (1024 * r + 64 * j + x.1) ((tget 0 v (1024 * r + 64 * j + x.1) &&& ~~~x.2.1) ||| (x.2.2 &&& x.2.1))) kept r j l := by
  simp only [landCol, List.foldl_cons, List.contains_iff_mem]

/-- A bit of a container that no write's mask holds, or whose container a drain shows, stays. -/
theorem getLsbD_landCol_other (kept : List Nat) (r j : Nat) {l : List (Nat × Cont × Cont)} {k i : Nat}
    (h : ∀ x ∈ l, 1024 * r + 64 * j + x.1 = k → k ∈ kept ∨ x.2.1.getLsbD i = false) (v : Tab Cont) :
    (tget (0 : Cont) (landCol v kept r j l) k).getLsbD i = (tget (0 : Cont) v k).getLsbD i := by
  induction l generalizing v with
  | nil => rfl
  | cons x l ih =>
    rw [List.forall_mem_cons] at h
    rw [landCol_cons, ih h.2]
    by_cases held : 1024 * r + 64 * j + x.1 ∈ kept
    · rw [if_pos held]
    · rw [if_neg held, tget_tset]
      by_cases key : k = 1024 * r + 64 * j + x.1
      · have free : x.2.1.getLsbD i = false := (h.1 key.symm).resolve_left (key ▸ held)
        rw [if_pos key, getLsbD_mergeBits, free, key]
        rfl
      · rw [if_neg key]

/-- The bits under the mask of a write to a container that no drain shows are the value's, where no other write of the landing
has a mask that meets it. -/
theorem getLsbD_landCol_mem (kept : List Nat) (r j : Nat) {l : List (Nat × Cont × Cont)}
    (apart : l.Pairwise fun x y => x.1 = y.1 → x.2.1 &&& y.2.1 = 0) {x : Nat × Cont × Cont} (hx : x ∈ l)
    (free : 1024 * r + 64 * j + x.1 ∉ kept) {i : Nat} (hi : x.2.1.getLsbD i = true) (v : Tab Cont) :
    (tget (0 : Cont) (landCol v kept r j l) (1024 * r + 64 * j + x.1)).getLsbD i = x.2.2.getLsbD i := by
  induction l generalizing v with
  | nil => cases hx
  | cons y l ih =>
    rw [List.pairwise_cons] at apart
    obtain rfl | hx := List.mem_cons.1 hx
    · have later : ∀ z ∈ l, 1024 * r + 64 * j + z.1 = 1024 * r + 64 * j + x.1 →
          1024 * r + 64 * j + x.1 ∈ kept ∨ z.2.1.getLsbD i = false := fun z hz e => by
        have meet := congrArg (·.getLsbD i) (apart.1 z hz (Nat.add_left_cancel e).symm)
        exact .inr (by simpa [hi] using meet)
      rw [landCol_cons, getLsbD_landCol_other kept r j later, if_neg free, tget_tset, if_pos rfl, getLsbD_mergeBits, if_pos hi]
    · exact ih apart.2 hx _

/-- The containers held by a running drain are those the oldest trellis entry shows. -/
theorem Core.mem_drainKeys (c : Core) (k : Nat) : k ∈ c.drainKeys ↔ ∃ e, c.tq.es.head? = some e ∧ k ∈ e.drained := by
  unfold Core.drainKeys
  cases c.tq.es <;> simp

/-! ### Control registers (R165, R170, R236) -/

theorem Core.crWrite_num (c : Core) (r : Nat) (v : Word) : (c.crWrite r v).num = c.num := by
  unfold Core.crWrite; repeat' split
  all_goals rfl

theorem Core.crWrite_pend (c : Core) (r : Nat) (v : Word) : (c.crWrite r v).pend = c.pend := by
  unfold Core.crWrite; repeat' split
  all_goals rfl

/-- A register that the system view may write reads as what was written: HLIM in that view, whose partition it is; UHTOP apart. -/
theorem crRead_crWrite (s : State) {r : Nat} (v : Word) (hr : r ∈ crWrites .system) (top : r ≠ 0x119)
    (lim : r = 0x00A → s.core.view = .system) : crRead { s with core := s.core.crWrite r v } r = v := by
  simp only [crWrites, List.mem_cons, List.not_mem_nil, or_false] at hr
  rcases hr with rfl | rfl | rfl | rfl | rfl | rfl | rfl | hr
  · have sys : s.core.view = .system := lim rfl
    simp [crRead, Core.crWrite, Core.trug, sys]
  iterate 6 rfl
  · rcases hr with rfl | rfl | rfl | rfl | rfl | rfl | rfl | rfl | rfl | rfl
    iterate 8 exact (tget_tset ..).trans (if_pos rfl)
    · exact absurd rfl top
    · simp [crRead, Core.crWrite]

/-- In the unit view HLIM is the user partition's, where UHLIM writes. -/
theorem crRead_hlim_unit {s : State} (v : Word) (unit : s.core.view = .unit) :
    crRead { s with core := s.core.crWrite 0x11A v } 0x00A = v := by
  simp [crRead, Core.crWrite, Core.trug, unit]

/-- UHTOP takes a value that lies in the user partition. -/
theorem crRead_uhtop {s : State} {v : Word} (low : s.core.ut.base ≤ v.toNat) (high : v.toNat ≤ s.core.ut.top) :
    crRead { s with core := s.core.crWrite 0x119 v } 0x119 = v := by
  simp [crRead, Core.crWrite, Nat.min_eq_right high, Nat.max_eq_right low]

/-! ### AMAX (R309, R310) -/

/-- AMAX with a partial maximum folded in. -/
def amaxJoin (old part : BitVec 33) : BitVec 33 :=
  BitVec.ofNat 33 (max (old.toNat % 2 ^ 32) (part.toNat % 2 ^ 32)) ||| ((old ||| part) &&& 0x100000000#33)

theorem amaxJoin_mag (old part : BitVec 33) :
    (amaxJoin old part).toNat % 2 ^ 32 = max (old.toNat % 2 ^ 32) (part.toNat % 2 ^ 32) := by
  have small : max (old.toNat % 2 ^ 32) (part.toNat % 2 ^ 32) < 2 ^ 32 := by omega
  have flag : (old ||| part).toNat % 2 ^ 32 &&& (0x100000000#33).toNat % 2 ^ 32 = 0 := Nat.and_zero _
  rw [amaxJoin, BitVec.toNat_or, Nat.or_mod_two_pow, BitVec.toNat_and, Nat.and_mod_two_pow, flag, Nat.or_zero,
    BitVec.toNat_ofNat]
  omega

theorem amaxJoin_nan (old part : BitVec 33) : (amaxJoin old part).msb = (old.msb || part.msb) := by
  have small : max (old.toNat % 2 ^ 32) (part.toNat % 2 ^ 32) < 2 ^ 32 := by omega
  have mag : (BitVec.ofNat 33 (max (old.toNat % 2 ^ 32) (part.toNat % 2 ^ 32))).msb = false := by
    rw [BitVec.msb_eq_false_iff_two_mul_lt, BitVec.toNat_ofNat]
    omega
  rw [amaxJoin, BitVec.msb_or, mag, BitVec.msb_and, BitVec.msb_or]
  exact (Bool.false_or _).trans (Bool.and_true _)

theorem advanceDrain_of_none {s : State} {n : Nat} (h : (getCore s n).drain = none) : advanceDrain s n = s := by
  rw [advanceDrain, h]

/-- A partial maximum lands while no drain runs: AMAX takes it, and register SA, or its port, takes AMAX. -/
theorem landOne_amax {s : State} {n : Nat} (clr : Bool) (part : BitVec 33) (sa : Nat) (h : (getCore s n).drain = none) :
    landOne s n (.amax clr part sa) =
      let m := amaxJoin (if clr then 0 else (getCore s n).amax) part
      let s1 := modCore s n (fun c => { c with amax := m })
      if sa = 0 then s1
      else if 56 ≤ sa then landOne s1 n (.push (sa - 56) (m.setWidth 64))
      else modCore s1 n (fun c => c.setReg sa (m.setWidth 64)) := by
  simp only [landOne, advanceDrain_of_none h, isPort, decide_eq_true_eq, amaxJoin]

/-! ### Results in flight -/

/-- A core changed in other fields has the same results in flight. -/
theorem getCore_modCore_pend {f : Core → Core} (s : State) (m n : Nat) (num : ∀ c, (f c).num = c.num := by exact fun _ => rfl)
    (pend : ∀ c, (f c).pend = c.pend := by exact fun _ => rfl) : (getCore (modCore s m f) n).pend = (getCore s n).pend := by
  rw [getCore_modCore (num _)]
  split
  · next h => rw [pend, h]
  · rfl

theorem Core.setHead_num (c : Core) (q : EngQ) (e : Entry) : (c.setHead q e).num = c.num := by cases q <;> rfl

theorem Core.setHead_pend (c : Core) (q : EngQ) (e : Entry) : (c.setHead q e).pend = c.pend := by cases q <;> rfl

theorem landPush_pend (s : State) (n q : Nat) (v : Word) (k : Nat) : (getCore (landPush s n q v) k).pend = (getCore s k).pend := by
  unfold landPush
  dsimp only
  split <;> exact getCore_modCore_pend _ _ _

theorem advanceDrain_pend (s : State) (n k : Nat) : (getCore (advanceDrain s n) k).pend = (getCore s k).pend := by
  unfold advanceDrain
  split
  · rfl
  · dsimp only
    split
    · rfl
    · exact getCore_modCore_pend _ _ _ (fun c => Core.setHead_num c _ _) (fun c => Core.setHead_pend c _ _)

/-- A landing takes no other result out of flight. -/
theorem landOne_pend (s : State) (n : Nat) (l : Land) (k : Nat) : (getCore (landOne s n l) k).pend = (getCore s k).pend := by
  cases l <;> simp only [landOne]
  case sreg => exact getCore_modCore_pend _ _ _ (Core.setField_num · _ _ _ _) (Core.setField_pend · _ _ _ _)
  case push => exact landPush_pend _ _ _ _ _
  case creg => exact getCore_modCore_pend _ _ _ (Core.crWrite_num · _ _) (Core.crWrite_pend · _ _)
  case amax clr part sa =>
    have folded (m : BitVec 33) : (getCore (modCore (advanceDrain s n) n (fun c => { c with amax := m })) k).pend =
        (getCore s k).pend := by
      rw [getCore_modCore_pend, advanceDrain_pend]
    split
    · exact folded _
    · split
      · rw [landPush_pend, folded]
      · rw [getCore_modCore_pend _ _ _ (Core.setReg_num · _ _) (Core.setReg_pend · _ _), folded]
  all_goals exact getCore_modCore_pend _ _ _

/-- What falls due by tick b has landed, and the rest is still in flight. -/
theorem landDue_pend (s : State) (n b : Nat) :
    (getCore (landDue s n b) n).pend = (getCore s n).pend.filter (fun p => b < p.due) := by
  have kept (l : List Pend) (t : State) :
      (getCore (l.foldl (fun t p => landOne t n p.land) t) n).pend = (getCore t n).pend := by
    induction l generalizing t with
    | nil => rfl
    | cons p l ih => rw [List.foldl_cons, ih, landOne_pend]
  rw [landDue, kept, getCore_modCore_same rfl]

/-- The port that a write to q0-q3 reaches (R14, R32), by the core's place in its bed. -/
theorem portTarget_of_place (d b : Nat) {row col q : Nat} (hr : row < 4) (hc : col < 2) (hq : q < 4) :
    portTarget (64 * d + 8 * b + 2 * row + col) q =
      [(64 * d + 8 * b + 2 * row + (1 - col), 1), (64 * d + 8 * b + 2 * row + (1 - col), 0),
        (64 * d + 8 * b + 2 * ((row + 3) % 4) + col, 3), (64 * d + 8 * b + 2 * ((row + 1) % 4) + col, 2)].getD q (0, 0) := by
  have base : (64 * d + 8 * b + 2 * row + col) / 8 * 8 = 64 * d + 8 * b := by omega
  have its : (64 * d + 8 * b + 2 * row + col) % 8 / 2 = row := by omega
  have side : (64 * d + 8 * b + 2 * row + col) % 2 = col := by omega
  unfold portTarget
  rw [base, its, side]
  interval_cases q <;> rfl

/-- A push toward a neighbour is on its way to the neighbour's port. -/
theorem landOne_push_neighbour (s : State) (n : Nat) {q : Nat} (v : Word) (hq : q < 4) :
    landOne s n (.push q v) = modCore s (portTarget n q).1 (fun c => { c with
      flights := c.flights ++ [{ port := (portTarget n q).2, v := v, bt := (bedOf s n).btick, wt := (bedOf s n).bwall }] }) := by
  simp only [landOne, landPush, if_pos hq]

/-- A push into a status port is there at once. -/
theorem landOne_push_own (s : State) (n : Nat) {q : Nat} (v : Word) (hq : 4 ≤ q) :
    landOne s n (.push q v) = modCore s n (fun c => c.setPort q
      (c.port q ++ [{ v := v, ready := (bedOf s n).btick, q := 0, seq := 0 }])) := by
  simp only [landOne, landPush, if_neg (Nat.not_lt.2 hq)]

/-- The containers of a vector column take the bits under each mask, but where a running drain shows its own (R287, R328). -/
theorem landOne_vcol (s : State) (n r j : Nat) (l : List (Nat × Cont × Cont)) :
    landOne s n (.vcol r j l) = modCore s n (fun c => { c with v := landCol c.v c.drainKeys r j l }) ∧
    (getCore (landOne s n (.vcol r j l)) n).v = landCol (getCore s n).v (getCore s n).drainKeys r j l := by
  refine ⟨rfl, ?_⟩
  simp only [landOne]
  rw [getCore_modCore_same rfl]

/-- The elements of a mask's column take their bits (R301). -/
theorem landOne_mcol (s : State) (n p j : Nat) (l : List (Nat × Bool)) :
    landOne s n (.mcol p j l) = modCore s n (fun c => { c with p := putAll false (2048 * p + 128 * j + ·) c.p l }) ∧
    (getCore (landOne s n (.mcol p j l)) n).p = putAll false (2048 * p + 128 * j + ·) (getCore s n).p l := by
  refine ⟨rfl, ?_⟩
  simp only [landOne]
  rw [getCore_modCore_same rfl]
  rfl

/-- A pattern takes its bytes (R197). -/
theorem landOne_pat (s : State) (n p : Nat) (bs : List Byte) :
    landOne s n (.pat p bs) = modCore s n (fun c => { c with bp := tset patIdentity c.bp p bs }) ∧
    ∀ q, (getCore (landOne s n (.pat p bs)) n).pattern q = if q = p then bs else (getCore s n).pattern q := by
  refine ⟨rfl, fun q => ?_⟩
  simp only [landOne]
  rw [getCore_modCore_same rfl]
  exact tget_tset ..

/-- Settles O44: each kind of result by the lemma about its landing. -/
theorem resultsLand : Obligations.ResultsLand := by
  unfold Obligations.ResultsLand
  refine ⟨landDue_pend, fun c r lo len v _ m i hi => c.getLsbD_setField r lo len v m hi, fun _ _ _ _ _ _ => rfl, ?_,
    fun s n q v => landOne_push_own s n v, fun s n r v => ⟨rfl, crRead_crWrite s v, ?_, ?_⟩, ?_, ?_, ?_, ?_, ?_⟩
  · intro s d b row col q v hr hc hq
    dsimp only
    rw [← portTarget_of_place d b hr hc hq]
    exact landOne_push_neighbour s _ v hq
  · rintro rfl unit
    exact crRead_hlim_unit v unit
  · rintro rfl low high
    exact crRead_uhtop low high
  · intro s n r j l
    obtain ⟨eq, col⟩ := landOne_vcol s n r j l
    simp only [← Core.mem_drainKeys, col]
    refine ⟨eq, fun apart x hx free => ?_, fun k i other => ?_⟩
    · refine BitVec.eq_of_getLsbD_eq fun i _ => ?_
      rw [BitVec.getLsbD_and, BitVec.getLsbD_and]
      cases hi : x.2.1.getLsbD i
      · rw [Bool.and_false, Bool.and_false]
      · rw [getLsbD_landCol_mem _ r j apart hx free hi]
    · exact getLsbD_landCol_other _ r j (fun x hx key => key ▸ other x hx key) _
  · intro s n p j l
    obtain ⟨eq, col⟩ := landOne_mcol s n p j l
    simp only [col]
    exact ⟨eq, fun once x hx => tget_putAll_mem false (add_right_injective _) once hx _,
      fun k other => tget_putAll_other false _ other _⟩
  · intro s n p bs
    obtain ⟨eq, read⟩ := landOne_pat s n p bs
    refine ⟨?_, (read p).trans (if_pos rfl), fun q hq => (read q).trans (if_neg hq)⟩
    rw [eq, getCore_modCore_same rfl]
    rfl
  · intro s n sa clr part idle
    exact ⟨amaxJoin _ part, amaxJoin_mag _ part, amaxJoin_nan _ part, landOne_amax clr part sa idle⟩
  · exact fun s n k => ⟨rfl, fun c t => c.tokSet_setToken k t, rfl, rfl⟩

end Sys2Proof.Machine
end

section
/-! What ramp and which tick period the temperature asks for (R21, R22, R416): RAMPHINT is the cheapest ramp, and the thermal
demand rises in steps from 16 to 64. -/

namespace Sys2Proof.Machine

/-! ### Lists of the first numbers that pass a test -/

/-- The first numbers that pass a test are those below the first that does not. -/
theorem takeWhile_range_spec (p : Nat → Bool) (n : Nat) :
    let m := ((List.range n).takeWhile p).length
    m ≤ n ∧ (∀ i < m, p i = true) ∧ (m < n → p m = false) := by
  intro m
  have at_ : m = (List.range n).findIdx (fun i => !p i) := by
    have le := List.findIdx_le_length (xs := List.range n) (p := fun i => !p i)
    exact (congrArg List.length List.takeWhile_eq_take_findIdx_not).trans (List.length_take.trans (Nat.min_eq_left le))
  have le : m ≤ n := at_ ▸ List.findIdx_le_length.trans_eq List.length_range
  refine ⟨le, fun i hi => ?_, fun hm => ?_⟩
  · have fails := List.not_of_lt_findIdx (at_ ▸ hi : i < (List.range n).findIdx (fun i => !p i))
    simpa using fails
  · have len : (List.range n).findIdx (fun i => !p i) < (List.range n).length := by rwa [← at_, List.length_range]
    have found := List.findIdx_getElem (w := len)
    simpa [← at_] using found

/-- A sequence that falls up to m and rises from there to n is least at m, and at no earlier place as low. -/
theorem least_of_falls_then_rises {f : Nat → ℝ} {m n : Nat} (falls : ∀ i < m, f (i + 1) < f i)
    (rises : ∀ i, m ≤ i → i < n → f i ≤ f (i + 1)) : (∀ i ≤ n, f m ≤ f i) ∧ ∀ i < m, f m < f i := by
  have before : ∀ k, ∀ i < k, k ≤ m → f k < f i := fun k => by
    induction k with
    | zero => exact fun i hi => absurd hi (Nat.not_lt_zero i)
    | succ k ih =>
      intro i hi hk
      have step := falls k hk
      obtain hlt | rfl := Nat.lt_succ_iff_lt_or_eq.1 hi
      · exact step.trans (ih i hlt (Nat.le_of_succ_le hk))
      · exact step
  have after : ∀ i, m ≤ i → i ≤ n → f m ≤ f i := fun i hm => by
    induction i, hm using Nat.le_induction with
    | base => exact fun _ => le_rfl
    | succ i hm ih => exact fun hn => (ih (Nat.le_of_succ_le hn)).trans (rises i hm hn)
  refine ⟨fun i hi => ?_, fun i hi => before m i hi le_rfl⟩
  obtain h | h := Nat.lt_or_ge i m
  · exact (before m i h le_rfl).le
  · exact after i h hi

/-! ### RAMPHINT (R21, R22) -/

/-- The energy of R21 at ramp 2^e and n sixteenths of a degree above 85. -/
noncomputable def rampCost (n : Int) (e : Nat) : ℝ := 0.9 / 2 ^ e + 2 ^ e * (0.015 * (2 : ℝ) ^ ((n : ℝ) / 192))

/-- The test of `rampHint`: doubling ramp k lowers the energy. -/
def doublingPays (n : Int) (k : Nat) : Bool :=
  if 0 ≤ n then k ^ 384 * 2 ^ n.toNat < 30 ^ 192 else k ^ 384 < 30 ^ 192 * 2 ^ (-n).toNat

theorem rampHint_eq (n : Int) : rampHint n = ((List.range 5).takeWhile (fun i => doublingPays n (2 ^ i))).length := rfl

/-- The test in one form for both signs. -/
theorem doublingPays_iff_zpow (n : Int) (k : Nat) : doublingPays n k = true ↔ (k : ℝ) ^ 384 * 2 ^ n < 30 ^ 192 := by
  unfold doublingPays
  split
  · next h =>
    obtain ⟨m, rfl⟩ := Int.eq_ofNat_of_zero_le h
    rw [decide_eq_true_iff, Int.toNat_natCast, zpow_natCast]
    exact_mod_cast Iff.rfl
  · next h =>
    obtain ⟨m, rfl⟩ : ∃ m : Nat, n = -(m : Int) := ⟨(-n).toNat, by omega⟩
    rw [decide_eq_true_iff, neg_neg, Int.toNat_natCast, zpow_neg, zpow_natCast, ← div_eq_mul_inv,
      div_lt_iff₀ (by positivity)]
    exact_mod_cast Iff.rfl

/-- Doubling the ramp pays exactly when it lowers the energy. -/
theorem doublingPays_iff (n : Int) (e : Nat) : doublingPays n (2 ^ e) = true ↔ rampCost n (e + 1) < rampCost n e := by
  have pos : (0 : ℝ) < 2 ^ ((n : ℝ) / 192) := Real.rpow_pos_of_pos two_pos _
  have pow : ((2 : ℝ) ^ ((n : ℝ) / 192)) ^ 192 = 2 ^ n := by
    rw [← Real.rpow_natCast, ← Real.rpow_mul two_pos.le, ← Real.rpow_intCast]
    norm_num
  have side : (((2 ^ e : Nat) : ℝ)) ^ 384 * 2 ^ n = (4 ^ e * 2 ^ ((n : ℝ) / 192)) ^ 192 := by
    rw [mul_pow, pow, Nat.cast_pow, ← pow_mul, ← pow_mul, show (4 : ℝ) = 2 ^ 2 by norm_num, ← pow_mul]
    congr 2
    ring
  rw [doublingPays_iff_zpow, side, pow_lt_pow_iff_left₀ (by positivity) (by norm_num) (by norm_num), rampCost, rampCost]
  have two : (0 : ℝ) < 2 ^ e := by positivity
  have four : (4 : ℝ) ^ e = 2 ^ e * 2 ^ e := by rw [← mul_pow]; norm_num
  rw [four, pow_succ, ← sub_pos (b := 0.9 / (2 ^ e * 2) + _)]
  generalize (2 : ℝ) ^ e = x at two ⊢
  generalize (2 : ℝ) ^ ((n : ℝ) / 192) = l
  have diff : 0.9 / x + x * (0.015 * l) - (0.9 / (x * 2) + x * 2 * (0.015 * l)) = 0.015 * (30 - x * x * l) / x := by
    field_simp
    ring
  rw [diff, div_pos_iff_of_pos_right two]
  constructor <;> intro h <;> linarith

/-- Once doubling does not pay, it does not pay later. -/
theorem doublingPays_of_le {n : Int} {i j : Nat} (le : i ≤ j) (h : doublingPays n (2 ^ j) = true) : doublingPays n (2 ^ i) = true := by
  rw [doublingPays_iff_zpow] at *
  refine lt_of_le_of_lt ?_ h
  have pow : ((2 ^ i : Nat) : ℝ) ≤ ((2 ^ j : Nat) : ℝ) := Nat.cast_le.2 (Nat.pow_le_pow_right two_pos le)
  gcongr

/-- RAMPHINT is the ramp of the least energy, and of two that tie the shorter. -/
theorem rampHint_least (n : Int) :
    rampHint n ≤ 5 ∧ (∀ e ≤ 5, rampCost n (rampHint n) ≤ rampCost n e) ∧
      ∀ e < rampHint n, rampCost n (rampHint n) < rampCost n e := by
  obtain ⟨le, pays, stops⟩ := takeWhile_range_spec (fun i => doublingPays n (2 ^ i)) 5
  rw [← rampHint_eq] at le pays stops
  refine ⟨le, least_of_falls_then_rises (fun i hi => (doublingPays_iff n i).1 (pays i hi)) fun i hm hi => ?_⟩
  have not : doublingPays n (2 ^ i) = false := by
    by_contra h
    have first := doublingPays_of_le hm (Bool.of_not_eq_false h)
    rw [stops (hm.trans_lt hi)] at first
    cases first
  rw [← not_lt, ← doublingPays_iff, not]
  exact Bool.false_ne_true

/-! ### The thermal demand (R416) -/

theorem thermalDemand_low {t : Int} (h : t ≤ 1680) : thermalDemand t = 16 := if_pos h

theorem thermalDemand_high {t : Int} (h : 1760 ≤ t) : thermalDemand t = 64 := by
  rw [thermalDemand, if_neg (by omega), if_pos h]

/-- Between 105 and 110 degrees the demand rises by 48 over 5 degrees, rounded up. -/
theorem thermalDemand_between {t : Int} (low : 1680 < t) (high : t < 1760) :
    (thermalDemand t : Int) = 16 + ⌈(48 : ℚ) * (t / 16 - 105) / 5⌉ := by
  rw [thermalDemand, if_neg (by omega), if_neg (by omega)]
  obtain ⟨x, rfl⟩ : ∃ x : Nat, t = 1680 + x := ⟨(t - 1680).toNat, by omega⟩
  have up : ⌈(48 : ℚ) * ((1680 + x : Int) / 16 - 105) / 5⌉ = (((48 * x + 79) / 80 : Nat) : Int) := by
    have above : 48 * x ≤ 80 * ((48 * x + 79) / 80) := by omega
    have below : 80 * ((48 * x + 79) / 80) < 48 * x + 80 := by omega
    generalize (48 * x + 79) / 80 = z at above below ⊢
    have above' : (48 : ℚ) * x ≤ 80 * z := by exact_mod_cast above
    have below' : (80 : ℚ) * z < 48 * x + 80 := by exact_mod_cast below
    rw [Int.ceil_eq_iff]
    push_cast
    constructor <;> linarith
  rw [up, show (1680 + (x : Int) - 1680).toNat = x by omega]
  push_cast
  rfl

end Sys2Proof.Machine
end

section
/-! What the cores and the launch scheduler leave alone: no work of theirs touches a bed's clock, a die or the platform. One
lemma per operation, `(f s …).clock = s.clock`. -/

namespace Sys2Proof.Machine

/-- The parts of a state that its beds' clocks, its sensors and the platform hold. -/
def State.clock (s : State) : Bed × List Bed × List Die × Platform := (s.bed, s.otherBeds, s.dies, s.plat)

theorem getBed_of_clock {s t : State} (h : t.clock = s.clock) : getBed t = getBed s := by
  obtain ⟨hb, ho, -, -⟩ := Prod.ext_iff.1 h |>.imp_right Prod.ext_iff.1 |>.imp_right (·.imp_right Prod.ext_iff.1)
  funext n
  rw [getBed, getBed, show t.bed = s.bed from hb, show t.otherBeds = s.otherBeds from ho]

theorem dies_of_clock {s t : State} (h : t.clock = s.clock) : t.dies = s.dies := congrArg (·.2.2.1) h

theorem plat_of_clock {s t : State} (h : t.clock = s.clock) : t.plat = s.plat := congrArg (·.2.2.2) h

theorem getDie_of_clock {s t : State} (h : t.clock = s.clock) (d : Nat) : getDie t d = getDie s d := by
  rw [getDie, dies_of_clock h, ← getDie]

/-- Any other part of a state changed. -/
@[simp] theorem clock_update (s : State) (mem : List Host.Cell) (ecc : List Nat) (writes : Tab Nat) (core : Core) (others : List Core)
    (lsc : Lsc) (digests : List Digest) (agenda : List Instr) (auto : Bool) (fresh : Nat) (log : List Output) :
    (State.mk mem ecc writes core others s.bed s.otherBeds s.dies lsc digests s.plat agenda auto fresh log).clock = s.clock := rfl

/-- A run of operations each of which leaves the clock. -/
theorem clock_foldl {β : Type} {f : State → β → State} (h : ∀ s x, (f s x).clock = s.clock) (l : List β) (s : State) :
    (l.foldl f s).clock = s.clock := by
  induction l generalizing s with
  | nil => rfl
  | cons x l ih => exact (ih _).trans (h s x)

theorem clock_ite {s t u : State} {p : Prop} [Decidable p] (h : t.clock = s.clock) (k : u.clock = s.clock) :
    (if p then t else u).clock = s.clock := by
  by_cases hp : p
  · rwa [if_pos hp]
  · rwa [if_neg hp]

theorem MemStep.clock {s t : State} (h : MemStep s t) : t.clock = s.clock := by rw [h.1]; rfl

/-! ### Cores -/

@[simp] theorem setCore_clock (s : State) (c : Core) : (setCore s c).clock = s.clock := by rw [setCore_only]; rfl

@[simp] theorem modCore_clock (s : State) (n : Nat) (f : Core → Core) : (modCore s n f).clock = s.clock := setCore_clock _ _

@[simp] theorem drawFree_clock (s : State) : (drawFree s).1.clock = s.clock := rfl

@[simp] theorem writePlaces_clock (s : State) (l : List (Place × Byte)) : (writePlaces s l).1.clock = s.clock :=
  (writePlaces_memStep s l).clock

@[simp] theorem addWork_clock (s : State) (n w k : Nat) : (addWork s n w k).clock = s.clock := modCore_clock _ _ _

/-! ### The trellis (R315-R341) -/

@[simp] theorem closeEntry_clock (s : State) (n : Nat) (q : EngQ) (e : Entry) (flt : Bool) (d c w : Nat) :
    (closeEntry s n q e flt d c w).clock = s.clock := setCore_clock _ _

@[simp] theorem completeEntry_clock (s : State) (n : Nat) (q : EngQ) (e : Entry) (d c w : Nat) :
    (completeEntry s n q e d c w).clock = s.clock := by simp [completeEntry]

@[simp] theorem failEntry_clock (s : State) (n : Nat) (q : EngQ) (e : Entry) (code : Nat) (a x : Word) (d c w : Nat) :
    (failEntry s n q e code a x d c w).clock = s.clock := by simp [failEntry]

@[simp] theorem pushStatus_clock (s : State) (n : Nat) (q : EngQ) (e : Entry) (v : Word) :
    (pushStatus s n q e v).1.clock = s.clock := by
  unfold pushStatus; dsimp only; split <;> simp

@[simp] theorem pushOut_clock (s : State) (n : Nat) (q : EngQ) : (pushOut s n q).clock = s.clock := by
  unfold pushOut
  split
  · split
    · dsimp only
      split <;> simp
    · rfl
  · rfl

@[simp] theorem trellisStart_clock (s : State) (n : Nat) (e : Entry) (b : Nat) : (trellisStart s n e b).clock = s.clock := by
  unfold trellisStart
  dsimp only
  split <;> simp

theorem execTrellisEntryStart_clock (n : Nat) (s : State) : (after s (execTrellisEntryStart n s)).clock = s.clock := by
  unfold execTrellisEntryStart
  dsimp only
  split
  · split
    · split <;> simp [after]
    · rfl
  · rfl

theorem execStampTick_clock (n : Nat) (s : State) : (after s (execStampTick n s)).clock = s.clock := by
  unfold execStampTick
  dsimp only
  split
  · split
    · split <;> simp [after]
    · simp [after]
  · simp [after]

@[simp] theorem writeRows_clock (s : State) (c : Core) (e : Entry) (d : Drain) (t : Tile) (rows : List Nat) :
    (writeRows s c e d t rows).clock = s.clock :=
  clock_foldl (fun _ _ => clock_foldl (fun _ _ => writePlaces_clock _ _) _ _) _ _

@[simp] theorem doneFetch_clock (s : State) (n : Nat) (e : Entry) (col : Bool) : (doneFetch s n e col).clock = s.clock := by
  unfold doneFetch
  dsimp only
  split
  · exact failEntry_clock ..
  · exact (completeEntry_clock ..).trans (setCore_clock ..)

@[simp] theorem doneLoad_clock (s : State) (n : Nat) (e : Entry) (sp : Bool) : (doneLoad s n e sp).clock = s.clock := by
  exact clock_ite (failEntry_clock ..) ((completeEntry_clock ..).trans (setCore_clock ..))

@[simp] theorem doneMac_clock (s : State) (n : Nat) (e : Entry) (src : Tab Byte × List Nat) (a b : Nat) (z : Bool) (acc : Nat) :
    (doneMac s n e src a b z acc).clock = s.clock := by
  exact clock_ite ((completeEntry_clock ..).trans (setCore_clock ..)) ((failEntry_clock ..).trans (setCore_clock ..))

@[simp] theorem doneDrain_clock (s : State) (n : Nat) (e : Entry) (d : Drain) : (doneDrain s n e d).clock = s.clock := by
  unfold doneDrain; dsimp only; repeat' split
  all_goals simp

@[simp] theorem doneAnorm_clock (s : State) (n : Nat) (e : Entry) (t sh : Nat) : (doneAnorm s n e t sh).clock = s.clock := by
  exact clock_ite ((completeEntry_clock ..).trans (setCore_clock ..)) ((failEntry_clock ..).trans (setCore_clock ..))

@[simp] theorem trellisDone_clock (s : State) (n : Nat) (e : Entry) : (trellisDone s n e).clock = s.clock := by
  unfold trellisDone
  dsimp only
  repeat' split
  all_goals simp

theorem execTrellisEntryCompletion_clock (n : Nat) (s : State) : (after s (execTrellisEntryCompletion n s)).clock = s.clock := by
  unfold execTrellisEntryCompletion
  dsimp only
  repeat' split
  all_goals simp [after]

@[simp] theorem trellisTick_clock (s : State) (n : Nat) : (trellisTick s n).clock = s.clock := by
  unfold trellisTick
  split
  · split
    · dsimp only
      rw [execTrellisEntryCompletion_clock, pushOut_clock, modCore_clock]
      split <;> simp
    · rfl
  · rfl

@[simp] theorem trellisStarts_clock (s : State) (n : Nat) : (trellisStarts s n).clock = s.clock := by
  rw [trellisStarts, execTrellisEntryStart_clock, execStampTick_clock]

@[simp] theorem holdTrellis_clock (s : State) (n : Nat) (e : Entry) : (holdTrellis s n e).clock = s.clock := by
  unfold holdTrellis
  dsimp only
  repeat' split
  all_goals simp

@[simp] theorem holdEngine_clock (s : State) (n : Nat) (q : EngQ) : (holdEngine s n q).clock = s.clock := by
  unfold holdEngine
  dsimp only
  repeat' split
  all_goals simp

@[simp] theorem endTick_clock (s : State) (b : Nat) : (endTick s b).clock = s.clock :=
  clock_foldl (fun _ _ => trellisTick_clock _ _) _ _

/-! ### Results, columns and waits -/

@[simp] theorem landPush_clock (s : State) (n q : Nat) (v : Word) : (landPush s n q v).clock = s.clock := by
  unfold landPush; dsimp only; split <;> simp

@[simp] theorem advanceDrain_clock (s : State) (n : Nat) : (advanceDrain s n).clock = s.clock := by
  unfold advanceDrain
  dsimp only
  repeat' split
  all_goals simp

@[simp] theorem landOne_clock (s : State) (n : Nat) (l : Land) : (landOne s n l).clock = s.clock := by
  cases l <;> simp only [landOne, modCore_clock, landPush_clock]
  case amax => repeat' split
               all_goals simp

@[simp] theorem landDue_clock (s : State) (n b : Nat) : (landDue s n b).clock = s.clock :=
  (clock_foldl (fun _ _ => landOne_clock _ _ _) _ _).trans (modCore_clock _ _ _)

@[simp] theorem vecCharge_clock (s : State) (n : Nat) (fl : VFlight) (j : Nat) : (vecCharge s n fl j).clock = s.clock := by
  unfold vecCharge
  dsimp only
  repeat' split
  all_goals simp

@[simp] theorem vecCharges_clock (s : State) (n b : Nat) : (vecCharges s n b).clock = s.clock := by
  unfold vecCharges
  exact clock_foldl (fun _ _ => clock_ite (vecCharge_clock ..) rfl) _ _

@[simp] theorem setLaunch_clock (s : State) (x : Launch) : (setLaunch s x).clock = s.clock := rfl

@[simp] theorem setArrived_clock (s : State) (c : Core) (v : Bool) : (setArrived s c v).clock = s.clock := by
  unfold setArrived; split <;> simp

@[simp] theorem nextSuperstep_clock (s : State) (c : Core) : (nextSuperstep s c).clock = s.clock := by
  unfold nextSuperstep; dsimp only; exact setCore_clock _ _

@[simp] theorem postArrival_clock (s : State) (n : Nat) : (postArrival s n).clock = s.clock := by
  unfold postArrival
  dsimp only
  repeat' split
  all_goals simp

@[simp] theorem endWait_clock (s : State) (n b : Nat) : (endWait s n b).clock = s.clock := by
  unfold endWait
  dsimp only
  repeat' split
  all_goals simp

@[simp] theorem tickArea_clock (s : State) (bt : Nat) (c : Core) : (tickArea s bt c).clock = s.clock := by
  unfold tickArea
  repeat' split
  all_goals simp

@[simp] theorem tickAreas_clock (s : State) (b : Nat) : (tickAreas s b).clock = s.clock :=
  clock_foldl (fun _ _ => tickArea_clock _ _ _) _ _

@[simp] theorem tickBudget_clock (s : State) (n : Nat) : (tickBudget s n).clock = s.clock := by
  unfold tickBudget execBudgetExpiry
  dsimp only
  repeat' split
  all_goals simp [after]

/-! ### A bed in a debug halt (R181) -/

@[simp] theorem recordHalt_clock (s : State) (b : Nat) : (recordHalt s b).clock = s.clock := by
  unfold recordHalt
  refine clock_foldl (fun t c => ?_) _ _
  dsimp only
  split <;> simp

@[simp] theorem haltTrellis_clock (s : State) (b : Nat) : (haltTrellis s b).clock = s.clock := by
  unfold haltTrellis
  refine clock_foldl (fun t c => ?_) _ _
  rw [trellisTick_clock, execTrellisEntryStart_clock]

@[simp] theorem parkEngines_clock (s : State) (b : Nat) : (parkEngines s b).clock = s.clock := by
  unfold parkEngines
  refine clock_foldl (fun t c => ?_) _ _
  refine (clock_foldl (fun _ _ => holdEngine_clock _ _ _) _ _).trans ?_
  repeat' split
  all_goals simp

/-! ### The launch scheduler (R398-R402) -/

@[simp] theorem putJob_clock (s : State) (j : Job) : (putJob s j).clock = s.clock := rfl

@[simp] theorem putGroup_clock (s : State) (g : Group) : (putGroup s g).clock = s.clock := rfl

@[simp] theorem queueRec_clock (s : State) (r : CRec) : (queueRec s r).clock = s.clock := rfl

@[simp] theorem ctrWr_clock (s : State) (j : Job) (off v : Nat) : (ctrWr s j off v).clock = s.clock := by
  unfold ctrWr; exact clock_ite rfl (clock_update s _ _ _ _ _ _ _ _ _ _ _)

@[simp] theorem ctrInc_clock (s : State) (j : Job) (off : Nat) : (ctrInc s j off).clock = s.clock := ctrWr_clock _ _ _ _

@[simp] theorem endUnit_clock (s : State) (x : Launch) (u : UnitRec) (st code code2 d e j : Nat) :
    (endUnit s x u st code code2 d e j).clock = s.clock := by
  unfold endUnit
  dsimp only
  split <;> simp

@[simp] theorem cancelUnit_clock (s : State) (x : Launch) (k : Nat) (u : UnitRec) : (cancelUnit s x k u).clock = s.clock := by
  unfold cancelUnit
  dsimp only
  repeat' split
  all_goals simp

@[simp] theorem cancelUnits_clock (s : State) (x : Launch) : (cancelUnits s x).clock = s.clock :=
  clock_foldl (fun _ _ => cancelUnit_clock _ _ _ _) _ _

@[simp] theorem noteEnds_clock (s : State) (x : Launch) : (noteEnds s x).clock = s.clock := rfl

@[simp] theorem reapUnit_clock (s : State) (x : Launch) (u : UnitRec) : (reapUnit s x u).clock = s.clock := by
  unfold reapUnit
  dsimp only
  repeat' split
  all_goals simp

@[simp] theorem reapAll_clock (s : State) : (reapAll s).clock = s.clock :=
  (clock_foldl (fun _ _ => clock_foldl (fun _ _ => reapUnit_clock _ _ _) _ _) _ _).trans
    (clock_foldl (fun _ _ => noteEnds_clock _ _) _ _)

@[simp] theorem cancelLaunch_clock (s : State) (x : Launch) : (cancelLaunch s x).clock = s.clock := by
  unfold cancelLaunch
  dsimp only
  split
  · rfl
  · rw [cancelUnits_clock]; rfl

@[simp] theorem freeBeds_clock (s : State) (bs : List Nat) : (freeBeds s bs).clock = s.clock :=
  clock_foldl (fun _ _ => clock_foldl (fun _ _ => modCore_clock _ _ _) _ _) _ _

@[simp] theorem endLaunch_clock (s : State) (x : Launch) : (endLaunch s x).clock = s.clock := by
  unfold endLaunch
  dsimp only
  split <;> simp

@[simp] theorem endGraph_clock (s : State) (j : Job) (g : Group) : (endGraph s j g).clock = s.clock := by
  unfold endGraph
  dsimp only
  repeat' split
  all_goals simp

@[simp] theorem haltJob_clock (s : State) (j : Job) (p : Group) : (haltJob s j p).clock = s.clock := ctrWr_clock _ _ _ _

@[simp] theorem endPhase_clock (s : State) (j : Job) (p : Group) : (endPhase s j p).clock = s.clock := by
  refine (queueRec_clock _ _).trans (clock_ite ?_ ?_) <;> simp

@[simp] theorem endJobNow_clock (s : State) (j : Job) : (endJobNow s j).clock = s.clock := by
  simp [endJobNow]

@[simp] theorem preempted_clock (s : State) (x : Launch) : (preempted s x).clock = s.clock := freeBeds_clock _ _

@[simp] theorem becomeReady_clock (s : State) (x : Launch) : (becomeReady s x).clock = s.clock := rfl

theorem clock_of_map {α : Type} {f : State → α → State} (hf : ∀ s x, (f s x).clock = s.clock) {s t : State} {o : Option α}
    (h : o.map (f s) = some t) : t.clock = s.clock := by
  obtain ⟨x, -, rfl⟩ := Option.map_eq_some_iff.1 h
  exact hf s x

theorem clock_of_withJob {f : State → Job → Group → State} (hf : ∀ s j g, (f s j g).clock = s.clock) {s t : State}
    {o : Option Group} (h : o.bind (withJob s f) = some t) : t.clock = s.clock := by
  obtain ⟨g, -, hg⟩ := Option.bind_eq_some_iff.1 h
  exact clock_of_map (f := fun s j => f s j g) (fun s j => hf s j g) hg

/-- One end or change of state of the scheduler is one of eight operations. -/
theorem settleStep_clock {s t : State} (h : settleStep s = some t) : t.clock = s.clock := by
  obtain ⟨o, ho, ht⟩ := List.exists_of_findSome?_eq_some h
  obtain rfl : o = some t := ht
  simp only [List.mem_cons, List.not_mem_nil, or_false] at ho
  obtain h | h | h | h | h | h | h | h := ho
  · exact clock_of_map endLaunch_clock h.symm
  · exact clock_of_withJob endGraph_clock h.symm
  · exact clock_of_withJob haltJob_clock h.symm
  · exact clock_of_withJob endPhase_clock h.symm
  · exact clock_of_map cancelLaunch_clock h.symm
  · exact clock_of_map preempted_clock h.symm
  · exact clock_of_map becomeReady_clock h.symm
  · exact clock_of_map endJobNow_clock h.symm

theorem settleLsc_clock (s : State) (m : Nat) : (settleLsc s m).clock = s.clock := by
  induction m generalizing s with
  | zero => rfl
  | succ m ih =>
    rw [settleLsc]
    split
    · next t h => rw [ih, settleStep_clock h]
    · rfl

@[simp] theorem afterLsc_clock (s : State) : (afterLsc s).clock = s.clock := settleLsc_clock _ _

@[simp] theorem tripSaved_clock (s : State) : (tripSaved s).clock = s.clock :=
  clock_foldl (fun _ _ => clock_foldl (fun _ _ => cancelUnit_clock _ _ _ _) _ _) _ _

@[simp] theorem failLaunches_clock (ended : List (Nat × Nat)) (s : State) : (failLaunches ended s).clock = s.clock := by
  unfold failLaunches
  refine clock_foldl (fun t x => ?_) _ _
  dsimp only
  split <;> simp

end Sys2Proof.Machine
end

section
/-! The course of the platform (R421-R429): dies, beds after a reset, bring-up, the loss of power and trips. -/

namespace Sys2Proof.Machine
open Sys2Proof.Stmt

/-! ### Dies -/

/-- In a list in which each item with a number was replaced by one that has it, that one is found by the number. -/
theorem find_map_replace {α : Type} (num : α → Nat) (x : α) (l : List α) (n : Nat) :
    (l.map (fun y => if num y = num x then x else y)).find? (fun y => num y = n) =
      if num x = n then (l.find? (fun y => num y = n)).map (fun _ => x) else l.find? (fun y => num y = n) := by
  induction l with
  | nil => simp
  | cons y l ih => rw [List.map_cons, List.find?_cons, List.find?_cons, ih]; grind

theorem getDie_setDie_other (s : State) {d : Die} {n : Nat} (h : n ≠ d.num) : getDie (setDie s d) n = getDie s n := by
  rw [getDie, setDie, find_map_replace Die.num, if_neg (Ne.symm h), ← getDie]

/-- A die that the package has is replaced. -/
theorem getDie_setDie {s : State} {d : Die} (has : ∃ x ∈ s.dies, x.num = d.num) : getDie (setDie s d) d.num = d := by
  obtain ⟨x, hx, hn⟩ := has
  obtain ⟨y, hy⟩ : ∃ y, s.dies.find? (fun z => z.num = d.num) = some y :=
    Option.isSome_iff_exists.1 (List.find?_isSome.2 ⟨x, hx, decide_eq_true hn⟩)
  rw [getDie, setDie, find_map_replace Die.num, if_pos rfl, hy]
  rfl

@[simp] theorem getDie_num (s : State) (n : Nat) : (getDie s n).num = n := by
  unfold getDie
  cases h : s.dies.find? (fun d => d.num = n) with
  | none => rfl
  | some d => simpa using List.find?_some h

/-- Switching every aperture off changes no temperature. -/
theorem t16_aps_off (s : State) (n : Nat) :
    (getDie { s with dies := s.dies.map (fun d => { d with aps := [] }) } n).t16 = (getDie s n).t16 := by
  unfold getDie
  dsimp only
  rw [List.find?_map]
  cases h : s.dies.find? ((fun x : Die => decide (x.num = n)) ∘ fun d => { d with aps := [] }) with
  | none => rw [show s.dies.find? (fun x => x.num = n) = none from h]; rfl
  | some d => rw [show s.dies.find? (fun x => x.num = n) = some d from h]; rfl

/-! ### Cores and beds after a reset (R429) -/

/-- Of beds of which only those are listed that differ from their reset, each is found, or is its reset. -/
theorem find_differing {f : Nat → Bed} (num : ∀ n, (f n).num = n) {l : List Nat} {n : Nat} (hn : n ∈ l) :
    (((l.map f).filter (fun x => x ≠ Bed.reset x.num)).find? (fun x => x.num = n)).getD (Bed.reset n) = f n := by
  have there : f n ∈ l.map f := List.mem_map_of_mem hn
  cases found : ((l.map f).filter (fun x => x ≠ Bed.reset x.num)).find? (fun x => x.num = n) with
  | none =>
    have unlisted := List.find?_eq_none.1 found (f n)
    by_contra differs
    refine unlisted (List.mem_filter.2 ⟨there, decide_eq_true ?_⟩) (decide_eq_true (num n))
    rw [num]
    exact Ne.symm differs
  | some x =>
    obtain ⟨m, -, rfl⟩ := List.mem_map.1 (List.mem_filter.1 (List.mem_of_find?_eq_some found)).1
    have same : (f m).num = n := of_decide_eq_true (List.find?_some (p := fun x : Bed => decide (x.num = n)) found)
    rw [num] at same
    rw [same]
    rfl

/-- Beds as they leave reset, RAMPHINT by their dies' temperatures (R17, R22, R184). -/
theorem getBed_coldBeds (s : State) {b : Nat} (hb : b < 32) : getBed (coldBeds s) b = freshBed s b := by
  by_cases h : s.bed.num = b
  · subst h
    exact if_pos rfl
  · exact (if_neg h).trans (find_differing (fun _ => rfl)
      (List.mem_filter.2 ⟨List.mem_range.2 hb, decide_eq_true (Ne.symm h)⟩))

theorem noUnits_coldBeds (s : State) : noUnits (coldBeds s) := by
  simp [noUnits, coldBeds, coldCore, Core.reset]

/-! ### Bring-up (R428, R429) -/

/-- Cores, beds, apertures and scheduler as steps 1-4 of R429 leave them. -/
def cooled (s : State) : State := coldLsc (coldBeds { s with dies := s.dies.map (fun d => { d with aps := [] }) })

/-- The platform as a bring-up leaves it, before the image is verified. -/
def Platform.cooled (p : Platform) : Platform := { p with
  phases := [], derate := 0, recov := false, pwrcap := 1400, cap := [], der := [], bal := [], load := [], taper := []
  railTrip := false, heatTrip := false, stopped := [] }

/-- The package with its ports trained, running an image (R429 step 5): the submission region is zero. -/
def linkedWith (s : State) (image : List Byte) (fwver fresh : Nat) : State := { cooled s with
  fresh := fresh
  plat := { s.plat.cooled with power := .linked, image := image, fwver := fwver }
  mem := zeroN s.mem s.plat.subbase 0x201000
  ecc := s.ecc.filter (fun a => !(s.plat.subbase ≤ a && a < s.plat.subbase + 0x201000)) }

/-- The package after its ROM has looked for an image: linked with the one that runs, or in recovery. -/
def bootedTo (s : State) : Option State → State
  | some t => { t with
    plat := { t.plat with power := .linked }, mem := zeroN t.mem s.plat.subbase 0x201000
    ecc := t.ecc.filter (fun a => !(s.plat.subbase ≤ a && a < s.plat.subbase + 0x201000)) }
  | none => { cooled s with plat := { s.plat.cooled with power := .recovery, recov := true } }

theorem bringUp_boot (s : State) : bringUp s = bootedTo s (boot { cooled s with plat := s.plat.cooled }) := rfl

theorem boot_cooled (s : State) : boot { cooled s with plat := s.plat.cooled } =
    if verified s.plat s.plat.image then some { cooled s with plat := s.plat.cooled }
    else if verified s.plat s.plat.prev then some { cooled s with
      fresh := s.fresh + 1
      plat := { s.plat.cooled with image := s.plat.prev, fwver := (Config.freeValue s.fresh).toNat % 2 ^ 32 } }
    else none := rfl

/-- Bring-up ends with the latest image that verifies, or else in recovery. -/
theorem bringUp_eq (s : State) : bringUp s =
    if verified s.plat s.plat.image then linkedWith s s.plat.image s.plat.fwver s.fresh
    else if verified s.plat s.plat.prev then
      linkedWith s s.plat.prev ((Config.freeValue s.fresh).toNat % 2 ^ 32) (s.fresh + 1)
    else { cooled s with plat := { s.plat.cooled with power := .recovery, recov := true } } := by
  rw [bringUp_boot, boot_cooled]
  split_ifs <;> rfl

theorem noUnits_cooled (s : State) : noUnits (cooled s) := noUnits_coldBeds _

theorem getBed_cooled (s : State) {b : Nat} (hb : b < 32) : getBed (cooled s) b = freshBed s b := by
  refine (getBed_coldBeds _ hb).trans ?_
  rw [freshBed, t16_aps_off, ← freshBed]

/-- After a bring-up no unit runs, every bed is fresh, and the platform asks for nothing and has lost nothing; the package
comes up on an image that verifies, the submission region zero, or goes into recovery (R428, R429). -/
theorem bringUp_spec (s : State) :
    let t := bringUp s
    t.plat.rfail = s.plat.rfail ∧ t.plat.ttrip = s.plat.ttrip ∧ t.plat.railTrip = false ∧ t.plat.heatTrip = false ∧
    t.plat.derate = 0 ∧ t.plat.pwrcap = 1400 ∧ noUnits t ∧ (∀ b < 32, getBed t b = freshBed s b) ∧
    if verified s.plat s.plat.image = true ∨ verified s.plat s.plat.prev = true then t.plat.power = .linked ∧
      (∀ a, rd8 t.mem a = if s.plat.subbase ≤ a ∧ a < s.plat.subbase + 0x201000 then 0 else rd8 s.mem a)
    else t.plat.power = .recovery := by
  dsimp only
  rw [bringUp_eq]
  by_cases now : verified s.plat s.plat.image = true
  · rw [if_pos now, if_pos (.inl now)]
    exact ⟨rfl, rfl, rfl, rfl, rfl, rfl, noUnits_cooled s, fun b hb => getBed_cooled s hb, rfl, rd8_zeroN _ _ _⟩
  rw [if_neg now]
  by_cases before : verified s.plat s.plat.prev = true
  · rw [if_pos before, if_pos (.inr before)]
    exact ⟨rfl, rfl, rfl, rfl, rfl, rfl, noUnits_cooled s, fun b hb => getBed_cooled s hb, rfl, rd8_zeroN _ _ _⟩
  · rw [if_neg before, if_neg (not_or.2 ⟨now, before⟩)]
    exact ⟨rfl, rfl, rfl, rfl, rfl, rfl, noUnits_cooled s, fun b hb => getBed_cooled s hb, rfl⟩

/-! ### Trips (R424) -/

/-- Every core's unit killed by a trip. -/
def stopUnits (s : State) : State := { s with core := s.core.trip, others := s.others.map Core.trip }

/-- What the scheduler makes of a trip: saved units end, launches fail, and their ends are recorded. -/
def tripLsc (s : State) : State :=
  afterLsc (failLaunches ((s.lsc.launches.filter (launchOver s)).map (fun x => (x.job, x.lid))) (reapAll (tripSaved (stopUnits s))))

theorem tripLsc_clock (s : State) : (tripLsc s).clock = s.clock := by
  rw [tripLsc, afterLsc_clock, failLaunches_clock, reapAll_clock, tripSaved_clock]
  rfl

theorem trip_eq (s : State) :
    trip s = { coldBeds (tripLsc s) with plat := { (tripLsc s).plat with power := .tripped } } := rfl

/-- A trip stops every unit; of the platform it changes that it has tripped. -/
theorem trip_spec (s : State) : (trip s).plat = { s.plat with power := .tripped } ∧ noUnits (trip s) := by
  rw [trip_eq, plat_of_clock (tripLsc_clock s)]
  exact ⟨rfl, noUnits_coldBeds _⟩

/-- A trip that takes place at once, where no unit can run. -/
theorem tripNow_spec {s : State} (h : s.plat.power = .linked ∨ s.plat.power = .recovery) :
    tripNow s = trip (writePstat s) := by
  unfold tripNow
  rcases h with h | h <;> rw [h]

theorem tripNow_ready {s : State} (h : s.plat.power = .ready) : tripNow s = s := by rw [tripNow, h]

/-! ### Reset (R17, R42, R153, R184, R429) -/

/-- The package one step after reset: brought up, READY still 0. -/
def linkedReset : State := bringUp { State.reset with agenda := [] }

/-- The package two steps after reset. -/
def readyReset : State := { linkedReset with plat := { linkedReset.plat with power := .ready } }

theorem step_reset : step State.reset = .next linkedReset := rfl

theorem step_linkedReset : step linkedReset = .next readyReset := rfl

/-- A bring-up from reset leaves every core as it was. -/
theorem getCore_readyReset (n : Nat) : getCore readyReset n = Core.reset n := by
  by_cases h : 0 = n
  · subst h; rfl
  · exact if_neg h

/-- Registers of a core that has run nothing read 0 (log 6). -/
theorem Core.reg_reset (n r : Nat) : (Core.reset n).reg r = 0 := by
  unfold Core.reg; split <;> rfl

/-- Settles O58: the first step brings the package up (`bringUp_spec`), the second makes it READY. -/
theorem resetState : Obligations.ResetState := by
  unfold Obligations.ResetState
  obtain ⟨rfail, ttrip, -, -, derate, cap, -, beds, image⟩ := bringUp_spec { State.reset with agenda := [] }
  obtain ⟨linked, zero⟩ := (if_pos (.inl rfl)).mp image
  refine ⟨rfl, linkedReset, readyReset, step_reset, linked, step_linkedReset, rfl, derate, rfail, ttrip, cap, rfl, rfl, rfl,
    fun b hb => ?_, fun n _ => ?_, fun a low high => (zero a).trans (if_pos ⟨low, high⟩)⟩
  · have fresh : getBed readyReset b = freshBed State.reset b := beds b hb
    rw [fresh]
    exact ⟨rfl, rfl, rfl, rfl, rfl, rfl, rfl, rfl⟩
  · rw [getCore_readyReset]
    exact ⟨rfl, rfl, fun r _ => Core.reg_reset n r, fun _ _ => rfl, rfl, rfl, rfl, rfl, rfl, rfl, rfl, rfl, rfl⟩

end Sys2Proof.Machine
end

section
/-! The clock of a bed (R16-R20, R29, R183, R416): which beds a tick changes, and how. A state's beds are the function
`getBed s`; each operation of the clock is an update of it. -/

namespace Sys2Proof.Machine
open Sys2Proof.Stmt Function

/-- A bed replaced, as an update of the beds. -/
theorem beds_setBed (s : State) (x : Bed) : getBed (setBed s x) = update (getBed s) x.num x := by
  funext n
  rw [getBed_setBed, update_apply]
  exact ite_congr (propext eq_comm) (fun _ => rfl) (fun _ => rfl)

/-- A bed changed by a function that keeps its number. -/
theorem beds_modBed (s : State) (b : Nat) {f : Bed → Bed} (num : ∀ x, (f x).num = x.num := by exact fun _ => rfl) :
    getBed (modBed s b f) = update (getBed s) b (f (getBed s b)) := by
  rw [modBed, beds_setBed, num, getBed_num]

/-! ### What a wall tick brings (R29, R181, R183) -/

/-- A bed that has come to its next bt, or not, is open or shut as given; a freeze has run down by one. -/
def Bed.ticked (x : Bed) (advances closed held stall : Bool) : Bed :=
  { x with btick := x.btick + advances.toNat, closed := closed, held := held, stall := stall, freeze := x.freeze - 1 }

theorem beds_setHeld (s : State) (b : Nat) (stop : Bool) : getBed (setHeld s b stop) =
    update (getBed s) b { getBed s b with closed := stop, held := stop, stall := stop } := beds_modBed s b

/-- A tick that has begun goes on, or stands held. -/
theorem beds_release (s : State) (b : Nat) :
    ∃ stop, getBed (release s b) = update (getBed s) b { getBed s b with closed := stop, held := stop, stall := stop } :=
  ⟨_, (beds_setHeld (tickAreas s b) b _).trans (by rw [getBed_of_clock (tickAreas_clock s b)])⟩

/-- A bed as its next bt begins. -/
def Bed.opened (x : Bed) : Bed := { x with btick := x.btick + 1, closed := false, held := false, stall := false }

/-- What lands, ends and starts on a new bt changes no bed. -/
theorem openBed_release (s : State) (b : Nat) :
    ∃ t, t.clock = (modBed s b Bed.opened).clock ∧ openBed s b = release t b := by
  refine ⟨_, ?_, rfl⟩
  exact (clock_foldl (fun _ _ => trellisStarts_clock _ _) _ _).trans <|
    (clock_foldl (fun _ _ => endWait_clock _ _ _) _ _).trans <|
    (clock_foldl (fun _ _ => modCore_clock _ _ _) _ _).trans <|
    (clock_foldl (fun _ _ => vecCharges_clock _ _ _) _ _).trans
    (clock_foldl (fun _ _ => landDue_clock _ _ _) _ _)

/-- A bed that takes its next bt. -/
theorem beds_openBed (s : State) (b : Nat) : ∃ stop, getBed (openBed s b) =
    update (getBed s) b { (getBed s b).opened with closed := stop, held := stop, stall := stop } := by
  obtain ⟨t, clock, opened⟩ := openBed_release s b
  obtain ⟨stop, released⟩ := beds_release t b
  refine ⟨stop, ?_⟩
  rw [opened, released, getBed_of_clock clock, beds_modBed, update_self, update_idem]

/-- A freeze runs down by one. -/
def Bed.thawed (x : Bed) : Bed := { x with freeze := x.freeze - 1 }

/-- A wall tick's work on what freezes a bed: a held tick's areas are read, and a freeze runs down (R183, R232). -/
def thaw (s : State) (b : Nat) : State :=
  let x := getBed s b
  let s := if x.held ∧ (x.halt ∨ x.freeze ≠ 0) then tickAreas s b else s
  if x.freeze = 0 then s else if x.freeze = 1 then after s (execFreezeEnd b s)
    else modBed s b (fun x => { x with freeze := x.freeze - 1 })

/-- The tick stands shut. -/
def shutBed (s : State) (b : Nat) (stall : Bool) : State := modBed s b (fun y => { y with closed := true, stall := stall })

theorem decideTick_eq (s : State) (b : Nat) : decideTick s b =
    let x := getBed s b
    let stall := !x.halt && x.freeze = 0
    let s := thaw s b
    if x.halt then
      shutBed (if x.freeze ≠ 0 then recordHalt s b
        else if x.park then parkEngines (recordHalt s b) b else haltTrellis (recordHalt s b) b) b stall
    else if x.freeze ≠ 0 then shutBed s b stall
    else if x.held then release s b
    else if mayOpen s b then openBed s b
    else shutBed s b stall := rfl

theorem Bed.thawed_of_free {x : Bed} (h : x.freeze = 0) : x.thawed = x := by
  have same : x.freeze - 1 = x.freeze := by rw [h]
  rw [Bed.thawed, same]

/-- The last wall tick of a freeze. -/
theorem beds_freezeEnd {s : State} {b : Nat} (last : (getBed s b).freeze = 1) :
    getBed (after s (execFreezeEnd b s)) = update (getBed s) b (getBed s b).thawed := by
  have num (x : Bed) : (if x.freeze = 1 then { x with freeze := 0 } else x).num = x.num := by split <;> rfl
  refine (beds_modBed s b num).trans ?_
  rw [if_pos last, Bed.thawed, last]

theorem beds_thaw (s : State) (b : Nat) : getBed (thaw s b) = update (getBed s) b (getBed s b).thawed := by
  have areas : getBed (if (getBed s b).held ∧ ((getBed s b).halt ∨ (getBed s b).freeze ≠ 0) then tickAreas s b else s) =
      getBed s := getBed_of_clock (clock_ite (tickAreas_clock s b) rfl)
  unfold thaw
  dsimp only
  by_cases none : (getBed s b).freeze = 0
  · rw [if_pos none, areas, Bed.thawed_of_free none, update_eq_self]
  by_cases last : (getBed s b).freeze = 1
  · rw [if_neg none, if_pos last, beds_freezeEnd (by rw [areas, last]), areas]
  · rw [if_neg none, if_neg last, beds_modBed, areas]
    rfl

theorem beds_shutBed {s t : State} {b : Nat} (h : getBed t = update (getBed s) b (getBed s b).thawed) (stall : Bool) :
    getBed (shutBed t b stall) = update (getBed s) b ((getBed s b).ticked false true (getBed s b).held stall) := by
  rw [shutBed, beds_modBed, h, update_self, update_idem]
  rfl

/-- A wall tick of a bed: it comes to its next bt, or does not; a halt or a freeze keeps it where it is (R29, R181, R183). -/
theorem beds_decideTick (s : State) (b : Nat) :
    ∃ go closed held stall, ((getBed s b).halt = true ∨ (getBed s b).freeze ≠ 0 → go = false) ∧
      getBed (decideTick s b) = update (getBed s) b ((getBed s b).ticked go closed held stall) := by
  have thawed := beds_thaw s b
  rw [decideTick_eq]
  dsimp only
  by_cases halt : (getBed s b).halt = true
  · rw [if_pos halt]
    refine ⟨false, true, _, _, fun _ => rfl, beds_shutBed ((getBed_of_clock ?_).trans thawed) _⟩
    exact clock_ite (recordHalt_clock _ _) (clock_ite ((parkEngines_clock _ _).trans (recordHalt_clock _ _))
      ((haltTrellis_clock _ _).trans (recordHalt_clock _ _)))
  rw [if_neg halt]
  by_cases frozen : (getBed s b).freeze ≠ 0
  · rw [if_pos frozen]
    exact ⟨false, true, _, _, fun _ => rfl, beds_shutBed thawed _⟩
  rw [if_neg frozen]
  by_cases held : (getBed s b).held = true
  · obtain ⟨stop, released⟩ := beds_release (thaw s b) b
    refine ⟨false, stop, stop, stop, fun _ => rfl, ?_⟩
    rw [if_pos held, released, thawed, update_self, update_idem]
    rfl
  rw [if_neg held]
  by_cases opens : mayOpen (thaw s b) b = true
  · obtain ⟨stop, opened⟩ := beds_openBed (thaw s b) b
    refine ⟨true, stop, stop, stop, fun keeps => absurd keeps (not_or.2 ⟨halt, frozen⟩), ?_⟩
    rw [if_pos opens, opened, thawed, update_self, update_idem]
    rfl
  · rw [if_neg opens]
    exact ⟨false, true, _, _, fun _ => rfl, beds_shutBed thawed _⟩

/-! ### The power of a pair at a tick boundary (R22, R416) -/

theorem beds_setPeriod (s : State) (b p : Nat) (cause : Option Nat) :
    getBed (setPeriod s b p cause) = update (getBed s) b { getBed s b with period := p } := by
  have set := beds_modBed s b (f := fun x => { x with period := p })
  unfold setPeriod
  dsimp only
  split
  · split
    · exact set
    · exact set
  · exact set

/-- The demands drawn anew change neither a bed nor a die. -/
theorem nextDemands_noteLoad (s : State) (p : Nat) :
    getBed (nextDemands (noteLoad s p) p) = getBed s ∧ (nextDemands (noteLoad s p) p).dies = s.dies := by
  unfold nextDemands noteLoad
  dsimp only
  split <;> split <;> exact ⟨rfl, rfl⟩

theorem le_periodOf_demands (s : State) (p : Nat) :
    16 ≤ periodOf (demands s p) ∧ thermalDemand (getDie s (p / 4)).t16 ≤ periodOf (demands s p) := by
  simp only [periodOf, demands]
  omega

/-- A pair of beds takes one PERIOD, at least 16 and at least what the temperature of its die asks for. -/
theorem beds_tickPair (s : State) (p : Nat) : ∃ q, 16 ≤ q ∧ thermalDemand (getDie s (p / 4)).t16 ≤ q ∧
    ∀ n, getBed (tickPair s p) n = { getBed s n with period := if n / 2 = p then q else (getBed s n).period } := by
  obtain ⟨beds, dies⟩ := nextDemands_noteLoad s p
  have die : getDie (nextDemands (noteLoad s p) p) (p / 4) = getDie s (p / 4) := by rw [getDie, dies, ← getDie]
  obtain ⟨least, heat⟩ := le_periodOf_demands (nextDemands (noteLoad s p) p) p
  refine ⟨_, least, die ▸ heat, fun n => ?_⟩
  unfold tickPair
  dsimp only
  rw [beds_setPeriod, beds_setPeriod, beds]
  rcases Nat.lt_trichotomy n (2 * p) with low | rfl | high
  · rw [update_of_ne (by omega), update_of_ne (by omega), if_neg (by omega)]
  · rw [update_of_ne (by omega), update_self, if_pos (by omega)]
  · obtain rfl | above := Nat.eq_or_lt_of_le (Nat.succ_le_of_lt high)
    · rw [update_self, update_of_ne (by omega), if_pos (by omega)]
    · rw [update_of_ne (by omega), update_of_ne (by omega), if_neg (by omega)]

theorem beds_setVoltage (s : State) (d : Nat) : getBed (setVoltage s d) = getBed s := rfl

/-- A tick boundary: RAMPHINT of the bed by its die's temperature, and with the first bed of a pair the PERIOD of both. -/
theorem beds_tickPower (s : State) (b : Nat) : ∃ q, 16 ≤ q ∧ thermalDemand (getDie s (b / 8)).t16 ≤ q ∧
    ∀ n, getBed (tickPower s b) n = { getBed s n with
      ramphint := if n = b then rampHint ((getDie s (b / 8)).t16 - 1360) else (getBed s n).ramphint
      period := if b % 2 = 0 ∧ n / 2 = b / 2 then q else (getBed s n).period } := by
  have warm := beds_modBed s b (f := fun x => { x with ramphint := rampHint ((getDie s (b / 8)).t16 - 1360) })
  have die (d : Nat) : getDie (modBed s b fun x => { x with ramphint := rampHint ((getDie s (b / 8)).t16 - 1360) }) d =
      getDie s d := by rw [getDie, modBed, setBed_dies, ← getDie]
  obtain ⟨q, least, heat, pair⟩ := beds_tickPair
    (modBed s b fun x => { x with ramphint := rampHint ((getDie s (b / 8)).t16 - 1360) }) (b / 2)
  rw [die, Nat.div_div_eq_div_mul] at heat
  refine ⟨q, least, heat, fun n => ?_⟩
  unfold tickPower
  dsimp only
  by_cases first : b % 2 = 0
  · rw [if_pos first, beds_setVoltage, pair, warm]
    by_cases own : n = b
    · subst own; simp only [update_self, first, true_and, if_true]
    · simp only [update_of_ne own, own, first, true_and, if_false]
  · rw [if_neg first, warm]
    by_cases own : n = b
    · subst own; simp only [update_self, first, false_and, if_true, if_false]
    · simp only [update_of_ne own, own, first, false_and, if_false]

/-! ### One wall tick of a bed -/

/-- The bed of the tick after BWALL has advanced. -/
theorem wallTick_clock (s : State) (b : Nat) :
    (wallTick s b).clock = (modBed s b (fun x => { x with bwall := x.bwall + 1 })).clock := by
  refine clock_foldl (fun t n => ?_) _ _
  rw [postArrival_clock]
  exact clock_ite (modCore_clock _ _ _) ((tickBudget_clock _ _).trans (modCore_clock _ _ _))

theorem beds_wallTick (s : State) (b : Nat) :
    getBed (wallTick s b) = update (getBed s) b { getBed s b with bwall := (getBed s b).bwall + 1 } :=
  (getBed_of_clock (wallTick_clock s b)).trans (beds_modBed s b)

theorem getDie_wallTick (s : State) (b d : Nat) : getDie (wallTick s b) d = getDie s d := by
  rw [getDie_of_clock (wallTick_clock s b), getDie, modBed, setBed_dies, ← getDie]

/-- A wall tick and the tick boundary of bed b: BWALL advances and RAMPHINT follows the temperature; with the first bed of a pair
both beds take one PERIOD. No other bed changes. -/
theorem beds_wallTick_tickPower (s : State) (b : Nat) : ∃ q, 16 ≤ q ∧ thermalDemand (getDie s (b / 8)).t16 ≤ q ∧
    ∀ n, getBed (tickPower (wallTick s b) b) n = { getBed s n with
      bwall := (getBed s n).bwall + if n = b then 1 else 0
      ramphint := if n = b then rampHint ((getDie s (b / 8)).t16 - 1360) else (getBed s n).ramphint
      period := if b % 2 = 0 ∧ n / 2 = b / 2 then q else (getBed s n).period } := by
  obtain ⟨q, least, heat, powered⟩ := beds_tickPower (wallTick s b) b
  rw [getDie_wallTick] at heat powered
  refine ⟨q, least, heat, fun n => ?_⟩
  rw [powered, beds_wallTick]
  by_cases own : n = b
  · subst own; simp only [update_self, if_true]
  · simp only [update_of_ne own, own, if_false, Nat.add_zero]

/-- One wall tick of bed b, its old tick ended before it: of the bed its own fields of the clock, of its pair the PERIOD. -/
theorem beds_tickBed (s : State) (b : Nat) : ∃ q go closed held stall, 16 ≤ q ∧ thermalDemand (getDie s (b / 8)).t16 ≤ q ∧
    ((getBed s b).halt = true ∨ (getBed s b).freeze ≠ 0 → go = false) ∧
    ∀ n, getBed (tickBed s b) n =
      let y := { getBed s n with period := if b % 2 = 0 ∧ n / 2 = b / 2 then q else (getBed s n).period }
      if n = b then { y with
        bwall := y.bwall + 1, ramphint := rampHint ((getDie s (b / 8)).t16 - 1360) }.ticked go closed held stall else y := by
  have ended : (if (getBed s b).closed then s else endTick s b).clock = s.clock := clock_ite rfl (endTick_clock s b)
  obtain ⟨q, least, heat, powered⟩ := beds_wallTick_tickPower (if (getBed s b).closed then s else endTick s b) b
  rw [getDie_of_clock ended] at heat
  simp only [getDie_of_clock ended, getBed_of_clock ended] at powered
  obtain ⟨go, closed, held, stall, keeps, decided⟩ :=
    beds_decideTick (tickPower (wallTick (if (getBed s b).closed then s else endTick s b) b) b) b
  rw [powered] at keeps decided
  refine ⟨q, go, closed, held, stall, least, heat, keeps, fun n => ?_⟩
  rw [tickBed, decided]
  by_cases own : n = b
  · subst own; simp only [update_self, if_true]
  · simp only [update_of_ne own, powered, own, if_false, Nat.add_zero]

/-- A wall tick of another bed changes at most the PERIOD, and not that of a pair whose first bed is b. -/
theorem beds_tickBed_other (s : State) {b x : Nat} (other : x ≠ b) :
    (∃ q, getBed (tickBed s x) b = { getBed s b with period := q }) ∧
    ∀ n, b % 2 = 0 → n / 2 = b / 2 → (getBed (tickBed s x) n).period = (getBed s n).period := by
  obtain ⟨q, go, closed, held, stall, -, -, -, ticked⟩ := beds_tickBed s x
  refine ⟨⟨_, (ticked b).trans (if_neg other.symm)⟩, fun n first pair => ?_⟩
  have apart : ¬ (x % 2 = 0 ∧ n / 2 = x / 2) := by omega
  rw [ticked]
  dsimp only
  rw [if_neg apart]
  split <;> rfl

/-- The wall ticks of other beds change at most the PERIOD of a bed, and not that of a pair whose first bed it is. -/
theorem beds_foldl_tickBed {b : Nat} {l : List Nat} (others : ∀ x ∈ l, x ≠ b) (s : State) :
    (∃ q, getBed (l.foldl tickBed s) b = { getBed s b with period := q }) ∧
    ∀ n, b % 2 = 0 → n / 2 = b / 2 → (getBed (l.foldl tickBed s) n).period = (getBed s n).period := by
  induction l generalizing s with
  | nil => exact ⟨⟨_, rfl⟩, fun _ _ _ => rfl⟩
  | cons x l ih =>
    rw [List.forall_mem_cons] at others
    obtain ⟨⟨q, own⟩, pair⟩ := beds_tickBed_other s others.1
    obtain ⟨⟨r, own'⟩, pair'⟩ := ih others.2 (tickBed s x)
    refine ⟨⟨r, own'.trans ?_⟩, fun n first at_ => (pair' n first at_).trans (pair n first at_)⟩
    rw [own]

theorem ne_of_mem_idleBetween {b c x : Nat} (h : x ∈ idleBetween b c) : x ≠ b := by
  obtain ⟨i, hi, rfl⟩ := List.mem_map.1 ((List.takeWhile_sublist _).mem h)
  have bound := List.mem_range.1 hi
  omega

/-- The turn going to a bed changes no bed and no core. -/
theorem beds_enterBed (s : State) (b : Nat) : getBed (enterBed s b) = getBed s := by
  unfold enterBed
  split
  · exact funext fun n => getBed_focus s _ n
  · rfl

theorem getCore_enterBed (s : State) (b n : Nat) : getCore (enterBed s b) n = getCore s n := by
  unfold enterBed
  split
  · exact getCore_focus s _ n
  · rfl

theorem enterBed_plat (s : State) (b : Nat) : (enterBed s b).plat = s.plat := by
  unfold enterBed; split <;> simp

theorem enterBed_mem (s : State) (b : Nat) : (enterBed s b).mem = s.mem := by
  unfold enterBed; split <;> simp

theorem tripping_eq_true_iff (p : Platform) : p.tripping = true ↔ p.railTrip = true ∨ p.heatTrip = true := by
  rw [Platform.tripping, Bool.or_eq_true]

/-- The state in which the turn leaves bed b: its tick has passed, and the agents have their moves to make (log 2). -/
def afterTurn (s : State) (b : Nat) : State :=
  let s2 := tickBed s b
  { s2 with agenda := s2.agenda ++ if s2.auto && bedAfter s2 b ≤ b then asyncEvents s2 ++ lscEvents s2 else [] }

theorem beds_afterTurn (s : State) (b : Nat) : getBed (afterTurn s b) = getBed (tickBed s b) := rfl

/-- SCHEDULE_TICK of a running package that no trip stops. -/
theorem execScheduleTick_calm {s : State} {b : Nat} (ready : s.plat.power = .ready) (calm : s.plat.tripping = false) (hb : b < 32) :
    exec (.scheduleTick b) s = .next (enterBed
      ((idleBetween b (bedAfter (tickBed s b) b)).foldl tickBed (afterTurn s b)) (bedAfter (tickBed s b) b)) := by
  have runs : ¬ (s.plat.power ≠ .ready ∨ 32 ≤ b) := not_or.2 ⟨not_not.2 ready, by omega⟩
  exact (if_neg runs).trans (if_neg (Bool.eq_false_iff.1 calm))

/-- The clock of a bed over its SCHEDULE_TICK (R17, R20, R22, R29, R183, R416). -/
theorem scheduleTick_bed {s : State} {b : Nat} (ready : s.plat.power = .ready) (calm : s.plat.tripping = false) (hb : b < 32) :
    ∃ t, exec (.scheduleTick b) s = .next t ∧
      (getBed t b).bwall = (getBed s b).bwall + 1 ∧
      ((getBed t b).btick = (getBed s b).btick ∨ (getBed t b).btick = (getBed s b).btick + 1) ∧
      (getBed t b).cecnt = (getBed s b).cecnt ∧
      ((getBed s b).halt = true ∨ (getBed s b).freeze ≠ 0 → (getBed t b).btick = (getBed s b).btick) ∧
      (getBed t b).freeze = (getBed s b).freeze - 1 ∧
      (getBed t b).ramphint = rampHint ((getDie s (b / 8)).t16 - 1360) ∧
      (b % 2 = 0 → (getBed t b).period = (getBed t (b + 1)).period ∧ 16 ≤ (getBed t b).period ∧
        thermalDemand (getDie s (b / 8)).t16 ≤ (getBed t b).period) := by
  obtain ⟨q, go, closed, held, stall, least, heat, keeps, ticked⟩ := beds_tickBed s b
  obtain ⟨⟨p, own⟩, pair⟩ := beds_foldl_tickBed (fun x hx => ne_of_mem_idleBetween (c := bedAfter (tickBed s b) b) hx)
    (afterTurn s b)
  rw [beds_afterTurn, ticked, if_pos rfl] at own
  refine ⟨_, execScheduleTick_calm ready calm hb, ?_⟩
  rw [beds_enterBed]
  have step : (getBed s b).btick + go.toNat = (getBed s b).btick ∨ (getBed s b).btick + go.toNat = (getBed s b).btick + 1 := by
    cases go
    · exact .inl rfl
    · exact .inr rfl
  refine ⟨own ▸ rfl, own ▸ step, own ▸ rfl, fun kept => ?_, own ▸ rfl, own ▸ rfl, fun first => ?_⟩
  · rw [own]
    dsimp only [Bed.ticked]
    rw [keeps kept]
    rfl
  · have both (n : Nat) (at_ : n / 2 = b / 2) : (getBed ((idleBetween b (bedAfter (tickBed s b) b)).foldl tickBed
        (afterTurn s b)) n).period = q := by
      rw [pair n first at_, beds_afterTurn, ticked]
      dsimp only
      split <;> exact if_pos ⟨first, at_⟩
    rw [both b rfl, both (b + 1) (by omega)]
    exact ⟨rfl, least, heat⟩

/-- BED_RESUME of a stalled bed that nothing keeps any more: it takes its next bt with the next wall tick (R29). -/
theorem bedResume_bed {s : State} {b : Nat} (ready : s.plat.power = .ready) (calm : s.plat.tripping = false) (hb : b < 32)
    (closed : (getBed s b).closed = true) (free : (getBed s b).held = false)
    (opens : mayOpen (tickPower (wallTick s b) b) b = true) :
    ∃ t, exec (.bedResume b) s = .next t ∧ (getBed t b).bwall = (getBed s b).bwall + 1 ∧
      (getBed t b).btick = (getBed s b).btick + 1 ∧ (getBed t b).ramphint = rampHint ((getDie s (b / 8)).t16 - 1360) := by
  have runs : ¬ (s.plat.power ≠ .ready ∨ s.plat.tripping ∨ 32 ≤ b ∨ !(getBed s b).closed ∨ (getBed s b).held) := by
    simp [ready, calm, closed, free, hb]
  obtain ⟨q, -, -, powered⟩ := beds_wallTick_tickPower s b
  obtain ⟨stop, opened⟩ := beds_openBed (tickPower (wallTick s b) b) b
  refine ⟨_, (if_neg runs).trans (if_pos opens), ?_⟩
  rw [beds_enterBed, opened, update_self, powered]
  simp only [Bed.opened, if_true, and_self]

end Sys2Proof.Machine
end

section
/-! Events of the platform (R183, R261, R416, R421-R424): trips at a tick boundary, errors, samples, lost phases, and writes of
aperture registers. -/

namespace Sys2Proof.Machine
open Sys2Proof.Stmt

/-! ### A trip at the tick boundaries of the beds (R424) -/

/-- A bed holds a unit exactly when one of its cores does. -/
theorem liveCores_ne_nil_iff (s : State) (b : Nat) : liveCores s b ≠ [] ↔ ∃ n, n / 8 = b ∧ (getCore s n).run ≠ .idle := by
  simp only [ne_eq, liveCores, List.filter_eq_nil_iff, bedCores, List.mem_map, List.mem_range, decide_eq_true_eq]
  push Not
  constructor
  · rintro ⟨_, ⟨i, hi, rfl⟩, runs⟩
    exact ⟨8 * b + i, by omega, runs⟩
  · rintro ⟨n, rfl, runs⟩
    exact ⟨_, ⟨n % 8, by omega, rfl⟩, by rwa [show 8 * (n / 8) + n % 8 = n by omega]⟩

/-- A bed's tick that no trellis counts ends without a change. -/
theorem endTick_of_none_running {s : State} {b : Nat}
    (rest : ∀ n, n / 8 = b → (getCore s n).run ≠ .idle → ∀ e ∈ (getCore s n).tq.es.head?, e.ph ≠ .running) : endTick s b = s := by
  have each : ∀ c ∈ liveCores s b, trellisTick s c.num = s := fun c hc => by
    obtain ⟨hc, runs⟩ := List.mem_filter.1 hc
    obtain ⟨i, hi, rfl⟩ := List.mem_map.1 hc
    have i8 := List.mem_range.1 hi
    have still := rest (8 * b + i) (by omega) (of_decide_eq_true runs)
    rw [getCore_num]
    unfold trellisTick
    split
    · next e he => exact if_neg (still e he)
    · rfl
  unfold endTick
  generalize liveCores s b = l at each
  induction l with
  | nil => rfl
  | cons c l ih =>
    rw [List.forall_mem_cons] at each
    rw [List.foldl_cons, each.1, ih each.2]

/-- The state in which a trip has stopped bed b at its tick boundary. -/
def stoppedBed (s : State) (b : Nat) : State :=
  let s1 := modBed (if (getBed s b).closed then s else endTick s b) b (fun x => { x with closed := true })
  { s1 with plat := { s1.plat with stopped := b :: s1.plat.stopped } }

theorem tripTick_eq (s : State) (b : Nat) : tripTick s b =
    if (activeBeds (stoppedBed s b)).all (stoppedBed s b).plat.stopped.contains then trip (writePstat (stoppedBed s b))
    else enterBed (stoppedBed s b) (bedAfter (stoppedBed s b) b) := rfl

theorem stoppedBed_ended (s : State) (b : Nat) : (if (getBed s b).closed then s else endTick s b).clock = s.clock :=
  clock_ite rfl (endTick_clock s b)

theorem stoppedBed_plat (s : State) (b : Nat) :
    (stoppedBed s b).plat = { s.plat with stopped := b :: s.plat.stopped } := by
  have kept : (modBed (if (getBed s b).closed then s else endTick s b) b fun x => { x with closed := true }).plat = s.plat :=
    (setBed_plat _ _).trans (plat_of_clock (stoppedBed_ended s b))
  exact congrArg (fun p : Platform => { p with stopped := b :: p.stopped }) kept

theorem getBed_stoppedBed (s : State) (b : Nat) : getBed (stoppedBed s b) b = { getBed s b with closed := true } := by
  refine (congrFun (beds_modBed _ b) b).trans ?_
  rw [getBed_of_clock (stoppedBed_ended s b), Function.update_self]

/-- Where no trellis counts the tick, a bed that is stopped keeps its cores, and memory is as it was. -/
theorem stoppedBed_of_none_counts {s : State} {b : Nat} (rest : (getBed s b).closed = false → endTick s b = s) :
    (stoppedBed s b).mem = s.mem ∧ getCore (stoppedBed s b) = getCore s := by
  have same : (if (getBed s b).closed then s else endTick s b) = s := by
    cases h : (getBed s b).closed
    · exact rest h
    · rfl
  unfold stoppedBed
  rw [same]
  exact ⟨setBed_mem _ _, funext fun n => getCore_setBed s _ n⟩

/-- All beds that hold a unit have stopped exactly when no core elsewhere holds one. -/
theorem all_stopped_iff (s : State) (l : List Nat) :
    (activeBeds s).all l.contains = true ↔ ¬ ∃ n < 256, (getCore s n).run ≠ .idle ∧ n / 8 ∉ l := by
  simp only [activeBeds, List.all_eq_true, List.mem_filter, List.mem_range, List.contains_iff_mem, Bool.not_eq_true',
    List.isEmpty_eq_false_iff, liveCores_ne_nil_iff]
  constructor
  · rintro all ⟨n, hn, runs, out⟩
    exact out (all (n / 8) ⟨by omega, n, rfl, runs⟩)
  · rintro none _ ⟨hb, n, rfl, runs⟩
    by_contra out
    exact none ⟨n, by omega, runs, out⟩

/-- SCHEDULE_TICK of a bed while a trip is on its way (R424): the bed stops, or the trip takes place. -/
theorem scheduleTick_tripping {s : State} {b : Nat} (ready : s.plat.power = .ready) (tripping : s.plat.tripping = true)
    (hb : b < 32) : exec (.scheduleTick b) s = .next (tripTick s b) := by
  have runs : ¬ (s.plat.power ≠ .ready ∨ 32 ≤ b) := not_or.2 ⟨not_not.2 ready, by omega⟩
  exact (if_neg runs).trans (if_pos tripping)

/-- A tick boundary at which the trip takes place: PSTAT shows what asked for it, and no unit is left. -/
theorem tripTick_of_all {s : State} {b : Nat}
    (all : (activeBeds (stoppedBed s b)).all (stoppedBed s b).plat.stopped.contains = true) :
    (tripTick s b).plat.power = .tripped ∧ noUnits (tripTick s b) ∧
      (tripTick s b).plat.rfail = (s.plat.rfail || s.plat.railTrip) ∧
      (tripTick s b).plat.ttrip = (s.plat.ttrip || s.plat.heatTrip) := by
  obtain ⟨plat, units⟩ := trip_spec (writePstat (stoppedBed s b))
  rw [tripTick_eq, if_pos all, plat]
  refine ⟨rfl, units, ?_, ?_⟩ <;> simp only [writePstat, stoppedBed_plat]

/-- A tick boundary at which a bed stops while others run on. -/
theorem tripTick_of_not_all {s : State} {b : Nat}
    (others : ¬ (activeBeds (stoppedBed s b)).all (stoppedBed s b).plat.stopped.contains = true) :
    (tripTick s b).plat = { s.plat with stopped := b :: s.plat.stopped } ∧
      getBed (tripTick s b) b = { getBed s b with closed := true } ∧ (tripTick s b).mem = (stoppedBed s b).mem ∧
      ∀ n, getCore (tripTick s b) n = getCore (stoppedBed s b) n := by
  rw [tripTick_eq, if_neg others, enterBed_plat, enterBed_mem, beds_enterBed]
  exact ⟨stoppedBed_plat s b, getBed_stoppedBed s b, rfl, fun n => getCore_enterBed _ _ n⟩

end Sys2Proof.Machine
end

section
/-! Events of the platform (R183, R261, R399, R416, R421-R424): errors, samples, lost phases and power, trips, and writes of
aperture registers. -/

namespace Sys2Proof.Machine
open Sys2Proof.Stmt

/-! ### Errors and samples (R183, R416) -/

/-- A correctable error counts, and freezes its bed. -/
theorem correctableError_bed {s : State} {b : Nat} (ready : s.plat.power = .ready) (hb : b < 32) :
    exec (.correctableError b) s =
      .next (setBed s { getBed s b with freeze := 32, cecnt := min ((getBed s b).cecnt + 1) (2 ^ 32 - 1) }) :=
  if_neg (not_or.2 ⟨not_not.2 ready, by omega⟩)

theorem freezeEnd_bed {s : State} {b : Nat} (last : (getBed s b).freeze = 1) :
    exec (.freezeEnd b) s = .next (setBed s { getBed s b with freeze := 0 }) :=
  congrArg (fun x => Host.Outcome.next (setBed s x)) (if_pos last)

/-- A die at another temperature. -/
def Die.withT16 (d : Die) (t16 : Int) : Die := { d with t16 := t16 }

theorem temperatureSample_eq {s : State} {d : Nat} (x : Sensors)
    (up : s.plat.power = .linked ∨ s.plat.power = .ready ∨ s.plat.power = .tripped) (hd : d < 4) :
    exec (.temperatureSample d x) s =
      .next (rouse (setDie s ((getDie s d).withT16 (max (max x.a x.b) (max x.c x.d))))) := by
  have here : ¬ 4 ≤ d := by omega
  change execTemperatureSample d x s = _
  unfold execTemperatureSample
  rcases up with h | h | h <;> rw [h] <;> exact if_neg here

theorem getDie_rouse (s : State) (n : Nat) : getDie (rouse s) n = getDie s n := by
  unfold rouse getDie
  rfl

theorem rouse_eq (s : State) : rouse s = { s with plat := { s.plat with taper := (rouse s).plat.taper } } := rfl

theorem t16_setDie_withT16 {s : State} {d : Nat} (t16 : Int) (has : ∃ x ∈ s.dies, x.num = d) :
    (getDie (setDie s ((getDie s d).withT16 t16)) d).t16 = t16 := by
  have num : ((getDie s d).withT16 t16).num = d := getDie_num s d
  have here := getDie_setDie (s := s) (d := (getDie s d).withT16 t16) (by rwa [num])
  rw [num] at here
  rw [here]
  rfl

theorem getDie_setDie_withT16_other (s : State) {d e : Nat} (t16 : Int) (he : e ≠ d) :
    getDie (setDie s ((getDie s d).withT16 t16)) e = getDie s e :=
  getDie_setDie_other s (he.trans_eq (getDie_num s d).symm)

/-! ### Lost phases (R421) -/

/-- The state in which a phase of a rail is lost, and logged. -/
def phaseLost (s : State) (n : Nat) : State := { s with plat := { s.plat with
  phases := tset 0 s.plat.phases n (tget 0 s.plat.phases n + 1), plog := s.plat.plog ++ [n] } }

/-- The state in which a lost phase asks for a trip. -/
def railAsks (s : State) (n : Nat) : State := { phaseLost s n with plat := { (phaseLost s n).plat with railTrip := true } }

theorem working_phaseLost (s : State) (n : Nat) : working (phaseLost s n) n = working s n - 1 := by
  rw [working, phaseLost, tget_tset, if_pos rfl, working, Nat.sub_sub]

section
variable {s : State} {n : Nat} (up : s.plat.power = .linked ∨ s.plat.power = .ready ∨ s.plat.power = .recovery)
  (hn : n < 9) (works : working s n ≠ 0)
include up hn works

theorem phaseLoss_eq : exec (.phaseLoss n) s =
    if railDown (phaseLost s n) n then .next (tripNow (railAsks s n))
    else .next (rouse { phaseLost s n with plat := { (phaseLost s n).plat with derate := s.plat.derate ||| 2 ^ n } }) := by
  have runs : ¬ (s.plat.power = .off ∨ s.plat.power = .up ∨ 9 < n ∨ working s n = 0) := by
    rcases up with h | h | h <;> simp only [h, works] <;> simp <;> omega
  exact (if_neg runs).trans (if_neg (by omega))

/-- Below a third of its phases a rail asks for a trip, which is at once where no unit can run. -/
theorem phaseLoss_down (down : 3 * (working s n - 1) < (railOf n).1) :
    exec (.phaseLoss n) s = .next (tripNow (railAsks s n)) := by
  rw [phaseLoss_eq up hn works, if_pos]
  rw [railDown, working_phaseLost]
  exact decide_eq_true down

/-- A rail with a third of its phases left is derated. -/
theorem phaseLoss_derates (left : (railOf n).1 ≤ 3 * (working s n - 1)) : exec (.phaseLoss n) s =
    .next (rouse { phaseLost s n with plat := { (phaseLost s n).plat with derate := s.plat.derate ||| 2 ^ n } }) := by
  rw [phaseLoss_eq up hn works, if_neg]
  rw [railDown, working_phaseLost, decide_eq_true_eq]
  omega

end

/-- The phase of VSB is the package's (R421). -/
theorem phaseLoss_vsb {s : State} (off : s.plat.power ≠ .off) (up : s.plat.power ≠ .up) (works : working s 9 ≠ 0) :
    exec (.phaseLoss 9) s = exec .lossOfInputPower s := by
  have runs : ¬ (s.plat.power = .off ∨ s.plat.power = .up ∨ 9 < 9 ∨ working s 9 = 0) := by
    simp only [off, up, works]; simp
  exact (if_neg runs).trans (if_pos rfl)

/-! ### Heat, power on and its loss (R421-R424, R429) -/

theorem thermalTrip_hot {s : State} {d : Nat} (up : s.plat.power = .linked ∨ s.plat.power = .ready) (hd : d < 4)
    (hot : 1840 ≤ (getDie s d).t16) :
    exec (.thermalTrip d) s = .next (tripNow { s with plat := { s.plat with heatTrip := true } }) := by
  change execThermalTrip d s = _
  unfold execThermalTrip
  rcases up with h | h <;> rw [h] <;> exact if_pos ⟨hd, hot⟩

/-- Where no unit can run, a trip asked for is at once, and PSTAT shows what asked for it. -/
theorem tripNow_at_once {s : State} (up : s.plat.power = .linked ∨ s.plat.power = .recovery) :
    (tripNow s).plat.rfail = (s.plat.rfail || s.plat.railTrip) ∧ (tripNow s).plat.ttrip = (s.plat.ttrip || s.plat.heatTrip) ∧
      (tripNow s).plat.power = .tripped ∧ noUnits (tripNow s) := by
  obtain ⟨plat, units⟩ := trip_spec (writePstat s)
  rw [tripNow_spec up, plat]
  exact ⟨rfl, rfl, rfl, units⟩

theorem powerOn_eq {s : State} (down : s.plat.power = .off ∨ s.plat.power = .up) :
    exec .powerOn s = .next (bringUp { s with plat := { s.plat with rfail := false, ttrip := false } }) := by
  change execPowerOn s = _
  unfold execPowerOn
  rcases down with h | h <;> rw [h]

theorem powerOn_linked {s : State} (linked : s.plat.power = .linked) :
    exec .powerOn s = .next { s with plat := { s.plat with power := .ready } } := by
  change execPowerOn s = _
  unfold execPowerOn
  rw [linked]

/-- Without input power nothing volatile is kept. -/
theorem lossOfInputPower_spec (s : State) : ∃ t, exec .lossOfInputPower s = .next t ∧ t.plat.power = .off ∧ t.mem = [] ∧
    noUnits t ∧ t.plat.rfail = false ∧ t.plat.ttrip = false ∧ t.plat.railTrip = false ∧ t.plat.heatTrip = false ∧
    t.lsc.launches = [] ∧ t.lsc.jobs = [] :=
  ⟨_, rfl, rfl, rfl, noUnits_coldBeds _, rfl, rfl, rfl, rfl, rfl, rfl⟩

/-! ### Aperture registers (R261) -/

/-- An aperture with one of its registers written. -/
def Aperture.written (a : Aperture) (reg : Nat) (v : Word) : Aperture :=
  if reg = 0 then { a with tgt := v } else if reg = 1 then { a with len := v } else { a with ctl := v }

/-- An extent of a core whose unit has not ended lies over aperture n of a die. -/
def Core.lies (pkg d n : Nat) (c : Core) : Bool :=
  c.run != .idle && !c.isOver && c.extents.any fun e =>
    paSpace e.pbase = 3 && paDie e.pbase = d && paPkg e.pbase = pkg && paOff e.pbase / 2 ^ 36 = n

/-- A unit has not ended while it runs, and after DONE while an entry is incomplete (R399). -/
theorem not_isOver_iff (c : Core) : c.isOver = false ↔
    (c.run = .ended → c.endStatus < 2 ∧ c.tq.es ++ c.cq.es ++ c.gq.es ++ c.bq.es ≠ []) := by
  simp [Core.isOver, Core.busyQueues]

theorem Core.lies_iff (pkg d n : Nat) (c : Core) : c.lies pkg d n = true ↔
    (c.run ≠ .idle ∧ (c.run = .ended → c.endStatus < 2 ∧ c.tq.es ++ c.cq.es ++ c.gq.es ++ c.bq.es ≠ [])) ∧
      ∃ e ∈ c.extents, paSpace e.pbase = 3 ∧ paDie e.pbase = d ∧ paPkg e.pbase = pkg ∧ paOff e.pbase / 2 ^ 36 = n := by
  rw [← not_isOver_iff]
  simp [Core.lies, and_assoc]

/-- A write of an aperture register, refused while the aperture is in use or where a rule forbids the new value. -/
theorem apertureRegisterWrite_eq {s : State} {d n reg : Nat} (v : Word) (ready : s.plat.power = .ready) (hd : d < 4)
    (hn : n < 16) (hreg : reg < 3) :
    exec (.apertureRegisterWrite d n reg v) s =
      let a := (tget Aperture.reset (getDie s d).aps n).written reg v
      if (s.core :: s.others).any (Core.lies s.plat.pkg d n) ∨ (!apertureOk s d a) = true then
        .next (said s (.refused d n reg))
      else .next (setDie s { getDie s d with aps := tset Aperture.reset (getDie s d).aps n a }) := by
  have runs : ¬ (s.plat.power ≠ .ready ∨ 4 ≤ d ∨ 16 ≤ n ∨ 3 ≤ reg) := by simp only [ready]; simp; omega
  interval_cases reg <;> exact if_neg runs

/-! ### The obligation -/

/-- A bed no trellis of which counts the tick stops without a change; where it is not the last, no core changes, and it is the
last exactly when no unit lives in a bed that has not stopped. -/
theorem tripTick_of_none_counts {s : State} {b : Nat} (ready : s.plat.power = .ready)
    (rest : ¬ ((getBed s b).closed = false ∧
      ∃ n, n / 8 = b ∧ (getCore s n).run ≠ .idle ∧ ∃ e ∈ (getCore s n).tq.es.head?, e.ph = .running)) :
    let live := ∃ n < 256, (getCore s n).run ≠ .idle ∧ n / 8 ≠ b ∧ n / 8 ∉ s.plat.stopped
    ((tripTick s b).plat.power = .tripped ↔ ¬ live) ∧
      (live → (tripTick s b).mem = s.mem ∧ ∀ n, getCore (tripTick s b) n = getCore s n) := by
  dsimp only
  have still (opened : (getBed s b).closed = false) : endTick s b = s :=
    endTick_of_none_running fun n hn runs e he running => rest ⟨opened, n, hn, runs, e, he, running⟩
  obtain ⟨mem, cores⟩ := stoppedBed_of_none_counts still
  have last := all_stopped_iff (stoppedBed s b) (stoppedBed s b).plat.stopped
  simp only [cores, stoppedBed_plat, List.mem_cons, not_or] at last
  by_cases all : (activeBeds (stoppedBed s b)).all (stoppedBed s b).plat.stopped.contains = true
  · obtain ⟨tripped, -⟩ := tripTick_of_all all
    rw [stoppedBed_plat] at all
    exact ⟨⟨fun _ => last.1 all, fun _ => tripped⟩, fun live => absurd live (last.1 all)⟩
  · obtain ⟨plat, -, mem', cores'⟩ := tripTick_of_not_all all
    rw [stoppedBed_plat] at all
    have on : (tripTick s b).plat.power ≠ .tripped := by rw [plat, ready]; decide
    exact ⟨⟨fun h => absurd h on, fun dead => absurd (last.2 dead) all⟩,
      fun _ => ⟨mem'.trans mem, fun n => (cores' n).trans (congrFun cores n)⟩⟩

/-- At a tick boundary on the way to a trip, either every unit has ended and PSTAT shows why, or the bed has stopped and nothing
else of the platform changes. -/
theorem tripTick_cases {s : State} {b : Nat} (ready : s.plat.power = .ready) :
    ((tripTick s b).plat.power = .tripped ∧ noUnits (tripTick s b) ∧
      (tripTick s b).plat.rfail = (s.plat.rfail || s.plat.railTrip) ∧
      (tripTick s b).plat.ttrip = (s.plat.ttrip || s.plat.heatTrip)) ∨
    ((tripTick s b).plat.power ≠ .tripped ∧ (tripTick s b).plat = { s.plat with stopped := b :: s.plat.stopped } ∧
      getBed (tripTick s b) b = { getBed s b with closed := true }) := by
  by_cases all : (activeBeds (stoppedBed s b)).all (stoppedBed s b).plat.stopped.contains = true
  · exact .inl (tripTick_of_all all)
  · obtain ⟨plat, bed, -⟩ := tripTick_of_not_all all
    exact .inr ⟨by rw [plat, ready]; decide, plat, bed⟩

/-- Settles O54: an equation for each event, and what the states it leads to are. -/
theorem platformEvents : Obligations.PlatformEvents := by
  unfold Obligations.PlatformEvents
  refine ⟨rampHint_least, fun t => ⟨thermalDemand_low, thermalDemand_high, thermalDemand_between⟩, fun s => ?_⟩
  intro pw tripping
  refine ⟨?trip, ?tick, ?errors, ?sample, ?phase, ?vsb, ?hot, ?hotLinked, ?on, ?ready, ?off, ?aperture⟩
  case trip =>
    intro ready asked b hb live counts
    refine ⟨tripTick s b, scheduleTick_tripping ready ((tripping_eq_true_iff _).2 asked) hb, ?_, ?_,
      fun rest => tripTick_of_none_counts ready rest⟩
    · intro tripped
      obtain ⟨-, units, rfail, ttrip⟩ | ⟨on, -⟩ := tripTick_cases (b := b) ready
      · exact ⟨units, rfail, ttrip⟩
      · exact absurd tripped on
    · intro on
      obtain ⟨tripped, -⟩ | ⟨-, plat, bed⟩ := tripTick_cases (b := b) ready
      · exact absurd tripped on
      · rw [bed]
        exact ⟨plat, rfl, rfl⟩
  case tick =>
    intro ready calm b hb
    have calm : s.plat.tripping = false := Bool.eq_false_iff.2 fun h => calm ((tripping_eq_true_iff _).1 h)
    exact ⟨scheduleTick_bed ready calm hb, fun closed free opens => bedResume_bed ready calm hb closed free opens⟩
  case errors => exact fun ready b hb => ⟨correctableError_bed ready hb, fun last => freezeEnd_bed last⟩
  case sample =>
    intro up d w x y z hd has
    refine ⟨_, temperatureSample_eq ⟨w, x, y, z⟩ up hd, ?_, rouse_eq _, fun e he => ?_⟩
    · rw [getDie_rouse, t16_setDie_withT16 _ has]
    · rw [getDie_rouse, getDie_setDie_withT16_other s _ he]
  case phase =>
    intro up n hn works
    by_cases down : 3 * (working s n - 1) < (railOf n).1
    · refine ⟨_, phaseLoss_down up hn works down, fun _ => ?_, fun left => absurd down (by omega)⟩
      split_ifs with ready
      · rw [tripNow_ready (s := railAsks s n) ready]
        exact ⟨working_phaseLost s n, rfl⟩
      · have still : s.plat.power = .linked ∨ s.plat.power = .recovery := by
          rcases up with h | h | h
          exacts [.inl h, absurd h ready, .inr h]
        obtain ⟨rfail, -, power, units⟩ := tripNow_at_once (s := railAsks s n) still
        exact ⟨rfail.trans (Bool.or_true _), power, units⟩
    · exact ⟨_, phaseLoss_derates up hn works (by omega), fun h => absurd h down,
        fun _ => ⟨working_phaseLost s n, rfl, rfl, rfl, rfl, rfl⟩⟩
  case vsb => exact fun off up works => phaseLoss_vsb off up works
  case hot =>
    intro ready d hd hot
    rw [thermalTrip_hot (.inr ready) hd hot, tripNow_ready (by exact ready)]
  case hotLinked =>
    intro linked d hd hot
    obtain ⟨-, ttrip, power, units⟩ := tripNow_at_once (s := { s with plat := { s.plat with heatTrip := true } }) (.inl linked)
    exact ⟨_, thermalTrip_hot (.inl linked) hd hot, ttrip.trans (Bool.or_true _), power, units⟩
  case on => exact fun down => ⟨_, powerOn_eq down, bringUp_spec _⟩
  case ready => exact fun linked => powerOn_linked linked
  case off => exact lossOfInputPower_spec s
  case aperture =>
    intro ready d n reg v hd hn hreg old a held lies write
    have used : (s.core :: s.others).any (Core.lies s.plat.pkg d n) = true ↔ ∃ c ∈ s.core :: s.others, lies c := by
      simp only [List.any_eq_true, Core.lies_iff]
      rfl
    have eq := apertureRegisterWrite_eq v ready hd hn hreg
    refine ⟨fun free ok => eq.trans (if_neg ?_), fun bad => eq.trans (if_pos ?_)⟩
    · rintro (h | h)
      · obtain ⟨c, hc, hl⟩ := used.1 h
        exact free c hc hl
      · rw [Bool.not_eq_true'] at h
        exact absurd (h.symm.trans ok) Bool.false_ne_true
    · rcases bad with h | h
      · exact .inl (used.2 h)
      · exact .inr (by rw [Bool.not_eq_true']; exact h)

end Sys2Proof.Machine
end

section
/-! Decoding after encoding (R67-R84): the fields of an encoded word, the row of the opcode map it falls in, and the checks it
passes. -/

namespace Sys2Proof

/-! ### The fields of an encoded word (R71-R78) -/

theorem SregW.fields_of_enc {f : SregW} {w op kb : Nat} (enc : some (f.enc op kb) = some w) (h : f.fits = true)
    (hop : op < 256 := by decide) (hk : kb < 4 := by decide) : opOf w = op ∧ kbOf w = kb ∧ SregW.ofWord w = f := by
  obtain rfl := Option.some.inj enc
  cases f
  simp only [SregW.fits, rampOk, sOk, Bool.and_eq_true, decide_eq_true_eq] at h
  simp only [SregW.enc, head, SregW.ofWord, opOf, rampOf, kbOf, bitsOf, SregW.mk.injEq]
  omega

theorem SimmW.fields_of_enc {f : SimmW} {w op kb : Nat} (enc : some (f.enc op kb) = some w) (h : f.fits = true)
    (hop : op < 256 := by decide) (hk : kb < 4 := by decide) : opOf w = op ∧ kbOf w = kb ∧ SimmW.ofWord w = f := by
  obtain rfl := Option.some.inj enc
  cases f
  simp only [SimmW.fits, rampOk, sOk, Bool.and_eq_true, decide_eq_true_eq] at h
  simp only [SimmW.enc, head, SimmW.ofWord, opOf, rampOf, kbOf, bitsOf, SimmW.mk.injEq]
  omega

theorem SwideW.fields_of_enc {f : SwideW} {w op kb : Nat} (enc : some (f.enc op kb) = some w) (h : f.fits = true)
    (hop : op < 256 := by decide) (hk : kb < 4 := by decide) : opOf w = op ∧ kbOf w = kb ∧ SwideW.ofWord w = f := by
  obtain rfl := Option.some.inj enc
  cases f
  simp only [SwideW.fits, rampOk, sOk, Bool.and_eq_true, decide_eq_true_eq] at h
  simp only [SwideW.enc, head, SwideW.ofWord, opOf, rampOf, kbOf, bitsOf, SwideW.mk.injEq]
  omega

theorem SmemW.fields_of_enc {f : SmemW} {w op : Nat} (enc : some (f.enc op) = some w) (h : f.fits = true)
    (hop : op < 256 := by decide) : opOf w = op ∧ SmemW.ofWord w = f := by
  obtain rfl := Option.some.inj enc
  cases f
  simp only [SmemW.fits, rampOk, sOk, scOk, Bool.and_eq_true, decide_eq_true_eq] at h
  simp only [SmemW.enc, head, SmemW.ofWord, opOf, rampOf, bitsOf, SmemW.mk.injEq]
  omega

theorem SatmW.fields_of_enc {f : SatmW} {w op aop : Nat} (enc : some (f.enc op aop) = some w) (h : f.fits = true)
    (hop : op < 256 := by decide) (ha : aop < 16 := by decide) :
    opOf w = op ∧ bitsOf w 31 28 = aop ∧ SatmW.ofWord w = f := by
  obtain rfl := Option.some.inj enc
  cases f
  simp only [SatmW.fits, rampOk, sOk, scOk, Bool.and_eq_true, decide_eq_true_eq] at h
  simp only [SatmW.enc, head, SatmW.ofWord, opOf, rampOf, bitsOf, SatmW.mk.injEq]
  omega

theorem SbrW.fields_of_enc {f : SbrW} {w op : Nat} (enc : some (f.enc op) = some w) (h : f.fits = true)
    (hop : op < 256 := by decide) : opOf w = op ∧ SbrW.ofWord w = f := by
  obtain rfl := Option.some.inj enc
  cases f
  simp only [SbrW.fits, rampOk, sOk, Bool.and_eq_true, decide_eq_true_eq] at h
  simp only [SbrW.enc, head, SbrW.ofWord, opOf, rampOf, bitsOf, SbrW.mk.injEq]
  omega

theorem SsysW.fields_of_enc {f : SsysW} {w op : Nat} (enc : some (f.enc op) = some w) (h : f.fits = true)
    (hop : op < 256 := by decide) : opOf w = op ∧ SsysW.ofWord w = f := by
  obtain rfl := Option.some.inj enc
  cases f
  simp only [SsysW.fits, rampOk, sOk, Bool.and_eq_true, decide_eq_true_eq] at h
  simp only [SsysW.enc, head, SsysW.ofWord, opOf, rampOf, bitsOf, SsysW.mk.injEq]
  omega

theorem VregW.fields_of_enc {f : VregW} {w op : Nat} (enc : some (f.enc op) = some w) (h : f.fits = true)
    (hop : op < 256 := by decide) : opOf w = op ∧ VregW.ofWord w = f := by
  obtain rfl := Option.some.inj enc
  cases f
  simp only [VregW.fits, rampOk, sOk, Bool.and_eq_true, decide_eq_true_eq] at h
  simp only [VregW.enc, head, VregW.ofWord, opOf, rampOf, bitsOf, VregW.mk.injEq]
  omega

theorem VmemW.fields_of_enc {f : VmemW} {w op : Nat} (enc : some (f.enc op) = some w) (h : f.fits = true)
    (hop : op < 256 := by decide) : opOf w = op ∧ VmemW.ofWord w = f := by
  obtain rfl := Option.some.inj enc
  cases f
  simp only [VmemW.fits, rampOk, sOk, scOk, Bool.and_eq_true, decide_eq_true_eq] at h
  simp only [VmemW.enc, head, VmemW.ofWord, opOf, rampOf, bitsOf, VmemW.mk.injEq]
  omega

theorem EregW.fields_of_enc {f : EregW} {w op : Nat} (enc : some (f.enc op) = some w) (h : f.fits = true)
    (hop : op < 256 := by decide) : opOf w = op ∧ EregW.ofWord w = f := by
  obtain rfl := Option.some.inj enc
  cases f
  simp only [EregW.fits, rampOk, sOk, Bool.and_eq_true, decide_eq_true_eq] at h
  simp only [EregW.enc, head, EregW.ofWord, opOf, rampOf, bitsOf, EregW.mk.injEq]
  omega

theorem EstampW.fields_of_enc {f : EstampW} {w op : Nat} (enc : some (f.enc op) = some w) (h : f.fits = true)
    (hop : op < 256 := by decide) : opOf w = op ∧ EstampW.ofWord w = f := by
  obtain rfl := Option.some.inj enc
  cases f
  simp only [EstampW.fits, rampOk, Bool.and_eq_true, decide_eq_true_eq] at h
  simp only [EstampW.enc, head, EstampW.ofWord, opOf, rampOf, bitsOf, EstampW.mk.injEq]
  omega

/-! ### The forms of a keep-capable word (R68) -/

theorem keepable_plain {w : Nat} (plain : Instr) (e : EForm) (h : kbOf w = 0) : keepable w plain e = some plain := by
  simp only [keepable, h]

theorem keepable_keep {w : Nat} (plain : Instr) (e : EForm) (h : kbOf w = 1) : keepable w plain e = some (.keepForm e) := by
  simp only [keepable, h]

theorem keepable_back {w : Nat} (plain : Instr) (e : EForm) (h : kbOf w = 2) : keepable w plain e = some (.backForm e) := by
  simp only [keepable, h]

/-- The word of an erasing form, whatever its KB, is read as that form with its plain word. -/
theorem rawDecode_eform {e : EForm} {w kb : Nat} (enc : some (e.enc kb) = some w) (h : e.plainOk = true) (hk : kb < 4) :
    kbOf w = kb ∧ ∃ plain, rawDecode w = keepable w plain e := by
  cases e with
  | reg op f =>
    obtain ⟨o, k, rfl⟩ := SregW.fields_of_enc enc (Laws.Enc.EReg_fits h) (by cases op <;> decide) hk
    refine ⟨k, ?_⟩
    rw [rawDecode, o]
    cases op <;> exact ⟨_, rfl⟩
  | imm op f =>
    obtain ⟨o, k, rfl⟩ := SimmW.fields_of_enc enc (Laws.Enc.EImm_fits h) (by cases op <;> decide) hk
    refine ⟨k, ?_⟩
    rw [rawDecode, o]
    cases op <;> exact ⟨_, rfl⟩
  | wide f =>
    obtain ⟨o, k, rfl⟩ := SwideW.fields_of_enc enc h (by decide) hk
    refine ⟨k, ?_⟩
    rw [rawDecode, o]
    exact ⟨_, rfl⟩

/-! ### Fields of MD that select an instruction (R75, R349, R375) -/

theorem EregW.bits_kind (w : Nat) : bitsOf w 6 5 = (EregW.ofWord w).md / 32 % 4 := by
  simp only [EregW.ofWord, bitsOf]
  omega

theorem EregW.bits_aop (w : Nat) : bitsOf w 3 0 = (EregW.ofWord w).md % 16 := by
  simp only [EregW.ofWord, bitsOf]
  omega

theorem EregW.bits_coll (w : Nat) : bitsOf w 1 0 = (EregW.ofWord w).md % 4 := by
  simp only [EregW.ofWord, bitsOf]
  omega

/-! ### The row of the opcode map (R81-R83) -/

/-- The opcode and the selecting fields of an encoded word name the instruction it was encoded from, with its own fields. -/
theorem rawDecode_of_encode {i : Instr} {w : Nat} (wf : i.wf = true) (enc : encode i = some w)
    (legal : ∀ v, i ≠ .illegalInstruction v) : rawDecode w = some i := by
  cases i with simp only [Instr.wf, Bool.and_eq_true, beq_iff_eq, bne_iff_ne, decide_eq_true_eq] at wf
  | add f | sub f | xor f | neg f | rol f | mulo f | swap f | cswap f =>
    obtain ⟨o, -, rfl⟩ := SregW.fields_of_enc enc (by simp only [wf])
    rw [rawDecode, o]; rfl
  | bperm f =>
    obtain ⟨o, -, rfl⟩ := SregW.fields_of_enc enc (by simp only [wf])
    have plain : bitsOf w 22 22 = 0 := by tauto
    rw [rawDecode, o]
    exact if_pos plain
  | bpermE f =>
    obtain ⟨o, -, rfl⟩ := SregW.fields_of_enc enc (by simp only [wf])
    have erasing : bitsOf w 22 22 = 1 := by tauto
    rw [rawDecode, o]
    exact if_neg (by omega)
  | addi f | xori f | roli f | muloi f =>
    obtain ⟨o, -, rfl⟩ := SimmW.fields_of_enc enc (by simp only [wf])
    rw [rawDecode, o]; rfl
  | xorw f =>
    obtain ⟨o, -, rfl⟩ := SwideW.fields_of_enc enc wf
    rw [rawDecode, o]; rfl
  | add3 f | sub3 f | xor3 f | and f | or f | mul f | mulh f | shl f | shr f | sar f | mov f | clr f | ext f | norm f | popc f
  | cmpeq f | cmplt f | cmplo f =>
    obtain ⟨o, k, rfl⟩ := SregW.fields_of_enc enc (Laws.Enc.EReg_fits wf)
    rw [rawDecode, o]
    exact keepable_plain _ _ k
  | andi f | ori f | shli f | shri f | sari f | movi f | bfx f | bfi f =>
    obtain ⟨o, k, rfl⟩ := SimmW.fields_of_enc enc (Laws.Enc.EImm_fits wf)
    rw [rawDecode, o]
    exact keepable_plain _ _ k
  | movw f =>
    obtain ⟨o, k, rfl⟩ := SwideW.fields_of_enc enc wf
    rw [rawDecode, o]
    exact keepable_plain _ _ k
  | min f | max f | minK f | maxK f | minB f | maxB f =>
    obtain ⟨o, k, rfl⟩ := SregW.fields_of_enc enc (by simp only [wf])
    simp only [rawDecode, o, raw1, k, Nat.reduceDiv, Nat.reduceMod]
  | keepForm e =>
    simp only [EForm.keepOk, Bool.and_eq_true] at wf
    obtain ⟨k, plain, row⟩ := rawDecode_eform (kb := 1) enc (by simp only [wf]) (by decide)
    rw [row, keepable_keep _ _ k]
  | backForm e =>
    simp only [EForm.keepOk, Bool.and_eq_true] at wf
    obtain ⟨k, plain, row⟩ := rawDecode_eform (kb := 2) enc (by simp only [wf]) (by decide)
    rw [row, keepable_back _ _ k]
  | bpld f | ld f | ldx f | st f | stx f | swpm f =>
    obtain ⟨o, rfl⟩ := SmemW.fields_of_enc enc (by simp only [wf])
    rw [rawDecode, o]; rfl
  | bc f | call f | ret f | loop f =>
    obtain ⟨o, rfl⟩ := SbrW.fields_of_enc enc (by simp only [wf])
    rw [rawDecode, o]; rfl
  | atomAdd f | atomMin f | atomMax f | atomAnd f | atomOr f | atomXor f | atomSwp f | atomCas f | atomFadd f =>
    obtain ⟨o, aop, rfl⟩ := SatmW.fields_of_enc enc (by simp only [wf])
    simp only [rawDecode, o, raw3, atomOf, aop, Nat.reduceDiv, Nat.reduceMod]
  | nop f | wsend f | xbar f | sret f | dbgbrk f | replay f | done f | kill f =>
    obtain ⟨o, rfl⟩ := SsysW.fields_of_enc enc (Laws.Enc.bare_fits wf)
    rw [rawDecode, o]; rfl
  | fence f | tmark f | twait f | syexp f | sywait f | syarr f | qwait f | hclaim f | hrel f | pgreq f | hpush f | hpop f | hspill f
  | hfill f | erase f | hmark f | hchk f | hdrop f | trap f | crrd f | safept f =>
    obtain ⟨o, rfl⟩ := SsysW.fields_of_enc enc (by simp only [wf])
    rw [rawDecode, o]; rfl
  | crwr f | crset f | crclr f | crswp f =>
    obtain ⟨o, rfl⟩ := SsysW.fields_of_enc enc (by simp only [wf])
    have other : bitsOf w 13 0 ≠ crUhtop := by tauto
    rw [rawDecode, o]
    exact if_neg other
  | uhtopWrite how f =>
    have uhtop : f.fits = true ∧ f.sel = crUhtop := by cases how <;> simp_all
    obtain ⟨fits, sel⟩ := uhtop
    cases how <;>
    · obtain ⟨o, rfl⟩ := SsysW.fields_of_enc enc fits
      rw [rawDecode, o]
      exact if_pos sel
  | vld f | vldx f | vst f | vstx f | vswpm f =>
    obtain ⟨o, rfl⟩ := VmemW.fields_of_enc enc wf
    rw [rawDecode, o]; rfl
  | vadd f | vsub f | vmul f | vfma f | vmin f | vmax f | vand f | vor f | vxor f | vabs f | vneg f | vshl f | vshr f | vsar f
  | vradd f | vrsub f | vrxor f | vswap f | vcmpeq f | vcmplt f | vcmple f | vclass f | vsel f | vcvt f | vscacc f | vredc f
  | vrot f | vbcast f | vxcol f | vrcp f | vrsq f | vexp2 f | vmovv f | vpand f | vpor f | vpnot f | vpany f =>
    obtain ⟨o, rfl⟩ := VregW.fields_of_enc enc (by simp only [wf])
    rw [rawDecode, o]; rfl
  | vredr f | vamax f | vmovs f =>
    obtain ⟨o, rfl⟩ := VregW.fields_of_enc enc (by simp only [wf])
    rw [rawDecode, o]
    refine if_pos ?_
    simp only [VregW.ofWord, bitsOf] at wf ⊢
    omega
  | vredrScalar f | vamaxClr f | vmovsAll f =>
    obtain ⟨o, rfl⟩ := VregW.fields_of_enc enc (by simp only [wf])
    rw [rawDecode, o]
    refine if_neg ?_
    simp only [VregW.ofWord, bitsOf] at wf ⊢
    omega
  | tswap f | tnop f | tmac f | tmacb f =>
    obtain ⟨o, rfl⟩ := EstampW.fields_of_enc enc (by simp only [wf])
    rw [rawDecode, o]; rfl
  | tloadw f | tdrainb f | anorm f | aclr f | torg f | tstat f | cpy f | cpyt f | cpfill f | cpxor f | cpgath f | cpscat f | cpswp f
  | cpstat f | gproj f | gload f | gstore f | gsetm f | gsetb f | gclr f | bred f | bdig f | bcopy f | bfill f | bseed f =>
    obtain ⟨o, rfl⟩ := EregW.fields_of_enc enc (by simp only [wf])
    rw [rawDecode, o]; rfl
  | tfetchRow f | tdrain f | gstat f | bstat f =>
    obtain ⟨o, rfl⟩ := EregW.fields_of_enc enc (by simp only [wf])
    rw [rawDecode, o]
    refine if_pos ?_
    simp only [EregW.ofWord, bitsOf] at wf ⊢
    omega
  | tfetchCol f | tdrainVec f | gstatInfo f | bstatInfo f =>
    obtain ⟨o, rfl⟩ := EregW.fields_of_enc enc (by simp only [wf])
    rw [rawDecode, o]
    refine if_neg ?_
    simp only [EregW.ofWord, bitsOf] at wf ⊢
    omega
  | graftAppend f | graftSum f | graftSplit f =>
    obtain ⟨o, rfl⟩ := EregW.fields_of_enc enc (by simp only [wf])
    simp only [rawDecode, o, raw9, EregW.bits_kind, wf, Nat.reduceDiv, Nat.reduceMod]
  | batomAdd f | batomMin f | batomMax f | batomAnd f | batomOr f | batomXor f | batomSwp f | batomCas f | batomFadd f =>
    obtain ⟨o, rfl⟩ := EregW.fields_of_enc enc (by simp only [wf])
    simp only [rawDecode, o, rawA, batomOf, EregW.bits_aop, wf, Nat.reduceDiv, Nat.reduceMod]
  | bcollAllreduce f | bcollRedscat f | bcollAllgath f | bcollBcast f =>
    obtain ⟨o, rfl⟩ := EregW.fields_of_enc enc (by simp only [wf])
    simp only [rawDecode, o, rawA, EregW.bits_coll, wf, Nat.reduceDiv, Nat.reduceMod]
  | illegalInstruction v => exact absurd rfl (legal v)
  | _ => cases enc

end Sys2Proof

/-! ### The checks on OP, RAMP and KB (R84) -/

namespace Sys2Proof.Laws.Enc
open Sys2Proof

/-- The word of a well-formed instruction passes the first checks of R84. -/
theorem statement (i : Instr) : Statement i := by
  cases i
  exacts [
    nop _, add _, sub _, xor _, neg _, rol _, mulo _, swap _, cswap _, bperm _, bpermE _, addi _, xori _, roli _, muloi _, xorw _,
    add3 _, sub3 _, xor3 _, and _, or _, mul _, mulh _, min _, max _, minK _, maxK _, minB _, maxB _, keepForm _, backForm _,
    shl _, shr _, sar _, mov _, clr _, ext _, norm _, popc _, cmpeq _, cmplt _, cmplo _, andi _, ori _, shli _, shri _, sari _,
    movi _, movw _, bfx _, bfi _, bpld _, bc _, call _, ret _, loop _, ld _, ldx _, st _, stx _, swpm _, atomAdd _, atomMin _,
    atomMax _, atomAnd _, atomOr _, atomXor _, atomSwp _, atomCas _, atomFadd _, fence _, tmark _, twait _, syexp _, syarr _,
    sywait _, qwait _, hclaim _, hrel _, wsend _, xbar _, pgreq _, hpush _, hpop _, hspill _, hfill _, hmark _, hchk _, hdrop _,
    erase _, vld _, vldx _, vst _, vstx _, vswpm _, vadd _, vsub _, vmul _, vfma _, vmin _, vmax _, vabs _, vneg _, vand _, vor _,
    vxor _, vshl _, vshr _, vsar _, vradd _, vrsub _, vrxor _, vswap _, vcmpeq _, vcmplt _, vcmple _, vclass _, vsel _, vcvt _,
    vscacc _, vredr _, vredrScalar _, vredc _, vrot _, vbcast _, vxcol _, vrcp _, vrsq _, vexp2 _, vamax _, vamaxClr _, vmovs _,
    vmovsAll _, vmovv _, vpand _, vpor _, vpnot _, vpany _, tfetchRow _, tfetchCol _, tloadw _, tswap _, tmac _, tmacb _,
    tdrain _, tdrainVec _, tdrainb _, anorm _, aclr _, torg _, tstat _, tnop _, cpy _, cpyt _, cpgath _, cpscat _, cpfill _,
    cpxor _, cpswp _, cpstat _, graftAppend _, graftSum _, graftSplit _, gproj _, gload _, gstore _, gsetm _, gsetb _, gclr _,
    gstat _, gstatInfo _, batomAdd _, batomMin _, batomMax _, batomAnd _, batomOr _, batomXor _, batomSwp _, batomCas _,
    batomFadd _, bred _, bcollAllreduce _, bcollRedscat _, bcollAllgath _, bcollBcast _, bdig _, bcopy _, bfill _, bseed _,
    bstat _, bstatInfo _, trap _, sret _, crrd _, crwr _, crswp _, crset _, crclr _, uhtopWrite _ _, safept _, dbgbrk _, replay _,
    done _, kill _, bedResume _, memoryReply _ _, postBufferRoom _, writeAcknowledgement _ _, remoteTimeout _ _,
    neighbourWordLanding _, statusWordPush _ _, syncWordEvent _ _ _, trellisEntryStart _, stampTick _, trellisEntryCompletion _,
    engineEntryStart _ _, syncTagPosting _, engineEntryCompletion _ _, sieveVote _ _, pageServiced _ _ _, barrierAdvance _ _,
    budgetExpiry _, notify _, cread _, unitStart _ _ _, unitSave _, gangAck _ _ _, gangAbort _ _, remoteAccess _,
    correctableError _, freezeEnd _, temperatureSample _ _, pwrcap _, phaseLoss _, thermalTrip _, apertureRegisterWrite _ _ _ _,
    preset _, rdoor _, attestationRequest _, scheduleTick _, illegalInstruction _, trapEntry, preemptionStop, launchRecord,
    cancelRecord, replayRecord, resumeBed, haltBed, close, openJob, endJob, launchPlacement, launchAgeing _ _,
    completionRecordWrite, powerOn, fetchFault, lossOfInputPower]

end Sys2Proof.Laws.Enc

namespace Sys2Proof

theorem decode_unassigned {w : Nat} (h : opAssigned (opOf w) = false) :
    decode w = .ok (.illegalInstruction (BitVec.ofNat 64 w)) := by
  simp [decode, h]

/-- A word that passes the first checks is the instruction its row names, if that is well formed and encodes to this word. -/
theorem decode_of_passes {w : Nat} {i : Instr} (h : Laws.Enc.Passes w) (row : rawDecode w = some i) (wf : i.wf = true)
    (enc : encode i = some w) : decode w = .ok i := by
  obtain ⟨-, op, ramp, kb⟩ := h
  simp [decode, op, ramp, kb, row, wf, enc]

/-- Settles O59: the word of an instruction passes the first checks of R84, and its row gives the instruction back. -/
theorem decodeAfterEncode : Obligations.DecodeAfterEncode := by
  unfold Obligations.DecodeAfterEncode
  intro i w wf enc unassigned
  obtain ⟨v, rfl, rfl⟩ | passes := Laws.Enc.statement i wf w enc
  · refine ⟨v.isLt, ?_⟩
    rw [decode_unassigned (unassigned v rfl), BitVec.ofNat_toNat, BitVec.setWidth_eq]
  · have legal (v : Word) : i ≠ .illegalInstruction v := by
      rintro rfl
      obtain rfl := Option.some.inj enc
      obtain ⟨-, op, -, -⟩ := passes
      rw [unassigned v rfl] at op
      exact Bool.false_ne_true op
    exact ⟨passes.1, decode_of_passes passes (rawDecode_of_encode wf enc legal) wf enc⟩

/-- Settles O60: each word is decoded, and its instruction encoded again. -/
theorem decodedWords : Obligations.DecodedWords := by
  unfold Obligations.DecodedWords
  decide +kernel

end Sys2Proof
end

section
/-! The step at a due word (R83, R84, R91, R205): its fetch, its issue, and the turn that moves on. -/

namespace Sys2Proof.Machine
open Stmt

/-! ### The issuing step (R83, R84, R91) -/

theorem issueWord_instr {ex : Instr → State → Res} {s : State} {i : Instr} (fetched : fetchStop s = none)
    (d : decode (fetchWord s) = .ok i) : issueWord ex s = ex i s := by
  simp only [issueWord, fetched, d]

theorem issueWord_illegal {ex : Instr → State → Res} {s : State} (fetched : fetchStop s = none)
    (d : decode (fetchWord s) = .error .illegal) :
    issueWord ex s = ex (.illegalInstruction (BitVec.ofNat 64 (fetchWord s))) s := by
  simp only [issueWord, fetched, d]

theorem issueWord_reserved {ex : Instr → State → Res} {s : State} (fetched : fetchStop s = none)
    (d : decode (fetchWord s) = .error .reserved) : issueWord ex s = .next (wordFault s (fetchWord s) 0x02) := by
  simp only [issueWord, fetched, d]

theorem issueWord_fetchFault {ex : Instr → State → Res} {s : State} (stopped : fetchStop s ≠ none) :
    issueWord ex s = ex .fetchFault s := by
  obtain ⟨f, h⟩ := Option.ne_none_iff_exists'.1 stopped
  simp only [issueWord, h]

/-- In the system view, or with nothing pending, no condition of R174 comes before the word. -/
theorem boundary_none {ex : Instr → State → Res} {s : State}
    (free : s.core.view = .system ∨ (s.core.qp = false ∧ s.core.deferred = none ∧ s.core.event = none ∧ s.core.thr = false)) :
    boundary ex s = none := by
  unfold boundary
  refine if_pos ?_
  rcases free with view | ⟨qp, deferred, event, thr⟩
  · simp [view]
  · simp [qp, deferred, event, thr]

/-- The step at a due word is its issue, after which the turn moves on. -/
theorem step_of_wordDue {s : State} (due : wordDue s) : step s = mapNext moveOn (issueWord exec s) := by
  obtain ⟨agenda, ready, opened, free, runs, early, columns, trap, wait, bt, conditions⟩ := due
  have now : ¬ (s.core.wait.isSome ∨ s.bed.btick < s.core.nextBt) := by
    rw [wait]
    exact not_or.2 ⟨Bool.false_ne_true, by omega⟩
  simp [step, turn, agenda, ready, coreTurn, opened, free, early, columns, runs, trap, now, boundary_none conditions]

/-! ### The fetch within a plain extent (R205) -/

/-- Places that are there have been found. -/
theorem places_eq_placesOf {s : State} {c : Core} {va len : Nat} {wr : Bool} (h : placesOf s c va len wr ≠ []) :
    places s c va len wr = .ok (placesOf s c va len wr) := by
  unfold placesOf at h ⊢
  split at h
  · assumption
  · exact absurd rfl h

/-- The word of a plain executable extent is fetched: its eight bytes are the bytes at its physical address. -/
theorem fetch_plain {s : State} {e : Extent} (aligned : s.core.pc.toNat % 8 = 0)
    (inside : findExt s.core.extents s.core.pc.toNat = some e) (ex : e.ex = true) (plain : e.cmp = false)
    (direct : paSpace e.pbase ≠ 3) (fits : s.core.pc.toNat + 8 ≤ e.vbase + e.len)
    (ram : ∀ i < 8, paOk (e.pbase + (s.core.pc.toNat - e.vbase) + i) = true ∧
      mcHolds s (e.pbase + (s.core.pc.toNat - e.vbase) + i) 1 = false) (clean : s.ecc = []) :
    fetchStop s = none ∧ fetchWord s = leNat (rdN s.mem (e.pbase + (s.core.pc.toNat - e.vbase)) 8) := by
  have at_ := placesOf_plain false inside (by decide) fits plain direct ram
  have read := readPlaces_bytes clean (e.pbase + (s.core.pc.toNat - e.vbase)) 8
  rw [← at_] at read
  refine ⟨?_, by simp only [fetchWord, read]⟩
  have found : places s s.core s.core.pc.toNat 8 false = .ok (placesOf s s.core s.core.pc.toNat 8 false) :=
    places_eq_placesOf (by rw [at_]; exact List.cons_ne_nil _ _)
  simp [fetchStop, aligned, inside, ex, found, read]

/-! ### The turn moves on (R91) -/

/-- Without a vector word in flight no column reads or draws. -/
theorem lateColumns_of_vq_nil {s : State} (none : s.core.vq = []) : lateColumns s = s := by
  have here : getCore s s.core.num = s.core := if_pos rfl
  simp [lateColumns, vecColumns, here, none]

@[simp] theorem getCore_passOn (s : State) (n : Nat) : getCore (passOn s) n = getCore s n := by
  unfold passOn
  split
  · rfl
  · split
    · exact getCore_focus ..
    · rfl

@[simp] theorem getBed_passOn (s : State) (n : Nat) : getBed (passOn s) n = getBed s n := by
  unfold passOn
  split
  · rfl
  · split
    · exact getBed_focus ..
    · rfl

/-- Settles O55: a due word's step is its issue (`step_of_wordDue`), by the outcome of the fetch and of the decoding. -/
theorem stepRunsTheWord : Obligations.StepRunsTheWord := by
  unfold Obligations.StepRunsTheWord
  refine ⟨fun s due => ⟨fun fetched => ⟨fun i d => ?_, fun d => ?_, fun d => ?_⟩, fun stopped => ?_⟩, ?plain, ?moves⟩
  · rw [step_of_wordDue due, issueWord_instr fetched d]
  · rw [step_of_wordDue due, issueWord_illegal fetched d]
  · rw [step_of_wordDue due, issueWord_reserved fetched d]
    rfl
  · rw [step_of_wordDue due, issueWord_fetchFault stopped]
  case plain =>
    intro s e pc pa aligned inside ex _ plain direct fits ram clean
    exact fetch_plain aligned inside ex plain direct fits ram clean
  case moves =>
    exact fun s => ⟨rfl, lateColumns_of_vq_nil, getCore_passOn s, getBed_passOn s, by rw [passOn_only]⟩

end Sys2Proof.Machine
end

section
/-! Every instruction and event answers a next state (R83): the words by the shared operations that issue them, the events by their
branches; then every step, but in a package without input power (R421). -/

namespace Sys2Proof.Machine
open Stmt

/-- The outcome is a next state. -/
def Answers (r : Res) : Prop := ∃ t, r = .next t

theorem Answers.next (t : State) : Answers (.next t) := ⟨t, rfl⟩

theorem Answers.ite {p : Prop} [Decidable p] {q r : Res} (hq : Answers q) (hr : Answers r) : Answers (if p then q else r) := by
  split <;> assumption

/-! ### The operations that issue words -/

theorem runWord_answers (s : State) (i : Instr) (sys : Bool) (units : List FUnit) (ramp : Nat) (srcs : List Nat)
    (lands : List Pend) (own : Option Stop) (work : Nat) (npc : Word) (nbt : Nat) (eff : State → State) :
    Answers (runWord s i sys units ramp srcs lands own work npc nbt eff) := by
  obtain ⟨st, stopped⟩ | runs := runWord_next s i sys units ramp srcs lands own work npc nbt eff
  · exact ⟨_, stopped⟩
  · exact ⟨_, runs⟩

theorem runNext_answers (s : State) (i : Instr) (sys : Bool) (units : List FUnit) (ramp : Nat) (srcs : List Nat)
    (lands : List Pend) (own : Option Stop) (work : Nat) (eff : State → State) :
    Answers (runNext s i sys units ramp srcs lands own work eff) := runWord_answers ..

theorem runRev_answers (s : State) (i : Instr) (u : FUnit) (base work ramp d w : Nat) (srcs : List Nat) (v : Nat) :
    Answers (runRev s i u base work ramp d w srcs v) := runNext_answers ..

theorem runErase_answers (s : State) (i : Instr) (e : EForm) : Answers (runErase s i e) := by
  simp only [runErase]
  exact runNext_answers ..

theorem runKeep_answers (s : State) (i : Instr) (e : EForm) : Answers (runKeep s i e) := by
  simp only [runKeep]
  exact runNext_answers ..

theorem runBack_answers (s : State) (i : Instr) (e : EForm) : Answers (runBack s i e) := by
  simp only [runBack]
  exact runNext_answers ..

theorem runMinMax_answers (s : State) (i : Instr) (isMax : Bool) (f : SregW) : Answers (runMinMax s i isMax f) := by
  simp only [runMinMax]
  exact runNext_answers ..

theorem runMinMaxK_answers (s : State) (i : Instr) (isMax : Bool) (f : SregW) : Answers (runMinMaxK s i isMax f) := by
  simp only [runMinMaxK]
  exact runNext_answers ..

theorem runMinMaxB_answers (s : State) (i : Instr) (f : SregW) : Answers (runMinMaxB s i f) := by
  simp only [runMinMaxB]
  exact runNext_answers ..

theorem runCrWrite_answers (s : State) (i : Instr) (f : SsysW) (v : Word) : Answers (runCrWrite s i f v) := runNext_answers ..

/-- A word that may wait issues at once, is stopped, or waits (R84, R219). -/
theorem runWait_answers (s : State) (i : Instr) (ramp : Nat) (srcs : List Nat) (own : Option Stop) (work : Nat) (now : Bool)
    (w : Wait) (eff : State → State) : Answers (runWait s i ramp srcs own work now w eff) := by
  unfold runWait
  split
  · exact runNext_answers ..
  · split <;> exact .next _

/-! ### The operations that access memory -/

theorem runLoad_answers (s : State) (i : Instr) (xor : Bool) (f : SmemW) : Answers (runLoad s i xor f) := by
  unfold runLoad
  extract_lets
  (repeat' split) <;> exact runNext_answers ..

theorem runStore_answers (s : State) (i : Instr) (xor : Bool) (f : SmemW) : Answers (runStore s i xor f) := by
  unfold runStore
  extract_lets
  (repeat' split) <;> exact runNext_answers ..

theorem execSwpm_answers (f : SmemW) (s : State) : Answers (execSwpm f s) := by
  unfold execSwpm
  extract_lets
  (repeat' split) <;> exact runNext_answers ..

theorem runAtom_answers (s : State) (i : Instr) (op : Aop) (f : SatmW) : Answers (runAtom s i op f) := by
  unfold runAtom
  extract_lets
  (repeat' split) <;> exact runNext_answers ..

theorem execBpld_answers (f : SmemW) (s : State) : Answers (execBpld f s) := by
  unfold execBpld
  extract_lets
  (repeat' split) <;> exact runNext_answers ..

theorem runSpill_answers (s : State) (i : Instr) (f : SsysW) (fill : Bool) : Answers (runSpill s i f fill) := by
  unfold runSpill
  extract_lets
  split
  · exact runNext_answers ..
  · split
    · exact runNext_answers ..
    · extract_lets
      split <;> exact runNext_answers ..

theorem execErase_answers (f : SsysW) (s : State) : Answers (execErase f s) := by
  unfold execErase
  extract_lets
  (repeat' split) <;> exact runNext_answers ..

/-! ### The operations that issue vector words and accept engine entries -/

theorem runVreg_answers (s : State) (i : Instr) (f : VregW) : Answers (runVreg s i f) := by
  unfold runVreg
  split
  · exact .next _
  · extract_lets
    split
    extract_lets
    split <;> exact .next _

theorem runVmem_answers (s : State) (i : Instr) : Answers (runVmem s i) := by
  unfold runVmem
  split
  · exact .next _
  · extract_lets
    split <;> exact .next _

theorem runEngine_answers (s : State) (i : Instr) (q : EngQ) (tk : EngTokens) (srcs : List Nat) (own : Option Stop)
    (mk : Entry → Entry) (eff : State → State) : Answers (runEngine s i q tk srcs own mk eff) := by
  unfold runEngine
  extract_lets
  split
  · exact .next _
  · exact runNext_answers ..

theorem runEreg_answers (s : State) (i : Instr) (q : EngQ) (f : EregW) (own : Option Stop) (mk : Entry → Entry) :
    Answers (runEreg s i q f own mk) := runEngine_answers ..

theorem runEstamp_answers (s : State) (i : Instr) (q : EngQ) (f : EstampW) : Answers (runEstamp s i q f) :=
  runEngine_answers ..

theorem runFetch_answers (s : State) (i : Instr) (f : EregW) : Answers (runFetch s i f) := by
  simp only [runFetch]
  exact runEreg_answers ..

theorem runCopy_answers (s : State) (i : Instr) (f : EregW) : Answers (runCopy s i f) := by
  simp only [runCopy]
  exact runEreg_answers ..

theorem runBatom_answers (s : State) (i : Instr) (op : Aop) (f : EregW) : Answers (runBatom s i op f) := runEreg_answers ..

theorem runBcoll_answers (s : State) (i : Instr) (kind : Nat) (f : EregW) : Answers (runBcoll s i kind f) := by
  simp only [runBcoll]
  exact runEngine_answers ..

theorem runGraft_answers (s : State) (i : Instr) (f : EregW) : Answers (runGraft s i f) := by
  unfold runGraft
  split
  · exact runEreg_answers ..
  · exact .next _

/-! ### Events that call others -/

theorem takeRecord_answers (s : State) (mine : Nat → Bool) (act : State → Nat → State) : Answers (takeRecord s mine act) := by
  unfold takeRecord
  (repeat' split) <;> exact .next _

theorem execRemoteTimeout_answers (core : Nat) (what : TimedOut) (s : State) : Answers (execRemoteTimeout core what s) := by
  cases what with
  | access id =>
    simp only [execRemoteTimeout, accessTimeout]
    (repeat' split) <;> exact .next _
  | entry q va wr =>
    simp only [execRemoteTimeout, entryTimeout]
    (repeat' split) <;> exact .next _

theorem execPhaseLoss_answers (rail : Nat) (s : State) : Answers (execPhaseLoss rail s) := by
  simp only [execPhaseLoss, execLossOfInputPower]
  (repeat' split) <;> exact .next _

theorem execRemoteAccess_answers (r : RemoteReq) (s : State) : Answers (execRemoteAccess r s) := by
  simp only [execRemoteAccess, remoteStore, remoteAtomic, execPwrcap, execPreset, execRdoor, execCread, execNotify]
  (repeat' split) <;> exact .next _

/-! ### Every instruction and event -/

/-- No instruction and no event is without an outcome: each word issues, is stopped or waits, each branch of an event is a next
state. -/
theorem exec_answers (i : Instr) (s : State) : Answers (exec i s) := by
  cases i with simp only [exec]
  | nop _ | bpermE _ | hmark _ | hdrop _ | safept _ | dbgbrk _ | replay _ => exact runNext_answers ..
  | swap _ | cswap _ | bperm _ | xorw _ | fence _ | tmark _ | syarr _ | hclaim _ | hrel _ | pgreq _ | hpush _ | hpop _ | hchk _
  | trap _ | crrd _ | crswp _ | uhtopWrite _ _ | done _ | kill _ =>
    simp only [execSwap, execCswap, execBperm, execXorw, execFence, execTmark, execSyarr, execHclaim, execHrel, execPgreq,
      execHpush, execHpop, execHchk, execTrap, execCrrd, execCrswp, execUhtopWrite, execDone, execKill]
    exact runNext_answers ..
  | call _ | sret _ => exact runWord_answers ..
  | bc _ | ret _ | loop _ =>
    simp only [execBc, execRet, execLoop]
    exact runWord_answers ..
  | add _ | sub _ | xor _ | neg _ | rol _ | mulo _ | addi _ | xori _ | roli _ | muloi _ =>
    simp only [execAdd, execSub, execXor, execNeg, execRol, execMulo, execAddi, execXori, execRoli, execMuloi]
    exact runRev_answers ..
  | add3 _ | sub3 _ | xor3 _ | and _ | or _ | mul _ | mulh _ | shl _ | shr _ | sar _ | mov _ | clr _ | ext _ | norm _ | popc _
  | cmpeq _ | cmplt _ | cmplo _ | andi _ | ori _ | shli _ | shri _ | sari _ | movi _ | movw _ | bfx _ | bfi _ =>
    exact runErase_answers ..
  | keepForm _ => exact runKeep_answers ..
  | backForm _ => exact runBack_answers ..
  | min _ | max _ => exact runMinMax_answers ..
  | minK _ | maxK _ => exact runMinMaxK_answers ..
  | minB _ | maxB _ => exact runMinMaxB_answers ..
  | crwr _ | crset _ | crclr _ => exact runCrWrite_answers ..
  | ld _ | ldx _ => exact runLoad_answers ..
  | st _ | stx _ => exact runStore_answers ..
  | atomAdd _ | atomMin _ | atomMax _ | atomAnd _ | atomOr _ | atomXor _ | atomSwp _ | atomCas _ | atomFadd _ =>
    exact runAtom_answers ..
  | qwait _ | xbar _ => exact runWait_answers ..
  | twait _ | syexp _ | sywait _ | wsend _ =>
    simp only [execTwait, execSyexp, execSywait, execWsend]
    exact runWait_answers ..
  | hspill _ | hfill _ => exact runSpill_answers ..
  | vadd _ | vsub _ | vmul _ | vfma _ | vmin _ | vmax _ | vabs _ | vneg _ | vand _ | vor _ | vxor _ | vshl _ | vshr _ | vsar _
  | vradd _ | vrsub _ | vrxor _ | vswap _ | vcmpeq _ | vcmplt _ | vcmple _ | vclass _ | vsel _ | vcvt _ | vscacc _ | vredr _
  | vredrScalar _ | vredc _ | vrot _ | vbcast _ | vxcol _ | vrcp _ | vrsq _ | vexp2 _ | vamax _ | vamaxClr _ | vmovs _
  | vmovsAll _ | vmovv _ | vpand _ | vpor _ | vpnot _ | vpany _ => exact runVreg_answers ..
  | vld _ | vldx _ | vst _ | vstx _ | vswpm _ => exact runVmem_answers ..
  | tmacb _ => exact runEngine_answers ..
  | tdrainVec _ | bseed _ =>
    simp only [execTdrainVec, execBseed]
    exact runEngine_answers ..
  | tloadw _ | anorm _ | aclr _ | tstat _ | cpstat _ | gsetm _ | gclr _ | gstat _ | gstatInfo _ | bcopy _ | bfill _ | bstat _
  | bstatInfo _ => exact runEreg_answers ..
  | tdrain _ | tdrainb _ | torg _ | gload _ | gstore _ | gsetb _ | bred _ | bdig _ =>
    simp only [execTdrain, execTdrainb, execTorg, execGload, execGstore, execGsetb, execBred, execBdig]
    exact runEreg_answers ..
  | tswap _ | tmac _ | tnop _ => exact runEstamp_answers ..
  | tfetchRow _ | tfetchCol _ => exact runFetch_answers ..
  | cpy _ | cpyt _ | cpgath _ | cpscat _ | cpfill _ | cpxor _ | cpswp _ => exact runCopy_answers ..
  | graftAppend _ | graftSum _ | graftSplit _ | gproj _ => exact runGraft_answers ..
  | batomAdd _ | batomMin _ | batomMax _ | batomAnd _ | batomOr _ | batomXor _ | batomSwp _ | batomCas _ | batomFadd _ =>
    exact runBatom_answers ..
  | bcollAllreduce _ | bcollRedscat _ | bcollAllgath _ | bcollBcast _ => exact runBcoll_answers ..
  | launchRecord | cancelRecord | replayRecord | resumeBed | haltBed | close | openJob | endJob => exact takeRecord_answers ..
  | bpld _ => exact execBpld_answers ..
  | swpm _ => exact execSwpm_answers ..
  | erase _ => exact execErase_answers ..
  | remoteAccess _ => exact execRemoteAccess_answers ..
  | remoteTimeout _ _ => exact execRemoteTimeout_answers ..
  | phaseLoss _ => exact execPhaseLoss_answers ..
  | neighbourWordLanding _ | statusWordPush _ _ | syncWordEvent _ _ _ | gangAbort _ _ | illegalInstruction _
  | lossOfInputPower => exact .next _
  | memoryReply _ _ | postBufferRoom _ | writeAcknowledgement _ _ | trellisEntryStart _ | stampTick _ | trellisEntryCompletion _
  | engineEntryStart _ _ | syncTagPosting _ | engineEntryCompletion _ _ | pageServiced _ _ _ | trapEntry | preemptionStop
  | fetchFault =>
    simp only [execMemoryReply, execPostBufferRoom, execWriteAcknowledgement, execTrellisEntryStart, execStampTick,
      execTrellisEntryCompletion, execEngineEntryStart, execSyncTagPosting, execEngineEntryCompletion, execPageServiced,
      execTrapEntry, execPreemptionStop, execFetchFault]
    (repeat' split) <;> exact .next _
  | sieveVote _ _ | barrierAdvance _ _ | budgetExpiry _ | notify _ | cread _ | unitStart _ _ _ | unitSave _ | gangAck _ _ _
  | launchPlacement | launchAgeing _ _ | completionRecordWrite =>
    simp only [execSieveVote, execBarrierAdvance, execBudgetExpiry, execNotify, execCread, execUnitStart, execUnitSave,
      execGangAck, execLaunchPlacement, execLaunchAgeing, execCompletionRecordWrite]
    (repeat' split) <;> exact .next _
  | bedResume _ | scheduleTick _ | correctableError _ | freezeEnd _ | temperatureSample _ _ | pwrcap _ | thermalTrip _
  | apertureRegisterWrite _ _ _ _ | preset _ | rdoor _ | attestationRequest _ | powerOn =>
    simp only [execBedResume, execScheduleTick, execCorrectableError, execFreezeEnd, execTemperatureSample, execPwrcap,
      execThermalTrip, execApertureRegisterWrite, execPreset, execRdoor, execAttestationRequest, execPowerOn]
    (repeat' split) <;> exact .next _

/-! ### Every step -/

theorem Answers.mapNext {r : Res} (h : Answers r) (f : State → State) : Answers (mapNext f r) := by
  obtain ⟨t, rfl⟩ := h
  exact .next _

theorem issueWord_answers (s : State) : Answers (issueWord exec s) := by
  simp only [issueWord]
  split
  · exact exec_answers ..
  · split
    · exact exec_answers ..
    · exact exec_answers ..
    · exact .next _

theorem trapTurn_answers (s : State) (r : TrapReq) : Answers (trapTurn exec s r) := by
  simp only [trapTurn]
  split
  · exact .next _
  · split
    · exact .next _
    · exact (exec_answers ..).mapNext _

theorem crossTurn_answers (s : State) : Answers (crossTurn exec s) := by
  unfold crossTurn
  split <;> exact (issueWord_answers _).mapNext _

theorem coreTurn_answers (s : State) : Answers (coreTurn exec s) := by
  unfold coreTurn
  refine .ite (.next _) (.ite (.next _) (.ite (.next _) ?_))
  refine .ite (.ite (crossTurn_answers s) (.next _)) (.ite (.next _) ?_)
  split
  · exact .ite (trapTurn_answers ..) (.next _)
  · refine .ite (.next _) ?_
    split
    · exact .next _
    · exact (issueWord_answers s).mapNext moveOn

/-- A step answers a next state, but for a package without input power with no event to take (R421). -/
theorem step_answers (s : State) :
    Answers (step s) ∨ (step s = .fault .noInputPower ∧ s.agenda = [] ∧ s.plat.power = .off) := by
  unfold step turn
  split
  · exact .inl (exec_answers ..)
  · split
    · exact .inr ⟨rfl, ‹_›, ‹_›⟩
    · exact .inl (exec_answers ..)
    · exact .inl (exec_answers ..)
    · exact .inl (coreTurn_answers s)
    · exact .inl (exec_answers ..)
    · exact .inl (.next s)

/-! ### Unassigned words (R83, R180) -/

/-- The top byte of a word is its opcode. -/
theorem opOf_toNat (v : Word) : opOf v.toNat = v.toNat / 2 ^ 56 := by
  have := v.isLt
  simp only [opOf, bitsOf]
  omega

/-- The fault of an unassigned word has its record (R175) and asks for its trap on the next bt (log 23). -/
theorem wordFault_illegal (s : State) (v : Word) :
    wordFault s v.toNat 0x01 = onCore s fun c => c.raise (illegalRec s v) c.pc (s.bed.btick + 1) := by
  have op (k : Nat) : (match (wordSrcs v.toNat)[k]? with | some n => s.core.src s.bed.btick n | none => (0 : Word)) =
      ((wordSrcs v.toNat)[k]?.map (srcVal s)).getD 0 := by
    cases (wordSrcs v.toNat)[k]? <;> rfl
  simp only [wordFault, illegalRec, bareRec, onCore, refusedAt, BitVec.ofNat_toNat, BitVec.setWidth_eq, ← op]
  rfl

/-- The kill of a running unit is what R179 and R433 say of one. -/
theorem killed_kill {c : Core} (runs : c.run = .running) (code code2 detail : Nat) :
    killed c (c.kill (killStatus code) code code2 detail) code code2 detail := by
  rw [Core.kill_only (Core.isOver_of_run (by rw [runs]; decide))]
  exact ⟨rfl, rfl, rfl, rfl, rfl, rfl, rfl, rfl, by dsimp only [Trug.depth]; omega, rfl, rfl, rfl, rfl, rfl, rfl⟩

/-- The opcodes of R83's list are assigned to no instruction. -/
theorem opAssigned_dashes :
    ∀ op ∈ [0x00, 0x2E, 0x2F, 0x4E, 0x4F] ++ List.range' 0x7D 3 ++ List.range' 0x8C 4 ++ List.range' 0xB4 76,
      opAssigned op = false := by
  decide

/-- Settles O56: the words by the operations that issue them, the events by their branches, the steps by whose turn it is. -/
theorem everyInstructionAnswers : Obligations.EveryInstructionAnswers := by
  unfold Obligations.EveryInstructionAnswers
  refine ⟨exec_answers, step_answers, fun v listed => ?_, by decide, by decide,
    fun s v => ⟨fun unit => ?_, fun system runs => ?_⟩⟩
  · have unassigned := opAssigned_dashes _ listed
    rw [← opOf_toNat] at unassigned
    rw [decode_unassigned unassigned, BitVec.ofNat_toNat, BitVec.setWidth_eq]
  · rw [exec, execIllegalInstruction, wordFault_illegal, onCore, Core.raise_unit unit]
    rfl
  · refine ⟨_, ?_, killed_kill runs _ _ _⟩
    rw [exec, execIllegalInstruction, wordFault_illegal, onCore, Core.raise_system system]
    rfl

end Sys2Proof.Machine
end

section
/-! Sync words (R35-R37, R245): what a sync word reads after it was written, and what one event at it leaves. -/

namespace Sys2Proof.Machine
open Sys2Proof.Stmt

/-! ### The fields of a sync word (R35) -/

theorem leNat_lt (bs : List Byte) : leNat bs < 256 ^ bs.length := by
  induction bs with
  | nil => decide
  | cons b bs ih =>
    have := b.isLt
    rw [leNat, List.length_cons, Nat.pow_succ']
    omega

theorem leNat_leBytes (n v : Nat) : leNat (leBytes n v) = v % 256 ^ n := by
  induction n generalizing v with
  | zero => simp [leBytes, leNat, Nat.mod_one]
  | succ n ih => rw [leBytes, leNat, ih, Nat.pow_succ', Nat.mod_mul, BitVec.toNat_ofNat]

/-- Four bytes of memory are a number below 2^32. -/
theorem leNat_rdN_lt (m : List Host.Cell) (pa : Nat) : leNat (rdN m pa 4) < 2 ^ 32 := by
  simpa [rdN] using leNat_lt (rdN m pa 4)

/-- A part of the bytes written reads back. -/
theorem rdN_wrN (m : List Host.Cell) (pa : Nat) {bs : List Byte} {o n : Nat} (h : o + n ≤ bs.length) :
    rdN (wrN m pa bs) (pa + o) n = (bs.drop o).take n := by
  refine List.ext_getElem (by simp [rdN]; omega) fun i hi _ => ?_
  have hin : i < n := by simpa [rdN] using hi
  have inside : pa ≤ pa + o + i ∧ pa + o + i < pa + bs.length := by omega
  have at_ : pa + o + i - pa = o + i := by omega
  simp [rdN, rd8_wrN, inside, at_, List.getD_eq_getElem?_getD, show o + i < bs.length by omega]

/-- SCOPE and OVS of the flags word (R35). -/
theorem flags_fields : ∀ sc < 8, ∀ ov : Bool,
    (sc + if ov then 8 else 0) % 256 ^ 4 % 8 = sc ∧ ((sc + if ov then 8 else 0) % 256 ^ 4).testBit 3 = ov := by
  decide

/-- A sync word reads as it was written, where its fields have their widths (R35). -/
theorem readSync_writeSync (m : List Host.Cell) (pa : Nat) {t c g sc : Nat} (ov : Bool) (ht : t < 2 ^ 32) (hc : c < 2 ^ 32)
    (hg : g < 2 ^ 32) (hs : sc < 8) : readSync (writeSync m pa t c g sc ov) pa = (t, c, g, sc, ov) := by
  have part (k : Nat) (hk : k + 4 ≤ 16) := rdN_wrN m pa (bs := leBytes 4 t ++ (leBytes 4 c ++ (leBytes 4 g ++
    leBytes 4 (sc + if ov then 8 else 0)))) (o := k) (n := 4) (by simpa using hk)
  have target := part 0 (by decide)
  have count := part 4 (by decide)
  have gen := part 8 (by decide)
  have flags := part 12 (by decide)
  simp only [Nat.add_zero, List.drop_append, List.drop_zero, leBytes_length, List.take_left',
    Nat.reduceLeDiff, List.drop_of_length_le, Nat.reduceSub, List.nil_append, Nat.le_refl, List.take_of_length_le]
    at target count gen flags
  obtain ⟨scope, ovs⟩ := flags_fields sc hs ov
  simp only [readSync, writeSync, List.append_assoc, target, count, gen, flags, leNat_leBytes, scope, ovs]
  rw [Nat.mod_eq_of_lt (b := 256 ^ 4) ht, Nat.mod_eq_of_lt (b := 256 ^ 4) hc, Nat.mod_eq_of_lt (b := 256 ^ 4) hg]

/-- The fields of a sync word have their widths (R35). -/
theorem readSync_widths {m : List Host.Cell} {pa t c g sc : Nat} {ov : Bool} (h : readSync m pa = (t, c, g, sc, ov)) :
    t < 2 ^ 32 ∧ c < 2 ^ 32 ∧ g < 2 ^ 32 ∧ sc < 8 := by
  obtain ⟨rfl, rfl, rfl, rfl, -⟩ := by simpa only [readSync, Prod.mk.injEq] using h
  exact ⟨leNat_rdN_lt _ _, leNat_rdN_lt _ _, leNat_rdN_lt _ _, Nat.mod_lt _ (by decide)⟩

/-- A sync word written leaves every other byte. -/
theorem rd8_writeSync_other (m : List Host.Cell) (pa t c g sc : Nat) (ov : Bool) {a : Nat} (h : a < pa ∨ pa + 16 ≤ a) :
    rd8 (writeSync m pa t c g sc ov) a = rd8 m a := by
  rw [writeSync, rd8_wrN, if_neg]
  simp only [List.length_append, leBytes_length]
  omega

/-! ### One event at a sync word (R36, R37) -/

/-- TARGET and COUNT as an event of n asks for them. -/
theorem syncEvent_eq {m : List Host.Cell} (ev : SyncEv) {pa t c g sc : Nat} {ov : Bool} (n : Nat)
    (h : readSync m pa = (t, c, g, sc, ov)) :
    let t1 := if ev = .expect then t + n else t
    let c1 := if ev = .expect then c else c + n
    syncEvent m ev pa n =
      if n = 0 then (m, false)
      else if 2 ^ 32 ≤ t1 ∨ 2 ^ 32 ≤ c1 ∨ (t1 ≠ 0 ∧ t1 < c1) then (writeSync m pa t c g sc true, true)
      else if t1 ≠ 0 ∧ c1 = t1 then (writeSync m pa 0 0 ((g + 1) % 2 ^ 32) sc ov, false)
      else (writeSync m pa t1 c1 g sc ov, false) := by
  unfold syncEvent
  rw [h]
  cases ev <;> rfl

/-- The memory after an event at a sync word is what R36 says of it. -/
theorem syncEvent_synced (s : State) (ev : SyncEv) (pa n : Nat) : synced s ev pa n (syncEvent s.mem ev pa n).1 := by
  obtain ⟨⟨t, c, g, sc, ov⟩, h⟩ : ∃ x, readSync s.mem pa = x := ⟨_, rfl⟩
  obtain ⟨ht, hc, hg, hs⟩ := readSync_widths h
  rw [syncEvent_eq ev n h]
  unfold synced
  rw [h]
  dsimp only
  generalize (if ev = .expect then t + n else t) = t1
  generalize (if ev = .expect then c else c + n) = c1
  have gen : (g + 1) % 2 ^ 32 < 2 ^ 32 := Nat.mod_lt _ (by decide)
  by_cases none : n = 0
  · simp [none]
  by_cases high : 2 ^ 32 ≤ t1 ∨ 2 ^ 32 ≤ c1 ∨ (t1 ≠ 0 ∧ t1 < c1)
  · rw [if_neg none, if_pos high]
    exact ⟨fun z => absurd z none, fun _ _ => readSync_writeSync _ _ _ ht hc hg hs, fun _ _ _ _ => by omega,
      fun a => rd8_writeSync_other _ _ _ _ _ _ _⟩
  rw [if_neg none, if_neg high]
  refine ⟨fun z => absurd z none, fun _ z => absurd z high, fun _ ht1 hc1 _ => ?_, fun a ha => ?_⟩
  · split
    · exact readSync_writeSync _ _ _ (by decide) (by decide) gen hs
    · exact readSync_writeSync _ _ _ ht1 hc1 hg hs
  · split <;> exact rd8_writeSync_other _ _ _ _ _ _ _ ha

/-- An event answers an overshoot exactly where R36 says that it overshoots. -/
theorem syncEvent_overshoots (s : State) (ev : SyncEv) (pa n : Nat) :
    (syncEvent s.mem ev pa n).2 = true ↔ overshoots s ev pa n := by
  obtain ⟨⟨t, c, g, sc, ov⟩, h⟩ : ∃ x, readSync s.mem pa = x := ⟨_, rfl⟩
  rw [syncEvent_eq ev n h, overshoots, h]
  dsimp only
  split_ifs <;> simp_all

/-- An event at a sync word in an erroneous code word changes nothing (R245). -/
theorem syncAt_bad {s : State} {pa : Nat} (bad : syncBad s pa = true) (ev : SyncEv) (n : Nat) : syncAt s ev pa n = (s, 0x1B) :=
  if_pos bad

/-- Any other event leaves the memory of R36, and faults where it overshoots. -/
theorem syncAt_good {s : State} {pa : Nat} (good : syncBad s pa = false) (ev : SyncEv) (n : Nat) :
    ∃ m w, synced s ev pa n m ∧
      syncAt s ev pa n = ({ s with mem := m, writes := w }, if overshoots s ev pa n then 0x16 else 0) := by
  have code : (if (syncEvent s.mem ev pa n).2 then 0x16 else 0) = if overshoots s ev pa n then 0x16 else 0 :=
    if_congr (syncEvent_overshoots s ev pa n) rfl rfl
  rw [syncAt, if_neg (by simp [good]), ← code]
  exact ⟨_, _, syncEvent_synced s ev pa n, rfl⟩

end Sys2Proof.Machine
end

section
/-! What reaches a core from memory and from its neighbours (R33, R120-R122, R140, R141, R210, R211, R217, R218, R221-R224): one
equation per event. -/

namespace Sys2Proof.Machine
open Sys2Proof.Stmt

/-! ### Cores replaced twice -/

theorem putBy_putBy {α : Type} {num : α → Nat} {x y : α} (same : num x = num y) (l : List α) :
    putBy num y (putBy num x l) = putBy num y l := by
  have low : l.filter (fun a => decide (num a < num y) && decide (num y < num a)) = [] := by
    simp only [List.filter_eq_nil_iff, Bool.and_eq_true, decide_eq_true_eq]; omega
  have high : l.filter (fun a => decide (num y < num a) && decide (num a < num y)) = [] := by
    simp only [List.filter_eq_nil_iff, Bool.and_eq_true, decide_eq_true_eq]; omega
  simp [putBy, List.filter_append, List.filter_filter, same, low, high]

/-- Of two cores put in place of the same one the second stands. -/
theorem setCore_setCore {c d : Core} (same : c.num = d.num) (s : State) : setCore (setCore s c) d = setCore s d := by
  unfold setCore
  rw [same]
  split
  · simp
  · simp [putCore, putBy_putBy same]

/-- A core changed after it was put in place. -/
theorem modCore_setCore {c : Core} {f : Core → Core} (keeps : (f c).num = c.num) (s : State) :
    modCore (setCore s c) c.num f = setCore s (f c) := by
  rw [modCore, getCore_setCore, if_pos rfl, setCore_setCore keeps.symm]

/-! ### What an access waits for (R120-R122, R140, R141, R217, R218, R224) -/

theorem Access.isMark_eq_false_iff (a : Access) : a.isMark = false ↔ a.kind ≠ .fence ∧ a.kind ≠ .tmark := by
  simp [Access.isMark]

theorem Access.isStore_eq_false_iff (a : Access) : a.isStore = false ↔ a.kind ≠ .store ∧ a.kind ≠ .rmw := by
  simp [Access.isStore]

theorem Access.isSeed_eq_false_iff (a : Access) : a.isSeed = false ↔ a.word ≠ 0 := by simp [Access.isSeed]

theorem Access.before_iff (x a : Access) : x.before a = true ↔ earlier x a := by
  simp only [Access.before, Access.isSeed, earlier, Bool.or_eq_true, decide_eq_true_eq]
  split <;> simp

theorem Core.mem_earlier (c : Core) (x a : Access) : x ∈ c.earlier a ↔ x ∈ c.accs ∧ Stmt.earlier x a := by
  rw [Core.earlier, List.mem_filter, Access.before_iff]

/-- What holds an access in the buffer, for every access but a fence and a mark. -/
theorem Core.fenced_iff (c : Core) {a : Access} (h : a.isMark = false) : c.fenced a = true ↔ heldBack c a := by
  simp only [Core.fenced, h, Bool.not_false, Bool.true_and, List.any_eq_true, Core.mem_earlier, heldBack, and_assoc]
  refine exists_congr fun x => and_congr_right fun _ => and_congr_right fun _ => ?_
  cases hk : x.kind <;> simp [Access.isMark, hk]

theorem Core.fenced_eq_false_iff (c : Core) {a : Access} (h : a.isMark = false) : c.fenced a = false ↔ ¬ heldBack c a := by
  rw [← c.fenced_iff h, Bool.not_eq_true]

/-- No column is still to draw from a log that an access covers. -/
theorem Core.drawsLeft_eq_false_iff (c : Core) (still : Bool) (a : Access) : c.drawsLeft still a = false ↔
    still = true ∨ c.seedMode = 0 ∨ a.mask.testBit 0 = false ∨ (a.kind = .tmark ∧ c.seedMode ≠ 1) ∨
      ∀ x ∈ c.vq, x.draws = true → a.order ≤ x.order := by
  simp only [Core.drawsLeft, Bool.and_eq_false_iff, Bool.not_eq_false', decide_eq_false_iff_not, Bool.or_eq_false_iff,
    List.any_eq_false, Bool.and_eq_true, decide_eq_true_eq, not_and, Nat.not_lt, not_not, ne_eq, or_assoc]

/-- What a fence, a mark or an arrival covers is gone exactly when it stands alone. -/
theorem Core.coveredGone_iff (c : Core) (still : Bool) (a : Access) : c.coveredGone still a = true ↔ alone c still a := by
  rw [Core.coveredGone, Bool.and_eq_true, Bool.not_eq_true', Core.drawsLeft_eq_false_iff, and_comm]
  refine and_congr_left fun _ => ?_
  simp only [List.any_eq_false, Core.mem_earlier, and_imp, Bool.and_eq_true, Bool.not_eq_true', decide_eq_true_eq, not_and,
    Bool.not_eq_true]
  refine forall₂_congr fun x _ => forall_congr' fun _ => ?_
  by_cases arrives : a.kind = .arrive
  · simp only [arrives, if_true, Access.isMark_eq_false_iff, and_imp]
  · simp only [arrives, if_false, Access.isMark_eq_false_iff, Access.isStore_eq_false_iff, Access.isSeed_eq_false_iff,
      ← Nat.not_le, Bool.and_eq_false_iff, Bool.or_eq_false_iff, decide_eq_false_iff_not]
    tauto

/-- An arrival may be counted exactly when it stands alone and nothing holds it (R121, R224). -/
theorem Core.mayArrive_iff {c : Core} {still : Bool} {a : Access} (kind : a.kind = .arrive) :
    c.mayArrive still a = true ↔ alone c still a ∧ ¬ heldBack c a := by
  rw [Core.mayArrive, Bool.and_eq_true, Core.coveredGone_iff, Bool.not_eq_true',
    c.fenced_eq_false_iff (by simp [Access.isMark, kind])]

/-! ### Events of the post buffer (R140, R141, R210, R211) -/

theorem Access.buffered_iff (a : Access) : (!a.left && !a.isMark) = true ↔ buffered a := by
  simp [buffered, Access.isMark]

theorem Access.isMark_of_buffered {a : Access} (h : buffered a) : a.isMark = false := by
  obtain ⟨-, kind⟩ := h
  exact a.isMark_eq_false_iff.2 kind

/-- The access that leaves the buffer first: the oldest that nothing holds. -/
theorem Core.find_inBuffer {c : Core} {a : Access} {pre post : List Access} (accs : c.accs = pre ++ a :: post)
    (ha : buffered a) (free : ¬ heldBack c a) (older : ∀ x ∈ pre, buffered x → heldBack c x) :
    c.inBuffer.find? (fun x => !c.fenced x) = some a := by
  have held : (pre.filter fun x => !x.left && !x.isMark).find? (fun x => !c.fenced x) = none := by
    refine List.find?_eq_none.2 fun x hx => ?_
    rw [List.mem_filter, Access.buffered_iff] at hx
    obtain ⟨mem, waits⟩ := hx
    simpa using (c.fenced_iff (Access.isMark_of_buffered waits)).2 (older x mem waits)
  have loose := (c.fenced_eq_false_iff (Access.isMark_of_buffered ha)).2 free
  have stands : (a :: post).filter (fun x => !x.left && !x.isMark) = a :: post.filter (fun x => !x.left && !x.isMark) :=
    List.filter_cons_of_pos ((Access.buffered_iff a).2 ha)
  rw [Core.inBuffer, accs, List.filter_append, stands, List.find?_append, held, List.find?_cons_of_pos (by simp [loose]),
    Option.none_or]

theorem exec_postBufferRoom {s : State} {n : Nat} {a : Access}
    (oldest : (getCore s n).inBuffer.find? (fun x => !(getCore s n).fenced x) = some a) :
    exec (.postBufferRoom n) s = .next (setCore s { getCore s n with
      accs := (getCore s n).accs.map fun x => { x with left := x.left || x.id = a.id } }) := by
  have gone : (fun x : Access => if x.id = a.id then { x with left := true } else x) =
      fun x => { x with left := x.left || x.id = a.id } := by
    funext x
    by_cases h : x.id = a.id <;> simp [h]
  rw [exec, execPostBufferRoom]
  dsimp only
  rw [oldest]
  exact congrArg (fun f => Host.Outcome.next (setCore s { getCore s n with accs := (getCore s n).accs.map f })) gone

section
variable {s : State} {n : Nat} {a : Access} (found : (getCore s n).accs.find? (fun x => x.id = a.id) = some a)
include found

theorem exec_memoryReply (wants : a.kind = .load ∨ a.kind = .atomic ∨ (a.kind = .rmw ∧ a.due ≠ 0))
    (free : ¬ heldBack (getCore s n) a) : exec (.memoryReply n a.id) s = .next (setCore s (without (getCore s n) a.id)) := by
  have plain : a.isMark = false := by rcases wants with h | h | ⟨h, -⟩ <;> simp [Access.isMark, h]
  have reply : a.wantsReply = true := by rcases wants with h | h | ⟨h, d⟩ <;> simp [Access.wantsReply, *]
  have loose := ((getCore s n).fenced_eq_false_iff plain).2 free
  simp only [exec, execMemoryReply, Core.access, found, reply, loose, Bool.not_false, Bool.and_self, if_true]
  rfl

/-- A write is acknowledged (R141). -/
theorem exec_writeAcknowledgement_write (writes : a.kind = .store ∨ (a.kind = .rmw ∧ a.due = 0))
    (free : ¬ heldBack (getCore s n) a) :
    exec (.writeAcknowledgement n a.id) s = .next (setCore s (without (getCore s n) a.id)) := by
  have plain : a.isMark = false := by rcases writes with h | ⟨h, -⟩ <;> simp [Access.isMark, h]
  have loose := ((getCore s n).fenced_eq_false_iff plain).2 free
  rcases writes with kind | ⟨kind, due⟩
  · simp only [exec, execWriteAcknowledgement, Core.access, found, kind, loose]
    rfl
  · simp only [exec, execWriteAcknowledgement, Core.access, found, kind, loose, due]
    rfl

/-- A fence is complete (R217). -/
theorem exec_writeAcknowledgement_fence (kind : a.kind = .fence) (rest : alone (getCore s n) (bedOf s n).stall a) :
    exec (.writeAcknowledgement n a.id) s = .next (setCore s (without (getCore s n) a.id)) := by
  simp only [exec, execWriteAcknowledgement, Core.access, found, kind, Core.bedNum, getCore_num,
    (Core.coveredGone_iff _ _ _).2 rest]
  rfl

/-- A TMARK sets its token (R218). -/
theorem exec_writeAcknowledgement_tmark (kind : a.kind = .tmark) (rest : alone (getCore s n) (bedOf s n).stall a) :
    exec (.writeAcknowledgement n a.id) s = .next (setCore s ((without (getCore s n) a.id).setToken a.tok)) := by
  simp only [exec, execWriteAcknowledgement, Core.access, found, kind, Core.bedNum, getCore_num,
    (Core.coveredGone_iff _ _ _).2 rest]
  rfl

/-- An arrival that counted as it issued ends (R224). -/
theorem exec_writeAcknowledgement_counted (kind : a.kind = .arrive) (due : a.due ≠ 0) :
    exec (.writeAcknowledgement n a.id) s = .next (setCore s (without (getCore s n) a.id)) := by
  simp only [exec, execWriteAcknowledgement, Core.access, found, kind, due, if_true, ne_eq, not_false_eq_true]
  rfl

/-- An arrival that its classes or a fence still hold waits on (R121, R224). -/
theorem exec_writeAcknowledgement_arrivalWaits (kind : a.kind = .arrive) (due : a.due = 0)
    (waits : ¬ alone (getCore s n) (bedOf s n).stall a ∨ heldBack (getCore s n) a) :
    exec (.writeAcknowledgement n a.id) s = .next s := by
  have not_yet : (getCore s n).mayArrive (bedOf s n).stall a = false := by
    rw [← Bool.not_eq_true, Core.mayArrive_iff kind]
    exact fun ⟨rest, free⟩ => waits.elim (· rest) free
  simp only [exec, execWriteAcknowledgement, Core.access, found, kind, due, Core.bedNum, getCore_num, not_yet]
  rfl

/-- An arrival is counted now (R224). -/
theorem exec_writeAcknowledgement_arrives (kind : a.kind = .arrive) (due : a.due = 0)
    (rest : alone (getCore s n) (bedOf s n).stall a) (free : ¬ heldBack (getCore s n) a) :
    exec (.writeAcknowledgement n a.id) s = .next (landArrival (setCore s (without (getCore s n) a.id)) n a) := by
  have may := (Core.mayArrive_iff kind).2 ⟨rest, free⟩
  simp only [exec, execWriteAcknowledgement, Core.access, found, kind, due, Core.bedNum, getCore_num, may]
  rfl

/-- An expectation is not acknowledged before its tick, nor while a fence holds it (R223). -/
theorem exec_writeAcknowledgement_expectationWaits (kind : a.kind = .expect)
    (waits : (bedOf s n).bwall < a.due ∨ heldBack (getCore s n) a) :
    exec (.writeAcknowledgement n a.id) s = .next s := by
  have holds : (decide ((bedOf s n).bwall < a.due) || (getCore s n).fenced a) = true := by
    rw [Bool.or_eq_true, decide_eq_true_iff, (getCore s n).fenced_iff (by simp [Access.isMark, kind])]
    exact waits
  simp only [exec, execWriteAcknowledgement, Core.access, found, kind, Core.bedNum, getCore_num, holds]
  rfl

/-- An expectation is taken as it is acknowledged (R223). -/
theorem exec_writeAcknowledgement_expects (kind : a.kind = .expect) (due : a.due ≤ (bedOf s n).bwall)
    (free : ¬ heldBack (getCore s n) a) :
    exec (.writeAcknowledgement n a.id) s = .next (landExpect (setCore s (without (getCore s n) a.id)) n a) := by
  have loose := ((getCore s n).fenced_eq_false_iff (by simp [Access.isMark, kind])).2 free
  simp only [exec, execWriteAcknowledgement, Core.access, found, kind, Core.bedNum, getCore_num, loose, Nat.not_lt.2 due]
  rfl

end

/-! ### Arrivals and expectations at their sync word (R36, R223, R224, R245) -/

/-- A core whose SYEXP waits for an access learns what its home found: a code and an address (R223). -/
def Core.learns (c : Core) (id code : Nat) (addr : Word) : Core :=
  { c with wait := c.wait.map fun w => match w.w with
    | .syexp i _ _ => if i = id then { w with w := .syexp i code addr } else w
    | _ => w }

theorem syncAt_setCore (s : State) (c : Core) (ev : SyncEv) (pa n : Nat) :
    syncAt (setCore s c) ev pa n = (setCore (syncAt s ev pa n).1 c, (syncAt s ev pa n).2) := by
  have bad : syncBad (setCore s c) pa = syncBad s pa := by simp [syncBad]
  unfold syncAt
  rw [bad]
  split
  · rfl
  · by_cases h : s.core.num = c.num <;> simp [setCore, countWrites, h]

theorem badAt_setCore (s : State) (c : Core) (pa va : Nat) : badAt (setCore s c) pa va = badAt s pa va := by simp [badAt]

section
variable {s : State} {d : Core} {n : Nat} (num : d.num = n) (a : Access)
include num

theorem landArrival_bad (bad : syncBad s a.pa = true) : landArrival (setCore s d) n a =
    setCore s (d.addPending { accessRec a 0x1B a.cls with addr := BitVec.ofNat 64 (badAt s a.pa a.addr.toNat) }) := by
  subst num
  simp only [landArrival, syncAt_setCore, syncAt_bad bad]
  rw [if_neg (by decide), modCore_setCore rfl]
  simp only [syncFaultAt, badAt_setCore]
  rfl

theorem landArrival_good (good : syncBad s a.pa = false) :
    ∃ m w, synced s .land a.pa a.opb.toNat m ∧ landArrival (setCore s d) n a = setCore { s with mem := m, writes := w }
      (if overshoots s .land a.pa a.opb.toNat then d.addPending (accessRec a 0x16 a.cls) else d) := by
  subst num
  obtain ⟨m, w, spec, run⟩ := syncAt_good good .land a.opb.toNat
  refine ⟨m, w, spec, ?_⟩
  simp only [landArrival, syncAt_setCore, run]
  by_cases high : overshoots s .land a.pa a.opb.toNat
  · simp only [if_pos high]
    rw [if_neg (by decide), modCore_setCore rfl]
    simp only [syncFaultAt, if_neg (show ¬ (0x16 : Nat) = 0x1B by decide), BitVec.ofNat_toNat, BitVec.setWidth_eq]
    rfl
  · simp only [if_neg high, if_true]

theorem landExpect_setCore : landExpect (setCore s d) n a = setCore (syncAt s .expect a.pa a.opb.toNat).1
    (d.learns a.id (syncAt s .expect a.pa a.opb.toNat).2
      (syncFaultAt s a.pa a.addr.toNat (syncAt s .expect a.pa a.opb.toNat).2)) := by
  subst num
  have addr (code : Nat) : syncFaultAt (setCore s d) a.pa a.addr.toNat code = syncFaultAt s a.pa a.addr.toNat code := by
    simp only [syncFaultAt, badAt_setCore]
  simp only [landExpect, syncAt_setCore, addr]
  rw [modCore_setCore]
  · congr 1
    have keep {w : Option Waiting} (h : d.wait = w) : d = { d with wait := w } := by rw [← h]
    cases wait : d.wait with
    | none => simpa only [Core.learns, wait, Option.map_none] using keep wait
    | some w =>
      cases reason : w.w with
      | syexp i _ _ =>
        by_cases mine : i = a.id
        · simp only [Core.learns, wait, reason, mine, Option.map_some, if_true]
        · simpa only [Core.learns, wait, reason, mine, Option.map_some, if_false] using keep wait
      | _ => simpa only [Core.learns, wait, reason, Option.map_some] using keep wait
  · split
    · split
      · split <;> rfl
      · rfl
    · rfl

theorem landExpect_bad (bad : syncBad s a.pa = true) : landExpect (setCore s d) n a =
    setCore s (d.learns a.id 0x1B (BitVec.ofNat 64 (badAt s a.pa a.addr.toNat))) := by
  rw [landExpect_setCore num, syncAt_bad bad]
  rfl

theorem landExpect_good (good : syncBad s a.pa = false) :
    ∃ m w, synced s .expect a.pa a.opb.toNat m ∧ landExpect (setCore s d) n a = setCore { s with mem := m, writes := w }
      (d.learns a.id (if overshoots s .expect a.pa a.opb.toNat then 0x16 else 0) (BitVec.ofNat 64 a.addr.toNat)) := by
  obtain ⟨m, w, spec, run⟩ := syncAt_good good .expect a.opb.toNat
  refine ⟨m, w, spec, ?_⟩
  rw [landExpect_setCore num, run]
  have plain : syncFaultAt s a.pa a.addr.toNat (if overshoots s .expect a.pa a.opb.toNat then 0x16 else 0) =
      BitVec.ofNat 64 a.addr.toNat := by
    rw [syncFaultAt, if_neg (by split <;> decide)]
  rw [plain]

end

/-! ### Words from the neighbours (R33, R221) -/

/-- A word that lands in a port can be popped two ticks after the bt of its push (R33). -/
def Flight.landed (f : Flight) : QWord := { v := f.v, ready := f.bt + 2, q := 0, seq := 0 }

/-- Words landing one after another change the ports alone, and each stands in its port in its order. -/
theorem foldl_landed (l : List Flight) (c : Core) :
    let d := l.foldl (fun c f => c.setPort f.port (c.port f.port ++ [f.landed])) c
    (∀ q, d.port q = c.port q ++ (l.filter fun f => f.port = q).map Flight.landed) ∧ d = { c with ports := d.ports } := by
  induction l generalizing c with
  | nil => simp
  | cons f l ih =>
    obtain ⟨ports, rest⟩ := ih (c.setPort f.port (c.port f.port ++ [f.landed]))
    refine ⟨fun q => ?_, rest⟩
    rw [List.foldl_cons, ports, Core.port_setPort]
    by_cases h : q = f.port
    · simp [h]
    · simp [h, Ne.symm h]

/-- The words that land are those pushed before wall tick w; they stand in their ports in the order they flew. -/
theorem landFlights_spec (c : Core) (w : Nat) :
    (landFlights c w).flights = c.flights.filter (fun f => !decide (f.wt < w)) ∧
      (∀ q, (landFlights c w).port q =
        c.port q ++ ((c.flights.filter fun f => f.wt < w).filter fun f => f.port = q).map Flight.landed) ∧
      landFlights c w = { c with flights := (landFlights c w).flights, ports := (landFlights c w).ports } := by
  obtain ⟨ports, rest⟩ := foldl_landed (c.flights.filter fun f => f.wt < w) c
  exact ⟨rfl, ports, congrArg (fun x : Core => { x with flights := (landFlights c w).flights }) rest⟩

theorem exec_neighbourWordLanding (s : State) (n : Nat) : exec (.neighbourWordLanding n) s =
    .next (setCore s (landFlights (getCore s n) ((bedOf s n).bwall + 1))) := rfl

/-! ### The obligation -/

/-- Settles O45: one equation per event, and for the events at sync words what R36 says of the memory after them. -/
theorem memoryEvents : Obligations.MemoryEvents := by
  unfold Obligations.MemoryEvents
  refine ⟨?room, ?ends, ?lands, ?syncs⟩
  case room =>
    intro s n a pre post c accs waits free older
    exact exec_postBufferRoom (Core.find_inBuffer accs waits free older)
  case ends =>
    intro s n a c d k found
    have num : d.num = n := getCore_num s n
    refine ⟨exec_memoryReply found, exec_writeAcknowledgement_write found, exec_writeAcknowledgement_fence found,
      exec_writeAcknowledgement_tmark found, exec_writeAcknowledgement_counted found,
      fun kind due rest free => ⟨fun bad => ?_, fun good => ?_⟩, exec_writeAcknowledgement_arrivalWaits found,
      exec_writeAcknowledgement_expectationWaits found, fun kind due free => ⟨fun bad => ?_, fun good => ?_⟩⟩
    · rw [exec_writeAcknowledgement_arrives found kind due rest free, landArrival_bad num a bad]
    · rw [exec_writeAcknowledgement_arrives found kind due rest free]
      obtain ⟨m, w, spec, counted⟩ := landArrival_good num a good
      exact ⟨m, w, spec, congrArg _ counted⟩
    · rw [exec_writeAcknowledgement_expects found kind due free, landExpect_bad num a bad]
      rfl
    · rw [exec_writeAcknowledgement_expects found kind due free]
      obtain ⟨m, w, spec, taken⟩ := landExpect_good num a good
      exact ⟨m, w, spec, congrArg _ taken⟩
  case lands =>
    intro s n c now
    obtain ⟨flights, ports, rest⟩ := landFlights_spec c ((bedOf s n).bwall + 1)
    refine ⟨_, exec_neighbourWordLanding s n, ?_, fun q => ?_, rest⟩
    · simpa only [Nat.lt_succ_iff, ← decide_not] using flights
    · rw [ports q, List.filter_filter]
      simp only [Nat.lt_succ_iff, Bool.decide_and, Bool.and_comm, now]
      rfl
  case syncs =>
    intro s ev pa n
    refine ⟨fun bad => ?_, fun good => ?_⟩
    · rw [exec, execSyncWordEvent, syncAt_bad bad]
    · obtain ⟨m, w, spec, run⟩ := syncAt_good good ev n
      exact ⟨m, w, spec, by rw [exec, execSyncWordEvent, run]⟩

end Sys2Proof.Machine
end

section
/-! The posting of a finished row to a tag of another package (R142, R273): it counts the writes that the sync word's bytes take
there. -/

namespace Sys2Proof.Machine
open Sys2Proof.Stmt

/-- A page of the scratchpad of core 0 in package 1. -/
def farPage : Extent :=
  { ps := 0, vbase := 0x600000, npg := 1, rd := true, wr := true, ex := false, abs := false, cmp := false, expt := 0
    pbase := spadPa 1 0 0, serviced := false, requested := false }

/-- A CPY of one byte that has moved its row; its tag names the first sync word of that page. -/
def farTagged : Entry :=
  let f : EregW := { ramp := 0, kp := 63, kc0 := 63, kc1 := 63, kc2 := 63, a := 2, b := 0, c := 0, md := 0 }
  { mkEntry State.reset (.cpy f) .copy [] with a := 0x600000, ph := .running, pos := 1 }

/-- Core 0 of package 0 at that entry, its row still to be posted. -/
def farPosting : State :=
  { State.reset with core := { Core.reset 0 with
      run := .running, extents := [farPage], cq := { es := [farTagged], seq := 1, flt := false, next := 0 } } }

/-- The write counts after an event. -/
def writesAfter (i : Instr) (s : State) : Tab Nat := match exec i s with | .next t => t.writes | _ => s.writes

theorem tagPlace_farPosting : tagPlace farPosting (getCore farPosting 0) 0x600000 = .ok (spadPa 1 0 0) := by rfl

/-- The posting counts a write of each of the word's sixteen bytes. -/
theorem length_writesAfter_farPosting : (writesAfter (.syncTagPosting 0) farPosting).length = 16 := by decide +kernel

@[simp] theorem setCore_writes (s : State) (c : Core) : (setCore s c).writes = s.writes := by rw [setCore_only]

/-- Refutes O47: the clause on tag posting gives a next state that differs from the one before in memory and in the core alone, but
where the tag lies in another package the posting also counts the writes that the sync word's bytes take (`State.writes`, R142). -/
theorem not_engineEvents : ¬ Obligations.EngineEvents := by
  unfold Obligations.EngineEvents
  rintro ⟨-, course, -⟩
  obtain ⟨-, -, -, tag⟩ := course farPosting 0 .copy farTagged rfl
  obtain ⟨-, good⟩ := tag 0x600000 (spadPa 1 0 0) rfl rfl rfl (by decide +kernel) (by decide +kernel) tagPlace_farPosting
  obtain ⟨m, -, fits, -⟩ := good (by decide +kernel)
  have posts := fits (by decide +kernel)
  have kept : writesAfter (.syncTagPosting 0) farPosting = [] := by
    rw [writesAfter, posts]
    exact setCore_writes _ _
  have counted := length_writesAfter_farPosting
  rw [kept] at counted
  cases counted

end Sys2Proof.Machine
end

section
/-! The host's doors (R388, R396, R423-R429): what the package answers to NOTIFY, CREAD, PWRCAP, PRESET, RDOOR and a request for an
attestation. -/

namespace Sys2Proof.Machine
open Sys2Proof.Stmt

/-! ### What the package answers (R424, R428, R429) -/

theorem answers_of_power {s : State} (power : (s.plat.power = .linked ∨ s.plat.power = .ready) ∨ s.plat.power = .tripped ∨
    s.plat.power = .recovery) (up : railDown s 8 = false) : answers s = true := by
  rcases power with (h | h) | h | h <;> simp [answers, h, up]

theorem refuseAccess_of_answers {s : State} (h : answers s = true) (addr : Nat) : refuseAccess s addr = said s (.error addr) :=
  if_pos h

theorem exec_notify_ready {s : State} (ready : s.plat.power = .ready) (n : Submission) :
    let v := (rd64 s.mem s.plat.subbase + n.count) % 2 ^ 64
    exec (.notify n) s = .next (said { s with
      mem := wr64 s.mem s.plat.subbase v
      lsc := { s.lsc with
        notices := s.lsc.notices.filter (fun x => decide (rd64 s.mem (s.plat.subbase + 8) < x.1)) ++ [(v, n.peer)] } }
      (.old s.plat.subbase (BitVec.ofNat 64 (rd64 s.mem s.plat.subbase)))) :=
  if_pos ready

theorem exec_notify_refused {s : State} (h : answers s = true) (unready : s.plat.power ≠ .ready) (n : Submission) :
    exec (.notify n) s = .next (said s (.error s.plat.subbase)) :=
  (if_neg unready).trans (congrArg _ (refuseAccess_of_answers h _))

/-- CREAD takes a value between itself and CDONE, as long as the stack that holds it is up (R396, R424). -/
theorem exec_cread {s : State} (power : s.plat.power = .ready ∨ s.plat.power = .tripped) (h : answers s = true)
    (stack : railDown s 4 = false) (n : Nat) :
    exec (.cread n) s = .next (said
      (if rd64 s.mem (s.plat.subbase + 0x20) ≤ n ∧ n ≤ rd64 s.mem (s.plat.subbase + 0x18) then
        { s with mem := wr64 s.mem (s.plat.subbase + 0x20) n } else s) (.stored (s.plat.subbase + 0x20))) := by
  have stackUp : subUp s = true := by simp [subUp, dramUp, stack]
  exact if_pos ⟨power, h, stackUp⟩

theorem exec_cread_refused {s : State} (h : answers s = true) (unready : s.plat.power ≠ .ready)
    (untripped : s.plat.power ≠ .tripped) (n : Nat) : exec (.cread n) s = .next (said s (.error (s.plat.subbase + 0x20))) :=
  (if_neg (by simp [unready, untripped])).trans (congrArg _ (refuseAccess_of_answers h _))

theorem exec_pwrcap {s : State} (ready : s.plat.power = .ready) (v : Word) : ∃ t, exec (.pwrcap v) s = .next t ∧
    t.plat.pwrcap = (if 300 ≤ v.toNat ∧ v.toNat ≤ 1400 then v.toNat else s.plat.pwrcap) ∧ t.mem = s.mem := by
  have answered : exec (.pwrcap v) s = ite _ _ _ := if_neg (not_not.2 ready)
  rw [answered]
  split_ifs <;> exact ⟨_, rfl, rfl, rfl⟩

/-! ### Reset and recovery (R425, R428, R429) -/

theorem exec_preset {s : State} (h : answers s = true) (v : Word) : exec (.preset v) s =
    .next (if v = 1 then hostReset (said s (.stored (s.plat.platbase + 0x18))) else said s (.stored (s.plat.platbase + 0x18))) :=
  if_pos h

/-- After a bring-up the scheduler holds no job, and the image that runs is the latest one that verifies (R428). -/
theorem bringUp_image (s : State) : (bringUp s).lsc.launches = [] ∧ (bringUp s).lsc.jobs = [] ∧
    (verified s.plat s.plat.image = true ∨ verified s.plat s.plat.prev = true →
      (bringUp s).plat.image = if verified s.plat s.plat.image then s.plat.image else s.plat.prev) := by
  rw [bringUp_eq]
  split_ifs with now before
  · exact ⟨rfl, rfl, fun _ => rfl⟩
  · exact ⟨rfl, rfl, fun _ => rfl⟩
  · exact ⟨rfl, rfl, fun h => absurd h (not_or.2 ⟨now, before⟩)⟩

/-- A host reset (R429): PSTAT shows what had asked for a trip, nothing runs, and the package comes up on an image that verifies
with its submission region zero, or goes into recovery. -/
theorem hostReset_spec (s : State) :
    let t := hostReset s
    t.plat.rfail = (s.plat.rfail || s.plat.railTrip) ∧ t.plat.ttrip = (s.plat.ttrip || s.plat.heatTrip) ∧ noUnits t ∧
    t.lsc.launches = [] ∧ t.lsc.jobs = [] ∧
    if verified s.plat s.plat.image = true ∨ verified s.plat s.plat.prev = true then
      t.plat.power = .linked ∧ (∀ a, s.plat.subbase ≤ a → a < s.plat.subbase + 0x201000 → rd8 t.mem a = 0) ∧
        t.plat.image = (if verified s.plat s.plat.image then s.plat.image else s.plat.prev)
    else t.plat.power = .recovery := by
  obtain ⟨rfail, ttrip, -, -, -, -, units, -, up⟩ := bringUp_spec (writePstat s)
  obtain ⟨launches, jobs, image⟩ := bringUp_image (writePstat s)
  refine ⟨rfail, ttrip, units, launches, jobs, ?_⟩
  by_cases comes : verified s.plat s.plat.image = true ∨ verified s.plat s.plat.prev = true
  · rw [if_pos comes]
    obtain ⟨linked, zero⟩ := (if_pos (α := Prop) comes).mp up
    exact ⟨linked, fun a low high => (zero a).trans (if_pos ⟨low, high⟩), image comes⟩
  · rw [if_neg comes]
    exact (if_neg (α := Prop) comes).mp up

theorem exec_rdoor {s : State} (h : answers s = true) (n : Nat) (serves : s.plat.power ≠ .recovery) :
    exec (.rdoor n) s = .next (said s (if s.plat.power = .tripped ∨ s.plat.power = .linked then .error (s.plat.platbase + 0x20)
      else .stored (s.plat.platbase + 0x20))) := by
  have opens : ¬ (!answers s) = true := by simp [h]
  exact (if_neg opens).trans (if_pos (.inl serves))

/-- In recovery an image in the window that does not verify is discarded (R428). -/
theorem exec_rdoor_discards {s : State} (h : answers s = true) {n : Nat} (recovery : s.plat.power = .recovery)
    (fits : n ≤ recoveryLen) (bad : Config.verifies (rdN s.mem (paMk s.plat.pkg 0 0 0 + recoveryBase) n) = false) :
    exec (.rdoor n) s = .next (said s (.stored (s.plat.platbase + 0x20))) := by
  change execRdoor n s = _
  have opens : ¬ (!answers s) = true := by simp [h]
  have there : ¬ (s.plat.power ≠ .recovery ∨ recoveryLen < n) := by simp [recovery, fits]
  simp only [execRdoor, if_neg opens, if_neg there, bad, Bool.false_eq_true, and_false, if_false]
  simp [recovery, said]

/-- The state in which an image from the recovery window has become the firmware (R428). -/
def withFirmware (s : State) (img : List Byte) : State := { said s (.stored (s.plat.platbase + 0x20)) with
  fresh := s.fresh + 1
  plat := { s.plat with image := img, prev := s.plat.image, fwver := (Config.freeValue s.fresh).toNat % 2 ^ 32 } }

/-- In recovery an image in the window that verifies becomes the firmware, and a host reset follows (R428). -/
theorem exec_rdoor_takes {s : State} (h : answers s = true) {n : Nat} (recovery : s.plat.power = .recovery) (pos : 0 < n)
    (fits : n ≤ recoveryLen) (good : Config.verifies (rdN s.mem (paMk s.plat.pkg 0 0 0 + recoveryBase) n) = true) :
    exec (.rdoor n) s = .next (hostReset (withFirmware s (rdN s.mem (paMk s.plat.pkg 0 0 0 + recoveryBase) n))) := by
  change execRdoor n s = _
  have opens : ¬ (!answers s) = true := by simp [h]
  have there : ¬ (s.plat.power ≠ .recovery ∨ recoveryLen < n) := by simp [recovery, fits]
  simp only [execRdoor, if_neg opens, if_neg there, good, and_true, if_pos (Nat.ne_of_gt pos)]
  simp [recovery, said, withFirmware, drawFree]

theorem verified_of_ne_nil {img : List Byte} (bytes : img ≠ []) (p : Platform) : verified p img = Config.verifies img := by
  cases img with
  | nil => exact absurd rfl bytes
  | cons => rfl

theorem hostReset_withFirmware {s : State} {img : List Byte} (bytes : img ≠ []) (good : Config.verifies img = true) :
    (hostReset (withFirmware s img)).plat.image = img ∧ (hostReset (withFirmware s img)).plat.prev = s.plat.image ∧
      (hostReset (withFirmware s img)).plat.power = .linked := by
  have now : verified (writePstat (withFirmware s img)).plat img = true := (verified_of_ne_nil bytes _).trans good
  have up : hostReset (withFirmware s img) = linkedWith _ _ _ _ := (bringUp_eq _).trans (if_pos now)
  rw [up]
  exact ⟨rfl, rfl, rfl⟩

/-! ### PSTAT and the attestation (R425, R428) -/

/-- PSTAT's bits above the derating: RFAIL, TTRIP, READY, recovery. -/
def pstatFlags (rfail ttrip ready recov : Bool) : Nat := rfail.toNat + 2 * ttrip.toNat + 4 * ready.toNat + 8 * recov.toNat

theorem pstat_eq (s : State) : pstat s =
    2 ^ 16 * pstatFlags s.plat.rfail s.plat.ttrip (s.plat.power == .ready) s.plat.recov + s.plat.derate % 2 ^ 9 := by
  unfold pstat pstatFlags
  dsimp only
  cases s.plat.rfail <;> cases s.plat.ttrip <;> cases s.plat.power == .ready <;> cases s.plat.recov <;>
    simp only [Bool.toNat_true, Bool.toNat_false, if_true, Bool.false_eq_true, if_false] <;> omega

theorem testBit_pstatFlags : ∀ rfail ttrip ready recov : Bool,
    (pstatFlags rfail ttrip ready recov).testBit 0 = rfail ∧ (pstatFlags rfail ttrip ready recov).testBit 1 = ttrip ∧
    (pstatFlags rfail ttrip ready recov).testBit 2 = ready ∧ (pstatFlags rfail ttrip ready recov).testBit 3 = recov := by
  decide

theorem testBit_pstat (s : State) : (∀ i < 9, (pstat s).testBit i = s.plat.derate.testBit i) ∧
    (pstat s).testBit 16 = s.plat.rfail ∧ (pstat s).testBit 17 = s.plat.ttrip ∧
    (pstat s).testBit 18 = (s.plat.power == .ready) ∧ (pstat s).testBit 19 = s.plat.recov := by
  have small : s.plat.derate % 2 ^ 9 < 2 ^ 16 := Nat.lt_trans (Nat.mod_lt _ (by norm_num)) (by norm_num)
  have bit (i : Nat) := Nat.testBit_two_pow_mul_add (pstatFlags s.plat.rfail s.plat.ttrip (s.plat.power == .ready) s.plat.recov)
    small i
  rw [pstat_eq]
  obtain ⟨rfail, ttrip, ready, recov⟩ := testBit_pstatFlags s.plat.rfail s.plat.ttrip (s.plat.power == .ready) s.plat.recov
  refine ⟨fun i hi => ?_, (bit 16).trans rfail, (bit 17).trans ttrip, (bit 18).trans ready, (bit 19).trans recov⟩
  rw [bit, if_pos (by omega), Nat.testBit_mod_two_pow, decide_eq_true hi, Bool.true_and]

theorem measOf_eq {s : State} (runs : s.plat.recov = false) :
    measOf s = leNat (sha384 (if s.plat.image = [] then Config.deliveryImage else s.plat.image)) := by
  unfold measOf firmware
  simp only [runs, Bool.false_eq_true, if_false, List.isEmpty_iff]

theorem exec_attestationRequest {s : State} (up : s.plat.power = .linked ∨ s.plat.power = .ready) {nonce : Nat}
    (fits : nonce < 2 ^ 256) : exec (.attestationRequest nonce) s = .next (said s (.attest (measOf s) nonce (pstat s)
      (Config.signature (leBytes 48 (measOf s) ++ leBytes 32 nonce ++ leBytes 8 (pstat s))))) := by
  have serves : ¬ (s.plat.power ≠ .ready ∧ s.plat.power ≠ .linked) := by
    rcases up with h | h <;> simp [h]
  have whole := Nat.mod_eq_of_lt fits
  refine (if_neg serves).trans ?_
  rw [whole]
  rfl

end Sys2Proof.Machine
end

section
/-! Accesses from outside to jobs' memory (R144, R145, R257, R258, R426): their places over plain and compressed frames, and what
they read, write and answer. -/

namespace Sys2Proof.Machine
open Sys2Proof.Stmt

/-! ### The places of an access from outside (R144, R145, R258) -/

section
variable {s : State}

/-- A byte outside every compressed frame: a job's shows its place, any other none. -/
theorem outerByte_unframed {pa : Nat} (free : frameAt s pa = none) (wr : Bool) : outerByte s pa wr =
    if jobHolds s pa then (placeOf s (outerExtent false pa) 0 wr).toOption.map (fun p => (p, pa + 1)) else none := by
  rw [frameAt] at free
  rw [outerByte, free]

theorem outerByte_plain {pa : Nat} (h : plainJob s pa 1) (wr : Bool) : outerByte s pa wr = some (.one (.byte pa), pa + 1) := by
  have byte := h 0 Nat.one_pos
  rw [Nat.add_zero] at byte
  obtain ⟨free, holds, direct, ok, -, ram⟩ := byte
  rw [outerByte_unframed free, if_pos holds, placeOf_plain (e := outerExtent false pa) (o := 0) wr rfl direct ok ram]
  rfl

/-- Byte b of the block in slot m of a stretch of compressed frames (R145, R258). -/
theorem outerByte_packed {x : Bool × Nat × Nat} {m b : Nat} (inside : frameAt s (x.2.1 + 160 * m + b) = some x) (hb : b < 128)
    (direct : paSpace x.2.1 ≠ 3) (ok : paOk (x.2.1 + 160 * m) = true)
    (ram : mcHolds s (x.2.1 + 160 * m) 160 = false) (wr : Bool) :
    outerByte s (x.2.1 + 160 * m + b) wr = some (.one (.blk (x.2.1 + 160 * m) b 0),
      if b = 127 then x.2.1 + 160 * m + b + 33 else x.2.1 + 160 * m + b + 1) := by
  have offset : x.2.1 + 160 * m + b - x.2.1 = 160 * m + b := by omega
  have byte : (160 * m + b) % 160 = b := by omega
  have slot : (160 * m + b) / 160 = m := by omega
  have block : (m * 128 + b) / 128 = m := by omega
  have inBlock : (m * 128 + b) % 128 = b := by omega
  have place : placeOf s (outerExtent true x.2.1) (m * 128 + b) wr = .ok (.one (.blk (x.2.1 + 160 * m) b 0)) := by
    simp [placeOf, outerExtent, direct, block, inBlock, ok, Place.reach, Place.tgts, Tgt.held, ram]
  rw [frameAt] at inside
  rw [outerByte, inside]
  simp only [offset, byte, slot, hb, if_true, place, Except.toOption, Option.map_some]

theorem plainPlaces_succ (addr k : Nat) : plainPlaces addr (k + 1) = .one (.byte addr) :: plainPlaces (addr + 1) k := by
  rw [plainPlaces, List.range_succ_eq_map, List.map_cons, List.map_map]
  refine congrArg _ (List.map_congr_left fun i _ => congrArg (fun a => Place.one (.byte a)) ?_)
  omega

/-- The places of an access that begins with k plain bytes: those, then the places of the rest. -/
theorem outerPlaces_plain_append {addr k : Nat} (h : plainJob s addr k) (wr : Bool) (n : Nat) :
    outerPlaces s addr wr (k + n) = (outerPlaces s (addr + k) wr n).map (plainPlaces addr k ++ ·) := by
  induction k generalizing addr with
  | zero => simp [plainPlaces]
  | succ k ih =>
    have first : plainJob s addr 1 := fun i hi => h i (by omega)
    have rest : plainJob s (addr + 1) k := fun i hi => by rw [Nat.add_assoc, Nat.add_comm 1]; exact h (i + 1) (by omega)
    have next : addr + 1 + k = addr + (k + 1) := by omega
    rw [Nat.add_right_comm, outerPlaces, outerByte_plain first, Option.bind_some, ih rest, next, plainPlaces_succ, Option.map_map]
    rfl

theorem outerPlaces_plain {addr len : Nat} (h : plainJob s addr len) (wr : Bool) :
    outerPlaces s addr wr len = some (plainPlaces addr len) := by
  have all := outerPlaces_plain_append h wr 0
  rwa [Nat.add_zero, outerPlaces, Option.map_some, List.append_nil] at all

/-- n bytes of the block in a slot, from byte b on. -/
def blockPlaces (slot b n : Nat) : List Place := (List.range n).map fun i => .one (.blk slot (b + i) 0)

theorem blockPlaces_succ (slot b n : Nat) : blockPlaces slot b (n + 1) = .one (.blk slot b 0) :: blockPlaces slot (b + 1) n := by
  rw [blockPlaces, List.range_succ_eq_map, List.map_cons, List.map_map]
  refine congrArg _ (List.map_congr_left fun i _ => congrArg (fun a => Place.one (.blk slot a 0)) ?_)
  omega

theorem outerPlaces_packed {x : Bool × Nat × Nat} {m b n : Nat} (inside : ∀ i < n, frameAt s (x.2.1 + 160 * m + b + i) = some x)
    (fits : b + n ≤ 128) (direct : paSpace x.2.1 ≠ 3) (ok : paOk (x.2.1 + 160 * m) = true)
    (ram : mcHolds s (x.2.1 + 160 * m) 160 = false) (wr : Bool) :
    outerPlaces s (x.2.1 + 160 * m + b) wr n = some (blockPlaces (x.2.1 + 160 * m) b n) := by
  induction n generalizing b with
  | zero => rfl
  | succ n ih =>
    rw [outerPlaces, outerByte_packed (inside 0 (by omega)) (by omega) direct ok ram, Option.bind_some]
    cases n with
    | zero => rfl
    | succ n =>
      rw [if_neg (by omega), Nat.add_assoc _ b 1, ih (fun i hi => ?_) (by omega), Option.map_some, ← blockPlaces_succ]
      · have h := inside (i + 1) (by omega)
        rwa [show x.2.1 + 160 * m + b + (i + 1) = x.2.1 + 160 * m + (b + 1) + i by omega] at h

/-- An access outside every compressed frame with a byte that is no job's has no places. -/
theorem outerPlaces_foreign {addr n : Nat} (free : ∀ i < n, frameAt s (addr + i) = none)
    (foreign : ∃ i < n, jobHolds s (addr + i) = false) (wr : Bool) : outerPlaces s addr wr n = none := by
  induction n generalizing addr with
  | zero => obtain ⟨i, hi, -⟩ := foreign; omega
  | succ n ih =>
    rw [outerPlaces, outerByte_unframed (pa := addr) (free 0 (by omega))]
    by_cases held : jobHolds s addr = true
    · rw [if_pos held]
      cases (placeOf s (outerExtent false addr) 0 wr).toOption with
      | none => rfl
      | some p =>
        obtain ⟨i, hi, foreign⟩ := foreign
        cases i with
        | zero => exact absurd held (by simpa using foreign)
        | succ i =>
          have step (j : Nat) : addr + 1 + j = addr + (j + 1) := by omega
          have rest : outerPlaces s (addr + 1) wr n = none := ih (fun j hj => by rw [step]; exact free (j + 1) (by omega))
            ⟨i, by omega, by rw [step]; exact foreign⟩
          simp [rest]
    · rw [if_neg held]
      rfl

/-! ### Bytes read at places -/

theorem readPlaces_ok {ps : List Place} {f : Place → Byte} (h : ∀ p ∈ ps, readPlace s p = some (f p)) :
    readPlaces s ps = .ok (ps.map f) := by
  have all : ps.findIdx? (fun p => (readPlace s p).isNone) = none :=
    List.findIdx?_eq_none_iff.2 fun p hp => by simp [h p hp]
  rw [readPlaces, all]
  exact congrArg _ (List.map_congr_left fun p hp => by simp [h p hp])

theorem readPlaces_error {ps : List Place} {p : Place} (hp : p ∈ ps) (h : readPlace s p = none) (bs : List Byte) :
    readPlaces s ps ≠ .ok bs := by
  obtain ⟨i, hi⟩ : ∃ i, ps.findIdx? (fun p => (readPlace s p).isNone) = some i := by
    cases found : ps.findIdx? (fun p => (readPlace s p).isNone) with
    | some i => exact ⟨i, rfl⟩
    | none => simpa [h] using List.findIdx?_eq_none_iff.1 found p hp
  rw [readPlaces, hi]
  nofun

/-- The byte at a place whose bytes can be read. -/
def byteAt (s : State) (p : Place) : Byte := (readPlace s p).getD 0

/-- Plain bytes without error marks, then bytes of a block that can be read. -/
theorem readPlaces_plain_block {addr k slot b n : Nat} {bs : List Byte} (clean : k = 0 ∨ s.ecc = [])
    (block : readBlock s slot = some bs) : readPlaces s (plainPlaces addr k ++ blockPlaces slot b n) =
      .ok (rdN s.mem addr k ++ (List.range n).map (fun i => bs.getD (b + i) 0)) := by
  have plain : ∀ i < k, readPlace s (.one (.byte (addr + i))) = some (rd8 s.mem (addr + i)) := fun i hi =>
    readPlace_byte (clean.resolve_left (by omega)) _
  have packed (i : Nat) : readPlace s (.one (.blk slot i 0)) = some (bs.getD i 0) := by simp [readPlace, readTgt, block]
  rw [readPlaces_ok (f := byteAt s), List.map_append, plainPlaces, blockPlaces, List.map_map, List.map_map, rdN]
  · congr 2
    · exact List.map_congr_left fun i hi => by simp [byteAt, plain i (List.mem_range.1 hi)]
    · exact List.map_congr_left fun i _ => by simp [byteAt, packed]
  · intro p hp
    rcases List.mem_append.1 hp with hp | hp
    · obtain ⟨i, hi, rfl⟩ := List.mem_map.1 hp
      simp [byteAt, plain i (List.mem_range.1 hi)]
    · obtain ⟨i, -, rfl⟩ := List.mem_map.1 hp
      simp [byteAt, packed]

theorem readPlaces_corrupt {ps : List Place} {slot b n : Nat} (pos : 0 < n) (corrupt : readBlock s slot = none) (bs : List Byte) :
    readPlaces s (ps ++ blockPlaces slot b n) ≠ .ok bs := by
  have there : Place.one (.blk slot b 0) ∈ ps ++ blockPlaces slot b n :=
    List.mem_append_right _ (List.mem_map.2 ⟨0, List.mem_range.2 pos, rfl⟩)
  exact readPlaces_error there (by simp [readPlace, readTgt, corrupt]) bs

/-! ### Bytes written at plain places -/

theorem plainPlaces_zip (addr : Nat) (bs : List Byte) : (plainPlaces addr bs.length).zip bs =
    ((List.range' addr bs.length).zip bs).map fun x => (.one (.byte x.1), x.2) := by
  simp [plainPlaces, List.range'_eq_map_range, List.zip_map_left, Function.comp_def]

/-- Writes in this package count nowhere (R142). -/
theorem countWrites_own {ps : List Place} (own : ∀ p ∈ ps, ∀ t ∈ p.tgts, paPkg t.pa = s.plat.pkg) : countWrites s ps = s := by
  have own : ∀ t ∈ ps.flatMap Place.tgts, paPkg t.pa = s.plat.pkg := fun t ht => by
    obtain ⟨p, hp, hpt⟩ := List.mem_flatMap.1 ht
    exact own p hp t hpt
  unfold countWrites
  dsimp only
  generalize ps.flatMap Place.tgts = l at own
  induction l with
  | nil => rfl
  | cons t l ih =>
    rw [List.forall_mem_cons] at own
    rw [List.foldl_cons, if_neg (not_not.2 own.1)]
    exact ih own.2

/-- Bytes written at plain places of this package: no write count changes. -/
theorem writePlaces_plainJob {addr : Nat} {bs : List Byte} (plain : plainJob s addr bs.length) (clean : s.ecc = []) :
    writePlaces s ((plainPlaces addr bs.length).zip bs) = ({ s with mem := wrN s.mem addr bs }, none) := by
  have each : ∀ x ∈ (List.range' addr bs.length).zip bs, mcHolds s x.1 1 = false := fun x hx => by
    obtain ⟨i, hi, at_⟩ := List.mem_range'.1 (List.of_mem_zip hx).1
    obtain ⟨-, -, -, -, -, ram⟩ := plain i hi
    rwa [at_, Nat.one_mul]
  have own : ∀ p ∈ ((plainPlaces addr bs.length).zip bs).map (·.1), ∀ t ∈ p.tgts, paPkg t.pa = s.plat.pkg := by
    intro p hp t ht
    obtain ⟨x, hx, rfl⟩ := List.mem_map.1 hp
    obtain ⟨i, hi, at_⟩ := List.mem_map.1 (List.of_mem_zip hx).1
    obtain ⟨-, -, -, -, pkg, -⟩ := plain i (List.mem_range.1 hi)
    rw [← at_, Place.tgts, List.mem_singleton] at ht
    rwa [ht]
  rw [writePlaces, plainPlaces_zip, putPlaces_bytes clean each, foldl_wr8_range', ← plainPlaces_zip]
  exact congrArg (·, none) (countWrites_own (s := { s with mem := wrN s.mem addr bs }) own)

/-! ### Accesses from outside (R144, R257, R258, R426) -/

variable (h : answers s = true) {addr len : Nat} (here : paPkg addr = s.plat.pkg)
include h here

theorem exec_remoteLoad (len : Nat) : exec (.remoteAccess (.load addr len)) s = .next (remoteLoad s addr len) := by
  have opens : ¬ (!answers s) = true := by simp [h]
  exact (if_neg opens).trans (if_neg (not_not.2 here))

theorem exec_remoteStore (bs : List Byte) : exec (.remoteAccess (.store addr bs)) s = remoteStore s addr bs := by
  have opens : ¬ (!answers s) = true := by simp [h]
  exact (if_neg opens).trans (if_neg (not_not.2 here))

theorem exec_remoteAtomic (aop : Aop) (b c : Word) (peer : Nat) :
    exec (.remoteAccess (.atomic aop addr b c peer)) s = remoteAtomic s aop addr b c peer := by
  have opens : ¬ (!answers s) = true := by simp [h]
  exact (if_neg opens).trans (if_neg (not_not.2 here))

theorem load_job {ps : List Place} {bs : List Byte} (job : remoteHome s addr len = .job)
    (places : outerPlaces s addr false len = some ps) (reads : readPlaces s ps = .ok bs) :
    exec (.remoteAccess (.load addr len)) s = .next (said s (.loaded addr bs)) := by
  rw [exec_remoteLoad h here, remoteLoad, job, places, Option.map_some, reads]
  rfl

theorem load_job_refused (job : remoteHome s addr len = .job)
    (fails : ∀ ps, outerPlaces s addr false len = some ps → ∀ bs, readPlaces s ps ≠ .ok bs) :
    exec (.remoteAccess (.load addr len)) s = .next (said s (.error addr)) := by
  rw [exec_remoteLoad h here, remoteLoad, job, ← refuseAccess_of_answers h]
  cases places : outerPlaces s addr false len with
  | none => rfl
  | some ps =>
    cases reads : readPlaces s ps with
    | ok bs => exact absurd reads (fails ps places bs)
    | error i => simp [reads]

theorem load_nowhere (nowhere : remoteHome s addr len = .nowhere) :
    exec (.remoteAccess (.load addr len)) s = .next (said s (.error addr)) := by
  rw [exec_remoteLoad h here, remoteLoad, nowhere, ← refuseAccess_of_answers h]

theorem store_nowhere {bs : List Byte} (nowhere : remoteHome s addr bs.length = .nowhere) :
    exec (.remoteAccess (.store addr bs)) s = .next (said s (.error addr)) := by
  rw [exec_remoteStore h here, remoteStore, nowhere, ← refuseAccess_of_answers h]

theorem store_job_refused {bs : List Byte} (job : remoteHome s addr bs.length = .job)
    (places : outerPlaces s addr true bs.length = none) :
    exec (.remoteAccess (.store addr bs)) s = .next (said s (.error addr)) := by
  rw [exec_remoteStore h here, remoteStore, job, places, outerWrite, ← refuseAccess_of_answers h]

theorem store_job {bs : List Byte} (job : remoteHome s addr bs.length = .job) (plain : plainJob s addr bs.length)
    (clean : s.ecc = []) :
    exec (.remoteAccess (.store addr bs)) s = .next (said { s with mem := wrN s.mem addr bs } (.stored addr)) := by
  rw [exec_remoteStore h here, remoteStore, job, outerPlaces_plain plain, outerWrite, writePlaces_plainJob plain clean]
  rfl

/-- An add from outside on an aligned word of a job's plain memory. -/
theorem atomicAdd_job (job : remoteHome s addr 8 = .job) (plain : plainJob s addr 8) (clean : s.ecc = []) (aligned : addr % 8 = 0)
    (b c : Word) (peer : Nat) : exec (.remoteAccess (.atomic .add addr b c peer)) s =
      .next (said { s with mem := wrN s.mem addr (leBytes 8 ((leNat (rdN s.mem addr 8) + b.toNat) % 2 ^ 64)) }
        (.old addr (BitVec.ofNat 64 (leNat (rdN s.mem addr 8))))) := by
  obtain ⟨-, -, direct, -⟩ := plain 0 (by omega)
  have straight : bentAperture s addr = false := by simpa [bentAperture] using fun h => absurd h direct
  have nonempty : (plainPlaces addr 8).isEmpty = false := rfl
  have reads : readPlaces s (plainPlaces addr 8) = .ok (rdN s.mem addr 8) := readPlaces_bytes clean addr 8
  have writes (v : Nat) := writePlaces_plainJob (bs := leBytes 8 v) (by rwa [leBytes_length]) clean
  simp only [leBytes_length] at writes
  rw [exec_remoteAtomic h here, remoteAtomic]
  simp only [reduceCtorEq, if_false, aligned, ne_eq, not_true_eq_false, job, outerPlaces_plain plain, Option.getD_some, nonempty,
    straight, Bool.or_self, Bool.false_eq_true, reads, aopNew, writes]
  rfl

end

/-! ### The obligation -/

/-- The first slot and byte of an access that goes on in a compressed frame at byte q of it (R258). -/
theorem slot_byte_of_offset {base addr : Nat} (low : base ≤ addr) :
    base + 160 * ((addr - base) / 160) + (addr - base) % 160 = addr := by omega

/-- The places of an access to k plain bytes and then to bytes of one block of a compressed frame (R145, R258). -/
theorem outerPlaces_plain_packed {s : State} {addr len k : Nat} {x : Bool × Nat × Nat} (hk : k < len) (plain : plainJob s addr k)
    (inside : ∀ i, k ≤ i → i < len → frameAt s (addr + i) = some x)
    (fits : (addr + k - x.2.1) % 160 + (len - k) ≤ 128) (direct : paSpace x.2.1 ≠ 3)
    (ok : paOk (x.2.1 + 160 * ((addr + k - x.2.1) / 160)) = true)
    (ram : mcHolds s (x.2.1 + 160 * ((addr + k - x.2.1) / 160)) 160 = false) (wr : Bool) :
    outerPlaces s addr wr len = some (plainPlaces addr k ++
      blockPlaces (x.2.1 + 160 * ((addr + k - x.2.1) / 160)) ((addr + k - x.2.1) % 160) (len - k)) := by
  have low : x.2.1 ≤ addr + k := by
    have found := List.find?_some (inside k (Nat.le_refl k) hk)
    simp only [Bool.and_eq_true, decide_eq_true_eq] at found
    exact found.1.2
  have at_ := slot_byte_of_offset low
  have packed := outerPlaces_packed (n := len - k) (x := x) (m := (addr + k - x.2.1) / 160) (b := (addr + k - x.2.1) % 160)
    (fun i hi => by rw [at_, Nat.add_assoc]; exact inside (k + i) (by omega) (by omega)) fits direct ok ram wr
  rw [at_] at packed
  have whole := outerPlaces_plain_append plain wr (len - k)
  rwa [packed, Option.map_some, Nat.add_sub_cancel' (Nat.le_of_lt hk)] at whole

/-- Settles O53: an equation for each access; those to a job's memory by the places of their bytes. -/
theorem hostDoors : Obligations.HostDoors := by
  unfold Obligations.HostDoors
  intro s sub up page comes alive
  refine ⟨exec_notify_ready, ?notify, ?cread, ?creadRefused, exec_pwrcap, ?preset, ?rdoor, ?rdoorRefused, ?rdoorRecovery, ?attest,
    ?memory⟩
  case notify => exact fun power unready vio n => exec_notify_refused (answers_of_power power vio) unready n
  case cread =>
    intro power vio stack n
    have h : answers s = true := answers_of_power (by tauto) vio
    exact exec_cread power h stack n
  case creadRefused =>
    intro power vio n
    have h : answers s = true := answers_of_power (by tauto) vio
    exact exec_cread_refused h (by rcases power with h | h <;> simp [h]) (by rcases power with h | h <;> simp [h]) n
  case preset =>
    intro power vio
    have h : answers s = true := answers_of_power power vio
    refine ⟨fun v hv => (exec_preset h v).trans (by rw [if_neg hv]), _, (exec_preset h 1).trans (by rw [if_pos rfl]), ?_⟩
    exact hostReset_spec _
  case rdoor =>
    intro ready vio n
    have h : answers s = true := answers_of_power (by tauto) vio
    exact (exec_rdoor h n (by simp [ready])).trans (by simp [ready, page])
  case rdoorRefused =>
    intro power vio n
    have h : answers s = true := answers_of_power (by tauto) vio
    refine (exec_rdoor h n (by rcases power with h | h <;> simp [h])).trans ?_
    rw [if_pos (by tauto)]
  case rdoorRecovery =>
    intro recovery vio n pos fits img
    have h : answers s = true := answers_of_power (by tauto) vio
    refine ⟨exec_rdoor_discards h recovery fits, fun good => ⟨_, exec_rdoor_takes h recovery pos fits good, ?_⟩⟩
    refine hostReset_withFirmware (List.ne_nil_of_length_pos ?_) good
    rwa [rdN, List.length_map, List.length_range]
  case attest =>
    intro power runs nonce fits m
    obtain ⟨derate, rfail, ttrip, ready, recov⟩ := testBit_pstat s
    have request := exec_attestationRequest power fits
    rw [measOf_eq runs] at request
    exact ⟨_, request, derate, rfail, ttrip, by rw [ready]; exact beq_iff_eq, recov.trans runs⟩
  case memory =>
    intro power vio addr len here load store refused
    have h : answers s = true := answers_of_power power vio
    refine ⟨fun job => ⟨fun plain clean => ⟨?_, ?_, ?_⟩, ?_, ?_⟩, fun nowhere => ⟨load_nowhere h here nowhere, ?_⟩⟩
    · exact load_job h here job (outerPlaces_plain plain false) (readPlaces_bytes clean addr len)
    · rintro bs rfl
      exact store_job h here job plain clean
    · rintro b c peer rfl aligned
      exact atomicAdd_job h here job plain clean aligned b c peer
    · intro x k hk plain inside clean q slot fits direct ok ram
      have places := outerPlaces_plain_packed hk plain inside fits direct ok ram false
      refine ⟨fun corrupt => load_job_refused h here job fun ps hps bs => ?_, fun bs block => ?_⟩
      · rw [places, Option.some_inj] at hps
        rw [← hps]
        exact readPlaces_corrupt (by omega) corrupt bs
      · exact load_job h here job places (readPlaces_plain_block (clean.imp_right (·.2)) block)
    · intro free foreign
      refine ⟨load_job_refused h here job fun ps hps => ?_, ?_⟩
      · rw [outerPlaces_foreign free foreign] at hps
        cases hps
      · rintro bs rfl
        exact store_job_refused h here job (outerPlaces_foreign free foreign true)
    · rintro bs rfl
      exact store_nowhere h here nowhere

end Sys2Proof.Machine
end


section
/-! Which bytes of memory a write can change (R245, R255-R259, R262): those of its places' footprints alone. -/

namespace Sys2Proof.Machine
open Sys2Proof.Stmt

/-! ### Blocks and slots (R255-R257) -/

theorem mkSlot_length (mode ex pmap : Nat) {payload : List Byte} (fits : payload.length ≤ 152) :
    (mkSlot mode ex pmap payload).length = 160 := by
  simp only [mkSlot, List.length_append, leBytes_length, List.length_replicate]
  omega

/-- A slot takes 160 bytes, whichever mode the encoder chooses (R256). -/
theorem encodeBlock_length {bs : List Byte} (fits : bs.length ≤ 152) (ex : Nat) : (encodeBlock bs ex).length = 160 := by
  unfold encodeBlock
  dsimp only
  split_ifs with zeros same coded
  · exact mkSlot_length _ _ _ (by simp)
  · exact mkSlot_length _ _ _ (by simp)
  · exact mkSlot_length _ _ _ coded
  · exact mkSlot_length _ _ _ fits

theorem fromPlanes_length (qs : List (Nat × Nat)) : (fromPlanes qs).length = 128 := by
  have grow (ds : List Nat) (acc : List Byte × Nat) : (ds.foldl (fun (acc : List Byte × Nat) d =>
      let w := (acc.2 + d) % 2 ^ 32
      (acc.1 ++ leBytes 4 w, w)) acc).1.length = acc.1.length + 4 * ds.length := by
    induction ds generalizing acc with
    | nil => rfl
    | cons d ds ih =>
      rw [List.foldl_cons, ih, List.length_append, leBytes_length, List.length_cons]
      omega
  unfold fromPlanes
  dsimp only
  rw [grow]
  simp

/-- The expander gives no more than a block (R257). -/
theorem decodeBlock_length {slot bs : List Byte} {nsec : Nat} (h : decodeBlock slot = some (bs, nsec)) : bs.length ≤ 128 := by
  unfold decodeBlock at h
  dsimp only at h
  generalize leNat (slot.take 8) = head at h
  generalize head % 4 = mode, head / 16 % 8 = sectors, head / 2 ^ 8 % 2 ^ 32 = planes, head / 2 ^ 40 % 2 ^ 8 = bytes at h
  generalize slot.drop 8 = payload at h
  have whole {l : List Byte} (fits : l.length ≤ 128) {k : Nat} (same : some (l, k) = some (bs, nsec)) : bs.length ≤ 128 := by
    have block : l = bs := congrArg (·.1) (Option.some.inj same)
    rwa [← block]
  split at h
  · exact absurd h nofun
  split at h <;> split at h
  · exact whole (List.length_replicate ..).le h
  · exact absurd h nofun
  · exact whole (by simp; omega) h
  · exact absurd h nofun
  · exact whole (fromPlanes_length _).le h
  · exact absurd h nofun
  · exact whole (List.length_take_le _ _) h
  · exact absurd h nofun

theorem readBlock_length {s : State} {slot : Nat} {bs : List Byte} (h : readBlock s slot = some bs) : bs.length ≤ 128 := by
  unfold readBlock at h
  split at h
  · next decoded =>
    split at h
    · cases h
    · cases h; exact decodeBlock_length decoded
  · cases h

theorem foldl_set_length (ws : List (Nat × Byte)) (bs : List Byte) :
    (ws.foldl (fun b w => b.set w.1 w.2) bs).length = bs.length := by
  induction ws generalizing bs with
  | nil => rfl
  | cons w ws ih => rw [List.foldl_cons, ih, List.length_set]

/-! ### Targets and places -/

theorem mem_footprint_byte (a pa : Nat) : a ∈ footprint (.one (.byte pa)) ↔ a = pa := List.mem_singleton

theorem mem_footprint_blk (a slot i ex : Nat) : a ∈ footprint (.one (.blk slot i ex)) ↔ slot ≤ a ∧ a < slot + 160 := by
  rw [footprint, List.mem_map]
  constructor
  · rintro ⟨i, hi, rfl⟩
    have := List.mem_range.1 hi
    omega
  · rintro ⟨low, high⟩
    exact ⟨a - slot, List.mem_range.2 (by omega), by omega⟩

theorem rd8_wrN_encodeBlock {m : List Host.Cell} {slot a : Nat} {bs : List Byte} (fits : bs.length ≤ 128) (ex : Nat)
    (out : a < slot ∨ slot + 160 ≤ a) : rd8 (wrN m slot (encodeBlock bs ex)) a = rd8 m a := by
  rw [rd8_wrN, encodeBlock_length (by omega), if_neg (by omega)]

theorem rd8_mem_ite {s t : State} {a : Nat} {P : Byte → Prop} {p : Prop} [Decidable p] (h : P (rd8 s.mem a)) (k : P (rd8 t.mem a)) :
    P (rd8 (if p then s else t).mem a) := by
  split
  exacts [h, k]

/-- A target is a block in whose slot a byte lies. -/
def Tgt.slotHas (a : Nat) : Tgt → Prop
  | .blk slot _ _ => slot ≤ a ∧ a < slot + 160
  | .byte _ => False

/-- What writes to targets can do to a byte (R245, R259): nothing, or it is one of those written, or it lies in the slot of a
block that was. -/
theorem rd8_writeTgts_cases (s : State) (l : List (Tgt × Byte)) (a : Nat) :
    rd8 (writeTgts s l).1.mem a = rd8 s.mem a ∨ (∃ x ∈ l, x.1 = .byte a ∧ rd8 (writeTgts s l).1.mem a = x.2) ∨
      ∃ x ∈ l, x.1.slotHas a := by
  by_cases slotted : ∃ x ∈ l, x.1.slotHas a
  · exact .inr (.inr slotted)
  suffices h : rd8 (writeTgts s l).1.mem a = rd8 s.mem a ∨ ∃ x ∈ l, x.1 = .byte a ∧ rd8 (writeTgts s l).1.mem a = x.2 from
    h.imp_right .inl
  have kept : ∀ x ∈ l.filter (fun x => !x.1.held s), x ∈ l := fun x => List.mem_of_mem_filter
  unfold writeTgts
  dsimp only
  generalize l.filter (fun x => !x.1.held s) = here at kept
  have slots : ∀ se ∈ (here.filterMap fun x => match x.1 with
      | .blk slot _ ex => some (slot, ex)
      | .byte _ => none).dedup, a < se.1 ∨ se.1 + 160 ≤ a := by
    intro se hse
    obtain ⟨x, hx, named⟩ := List.mem_filterMap.1 (List.mem_dedup.1 hse)
    by_contra inside
    refine slotted ⟨x, kept x hx, ?_⟩
    cases target : x.1 with
    | byte pa => simp [target] at named
    | blk slot i ex =>
      simp only [target, Option.some.injEq] at named
      rw [← named] at inside
      exact ⟨by omega, by omega⟩
  refine List.foldlRecOn _ _ (motive := fun acc : State × List Nat => rd8 acc.1.mem a = rd8 s.mem a ∨
    ∃ x ∈ l, x.1 = .byte a ∧ rd8 acc.1.mem a = x.2) ?_ ?_
  · refine List.foldlRecOn _ _ (motive := fun t : State => rd8 t.mem a = rd8 s.mem a ∨
      ∃ x ∈ l, x.1 = .byte a ∧ rd8 t.mem a = x.2) (.inl rfl) ?_
    intro t ht x hx
    cases target : x.1 with
    | blk slot i ex => exact ht
    | byte pa =>
      refine rd8_mem_ite (P := fun b => b = rd8 s.mem a ∨ ∃ x ∈ l, x.1 = .byte a ∧ b = x.2) ht ?_
      rw [rd8_wr8]
      by_cases at_ : a = pa
      · rw [if_pos at_]
        exact .inr ⟨x, kept x hx, at_ ▸ target, rfl⟩
      · rwa [if_neg at_]
  · intro acc hacc se hse
    have far := slots se hse
    split
    · exact hacc
    · next old holds =>
      have fits : old.length ≤ 128 := by
        split at holds
        · cases holds; simp
        · exact readBlock_length holds
      have same (m : List Host.Cell) (ws : List (Nat × Byte)) (ex : Nat) :=
        rd8_wrN_encodeBlock (m := m) (bs := ws.foldl (fun b w => b.set w.1 w.2) old) (by rw [foldl_set_length]; exact fits) ex far
      split <;> rwa [same]

/-- A byte is out of reach of every target that a list of writes names. -/
abbrev outOfReach (a : Nat) (l : List (Tgt × Byte)) : Prop := ∀ x ∈ l, a ∉ footprint (.one x.1)

/-- Writes to targets change no byte outside their footprints (R245, R259). -/
theorem rd8_writeTgts_other {s : State} {a : Nat} {l : List (Tgt × Byte)} (out : outOfReach a l) :
    rd8 (writeTgts s l).1.mem a = rd8 s.mem a := by
  rcases rd8_writeTgts_cases s l a with same | ⟨x, hx, at_, -⟩ | ⟨x, hx, inside⟩
  · exact same
  · exact absurd ((mem_footprint_byte a a).2 rfl) (at_ ▸ out x hx)
  · have far := out x hx
    cases target : x.1 with
    | byte pa => simp [target, Tgt.slotHas] at inside
    | blk slot i ex =>
      rw [target] at far inside
      exact absurd ((mem_footprint_blk ..).2 inside) far

theorem rd8_writeBits_other {s : State} {a : Nat} {l : List (Tgt × Nat)} (out : a ∉ footprint (.bits l)) (b : Byte) :
    rd8 (writeBits s l b).1.mem a = rd8 s.mem a := by
  unfold writeBits
  refine List.foldlRecOn _ _ (motive := fun acc : State × Bool => rd8 acc.1.mem a = rd8 s.mem a) rfl ?_
  intro acc hacc x hx
  have member : x.1 ∈ l := List.fst_mem_of_mem_zipIdx hx
  have far : a ∉ footprint (.one x.1.1) := fun h => out (List.mem_flatMap.2 ⟨x.1, member, by
    cases target : x.1.1 <;> rw [target] at h <;> exact h⟩)
  dsimp only
  split
  · exact hacc
  · exact (rd8_writeTgts_other fun y hy => by rw [List.mem_singleton.1 hy]; exact far).trans hacc

theorem rd8_putPlaces_other {s : State} {a : Nat} {l : List (Place × Byte)} (out : ∀ x ∈ l, a ∉ footprint x.1) :
    rd8 (putPlaces s l).1.mem a = rd8 s.mem a := by
  have ones : outOfReach a (l.filterMap fun x => match x.1 with | .one t => some (t, x.2) | .bits _ => none) := by
    intro y hy
    obtain ⟨x, hx, named⟩ := List.mem_filterMap.1 hy
    have far := out x hx
    cases place : x.1 with
    | bits t => simp [place] at named
    | one t =>
      simp only [place, Option.some.injEq] at named
      rw [← named]
      rwa [place] at far
  unfold putPlaces
  dsimp only
  split
  · exact rd8_writeTgts_other ones
  · refine List.foldlRecOn _ _ (motive := fun acc : State × Option Nat => rd8 acc.1.mem a = rd8 s.mem a)
      (rd8_writeTgts_other ones) ?_
    intro acc hacc x hx
    have far := out x.1 (List.fst_mem_of_mem_zipIdx hx)
    cases place : x.1.1 with
    | one t => exact hacc
    | bits t =>
      rw [place] at far
      exact (rd8_writeBits_other far _).trans hacc

/-- A write of an access changes no byte outside its places' footprints (R245, R259, R262). -/
theorem rd8_writePlaces_other {s : State} {a : Nat} {l : List (Place × Byte)} (out : ∀ x ∈ l, a ∉ footprint x.1) :
    rd8 (writePlaces s l).1.mem a = rd8 s.mem a := rd8_putPlaces_other out

theorem writePlaces_one_mem (s : State) (t : Tgt) (b : Byte) :
    (writePlaces s [(.one t, b)]).1.mem = (writeTgts s [(t, b)]).1.mem := by
  simp [writePlaces, putPlaces, countWrites]

/-- One byte written at a plain place stands there, or is as it was, and every other byte is (R245, R427). -/
theorem rd8_writePlaces_byte (s : State) (pa : Nat) (b : Byte) (a : Nat) :
    rd8 (writePlaces s [(.one (.byte pa), b)]).1.mem a = rd8 s.mem a ∨
      (a = pa ∧ rd8 (writePlaces s [(.one (.byte pa), b)]).1.mem a = b) := by
  rw [writePlaces_one_mem]
  rcases rd8_writeTgts_cases s [(.byte pa, b)] a with same | ⟨x, hx, at_, written⟩ | ⟨x, hx, inside⟩
  · exact .inl same
  · rw [List.mem_singleton.1 hx] at at_ written
    exact .inr ⟨(Tgt.byte.inj at_).symm, written⟩
  · rw [List.mem_singleton.1 hx] at inside
    exact inside.elim

end Sys2Proof.Machine
end

section
/-! A sequencer's access to another package that gets no answer (R142, R242): what its core keeps of it, and what its write, its
expectation or its arrival leaves. -/

namespace Sys2Proof.Machine
open Sys2Proof.Stmt

/-! ### Bytes written, or as they were -/

/-- One byte of a timed-out write: put back by a free choice, where no later write has taken it (R142). -/
def revertStep (s : State) (x : Tgt × Byte × Nat) : State :=
  let w := (writeTgts (drawFree s).1 [(x.1, x.2.1)]).1
  if (drawFree s).2.getLsbD 0 && writesOf s x.1 = x.2.2 then { w with writes := tset 0 w.writes x.1.key (x.2.2 - 1) }
  else (drawFree s).1

theorem revertBytes_cons (s : State) (x : Tgt × Byte × Nat) (l : List (Tgt × Byte × Nat)) :
    revertBytes s (x :: l) = revertBytes (revertStep s x) l := rfl

/-- Either nothing but the count of free values changes, or the byte is put back. -/
theorem revertStep_cases (s : State) (x : Tgt × Byte × Nat) : revertStep s x = (drawFree s).1 ∨ (writesOf s x.1 = x.2.2 ∧
    ∃ w, revertStep s x = { (writeTgts (drawFree s).1 [(x.1, x.2.1)]).1 with writes := w }) := by
  unfold revertStep
  dsimp only
  split
  · next put =>
    rw [Bool.and_eq_true, decide_eq_true_eq] at put
    exact .inr ⟨put.2, _, rfl⟩
  · exact .inl rfl

theorem revertStep_only (s : State) (x : Tgt × Byte × Nat) : revertStep s x = { s with
    mem := (revertStep s x).mem, ecc := (revertStep s x).ecc, writes := (revertStep s x).writes, fresh := s.fresh + 1 } := by
  rcases revertStep_cases s x with same | ⟨-, w, put⟩
  · rw [same]
    rfl
  · rw [put, (writeTgts_memStep _ _).1]
    rfl

theorem rd8_revertStep_other {s : State} {x : Tgt × Byte × Nat} {a : Nat} (out : a ∉ footprint (.one x.1)) :
    rd8 (revertStep s x).mem a = rd8 s.mem a := by
  rcases revertStep_cases s x with same | ⟨-, w, put⟩
  · rw [same]
    rfl
  · rw [put]
    refine (rd8_writeTgts_other (s := (drawFree s).1) fun y hy => ?_).trans rfl
    rwa [List.mem_singleton.1 hy]

/-- A write that is put back changes memory, its marks and its counts, outside its bytes nothing of memory, and draws one free
value for each byte. -/
theorem revertBytes_spec (s : State) (l : List (Tgt × Byte × Nat)) : ∃ m e w,
    revertBytes s l = { s with mem := m, ecc := e, writes := w, fresh := s.fresh + l.length } ∧
      ∀ a, (∀ x ∈ l, a ∉ footprint (.one x.1)) → rd8 m a = rd8 s.mem a := by
  induction l generalizing s with
  | nil => exact ⟨_, _, _, rfl, fun _ _ => rfl⟩
  | cons x l ih =>
    obtain ⟨m, e, w, run, frame⟩ := ih (revertStep s x)
    refine ⟨m, e, w, ?_, fun a out => ?_⟩
    · rw [revertBytes_cons, run, revertStep_only, List.length_cons, Nat.add_assoc, Nat.add_comm 1]
    · rw [List.forall_mem_cons] at out
      exact (frame a out.2).trans (rd8_revertStep_other out.1)

/-- A byte put back at plain memory without error marks. -/
theorem revertStep_byte {s : State} {pa : Nat} (clean : s.ecc = []) (ram : mcHolds s pa 1 = false) (old : Byte) (n : Nat) :
    revertStep s (.byte pa, old, n) = (drawFree s).1 ∨ (writesOf s (.byte pa) = n ∧
      revertStep s (.byte pa, old, n) = { (drawFree s).1 with
        mem := wr8 s.mem pa old, writes := tset 0 s.writes (Tgt.byte pa).key (n - 1) }) := by
  unfold revertStep
  dsimp only
  rw [writeTgts_byte (drawFree s).1 pa old clean ram]
  split
  · next put =>
    rw [Bool.and_eq_true, decide_eq_true_eq] at put
    exact .inr ⟨put.2, rfl⟩
  · exact .inl rfl

/-- The bytes that a write names are plain memory's, each named once, without error marks. -/
abbrev plainUndo (s : State) (l : List (Tgt × Byte × Nat)) : Prop :=
  (∀ x ∈ l, ∃ pa, x.1 = .byte pa ∧ mcHolds s pa 1 = false) ∧ (l.map (·.1)).Nodup ∧ s.ecc = []

theorem Tgt.key_byte_inj {a b : Nat} : (Tgt.byte a).key = (Tgt.byte b).key ↔ Tgt.byte a = .byte b := by
  simp [Tgt.key]

/-- Of a write to plain bytes each byte stands, or holds its value from before, where no later write has taken it (R142). -/
theorem rd8_revertBytes {s : State} {l : List (Tgt × Byte × Nat)} (plain : plainUndo s l) (a : Nat) :
    rd8 (revertBytes s l).mem a = rd8 s.mem a ∨
      ∃ x ∈ l, x.1 = .byte a ∧ writesOf s x.1 = x.2.2 ∧ rd8 (revertBytes s l).mem a = x.2.1 := by
  induction l generalizing s with
  | nil => exact .inl rfl
  | cons x l ih =>
    obtain ⟨⟨t, old, n⟩, rfl⟩ : ∃ y, x = y := ⟨x, rfl⟩
    obtain ⟨bytes, once, clean⟩ := plain
    rw [List.forall_mem_cons] at bytes
    obtain ⟨⟨pa, rfl, ram⟩, bytes⟩ := bytes
    rw [List.map_cons, List.nodup_cons] at once
    rw [revertBytes_cons]
    have unnamed : ∀ y ∈ l, ∀ b, y.1 = .byte b → (Tgt.byte b).key ≠ (Tgt.byte pa).key := fun y hy b hb same =>
      by
      have named : y.1 ∈ l.map (·.1) := List.mem_map_of_mem hy
      rw [hb, Tgt.key_byte_inj.1 same] at named
      exact once.1 named
    rcases revertStep_byte clean ram old n with same | ⟨count, put⟩
    · rw [same]
      exact (ih (s := (drawFree s).1) ⟨bytes, once.2, clean⟩).imp_right fun ⟨y, hy, rest⟩ => ⟨y, List.mem_cons_of_mem _ hy, rest⟩
    · rw [put]
      rcases ih (s := { (drawFree s).1 with mem := wr8 s.mem pa old, writes := tset 0 s.writes (Tgt.byte pa).key (n - 1) })
        ⟨bytes, once.2, clean⟩ with same | ⟨y, hy, at_, count', read⟩
      · rw [same, rd8_wr8]
        by_cases here : a = pa
        · rw [if_pos here]
          exact .inr ⟨_, List.mem_cons_self, here ▸ rfl, count, rfl⟩
        · rw [if_neg here]
          exact .inl rfl
      · refine .inr ⟨y, List.mem_cons_of_mem _ hy, at_, ?_, read⟩
        rw [at_, writesOf, tget_tset, if_neg (unnamed y hy a at_), ← writesOf] at count'
        rwa [at_]

/-! ### Events at sync words -/

/-- A timed-out expectation or arrival has been taken, or not (R142). -/
theorem revertSync_event {s : State} {a : Access} {ev : SyncEv}
    (h : (ev = .land ∧ a.kind = .arrive ∧ a.due = 0) ∨ (ev = .expect ∧ a.kind = .expect)) :
    ∃ m w, revertSync s a = { s with mem := m, writes := w, fresh := s.fresh + 1 } ∧
      (m = s.mem ∨ (syncBad s a.pa = false ∧ synced s ev a.pa a.opb.toNat m)) := by
  have choice : revertSync s a =
      if (drawFree s).2.getLsbD 0 then (syncAt (drawFree s).1 ev a.pa a.opb.toNat).1 else (drawFree s).1 := by
    rcases h with ⟨rfl, kind, due⟩ | ⟨rfl, kind⟩ <;> simp [revertSync, *]
  rw [choice]
  split
  · cases state : syncBad s a.pa with
    | true =>
      rw [syncAt_bad (s := (drawFree s).1) state]
      exact ⟨_, _, rfl, .inl rfl⟩
    | false =>
      obtain ⟨m, w, spec, run⟩ := syncAt_good (s := (drawFree s).1) state ev a.opb.toNat
      rw [run]
      exact ⟨m, w, rfl, .inr ⟨rfl, spec⟩⟩
  · exact ⟨_, _, rfl, .inl rfl⟩

/-- The bytes of a counted arrival, as they were before it. -/
def undone (l : List (Tgt × Byte × Nat)) : List (Place × Byte) := l.map fun x => (.one x.1, x.2.1)

theorem rd8_writePlaces_undone {s : State} {l : List (Tgt × Byte × Nat)} (plain : plainUndo s l) :
    ∀ x ∈ l, ∀ pa, x.1 = .byte pa → rd8 (writePlaces s (undone l)).1.mem pa = x.2.1 := by
  obtain ⟨bytes, once, clean⟩ := plain
  let cells : List (Nat × Byte) := l.map fun x => (x.1.pa, x.2.1)
  have cellOf : ∀ x ∈ l, Tgt.byte x.1.pa = x.1 := fun x hx => by
    obtain ⟨pa, at_, -⟩ := bytes x hx
    rw [at_, Tgt.pa]
  have same : undone l = cells.map fun x => (.one (.byte x.1), x.2) := by
    simp only [undone, cells, List.map_map]
    exact List.map_congr_left fun x hx => by simp [cellOf x hx]
  have ram : ∀ x ∈ cells, mcHolds s x.1 1 = false := by
    simp only [cells, List.forall_mem_map]
    intro x hx
    obtain ⟨pa, at_, ram⟩ := bytes x hx
    rwa [at_, Tgt.pa]
  have single : (cells.map (·.1)).Nodup := by
    have named : (cells.map (·.1)).map Tgt.byte = l.map (·.1) := by
      simp only [cells, List.map_map]
      exact List.map_congr_left cellOf
    exact List.Nodup.of_map _ (named ▸ once)
  intro x hx pa at_
  have written := tget_putAll_mem (0 : Byte) Function.injective_id single
    (List.mem_map.2 ⟨x, hx, rfl⟩ : (x.1.pa, x.2.1) ∈ cells) s.mem
  rw [at_, Tgt.pa] at written
  rw [writePlaces, same, putPlaces_bytes clean ram]
  exact written

/-- A timed-out arrival that had been counted is taken back whole, where no later write has taken its sync word, or not (R142). -/
theorem revertSync_counted {s : State} {a : Access} (kind : a.kind = .arrive) (due : a.due ≠ 0) :
    ∃ m e w, revertSync s a = { s with mem := m, ecc := e, writes := w, fresh := s.fresh + 1 } ∧
      (∀ pa, (∀ x ∈ a.undo, pa ∉ footprint (.one x.1)) → rd8 m pa = rd8 s.mem pa) ∧
      (m = s.mem ∨ ((∀ x ∈ a.undo, writesOf s x.1 = x.2.2) ∧
        (plainUndo s a.undo → ∀ x ∈ a.undo, ∀ pa, x.1 = .byte pa → rd8 m pa = x.2.1))) := by
  have choice : revertSync s a = if (drawFree s).2.getLsbD 0 && a.undo.all (fun x => writesOf s x.1 = x.2.2) then
      (writePlaces (drawFree s).1 (undone a.undo)).1 else (drawFree s).1 := by
    simp [revertSync, kind, due, undone, writesOf]
  rw [choice]
  split
  · next taken =>
    simp only [Bool.and_eq_true, List.all_eq_true, decide_eq_true_eq] at taken
    refine ⟨_, _, _, (writePlaces_memStep (drawFree s).1 _).1, fun pa out => ?_, .inr ⟨taken.2, fun plain => ?_⟩⟩
    · refine rd8_writePlaces_other (s := (drawFree s).1) fun y hy => ?_
      obtain ⟨x, hx, rfl⟩ := List.mem_map.1 hy
      exact out x hx
    · exact rd8_writePlaces_undone (s := (drawFree s).1) plain
  · exact ⟨_, _, _, rfl, fun _ _ => rfl, .inl rfl⟩

/-! ### The core that waits no longer -/

/-- A core whose access has timed out: fault 0x1E waits, its results are zeros, and a quota trap counts less (R142, R242). -/
def Core.timedOut (c : Core) (a : Access) : Core :=
  let owed := owedCells (c.pend.filter (fun p => decide (p.acc = a.id)))
  let less (r : TrapReq) : TrapReq := if r.fr.code = 0x08 ∧ r.fr.order = a.order ∧ r.fr.ipc = a.pc then
    { r with fr := { r.fr with detail := r.fr.detail - BitVec.ofNat 64 owed } } else r
  { (without c a.id).addPending (accessRec a 0x1E a.mask) with
    pend := c.pend.map (fun p => if p.acc = a.id then { p with land := p.land.timedOut a, acc := 0 } else p)
    trap := c.trap.map less, deferred := c.deferred.map less }

theorem TrapReq.less_eq (a : Access) (n : Nat) : (fun r : TrapReq => r.less a n) = fun r =>
    if r.fr.code = 0x08 ∧ r.fr.order = a.order ∧ r.fr.ipc = a.pc then
      { r with fr := { r.fr with detail := r.fr.detail - BitVec.ofNat 64 n } } else r := by
  funext r
  unfold TrapReq.less
  simp only [Bool.and_eq_true, decide_eq_true_eq, and_assoc]

section
variable {s : State} {n : Nat} {a : Access} (there : (getCore s n).accs.find? (fun x => x.id = a.id) = some a)
  (remote : a.remote = true)
include there remote

theorem exec_accessTimeout : exec (.remoteTimeout n (.access a.id)) s = .next
    (if a.kind = .expect ∨ a.kind = .arrive then revertSync (setCore s ((getCore s n).timedOut a)) a
    else revertBytes (setCore s ((getCore s n).timedOut a)) a.undo) := by
  have found : (getCore s n).access a.id = some a := there
  have waits : ¬ (!a.remote) = true := by simp [remote]
  have core : (getCore s n).timedOut a = { ((getCore s n).dropAcc a.id).addPending (accRec a 0x1E a.addr 0 a.mask) with
      pend := (getCore s n).pend.map (fun p => if p.acc = a.id then { p with land := p.land.timedOut a, acc := 0 } else p)
      trap := (getCore s n).trap.map (·.less a (owedCells ((getCore s n).pend.filter (fun p => p.acc = a.id))))
      deferred := (getCore s n).deferred.map (·.less a (owedCells ((getCore s n).pend.filter (fun p => p.acc = a.id)))) } := by
    rw [TrapReq.less_eq]
    rfl
  change accessTimeout n a.id s = _
  simp only [accessTimeout, found, if_neg waits, ← core]
  cases a.kind <;> simp

end

theorem mcHolds_setCore (s : State) (c : Core) (pa n : Nat) : mcHolds (setCore s c) pa n = mcHolds s pa n := by
  simp [mcHolds]

theorem writesOf_setCore (s : State) (c : Core) (t : Tgt) : writesOf (setCore s c) t = writesOf s t := by
  simp [writesOf]

theorem plainUndo_setCore {s : State} {c : Core} {l : List (Tgt × Byte × Nat)} (h : plainUndo s l) : plainUndo (setCore s c) l := by
  simpa only [plainUndo, mcHolds_setCore, setCore_ecc] using h

end Sys2Proof.Machine
end

section
/-! What the copy, graft and bank engines leave alone (R264-R284, R342-R363, R366-R385): like the cores, no work of theirs touches a
bed's clock, a die or the platform. -/

namespace Sys2Proof.Machine

/-! ### Runs of accesses -/

/-- What an engine access comes to is of a kind: a value that is `good`, or a state left in part that has P. -/
def ERes.Leaves {α : Type} (P : State → Prop) (good : α → Prop) : ERes α → Prop
  | .ok x => good x
  | .spoilt t _ _ _ => P t
  | .park _ | .fault _ _ _ | .barred => True

/-- It leaves no state in part: nothing was written. -/
abbrev ERes.Reads {α : Type} (x : ERes α) : Prop := x.Leaves (fun _ => False) (fun _ => True)

/-- A state with the beds' clocks, the dies and the platform of s. -/
abbrev State.keeps (s t : State) : Prop := t.clock = s.clock

theorem ERes.leaves_bind {α β : Type} {P : State → Prop} {A : α → Prop} {B : β → Prop} {x : ERes α} {f : α → ERes β}
    (hx : x.Leaves P A) (hf : ∀ a, A a → (f a).Leaves P B) : (x.bind f).Leaves P B := by
  cases x with
  | ok a => exact hf a hx
  | spoilt t c a d => exact hx
  | park v => trivial
  | fault c a d => trivial
  | barred => trivial

theorem ERes.Reads.bind {α β : Type} {P : State → Prop} {B : β → Prop} {x : ERes α} {f : α → ERes β} (hx : x.Reads)
    (hf : ∀ a, (f a).Leaves P B) : (x.bind f).Leaves P B := by
  cases x with
  | ok a => exact hf a
  | spoilt t c a d => exact hx.elim
  | park v => trivial
  | fault c a d => trivial
  | barred => trivial

theorem ERes.Reads.leaves {α : Type} {x : ERes α} (hx : x.Reads) (P : State → Prop) : x.Leaves P (fun _ => True) := by
  cases x with
  | spoilt t c a d => exact hx.elim
  | ok a => trivial
  | park v => trivial
  | fault c a d => trivial
  | barred => trivial

/-- What keeps the clock of a state that keeps that of s keeps that of s. -/
theorem ERes.Leaves.trans {s s1 : State} (h : s.keeps s1) {x : ERes State} (hx : x.Leaves s1.keeps s1.keeps) :
    x.Leaves s.keeps s.keeps := by
  cases x with
  | ok t => exact Eq.trans hx h
  | spoilt t c a d => exact Eq.trans hx h
  | park v => trivial
  | fault c a d => trivial
  | barred => trivial

/-- A run that stops keeps the clock. -/
theorem ERes.ends_clock {α : Type} {s : State} {A : α → Prop} {x : ERes α} (h : x.Leaves s.keeps A) : (x.ends s).1.clock = s.clock := by
  cases x with
  | spoilt t c a d => exact h
  | ok a => rfl
  | park v => rfl
  | fault c a d => rfl
  | barred => rfl

/-! ### Accesses (R244, R245, R252) -/

theorem engPlaces_reads (s : State) (c : Core) (va n : Nat) (wr : Bool) : (engPlaces s c va n wr).Reads := by
  unfold engPlaces
  repeat' split
  all_goals trivial

theorem engRead_reads (s : State) (va : Nat) (ps : List Place) : (engRead s va ps).Reads := by
  unfold engRead
  split <;> trivial

theorem engWrite_leaves (s : State) (va : Nat) (ps : List Place) (bs : List Byte) : (engWrite s va ps bs).Leaves s.keeps s.keeps := by
  unfold engWrite
  dsimp only
  split <;> exact writePlaces_clock _ _

theorem engLoad_reads (s : State) (c : Core) (va n : Nat) : (engLoad s c va n).Reads :=
  (engPlaces_reads ..).bind fun _ => (engRead_reads ..).bind fun _ => trivial

theorem engStore_leaves (s : State) (c : Core) (va n v : Nat) : (engStore s c va n v).Leaves s.keeps s.keeps :=
  (engPlaces_reads ..).bind fun _ => engWrite_leaves ..

theorem tagPlace_reads (s : State) (c : Core) (va : Nat) : (tagPlace s c va).Reads := by
  refine (engPlaces_reads ..).bind fun ps => ?_
  repeat' split
  all_goals trivial

@[simp] theorem syncAt_clock (s : State) (ev : SyncEv) (pa n : Nat) : (syncAt s ev pa n).1.clock = s.clock :=
  (syncAt_memStep s ev pa n).clock

/-! ### The end of a run -/

@[simp] theorem parkEntry_clock (s : State) (n : Nat) (q : EngQ) (e : Entry) (va : Nat) : (parkEntry s n q e va).clock = s.clock :=
  modCore_clock _ _ _

@[simp] theorem endRun_clock (s : State) (n : Nat) (q : EngQ) (e : Entry) (code addr detail : Nat) :
    (endRun s n q e code addr detail).clock = s.clock := modCore_clock _ _ _

theorem settle_clock {s : State} {x : State × Entry × ERes Unit} (h : x.1.clock = s.clock) (n : Nat) (q : EngQ) :
    (settle s n q x).clock = s.clock := by
  unfold settle
  dsimp only
  split <;> simp [h]

/-! ### The copy engine -/

theorem memSide_reads (s : State) (c : Core) (r : Nat) (swz : Bool) (va n : Nat) (wr : Bool) : (memSide s c r swz va n wr).Reads :=
  (engPlaces_reads ..).bind fun _ => trivial

theorem sideRead_reads (s : State) (c : Core) (x : Side) : (sideRead s c x).Reads := by
  unfold sideRead
  split
  · exact engRead_reads ..
  · split <;> trivial

theorem sideVal_reads (s : State) (c : Core) (e b : Nat) (x : Side) : (sideVal s c e b x).Reads :=
  (sideRead_reads ..).bind fun _ => trivial

theorem srcSide_reads (s : State) (c : Core) (i : Instr) (r idx k : Nat) (wr : Bool) : (srcSide s c i r idx k wr).Reads :=
  memSide_reads ..

theorem dstSide_reads (s : State) (c : Core) (i : Instr) (r idx k : Nat) (wr : Bool) : (dstSide s c i r idx k wr).Reads := by
  unfold dstSide
  dsimp only
  split
  · trivial
  · exact memSide_reads ..

theorem elValue_reads (s : State) (c : Core) (i : Instr) (r idx k : Nat) : (elValue s c i r idx k).Reads := by
  unfold elValue
  dsimp only
  split
  · trivial
  · exact (srcSide_reads ..).bind fun _ => (sideVal_reads ..).bind fun _ => trivial

theorem sideWrite_leaves (s : State) (n : Nat) (bs : List Byte) (x : Side) : (sideWrite s n bs x).Leaves s.keeps s.keeps := by
  cases x with
  | mem va ps => exact engWrite_leaves ..
  | slot h o len => exact modCore_clock _ _ _

theorem sidePut_leaves (s : State) (n e b v : Nat) (x : Side) : (sidePut s n e b v x).Leaves s.keeps s.keeps := by
  unfold sidePut
  split
  · exact sideWrite_leaves ..
  · exact (sideRead_reads ..).bind fun _ => sideWrite_leaves ..

theorem copyEl_leaves (s : State) (n : Nat) (i : Instr) (r idx k : Nat) : (copyEl s n i r idx k).Leaves s.keeps s.keeps := by
  unfold copyEl
  dsimp only
  split
  · exact (srcSide_reads ..).bind fun _ => (sideVal_reads ..).bind fun _ => (dstSide_reads ..).bind fun _ =>
      (sideVal_reads ..).bind fun _ => (dstSide_reads ..).bind fun _ =>
      ERes.leaves_bind (sidePut_leaves ..) fun _ kept => (srcSide_reads ..).bind fun _ => (sidePut_leaves ..).trans kept
  · exact (elValue_reads ..).bind fun _ => (dstSide_reads ..).bind fun _ => (sideVal_reads ..).bind fun _ =>
      (dstSide_reads ..).bind fun _ => sidePut_leaves ..
  · exact (elValue_reads ..).bind fun _ => (dstSide_reads ..).bind fun _ => sidePut_leaves ..

theorem cpytRow_leaves (s : State) (n : Nat) (i : Instr) (r k0 : Nat) : (cpytRow s n i r k0).Leaves s.keeps s.keeps := by
  unfold cpytRow
  dsimp only
  refine ERes.Reads.bind ?_ fun l => ?_
  · generalize (List.range (cntOf r 0)).map (k0 + ·) = ks
    induction ks with
    | nil => trivial
    | cons k ks ih => exact (elValue_reads ..).bind fun _ => ERes.Reads.bind ih fun _ => trivial
  · refine List.foldlRecOn _ _ (motive := fun acc : ERes State => acc.Leaves s.keeps s.keeps) rfl ?_
    exact fun acc kept x _ => ERes.leaves_bind kept fun t ht => (dstSide_reads ..).bind fun _ => (sidePut_leaves ..).trans ht

theorem copyEls_clock (s : State) (n : Nat) (i : Instr) (r idx k m : Nat) : (copyEls s n i r idx k m).1.clock = s.clock := by
  induction m generalizing s k with
  | zero => rfl
  | succ m ih =>
    have one := copyEl_leaves s n i r idx k
    unfold copyEls
    split
    · next t ht =>
      rw [ht] at one
      exact (ih t (k + 1)).trans one
    · exact ERes.ends_clock one

theorem copyRow_clock (s : State) (n : Nat) (e : Entry) : (copyRow s n e).1.clock = s.clock := by
  unfold copyRow
  dsimp only
  split
  · have row := cpytRow_leaves s n e.i e.recNat (e.pos / cntOf e.recNat 0 * cntOf e.recNat 0)
    split
    · next t ht =>
      rw [ht] at row
      exact row
    · rfl
  · split
    · exact copyEls_clock ..
    · split
      · exact copyEls_clock ..
      · rfl
  · split
    · exact copyEls_clock ..
    · split
      · exact copyEls_clock ..
      · rfl
  · exact copyEls_clock ..

@[simp] theorem runCopyEntry_clock (s : State) (n : Nat) (e : Entry) : (runCopyEntry s n e).clock = s.clock := by
  have row := copyRow_clock s n e
  unfold runCopyEntry
  dsimp only
  split
  · rfl
  split
  · exact endRun_clock ..
  split
  · split
    · exact (endRun_clock ..).trans row
    · exact settle_clock row _ _
  · exact settle_clock row _ _

/-! ### The graft engine -/

theorem graftEl_leaves (s : State) (n : Nat) (e : Entry) (k : Nat) : (graftEl s n e k).Leaves s.keeps s.keeps := by
  unfold graftEl
  dsimp only
  split
  · exact (engPlaces_reads ..).bind fun _ => (engRead_reads ..).bind fun _ => setCore_clock _ _
  · split
    · trivial
    · exact (engPlaces_reads ..).bind fun _ => engWrite_leaves ..

theorem graftStep_leaves (s : State) (n : Nat) (e : Entry) : (graftStep s n e).Leaves s.keeps s.keeps := by
  unfold graftStep
  split
  · exact graftEl_leaves ..
  · exact graftEl_leaves ..
  · rfl

theorem graftRun_clock (s : State) (n : Nat) (e : Entry) (m : Nat) : (graftRun s n e m).1.clock = s.clock := by
  induction m generalizing s e with
  | zero => rfl
  | succ m ih =>
    have one := graftStep_leaves s n e
    unfold graftRun
    split
    · rfl
    split
    · next t ht =>
      rw [ht] at one
      exact (ih t _).trans one
    · exact ERes.ends_clock one

@[simp] theorem runGraftEntry_clock (s : State) (n : Nat) (e : Entry) : (runGraftEntry s n e).clock = s.clock := by
  have run := graftRun_clock s n e (graftRow (getCore s n) e - e.pos % graftRow (getCore s n) e)
  unfold runGraftEntry
  dsimp only
  split
  · split
    · exact (endRun_clock ..).trans run
    · exact settle_clock run _ _
  · exact settle_clock run _ _

/-! ### The bank engine -/

/-- The state of a piece keeps the clock. -/
abbrev State.keepsFst (s : State) (x : State × Entry) : Prop := x.1.clock = s.clock

theorem bankAtomic_leaves (s : State) (c : Core) (e : Entry) (op : Aop) : (bankAtomic s c e op).Leaves s.keeps s.keepsFst := by
  refine (engPlaces_reads ..).bind fun _ => ?_
  split
  · trivial
  refine (engRead_reads ..).bind fun _ => ?_
  dsimp only
  split
  · rfl
  · exact ERes.leaves_bind (engWrite_leaves ..) fun _ kept => kept

theorem bredEl_reads (s : State) (c : Core) (e : Entry) (f : EregW) (j : Nat) : (bredEl s c e f j).Reads := by
  unfold bredEl
  refine List.foldlRecOn _ _ (motive := fun acc : ERes Nat => acc.Reads) (engLoad_reads ..) ?_
  exact fun acc reads x _ => reads.bind fun _ => (engLoad_reads ..).bind fun _ => trivial

theorem bankEl_leaves (s : State) (n : Nat) (e : Entry) : (bankEl s n e).Leaves s.keeps s.keepsFst := by
  unfold bankEl
  dsimp only
  split
  · split
    · exact (bredEl_reads ..).bind fun _ => rfl
    · exact ERes.leaves_bind (engStore_leaves ..) fun _ kept => kept
  · split
    · exact (engLoad_reads ..).bind fun _ => rfl
    · exact ERes.leaves_bind (engStore_leaves ..) fun _ kept => kept
  · exact (engLoad_reads ..).bind fun _ => ERes.leaves_bind (engStore_leaves ..) fun _ kept => kept
  · exact ERes.leaves_bind (engStore_leaves ..) fun _ kept => kept
  · split
    · exact bankAtomic_leaves ..
    · rfl

theorem bankRun_clock (s : State) (n : Nat) (e : Entry) (m : Nat) : (bankRun s n e m).1.clock = s.clock := by
  induction m generalizing s e with
  | zero => rfl
  | succ m ih =>
    have one := bankEl_leaves s n e
    unfold bankRun
    split
    · rfl
    split
    · next x hx =>
      rw [hx] at one
      exact (ih x.1 x.2).trans one
    · exact ERes.ends_clock one

/-! ### Collective instances (R368, R379, R384) -/

@[simp] theorem bankEnds_clock (s : State) (n : Nat) (e : Entry) (code addr detail : Nat) :
    (bankEnds s n e code addr detail).clock = s.clock := modCore_clock _ _ _

@[simp] theorem dropVote_clock (s : State) (job cgid k : Nat) : (dropVote s job cgid k).clock = s.clock := rfl

@[simp] theorem endOthers_clock (s : State) (job cgid k me detail : Nat) : (endOthers s job cgid k me detail).clock = s.clock := by
  unfold endOthers
  refine clock_foldl (fun t c => ?_) _ _
  repeat' split
  all_goals simp

@[simp] theorem collFault_clock (s : State) (n : Nat) (e : Entry) (x : Coll) (code addr detail : Nat) :
    (collFault s n e x code addr detail).clock = s.clock := by
  unfold collFault
  dsimp only
  repeat' split
  all_goals simp

@[simp] theorem collAdvance_clock (s : State) (job cgid k stage : Nat) : (collAdvance s job cgid k stage).clock = s.clock := by
  unfold collAdvance
  dsimp only
  split
  · exact (clock_foldl (fun _ _ => bankEnds_clock ..) _ _).trans (dropVote_clock ..)
  · refine clock_foldl (fun t p => ?_) _ _
    split <;> simp

@[simp] theorem collSolo_clock (s : State) (n : Nat) (x : Coll) (g : CGroup) (stage : Nat) :
    (collSolo s n x g stage).clock = s.clock := by
  unfold collSolo
  dsimp only
  split
  · split
    · exact setCore_clock _ _
    · exact setCore_clock _ _
  · rfl

theorem collPiece_leaves (s : State) (n : Nat) (x : Coll) (g : CGroup) (e : Entry) :
    (collPiece s n x g e).Leaves s.keeps s.keepsFst := by
  unfold collPiece
  dsimp only
  split
  · exact (engLoad_reads ..).bind fun _ => rfl
  · exact ERes.leaves_bind (engStore_leaves ..) fun _ kept => kept
  · exact (engLoad_reads ..).bind fun _ => rfl
  · refine ERes.leaves_bind (engStore_leaves ..) fun t kept => ?_
    rw [if_pos rfl]
    exact (modCore_clock _ _ _).trans kept
  · exact ERes.leaves_bind (engStore_leaves ..) fun _ kept => kept

theorem collRun_clock (s : State) (n : Nat) (x : Coll) (g : CGroup) (e : Entry) (m : Nat) : (collRun s n x g e m).1.clock = s.clock := by
  induction m generalizing s e with
  | zero => rfl
  | succ m ih =>
    have one := collPiece_leaves s n x g e
    unfold collRun
    split
    · next y hy =>
      rw [hy] at one
      exact (ih y.1 y.2).trans one
    · exact ERes.ends_clock one

theorem collTag_clock (s : State) (n : Nat) (x : Coll) (g : CGroup) : (collTag s n x g).1.clock = s.clock := by
  unfold collTag
  dsimp only
  split
  · rfl
  split
  · rfl
  have reads := tagPlace_reads s (getCore s n) x.tag
  split
  · exact syncAt_clock ..
  · exact ERes.ends_clock (reads.leaves _)

@[simp] theorem runColl_clock (s : State) (n : Nat) (e : Entry) (x : Coll) (g : CGroup) : (runColl s n e x g).clock = s.clock := by
  have tag := collTag_clock s n x g
  have pieces : (if e.shown % 2 = 1 then (s, e, ERes.ok ()) else collRun s n x g e (collPieces x g e - e.pos)).1.clock = s.clock := by
    split
    · rfl
    · exact collRun_clock ..
  unfold runColl
  dsimp only
  generalize (if e.shown % 2 = 1 then (s, e, ERes.ok ()) else collRun s n x g e (collPieces x g e - e.pos)) = y at pieces ⊢
  split
  · split
    · exact (endRun_clock ..).trans tag
    · split <;> simp [tag]
  · split
    · split
      · split <;> simp [pieces]
      · simp [pieces]
    · rfl
    · split <;> simp [pieces]

@[simp] theorem runBankEntry_clock (s : State) (n : Nat) (e : Entry) : (runBankEntry s n e).clock = s.clock := by
  have run := bankRun_clock s n e (bankTotal e)
  unfold runBankEntry
  split
  · split
    · exact runColl_clock ..
    · rfl
  · dsimp only
    split
    · exact (endRun_clock ..).trans run
    · exact settle_clock run _ _

/-! ### Entries that start and go on (R125, R252, R273) -/

@[simp] theorem runEntry_clock (s : State) (n : Nat) (q : EngQ) (e : Entry) : (runEntry s n q e).clock = s.clock := by
  cases q with
  | copy => exact runCopyEntry_clock ..
  | graft => exact runGraftEntry_clock ..
  | bank => exact runBankEntry_clock ..
  | trellis => rfl

@[simp] theorem startStat_clock (s : State) (n : Nat) (q : EngQ) (e : Entry) : (startStat s n q e).clock = s.clock := by
  unfold startStat
  simp

@[simp] theorem beginEntry_clock (s : State) (n : Nat) (q : EngQ) (e : Entry) : (beginEntry s n q e).clock = s.clock := by
  unfold beginEntry
  dsimp only
  repeat' split
  all_goals simp

theorem execEngineEntryStart_clock (n : Nat) (q : EngQ) (s : State) : (after s (execEngineEntryStart n q s)).clock = s.clock := by
  unfold execEngineEntryStart
  dsimp only
  repeat' split
  all_goals simp [after]

theorem execSyncTagPosting_clock (n : Nat) (s : State) : (after s (execSyncTagPosting n s)).clock = s.clock := by
  unfold execSyncTagPosting
  dsimp only
  repeat' split
  all_goals simp [after]

@[simp] theorem goOn_clock (s : State) (n : Nat) (q : EngQ) (e : Entry) : (goOn s n q e).clock = s.clock := by
  change (after s _).clock = s.clock
  split
  · exact execSyncTagPosting_clock ..
  · exact execEngineEntryStart_clock ..

end Sys2Proof.Machine
end

section
/-! An engine entry's access to another package that gets no answer (R142, R252, R267): the entry ends there with fault 0x1E, and
each byte that the access would have written is the written one or as it was. -/

namespace Sys2Proof.Machine
open Sys2Proof.Stmt

/-! ### Accesses to a run of plain bytes (R249, R252) -/

theorem mcHolds_of_plat {s t : State} (h : t.plat = s.plat) (pa n : Nat) : mcHolds t pa n = mcHolds s pa n := by
  rw [mcHolds, mcHolds, h]

/-- Whether a run is plain is a matter of the core's extents and of the platform's page. -/
theorem plainRun_of {s t : State} {c d : Core} (plat : t.plat = s.plat) (extents : d.extents = c.extents) {va n pa : Nat} {wr : Bool}
    (h : plainRun s c va n wr pa) : plainRun t d va n wr pa := by
  unfold plainRun at h ⊢
  simpa only [extents, mcHolds_of_plat plat] using h

/-- An engine access to a run of plain bytes: barred by the gang, cut off, or at these bytes. -/
theorem engPlaces_plainRun {s : State} {c : Core} {va n pa : Nat} {wr : Bool} (run : plainRun s c va n wr pa) (pos : 0 < n) :
    engPlaces s c va n wr = if gangBars s c (plainPlaces pa n) then .barred
      else if c.cut = some (va, wr) && elsewhere s (plainPlaces pa n) then .fault 0x1E va 0 else .ok (plainPlaces pa n) := by
  obtain ⟨x, found, fits, writable, present, plain, direct, rfl, ram⟩ := run
  have one := coreSpans_inside found pos fits
  have span : spanPlaces s wr (x, va - x.vbase, n) = .ok (plainPlaces (x.pbase + (va - x.vbase)) n) :=
    spanPlaces_ok fun i hi => by
      obtain ⟨ok, mem⟩ := ram i hi
      rw [Nat.add_assoc] at ok mem ⊢
      exact placeOf_plain wr plain direct ok mem
  have places : spansPlaces s wr [(x, va - x.vbase, n)] = .ok (plainPlaces (x.pbase + (va - x.vbase)) n) := by
    simp only [spansPlaces, List.foldr_cons, List.foldr_nil, span, List.append_nil]
  have allowed : (wr && !x.wr) = false := by
    cases wr with
    | false => rfl
    | true => simp [writable rfl]
  simp [engPlaces, one, allowed, present, places]

theorem gangBars_of_none {c : Core} (free : c.gang = 0) (s : State) (ps : List Place) : gangBars s c ps = false := by
  simp [gangBars, free]

theorem elsewhere_plainPlaces {s : State} {pa n : Nat} (pos : 0 < n) (far : paPkg pa ≠ s.plat.pkg) :
    elsewhere s (plainPlaces pa n) = true :=
  List.any_eq_true.2 ⟨_, List.mem_map.2 ⟨0, List.mem_range.2 pos, rfl⟩, decide_eq_true far⟩

/-- The access that gets no answer ends in 0x1E. -/
theorem engPlaces_cut {s : State} {c : Core} {va n pa : Nat} {wr : Bool} (run : plainRun s c va n wr pa) (pos : 0 < n)
    (far : paPkg pa ≠ s.plat.pkg) (free : c.gang = 0) (cut : c.cut = some (va, wr)) : engPlaces s c va n wr = .fault 0x1E va 0 := by
  rw [engPlaces_plainRun run pos, gangBars_of_none free, elsewhere_plainPlaces pos far]
  simp [cut]

/-- Any other access finds its bytes. -/
theorem engPlaces_uncut {s : State} {c : Core} {va n pa : Nat} {wr : Bool} (run : plainRun s c va n wr pa) (pos : 0 < n)
    (free : c.gang = 0) (cut : c.cut = none) : engPlaces s c va n wr = .ok (plainPlaces pa n) := by
  rw [engPlaces_plainRun run pos, gangBars_of_none free]
  simp [cut]

/-! ### Bytes written, or as they were (R142) -/

/-- One place of a timed-out write: its byte in t by a free choice, where it lies in another package. -/
def mixStep (t s : State) (p : Place) : State :=
  match readPlace t p with
  | some b => if paPkg p.pa ≠ s.plat.pkg && (drawFree s).2.getLsbD 0 then (writePlaces (drawFree s).1 [(p, b)]).1 else (drawFree s).1
  | none => (drawFree s).1

theorem mixBytes_cons (s t : State) (p : Place) (ps : List Place) : mixBytes s t (p :: ps) = mixBytes (mixStep t s p) t ps := rfl

/-- Either nothing but the count of free values changes, or the byte of t is written, which another package holds. -/
theorem mixStep_cases (t s : State) (p : Place) : mixStep t s p = (drawFree s).1 ∨ ∃ b, readPlace t p = some b ∧
    paPkg p.pa ≠ s.plat.pkg ∧ mixStep t s p = (writePlaces (drawFree s).1 [(p, b)]).1 := by
  unfold mixStep
  split
  · next b read =>
    split
    · next far =>
      rw [Bool.and_eq_true, decide_eq_true_eq] at far
      exact .inr ⟨b, read, far.1, rfl⟩
    · exact .inl rfl
  · exact .inl rfl

theorem mixStep_only (t s : State) (p : Place) : mixStep t s p = { s with
    mem := (mixStep t s p).mem, ecc := (mixStep t s p).ecc, writes := (mixStep t s p).writes, fresh := (mixStep t s p).fresh } := by
  rcases mixStep_cases t s p with same | ⟨b, -, -, written⟩
  · rw [same]
    rfl
  · rw [written, (writePlaces_memStep _ _).1]
    rfl

theorem mixBytes_only (s t : State) (ps : List Place) : ∃ m e w k,
    mixBytes s t ps = { s with mem := m, ecc := e, writes := w, fresh := k } := by
  induction ps generalizing s with
  | nil => exact ⟨_, _, _, _, rfl⟩
  | cons p ps ih =>
    obtain ⟨m, e, w, k, run⟩ := ih (mixStep t s p)
    exact ⟨m, e, w, k, by rw [mixBytes_cons, run, mixStep_only]⟩

theorem rd8_mixStep_other {t s : State} {p : Place} {a : Nat} (out : a ∉ footprint p) :
    rd8 (mixStep t s p).mem a = rd8 s.mem a := by
  rcases mixStep_cases t s p with same | ⟨b, -, -, written⟩
  · rw [same]
    rfl
  · rw [written]
    refine rd8_writePlaces_other (s := (drawFree s).1) fun x hx => ?_
    rwa [List.mem_singleton.1 hx]

theorem rd8_mixBytes_other {s t : State} {ps : List Place} {a : Nat} (out : ∀ p ∈ ps, a ∉ footprint p) :
    rd8 (mixBytes s t ps).mem a = rd8 s.mem a := by
  induction ps generalizing s with
  | nil => rfl
  | cons p ps ih =>
    rw [List.forall_mem_cons] at out
    rw [mixBytes_cons, ih out.2, rd8_mixStep_other out.1]

theorem rd8_of_readPlace_byte {t : State} {pa : Nat} {b : Byte} (h : readPlace t (.one (.byte pa)) = some b) : rd8 t.mem pa = b := by
  simp only [readPlace, readTgt] at h
  split at h
  · cases h
  · exact Option.some.inj h

/-- Each byte is as it was, or that of t, and then another package's. -/
theorem rd8_mixBytes {s t : State} {ps : List Place} (bytes : ∀ p ∈ ps, ∃ pa, p = .one (.byte pa)) (a : Nat) :
    rd8 (mixBytes s t ps).mem a = rd8 s.mem a ∨ (rd8 (mixBytes s t ps).mem a = rd8 t.mem a ∧ paPkg a ≠ s.plat.pkg) := by
  induction ps generalizing s with
  | nil => exact .inl rfl
  | cons p ps ih =>
    rw [List.forall_mem_cons] at bytes
    obtain ⟨⟨pa, rfl⟩, bytes⟩ := bytes
    have plat : (mixStep t s (.one (.byte pa))).plat = s.plat := by rw [mixStep_only]
    rw [mixBytes_cons]
    rcases ih bytes (s := mixStep t s (.one (.byte pa))) with same | there
    · rw [same]
      rcases mixStep_cases t s (.one (.byte pa)) with kept | ⟨b, read, far, written⟩
      · rw [kept]
        exact .inl rfl
      · rw [written]
        rcases rd8_writePlaces_byte (drawFree s).1 pa b a with same | ⟨rfl, is⟩
        · exact .inl same
        · exact .inr ⟨is.trans (rd8_of_readPlace_byte read).symm, far⟩
    · rw [plat] at there
      exact .inr there

/-! ### The entry that ends -/

/-- The state in which the head of a queue has gone on with one access cut off. -/
def cutOff (s : State) (n : Nat) (q : EngQ) (e : Entry) (va : Nat) (wr : Bool) : State :=
  modCore (goOn (modCore s n (fun c => { c with cut := some (va, wr) })) n q e) n (fun c => { c with cut := none })

theorem cutOff_clock (s : State) (n : Nat) (q : EngQ) (e : Entry) (va : Nat) (wr : Bool) :
    (cutOff s n q e va wr).clock = s.clock := by
  rw [cutOff, modCore_clock, goOn_clock, modCore_clock]

/-- The entry that ended, once more at the step that it ended in. -/
def Entry.again (f : Entry) : Entry := { f with ph := .running, code := 0, out := [] }

section
variable {s : State} {n : Nat} {q : EngQ} {e : Entry} (head : ((getCore s n).queue q).es.head? = some e) (moves : q ≠ .trellis)
  (goes : e.ph = .running ∨ e.ph = .waiting) {va : Nat} {wr : Bool}
include head moves goes

/-- An entry that does not end in 0x1E makes no such access: nothing happens. -/
theorem exec_entryTimeout_none (other : ∀ f, ((getCore (cutOff s n q e va wr) n).queue q).es.head? = some f →
    ¬ (f.ph = .pushing ∧ f.code = 0x1E)) : exec (.remoteTimeout n (.entry q va wr)) s = .next s := by
  have at_ : (getCore s n).head q = some e := head
  have runs : ¬ ((e.ph ≠ .running ∧ e.ph ≠ .waiting) ∨ q = .trellis) := by tauto
  change entryTimeout n q va wr s = _
  simp only [entryTimeout, at_, if_neg runs]
  rw [← cutOff]
  cases after : (getCore (cutOff s n q e va wr) n).head q with
  | none => rfl
  | some f =>
    have ends := other f after
    exact if_pos (by tauto)

variable {f : Entry} (after : ((getCore (cutOff s n q e va wr) n).queue q).es.head? = some f) (ended : f.ph = .pushing ∧ f.code = 0x1E)
include after ended

theorem exec_entryTimeout_ended : exec (.remoteTimeout n (.entry q va wr)) s =
    if !wr then .next (cutOff s n q e va wr)
    else
      let x := oneStep (modCore (cutOff s n q e va wr) n (fun c => c.setHead q f.again)) n q f.again
      .next (mixBytes (cutOff s n q e va wr) x.1 (cutPlaces (cutOff s n q e va wr) n q f.again va x.2)) := by
  have at_ : (getCore s n).head q = some e := head
  have then_ : (getCore (cutOff s n q e va wr) n).head q = some f := after
  have runs : ¬ ((e.ph ≠ .running ∧ e.ph ≠ .waiting) ∨ q = .trellis) := by tauto
  have stops : ¬ (f.ph ≠ .pushing ∨ f.code ≠ 0x1E) := by tauto
  change entryTimeout n q va wr s = _
  simp only [entryTimeout, at_, if_neg runs]
  rw [← cutOff]
  simp only [then_, if_neg stops]
  rfl

end

/-! ### A copy or a fill in the bank engine (R381) -/

/-- A copy's or a fill's words as it ends: a status word where it asks for one (R366). -/
def statWords (e : Entry) (f : EregW) (code : Nat) : List Word :=
  if f.md.testBit 3 then [BitVec.ofNat 64 (e.seq + code * 2 ^ 32)] else []

/-- The state in which the head of a core's bank queue, a copy or a fill, has ended in 0x1E at an address. -/
def bankTimedOut (s : State) (n : Nat) (e : Entry) (f : EregW) (va : Nat) : State :=
  let h := endedAs e 0x1E va 0 (statWords e f 0x1E)
  { setCore s (((getCore s n).setHead .bank h).addPending (entryFault .bank h)) with lsc := unlogged s n .bank e }

/-- An entry that copies or fills in the bank engine, f its fields. -/
abbrev copiesOrFills (e : Entry) (f : EregW) : Prop := e.i = .bcopy f ∨ e.i = .bfill f

theorem bankWords_of_copiesOrFills {e : Entry} {f : EregW} (kind : copiesOrFills e f) (c : Core) (code : Nat) :
    bankWords c e code = statWords e f code := by
  rcases kind with h | h <;> simp [bankWords, h, bankResults, bankStat, statWords]

theorem coll_of_copiesOrFills {e : Entry} {f : EregW} (kind : copiesOrFills e f) : e.coll = none := by
  rcases kind with h | h <;> simp [Entry.coll, h]

theorem bankTotal_of_copiesOrFills {e : Entry} {f : EregW} (kind : copiesOrFills e f) : bankTotal e = e.c.toNat / 8 := by
  rcases kind with h | h <;> simp [bankTotal, h]

/-- A running entry of the bank engine goes on, whatever holds the other engines. -/
theorem goOn_bank {s : State} {n : Nat} {e : Entry} (head : (getCore s n).bq.es.head? = some e) (running : e.ph = .running) :
    goOn s n .bank e = runBankEntry s n e := by
  have at_ : (getCore s n).head .bank = some e := head
  have free : engineHeld s n .bank = false := by simp [engineHeld]
  simp [goOn, execEngineEntryStart, at_, running, free, runEntry]

/-- An entry whose next piece faults ends there. -/
theorem runBankEntry_fault {s : State} {n : Nat} {e : Entry} {code addr detail : Nat} (alone : e.coll = none)
    (more : e.pos < bankTotal e) (stops : bankEl s n e = .fault code addr detail) :
    runBankEntry s n e = endRun (modCore s n (fun c => c.setHead .bank e)) n .bank e code addr detail := by
  obtain ⟨m, total⟩ : ∃ m, bankTotal e = m + 1 := ⟨bankTotal e - 1, by omega⟩
  have run : bankRun s n e (bankTotal e) = (s, e, .fault code addr detail) := by
    rw [total, bankRun, if_neg (by omega), stops]
    rfl
  simp [runBankEntry, alone, run, settle]

/-- The fault of a bank entry joins those that wait (R176). -/
theorem Core.endHead_bank {c : Core} (lives : c.run ≠ .ended) (e : Entry) {code : Nat} (fails : code ≠ 0) (addr detail : Nat)
    (out : List Word) : c.endHead .bank e code addr detail out =
      (c.setHead .bank (endedAs e code addr detail out)).addPending (Stmt.entryFault .bank (endedAs e code addr detail out)) := by
  have run : (c.setHead .bank (e.ends code addr detail out)).run ≠ .ended := lives
  rw [Core.endHead, if_neg fails, Core.entryFault]
  split
  · next ended => exact absurd ended run
  · rfl

theorem modCore_setCore_same {c : Core} {f : Core → Core} {n : Nat} (num : c.num = n) (keeps : (f c).num = c.num) (s : State) :
    modCore (setCore s c) n f = setCore s (f c) := num ▸ modCore_setCore keeps s

/-- The end of a bank entry in a fault, on a core just put in place. -/
theorem endRun_bank {c : Core} {n : Nat} (num : c.num = n) (lives : c.run ≠ .ended) (s : State) (e : Entry) {code : Nat}
    (fails : code ≠ 0) (addr detail : Nat) : endRun (setCore s c) n .bank e code addr detail =
      let h := endedAs e code addr detail (bankWords c e code)
      { setCore s ((c.setHead .bank h).addPending (Stmt.entryFault .bank h)) with lsc := unlogged s n .bank e } := by
  have ended := Core.endHead_bank lives e fails addr detail (endWords c .bank e code)
  have keeps : (c.endHead .bank e code addr detail (endWords c .bank e code)).num = c.num := by
    rw [ended, Core.addPending_num, Core.setHead_num]
  unfold endRun
  dsimp only
  rw [modCore_setCore_same num keeps, ended, setCore_lsc]
  rfl

theorem getCore_lsc (s : State) (l : Lsc) (n : Nat) : getCore { s with lsc := l } n = getCore s n := rfl

theorem setCore_lsc_update (s : State) (l : Lsc) (c : Core) : setCore { s with lsc := l } c = { setCore s c with lsc := l } := by
  unfold setCore
  split <;> rfl

theorem modCore_lsc (s : State) (l : Lsc) (n : Nat) (f : Core → Core) :
    modCore { s with lsc := l } n f = { modCore s n f with lsc := l } := by
  rw [modCore, setCore_lsc_update, getCore_lsc, ← modCore]

/-- A core with one engine access cut off. -/
def Core.cutting (c : Core) (x : Option (Nat × Bool)) : Core := { c with cut := x }

theorem Core.cutting_num (c : Core) (x : Option (Nat × Bool)) : (c.cutting x).num = c.num := rfl

/-- An end in a fault does not depend on the access cut off. -/
theorem Core.cutting_end (c : Core) (x : Option (Nat × Bool)) (e h : Entry) (r : FaultRec) (cut : c.cut = none) :
    ((((c.cutting x).setHead .bank e).setHead .bank h).addPending r).cutting none = (c.setHead .bank h).addPending r := by
  have same : c.cutting none = c := by rw [← cut]; rfl
  conv_rhs => rw [← same]
  rfl

/-- The core whose next access at va is cut off. -/
def cutCore (s : State) (n : Nat) (va : Nat) (wr : Bool) : Core := (getCore s n).cutting (some (va, wr))

theorem cutCore_num (s : State) (n va : Nat) (wr : Bool) : (cutCore s n va wr).num = n := getCore_num s n

theorem cutOff_eq (s : State) (n : Nat) (q : EngQ) (e : Entry) (va : Nat) (wr : Bool) :
    cutOff s n q e va wr = modCore (goOn (setCore s (cutCore s n va wr)) n q e) n (fun c => c.cutting none) := rfl

theorem getCore_cutCore (s : State) (n va : Nat) (wr : Bool) : getCore (setCore s (cutCore s n va wr)) n = cutCore s n va wr := by
  rw [getCore_setCore]
  exact if_pos (cutCore_num s n va wr)

section
variable {s : State} {n : Nat} {e : Entry} {f : EregW} {va pa : Nat} (far : paPkg pa ≠ s.plat.pkg) (free : (getCore s n).gang = 0)
include far free

/-- A copy's load from another package is the access cut off. -/
theorem bankEl_bcopy_cut (copies : e.i = .bcopy f) (at_ : va = (e.b.toNat + 8 * e.pos) % 2 ^ 64)
    (run : plainRun s (getCore s n) va 8 false pa) :
    bankEl (setCore s (cutCore s n va false)) n e = .fault 0x1E va 0 := by
  have stops := engPlaces_cut (s := setCore s (cutCore s n va false)) (c := cutCore s n va false)
    (plainRun_of (setCore_plat _ _) rfl run) (by decide) (by rwa [setCore_plat]) free rfl
  simp only [bankEl, copies, getCore_cutCore, ← at_, engLoad, stops]
  rfl

/-- A fill's store to another package is the access cut off. -/
theorem bankEl_bfill_cut (fills : e.i = .bfill f) (at_ : va = (e.a.toNat + 8 * e.pos) % 2 ^ 64)
    (run : plainRun s (getCore s n) va 8 true pa) :
    bankEl (setCore s (cutCore s n va true)) n e = .fault 0x1E va 0 := by
  have stops := engPlaces_cut (s := setCore s (cutCore s n va true)) (c := cutCore s n va true)
    (plainRun_of (setCore_plat _ _) rfl run) (by decide) (by rwa [setCore_plat]) free rfl
  simp only [bankEl, fills, getCore_cutCore, ← at_, engStore, stops]
  rfl

end

section
variable {s : State} {n : Nat} {e : Entry} {f : EregW} (head : (getCore s n).bq.es.head? = some e) (running : e.ph = .running)
  (more : e.pos < e.c.toNat / 8) (kind : copiesOrFills e f) (lives : (getCore s n).run ≠ .ended) (cut : (getCore s n).cut = none)
include head running more kind lives cut

/-- A copy or fill whose next access is the one cut off has ended there in 0x1E. -/
theorem cutOff_bank {va : Nat} {wr : Bool} (stops : bankEl (setCore s (cutCore s n va wr)) n e = .fault 0x1E va 0) :
    cutOff s n .bank e va wr = bankTimedOut s n e f va := by
  have core := getCore_cutCore s n va wr
  have num := cutCore_num s n va wr
  have goes := goOn_bank (s := setCore s (cutCore s n va wr)) (n := n) (by rw [core]; exact head) running
  have faults := runBankEntry_fault (coll_of_copiesOrFills kind) (by rwa [bankTotal_of_copiesOrFills kind]) stops
  have start := modCore_setCore_same (f := fun c => c.setHead .bank e) num (Core.setHead_num _ _ _) s
  have ends := endRun_bank (c := (cutCore s n va wr).setHead .bank e) (n := n) ((Core.setHead_num _ _ _).trans num) lives s e
    (code := 0x1E) (by decide) va 0
  rw [bankWords_of_copiesOrFills kind] at ends
  rw [cutOff_eq, goes, faults, start, ends]
  dsimp only
  rw [modCore_lsc, modCore_setCore_same (((Core.addPending_num _ _).trans ((Core.setHead_num _ _ _).trans
    ((Core.setHead_num _ _ _).trans num)))) (Core.cutting_num _ _), cutCore, Core.cutting_end _ _ _ _ _ cut]
  rfl

end

/-- The core after its bank entry has ended: its head is the ended entry. -/
theorem getCore_bankTimedOut (s : State) (n : Nat) (e : Entry) (f : EregW) (va : Nat) :
    getCore (bankTimedOut s n e f va) n = ((getCore s n).setHead .bank (endedAs e 0x1E va 0 (statWords e f 0x1E))).addPending
      (entryFault .bank (endedAs e 0x1E va 0 (statWords e f 0x1E))) := by
  rw [bankTimedOut, getCore_lsc, getCore_setCore]
  refine if_pos ?_
  rw [Core.addPending_num, Core.setHead_num, getCore_num]

theorem head_bankTimedOut (s : State) (n : Nat) (e : Entry) (f : EregW) (va : Nat) :
    ((getCore (bankTimedOut s n e f va) n).queue .bank).es.head? = some (endedAs e 0x1E va 0 (statWords e f 0x1E)) := by
  rw [getCore_bankTimedOut]
  rfl

theorem bankTimedOut_only (s : State) (n : Nat) (e : Entry) (f : EregW) (va : Nat) :
    (bankTimedOut s n e f va).mem = s.mem ∧ (bankTimedOut s n e f va).ecc = s.ecc ∧ (bankTimedOut s n e f va).plat = s.plat ∧
      (bankTimedOut s n e f va).fresh = s.fresh := by
  simp [bankTimedOut]

/-! ### The bytes of a plain write that timed out (R142) -/

section
variable {t : State} (marks : t.ecc = [])
include marks

theorem mixStep_byte {s : State} {pa : Nat} (clean : s.ecc = []) (ram : mcHolds s pa 1 = false) (far : paPkg pa ≠ s.plat.pkg) :
    ∃ w, mixStep t s (.one (.byte pa)) = { s with
      mem := if (Config.freeValue s.fresh).getLsbD 0 then wr8 s.mem pa (rd8 t.mem pa) else s.mem
      writes := w, fresh := s.fresh + 1 } := by
  have put := putPlaces_bytes (s := (drawFree s).1) (l := [(pa, rd8 t.mem pa)]) clean
    fun x hx => by
      rw [List.mem_singleton.1 hx]
      exact ram
  have choice : mixStep t s (.one (.byte pa)) = if (Config.freeValue s.fresh).getLsbD 0 then
      (writePlaces (drawFree s).1 [(.one (.byte pa), rd8 t.mem pa)]).1 else (drawFree s).1 := by
    have there : paPkg (Place.pa (.one (.byte pa))) ≠ s.plat.pkg := far
    rw [mixStep, readPlace_byte marks]
    simp [there, drawFree]
  rw [choice]
  split
  · rw [writePlaces]
    simp only [List.map_cons, List.map_nil] at put
    rw [put]
    exact ⟨_, rfl⟩
  · exact ⟨_, rfl⟩

/-- Of n plain bytes in another package each is that of t by a free choice of its own, or as it was; no other changes. -/
theorem mixBytes_plainPlaces {s : State} {pa n : Nat} (clean : s.ecc = []) (ram : ∀ i < n, mcHolds s (pa + i) 1 = false)
    (far : ∀ i < n, paPkg (pa + i) ≠ s.plat.pkg) :
    ∃ m w, mixBytes s t (plainPlaces pa n) = { s with mem := m, writes := w, fresh := s.fresh + n } ∧
      (∀ p, p < pa ∨ pa + n ≤ p → rd8 m p = rd8 s.mem p) ∧
      ∀ i < n, rd8 m (pa + i) = if (Config.freeValue (s.fresh + i)).getLsbD 0 then rd8 t.mem (pa + i) else rd8 s.mem (pa + i) := by
  induction n generalizing s pa with
  | zero => exact ⟨_, _, rfl, fun _ _ => rfl, fun _ hi => absurd hi (Nat.not_lt_zero _)⟩
  | succ n ih =>
    have next (i : Nat) : pa + 1 + i = pa + (i + 1) := by omega
    obtain ⟨v, first⟩ := mixStep_byte marks clean (ram 0 (by omega)) (far 0 (by omega))
    rw [Nat.add_zero] at first
    obtain ⟨m, w, run, frame, each⟩ := ih (s := mixStep t s (.one (.byte pa))) (pa := pa + 1) (by rw [first]; exact clean)
      (fun i hi => by rw [first, next]; exact ram (i + 1) (by omega)) (fun i hi => by rw [first, next]; exact far (i + 1) (by omega))
    have fresh : (mixStep t s (.one (.byte pa))).fresh = s.fresh + 1 := by rw [first]
    have step (p : Nat) : rd8 (mixStep t s (.one (.byte pa))).mem p =
        if p = pa then if (Config.freeValue s.fresh).getLsbD 0 then rd8 t.mem pa else rd8 s.mem pa else rd8 s.mem p := by
      rw [first]
      dsimp only
      split <;> split <;> simp_all [rd8_wr8]
    refine ⟨m, w, ?_, fun p out => ?_, fun i hi => ?_⟩
    · rw [plainPlaces_succ, mixBytes_cons, run, first]
      simp only [Nat.add_assoc, Nat.add_comm 1]
    · rw [frame p (by omega), step, if_neg (by omega)]
    · cases i with
      | zero => rw [Nat.add_zero, Nat.add_zero, frame pa (by omega), step, if_pos rfl]
      | succ i =>
        have here := each i (by omega)
        rw [next, fresh, Nat.add_assoc, Nat.add_comm 1, step, if_neg (c := pa + (i + 1) = pa) (by omega)] at here
        exact here

end

/-- A store of an engine to plain memory, which no timeout and no gang holds. -/
theorem engStore_plainRun {s : State} {c : Core} {va n pa : Nat} (run : plainRun s c va n true pa) (pos : 0 < n) (free : c.gang = 0)
    (cut : c.cut = none) (clean : s.ecc = []) (v : Nat) :
    ∃ w, engStore s c va n v = .ok { s with mem := wrN s.mem pa (leBytes n v), writes := w } := by
  have ram : ∀ i < n, mcHolds s (pa + i) 1 = false := by
    obtain ⟨x, -, -, -, -, -, -, -, ram⟩ := run
    exact fun i hi => (ram i hi).2
  obtain ⟨w, put⟩ := writeAt_bytes v clean ram
  rw [writeAt, List.length_map, List.length_range, ← plainPlaces] at put
  rw [engStore, engPlaces_uncut run pos free cut, ERes.bind, engWrite, put]
  exact ⟨w, rfl⟩

/-- A fill's next piece: eight bytes of B. -/
theorem bankEl_bfill {s : State} {n : Nat} {e : Entry} {f : EregW} {pa : Nat} (fills : e.i = .bfill f)
    (run : plainRun s (getCore s n) ((e.a.toNat + 8 * e.pos) % 2 ^ 64) 8 true pa) (free : (getCore s n).gang = 0)
    (cut : (getCore s n).cut = none) (clean : s.ecc = []) : ∃ w g,
      bankEl s n e = .ok ({ s with mem := wrN s.mem pa (leBytes 8 e.b.toNat), writes := w }, g) := by
  obtain ⟨w, stored⟩ := engStore_plainRun run (by decide) free cut clean e.b.toNat
  simp only [bankEl, fills, stored, ERes.bind]
  exact ⟨_, _, rfl⟩

theorem oneStep_bfill {s : State} {n : Nat} {e : Entry} {f : EregW} {pa : Nat} (fills : e.i = .bfill f)
    (run : plainRun s (getCore s n) ((e.a.toNat + 8 * e.pos) % 2 ^ 64) 8 true pa) (free : (getCore s n).gang = 0)
    (cut : (getCore s n).cut = none) (clean : s.ecc = []) : ∃ w,
      oneStep s n .bank e = ({ s with mem := wrN s.mem pa (leBytes 8 e.b.toNat), writes := w }, 8) := by
  obtain ⟨w, g, piece⟩ := bankEl_bfill fills run free cut clean
  have alone := coll_of_copiesOrFills (.inr fills)
  have eight : bankSpan e = 8 := by simp [bankSpan, alone, fills, batomOp]
  refine ⟨w, ?_⟩
  simp only [oneStep, alone, piece, eight, ERes.bind]

theorem placesOf_plainRun {s : State} {c : Core} {va n pa : Nat} {wr : Bool} (run : plainRun s c va n wr pa) (pos : 0 < n) :
    placesOf s c va n wr = plainPlaces pa n := by
  obtain ⟨x, found, fits, -, -, plain, direct, rfl, ram⟩ := run
  exact placesOf_plain wr found pos fits plain direct ram

theorem cutPlaces_bank (s : State) (n : Nat) (e : Entry) (va len : Nat) :
    cutPlaces s n .bank e va len = placesOf s (getCore s n) va len true := by
  simp [cutPlaces]

/-- The state in which the ended entry stands once more at the step that it ended in. -/
def bankAgain (s : State) (n : Nat) (e : Entry) (f : EregW) (va : Nat) : State :=
  modCore (bankTimedOut s n e f va) n fun c => c.setHead .bank (endedAs e 0x1E va 0 (statWords e f 0x1E)).again

theorem bankAgain_only (s : State) (n : Nat) (e : Entry) (f : EregW) (va : Nat) :
    (bankAgain s n e f va).mem = s.mem ∧ (bankAgain s n e f va).ecc = s.ecc ∧ (bankAgain s n e f va).plat = s.plat := by
  simp [bankAgain, modCore, bankTimedOut_only]

theorem Core.setHead_extents (c : Core) (q : EngQ) (e : Entry) : (c.setHead q e).extents = c.extents := by cases q <;> rfl

theorem Core.setHead_gang (c : Core) (q : EngQ) (e : Entry) : (c.setHead q e).gang = c.gang := by cases q <;> rfl

theorem Core.setHead_cut (c : Core) (q : EngQ) (e : Entry) : (c.setHead q e).cut = c.cut := by cases q <;> rfl

theorem getCore_bankAgain (s : State) (n : Nat) (e : Entry) (f : EregW) (va : Nat) :
    (getCore (bankAgain s n e f va) n).extents = (getCore s n).extents ∧
      (getCore (bankAgain s n e f va) n).gang = (getCore s n).gang ∧ (getCore (bankAgain s n e f va) n).cut = (getCore s n).cut := by
  have core : getCore (bankAgain s n e f va) n = (getCore (bankTimedOut s n e f va) n).setHead .bank
      (endedAs e 0x1E va 0 (statWords e f 0x1E)).again := getCore_modCore_same (Core.setHead_num _ _ _)
  rw [core, getCore_bankTimedOut, Core.addPending_only]
  simp only [Core.setHead_extents, Core.setHead_gang, Core.setHead_cut, and_self]

section
variable {s : State} {n : Nat} {e : Entry} {f : EregW} {va pa : Nat} (head : (getCore s n).bq.es.head? = some e)
  (running : e.ph = .running) (more : e.pos < e.c.toNat / 8) (free : (getCore s n).gang = 0) (cut : (getCore s n).cut = none)
  (lives : (getCore s n).run ≠ .ended)
include head running more free cut lives

/-- A copy's load that gets no answer ends the entry. -/
theorem exec_bcopyTimeout (copies : e.i = .bcopy f) (at_ : va = (e.b.toNat + 8 * e.pos) % 2 ^ 64)
    (run : plainRun s (getCore s n) va 8 false pa) (far : paPkg pa ≠ s.plat.pkg) :
    exec (.remoteTimeout n (.entry .bank va false)) s = .next (bankTimedOut s n e f va) := by
  have state := cutOff_bank head running more (.inl copies) lives cut (bankEl_bcopy_cut far free copies at_ run)
  have ends := head_bankTimedOut s n e f va
  rw [← state] at ends
  rw [exec_entryTimeout_ended (q := .bank) head (by decide) (.inl running) ends ⟨rfl, rfl⟩, state]
  rfl

/-- A fill's store that gets no answer ends the entry; each of its bytes is written, or as it was. -/
theorem exec_bfillTimeout (fills : e.i = .bfill f) (at_ : va = (e.a.toNat + 8 * e.pos) % 2 ^ 64)
    (run : plainRun s (getCore s n) va 8 true pa) (far : ∀ i < 8, paPkg (pa + i) ≠ s.plat.pkg) (clean : s.ecc = []) :
    ∃ m w, exec (.remoteTimeout n (.entry .bank va true)) s =
        .next { bankTimedOut s n e f va with mem := m, writes := w, fresh := s.fresh + 8 } ∧
      (∀ p, p < pa ∨ pa + 8 ≤ p → rd8 m p = rd8 s.mem p) ∧
      ∀ i < 8, rd8 m (pa + i) = if (Config.freeValue (s.fresh + i)).getLsbD 0 then BitVec.ofNat 8 (e.b.toNat / 256 ^ i)
        else rd8 s.mem (pa + i) := by
  have state := cutOff_bank head running more (.inr fills) lives cut (bankEl_bfill_cut (far 0 (by decide)) free fills at_ run)
  have ends := head_bankTimedOut s n e f va
  rw [← state] at ends
  have result := exec_entryTimeout_ended (q := .bank) head (by decide) (.inl running) ends ⟨rfl, rfl⟩
  obtain ⟨mem, ecc, plat, fresh⟩ := bankTimedOut_only s n e f va
  have core := getCore_bankTimedOut s n e f va
  obtain ⟨mem2, ecc2, plat2⟩ := bankAgain_only s n e f va
  obtain ⟨extents, gang, cut2⟩ := getCore_bankAgain s n e f va
  obtain ⟨x, step⟩ := oneStep_bfill (s := bankAgain s n e f va) (n := n) (e := (endedAs e 0x1E va 0 (statWords e f 0x1E)).again)
    fills (plainRun_of plat2 extents (at_ ▸ run)) (gang.trans free) (cut2.trans cut) (ecc2.trans clean)
  have places : cutPlaces (bankTimedOut s n e f va) n .bank (endedAs e 0x1E va 0 (statWords e f 0x1E)).again va 8 =
      plainPlaces pa 8 := by
    rw [cutPlaces_bank, placesOf_plainRun (plainRun_of plat (by rw [core]; rfl) run) (by decide)]
  have ram : ∀ i < 8, mcHolds (bankTimedOut s n e f va) (pa + i) 1 = false := by
    obtain ⟨x, -, -, -, -, -, -, -, ram⟩ := run
    exact fun i hi => (mcHolds_of_plat plat _ _).trans (ram i hi).2
  obtain ⟨m, w, mixed, frame, each⟩ := mixBytes_plainPlaces
    (t := { bankAgain s n e f va with mem := wrN (bankAgain s n e f va).mem pa (leBytes 8 e.b.toNat), writes := x })
    (ecc2.trans clean) (ecc.trans clean) ram (by rwa [plat])
  rw [fresh] at mixed each
  refine ⟨m, w, ?_, by rwa [mem] at frame, fun i hi => ?_⟩
  · rw [result, state, if_neg (by decide)]
    dsimp only
    rw [← bankAgain, step, places]
    exact congrArg Host.Outcome.next mixed
  · rw [each i hi, mem]
    dsimp only
    rw [rd8_wrN_leBytes, if_pos (c := pa ≤ pa + i ∧ pa + i < pa + 8) (by omega), Nat.add_sub_cancel_left]

end

/-! ### The statement -/

theorem syncBad_setCore (s : State) (c : Core) (pa : Nat) : syncBad (setCore s c) pa = syncBad s pa := by
  simp [syncBad]

theorem synced_setCore (s : State) (c : Core) (ev : SyncEv) (pa n : Nat) (m : List Host.Cell) :
    synced (setCore s c) ev pa n m ↔ synced s ev pa n m := by
  unfold synced
  rw [setCore_mem]

section
variable {s : State} {n : Nat} {a : Access} (there : (getCore s n).accs.find? (fun x => x.id = a.id) = some a)
  (remote : a.remote = true)
include there remote

/-- An access that writes bytes, or none. -/
theorem exec_accessTimeout_bytes (noExpect : a.kind ≠ .expect) (noArrive : a.kind ≠ .arrive) :
    ∃ m e w, exec (.remoteTimeout n (.access a.id)) s = .next { setCore s ((getCore s n).timedOut a) with
        mem := m, ecc := e, writes := w, fresh := s.fresh + a.undo.length } ∧
      (∀ pa, (∀ x ∈ a.undo, pa ∉ footprint (.one x.1)) → rd8 m pa = rd8 s.mem pa) ∧
      (plainUndo s a.undo → ∀ pa, rd8 m pa = rd8 s.mem pa ∨
        ∃ x ∈ a.undo, x.1 = .byte pa ∧ writesOf s x.1 = x.2.2 ∧ rd8 m pa = x.2.1) := by
  obtain ⟨m, e, w, run, frame⟩ := revertBytes_spec (setCore s ((getCore s n).timedOut a)) a.undo
  simp only [setCore_mem, setCore_fresh] at run frame
  refine ⟨m, e, w, ?_, frame, fun plain pa => ?_⟩
  · rw [exec_accessTimeout there remote, if_neg (by tauto), run]
  · have each := rd8_revertBytes (plainUndo_setCore (c := (getCore s n).timedOut a) plain) pa
    simpa only [run, setCore_mem, writesOf_setCore] using each

/-- An expectation, or an arrival that has not been counted. -/
theorem exec_accessTimeout_event {ev : SyncEv}
    (kind : (ev = .land ∧ a.kind = .arrive ∧ a.due = 0) ∨ (ev = .expect ∧ a.kind = .expect)) :
    ∃ m w, exec (.remoteTimeout n (.access a.id)) s = .next { setCore s ((getCore s n).timedOut a) with
        mem := m, writes := w, fresh := s.fresh + 1 } ∧
      (m = s.mem ∨ (syncBad s a.pa = false ∧ synced s ev a.pa a.opb.toNat m)) := by
  obtain ⟨m, w, run, state⟩ := revertSync_event (s := setCore s ((getCore s n).timedOut a)) kind
  simp only [setCore_mem, setCore_fresh, syncBad_setCore, synced_setCore] at run state
  exact ⟨m, w, by rw [exec_accessTimeout there remote, if_pos (by tauto), run], state⟩

/-- An arrival that has been counted. -/
theorem exec_accessTimeout_counted (kind : a.kind = .arrive) (due : a.due ≠ 0) :
    ∃ m e w, exec (.remoteTimeout n (.access a.id)) s = .next { setCore s ((getCore s n).timedOut a) with
        mem := m, ecc := e, writes := w, fresh := s.fresh + 1 } ∧
      (∀ pa, (∀ x ∈ a.undo, pa ∉ footprint (.one x.1)) → rd8 m pa = rd8 s.mem pa) ∧
      (m = s.mem ∨ ((∀ x ∈ a.undo, writesOf s x.1 = x.2.2) ∧
        (plainUndo s a.undo → ∀ x ∈ a.undo, ∀ pa, x.1 = .byte pa → rd8 m pa = x.2.1))) := by
  obtain ⟨m, e, w, run, frame, back⟩ := revertSync_counted (s := setCore s ((getCore s n).timedOut a)) kind due
  simp only [setCore_mem, setCore_fresh, writesOf_setCore] at run frame back
  refine ⟨m, e, w, ?_, frame, back.imp_right fun ⟨counts, each⟩ => ⟨counts, fun plain => each (plainUndo_setCore plain)⟩⟩
  rw [exec_accessTimeout there remote, if_pos (.inr kind), run]

end

section
variable {s : State} {n : Nat} {q : EngQ} {e : Entry} {va : Nat} (head : ((getCore s n).queue q).es.head? = some e)
  (moves : q ≠ .trellis) (goes : e.ph = .running ∨ e.ph = .waiting)
include head moves goes

/-- What the write of an ended entry has left. -/
theorem exec_entryTimeout_mixed {f : Entry} (after : ((getCore (cutOff s n q e va true) n).queue q).es.head? = some f)
    (ended : f.ph = .pushing ∧ f.code = 0x1E) :
    let s1 := cutOff s n q e va true
    let x := oneStep (modCore s1 n (fun c => c.setHead q f.again)) n q f.again
    let ps := cutPlaces s1 n q f.again va x.2
    ∃ m e w k, exec (.remoteTimeout n (.entry q va true)) s = .next { s1 with mem := m, ecc := e, writes := w, fresh := k } ∧
      (∀ pa, (∀ p ∈ ps, pa ∉ footprint p) → rd8 m pa = rd8 s1.mem pa) ∧
      ((∀ p ∈ ps, ∃ pa, p = .one (.byte pa)) → ∀ pa, rd8 m pa = rd8 s1.mem pa ∨
        (rd8 m pa = rd8 x.1.mem pa ∧ paPkg pa ≠ s.plat.pkg)) := by
  intro s1 x ps
  obtain ⟨m, c, w, k, mixed⟩ := mixBytes_only s1 x.1 ps
  have mem : (mixBytes s1 x.1 ps).mem = m := by rw [mixed]
  have result : exec (.remoteTimeout n (.entry q va true)) s = .next (mixBytes s1 x.1 ps) :=
    exec_entryTimeout_ended head moves goes after ended
  refine ⟨m, c, w, k, by rw [result, mixed], fun pa out => ?_, fun bytes pa => ?_⟩
  · rw [← mem, rd8_mixBytes_other out]
  · have each := rd8_mixBytes (s := s1) (t := x.1) bytes pa
    rwa [mem, plat_of_clock (cutOff_clock s n q e va true)] at each

end

/-- Settles O46: an access or an entry that times out, taken apart: what its core keeps, and its bytes one by one, by the free
choices drawn for them. -/
theorem remoteTimeouts : Obligations.RemoteTimeouts := by
  unfold Obligations.RemoteTimeouts
  refine ⟨fun s n a => ?_, fun a r lo len v other => ?_, fun a r v ldx => ?_, fun a r j l => ?_, fun a k => rfl,
    fun s c va n pa wr run pos far free cut => engPlaces_cut run pos far free cut, fun s n q va e wr => ?_, fun s n e f pa => ?_⟩
  · exact fun there remote => ⟨exec_accessTimeout_bytes there remote, fun ev => exec_accessTimeout_event there remote,
      exec_accessTimeout_counted there remote⟩
  · exact ⟨by rw [Land.timedOut, Access.opcode, if_neg other], by rw [Land.timedOut, Access.opcode, if_neg other]⟩
  · rw [Land.timedOut, Access.opcode, if_pos ldx]
  · rw [Land.timedOut, Access.opcode]
  · refine fun head moves goes => ⟨exec_entryTimeout_none head moves goes, fun f after ended => ⟨?_, ?_⟩⟩
    · rintro rfl
      exact exec_entryTimeout_ended head moves goes after ended
    · rintro rfl
      exact exec_entryTimeout_mixed head moves goes after ended
  · intro c ended head running more free cut lives clean
    exact ⟨fun va copies at_ run far => exec_bcopyTimeout head running more free cut lives copies at_ run far,
      fun va fills at_ run far => exec_bfillTimeout head running more free cut lives fills at_ run far clean⟩

end Sys2Proof.Machine
end

section
/-! Faults and traps (R156, R172, R175, R180, R205, R238): what a word that stops asks for, what a trap that is taken writes. -/

namespace Sys2Proof.Machine
open Sys2Proof.Stmt

/-! ### A word that stops (R84, R95, R172, R180) -/

/-- A source of a record: 0 where the word names none (R175). -/
theorem source_eq (s : State) (srcs : List Nat) (k : Nat) :
    (match srcs[k]? with | some n => s.core.src s.bed.btick n | none => (0 : Word)) = (srcs[k]?.map (srcVal s)).getD 0 := by
  cases srcs[k]? <;> rfl

/-- The record of a word with its first three sources (R175). -/
theorem wordRec_eq (s : State) (i : Instr) (srcs : List Nat) : wordRec s i srcs =
    { bareRec s (wordOf i) 0 0 0 0 with
      opa := (srcs[0]?.map (srcVal s)).getD 0, opb := (srcs[1]?.map (srcVal s)).getD 0
      opc := (srcs[2]?.map (srcVal s)).getD 0 } := by
  simp only [← source_eq]
  rfl

/-- t is s after a fault f of the word at PC: its trap waits for the next bt, or, in the system view, the unit is killed. -/
def FaultTaken (s t : State) (f : FaultRec) : Prop :=
  (s.core.view = .unit →
    t = { s with core := { s.core with wait := none, trap := some (trapAt f s.core.pc (s.bed.btick + 1) false) } }) ∧
  (s.core.view = .system → s.core.run = .running → ∃ d, t = { s with core := d } ∧
    killed s.core d (s.core.xcause.toNat % 256) f.code ((tget 0 s.core.xrec 7).toNat % 2 ^ 32))

/-- A fault raised at the word at PC is taken so (R172, R180). -/
theorem faultTaken_raise (s : State) (f : FaultRec) :
    FaultTaken s (onCore s fun c => c.raise f c.pc (s.bed.btick + 1)) f := by
  refine ⟨fun unit => ?_, fun system runs => ?_⟩
  · rw [onCore, Core.raise_unit unit]
    rfl
  · rw [onCore, Core.raise_system system]
    exact ⟨_, rfl, killed_kill runs _ _ _⟩

/-- A word that stops raises the fault with its record, to be taken from the next bt on (R95, R175; log 23). -/
theorem stopWord_fault (s : State) (i : Instr) (srcs : List Nat) (code : Nat) (addr detail : Word) :
    stopWord s i srcs (.fault code addr detail) = onCore s fun c => c.raise
      { bareRec s (wordOf i) code 0 addr detail with
        opa := (srcs[0]?.map (srcVal s)).getD 0, opb := (srcs[1]?.map (srcVal s)).getD 0
        opc := (srcs[2]?.map (srcVal s)).getD 0 } c.pc (s.bed.btick + 1) := by
  simp only [stopWord, wordRec_eq]
  rfl

/-! ### A fetch that fails (R205, R245, R250) -/

section
variable {s : State} (aligned : s.core.pc.toNat % 8 = 0)

theorem fetchStop_misaligned (odd : s.core.pc.toNat % 8 ≠ 0) : fetchStop s = some (0x0E, 0) := by
  simp [fetchStop, odd]

include aligned

theorem fetchStop_nowhere (nowhere : findExt s.core.extents s.core.pc.toNat = none) : fetchStop s = some (0x0C, 0) := by
  simp [fetchStop, aligned, nowhere]

theorem fetchStop_noExec {e : Extent} (there : findExt s.core.extents s.core.pc.toNat = some e) (barred : e.ex = false) :
    fetchStop s = some (0x0D, 0) := by
  simp [fetchStop, aligned, there, barred]

theorem fetchStop_translation {e : Extent} {f : Nat × Nat} (there : findExt s.core.extents s.core.pc.toNat = some e)
    (ex : e.ex = true) (faults : places s s.core s.core.pc.toNat 8 false = .error f) : fetchStop s = some f := by
  simp [fetchStop, aligned, there, ex, faults]

theorem fetchStop_unreadable {e : Extent} {ps : List Place} {k : Nat}
    (there : findExt s.core.extents s.core.pc.toNat = some e) (ex : e.ex = true)
    (found : places s s.core s.core.pc.toNat 8 false = .ok ps) (bad : readPlaces s ps = .error k) :
    fetchStop s = some (0x1B, 0) := by
  simp [fetchStop, aligned, there, ex, found, bad]

end

/-- A fetch that fails is a fault of the word at PC, with no word and no sources in its record (R175, R205). -/
theorem fetchFault_taken {s : State} {code detail : Nat} (stop : fetchStop s = some (code, detail)) :
    ∃ t, exec .fetchFault s = .next t ∧
      FaultTaken s t (bareRec s 0 code 0 s.core.pc (BitVec.ofNat 64 detail)) := by
  refine ⟨_, ?_, faultTaken_raise s _⟩
  rw [exec, execFetchFault, stop]
  rfl

/-- Settles O42: every fault of a word is raised at PC (`faultTaken_raise`), a fetch's by the check that finds it. -/
theorem preciseFaults : Obligations.PreciseFaults := by
  unfold Obligations.PreciseFaults
  intro s
  refine ⟨fun i srcs code addr detail => ?_, fun w => ⟨_, rfl, ?_⟩,
    fun odd => fetchFault_taken (fetchStop_misaligned odd), fun aligned => ⟨fun nowhere => ?_, fun e there barred => ?_,
    fun e there ex => ⟨fun code detail faults => ?_, fun ps k found bad => ?_⟩⟩⟩
  · rw [stopWord_fault]
    exact faultTaken_raise s _
  · rw [wordFault_illegal]
    exact faultTaken_raise s (illegalRec s w)
  · exact fetchFault_taken (fetchStop_nowhere aligned nowhere)
  · exact fetchFault_taken (fetchStop_noExec aligned there barred)
  · exact fetchFault_taken (fetchStop_translation aligned there ex faults)
  · exact fetchFault_taken (fetchStop_unreadable aligned there ex found bad)

/-! ### A trap that is taken (R156, R172, R175, R238, R419) -/

/-- XREC0 to XREC7 hold the record's eight words, in their order (R175). -/
theorem tget_recWords (f : FaultRec) : ∀ n < 8, tget 0 (recWords f) n =
    [f.ipc, BitVec.ofNat 64 (f.seq + 2 ^ 32 * f.queue), f.word, f.opa, f.opb, f.opc, f.addr, f.detail].getD n 0 := by
  intro n hn
  rw [recWords, Nat.mul_comm f.queue]
  interval_cases n <;> simp [List.zipIdx, tget_tset]

/-- XCAUSE's fields (R156). -/
theorem causeWord_eq (f : FaultRec) (l : List FaultRec) :
    causeWord f (decide (f.kind = 2) && !l.isEmpty) =
      BitVec.ofNat 64 (f.code + 2 ^ 8 * f.kind + (if f.kind = 2 then 2 ^ 10 * f.queue else 0) +
        (if f.kind = 2 ∧ l ≠ [] then 2 ^ 13 else 0)) := by
  simp only [causeWord, Bool.and_eq_true, decide_eq_true_eq, Bool.not_eq_true', List.isEmpty_eq_false_iff,
    Nat.mul_comm f.kind, Nat.mul_comm f.queue]

/-- The record that a trap leaves, with the latest rise in a throttle notice (R175, R419). -/
theorem tget_recWords_latest (c : Core) (f : FaultRec) : ∀ n < 8, tget 0 (recWords (c.latest f)) n =
    [f.ipc, BitVec.ofNat 64 (f.seq + 2 ^ 32 * f.queue), f.word, f.opa, f.opb, f.opc, f.addr,
      if f.code = 0x23 then c.thrDetail else f.detail].getD n 0 := by
  unfold Core.latest
  split <;> exact tget_recWords _

theorem detail_latest (c : Core) (f : FaultRec) :
    (c.latest f).detail = if f.code = 0x23 then c.thrDetail else f.detail := by
  unfold Core.latest
  split <;> rfl

/-- Without a handler a trap that is taken kills the unit (R172, R179). -/
theorem Core.takeTrap_noHandler {c : Core} {r : TrapReq} (t : Nat) (hs : r.stop = false) (hx : c.xvec = 0) :
    c.takeTrap r t = { c with
      trap := none, thr := c.thr && r.fr.code ≠ 0x23, xpc := r.xpc, xcause := causeWord r.fr (r.fr.kind = 2 && !c.pending.isEmpty)
      xrec := recWords (c.latest r.fr), handled := r.fr.tok : Core }.kill (killStatus r.fr.code) r.fr.code 0
        ((c.latest r.fr).detail.toNat % 2 ^ 32) := by
  unfold Core.takeTrap
  dsimp only
  rw [if_neg (by simp [hs]), if_pos hx]

@[simp] theorem Core.kill_xpc (c : Core) (status code code2 detail : Nat) : (c.kill status code code2 detail).xpc = c.xpc := by
  unfold Core.kill; split <;> rfl

@[simp] theorem Core.kill_xcause (c : Core) (status code code2 detail : Nat) :
    (c.kill status code code2 detail).xcause = c.xcause := by
  unfold Core.kill; split <;> rfl

@[simp] theorem Core.kill_xrec (c : Core) (status code code2 detail : Nat) :
    (c.kill status code code2 detail).xrec = c.xrec := by
  unfold Core.kill; split <;> rfl

theorem Core.drained_of {c : Core} {t : Nat} (columns : c.vq = []) (results : ∀ p ∈ c.pend, p.due ≤ t) : c.drained t = true := by
  simpa [Core.drained, columns] using results

section
variable {s : State} {r : TrapReq} (waits : s.core.trap = some r) (due : r.at_ ≤ s.bed.btick)
  (rest : s.core.drained s.bed.btick = true)
include waits due rest

theorem exec_trapEntry (trap : r.stop = false) :
    exec .trapEntry s = .next { s with core := s.core.takeTrap r s.bed.btick } := by
  rw [exec, execTrapEntry, waits]
  simp [due, rest, trap, onCore]

theorem exec_preemptionStop (stop : r.stop = true) :
    exec .preemptionStop s = .next { s with core := s.core.takeTrap r s.bed.btick } := by
  rw [exec, execPreemptionStop, waits]
  simp [due, rest, stop, onCore]

end

/-- Settles O41: the trap is taken by `Core.takeTrap`, in each of its three outcomes, and its record read back word by word. -/
theorem trapEntry : Obligations.TrapEntry := by
  unfold Obligations.TrapEntry
  intro s r c T cause detail words thr saved waits due columns results
  have rest := Core.drained_of columns results
  have cause_eq := causeWord_eq r.fr s.core.pending
  have rec_eq := tget_recWords_latest s.core r.fr
  refine ⟨fun trap handler => ⟨_, exec_trapEntry waits due rest trap, ?_⟩,
    fun trap none_ runs => ⟨_, exec_trapEntry waits due rest trap, ?_⟩, fun stop => ⟨_, exec_preemptionStop waits due rest stop, ?_⟩⟩
  · rw [Core.takeTrap_handler _ trap handler]
    exact ⟨⟨rfl, cause_eq, rec_eq⟩, rfl⟩
  · rw [Core.takeTrap_noHandler _ trap none_, detail_latest]
    refine ⟨⟨Core.kill_xpc .., (Core.kill_xcause ..).trans cause_eq, fun n hn => ?_⟩, ?_⟩
    · rw [Core.kill_xrec]
      exact rec_eq n hn
    · rw [Core.kill_xpc, Core.kill_xcause, Core.kill_xrec]
      exact killed_kill (by exact runs) ..
  · rw [Core.takeTrap_stop _ stop]
    exact ⟨⟨rfl, cause_eq, rec_eq⟩, rfl⟩

end Sys2Proof.Machine
end

section
/-! The issue of a word that passes its checks (R84, R91, R159-R164), and the trap of a crossing of EQUOTA that its charges make
(R162, R242). -/

namespace Sys2Proof.Machine
open Sys2Proof.Stmt

/-! ### Charges (R159-R164) -/

/-- What a word's own effect may do to the core u as its word issues: charge bits (`Charged`), and leave the unit running, in its
view, under its quota. -/
structure Charges (u v : Core) (regs own cells : Nat) : Prop extends Charged u v regs own cells where
  run : v.run = u.run
  view : v.view = u.view
  equota : v.equota = u.equota

/-- A charge of a number of bits is a crossing of a quota (R162). -/
def crossingBy (equota : Word) (ebits n : Nat) : Bool :=
  decide (equota ≠ 0) && decide (ebits < equota.toNat) && decide (equota.toNat ≤ ebits + n)

/-- Of two charges one after the other one is a crossing when both together are. -/
theorem crossingBy_add (equota : Word) (ebits m n : Nat) :
    (crossingBy equota ebits m || crossingBy equota (ebits + m) n) = crossingBy equota ebits (m + n) := by
  by_cases none_ : equota = 0
  · simp [crossingBy, none_]
  · rw [Bool.eq_iff_iff]
    simp only [crossingBy, none_, ne_eq, not_false_eq_true, decide_true, Bool.true_and, Bool.or_eq_true, Bool.and_eq_true,
      decide_eq_true_eq]
    omega

/-- A charge adds its bits and its energy, and may be a crossing (R161-R163). -/
theorem Core.erase_eq (c : Core) (n : Nat) (cell : Bool) : c.erase n cell =
    { c with ebits := c.ebits + n, ej := c.ej + (if cell then 3000 else 2600) * n, qp := c.qp || crossingBy c.equota c.ebits n } := by
  rw [Core.erase, Nat.mul_comm n]
  rfl

namespace Charges
variable {u v w : Core} {regs own cells : Nat}

theorem crossing (h : Charges u v regs own cells) :
    v.qp = (u.qp || crossingBy u.equota u.ebits ((if u.view = .unit then regs else 0) + own + cells)) := by
  rw [h.qp, h.ebits]
  simp only [crossingBy, Bool.and_assoc]

/-- An effect that leaves these fields charges nothing. -/
theorem nothing (hp : v.pend = u.pend) (hc : v.pc = u.pc) (hb : v.nextBt = u.nextBt) (ho : v.order = u.order)
    (hq : v.ports = u.ports) (hy : v.busy = u.busy) (ht : v.trap = u.trap) (he : v.ebits = u.ebits) (hx : v.xebits = u.xebits)
    (hj : v.ej = u.ej) (hz : v.qp = u.qp) (hr : v.run = u.run) (hv : v.view = u.view) (hu : v.equota = u.equota) :
    Charges u v 0 0 0 := by
  refine ⟨⟨hp, hc, hb, ho, hq, hy, ht, ?_, ?_, ?_, ?_⟩, hr, hv, hu⟩
  · simpa using he
  · simpa using hx
  · simpa using hj
  · rw [hz, he]
    exact (Bool.or_eq_left_iff_imp.mpr (by simp)).symm

/-- The charges of two effects one after the other add up. -/
theorem trans {r o c : Nat} (h : Charges u v regs own cells) (k : Charges v w r o c) :
    Charges u w (regs + r) (own + o) (cells + c) := by
  have eb := k.ebits
  have xb := k.xebits
  have ej := k.ej
  have qp := k.crossing
  rw [h.view, h.ebits] at eb
  rw [h.view, h.xebits] at xb
  rw [h.view, h.ej] at ej
  rw [h.crossing, h.view, h.equota, h.ebits, Bool.or_assoc, crossingBy_add] at qp
  refine ⟨⟨k.pend.trans h.pend, k.pc.trans h.pc, k.nextBt.trans h.nextBt, k.order.trans h.order, k.ports.trans h.ports,
    k.busy.trans h.busy, k.trap.trans h.trap, ?_, ?_, ?_, ?_⟩, k.run.trans h.run, k.view.trans h.view, k.equota.trans h.equota⟩
  · rw [eb]; split <;> omega
  · rw [xb]; split <;> omega
  · rw [ej]; split <;> omega
  · rw [qp, eb, Bool.and_assoc, Nat.add_assoc u.ebits, crossingBy, Bool.and_assoc]

end Charges

/-- A charge of register bits of the unit alone, or of memory cells (R159, R160). -/
theorem charges_erase (u : Core) (n : Nat) (cell : Bool) :
    Charges u (u.erase n cell) 0 (if cell then 0 else n) (if cell then n else 0) := by
  rw [Core.erase_eq]
  refine ⟨⟨rfl, rfl, rfl, rfl, rfl, rfl, rfl, ?_, ?_, ?_, ?_⟩, rfl, rfl, rfl⟩
  · cases cell <;> simp
  · simp
  · cases cell <;> simp
  · simp only [crossingBy, Bool.and_assoc]

theorem charges_own (u : Core) (n : Nat) : Charges u (u.erase n false) 0 n 0 := charges_erase u n false

theorem charges_cells (u : Core) (n : Nat) : Charges u (u.erase n true) 0 0 n := charges_erase u n true

/-- A charge of a register that belongs to whoever runs (R164). -/
theorem charges_eraseReg (u : Core) (n : Nat) : Charges u (u.eraseReg n) n 0 0 := by
  refine ⟨charged_eraseReg u n, ?_, ?_, ?_⟩ <;> rw [eraseReg_eq]

theorem charges_none (u : Core) : Charges u u 0 0 0 :=
  .nothing rfl rfl rfl rfl rfl rfl rfl rfl rfl rfl rfl rfl rfl rfl

theorem charges_chargeDst (u : Core) (d n : Nat) : Charges u (u.chargeDst d n) (if isPort d then 0 else n) 0 0 := by
  unfold Core.chargeDst
  split
  · exact charges_none u
  · exact charges_eraseReg u n

theorem charges_chargeZero (u : Core) (d n : Nat) : Charges u (u.chargeZero d n) (if d = 0 then n else 0) 0 0 := by
  unfold Core.chargeZero
  split
  · exact charges_eraseReg u n
  · exact charges_none u

/-! ### The issue -/

/-- The state in which a word has issued, before its own effect. -/
def Issue.issued (w : Issue) (s : State) : State :=
  issueCore s w.units (rampK w.ramp) w.srcs w.results w.work w.npc w.nbt

/-- The run of a word that no check of its own stops: its issue, and its own effect. -/
def Issue.runs (w : Issue) (s : State) (i : Instr) (eff : State → State) : Res :=
  runWord s i w.sys w.units w.ramp w.srcs w.results none w.work w.npc w.nbt eff

/-- A ready word completes. -/
theorem Issue.runs_ready {w : Issue} {s : State} (ready : w.ready s) (i : Instr) (eff : State → State) :
    w.runs s i eff = .next (afterWord s i w.srcs (eff (w.issued s))) := by
  rw [Issue.runs, runWord, stopOf_ready ready]
  rfl

theorem Issue.issued_core (w : Issue) (s : State) : (w.issued s).core = { s.core with
    ports := (s.core.popSrcs s.bed.btick w.srcs).ports, lastPop := (s.core.popSrcs s.bed.btick w.srcs).lastPop
    busy := (w.units.foldl (fun c u => c.occupy (s.bed.btick + rampK w.ramp) u) (s.core.popSrcs s.bed.btick w.srcs)).busy
    pend := s.core.pend ++ w.results
    ej := s.core.ej + (if s.core.view = .unit then workUnits w.work (rampK w.ramp) (heat s s.core.num) else 0)
    pc := w.npc, nextBt := w.nbt, order := s.core.order + 1 } := issueCore_core ..

/-- The bits of a word that count in EBITS as it issues. -/
def Issue.charge (w : Issue) (s : State) : Nat := (if s.core.view = .unit then w.regs else 0) + w.own + w.cells

theorem Issue.crosses_iff (w : Issue) (s : State) : w.crosses s ↔ crossingBy s.core.equota s.core.ebits (w.charge s) = true := by
  simp only [crossingBy, Bool.and_eq_true, decide_eq_true_eq, and_assoc]
  rfl

section
variable {w : Issue} {s v : State} (charges : Charges (w.issued s).core v.core w.regs w.own w.cells)
include charges

/-- A crossing is noted at once (R162). -/
theorem Issue.qp_of_charges : v.core.qp = (s.core.qp || decide (w.crosses s)) := by
  rw [charges.crossing, w.issued_core]
  congr 1
  rw [Bool.eq_iff_iff, decide_eq_true_eq, w.crosses_iff]
  rfl

theorem Issue.trap_of_charges : v.core.trap = s.core.trap := by
  rw [charges.trap, w.issued_core]

theorem Issue.ebits_of_charges : v.core.ebits = s.core.ebits + w.charge s := by
  rw [charges.ebits, w.issued_core]
  rfl

theorem Issue.pend_of_charges : v.core.pend = s.core.pend ++ w.results := by
  rw [charges.pend, w.issued_core]

/-- The word's issue and its own effect together do what `Issue.went` says (R91, R159-R164). -/
theorem Issue.went_of_charges : w.went s v := by
  have core := w.issued_core s
  refine ⟨w.pend_of_charges charges, ?_, ?_, ?_, fun q _ => ?_, fun x n => ?_, fun unit => ?_, fun system => ?_, fun calm => ?_⟩
  · rw [charges.pc, core]
  · rw [charges.nextBt, core]
  · rw [charges.order, core]
  · rw [Core.port, charges.ports, core]
    exact popSrcs_port ..
  · have busy := occupyAll_unitBusy (s.core.popSrcs s.bed.btick w.srcs) (s.bed.btick + rampK w.ramp) n w.units x
    rw [show (s.core.popSrcs s.bed.btick w.srcs).unitBusy n x = s.core.unitBusy n x by rw [popSrcs_eq]; rfl] at busy
    rw [← busy]
    unfold Core.unitBusy
    rw [charges.busy, core]
  · rw [charges.ebits, charges.xebits, charges.ej, core]
    refine ⟨?_, ?_, ?_⟩ <;> simp only [unit, if_true] <;> omega
  · rw [charges.ebits, charges.xebits, charges.ej, core]
    simp [system, Nat.add_assoc]
  · exact ⟨w.trap_of_charges charges, by rw [w.qp_of_charges charges, decide_eq_false calm, Bool.or_false]⟩

end

/-! ### After the word (R162, R242) -/

/-- The end of a word touches the trap and the note of a crossing alone. -/
theorem afterWord_only (s : State) (i : Instr) (srcs : List Nat) (v : State) :
    afterWord s i srcs v = { v with core := { v.core with
      qp := (afterWord s i srcs v).core.qp, trap := (afterWord s i srcs v).core.trap } } := by
  unfold afterWord
  split <;> rfl

/-- Without a crossing of its own a word leaves no trap. -/
theorem afterWord_calm {s v : State} (same : v.core.qp = s.core.qp) (i : Instr) (srcs : List Nat) : afterWord s i srcs v = v := by
  rw [afterWord, if_neg]
  rw [same]
  cases s.core.qp <;> simp

/-- In the system view a crossing is noted in XSTAT.QP and no more. -/
theorem afterWord_system {s : State} (system : s.core.view = .system) (i : Instr) (srcs : List Nat) (v : State) :
    afterWord s i srcs v = v := by
  rw [afterWord, if_neg]
  simp [system]

theorem went_afterWord {w : Issue} {s v : State} (went : w.went s v) (i : Instr) : w.went s (afterWord s i w.srcs v) := by
  obtain ⟨pend, pc, bt, order, ports, busy, unit, system, calm⟩ := went
  rw [afterWord_only]
  refine ⟨pend, pc, bt, order, ports, busy, unit, system, fun still => ?_⟩
  rw [afterWord_calm (calm still).2]
  exact calm still

/-- A ready word whose effect charges what w says issues as w says; its own effect leads to e but for the fields of the issue. -/
theorem Issue.completes {w : Issue} {s e : State} {eff : State → State} (ready : w.ready s)
    (charges : Charges (w.issued s).core (eff (w.issued s)).core w.regs w.own w.cells)
    (only : eff (w.issued s) = { e with core := e.core.withIssue (eff (w.issued s)).core }) (i : Instr) :
    ∃ t, w.runs s i eff = .next t ∧ w.went s t ∧ t = { e with core := e.core.withIssue t.core } := by
  refine ⟨_, w.runs_ready ready i eff, went_afterWord (w.went_of_charges charges) i, ?_⟩
  rw [afterWord_only, only]
  rfl

theorem owedCells_eq_sum (l : List Pend) : owedCells l = (l.map fun p => match p.land with | .cell n => n | _ => 0).sum := by
  have acc (l : List Pend) (a : Nat) : l.foldl (fun a p => match p.land with | .cell n => a + n | _ => a) a =
      a + (l.map fun p => match p.land with | .cell n => n | _ => 0).sum := by
    induction l generalizing a with
    | nil => rfl
    | cons p l ih =>
      rw [List.foldl_cons, ih, List.map_cons, List.sum_cons]
      cases p.land <;> simp [Nat.add_assoc]
  exact (acc l 0).trans (Nat.zero_add _)

theorem owedCells_append (l m : List Pend) : owedCells (l ++ m) = owedCells l + owedCells m := by
  simp only [owedCells_eq_sum, List.map_append, List.sum_append]

/-- A unit-view word whose charge is a crossing completes, and its trap follows (R162, R175, R242). -/
theorem Issue.trapsAfter_of_runs {w : Issue} {i : Instr} {s : State} {eff : State → State} (runs : exec i s = w.runs s i eff)
    (charges : Charges (w.issued s).core (eff (w.issued s)).core w.regs w.own w.cells) (ready : w.ready s)
    (passed : chargesOver w s) : trapsAfter w i s := by
  obtain ⟨crosses, calm, running, unit⟩ := passed
  have qp := w.qp_of_charges charges
  have run : (eff (w.issued s)).core.run = .running := by rw [charges.run, w.issued_core]; exact running
  have pc : (eff (w.issued s)).core.pc = w.npc := by rw [charges.pc, w.issued_core]
  have bits : (eff (w.issued s)).core.ebits - s.core.ebits + owedCells (eff (w.issued s)).core.pend - owedCells s.core.pend =
      w.regs + w.own + w.cells + owedCells w.results := by
    rw [w.ebits_of_charges charges, w.pend_of_charges charges, owedCells_append, Issue.charge, if_pos unit]
    omega
  rw [calm, decide_eq_true crosses] at qp
  have after := went_afterWord (w.went_of_charges charges) i
  rw [w.runs_ready ready] at runs
  refine ⟨_, runs, after, ?_⟩
  rw [afterWord, if_pos ⟨unit, qp, by rw [calm]; rfl, run⟩, onCore, bits, pc, wordRec_eq]
  exact ⟨rfl, rfl⟩

end Sys2Proof.Machine
end

section
/-! The scalar words of chapter 08 as they issue (R186, R188-R192, R195, R199): what each computes, over bit vectors, and what it
charges. -/

namespace Sys2Proof.Machine
open Sys2Proof.Stmt

/-! ### Words that issue as an `Issue` says -/

/-- The word runs as w says: with no check of its own that stops it, and an own effect that charges what w says and leads to e but
for the fields of the issue. -/
def IssuesAs (w : Issue) (i : Instr) (s e : State) : Prop :=
  ∃ eff, exec i s = w.runs s i eff ∧ Charges (w.issued s).core (eff (w.issued s)).core w.regs w.own w.cells ∧
    eff (w.issued s) = { e with core := e.core.withIssue (eff (w.issued s)).core }

theorem IssuesAs.does {w : Issue} {i : Instr} {s e : State} (h : IssuesAs w i s e) (ready : w.ready s) : w.does i s e := by
  obtain ⟨eff, runs, charges, only⟩ := h
  rw [Issue.does, runs]
  exact w.completes ready charges only i

theorem IssuesAs.trapsAfter {w : Issue} {i : Instr} {s e : State} (h : IssuesAs w i s e) (ready : w.ready s)
    (passed : chargesOver w s) : trapsAfter w i s := by
  obtain ⟨eff, runs, charges, -⟩ := h
  exact w.trapsAfter_of_runs runs charges ready passed

/-- f does nothing but charge these bits. -/
structure OnlyCharges (f : Core → Core) (regs own cells : Nat) : Prop where
  charges : ∀ u, Charges u (f u) regs own cells
  only : ∀ u, f u = { u with ebits := (f u).ebits, xebits := (f u).xebits, ej := (f u).ej, qp := (f u).qp }

theorem OnlyCharges.comp {f g : Core → Core} {regs own cells r o c : Nat} (hf : OnlyCharges f regs own cells)
    (hg : OnlyCharges g r o c) : OnlyCharges (fun u => g (f u)) (regs + r) (own + o) (cells + c) where
  charges u := (hf.charges u).trans (hg.charges (f u))
  only u := by
    rw [hg.only (f u), hf.only u]

theorem onlyCharges_none : OnlyCharges (fun u => u) 0 0 0 := ⟨charges_none, fun _ => rfl⟩

theorem onlyCharges_own (n : Nat) : OnlyCharges (·.erase n false) 0 n 0 := ⟨(charges_own · n), fun _ => rfl⟩

theorem onlyCharges_cells (n : Nat) : OnlyCharges (·.erase n true) 0 0 n := ⟨(charges_cells · n), fun _ => rfl⟩

theorem onlyCharges_eraseReg (n : Nat) : OnlyCharges (·.eraseReg n) n 0 0 := ⟨(charges_eraseReg · n), (eraseReg_eq · n)⟩

theorem onlyCharges_chargeZero (d n : Nat) : OnlyCharges (·.chargeZero d n) (if d = 0 then n else 0) 0 0 :=
  ⟨(charges_chargeZero · d n), (chargeZero_eq · d n)⟩

theorem onlyCharges_chargeDst (d n : Nat) : OnlyCharges (·.chargeDst d n) (if isPort d then 0 else n) 0 0 := by
  refine ⟨(charges_chargeDst · d n), fun u => ?_⟩
  unfold Core.chargeDst
  split
  · rfl
  · exact eraseReg_eq u n

/-- A word that after its issue only charges. -/
theorem issuesAs_of_onlyCharges {w : Issue} {i : Instr} {s : State} {f : Core → Core} {regs own cells : Nat}
    (effect : OnlyCharges f regs own cells) (runs : exec i s = w.runs s i (fun s => onCore s f))
    (bits : (w.regs, w.own, w.cells) = (regs, own, cells)) : IssuesAs w i s s := by
  simp only [Prod.mk.injEq] at bits
  obtain ⟨rfl, rfl, rfl⟩ := bits
  exact ⟨_, runs, effect.charges _, withIssue_issue s w.units (rampK w.ramp) w.srcs w.results w.work w.npc w.nbt f effect.only⟩

/-! ### Numbers and bit vectors (R39-R45, R189) -/

/-- The signed value of the low bits of a number. -/
theorem sgn_toNat {w : Nat} (x : BitVec w) : sgn w x.toNat = x.toInt := by
  rw [sgn, Nat.mod_eq_of_lt x.isLt, BitVec.toInt_eq_toNat_cond]
  push_cast
  rfl

theorem wrapN_eq (w : Nat) (z : Int) : wrapN w z = (BitVec.ofInt w z).toNat := by
  rw [wrapN, BitVec.toNat_ofInt]
  push_cast
  rfl

theorem immW_eq (w imm : Nat) : immW w imm = (BitVec.ofInt w (sgn 36 imm)).toNat := wrapN_eq ..

/-- A rotation by c within w bits: the low w - c bits above the others. -/
theorem rotL_eq_or {w c n : Nat} (hn : n < 2 ^ w) (hc : c < w) : rotL w n c = n <<< c % 2 ^ w ||| n >>> (w - c) := by
  obtain ⟨k, rfl⟩ : ∃ k, w = k + c := ⟨w - c, by omega⟩
  have low : n / 2 ^ k < 2 ^ c := by rwa [Nat.div_lt_iff_lt_mul (by positivity), mul_comm, ← pow_add]
  have high : n * 2 ^ c % 2 ^ (k + c) = n % 2 ^ k * 2 ^ c := by rw [pow_add, Nat.mul_mod_mul_right]
  have fits : n % 2 ^ k * 2 ^ c + n / 2 ^ k < 2 ^ (k + c) := by
    have below : n % 2 ^ k + 1 ≤ 2 ^ k := Nat.mod_lt _ (by positivity)
    calc _ < n % 2 ^ k * 2 ^ c + 2 ^ c := by omega
      _ = (n % 2 ^ k + 1) * 2 ^ c := by ring
      _ ≤ 2 ^ k * 2 ^ c := Nat.mul_le_mul_right _ below
      _ = 2 ^ (k + c) := (pow_add ..).symm
  rw [Nat.add_sub_cancel, Nat.shiftLeft_eq, Nat.shiftRight_eq_div_pow, high, ← Nat.shiftLeft_eq,
    ← Nat.shiftLeft_add_eq_or_of_lt low, Nat.shiftLeft_eq, rotL, Nat.add_sub_cancel, Nat.add_mod, high,
    Nat.mod_eq_of_lt (a := n / 2 ^ k) (by omega), Nat.mod_eq_of_lt fits]

theorem rotL_toNat {w c : Nat} (x : BitVec w) (hc : c < w) : rotL w x.toNat c = (x.rotateLeft c).toNat := by
  rw [rotL_eq_or x.isLt hc, BitVec.toNat_rotateLeft, Nat.mod_eq_of_lt hc]

theorem shiftA_toNat {w : Nat} (x : BitVec w) (c : Nat) : shiftA w x.toNat c = (x.sshiftRight c).toNat := by
  have flat {k : Nat} (hk : w ≤ k) : x.toInt / 2 ^ k = if x.toInt < 0 then -1 else 0 := by
    have big : (2 : Int) ^ w ≤ 2 ^ k := pow_le_pow_right₀ (by norm_num) hk
    have pos : (0 : Int) < 2 ^ k := by positivity
    have low := BitVec.le_two_mul_toInt (x := x)
    have high := BitVec.two_mul_toInt_lt (x := x)
    split
    · next neg =>
      have below := Int.ediv_neg_of_neg_of_pos neg pos
      have above : -1 ≤ x.toInt / 2 ^ k := by rw [Int.le_ediv_iff_mul_le pos]; linarith
      omega
    · exact Int.ediv_eq_zero_of_lt (by omega) (by linarith)
  have same : x.toInt / 2 ^ min c w = x.toInt / 2 ^ c := by
    rcases le_total c w with h | h
    · rw [min_eq_left h]
    · rw [min_eq_right h, flat le_rfl, flat h]
  rw [shiftA, sgn_toNat, wrapN_eq, same, BitVec.sshiftRight, Int.shiftRight_eq_div_pow]
  push_cast
  rfl

/-- The upper half of a double-width product of signed values. -/
theorem wrapN_mulh {w : Nat} (x y : BitVec w) : wrapN w (x.toInt * y.toInt / 2 ^ w) = (highProduct true x y).toNat := by
  have half (z : Int) : ((z % (2 ^ (2 * w) : Nat)).toNat >>> w) % 2 ^ w = (z / 2 ^ w % (2 ^ w : Nat)).toNat := by
    have pos : (0 : Int) < 2 ^ w := by positivity
    rw [Nat.shiftRight_eq_div_pow]
    zify
    rw [Int.toNat_of_nonneg (Int.emod_nonneg _ (by positivity)), Int.toNat_of_nonneg (Int.emod_nonneg _ pos.ne'), two_mul,
      pow_add, Int.emod_def z, mul_assoc, Int.sub_mul_ediv_left _ _ pos.ne', Int.sub_mul_emod_self_left]
  rw [highProduct, if_pos rfl, BitVec.extractLsb'_toNat, BitVec.signExtend, BitVec.signExtend, ← BitVec.ofInt_mul,
    BitVec.toNat_ofInt, half, wrapN]
  push_cast
  rfl

theorem mulh_toNat {w : Nat} (x y : BitVec w) : x.toNat * y.toNat / 2 ^ w = (highProduct false x y).toNat := by
  have fits : x.toNat * y.toNat < 2 ^ w * 2 ^ w := Nat.mul_lt_mul'' x.isLt y.isLt
  have wide (z : BitVec w) : z.toNat % 2 ^ (2 * w) = z.toNat :=
    Nat.mod_eq_of_lt (z.isLt.trans_le (Nat.pow_le_pow_right (by norm_num) (by omega)))
  rw [highProduct, if_neg (by decide), BitVec.extractLsb'_toNat, BitVec.toNat_mul, BitVec.toNat_setWidth,
    BitVec.toNat_setWidth, wide, wide, Nat.mod_eq_of_lt (fits.trans_eq (by rw [two_mul, pow_add])),
    Nat.shiftRight_eq_div_pow, Nat.mod_eq_of_lt (Nat.div_lt_of_lt_mul fits)]

/-- Where the top bit is clear, the bits below it that are clear are one less than the leading zeros. -/
theorem takeWhile_clz {w : Nat} (pos : 0 < w) (y : BitVec w) (top : y.getLsbD (w - 1) = false) :
    ((List.range (w - 1)).takeWhile (fun i => !y.getLsbD (w - 2 - i))).length + 1 = y.clz.toNat := by
  obtain ⟨le, clear, stop⟩ := takeWhile_range_spec (fun i => !y.getLsbD (w - 2 - i)) (w - 1)
  set m := ((List.range (w - 1)).takeWhile (fun i => !y.getLsbD (w - 2 - i))).length
  have below : y.toNat < 2 ^ (w - 1 - m) := by
    refine Nat.lt_pow_two_of_testBit _ fun j hj => ?_
    change y.getLsbD j = false
    rcases Nat.lt_or_ge j (w - 1) with h | h
    · have bit := clear (w - 2 - j) (by omega)
      rwa [show w - 2 - (w - 2 - j) = j by omega, Bool.not_eq_true'] at bit
    · rcases Nat.eq_or_lt_of_le h with rfl | h
      · exact top
      · exact BitVec.getLsbD_of_ge _ _ (by omega)
  by_cases zero : y = 0#w
  · have all : m = w - 1 := by
      by_contra other
      have bit := stop (by omega)
      simp [zero] at bit
    have clz := BitVec.clz_eq_iff_eq_zero.2 zero
    rw [clz, all, BitVec.natCast_eq_ofNat, BitVec.toNat_ofNat, Nat.mod_eq_of_lt Nat.lt_two_pow_self, Nat.sub_add_cancel pos]
  · have low := BitVec.two_pow_sub_clz_le_toNat_of_ne_zero pos zero
    have high := BitVec.toNat_lt_two_pow_sub_clz (x := y)
    have more : m < w - 1 := by
      by_contra other
      rw [show w - 1 - m = 0 by omega] at below
      exact zero (BitVec.eq_of_toNat_eq (by simpa using below))
    have bit : 2 ^ (w - 2 - m) ≤ y.toNat := Nat.ge_two_pow_of_testBit (Bool.not_eq_false' _ ▸ stop more)
    have h1 := (Nat.pow_lt_pow_iff_right (by norm_num)).1 (bit.trans_lt high)
    have h2 := (Nat.pow_lt_pow_iff_right (by norm_num)).1 (low.trans_lt below)
    omega

theorem normCount_toNat {w : Nat} (pos : 0 < w) (x : BitVec w) : normCount w x.toNat = equalLead x := by
  have lead {y : BitVec w} (top : y.getLsbD (w - 1) = false)
      (flip : ∀ j < w, y.getLsbD j = (x.getLsbD j ^^ x.getLsbD (w - 1))) : normCount w x.toNat = y.clz.toNat - 1 := by
    have same : (fun i => x.toNat.testBit (w - 2 - i) == x.toNat.testBit (w - 1)) = fun i => !y.getLsbD (w - 2 - i) := by
      funext i
      rw [flip _ (by omega)]
      change (x.getLsbD _ == x.getLsbD _) = _
      cases x.getLsbD (w - 2 - i) <;> cases x.getLsbD (w - 1) <;> rfl
    rw [normCount, same, ← takeWhile_clz pos y top, Nat.add_sub_cancel]
  rw [equalLead]
  cases msb : x.msb <;> rw [BitVec.msb_eq_getLsbD_last] at msb
  · exact lead msb fun j _ => by rw [msb, Bool.xor_false]
  · exact lead (by simp [msb, pos]) fun j hj => by simp [msb, hj]

theorem popCount_toNat {w : Nat} (x : BitVec w) : popCount w x.toNat = (List.range w).countP (fun i => x.getLsbD i) := by
  rw [popCount, List.countP_eq_length_filter]
  rfl

theorem lessThan_signed {w : Nat} (x y : BitVec w) : lessThan true w x.toNat y.toNat = x.slt y := by
  simp only [lessThan, if_true, sgn_toNat]
  rfl

theorem lessThan_unsigned {w : Nat} (x y : BitVec w) : lessThan false w x.toNat y.toNat = x.ult y := rfl

/-! ### The values of the erasing forms (R191, R192) -/

theorem regValue_eq (op : EReg) (ty : Nat) (x y : BitVec (tyBits ty)) :
    regValue op (tySigned ty) x y = BitVec.ofNat 64 (eregValue op ty x.toNat y.toNat) := by
  have pos := tyBits_pos ty
  have le := tyBits_le ty
  cases op <;> simp only [regValue, eregValue]
  case add3 => exact (ofNat_eq _ _ (BitVec.toNat_add ..).symm).symm
  case sub3 => exact (ofNat_eq _ _ (by rw [BitVec.toNat_sub]; congr 1; have := y.isLt; omega)).symm
  case xor3 => exact (ofNat_eq _ _ (BitVec.toNat_xor ..).symm).symm
  case and => exact (ofNat_eq _ _ (BitVec.toNat_and ..).symm).symm
  case or => exact (ofNat_eq _ _ (BitVec.toNat_or ..).symm).symm
  case mul => exact (ofNat_eq _ _ (BitVec.toNat_mul ..).symm).symm
  case mulh =>
    refine (ofNat_eq _ _ ?_).symm
    split
    · next sg => rw [sgn_toNat, sgn_toNat, wrapN_mulh, sg]
    · next sg => rw [mulh_toNat, Bool.eq_false_iff.2 sg]
  case shl => exact (ofNat_eq _ _ (by rw [shiftL, BitVec.toNat_shiftLeft, Nat.shiftLeft_eq])).symm
  case shr => exact (ofNat_eq _ _ (by rw [shiftR, BitVec.toNat_ushiftRight, Nat.shiftRight_eq_div_pow])).symm
  case sar => exact (ofNat_eq _ _ (shiftA_toNat ..)).symm
  case mov => exact (ofNat_eq _ _ rfl).symm
  case clr => rfl
  case ext =>
    split
    · rw [sgn_toNat, wrapN_eq, BitVec.ofNat_toNat, BitVec.setWidth_eq]
      rfl
    · exact (ofNat_eq _ _ rfl).symm
  case norm => rw [normCount_toNat pos]
  case popc => rw [popCount_toNat]
  case cmpeq =>
    simp only [BitVec.toNat_inj]
    split <;> rfl
  case cmplt =>
    rw [lessThan_signed]
    split <;> rfl
  case cmplo =>
    rw [lessThan_unsigned]
    split <;> rfl

/-- The place and length of a bit field (R192). -/
theorem fieldAt_eq {imm : Nat} (narrow : imm < 4096) : fieldAt imm = (bfPos imm, bfLen imm) := by
  rw [fieldAt, bfPos, bfLen, Nat.mod_eq_of_lt (a := imm / 64) (by omega)]

theorem bitField_toNat (s : State) (n p l : Nat) : ((srcVal s n).extractLsb' p l).toNat = srcLow s 64 n / 2 ^ p % 2 ^ l := by
  rw [BitVec.extractLsb'_toNat, Nat.shiftRight_eq_div_pow, srcLow, lowBits, Nat.mod_eq_of_lt (srcVal s n).isLt]

/-- BFX and BFI have a narrow immediate, and work on 64 bits (R192). -/
theorem bitField_of_ok {op : EImm} {f : SimmW} (field : op = .bfx ∨ op = .bfi) (ok : op.ok f = true) :
    f.imm < 4096 ∧ tyBits f.ty = 64 := by
  rcases field with rfl | rfl <;> simp only [EImm.ok, Bool.and_eq_true, Bool.or_eq_true, decide_eq_true_eq, beq_iff_eq] at ok
  · obtain ⟨-, ⟨narrow, -⟩, ty | ty⟩ := ok <;> exact ⟨narrow, by rw [ty]; rfl⟩
  · obtain ⟨-, ⟨narrow, -⟩, ty⟩ := ok
    exact ⟨narrow, by rw [ty]; rfl⟩

theorem immValue_bfx (s : State) {f : SimmW} (ok : EImm.bfx.ok f = true) : immValue s .bfx f =
    (0, 64, BitVec.ofNat 64 (formResult (.imm .bfx f) (srcVal s)).2.2) := by
  obtain ⟨narrow, wide⟩ := bitField_of_ok (.inl rfl) ok
  have low : lowBits 64 (srcVal s f.a) = srcLow s 64 f.a := rfl
  have field := fieldAt_eq narrow
  unfold immValue
  generalize fieldAt f.imm = r at field
  subst field
  simp only [formResult, wide, low, ← bitField_toNat]
  congr 2
  split
  · rw [sgn_toNat, wrapN_eq, BitVec.ofNat_toNat, BitVec.setWidth_eq]
    rfl
  · exact (ofNat_eq _ _ rfl).symm

theorem immValue_bfi (s : State) {f : SimmW} (ok : EImm.bfi.ok f = true) : immValue s .bfi f =
    (bfPos f.imm, bfLen f.imm, BitVec.ofNat 64 (formResult (.imm .bfi f) (srcVal s)).2.2) := by
  obtain ⟨narrow, wide⟩ := bitField_of_ok (.inr rfl) ok
  have field := bitField_toNat s f.a 0 (bfLen f.imm)
  rw [pow_zero, Nat.div_one] at field
  have low : lowBits 64 (srcVal s f.a) = srcLow s 64 f.a := rfl
  have place := fieldAt_eq narrow
  unfold immValue
  generalize fieldAt f.imm = r at place
  subst place
  simp only [formResult, wide, low, ← field]
  congr 2
  exact (ofNat_eq _ _ rfl).symm

/-- Where and what an erasing SIMM form writes (R191, R192). -/
theorem immValue_eq (s : State) {op : EImm} {f : SimmW} (ok : op.ok f = true) : immValue s op f =
    ((formResult (.imm op f) (srcVal s)).1, (formResult (.imm op f) (srcVal s)).2.1,
      BitVec.ofNat 64 (formResult (.imm op f) (srcVal s)).2.2) := by
  have low (n : Nat) : lowBits (tyBits f.ty) (srcVal s n) = (lo s (tyBits f.ty) n).toNat := (setWidth_srcVal_toNat ..).symm
  cases op
  case bfx => exact immValue_bfx s ok
  case bfi => exact immValue_bfi s ok
  all_goals simp only [immValue, formResult, low, immW_eq, Prod.mk.injEq, true_and]
  case andi => exact (ofNat_eq _ _ (BitVec.toNat_and ..).symm).symm
  case ori => exact (ofNat_eq _ _ (BitVec.toNat_or ..).symm).symm
  case shli => exact (ofNat_eq _ _ (by rw [shiftL, BitVec.toNat_shiftLeft, Nat.shiftLeft_eq])).symm
  case shri => exact (ofNat_eq _ _ (by rw [shiftR, BitVec.toNat_ushiftRight, Nat.shiftRight_eq_div_pow])).symm
  case sari => exact (ofNat_eq _ _ (shiftA_toNat ..)).symm
  case movi => exact (ofNat_eq _ _ rfl).symm

/-! ### Plain erasing words (R188, R191-R193) -/

/-- A plain erasing word runs as its row of the tables says. -/
theorem runErase_runs (s : State) (i : Instr) {e : EForm} (ok : e.plainOk = true) :
    runErase s i e = (plainOf s e).1.runs s i (fun s' => onCore s' (·.chargeDst e.dst (formResult e (srcVal s)).2.1)) := by
  cases e with
  | reg op f =>
    simp only [plainOf, erasingReg, regValue_eq, setWidth_srcVal_toNat]
    cases op <;> rfl
  | imm op f =>
    delta plainOf erasingImm
    simp only [immValue_eq s ok]
    cases op <;> rfl
  | wide f => rfl

theorem plainOf_charges (s : State) {e : EForm} (ok : e.plainOk = true) :
    ((plainOf s e).1.regs, (plainOf s e).1.own, (plainOf s e).1.cells) =
      ((if isPort e.dst then 0 else (formResult e (srcVal s)).2.1), 0, 0) := by
  cases e with
  | reg op f => cases op <;> rfl
  | imm op f =>
    delta plainOf erasingImm
    simp only [immValue_eq s ok]
    rfl
  | wide f => rfl

theorem issuesAs_erase {s : State} {i : Instr} {e : EForm} (ok : e.plainOk = true) (hx : exec i s = runErase s i e) :
    IssuesAs (plainOf s e).1 i s s :=
  issuesAs_of_onlyCharges (onlyCharges_chargeDst ..) (hx.trans (runErase_runs s i ok)) (plainOf_charges s ok)

theorem issuesAs_erasingRegs (s : State) (f : SregW) : ∀ p ∈ erasingRegs s f, p.1.wf = true → IssuesAs p.2 p.1 s s := by
  have plain {i : Instr} (op : EReg) (hx : exec i s = runErase s i (.reg op f)) (wf : i.wf = op.ok f) :
      i.wf = true → IssuesAs (erasingReg s op f) i s s := fun ok => issuesAs_erase (e := .reg op f) (wf.symm.trans ok) hx
  simp only [erasingRegs, List.forall_mem_cons]
  refine ⟨plain .add3 rfl rfl, plain .sub3 rfl rfl, plain .xor3 rfl rfl, plain .and rfl rfl, plain .or rfl rfl, plain .mul rfl rfl,
    plain .mulh rfl rfl, plain .shl rfl rfl, plain .shr rfl rfl, plain .sar rfl rfl, plain .mov rfl rfl, plain .clr rfl rfl,
    plain .ext rfl rfl, plain .norm rfl rfl, plain .popc rfl rfl, plain .cmpeq rfl rfl, plain .cmplt rfl rfl, plain .cmplo rfl rfl,
    List.forall_mem_nil _⟩

theorem issuesAs_erasingImms (s : State) (f : SimmW) (h : SwideW) :
    ∀ p ∈ erasingImms s f h, p.1.wf = true → IssuesAs p.2 p.1 s s := by
  have plain {i : Instr} (op : EImm) (hx : exec i s = runErase s i (.imm op f)) (wf : i.wf = op.ok f) :
      i.wf = true → IssuesAs (erasingImm s op f) i s s := fun ok => issuesAs_erase (e := .imm op f) (wf.symm.trans ok) hx
  simp only [erasingImms, List.forall_mem_cons]
  exact ⟨plain .andi rfl rfl, plain .ori rfl rfl, plain .shli rfl rfl, plain .shri rfl rfl, plain .sari rfl rfl,
    plain .movi rfl rfl, plain .bfx rfl rfl, plain .bfi rfl rfl, fun ok => issuesAs_erase (e := .wide h) ok rfl,
    List.forall_mem_nil _⟩

/-! ### Reversible words (R189) -/

/-- A reversible word over D whose result is v. -/
theorem issuesAs_rev {s : State} {i : Instr} {u : FUnit} {base work ramp d w n : Nat} {srcs : List Nat} {v : BitVec w}
    (value : n = v.toNat) (hx : exec i s = runRev s i u base work ramp d w srcs n) :
    IssuesAs (rev s u base work ramp d w srcs v) i s s := by
  refine issuesAs_of_onlyCharges (onlyCharges_chargeZero d w) (hx.trans ?_) rfl
  rw [runRev, ofNat_eq v n value]
  rfl

theorem issuesAs_reversible (s : State) (f : SregW) : ∀ p ∈ reversible s f, IssuesAs p.2 p.1 s s := by
  have low (n : Nat) : srcLow s (tyBits f.ty) n = (lo s (tyBits f.ty) n).toNat := (setWidth_srcVal_toNat ..).symm
  have pos := tyBits_pos f.ty
  simp only [reversible, List.forall_mem_cons]
  refine ⟨issuesAs_rev ?_ rfl, issuesAs_rev ?_ rfl, issuesAs_rev ?_ rfl, issuesAs_rev ?_ rfl, issuesAs_rev ?_ rfl,
    issuesAs_rev ?_ rfl, List.forall_mem_nil _⟩
  · rw [low, low, BitVec.toNat_add]
  · rw [low, low, BitVec.toNat_sub]
    congr 1
    have := (lo s (tyBits f.ty) f.a).isLt
    omega
  · rw [low, low, BitVec.toNat_xor]
  · rw [low, BitVec.toNat_neg]
  · have count : srcLow s (tyBits f.ty) f.a % 64 % tyBits f.ty = (srcVal s f.a).toNat % 64 % tyBits f.ty := by
      rw [srcLow, lowBits]
      rcases tyBits_cases f.ty with h | h | h | h <;> rw [h] <;> omega
    rw [low, count, rotL_toNat _ (Nat.mod_lt _ pos)]
  · have one : (1 : BitVec (tyBits f.ty)).toNat = 1 := Nat.mod_eq_of_lt (Nat.one_lt_two_pow pos.ne')
    rw [low, low, BitVec.toNat_mul, BitVec.toNat_or, one]

theorem issuesAs_reversibleImm (s : State) (f : SimmW) : ∀ p ∈ reversibleImm s f, IssuesAs p.2 p.1 s s := by
  have low (n : Nat) : srcLow s (tyBits f.ty) n = (lo s (tyBits f.ty) n).toNat := (setWidth_srcVal_toNat ..).symm
  have pos := tyBits_pos f.ty
  simp only [reversibleImm, List.forall_mem_cons]
  refine ⟨issuesAs_rev ?_ rfl, issuesAs_rev ?_ rfl, issuesAs_rev ?_ rfl, issuesAs_rev ?_ rfl, List.forall_mem_nil _⟩
  · rw [low, immW_eq, BitVec.toNat_add]
  · rw [low, immW_eq, BitVec.toNat_xor]
  · rw [low, rotL_toNat _ (Nat.mod_lt _ pos)]
  · rw [low, immW_eq, BitVec.toNat_mul]

theorem issuesAs_xorw (s : State) {f : SwideW} (wf : (Instr.xorw f).wf = true) : IssuesAs (xorw s f) (.xorw f) s s := by
  have half := BitVec.extractLsb'_toNat (32 * f.h) 32 (srcVal s f.d)
  have imm : f.imm < 2 ^ 32 := by
    simp only [Instr.wf, SwideW.fits, Bool.and_eq_true, decide_eq_true_eq] at wf
    exact wf.2
  have value : (srcVal s f.d).toNat / 2 ^ (32 * f.h) % 2 ^ 32 ^^^ f.imm =
      ((srcVal s f.d).extractLsb' (32 * f.h) 32 ^^^ BitVec.ofNat 32 f.imm).toNat := by
    rw [BitVec.toNat_xor, half, Nat.shiftRight_eq_div_pow, BitVec.toNat_ofNat, Nat.mod_eq_of_lt imm]
  refine issuesAs_of_onlyCharges (onlyCharges_chargeZero f.d 32) ?_ rfl
  rw [exec, execXorw]
  simp only [ofNat_eq _ _ value]
  rfl

/-- The charge of an exchange with s0 (R186). -/
theorem onlyCharges_chargeSwap (d a w : Nat) :
    OnlyCharges (chargeSwap d a w) (if d = a then 0 else (if d = 0 then w else 0) + (if a = 0 then w else 0)) 0 0 := by
  by_cases same : d = a
  · rw [if_pos same, show chargeSwap d a w = fun c => c from funext fun c => if_pos same]
    exact onlyCharges_none
  · rw [if_neg same, show chargeSwap d a w = fun c => (c.chargeZero d w).chargeZero a w from funext fun c => if_neg same]
    exact (onlyCharges_chargeZero d w).comp (onlyCharges_chargeZero a w)

/-- SWAP and CSWAP (R189, R190). -/
theorem issuesAs_exchange {s : State} {i : Instr} {f : SregW} {srcs : List Nat} {swap : Bool}
    (hx : exec i s = runNext s i false [.alu] f.ramp srcs
      (swapLands s f.ramp f.d f.a (tyBits f.ty) (srcLow s (tyBits f.ty) (if swap then f.a else f.d))
        (srcLow s (tyBits f.ty) (if swap then f.d else f.a))) none (2 * tyBits f.ty)
      (fun s => onCore s (chargeSwap f.d f.a (tyBits f.ty)))) :
    IssuesAs (exchange s f srcs swap) i s s := by
  have low (n : Nat) : BitVec.ofNat 64 (srcLow s (tyBits f.ty) n) = (lo s (tyBits f.ty) n).setWidth 64 :=
    ofNat_eq _ _ (setWidth_srcVal_toNat ..).symm
  refine issuesAs_of_onlyCharges (onlyCharges_chargeSwap f.d f.a (tyBits f.ty)) (hx.trans ?_) rfl
  simp only [swapLands, low]
  cases swap <;> rfl

theorem issuesAs_swap (s : State) (f : SregW) : IssuesAs (exchange s f [f.d, f.a] true) (.swap f) s s := issuesAs_exchange rfl

theorem issuesAs_cswap (s : State) (f : SregW) :
    IssuesAs (exchange s f [f.d, f.a, f.c] ((srcVal s f.c).getLsbD 0)) (.cswap f) s s := by
  refine issuesAs_exchange ?_
  rw [exec, execCswap]
  cases (srcVal s f.c).getLsbD 0 <;> rfl

/-! ### MIN and MAX (R195), BPERM.e (R199) -/

/-- A beats D as R195 says. -/
theorem pick_toNat (isMax : Bool) (ty : Nat) (x y : BitVec (tyBits ty)) : pick isMax ty x.toNat y.toNat = beats isMax ty x y := by
  cases isMax <;> cases sg : tySigned ty <;> simp only [pick, beats, sg, lessThan_signed, lessThan_unsigned] <;> rfl

theorem issuesAs_minmax {s : State} {i : Instr} {isMax : Bool} {f : SregW} (hx : exec i s = runMinMax s i isMax f) :
    IssuesAs (minmax s isMax f) i s s := by
  refine issuesAs_of_onlyCharges (onlyCharges_chargeDst f.d (tyBits f.ty)) (hx.trans ?_) rfl
  have wins := pick_toNat isMax f.ty (lo s (tyBits f.ty) f.d) (lo s (tyBits f.ty) f.a)
  rw [setWidth_srcVal_toNat, setWidth_srcVal_toNat] at wins
  have value (c : Bool) : BitVec.ofNat 64 (if c then srcLow s (tyBits f.ty) f.a else srcLow s (tyBits f.ty) f.d) =
      (if c then lo s (tyBits f.ty) f.a else lo s (tyBits f.ty) f.d).setWidth 64 := by
    cases c <;> exact ofNat_eq _ _ (setWidth_srcVal_toNat ..).symm
  simp only [runMinMax, Issue.runs, minmax, Issue.plain, wins, value, Bool.or_eq_true]
  rfl

theorem pair_toNat (s : State) (n : Nat) : (pair s n).toNat = pairVal s n := by
  rw [pair, pairVal, BitVec.toNat_append, ← Nat.shiftLeft_add_eq_or_of_lt (srcVal s n).isLt, Nat.shiftLeft_eq]
  exact Nat.add_comm ..

/-- The two halves of a number's low 128 bits. -/
theorem extract_ofNat_low (t : Nat) : (BitVec.ofNat 128 t).extractLsb' 0 64 = BitVec.ofNat 64 t := by
  apply BitVec.eq_of_toNat_eq
  rw [BitVec.extractLsb'_toNat, BitVec.toNat_ofNat, BitVec.toNat_ofNat, Nat.shiftRight_zero]
  omega

theorem extract_ofNat_high (t : Nat) : (BitVec.ofNat 128 t).extractLsb' 64 64 = BitVec.ofNat 64 (t / 2 ^ 64) := by
  apply BitVec.eq_of_toNat_eq
  rw [BitVec.extractLsb'_toNat, BitVec.toNat_ofNat, BitVec.toNat_ofNat, Nat.shiftRight_eq_div_pow]
  omega

theorem issuesAs_bpermE (s : State) (f : SregW) : IssuesAs (permuted s f f.a
    (BitVec.ofNat 128 (permute (s.core.pattern f.b) (pair s f.a).toNat)) 128) (.bpermE f) s s := by
  refine issuesAs_of_onlyCharges (onlyCharges_eraseReg 128) ?_ rfl
  rw [permuted, extract_ofNat_low, extract_ofNat_high, pair_toNat]
  rfl

/-- Every word of registers alone that may charge issues as its row says (R186-R199). -/
theorem issuesAs_chargingWords (s : State) (f : SregW) (g : SimmW) (h : SwideW) :
    ∀ p ∈ chargingWords s f g h, p.1.wf = true → IssuesAs p.2 p.1 s s := by
  intro p
  simp only [chargingWords, List.mem_append, or_imp, List.mem_cons, List.not_mem_nil, or_false]
  refine ⟨⟨⟨⟨issuesAs_erasingRegs s f p, issuesAs_erasingImms s g h p⟩, fun listed _ => issuesAs_reversible s f p listed⟩,
    fun listed _ => issuesAs_reversibleImm s g p listed⟩, ?_⟩
  refine ⟨?_, ?_, ?_, ?_, ?_, ?_⟩
  · rintro rfl wf
    exact issuesAs_xorw s wf
  · rintro rfl -
    exact issuesAs_minmax rfl
  · rintro rfl -
    exact issuesAs_minmax rfl
  · rintro rfl -
    exact issuesAs_swap s f
  · rintro rfl -
    exact issuesAs_cswap s f
  · rintro rfl -
    exact issuesAs_bpermE s f

end Sys2Proof.Machine
end

section
/-! Control registers (R153-R157, R170, R182, R235, R236, R241): who may read and write them, what each reads as, and the words that
do so. -/

namespace Sys2Proof.Machine
open Sys2Proof.Stmt

/-! ### Words that their own check stops (R84) -/

theorem gate_ready {w : Issue} {s : State} (ready : w.ready s) : gate s w.sys w.units w.srcs w.results = none := by
  have pass := stopOf_ready ready
  simp only [stopOf, Option.or_eq_none_iff] at pass
  exact pass.1.1

/-- A word that only its own check stops. -/
theorem runWord_stops {w : Issue} {s : State} (ready : w.ready s) (i : Instr) (st : Stop) (eff : State → State) :
    runWord s i w.sys w.units w.ramp w.srcs w.results (some st) w.work w.npc w.nbt eff = .next (stopWord s i w.srcs st) := by
  simp [runWord, stopOf, gate_ready ready]

/-! ### Access and range (R153, R154) -/

theorem crWritable_iff (v : View) (n : Nat) : crWritable v n = true ↔ n ∈ crWrites v := by
  cases v <;> simp only [crWritable, crWrites, Bool.or_eq_true, Bool.and_eq_true, decide_eq_true_eq, beq_iff_eq, List.mem_cons,
    List.not_mem_nil, or_false] <;> omega

theorem crDenied_eq_false_iff (c : Core) (n : Nat) (wr : Bool) : c.crDenied n wr = false ↔ crAllows c n wr := by
  simp only [Core.crDenied, crSystemOnly, Bool.or_eq_false_iff, Bool.and_eq_false_imp, decide_eq_false_iff_not, Nat.not_le,
    Bool.not_eq_false', crWritable_iff, decide_eq_true_eq]

theorem crStop_allowed {c : Core} {n : Nat} {wr : Bool} (allows : crAllows c n wr) : crStop c n wr = none := by
  rw [crStop, (crDenied_eq_false_iff c n wr).2 allows]
  rfl

theorem crStop_denied {c : Core} {n : Nat} {wr : Bool} (denies : ¬ crAllows c n wr) : crStop c n wr = some (.fault 0x1F 0 0) := by
  rw [← crDenied_eq_false_iff, Bool.not_eq_false] at denies
  rw [crStop, denies]
  rfl

/-- What the unit may write the handler may write too. -/
theorem mem_crWrites_system {v : View} {n : Nat} (listed : n ∈ crWrites v) : n ∈ crWrites .system := by
  cases v
  · simp only [crWrites, List.mem_cons, List.not_mem_nil, or_false] at listed ⊢
    omega
  · exact listed

/-- A value is refused outside its register's range (R154 step 4); UHTOP has a rule of its own (R170). -/
theorem crRange_eq (c : Core) {n : Nat} (v : Word) (listed : n ∈ crWrites .system) (other : n ≠ 0x119) :
    (crTakes c n v → c.crRange n v = none) ∧ (¬ crTakes c n v → c.crRange n v = some 0x02) := by
  have when {p : Prop} {b : Bool} (hb : b = true ↔ ¬ p) :
      (p → (if b then some 0x02 else none) = none) ∧ (¬ p → (if b then some 0x02 else none) = some 0x02) := by
    cases b <;> simp_all
  have always : (True → (none : Option Nat) = none) ∧ (¬ True → (none : Option Nat) = some 0x02) := by simp
  simp only [crWrites, List.mem_cons, List.not_mem_nil, or_false] at listed
  rcases listed with rfl | rfl | rfl | rfl | rfl | rfl | rfl | rfl | rfl | rfl | rfl | rfl | rfl | rfl | rfl | rfl | rfl
  · exact when (by simp only [crTakes, Bool.not_eq_true', Bool.and_eq_false_iff, decide_eq_false_iff_not, not_and_or])
  · exact always
  · exact when (by simp only [crTakes, Bool.or_eq_true, decide_eq_true_eq, not_and_or, Nat.not_lt, Bool.not_eq_false, BitVec.testBit_toNat])
  · exact when (by simp only [crTakes, decide_eq_true_eq, Nat.not_le])
  · exact when (by simp only [crTakes, Bool.or_eq_true, decide_eq_true_eq, not_and_or, Nat.not_le, ne_eq])
  · exact when (by simp only [crTakes, Bool.or_eq_true, decide_eq_true_eq, not_and_or, Nat.not_lt, ne_eq])
  · exact when (by simp only [crTakes, decide_eq_true_eq, ne_eq])
  iterate 8 exact always
  · exact absurd rfl other
  · exact when (by simp only [crTakes, Bool.not_eq_true', Bool.and_eq_false_iff, decide_eq_false_iff_not, not_and_or])

section
variable {c : Core} {n : Nat} {v : Word} (allows : crAllows c n true) (other : n ≠ 0x119)
include allows other

/-- A write that is allowed, of a value in range, is stopped by no check of its own. -/
theorem crStops_none (takes : crTakes c n v) : (crStop c n true).or (crValueStop c n v) = none := by
  rw [crStop_allowed allows, crValueStop, (crRange_eq c v (mem_crWrites_system (allows.2 rfl)) other).1 takes]
  rfl

theorem crStops_range (refuses : ¬ crTakes c n v) : (crStop c n true).or (crValueStop c n v) = some (.fault 0x02 0 0) := by
  rw [crStop_allowed allows, crValueStop, (crRange_eq c v (mem_crWrites_system (allows.2 rfl)) other).2 refuses]
  rfl

end

theorem crStops_denied {c : Core} {n : Nat} {v : Word} (denies : ¬ crAllows c n true) :
    (crStop c n true).or (crValueStop c n v) = some (.fault 0x1F 0 0) := by
  rw [crStop_denied denies]
  rfl

/-- UHTOP takes a value that lies in the user partition below its top (R170). -/
theorem crValueStop_uhtop (c : Core) (v : Word) :
    crValueStop c 0x119 v = if c.ut.base ≤ v.toNat ∧ v.toNat < c.ut.top then none else some (.fault 0x1F 0 0) := by
  simp only [crValueStop, Core.crRange]
  split <;> rfl

/-! ### CRWR, CRSET, CRCLR and CRSWP (R236, R241) -/

/-- A write charges the unit's registers to EBITS and the handler's, which the system view alone writes, to XEBITS (R241). -/
theorem charges_chargeCr {u : Core} {n : Nat} (handler : u.view = .unit → n < 0x100) :
    Charges u (u.chargeCr n) (if n < 0x100 then 0 else 64) (if n < 0x100 then 64 else 0) 0 := by
  unfold Core.chargeCr
  split
  · exact charges_own u 64
  · next high =>
    have system : u.view = .system := by
      cases view : u.view
      · exact absurd (handler view) high
      · rfl
    have same : u.eraseX 64 = u.eraseReg 64 := by rw [Core.eraseReg, system]
    rw [same]
    exact charges_eraseReg u 64

theorem chargeCr_eq (u : Core) (n : Nat) : u.chargeCr n = { u with
    ebits := (u.chargeCr n).ebits, xebits := (u.chargeCr n).xebits, ej := (u.chargeCr n).ej, qp := (u.chargeCr n).qp } := by
  unfold Core.chargeCr
  split <;> rfl

/-- The issue of a control-register write. -/
def crWriting (s : State) (f : SsysW) (v : Word) : Issue :=
  { crWord s f.ramp [f.a] [.creg (landsAs s.core f.sel) v] 64 with
    own := if f.sel < 0x100 then 64 else 0, regs := if f.sel < 0x100 then 0 else 64 }

section
variable {s : State} {i : Instr} {f : SsysW} {v : Word} (runs : exec i s = runCrWrite s i f v)
include runs

theorem issuesAs_crWrite (allows : crAllows s.core f.sel true) (other : f.sel ≠ 0x119) (takes : crTakes s.core f.sel v) :
    IssuesAs (crWriting s f v) i s s := by
  refine ⟨fun s => onCore s (·.chargeCr f.sel), ?_, ?_, ?_⟩
  · rw [runs, runCrWrite, crStops_none allows other takes]
    rfl
  · exact charges_chargeCr (by rw [Issue.issued_core]; exact allows.1)
  · exact withIssue_issue (f := (·.chargeCr f.sel)) (hf := (chargeCr_eq · f.sel)) ..

theorem crWrite_stops (ready : (crWriting s f v).ready s) :
    (¬ crAllows s.core f.sel true → stops i s [f.a] 0x1F 0 0) ∧
    (crAllows s.core f.sel true → f.sel ≠ 0x119 → ¬ crTakes s.core f.sel v → stops i s [f.a] 0x02 0 0) := by
  refine ⟨fun denies => ?_, fun allows other refuses => ?_⟩
  · rw [stops, runs, runCrWrite, crStops_denied denies]
    exact runWord_stops ready ..
  · rw [stops, runs, runCrWrite, crStops_range allows other refuses]
    exact runWord_stops ready ..

end

/-- The words of `crWriters` write what they list (R236), and not UHTOP (R170). -/
theorem exec_crWriters (s : State) (f : SsysW) :
    ∀ p ∈ crWriters s f, exec p.1 s = runCrWrite s p.1 f p.2 ∧ (p.1.wf = true → f.sel ≠ 0x119) := by
  simp only [crWriters, List.forall_mem_cons]
  have sel : (f.fits && f.d == 0 && f.noKScMask && crNumOk f.sel && f.sel != crUhtop) = true → f.sel ≠ 0x119 := by
    simp only [Bool.and_eq_true, bne_iff_ne, crUhtop]
    exact fun wf => wf.2
  exact ⟨⟨rfl, sel⟩, ⟨rfl, sel⟩, ⟨rfl, sel⟩, List.forall_mem_nil _⟩

/-- The issue of CRSWP (R236). -/
def crSwapping (s : State) (f : SsysW) : Issue :=
  crWord s f.ramp [f.d] [.creg (landsAs s.core f.sel) (srcVal s f.d), .sreg f.d 0 64 (crRead s f.sel)] 128

/-- CRSWP exchanges, and charges nothing (R236). -/
theorem crswp_runs {s : State} {f : SsysW} (wf : (Instr.crswp f).wf = true) (ready : (crSwapping s f).ready s) :
    (¬ crAllows s.core f.sel true → stops (.crswp f) s [f.d] 0x1F 0 0) ∧
    (crAllows s.core f.sel true → crTakes s.core f.sel (srcVal s f.d) → (crSwapping s f).does (.crswp f) s s) ∧
    (crAllows s.core f.sel true → ¬ crTakes s.core f.sel (srcVal s f.d) → stops (.crswp f) s [f.d] 0x02 0 0) := by
  have other : f.sel ≠ 0x119 := by
    simp only [Instr.wf, Bool.and_eq_true, bne_iff_ne, crUhtop] at wf
    exact wf.2
  refine ⟨fun denies => ?_, fun allows takes => ?_, fun allows refuses => ?_⟩
  · rw [stops, exec, execCrswp, crStops_denied denies]
    exact runWord_stops ready ..
  · refine (issuesAs_of_onlyCharges onlyCharges_none ?_ rfl).does ready
    rw [exec, execCrswp, crStops_none allows other takes]
    rfl
  · rw [stops, exec, execCrswp, crStops_range allows other refuses]
    exact runWord_stops ready ..

/-! ### Writes of UHTOP (R170) -/

/-- The issue of a write of UHTOP that leaves v; `lands` is CRSWP's result. -/
def uhtopWriting (s : State) (how : CrWrite) (f : SsysW) (src : Nat) (v : Word) (lands : List Land) : Issue :=
  { crWord s f.ramp [src] (.creg 0x119 v :: lands) (if how = .swp then 128 else 64) with own := s.core.ut.top - v.toNat }

/-- Each of the four writes runs with its own check, that UHTOP's value drops bits (R170). -/
theorem exec_uhtopWriters (s : State) (f : SsysW) : ∀ p ∈ uhtopWriters s f,
    exec (.uhtopWrite p.1 f) s = (let w := uhtopWriting s p.1 f p.2.1 p.2.2.1 p.2.2.2
      runWord s (.uhtopWrite p.1 f) w.sys w.units w.ramp w.srcs w.results
        ((crStop s.core 0x119 true).or (crValueStop s.core 0x119 p.2.2.1)) w.work w.npc w.nbt
        (fun s => onCore s (fun c => c.erase (c.ut.top - p.2.2.1.toNat) false))) := by
  simp only [uhtopWriters, List.forall_mem_cons]
  exact ⟨rfl, rfl, rfl, rfl, List.forall_mem_nil _⟩

/-- The handler may write UHTOP, and no other (R153). -/
theorem uhtopStops (c : Core) (v : Word) : (crStop c 0x119 true).or (crValueStop c 0x119 v) =
    if c.view = .system ∧ c.ut.base ≤ v.toNat ∧ v.toNat < c.ut.top then none else some (.fault 0x1F 0 0) := by
  cases view : c.view
  · rw [crStop_denied (by simp [crAllows, view]), if_neg (by simp)]
    rfl
  · rw [crStop_allowed (by simp [crAllows, crWrites, view]), crValueStop_uhtop]
    simp

theorem issuesAs_uhtopWriting {s : State} {how : CrWrite} {f : SsysW} {src : Nat} {v : Word} {lands : List Land}
    (runs : exec (.uhtopWrite how f) s = (uhtopWriting s how f src v lands).runs s (.uhtopWrite how f)
      (fun s => onCore s (fun c => c.erase (c.ut.top - v.toNat) false))) :
    IssuesAs (uhtopWriting s how f src v lands) (.uhtopWrite how f) s s := by
  refine ⟨_, runs, ?_, ?_⟩
  · have charges := charges_own ((uhtopWriting s how f src v lands).issued s).core (s.core.ut.top - v.toNat)
    have same : ((uhtopWriting s how f src v lands).issued s).core.ut = s.core.ut := by rw [Issue.issued_core]
    rw [onCore, same]
    exact charges
  · exact withIssue_issue (f := fun c => c.erase (c.ut.top - v.toNat) false) (hf := fun _ => rfl) ..

/-- UHTOP lowered drops the bits from there up (R170). -/
theorem crWrite_uhtop {c : Core} {u : Trug} {v : Word} (low : u.base ≤ v.toNat) (high : v.toNat < u.top) (part : c.ut = u) :
    (c.crWrite 0x119 v).ut = { u with bits := u.bits % 2 ^ (v.toNat - u.base), top := v.toNat } := by
  subst part
  simp [Core.crWrite, Nat.min_eq_right high.le, Nat.max_eq_right low]

/-! ### CRRD (R236, R330) -/

theorem advanceDrain_bed (s : State) (n : Nat) : (advanceDrain s n).bed = s.bed :=
  congrArg (·.1) (advanceDrain_clock s n)

/-- A change of the focused core that keeps its number is made in the focus. -/
theorem modCore_focus {s : State} {f : Core → Core} (num : (f s.core).num = s.core.num) :
    modCore s s.core.num f = { s with core := f s.core } := by
  rw [modCore, getCore, if_pos rfl, setCore, if_pos num.symm]

theorem advanceDrain_core_pc (s : State) : (advanceDrain s s.core.num).core.pc = s.core.pc := by
  unfold advanceDrain
  split
  · rfl
  · dsimp only
    split
    · rfl
    · rw [show s.core.num = (drawFree s).1.core.num from rfl, modCore_focus rfl]
      rfl

theorem crSample_pc (s : State) (n : Nat) : (crSample s n).core.pc = s.core.pc := by
  unfold crSample
  split
  · exact advanceDrain_core_pc s
  · rfl

theorem crSample_bed (s : State) (n : Nat) : (crSample s n).bed = s.bed := by
  unfold crSample
  split
  · exact advanceDrain_bed ..
  · rfl

/-- The issue of CRRD at s, where its register has the value that s1 shows. -/
def crReading (s s1 : State) (f : SsysW) : Issue :=
  { crWord s f.ramp [] [dstLand f.d 0 64 (crRead s1 f.sel) 0] 64 with regs := if isPort f.d then 0 else 64 }

/-- Looking at AMAX leaves the word's place and its tick. -/
theorem crReading_sample (s : State) (f : SsysW) (s1 : State) : crReading (crSample s f.sel) s1 f = crReading s s1 f := by
  have due (l : Land) : dueAt (crSample s f.sel) 1 f.ramp l = dueAt s 1 f.ramp l := by rw [dueAt, crSample_bed]; rfl
  simp only [crReading, crWord, Issue.plain, List.map_cons, due, crSample_pc, crSample_bed, List.map_nil]

theorem exec_crrd (s : State) (f : SsysW) : exec (.crrd f) s = (let s1 := crSample s f.sel
    let w := crReading s s1 f
    runWord s1 (.crrd f) w.sys w.units w.ramp w.srcs w.results (crStop s.core f.sel false) w.work w.npc w.nbt
      (fun s => onCore s (·.chargeDst f.d 64))) := by
  dsimp only
  rw [← crReading_sample]
  rfl

section
variable {s : State} {f : SsysW} (ready : (crReading s (crSample s f.sel) f).ready (crSample s f.sel))
include ready

theorem crrd_completes (allows : crAllows s.core f.sel false) :
    ∃ t, exec (.crrd f) s = .next t ∧ (crReading s (crSample s f.sel) f).went (crSample s f.sel) t ∧
      t = { crSample s f.sel with core := (crSample s f.sel).core.withIssue t.core } := by
  rw [exec_crrd, crStop_allowed allows]
  exact Issue.completes ready ((onlyCharges_chargeDst f.d 64).charges _)
    (withIssue_issue (f := (·.chargeDst f.d 64)) (hf := (onlyCharges_chargeDst f.d 64).only) ..) _

theorem crrd_stops (denies : ¬ crAllows s.core f.sel false) :
    exec (.crrd f) s = .next (stopWord (crSample s f.sel) (.crrd f) [] (.fault 0x1F 0 0)) := by
  rw [exec_crrd, crStop_denied denies]
  exact runWord_stops ready ..

end

/-- CRRD of a register other than AMAX (R236). -/
theorem issuesAs_crrd {s : State} {f : SsysW} (allows : crAllows s.core f.sel false) (plain : f.sel ≠ 0x022) :
    IssuesAs (crReading s s f) (.crrd f) s s := by
  refine issuesAs_of_onlyCharges (onlyCharges_chargeDst f.d 64) ?_ rfl
  rw [exec_crrd, crStop_allowed allows, crSample, if_neg plain]
  rfl

/-! ### What registers read as (R31, R155, R157, R182) -/

/-- The number whose bits below n are those that p gives. -/
def flagBits (p : Nat → Bool) (n : Nat) : Nat := (List.range n).foldl (fun a k => if p k then a + 2 ^ k else a) 0

theorem flagBits_succ (p : Nat → Bool) (n : Nat) : flagBits p (n + 1) = flagBits p n + 2 ^ n * (p n).toNat := by
  rw [flagBits, List.range_succ, List.foldl_append]
  change (if p n then flagBits p n + 2 ^ n else flagBits p n) = _
  cases p n <;> simp

theorem flagBits_lt (p : Nat → Bool) (n : Nat) : flagBits p n < 2 ^ n := by
  induction n with
  | zero => exact Nat.one_pos
  | succ n ih =>
    have bit : 2 ^ n * (p n).toNat ≤ 2 ^ n * 1 := Nat.mul_le_mul_left _ (Bool.toNat_le _)
    rw [flagBits_succ, pow_succ]
    omega

theorem testBit_flagBits (p : Nat → Bool) (n k : Nat) : (flagBits p n).testBit k = (decide (k < n) && p k) := by
  induction n with
  | zero => simp [flagBits]
  | succ n ih =>
    rw [flagBits_succ, Nat.add_comm, Nat.testBit_two_pow_mul_add _ (flagBits_lt p n), ih]
    rcases Nat.lt_trichotomy k n with h | rfl | h
    · simp [h, Nat.lt_succ_of_lt h]
    · cases p k <;> simp
    · have small : (p n).toNat < 2 ^ (k - n) := (Bool.toNat_lt _).trans_le (Nat.le_self_pow (by omega) 2)
      rw [if_neg (by omega), Nat.testBit_lt_two_pow small, decide_eq_false (by omega), Bool.false_and]

/-- The number whose fields of w bits below field n are the values that f gives. -/
def fieldsOf (f : Nat → Nat) (w n : Nat) : Nat := (List.range n).foldl (fun a q => a + f q * 2 ^ (w * q)) 0

theorem fieldsOf_succ (f : Nat → Nat) (w n : Nat) : fieldsOf f w (n + 1) = fieldsOf f w n + 2 ^ (w * n) * f n := by
  rw [fieldsOf, List.range_succ, List.foldl_append, Nat.mul_comm (2 ^ _)]
  rfl

theorem fieldsOf_lt {f : Nat → Nat} {w n : Nat} (small : ∀ q < n, f q < 2 ^ w) : fieldsOf f w n < 2 ^ (w * n) := by
  induction n with
  | zero => exact Nat.one_pos
  | succ n ih =>
    have low := ih fun q hq => small q (Nat.lt_succ_of_lt hq)
    have high : 2 ^ (w * n) * (f n + 1) ≤ 2 ^ (w * n) * 2 ^ w := Nat.mul_le_mul_left _ (small n (Nat.lt_succ_self n))
    rw [fieldsOf_succ, Nat.mul_succ, pow_add]
    rw [Nat.mul_succ] at high
    omega

/-- Field p of such a number, whatever stands above its fields. -/
theorem bits_fieldsOf {f : Nat → Nat} {w n p : Nat} (small : ∀ q < n, f q < 2 ^ w) (hp : p < n) (r : Nat) :
    bits (fieldsOf f w n + 2 ^ (w * n) * r) (w * p) w = f p := by
  induction n generalizing r with
  | zero => exact absurd hp (Nat.not_lt_zero p)
  | succ n ih =>
    have below : ∀ q < n, f q < 2 ^ w := fun q hq => small q (Nat.lt_succ_of_lt hq)
    have split_ : fieldsOf f w (n + 1) + 2 ^ (w * (n + 1)) * r = fieldsOf f w n + 2 ^ (w * n) * (f n + 2 ^ w * r) := by
      rw [fieldsOf_succ, Nat.mul_succ, pow_add]
      ring
    rw [split_]
    rcases Nat.lt_succ_iff_lt_or_eq.1 hp with h | rfl
    · exact ih below h _
    · rw [bits, Nat.add_mul_div_left _ _ (by positivity), Nat.div_eq_of_lt (fieldsOf_lt below), Nat.zero_add,
        Nat.add_mul_mod_self_left, Nat.mod_eq_of_lt (small p hp)]

/-- TKSET shows the tokens, and bit 63 reads 1 (R31). -/
theorem tkset_getLsbD (c : Core) {k : Nat} (hk : k < 64) : c.tkset.getLsbD k = (c.tokSet k || k = 63) := by
  change (BitVec.ofNat 64 (flagBits (fun k => k = 63 || c.tokSet k) 64)).getLsbD k = _
  rw [BitVec.getLsbD_ofNat, testBit_flagBits, decide_eq_true hk]
  simp [Bool.or_comm]

theorem qstat_toNat {c : Core} (ports : ∀ p < 8, (c.port p).length < 2 ^ 5) (tq : c.tq.es.length < 64) (cq : c.cq.es.length < 64)
    (gq : c.gq.es.length < 32) (bq : c.bq.es.length < 64) :
    let q := c.qstat.toNat
    (∀ p < 8, bits q (5 * p) 5 = (c.port p).length) ∧ bits q 40 6 = c.tq.es.length ∧ bits q 46 6 = c.cq.es.length ∧
    bits q 52 5 = c.gq.es.length ∧ bits q 57 6 = c.bq.es.length ∧ bits q 63 1 = 0 := by
  have low := fieldsOf_lt ports
  have field {p : Nat} (hp : p < 8) := bits_fieldsOf ports hp
  have word : c.qstat = BitVec.ofNat 64 (fieldsOf (fun p => (c.port p).length) 5 8 + c.tq.es.length * 2 ^ 40 +
      c.cq.es.length * 2 ^ 46 + c.gq.es.length * 2 ^ 52 + c.bq.es.length * 2 ^ 57) := rfl
  have value : c.qstat.toNat = fieldsOf (fun p => (c.port p).length) 5 8 + 2 ^ (5 * 8) *
      (c.tq.es.length + 2 ^ 6 * (c.cq.es.length + 2 ^ 6 * (c.gq.es.length + 2 ^ 5 * c.bq.es.length))) := by
    rw [word, BitVec.toNat_ofNat]
    omega
  intro q
  simp only [q, value]
  refine ⟨fun p hp => field hp _, ?_⟩
  simp only [bits]
  omega

/-- XSTAT bit by bit (R157). -/
def xstatFlag (c : Core) (k : Nat) : Bool :=
  if k < 4 then c.pending.any (fun f => f.queue = k + 1)
  else [c.qp || c.deferred.any (fun r => r.fr.code = 0x08), c.thr, c.pre].getD (k - 4) false

theorem xstat_eq (c : Core) : c.xstat = BitVec.ofNat 64 (flagBits (xstatFlag c) 7) := by
  have waits : flagBits (xstatFlag c) 4 =
      (List.range 4).foldl (fun a n => if c.pending.any (fun f => f.queue = n + 1) then a + 2 ^ n else a) 0 := rfl
  have bit (b : Bool) (n : Nat) : (if b then n else 0) = n * b.toNat := by cases b <;> simp
  rw [flagBits_succ, flagBits_succ, flagBits_succ, waits]
  simp only [Core.xstat, bit]
  rfl

theorem xstat_getLsbD (c : Core) (k : Nat) : c.xstat.getLsbD k = (decide (k < 7) && xstatFlag c k) := by
  rw [xstat_eq, BitVec.getLsbD_ofNat, testBit_flagBits]
  by_cases h : k < 7
  · simp [h, Nat.lt_trans h (by decide : 7 < 64)]
  · simp [h]

theorem inbound_eq (s : State) (b : Nat) :
    let here (a : Access) : Bool := a.runs.any (fun r => paSpace r.1 = 2 && paPkg r.1 = s.plat.pkg && paCore r.1 / 8 = b)
    inbound s b = (((s.core :: s.others).filter (fun c => c.num / 8 ≠ b)).map (fun c => (c.accs.filter here).length)).sum := by
  intro here
  rw [List.sum_eq_foldl, List.foldl_map]
  rfl

/-- No entry of a queue runs in any core of a bed (R182). -/
def bedStill (s : State) (b : Nat) (q : EngQ) : Bool :=
  (List.range 8).all fun k => ((getCore s (8 * b + k)).queue q).es.all fun e => e.ph ≠ .running

/-- DBGSTAT's bits above INB: the four queues, STABLE. -/
def dbgHigh (s : State) (b : Nat) : List Bool :=
  let still := bedStill s b
  [still .trellis, still .copy, still .graft, still .bank,
    ((getBed s b).halt && (getBed s b).closed) && decide (inbound s b = 0) && still .trellis && still .copy && still .graft && still .bank]

/-- DBGSTAT as three groups of fields (R182). -/
theorem dbgstat_eq (s : State) (b : Nat) : dbgstat s b = BitVec.ofNat 64
    (2 ^ 2 * (2 ^ 16 * flagBits (fun k => (dbgHigh s b).getD k false) 5 + min (inbound s b) 65535) +
      flagBits (fun k => [(getBed s b).halt && (getBed s b).closed, (getBed s b).park].getD k false) 2) := by
  have bit (x : Bool) (n : Nat) : (if x then 2 ^ n else 0) = 2 ^ n * x.toNat := by cases x <;> simp
  have still (p : Core → EQueue) (q : EngQ) (hp : ∀ c, p c = c.queue q) :
      (bedCores s b).all (fun c => (p c).quiet) = bedStill s b q := by
    rw [bedCores, List.all_map, bedStill]
    simp only [hp]
    rfl
  have zero (p : Nat → Bool) : flagBits p 0 = 0 := rfl
  simp only [dbgstat, bit, still (·.tq) .trellis fun _ => rfl, still (·.cq) .copy fun _ => rfl, still (·.gq) .graft fun _ => rfl,
    still (·.bq) .bank fun _ => rfl, flagBits_succ, zero, dbgHigh, List.getD_cons_zero, List.getD_cons_succ, beq_eq_decide]
  congr 1
  omega

/-- DBGSTAT bit by bit: HALT and PARK, INB, the queues and STABLE (R182). -/
theorem dbgstat_bits (s : State) (b : Nat) : bits (dbgstat s b).toNat 2 16 = min (inbound s b) 65535 ∧
    (∀ k < 2, (dbgstat s b).getLsbD k = [(getBed s b).halt && (getBed s b).closed, (getBed s b).park].getD k false) ∧
    ∀ k ≥ 18, (dbgstat s b).getLsbD k = (decide (k < 23) && (dbgHigh s b).getD (k - 18) false) := by
  have low := flagBits_lt (fun k => [(getBed s b).halt && (getBed s b).closed, (getBed s b).park].getD k false) 2
  have high := flagBits_lt (fun k => (dbgHigh s b).getD k false) 5
  have mid : min (inbound s b) 65535 < 2 ^ 16 := by omega
  rw [dbgstat_eq]
  refine ⟨?_, fun k hk => ?_, fun k hk => ?_⟩
  · rw [bits, BitVec.toNat_ofNat]
    omega
  · rw [BitVec.getLsbD_ofNat, Nat.testBit_two_pow_mul_add _ low, if_pos hk, testBit_flagBits, decide_eq_true hk,
      decide_eq_true (by omega), Bool.true_and, Bool.true_and]
  · rw [BitVec.getLsbD_ofNat, Nat.testBit_two_pow_mul_add _ low, if_neg (by omega), Nat.testBit_two_pow_mul_add _ mid,
      if_neg (by omega), testBit_flagBits, Nat.sub_sub]
    by_cases h : k < 23
    · simp [h, Nat.lt_trans h (by decide : 23 < 64), show k - 18 < 5 by omega]
    · simp [h, show ¬ k - 18 < 5 by omega]

/-! ### The statement -/

theorem plainReads_holds (s : State) : plainReads s := by
  refine ⟨rfl, rfl, rfl, rfl, rfl, rfl, rfl, rfl, rfl, rfl, rfl, rfl, rfl, rfl, rfl, rfl, rfl, rfl, rfl, rfl, rfl, rfl, rfl, rfl, rfl,
    rfl, fun k hk => ?_⟩
  interval_cases k <;> exact ⟨rfl, rfl⟩

theorem queueBits_holds (s : State) : queueBits s :=
  ⟨fun ports tq cq gq bq => qstat_toNat ports tq cq gq bq, fun _ hk => tkset_getLsbD s.core hk⟩

theorem statusBits_holds (s : State) : statusBits s := by
  have x := xstat_getLsbD s.core
  obtain ⟨inb, low, high⟩ := dbgstat_bits s s.core.bedNum
  refine ⟨fun k hk => ?_, x 4, x 5, x 6, fun k hk => ?_, low 0 (by decide), low 1 (by decide), ?_, high 18 (by decide), high 19 (by decide),
    high 20 (by decide), high 21 (by decide), ?_, fun k hk => ?_⟩
  · rw [show crRead s 0x104 = s.core.xstat from rfl, x, xstatFlag, if_pos hk, decide_eq_true (by omega), Bool.true_and]
  · rw [show crRead s 0x104 = s.core.xstat from rfl, x, decide_eq_false (by omega), Bool.false_and]
  · rw [← inbound_eq]
    exact inb
  · rw [← inbound_eq]
    exact high 22 (by decide)
  · exact (high k (by omega)).trans (by rw [decide_eq_false (by omega), Bool.false_and])

/-- Settles O38: CRRD, CRSWP and the writes by their own lemmas, UHTOP's by its range, and each register's value read off. -/
theorem controlRegisterWords : Obligations.ControlRegisterWords := by
  unfold Obligations.ControlRegisterWords
  refine ⟨fun s f => ⟨fun _ ready => ⟨crrd_completes ready, crrd_stops ready⟩, crswp_runs, ?_⟩,
    fun s => ⟨plainReads_holds s, queueBits_holds s, statusBits_holds s⟩, ?_⟩
  · intro p listed w wf ready
    obtain ⟨runs, other⟩ := exec_crWriters s f p listed
    obtain ⟨denied, range⟩ := crWrite_stops runs ready
    exact ⟨denied, fun allows takes => (issuesAs_crWrite runs allows (other wf) takes).does ready,
      fun allows => range allows (other wf)⟩
  · rintro s f p listed - ready
    have runs := exec_uhtopWriters s f p listed
    rw [uhtopStops] at runs
    refine ⟨fun passes => ⟨?_, fun c part => crWrite_uhtop passes.2.1 passes.2.2 part⟩, fun refuses => ?_⟩
    · rw [if_pos passes] at runs
      exact (issuesAs_uhtopWriting runs).does ready
    · rw [if_neg refuses] at runs
      rw [stops, runs]
      exact runWord_stops ready ..

end Sys2Proof.Machine
end

section
/-! The words of memory and of the trug that charge, as they issue (R168, R197, R208, R209, R212, R214, R233, R234). -/

namespace Sys2Proof.Machine
open Sys2Proof.Stmt

/-- A word whose own effect changes more than its charges. -/
theorem issuesAs_of_charges {w : Issue} {i : Instr} {s : State} {eff : State → State} (runs : exec i s = w.runs s i eff)
    (charges : Charges (w.issued s).core (eff (w.issued s)).core w.regs w.own w.cells) : IssuesAs w i s (eff (w.issued s)) :=
  ⟨eff, runs, charges, rfl⟩

/-! ### Effects that charge nothing -/

theorem Charges.then_ {u v w : Core} {regs own cells : Nat} (h : Charges u v 0 0 0) (k : Charges v w regs own cells) :
    Charges u w regs own cells := by
  simpa only [Nat.zero_add] using h.trans k

theorem charges_setTrug (u : Core) (t : Trug) : Charges u (u.setTrug t) 0 0 0 := by
  unfold Core.setTrug
  split <;> exact .nothing rfl rfl rfl rfl rfl rfl rfl rfl rfl rfl rfl rfl rfl rfl

theorem charges_postAcc (s : State) (a : Access) : Charges s.core (postAcc s a).core 0 0 0 :=
  .nothing rfl rfl rfl rfl rfl rfl rfl rfl rfl rfl rfl rfl rfl rfl

theorem charges_addPending (u : Core) (f : FaultRec) : Charges u (u.addPending f) 0 0 0 :=
  .nothing rfl rfl rfl rfl rfl rfl rfl rfl rfl rfl rfl rfl rfl rfl

/-- A word that posts one access and charges. -/
theorem issuesAs_of_access {w : Issue} {i : Instr} {s : State} {f : Core → Core} {regs own cells : Nat}
    (effect : OnlyCharges f regs own cells) (bits : (w.regs, w.own, w.cells) = (regs, own, cells))
    (runs : ∃ a, exec i s = w.runs s i (fun s' => onCore (postAcc s' a) f)) : ∃ e, IssuesAs w i s e := by
  simp only [Prod.mk.injEq] at bits
  obtain ⟨rfl, rfl, rfl⟩ := bits
  obtain ⟨a, runs⟩ := runs
  exact ⟨_, issuesAs_of_charges runs ((charges_postAcc _ a).then_ (effect.charges _))⟩

theorem writeAt_core (s : State) (ps : List Place) (v : Nat) : (writeAt s ps v).1.core = s.core :=
  (congrArg State.core (writePlaces_memStep s (ps.zip (leBytes ps.length v))).1 :)

/-- A store's memory half posts its access, and perhaps a fault that waits (R171). -/
theorem charges_performWrite (s : State) (a : Access) (va : Nat) (ps : List Place) (v : Nat) :
    Charges s.core (performWrite s a va ps v).core 0 0 0 := by
  have posted := charges_postAcc (writeAt s ps v).1 a
  rw [writeAt_core] at posted
  unfold performWrite
  dsimp only
  split
  · exact posted.trans (charges_addPending ..)
  · exact posted

theorem zeroRuns_core (s : State) (l : List (Nat × Nat)) : (zeroRuns s l).core = s.core := by
  unfold zeroRuns
  induction l generalizing s with
  | nil => rfl
  | cons x l ih => rw [List.foldl_cons, ih]

/-! ### HDROP and ERASE (R233, R234) -/

/-- The issue of HDROP (R233). -/
def dropping (s : State) (f : SsysW) : Issue := { trugWord s f [] [] f.sel with regs := f.sel }

theorem issuesAs_hdrop {s : State} {f : SsysW} (held : s.core.trug.base + f.sel ≤ s.core.trug.top) :
    ∃ e, IssuesAs (dropping s f) (.hdrop f) s e := by
  have pop : s.core.popStop f.sel = none := if_neg (Nat.not_lt.2 held)
  refine ⟨_, issuesAs_of_charges (eff := fun s => onCore s (fun c => (c.setTrug (c.trug.pop f.sel).2).eraseReg f.sel)) ?_ ?_⟩
  · rw [exec, execHdrop, pop]
    rfl
  · exact (charges_setTrug _ _).then_ (charges_eraseReg _ f.sel)

/-- The issue of ERASE (R234). -/
def zeroing (s : State) (f : SsysW) : Issue :=
  let b := (srcVal s f.d).toNat
  { trugWord s f [f.a, f.d] [dueAt s (2 + (b + 2047) / 2048) f.ramp .nothing] (8 * b) with cells := 8 * b }

theorem issuesAs_zeroing {s : State} {f : SsysW} (grain : (srcVal s f.d).toNat % 16 = 0) (least : 16 ≤ (srcVal s f.d).toNat)
    (most : (srcVal s f.d).toNat ≤ 2097152)
    (pass : addrStop s s.core (srcVal s f.a).toNat (srcVal s f.d).toNat 16 true false = none)
    (own : (ownSpad s s.core (srcVal s f.a).toNat (srcVal s f.d).toNat).isSome) :
    ∃ e, IssuesAs (zeroing s f) (.erase f) s e := by
  obtain ⟨runs, area⟩ := Option.isSome_iff_exists.1 own
  let acc := { mkAcc s (.erase f) [f.a, f.d] .store 0 0 (srcVal s f.a).toNat 0 [] [] with runs := runs }
  refine ⟨_, issuesAs_of_charges
    (eff := fun s' => onCore (postAcc (zeroRuns s' runs) acc) (·.erase (8 * (srcVal s f.d).toNat) true)) ?_ ?_⟩
  · rw [exec, execErase]
    simp only [grain, Nat.not_lt.2 least, Nat.not_lt.2 most, pass, area, ne_eq, not_true_eq_false, or_self, if_false]
    rfl
  · have posted := charges_postAcc (zeroRuns ((zeroing s f).issued s) runs) acc
    rw [zeroRuns_core] at posted
    exact posted.then_ (charges_cells _ _)

/-! ### Values of accesses (R207, R212) -/

theorem spans_length {es : List Extent} {fuel va len : Nat} {l : List (Extent × Nat × Nat)} (h : spans es fuel va len = some l) :
    (l.map (·.2.2)).sum = len := by
  induction fuel generalizing va len l with
  | zero =>
    cases len <;> simp [spans] at h
    simp [h]
  | succ fuel ih =>
    cases len with
    | zero =>
      simp [spans] at h
      simp [h]
    | succ n =>
      simp only [spans] at h
      split at h
      · cases h
      · obtain ⟨r, rest, rfl⟩ := Option.map_eq_some_iff.1 h
        have := ih rest
        simp only [List.map_cons, List.sum_cons, this]
        omega

theorem spanPlaces_length {s : State} {wr : Bool} {x : Extent × Nat × Nat} {l : List Place} (h : spanPlaces s wr x = .ok l) :
    l.length = x.2.2 := by
  unfold spanPlaces at h
  refine Eq.trans ?_ (List.length_range (n := x.2.2))
  generalize List.range x.2.2 = offsets at h ⊢
  induction offsets generalizing l with
  | nil => cases h; rfl
  | cons i offsets ih =>
    rw [List.foldr_cons] at h
    split at h
    · next rest => cases h; rw [List.length_cons, List.length_cons, ih rest]
    · cases h
    · cases h

theorem spansPlaces_length {s : State} {wr : Bool} {xs : List (Extent × Nat × Nat)} {l : List Place}
    (h : spansPlaces s wr xs = .ok l) : l.length = (xs.map (·.2.2)).sum := by
  unfold spansPlaces at h
  induction xs generalizing l with
  | nil => cases h; rfl
  | cons x xs ih =>
    rw [List.foldr_cons] at h
    split at h
    · next p q here rest =>
      cases h
      rw [List.length_append, spanPlaces_length here, ih rest, List.map_cons, List.sum_cons]
    · cases h
    · cases h

/-- An access of n bytes has n places, or none where its address fails. -/
theorem placesOf_length_le (s : State) (c : Core) (va len : Nat) (wr : Bool) : (placesOf s c va len wr).length ≤ len := by
  unfold placesOf places
  cases found : coreSpans c va len with
  | none => exact Nat.zero_le _
  | some xs =>
    dsimp only
    cases spots : spansPlaces s wr xs with
    | error f => exact Nat.zero_le _
    | ok l => exact ((spansPlaces_length spots).trans (spans_length found)).le

theorem readPlaces_length {s : State} {ps : List Place} {bs : List Byte} (h : readPlaces s ps = .ok bs) : bs.length = ps.length := by
  unfold readPlaces at h
  split at h
  · cases h
  · cases h; exact List.length_map _

/-- The value of an access of len bytes. -/
theorem readAt_lt {s : State} {c : Core} {va len m : Nat} {wr : Bool} (h : readAt s va (placesOf s c va len wr) = .ok m) :
    m < 256 ^ len := by
  unfold readAt at h
  split at h
  · next bs read =>
    cases h
    refine (leNat_lt bs).trans_le (Nat.pow_le_pow_right (by decide) ?_)
    rw [readPlaces_length read]
    exact placesOf_length_le ..
  · cases h

theorem bytes_tyBits (ty : Nat) : 256 ^ (tyBits ty / 8) = 2 ^ tyBits ty := by
  rcases tyBits_cases ty with h | h | h | h <;> rw [h] <;> norm_num

/-- A load's value is the w bits extended to 64 (R212). -/
theorem extTo64_eq {ty m : Nat} (fits : m < 2 ^ tyBits ty) : extTo64 ty m =
    if tySigned ty then (BitVec.ofNat (tyBits ty) m).signExtend 64 else (BitVec.ofNat (tyBits ty) m).setWidth 64 := by
  have value : (BitVec.ofNat (tyBits ty) m).toNat = m := (BitVec.toNat_ofNat ..).trans (Nat.mod_eq_of_lt fits)
  unfold extTo64
  split
  · have signed := sgn_toNat (BitVec.ofNat (tyBits ty) m)
    rw [value] at signed
    rw [signed]
    rfl
  · exact ofNat_eq _ _ value.symm

/-! ### Landings of 64 bits (R186) -/

theorem insBits_all (base v : Word) : insBits base 0 64 v = v := by
  apply BitVec.eq_of_getLsbD_eq
  intro i hi
  rw [getLsbD_insBits _ _ _ _ hi, if_pos ⟨Nat.zero_le i, by omega⟩, Nat.sub_zero]

theorem dstLand_all (n : Nat) (v base : Word) : dstLand n 0 64 v base = if isPort n then .push (n - 56) v else .sreg n 0 64 v := by
  rw [dstLand, insBits_all]

/-! ### LD and LDX (R208, R212) -/

/-- The charge of LD or LDX for its destination (R208, R212). -/
def Core.chargeLoad (c : Core) (xor : Bool) (d : Nat) : Core := if xor then c.chargeZero d 64 else c.chargeDst d 64

theorem onlyCharges_chargeLoad (xor : Bool) (d : Nat) : OnlyCharges (·.chargeLoad xor d)
    (if xor then (if d = 0 then 64 else 0) else (if isPort d then 0 else 64)) 0 0 := by
  cases xor
  · exact onlyCharges_chargeDst d 64
  · exact onlyCharges_chargeZero d 64

/-- LD or LDX, by name. -/
def loadWord (xor : Bool) (f : SmemW) : Instr := if xor then .ldx f else .ld f

theorem exec_loadWord (s : State) (xor : Bool) (f : SmemW) : exec (loadWord xor f) s = runLoad s (loadWord xor f) xor f := by
  cases xor <;> rfl

theorem effAddr_eq (s : State) (a bits off : Nat) : effAddr s a bits off = addrOf s a bits off := rfl

/-- The results of a load of an absent extent (R208). -/
theorem loadOfAbsent_results (s : State) (xor : Bool) (f : SmemW) : (loadOfAbsent s xor f).results =
    dueAt s 4 f.ramp (if xor then (if isPort f.d then .push (f.d - 56) (srcVal s f.d) else .sreg f.d 0 0 0) else dstLand f.d 0 64 0 0) ::
      (if f.b = 0 then [] else [dueAt s 4 f.ramp (.sreg f.b 0 1 0)]) := by
  rw [loadOfAbsent, dstLand_all]
  cases xor <;> cases isPort f.d <;> rfl

section
variable {s : State} {xor : Bool} {f : SmemW}
  (pass : addrStop s s.core (addrOf s f.a 23 f.off) (tyBits f.ty / 8) (tyBits f.ty / 8) false false = none)
include pass

theorem issuesAs_load {m : Nat} (present : loadAbsent s.core (addrOf s f.a 23 f.off) = false)
    (read : readAt s (addrOf s f.a 23 f.off) (placesOf s s.core (addrOf s f.a 23 f.off) (tyBits f.ty / 8) false) = .ok m) :
    ∃ e, IssuesAs (load s xor f (accLat s s.core (placesOf s s.core (addrOf s f.a 23 f.off) (tyBits f.ty / 8) false) false) m)
      (loadWord xor f) s e := by
  have value := extTo64_eq (bytes_tyBits f.ty ▸ readAt_lt read)
  refine issuesAs_of_access (onlyCharges_chargeLoad xor f.d) rfl ?_
  rw [exec_loadWord, runLoad]
  simp only [effAddr_eq, pass, present, read, dstLand_all, value]
  exact ⟨_, rfl⟩

theorem issuesAs_loadOfAbsent (absent : loadAbsent s.core (addrOf s f.a 23 f.off) = true) :
    ∃ e, IssuesAs (loadOfAbsent s xor f) (loadWord xor f) s e := by
  have flag : OnlyCharges (fun c => if f.b = 0 then c else c.eraseReg 1) (if f.b = 0 then 0 else 1) 0 0 := by
    split
    · exact onlyCharges_none
    · exact onlyCharges_eraseReg 1
  refine ⟨s, issuesAs_of_onlyCharges ((onlyCharges_chargeLoad xor f.d).comp flag) ?_ rfl⟩
  rw [exec_loadWord, runLoad]
  simp only [effAddr_eq, pass, absent, if_true]
  rw [Issue.runs, loadOfAbsent_results]
  cases xor <;> rfl

end

/-! ### ST and BPLD (R197, R212) -/

/-- A word whose memory half performs at issue and that charges. -/
theorem issuesAs_of_write {w : Issue} {i : Instr} {s : State} {f : Core → Core} {regs own cells : Nat}
    (effect : OnlyCharges f regs own cells) (bits : (w.regs, w.own, w.cells) = (regs, own, cells))
    (runs : ∃ a va ps v, exec i s = w.runs s i (fun s' => onCore (performWrite s' a va ps v) f)) : ∃ e, IssuesAs w i s e := by
  simp only [Prod.mk.injEq] at bits
  obtain ⟨rfl, rfl, rfl⟩ := bits
  obtain ⟨a, va, ps, v, runs⟩ := runs
  exact ⟨_, issuesAs_of_charges runs ((charges_performWrite _ a va ps v).then_ (effect.charges _))⟩

theorem issuesAs_store {s : State} {f : SmemW}
    (pass : addrStop s s.core (addrOf s f.a 23 f.off) (tyBits f.ty / 8) (tyBits f.ty / 8) true false = none) :
    ∃ e, IssuesAs (store s false f) (.st f) s e := by
  refine issuesAs_of_write (onlyCharges_cells (tyBits f.ty)) rfl ?_
  rw [exec, execSt, runStore]
  simp only [effAddr_eq, pass]
  exact ⟨_, _, _, _, rfl⟩

/-- The issue of BPLD with the bytes it reads (R197). -/
def patterning (s : State) (f : SmemW) (bs : List Byte) : Issue :=
  { Issue.plain s [.perm, .mem] f.ramp [f.a]
      [{ due := s.bed.btick + 11 + rampK f.ramp, acc := s.core.nextAcc, land := .pat f.d bs }] 1024 with own := 1024 }

theorem issuesAs_patterning {s : State} {f : SmemW} {bs : List Byte} (aligned : addrOf s f.a 23 f.off % 16 = 0)
    (own : (ownSpad s s.core (addrOf s f.a 23 f.off) 128).isSome)
    (read : readPlaces s (placesOf s s.core (addrOf s f.a 23 f.off) 128 false) = .ok bs) :
    ∃ e, IssuesAs (patterning s f bs) (.bpld f) s e := by
  obtain ⟨runs, area⟩ := Option.isSome_iff_exists.1 own
  have due : s.bed.btick + 12 + rampK f.ramp - 1 = s.bed.btick + 11 + rampK f.ramp := by omega
  refine issuesAs_of_access (onlyCharges_own 1024) rfl ?_
  rw [exec, execBpld]
  simp only [effAddr_eq, aligned, area, read, ne_eq, not_true_eq_false, if_false, memDue, dueAt, due]
  exact ⟨_, rfl⟩

/-! ### The atomics (R214) -/

theorem exec_atomOps (s : State) (f : SatmW) : ∀ p ∈ atomOps f, exec p.2 s = runAtom s p.2 p.1 f := by
  simp only [atomOps, List.forall_mem_cons]
  exact ⟨rfl, rfl, rfl, rfl, rfl, rfl, rfl, rfl, rfl, fun _ h => absurd h (List.not_mem_nil)⟩

theorem atomCells_eq (op : Aop) : atomCells op = aopCells op := by cases op <;> rfl

/-- The memory half of an atomic: its new word is written, where it has one (R214). -/
def performAtom (s : State) (a : Access) (va : Nat) (ps : List Place) (new : Option Nat) : State :=
  match new with
  | some v => performWrite s a va ps v
  | none => postAcc s a

theorem charges_performAtom (s : State) (a : Access) (va : Nat) (ps : List Place) (new : Option Nat) :
    Charges s.core (performAtom s a va ps new).core 0 0 0 := by
  cases new
  · exact charges_postAcc s a
  · exact charges_performWrite s a va ps _

/-- .cas writes exactly where it finds C (R75). -/
theorem casWrites_iff {old : Nat} (fits : old < 2 ^ 64) (op : Aop) (b : Nat) (c : Word) :
    (op = .cas ∧ (aopNew op old b c.toNat).isSome = true) ↔ (op = .cas ∧ BitVec.ofNat 64 old = c) := by
  refine and_congr_right ?_
  rintro rfl
  rw [aopNew, ← BitVec.toNat_inj, BitVec.toNat_ofNat, Nat.mod_eq_of_lt fits]
  split <;> simp [*]

theorem issuesAs_atom {s : State} {f : SatmW} {p : Aop × Instr} {len old : Nat} (listed : p ∈ atomOps f)
    (size : (if p.1 = .fadd then 4 else 8) = len) (pass : addrStop s s.core (addrOf s f.a 16 f.off) len len true true = none)
    (read : readAt s (addrOf s f.a 16 f.off) (placesOf s s.core (addrOf s f.a 16 f.off) len true) = .ok old) :
    ∃ e, IssuesAs (atom s p.1 f (accLat s s.core (placesOf s s.core (addrOf s f.a 16 f.off) len true) true) (BitVec.ofNat 64 old))
      p.2 s e := by
  have fits : old < 2 ^ 64 := (readAt_lt read).trans_le (by subst size; split <;> decide)
  have bits : OnlyCharges (fun c => (c.chargeDst f.d 64).erase (aopCells p.1) true) (if isPort f.d then 0 else 64) 0
      (atomCells p.1) := by
    simpa [atomCells_eq] using (onlyCharges_chargeDst f.d 64).comp (onlyCharges_cells (aopCells p.1))
  have runs : ∃ a va ps new, exec p.2 s =
      (atom s p.1 f (accLat s s.core (placesOf s s.core (addrOf s f.a 16 f.off) len true) true) (BitVec.ofNat 64 old)).runs s p.2
        (fun s' => onCore (performAtom s' a va ps new) (fun c => (c.chargeDst f.d 64).erase (aopCells p.1) true)) := by
    rw [exec_atomOps s f p listed, runAtom]
    simp only [effAddr_eq, size, pass, read, dstLand_all, casWrites_iff fits]
    exact ⟨_, _, _, _, rfl⟩
  obtain ⟨a, va, ps, new, runs⟩ := runs
  exact ⟨_, issuesAs_of_charges runs ((charges_performAtom _ a va ps new).then_ (bits.charges _))⟩

end Sys2Proof.Machine
end

section
/-! R163's work formula: the integer roots of `heatScale` are floors of its powers of two. -/

namespace Sys2Proof.Machine

/-! ### Integer roots -/

theorem rootN_le {k m d : Nat} (start : d ^ k ≤ m) (f : Nat) : rootN k m f d ^ k ≤ m := by
  induction f generalizing d with
  | zero => exact start
  | succ f ih =>
    rw [rootN]
    split
    · next fits => exact ih fits
    · exact ih start

theorem lt_rootN {k m d f : Nat} (bound : m < (d + 2 ^ f) ^ k) : m < (rootN k m f d + 1) ^ k := by
  induction f generalizing d with
  | zero => exact bound
  | succ f ih =>
    rw [rootN]
    split
    · refine ih ?_
      rwa [Nat.add_assoc, ← Nat.two_mul, ← Nat.pow_succ']
    · next above => exact ih (Nat.lt_of_not_le above)

/-- The integer root of a power's floor is the floor of what was raised. -/
theorem rootN_floor_pow {k f : Nat} {y : ℝ} (exponent : k ≠ 0) (nonneg : 0 ≤ y) (bound : y < 2 ^ f) :
    rootN k ⌊y ^ k⌋₊ f 0 = ⌊y⌋₊ := by
  have le : rootN k ⌊y ^ k⌋₊ f 0 ^ k ≤ ⌊y ^ k⌋₊ := rootN_le (by rw [zero_pow exponent]; exact Nat.zero_le _) f
  have lt : ⌊y ^ k⌋₊ < (rootN k ⌊y ^ k⌋₊ f 0 + 1) ^ k := by
    refine lt_rootN ((Nat.floor_lt (by positivity)).2 ?_)
    push_cast
    rw [zero_add]
    exact pow_lt_pow_left₀ bound nonneg exponent
  rw [Nat.le_floor_iff (by positivity), Nat.cast_pow, pow_le_pow_iff_left₀ (Nat.cast_nonneg _) nonneg exponent] at le
  rw [Nat.floor_lt (by positivity), Nat.cast_pow, pow_lt_pow_iff_left₀ nonneg (Nat.cast_nonneg _) exponent] at lt
  exact ((Nat.floor_eq_iff nonneg).2 ⟨le, by exact_mod_cast lt⟩).symm

/-! ### The doubling every 12 degrees (R21) -/

/-- b scaled by 2^((T-85)/12), at n sixteenths of a degree above 85. -/
noncomputable def heated (b : Nat) (n : Int) : ℝ := b * 2 ^ ((n : ℝ) / 192)

theorem heated_nonneg (b : Nat) (n : Int) : 0 ≤ heated b n := by unfold heated; positivity

theorem heated_pow (b : Nat) (n : Int) : heated b n ^ 192 = (b : ℝ) ^ 192 * 2 ^ n := by
  rw [heated, mul_pow, ← Real.rpow_natCast (2 ^ _), ← Real.rpow_mul two_pos.le, ← Real.rpow_intCast]
  norm_num

theorem heated_lt {b : Nat} {n : Int} {e : Nat} (most : (n : ℝ) / 192 ≤ e) : heated b n < 2 ^ (Nat.log2 b + 1 + e) := by
  have base : (b : ℝ) < 2 ^ (Nat.log2 b + 1) := by exact_mod_cast Nat.lt_log2_self
  have scale : (2 : ℝ) ^ ((n : ℝ) / 192) ≤ 2 ^ e := by
    rw [← Real.rpow_natCast]
    exact Real.rpow_le_rpow_of_exponent_le one_le_two most
  rw [heated, pow_add]
  exact mul_lt_mul base scale (Real.rpow_pos_of_pos two_pos _) (by positivity)

theorem heatScale_eq (b : Nat) (n : Int) : heatScale b n = ⌊heated b n⌋₊ := by
  unfold heatScale
  split
  · next zero => simp [heated, zero]
  split
  · next sign =>
    obtain ⟨m, rfl⟩ := Int.eq_ofNat_of_zero_le sign
    have power : b ^ 192 * 2 ^ m = ⌊heated b m ^ 192⌋₊ := by
      rw [heated_pow, zpow_natCast]
      exact_mod_cast (Nat.floor_natCast (R := ℝ) _).symm
    rw [Int.toNat_natCast, power]
    refine rootN_floor_pow (by decide) (heated_nonneg b m) ((heated_lt (e := m / 192 + 1) ?_).trans_le
      (pow_le_pow_right₀ one_le_two (by omega)))
    have whole : (m : ℝ) < 192 * (m / 192 + 1 : Nat) := by exact_mod_cast Nat.lt_mul_div_succ m (by decide)
    rw [Int.cast_natCast, div_le_iff₀ (by norm_num)]
    linarith
  · next sign =>
    obtain ⟨m, rfl⟩ : ∃ m : Nat, n = -(m : Int) := ⟨(-n).toNat, by omega⟩
    have power : b ^ 192 / 2 ^ m = ⌊heated b (-m) ^ 192⌋₊ := by
      rw [heated_pow, zpow_neg, zpow_natCast, ← div_eq_mul_inv, ← Nat.floor_div_eq_div (K := ℝ)]
      push_cast
      rfl
    rw [neg_neg, Int.toNat_natCast, power]
    refine rootN_floor_pow (by decide) (heated_nonneg b (-m)) ((heated_lt (e := 0) ?_).trans_le
      (pow_le_pow_right₀ one_le_two (by omega)))
    push_cast
    rw [div_le_iff₀ (by norm_num)]
    simp

/-! ### The work of a word (R163) -/

theorem workUnits_eq {k : Nat} (ramp : 0 < k) (w : Nat) (n : Int) :
    (workUnits w k n : Int) = ⌊(w : ℝ) * (900 / k + k * 15 * (2 : ℝ) ^ ((n : ℝ) / 192)) + 1 / 2⌋ := by
  have pos : (0 : ℝ) < k := Nat.cast_pos.2 ramp
  have parts : (w : ℝ) * (900 / k + k * 15 * (2 : ℝ) ^ ((n : ℝ) / 192)) + 1 / 2 =
      (heated (30 * k * k * w) n + (1800 * w + k : Nat)) / (2 * k : Nat) := by
    rw [heated]
    push_cast
    field_simp
    ring
  have total : 0 ≤ heated (30 * k * k * w) n + (1800 * w + k : Nat) := add_nonneg (heated_nonneg ..) (Nat.cast_nonneg _)
  rw [parts, ← Int.natCast_floor_eq_floor (by positivity), Nat.floor_div_natCast, Nat.floor_add_natCast (heated_nonneg ..),
    ← heatScale_eq, workUnits, Nat.add_assoc]

theorem workUnits_heat {k : Nat} (ramp : 0 < k) (s : State) (n w : Nat) :
    (workUnits w k (heat s n) : Int) =
      ⌊(w : ℝ) * (900 / k + k * 15 * (2 : ℝ) ^ (((((getDie s (n / 64)).t16 : ℝ) / 16) - 85) / 12)) + 1 / 2⌋ := by
  have degrees : (((getDie s (n / 64)).t16 : ℝ) / 16 - 85) / 12 = (heat s n : ℝ) / 192 := by
    rw [heat]
    push_cast
    ring
  rw [workUnits_eq ramp, degrees]

end Sys2Proof.Machine
end

section
/-! O43: charges, and crossings of EQUOTA by every charging word (R161-R163, R242). -/

namespace Sys2Proof.Machine
open Sys2Proof.Stmt

/-! ### The register words, HDROP and ERASE, and the control-register words -/

/-- A write of a unit-view register is charged 64 bits to the unit (R241). -/
theorem crWriting_unit {s : State} {f : SsysW} (v : Word) (low : f.sel < 0x100) :
    crWriting s f v = { crWord s f.ramp [f.a] [.creg (landsAs s.core f.sel) v] 64 with own := 64 } := by
  rw [crWriting, if_pos low, if_pos low]
  rfl

theorem crWriters_trapAfter {s : State} {f : SsysW} {p : Instr × Word} (listed : p ∈ crWriters s f) (low : f.sel < 0x100)
    (allows : crAllows s.core f.sel true) (takes : crTakes s.core f.sel p.2) {w : Issue} (issue : w = crWriting s f p.2)
    (ready : w.ready s) (passed : chargesOver w s) : trapsAfter w p.1 s := by
  subst issue
  exact (issuesAs_crWrite (exec_crWriters s f p listed).1 allows (by omega) takes).trapsAfter ready passed

/-- In the system view the register takes the write under its own number. -/
theorem landsAs_system {c : Core} (system : c.view = .system) (n : Nat) : landsAs c n = n := by
  rw [landsAs, if_neg]
  simp [system]

/-- In the system view a crossing is only noted (R162). -/
theorem crWrite_crosses_system {s : State} {f : SsysW} (low : f.sel < 0x100) (system : s.core.view = .system)
    (allows : crAllows s.core f.sel true) (takes : crTakes s.core f.sel (srcVal s f.a)) {w : Issue}
    (issue : w = crWriting s f (srcVal s f.a)) (ready : w.ready s) (crosses : w.crosses s) :
    ∃ t, exec (.crwr f) s = .next t ∧ w.went s t ∧ t.core.qp = true ∧ t.core.trap = s.core.trap := by
  subst issue
  obtain ⟨eff, runs, charges, -⟩ := issuesAs_crWrite (i := .crwr f) rfl allows (by omega) takes
  rw [Issue.runs_ready ready, afterWord_system system] at runs
  refine ⟨_, runs, Issue.went_of_charges charges, ?_, Issue.trap_of_charges charges⟩
  rw [Issue.qp_of_charges charges, decide_eq_true crosses, Bool.or_true]

/-- Settles O43: every charging word issues with its charges as one sum (`IssuesAs`), so its crossing asks for the trap after it
(`IssuesAs.trapsAfter`); the work formula is `workUnits_heat`. -/
theorem erasureQuota : Obligations.ErasureQuota := by
  unfold Obligations.ErasureQuota
  refine ⟨Core.erase_eq, fun s n w k ramp => workUnits_heat ramp s n w, fun s f g h p listed wf ready passed =>
    (issuesAs_chargingWords s f g h p listed wf).trapsAfter ready passed, ?_, ?_, ?_, ?_⟩
  · intro s f
    refine ⟨fun _ ready held passed => ?_, fun _ ready grain least most pass own passed => ?_,
      fun _ ready plain allows passed => (issuesAs_crrd allows plain).trapsAfter ready passed,
      fun p listed => ?_⟩
    · obtain ⟨e, issues⟩ := issuesAs_hdrop held
      exact issues.trapsAfter ready passed
    · obtain ⟨e, issues⟩ := issuesAs_zeroing grain least most pass own
      exact issues.trapsAfter ready passed
    · intro w _ ready low allows takes passed
      exact crWriters_trapAfter listed low allows takes (crWriting_unit p.2 low).symm ready passed
  · intro s f xor m
    refine ⟨fun _ pass => ⟨fun present read ready passed => ?_, fun absent ready passed => ?_⟩, fun _ pass ready passed => ?_,
      fun bs _ aligned own read ready passed => ?_⟩
    · obtain ⟨e, issues⟩ := issuesAs_load (xor := xor) pass present read
      exact issues.trapsAfter ready passed
    · obtain ⟨e, issues⟩ := issuesAs_loadOfAbsent (xor := xor) pass absent
      exact issues.trapsAfter ready passed
    · obtain ⟨e, issues⟩ := issuesAs_store pass
      exact issues.trapsAfter ready passed
    · obtain ⟨e, issues⟩ := issuesAs_patterning aligned own read
      exact issues.trapsAfter ready passed
  · intro s f old p listed va len ps w _ pass read ready passed
    obtain ⟨e, issues⟩ := issuesAs_atom listed rfl pass read
    exact issues.trapsAfter ready passed
  · intro s f n w _ ready crosses system allows takes low
    exact crWrite_crosses_system low system allows takes (by rw [crWriting_unit _ low, landsAs_system system]) ready crosses

end Sys2Proof.Machine
end

section
/-! O1, O2: the reversible words and the plain erasing words of chapter 08 (R186-R193). -/

namespace Sys2Proof.Machine
open Sys2Proof.Stmt

/-- Settles O1: each word issues as its row says (`issuesAs_reversible` and its fellows). -/
theorem reversibleWords : Obligations.ReversibleWords := by
  unfold Obligations.ReversibleWords
  exact ⟨fun s f p listed _ => (issuesAs_reversible s f p listed).does,
    fun s f p listed _ => (issuesAs_reversibleImm s f p listed).does, fun s f wf => (issuesAs_xorw s wf).does,
    fun s f => ⟨fun _ => (issuesAs_swap s f).does, fun _ => (issuesAs_cswap s f).does⟩⟩

/-- Settles O2: each word issues as its row says (`issuesAs_erase`). -/
theorem erasingWords : Obligations.ErasingWords := by
  unfold Obligations.ErasingWords
  exact ⟨fun s f p listed wf => (issuesAs_erasingRegs s f p listed wf).does,
    fun s f h p listed wf => (issuesAs_erasingImms s f h p listed wf).does⟩
end Sys2Proof.Machine
end

section
/-! O3, O4, O5: the trug's pushes and pops (R66, R166, R167), and the words of chapter 08 that make them (R193-R195). -/

namespace Sys2Proof.Machine
open Sys2Proof.Stmt

/-! ### Pushes and pops (R66, R167) -/

theorem Trug.push_eq_pushed (t : Trug) {v n : Nat} (fits : v < 2 ^ n) : t.push v n = pushed t v n := by
  rw [Trug.push, pushed, Nat.mod_eq_of_lt fits]

/-- A push of n bits makes the partition n bits deeper. -/
theorem Trug.depth_push {t : Trug} (wf : t.base ≤ t.top) (v n : Nat) : (t.push v n).depth = t.depth + n := by
  simp only [Trug.depth, Trug.push]
  omega

/-- What is pushed lies above what was there. -/
theorem Trug.bits_push {t : Trug} {v n : Nat} (held : t.bits < 2 ^ t.depth) (fits : v < 2 ^ n) :
    (t.push v n).bits = t.bits + v * 2 ^ t.depth := by
  rw [Trug.push, Nat.mod_eq_of_lt held, Nat.mod_eq_of_lt fits]

theorem Trug.bits_push_lt {t : Trug} {v n : Nat} (wf : t.base ≤ t.top) (held : t.bits < 2 ^ t.depth) (fits : v < 2 ^ n) :
    (t.push v n).bits < 2 ^ (t.push v n).depth := by
  rw [bits_push held fits, depth_push wf, Nat.pow_add]
  calc t.bits + v * 2 ^ t.depth < 2 ^ t.depth + v * 2 ^ t.depth := by omega
    _ = (v + 1) * 2 ^ t.depth := by ring
    _ ≤ 2 ^ n * 2 ^ t.depth := Nat.mul_le_mul_right _ fits
    _ = 2 ^ t.depth * 2 ^ n := Nat.mul_comm ..

/-- A pop undoes a push of the same length. -/
theorem Trug.pop_push {t : Trug} {v n : Nat} (wf : t.base ≤ t.top) (held : t.bits < 2 ^ t.depth) (fits : v < 2 ^ n) :
    (t.push v n).pop n = (v, t) := by
  have depth : (t.push v n).depth - n = t.depth := by rw [depth_push wf, Nat.add_sub_cancel]
  have top : (t.push v n).top - n = t.top := Nat.add_sub_cancel ..
  have high : (t.bits + v * 2 ^ t.depth) / 2 ^ t.depth = v := by
    rw [Nat.add_mul_div_right _ _ (by positivity), Nat.div_eq_of_lt held, Nat.zero_add]
  have low : (t.bits + v * 2 ^ t.depth) % 2 ^ t.depth = t.bits := by
    rw [Nat.add_mul_mod_self_right, Nat.mod_eq_of_lt held]
  rw [Trug.pop, depth, top, bits_push held fits, high, low, Nat.mod_eq_of_lt fits]
  rfl

/-! ### The limits of HTOP (R166, R167) -/

theorem mem_limits (c : Core) (x : Nat) : x ∈ c.limits ↔
    x = c.trug.lim ∨ ∃ p ∈ c.pend, ∃ v, p.land = .creg (if c.view = .unit then 0x11A else 0x00A) v ∧ v.toNat = x := by
  have own : c.crLand 0x00A = if c.view = .unit then 0x11A else 0x00A := by
    simp only [Core.crLand, true_and]
  rw [Core.limits, own, List.mem_cons, List.mem_filterMap]
  refine or_congr_right (exists_congr fun p => and_congr_right fun _ => ?_)
  cases p.land <;> simp [and_assoc]

theorem underLimits_iff (c : Core) (x : Nat) : underLimits c x ↔ ∀ l ∈ c.limits, x ≤ l := by
  simp only [mem_limits, or_imp, forall_and, forall_eq]
  refine and_congr_right fun _ => ⟨?_, fun h p listed v land => h _ ⟨p, listed, v, land, rfl⟩⟩
  rintro h _ ⟨p, listed, v, land, rfl⟩
  exact h p listed v land

theorem pushStop_eq (c : Core) (n : Nat) :
    c.pushStop n = if underLimits c (c.trug.top + n) then none else some (.fault 0x05 0 0) := by
  rw [Core.pushStop, ← ite_not]
  refine if_congr ?_ rfl rfl
  simp [underLimits_iff]

theorem pushStop_under {c : Core} {n : Nat} (under : underLimits c (c.trug.top + n)) : c.pushStop n = none := by
  rw [pushStop_eq, if_pos under]

theorem pushStop_above {c : Core} {n : Nat} (above : ¬ underLimits c (c.trug.top + n)) :
    c.pushStop n = some (.fault 0x05 0 0) := by
  rw [pushStop_eq, if_neg above]

theorem popStop_held {c : Core} {n : Nat} (held : c.trug.base + n ≤ c.trug.top) : c.popStop n = none :=
  if_neg (Nat.not_lt.2 held)

theorem popStop_short {c : Core} {n : Nat} (short : c.trug.top < c.trug.base + n) :
    c.popStop n = some (.fault 0x06 0 0) := if_pos short

/-! ### Words whose own effect is on the trug -/

/-- The issue of a word changes the fields of `Core.withIssue` alone. -/
theorem Issue.issued_eq (w : Issue) (s : State) : w.issued s = { s with core := s.core.withIssue (w.issued s).core } :=
  withIssue_issue s w.units (rampK w.ramp) w.srcs w.results w.work w.npc w.nbt id (fun _ => rfl)

theorem Core.withIssue_withIssue (c d : Core) : c.withIssue (c.withIssue d) = c.withIssue d := rfl

@[simp] theorem Core.trug_withIssue (c d : Core) : (c.withIssue d).trug = c.trug := rfl

/-- A partition is none of the fields that the issue of a word changes. -/
theorem Core.setTrug_withIssue (c d : Core) (t : Trug) : (c.withIssue d).setTrug t = (c.setTrug t).withIssue d := by
  cases view : c.view <;> simp only [Core.setTrug, Core.withIssue, view]

/-- A word that charges nothing and changes the current view's partition. -/
theorem issuesAs_trug {w : Issue} {i : Instr} {s : State} {g : Trug → Trug}
    (runs : exec i s = w.runs s i (fun s' => onCore s' (fun c => c.setTrug (g c.trug))))
    (free : (w.regs, w.own, w.cells) = (0, 0, 0)) : IssuesAs w i s (withTrug s (g s.core.trug)) := by
  simp only [Prod.mk.injEq] at free
  obtain ⟨regs, own, cells⟩ := free
  refine ⟨_, runs, ?_, ?_⟩
  · rw [regs, own, cells]
    exact charges_setTrug ..
  · rw [w.issued_eq]
    simp only [onCore, withTrug, Core.trug_withIssue, Core.setTrug_withIssue, Core.withIssue_withIssue]

/-- The run of a word that has a check of its own. -/
def Issue.checked (w : Issue) (s : State) (own : Option Stop) (i : Instr) (eff : State → State) : Res :=
  runWord s i w.sys w.units w.ramp w.srcs w.results own w.work w.npc w.nbt eff

theorem Issue.checked_none (w : Issue) (s : State) (i : Instr) (eff : State → State) :
    w.checked s none i eff = w.runs s i eff := rfl

/-- A ready word is stopped by its own check alone. -/
theorem stops_of_checked {w : Issue} {i : Instr} {s : State} {own : Option Stop} {eff : State → State} {code : Nat}
    {addr detail : Word} (runs : exec i s = w.checked s own i eff) (stop : own = some (.fault code addr detail))
    (ready : w.ready s) :
    stops i s w.srcs code addr detail := by
  rw [stops, runs, stop]
  exact runWord_stops ready ..

section
variable {w : Issue} {i : Instr} {s : State} {n : Nat} (free : (w.regs, w.own, w.cells) = (0, 0, 0)) (ready : w.ready s)
include free ready

/-- A word that pushes n bits completes where the limits of HTOP allow it, and stops with 0x05 elsewhere (R167). -/
theorem push_completes_or_stops {v : Nat} (fits : v < 2 ^ n)
    (runs : exec i s = w.checked s (s.core.pushStop n) i (fun s' => onCore s' (fun c => c.setTrug (c.trug.push v n)))) :
    (underLimits s.core (s.core.trug.top + n) → w.does i s (withTrug s (pushed s.core.trug v n))) ∧
    (¬ underLimits s.core (s.core.trug.top + n) → stops i s w.srcs 0x05 0 0) := by
  refine ⟨fun under => ?_, fun above => stops_of_checked runs (pushStop_above above) ready⟩
  rw [pushStop_under under, w.checked_none] at runs
  rw [← Trug.push_eq_pushed _ fits]
  exact (issuesAs_trug (g := (·.push v n)) runs free).does ready

/-- A word that pops n bits completes where the partition holds them, and stops with 0x06 elsewhere (R167). -/
theorem pop_completes_or_stops
    (runs : exec i s = w.checked s (s.core.popStop n) i (fun s' => onCore s' (fun c => c.setTrug (c.trug.pop n).2))) :
    (s.core.trug.base + n ≤ s.core.trug.top → w.does i s (withTrug s (popped s.core.trug n).1)) ∧
    (s.core.trug.top < s.core.trug.base + n → stops i s w.srcs 0x06 0 0) := by
  refine ⟨fun held => ?_, fun short => stops_of_checked runs (popStop_short short) ready⟩
  rw [popStop_held held, w.checked_none] at runs
  exact (issuesAs_trug (g := fun t => (t.pop n).2) runs free).does ready

end

/-! ### The .k and .b forms (R193) -/

/-- Where and what a form writes, by the rules and by the model (R191, R192). -/
theorem plainOf_snd (s : State) {e : EForm} (ok : e.plainOk = true) : (plainOf s e).2 =
    ((formResult e (srcVal s)).1, (formResult e (srcVal s)).2.1, BitVec.ofNat 64 (formResult e (srcVal s)).2.2) := by
  cases e with
  | reg op f =>
    simp only [plainOf, regValue_eq, setWidth_srcVal_toNat]
    cases op <;> rfl
  | imm op f => exact immValue_eq s ok
  | wide f => rfl

/-- A value of w bits has no more in a word. -/
theorem setWidth_lt {w : Nat} (x : BitVec w) : (x.setWidth 64).toNat < 2 ^ w := by
  rw [BitVec.toNat_setWidth]
  exact (Nat.mod_le _ _).trans_lt x.isLt

/-- The value of a form of registers has no more bits than it writes (R191). -/
theorem regValue_lt (op : EReg) (sg : Bool) {w : Nat} (x y : BitVec w) : (regValue op sg x y).toNat < 2 ^ regBits op w := by
  have small {n : Nat} (le : n ≤ 2 ^ w - 1) : (BitVec.ofNat 64 n).toNat < 2 ^ w :=
    ((Nat.mod_le n _).trans le).trans_lt (Nat.sub_one_lt (by positivity))
  cases op
  case clr => exact small (Nat.zero_le _)
  case norm =>
    refine small ((Nat.sub_le _ _).trans (Nat.le_sub_one_of_lt ?_))
    split <;> exact BitVec.isLt _
  case popc =>
    have le : (List.range w).countP (fun i => x.getLsbD i) ≤ w := List.countP_le_length.trans_eq List.length_range
    exact small (Nat.le_sub_one_of_lt (le.trans_lt Nat.lt_two_pow_self))
  case ext | cmpeq | cmplt | cmplo => exact BitVec.isLt _
  all_goals exact setWidth_lt _

/-- So has that of a form with an immediate (R191, R192). -/
theorem immValue_lt (s : State) (op : EImm) (f : SimmW) : (immValue s op f).2.2.toNat < 2 ^ (immValue s op f).2.1 := by
  cases op
  case bfx => exact BitVec.isLt _
  all_goals exact setWidth_lt _

theorem plainOf_lt (s : State) {e : EForm} (ok : e.plainOk = true) : (plainOf s e).2.2.2.toNat < 2 ^ (plainOf s e).2.2.1 := by
  cases e with
  | reg op f => exact regValue_lt ..
  | imm op f => exact immValue_lt ..
  | wide f =>
    simp only [EForm.plainOk, SwideW.fits, Bool.and_eq_true, decide_eq_true_eq] at ok
    exact (Nat.mod_le _ _).trans_lt ok.2

/-- A .k or .b form runs as its row says, with its own check and effect. -/
theorem kept_run (s : State) (i : Instr) {e : EForm} (ok : e.plainOk = true) (v : Word) (own : Option Stop)
    (eff : State → State) :
    runNext s i false [(formCost e).1] (formRamp e) (e.dst :: e.sources)
      [dueAt s (formCost e).2.1 (formRamp e)
        (.sreg e.dst (formResult e (srcVal s)).1 (formResult e (srcVal s)).2.1 v)] own (formCost e).2.2 eff =
    (kept s e v).checked s own i eff := by
  simp only [kept, plainOf_snd s ok]
  cases e with
  | reg op f => cases op <;> rfl
  | imm op f => rfl
  | wide f => rfl

theorem kept_charges (s : State) {e : EForm} (ok : e.plainOk = true) (v : Word) :
    ((kept s e v).regs, (kept s e v).own, (kept s e v).cells) = (0, 0, 0) := by
  have bits := plainOf_charges s ok
  simp only [Prod.mk.injEq] at bits ⊢
  exact ⟨rfl, bits.2⟩

/-- The bits that a form overwrites. -/
theorem overwritten_eq (s : State) {e : EForm} (ok : e.plainOk = true) : overwritten s e =
    (srcVal s e.dst).toNat / 2 ^ (formResult e (srcVal s)).1 % 2 ^ (formResult e (srcVal s)).2.1 := by
  rw [overwritten, plainOf_snd s ok, BitVec.extractLsb'_toNat, Nat.shiftRight_eq_div_pow]

theorem overwritten_lt (s : State) (e : EForm) : overwritten s e < 2 ^ (plainOf s e).2.2.1 := BitVec.isLt _

/-- The .k form writes the plain form's value and pushes the overwritten bits (R193). -/
theorem exec_keepForm (s : State) {e : EForm} (ok : e.plainOk = true) : exec (.keepForm e) s =
    (kept s e (plainOf s e).2.2.2).checked s (s.core.pushStop (plainOf s e).2.2.1) (.keepForm e)
      (fun s' => onCore s' (fun c => c.setTrug (c.trug.push (overwritten s e) (plainOf s e).2.2.1))) := by
  rw [← kept_run s _ ok, overwritten_eq s ok, plainOf_snd s ok]
  rfl

/-- What the .b form writes: D[W] xor f xor the bits popped (R193). -/
def broughtBack (s : State) (e : EForm) : Word :=
  BitVec.ofNat 64 (overwritten s e ^^^ (plainOf s e).2.2.2.toNat % 2 ^ (plainOf s e).2.2.1 ^^^
    (popped s.core.trug (plainOf s e).2.2.1).2)

theorem exec_backForm (s : State) {e : EForm} (ok : e.plainOk = true) : exec (.backForm e) s =
    (kept s e (broughtBack s e)).checked s (s.core.popStop (plainOf s e).2.2.1) (.backForm e)
      (fun s' => onCore s' (fun c => c.setTrug (c.trug.pop (plainOf s e).2.2.1).2)) := by
  have value : broughtBack s e = BitVec.ofNat 64 (overwritten s e ^^^ (formResult e (srcVal s)).2.2 ^^^
      (popped s.core.trug (plainOf s e).2.2.1).2) := by
    rw [broughtBack, Nat.mod_eq_of_lt (plainOf_lt s ok)]
    simp only [BitVec.ofNat_xor, plainOf_snd s ok, BitVec.ofNat_toNat, BitVec.setWidth_eq]
  rw [← kept_run s _ ok, value, overwritten_eq s ok, plainOf_snd s ok]
  rfl

/-- Settles O3: the .k form pushes (`push_completes_or_stops`), the .b form pops (`pop_completes_or_stops`). -/
theorem keepAndBackForms : Obligations.KeepAndBackForms := by
  unfold Obligations.KeepAndBackForms
  intro s e n v t old back wf
  have ok : e.plainOk = true := by
    simp only [Instr.wf, EForm.keepOk, Bool.and_eq_true] at wf
    exact wf.1.1
  exact ⟨fun ready => push_completes_or_stops (kept_charges s ok v) ready (overwritten_lt s e) (exec_keepForm s ok),
    fun ready => pop_completes_or_stops (kept_charges s ok back) ready (exec_backForm s ok)⟩

/-- Settles O4: a pop undoes a push (`Trug.pop_push`), so the bits popped are those that were pushed. -/
theorem popUndoesPush : Obligations.PopUndoesPush := by
  unfold Obligations.PopUndoesPush
  intro t v n wf held fits
  have undone := Trug.pop_push wf held fits
  refine ⟨undone, Trug.bits_push_lt wf held fits, fun old f => ?_⟩
  rw [undone, Nat.xor_self, Nat.xor_zero, Nat.xor_xor_cancel_right]

/-! ### MIN and MAX (R195) -/

theorem orderedPair_eq (s : State) (f : SregW) (c : Bool) : orderedPair s f c = (ordered s f c).results := by
  have low (n : Nat) : BitVec.ofNat 64 (srcLow s (tyBits f.ty) n) = (lo s (tyBits f.ty) n).setWidth 64 :=
    ofNat_eq _ _ (setWidth_srcVal_toNat ..).symm
  simp only [orderedPair, ordered, Issue.plain, ← low]
  cases c <;> rfl

/-- A beats D in the low bits of the sources. -/
theorem pick_srcLow (s : State) (isMax : Bool) (f : SregW) :
    pick isMax f.ty (srcLow s (tyBits f.ty) f.d) (srcLow s (tyBits f.ty) f.a) =
      beats isMax f.ty (lo s (tyBits f.ty) f.d) (lo s (tyBits f.ty) f.a) := by
  rw [← pick_toNat, setWidth_srcVal_toNat, setWidth_srcVal_toNat]

/-- The bit that MIN.k and MAX.k keep. -/
theorem exec_minMaxK {s : State} {i : Instr} {isMax : Bool} {f : SregW} (hx : exec i s = runMinMaxK s i isMax f) : exec i s =
    (ordered s f (beats isMax f.ty (lo s (tyBits f.ty) f.d) (lo s (tyBits f.ty) f.a))).checked s (s.core.pushStop 1) i
      (fun s' => onCore s' (fun x => x.setTrug
        (x.trug.push (if beats isMax f.ty (lo s (tyBits f.ty) f.d) (lo s (tyBits f.ty) f.a) then 1 else 0) 1))) := by
  simp only [hx, runMinMaxK, pick_srcLow, orderedPair_eq]
  rfl

theorem exec_minMaxB {s : State} {i : Instr} {f : SregW} (hx : exec i s = runMinMaxB s i f) : exec i s =
    (ordered s f ((popped s.core.trug 1).2 = 1)).checked s (s.core.popStop 1) i
      (fun s' => onCore s' (fun x => x.setTrug (x.trug.pop 1).2)) := by
  simp only [hx, runMinMaxB, orderedPair_eq]
  rfl

/-- Settles O5: the plain forms charge (`issuesAs_minmax`), the others push a bit (`push_completes_or_stops`) or pop it. -/
theorem minMaxWords : Obligations.MinMaxWords := by
  unfold Obligations.MinMaxWords
  intro s f isMax plain k b w c t undo
  have isPlain : exec plain s = runMinMax s plain isMax f := by cases isMax <;> rfl
  have isKept : exec k s = runMinMaxK s k isMax f := by cases isMax <;> rfl
  have isBack : exec b s = runMinMaxB s b f := by cases isMax <;> rfl
  have bit : (if c then 1 else 0) < 2 ^ 1 := by cases c <;> decide
  exact ⟨fun _ => (issuesAs_minmax isPlain).does, fun _ ready => push_completes_or_stops rfl ready bit (exec_minMaxK isKept),
    fun _ ready => pop_completes_or_stops rfl ready (exec_minMaxB isBack)⟩

end Sys2Proof.Machine
end

section
/-! O6: control flow (R200-R204). -/

namespace Sys2Proof.Machine
open Sys2Proof.Stmt

/-- BC's condition is that of R76. -/
theorem condHolds_eq : ∀ (cc : Nat) (x y : Word), condHolds cc x y = condIs cc x y
  | 0, _, _ => rfl
  | 1, _, _ => beq_eq_decide ..
  | 2, _, _ => by rw [condHolds, bne, beq_eq_decide, ← decide_not, condIs]
  | 3, _, _ => rfl
  | 4, _, _ => BitVec.sle_eq_not_slt.symm
  | 5, _, _ => rfl
  | _ + 6, _, _ => (BitVec.ule_eq_not_ult ..).symm

/-- The target of a branch: PC plus 8 times the offset (R201). -/
theorem branchTarget_eq (s : State) (f : SbrW) : branchTarget s f = target s f := by
  rw [branchTarget, target, BitVec.ofInt_mul]
  rfl

/-- The fields of a well-formed RET that it does not use are 0. -/
theorem ret_fields {f : SbrW} (wf : (Instr.ret f).wf = true) : f.d = 0 ∧ f.b = 0 ∧ f.cc = 0 ∧ f.off = 0 := by
  simp only [Instr.wf, Bool.and_eq_true, beq_iff_eq] at wf
  obtain ⟨⟨⟨⟨-, d⟩, b⟩, cc⟩, off⟩ := wf
  exact ⟨d, b, cc, off⟩

/-- A word that charges nothing, without a check of its own. -/
theorem issuesAs_free {w : Issue} {i : Instr} {s : State} (runs : exec i s = w.runs s i id)
    (free : (w.regs, w.own, w.cells) = (0, 0, 0)) : IssuesAs w i s s :=
  issuesAs_of_onlyCharges onlyCharges_none runs free

theorem exec_bc (s : State) (f : SbrW) : exec (.bc f) s =
    (flow s f [f.a, f.b] []
      (if condIs f.cc (srcVal s f.a) (srcVal s f.b) then target s f else s.core.pc + 8)).runs s (.bc f) id := by
  rw [← condHolds_eq, ← branchTarget_eq]
  rfl

theorem exec_call (s : State) (f : SbrW) : exec (.call f) s =
    (flow s f [] [dueAt s 1 f.ramp (.sreg f.d 0 64 (s.core.pc + 8))] (target s f)).runs s (.call f) id := by
  rw [← branchTarget_eq]
  rfl

theorem exec_loop (s : State) (f : SbrW) : exec (.loop f) s =
    (flow s f [f.a] [dueAt s 1 f.ramp (.sreg f.a 0 64 (srcVal s f.a - 1))]
      (if srcVal s f.a - 1 = 0 then s.core.pc + 8 else target s f)).runs s (.loop f) id := by
  rw [← branchTarget_eq, ← ite_not]
  rfl

/-- RET's own check is that its address is a multiple of 8 (R203). -/
theorem exec_ret (s : State) (f : SbrW) : exec (.ret f) s =
    (flow s f [f.a] [] (srcVal s f.a)).checked s
      (if (srcVal s f.a).toNat % 8 ≠ 0 then some (.fault 0x0E (srcVal s f.a) 0) else none) (.ret f) id := rfl

/-- Settles O6: each word by its run; RET by its check. -/
theorem flowWords : Obligations.FlowWords := by
  unfold Obligations.FlowWords
  intro s f g next bc call ret n loop nop
  refine ⟨fun _ => (issuesAs_free rfl rfl).does, fun _ => (issuesAs_free (exec_bc s f) rfl).does,
    fun _ => (issuesAs_free (exec_call s f) rfl).does, fun _ ready => ⟨fun aligned => ?_, fun misaligned => ?_⟩,
    fun _ => (issuesAs_free (exec_loop s f) rfl).does, ret_fields, by decide +kernel⟩
  · have runs := exec_ret s f
    rw [if_neg (not_not.2 aligned), Issue.checked_none] at runs
    exact (issuesAs_free runs rfl).does ready
  · exact stops_of_checked (exec_ret s f) (if_pos misaligned) ready

end Sys2Proof.Machine
end

section
/-! O7, O8: the bit permuter and the load of its patterns (R196-R199, R245). -/

namespace Sys2Proof.Machine
open Sys2Proof.Stmt

/-! ### Patterns (R196) -/

/-- A pattern is a bijection when its bytes name bits and no bit twice. -/
theorem patBij_iff (l : List Byte) : patBij l = true ↔ (∀ b ∈ l, b.toNat < 128) ∧ l.Nodup := by
  simp only [patBij, Bool.and_eq_true, List.all_eq_true, decide_eq_true_eq]

/-- The bit that a pattern's byte takes from q, 0 for Z. -/
def routedBit (q : Nat) (b : Byte) : Bool := decide (b.toNat < 128) && q.testBit b.toNat

/-- The last byte of a pattern routes the highest bit. -/
theorem permute_append_singleton (l : List Byte) (b : Byte) (q : Nat) :
    permute (l ++ [b]) q = permute l q + (routedBit q b).toNat * 2 ^ l.length := by
  have bit : routedBit q b = decide (b.toNat < 128 ∧ q.testBit b.toNat) := by
    rw [routedBit, Bool.decide_and, Bool.decide_eq_true]
  rw [permute, List.zipIdx_append, List.foldl_append, ← permute]
  simp only [List.zipIdx_singleton, List.foldl_cons, List.foldl_nil, Nat.zero_add, bit]
  split <;> simp [*]

theorem permute_lt (l : List Byte) (q : Nat) : permute l q < 2 ^ l.length := by
  induction l using List.reverseRecOn with
  | nil => exact Nat.one_pos
  | append_singleton l b ih =>
    have bit := Nat.mul_le_mul_right (2 ^ l.length) (routedBit q b).toNat_le
    rw [permute_append_singleton, List.length_append, List.length_singleton, Nat.pow_succ]
    omega

/-- Bit i of the result is the bit that the pattern's byte i names (R196). -/
theorem testBit_permute (l : List Byte) (q i : Nat) : (permute l q).testBit i = (l[i]?).any (routedBit q) := by
  induction l using List.reverseRecOn with
  | nil => simp [permute]
  | append_singleton l b ih =>
    have low := permute_lt l q
    rw [permute_append_singleton, Nat.add_comm, Nat.mul_comm, Nat.testBit_two_pow_mul_add _ low]
    rcases Nat.lt_trichotomy i l.length with h | rfl | h
    · rw [if_pos h, ih, List.getElem?_append_left h]
    · rw [if_neg (Nat.lt_irrefl _), Nat.sub_self, List.getElem?_concat_length]
      cases routed : routedBit q b <;> simp [routed]
    · rw [if_neg (Nat.not_lt.2 h.le), List.getElem?_eq_none (by rw [List.length_append]; exact h)]
      exact Nat.testBit_lt_two_pow ((Bool.toNat_lt _).trans_le (Nat.le_self_pow (Nat.sub_ne_zero_of_lt h) 2))

/-- What a pattern routes is determined, and is what the permuter makes. -/
theorem eq_permute_of_routes {pat : List Byte} {q r : BitVec 128} (h : routes pat q r) :
    r = BitVec.ofNat 128 (permute pat q.toNat) := by
  refine BitVec.eq_of_getLsbD_eq fun i hi => ?_
  rw [h i hi, BitVec.getLsbD_ofNat, testBit_permute, decide_eq_true hi, Bool.true_and]
  rfl

theorem exec_bperm (s : State) (f : SregW) : exec (.bperm f) s =
    (permuted s f f.d (BitVec.ofNat 128 (permute (s.core.pattern f.b) (pair s f.d).toNat)) 0).checked s
      (if patBij (s.core.pattern f.b) then none else some (.fault 0x1C 0 (BitVec.ofNat 64 f.b))) (.bperm f) id := by
  rw [permuted, extract_ofNat_low, extract_ofNat_high, pair_toNat]
  rfl

/-- Settles O7: what the pattern routes is what `permute` makes (`eq_permute_of_routes`). -/
theorem permuterWords : Obligations.PermuterWords := by
  unfold Obligations.PermuterWords
  intro s f r pat bij
  refine ⟨fun _ routed ready => ⟨fun one => ?_, fun other => ?_⟩, fun _ routed => ?_⟩
  · obtain rfl := eq_permute_of_routes routed
    have runs := exec_bperm s f
    rw [if_pos ((patBij_iff pat).2 one), Issue.checked_none] at runs
    exact (issuesAs_free runs rfl).does ready
  · obtain rfl := eq_permute_of_routes routed
    exact stops_of_checked (exec_bperm s f) (if_neg (mt (patBij_iff pat).1 other)) ready
  · obtain rfl := eq_permute_of_routes routed
    exact (issuesAs_bpermE s f).does

/-! ### BPLD (R197) -/

/-- The post buffer is none of the fields that the issue of a word changes. -/
theorem postAcc_withIssue (s : State) (d : Core) (a : Access) :
    postAcc { s with core := s.core.withIssue d } a = { posted s a with core := (posted s a).core.withIssue d } := rfl

/-- A word that posts an access and then only charges. -/
theorem issuesAs_posted {w : Issue} {i : Instr} {s : State} {a : Access} {g : Core → Core} {regs own cells : Nat}
    (effect : OnlyCharges g regs own cells) (bits : (w.regs, w.own, w.cells) = (regs, own, cells))
    (runs : exec i s = w.runs s i (fun s' => onCore (postAcc s' a) g)) : IssuesAs w i s (posted s a) := by
  simp only [Prod.mk.injEq] at bits
  obtain ⟨rfl, rfl, rfl⟩ := bits
  refine ⟨_, runs, (charges_postAcc _ a).then_ (effect.charges _), ?_⟩
  rw [w.issued_eq, postAcc_withIssue, onCore, effect.only]
  rfl

/-- BPLD's result falls due 11 + k ticks after its issue (R197). -/
theorem memDue_pattern (s : State) (f : SmemW) (bs : List Byte) :
    [memDue s 12 f.ramp (.pat f.d bs)] = (patterning s f bs).results := by
  have due : s.bed.btick + 12 + rampK f.ramp - 1 = s.bed.btick + 11 + rampK f.ramp := by omega
  simp only [patterning, Issue.plain, memDue, dueAt, due]

/-- The address of BPLD's pattern (R207). -/
def patternAddr (s : State) (f : SmemW) : Nat := addrOf s f.a 23 f.off

/-- The access that BPLD posts. -/
def patternAccess (s : State) (f : SmemW) : Access :=
  mkAcc s (.bpld f) [f.a] .load f.cl f.sc (patternAddr s f) (s.bed.btick + 11 + rampK f.ramp)
    (placesOf s s.core (patternAddr s f) 128 false) []

section
variable {s : State} {f : SmemW}

/-- BPLD of an address that is no multiple of 16. -/
theorem exec_bpld_misaligned (misaligned : patternAddr s f % 16 ≠ 0) : exec (.bpld f) s =
    (patterning s f []).checked s (some (.fault 0x0E (BitVec.ofNat 64 (patternAddr s f)) 0)) (.bpld f) id := by
  rw [Issue.checked, ← memDue_pattern, exec, execBpld]
  exact if_pos misaligned

variable (aligned : patternAddr s f % 16 = 0)
include aligned

theorem exec_bpld_outside (outside : ownSpad s s.core (patternAddr s f) 128 = none) : exec (.bpld f) s =
    (patterning s f []).checked s (some (.fault 0x0C (BitVec.ofNat 64 (patternAddr s f)) 0)) (.bpld f) id := by
  rw [patternAddr] at aligned outside
  rw [Issue.checked, ← memDue_pattern, exec, execBpld]
  simp only [effAddr_eq, aligned, outside, ne_eq, not_true_eq_false, if_false]
  rfl

variable (own : (ownSpad s s.core (patternAddr s f) 128).isSome)
include own

/-- A byte of the pattern has an uncorrectable error (R245). -/
theorem exec_bpld_error {k : Nat} (error : readPlaces s (placesOf s s.core (patternAddr s f) 128 false) = .error k) :
    exec (.bpld f) s =
      (patterning s f []).checked s (some (.fault 0x1B (BitVec.ofNat 64 (patternAddr s f + k)) 0)) (.bpld f) id := by
  obtain ⟨area, spad⟩ := Option.isSome_iff_exists.1 own
  rw [patternAddr] at aligned spad error
  rw [Issue.checked, ← memDue_pattern, exec, execBpld]
  simp only [effAddr_eq, aligned, spad, error, ne_eq, not_true_eq_false, if_false]
  rfl

theorem exec_bpld_loads {bs : List Byte} (read : readPlaces s (placesOf s s.core (patternAddr s f) 128 false) = .ok bs) :
    exec (.bpld f) s =
      (patterning s f bs).runs s (.bpld f) (fun s' => onCore (postAcc s' (patternAccess s f)) (·.erase 1024 false)) := by
  have due : s.bed.btick + 12 + rampK f.ramp - 1 = s.bed.btick + 11 + rampK f.ramp := by omega
  obtain ⟨area, spad⟩ := Option.isSome_iff_exists.1 own
  rw [patternAddr] at aligned spad read
  rw [exec, execBpld]
  simp only [effAddr_eq, aligned, spad, read, ne_eq, not_true_eq_false, if_false, memDue, dueAt, due]
  rfl

end

/-- Settles O8: BPLD's checks in their order (`exec_bpld_misaligned`, `exec_bpld_outside`, `exec_bpld_error`), and its load. -/
theorem patternLoad : Obligations.PatternLoad := by
  unfold Obligations.PatternLoad
  intro s f va ps results w wf
  exact ⟨fun bs aligned own read => (issuesAs_posted (onlyCharges_own 1024) rfl (exec_bpld_loads aligned own read)).does,
    fun ready => ⟨fun misaligned => stops_of_checked (exec_bpld_misaligned misaligned) rfl ready,
      fun aligned outside => stops_of_checked (exec_bpld_outside aligned outside) rfl ready,
      fun k aligned own error => stops_of_checked (exec_bpld_error aligned own error) rfl ready⟩⟩

end Sys2Proof.Machine
end

section
/-! O9: LD and LDX (R208, R209, R212). -/

namespace Sys2Proof.Machine
open Sys2Proof.Stmt

/-- The bytes that LD or LDX reads (R207). -/
def loadPlaces (s : State) (f : SmemW) : List Place := placesOf s s.core (addrOf s f.a 23 f.off) (tyBits f.ty / 8) false

/-- LD or LDX of a present extent, as it issues (R209). -/
def loading (s : State) (xor : Bool) (f : SmemW) (m : Nat) : Issue := load s xor f (accLat s s.core (loadPlaces s f) false) m

/-- The access that LD or LDX posts: its reply falls due with its result (R209, R210). -/
def loadAccess (s : State) (xor : Bool) (f : SmemW) : Access :=
  mkAcc s (loadWord xor f) (if xor then [f.d, f.a] else [f.a]) .load f.cl f.sc (addrOf s f.a 23 f.off)
    (s.bed.btick + accLat s s.core (loadPlaces s f) false + rampK f.ramp - 1) (loadPlaces s f) []

section
variable {s : State} {xor : Bool} {f : SmemW}
  (pass : addrStop s s.core (addrOf s f.a 23 f.off) (tyBits f.ty / 8) (tyBits f.ty / 8) false false = none)
include pass

theorem exec_load {m : Nat} (present : loadAbsent s.core (addrOf s f.a 23 f.off) = false)
    (read : readAt s (addrOf s f.a 23 f.off) (loadPlaces s f) = .ok m) : exec (loadWord xor f) s =
      (loading s xor f m).runs s (loadWord xor f) (fun s' => onCore (postAcc s' (loadAccess s xor f)) (·.chargeLoad xor f.d)) := by
  have value := extTo64_eq (bytes_tyBits f.ty ▸ readAt_lt read)
  rw [loadPlaces] at read
  rw [exec_loadWord, runLoad]
  simp only [effAddr_eq, pass, present, read, dstLand_all, value]
  rfl

theorem exec_loadOfAbsent (absent : loadAbsent s.core (addrOf s f.a 23 f.off) = true) : exec (loadWord xor f) s =
    (loadOfAbsent s xor f).runs s (loadWord xor f)
      (fun s' => onCore s' fun c => if f.b = 0 then c.chargeLoad xor f.d else (c.chargeLoad xor f.d).eraseReg 1) := by
  rw [exec_loadWord, runLoad]
  simp only [effAddr_eq, pass, absent, if_true]
  rw [Issue.runs, loadOfAbsent_results]
  cases xor <;> rfl

end

/-- The charges of a load of an absent extent: those of D, and a bit of the flag register (R208). -/
theorem onlyCharges_loadOfAbsent (s : State) (xor : Bool) (f : SmemW) :
    OnlyCharges (fun c => if f.b = 0 then c.chargeLoad xor f.d else (c.chargeLoad xor f.d).eraseReg 1)
      (loadOfAbsent s xor f).regs 0 0 := by
  have flag : OnlyCharges (fun c => if f.b = 0 then c else c.eraseReg 1) (if f.b = 0 then 0 else 1) 0 0 := by
    split
    · exact onlyCharges_none
    · exact onlyCharges_eraseReg 1
  exact (onlyCharges_chargeLoad xor f.d).comp flag

/-- Settles O9: a load posts its access (`exec_load`), one of an absent extent only issues (`exec_loadOfAbsent`). -/
theorem loadWords : Obligations.LoadWords := by
  unfold Obligations.LoadWords
  intro s f xor m i va len ps b w _ pass
  refine ⟨fun present read => ?_, fun absent => ?_⟩
  · exact (issuesAs_posted (onlyCharges_chargeLoad xor f.d) rfl (exec_load (xor := xor) pass present read)).does
  · exact (issuesAs_of_onlyCharges (onlyCharges_loadOfAbsent s xor f) (exec_loadOfAbsent (xor := xor) pass absent) rfl).does

end Sys2Proof.Machine
end

section
/-! What a write of memory leaves and changes (R245, R259, R427): it sees nothing of the cores, and plain bytes hold what was
written. -/

namespace Sys2Proof.Machine
open Sys2Proof.Stmt

/-! ### Writes see nothing of the focused core -/

/-- The state with another core in the focus. -/
def State.onto (s : State) (c : Core) : State := { s with core := c }

/-- The state of a pair with another core in the focus. -/
def onto1 {α : Type} (c : Core) (x : State × α) : State × α := (x.1.onto c, x.2)

theorem foldl_onto {β : Type} {f : State → β → State} (c : Core) (h : ∀ s b, f (s.onto c) b = (f s b).onto c) (l : List β)
    (s : State) : l.foldl f (s.onto c) = (l.foldl f s).onto c :=
  List.foldl_hom (State.onto · c) fun s b => h s b

theorem ite_onto {p : Prop} [Decidable p] (c : Core) (s t : State) :
    (if p then s.onto c else t.onto c) = (if p then s else t).onto c := by split <;> rfl

theorem readTgt_onto (s : State) (c : Core) (t : Tgt) : readTgt (s.onto c) t = readTgt s t := rfl

theorem writeTgts_onto (s : State) (c : Core) (l : List (Tgt × Byte)) : writeTgts (s.onto c) l = onto1 c (writeTgts s l) := by
  have held : Tgt.held (s.onto c) = Tgt.held s := rfl
  have marks : (s.onto c).ecc = s.ecc := rfl
  unfold writeTgts
  dsimp only
  simp only [held, marks]
  rw [foldl_onto c]
  · generalize List.foldl _ s _ = t
    generalize mine : List.foldl _ (_, ([] : List Nat)) _ = x
    generalize own : List.foldl _ (_, ([] : List Nat)) _ = y
    obtain rfl : x = onto1 c y := by
      rw [← mine, ← own]
      refine List.foldl_rel (r := fun x y => x = onto1 c y) rfl ?_
      rintro slot - _ ⟨u, lost⟩ rfl
      have same : readBlock (u.onto c) slot.1 = readBlock u slot.1 := rfl
      simp only [onto1, same]
      split
      · rfl
      · split <;> rfl
    rfl
  · rintro t ⟨target, b⟩
    cases target with
    | byte pa => exact ite_onto c t { t with mem := wr8 t.mem pa b }
    | blk => rfl

theorem writeBits_onto (s : State) (c : Core) (l : List (Tgt × Nat)) (b : Byte) :
    writeBits (s.onto c) l b = onto1 c (writeBits s l b) := by
  unfold writeBits
  refine List.foldl_rel (r := fun x y => x = onto1 c y) rfl ?_
  rintro x - _ ⟨u, lost⟩ rfl
  simp only [onto1, readTgt_onto, writeTgts_onto]
  split <;> rfl

theorem putPlaces_onto (s : State) (c : Core) (l : List (Place × Byte)) : putPlaces (s.onto c) l = onto1 c (putPlaces s l) := by
  unfold putPlaces
  simp only [writeTgts_onto, onto1]
  split
  · rfl
  · refine List.foldl_rel (r := fun x y => x = onto1 c y) rfl ?_
    rintro ⟨⟨place, b⟩, i⟩ - _ ⟨u, lost⟩ rfl
    cases place with
    | one t => rfl
    | bits t => simp only [onto1, writeBits_onto]

/-- A write is the same whatever core stands in the focus. -/
theorem writeAt_onto (s : State) (c : Core) (ps : List Place) (v : Nat) :
    writeAt (s.onto c) ps v = onto1 c (writeAt s ps v) := by
  rw [writeAt, writePlaces, putPlaces_onto]
  rfl

/-! ### Plain bytes after a write (R7, R245, R427) -/

/-- Without error marks the byte writes at plain targets that are memory's are done, one after another. -/
theorem writeTgts_plain {s : State} (clean : s.ecc = []) (l : List (Nat × Byte)) :
    (writeTgts s (l.map fun x => (.byte x.1, x.2))).1.mem =
      (l.filter fun x => !mcHolds s x.1 1).foldl (fun m x => wr8 m x.1 x.2) s.mem := by
  have keep : (l.map fun x => (Tgt.byte x.1, x.2)).filter (fun x => !x.1.held s) =
      (l.filter fun x => !mcHolds s x.1 1).map fun x => (.byte x.1, x.2) := by
    rw [List.filter_map]
    rfl
  have run := List.foldl_hom (l := l.filter fun x => !mcHolds s x.1 1) (init := s.mem) (g₁ := fun m x => wr8 m x.1 x.2)
    (g₂ := fun t x => { t with mem := wr8 t.mem x.1 x.2 }) (fun m => { s with mem := m }) fun _ _ => rfl
  unfold writeTgts
  rw [keep]
  simp [clean, List.foldl_map, run]

theorem rd8_foldl_wr8_other (m : List Host.Cell) {a : Nat} {l : List (Nat × Byte)} (out : ∀ x ∈ l, x.1 ≠ a) :
    rd8 (l.foldl (fun m x => wr8 m x.1 x.2) m) a = rd8 m a := by
  induction l generalizing m with
  | nil => rfl
  | cons x l ih =>
    rw [List.forall_mem_cons] at out
    rw [List.foldl_cons, ih _ out.2, rd8_wr8, if_neg out.1.symm]

/-- A byte that is written once holds what was written. -/
theorem rd8_foldl_wr8_mem (m : List Host.Cell) {x : Nat × Byte} {l : List (Nat × Byte)} (once : (l.map (·.1)).Nodup)
    (listed : x ∈ l) : rd8 (l.foldl (fun m x => wr8 m x.1 x.2) m) x.1 = x.2 := by
  induction l generalizing m with
  | nil => exact absurd listed List.not_mem_nil
  | cons y l ih =>
    rw [List.map_cons, List.nodup_cons] at once
    obtain ⟨new, once⟩ := once
    rw [List.foldl_cons]
    rcases List.mem_cons.1 listed with rfl | later
    · rw [rd8_foldl_wr8_other _ fun y hy same => new (List.mem_map.2 ⟨y, hy, same⟩), rd8_wr8, if_pos rfl]
    · exact ih _ once later

theorem putPlaces_plain (s : State) (l : List (Nat × Byte)) :
    (putPlaces s (l.map fun x => (.one (.byte x.1), x.2))).1 = (writeTgts s (l.map fun x => (.byte x.1, x.2))).1 := by
  simp [putPlaces, List.filterMap_map]

/-- A value's bytes at plain places, each its own: those that are memory's hold it. -/
theorem rd8_writeAt_plain {s : State} {pas : List Nat} (once : pas.Nodup) (clean : s.ecc = []) (v : Nat) {j pa : Nat}
    (listed : pas[j]? = some pa) :
    rd8 (writeAt s (pas.map fun pa => .one (.byte pa)) v).1.mem pa =
      if mcHolds s pa 1 then rd8 s.mem pa else BitVec.ofNat 8 (v / 256 ^ j) := by
  have bytes : (pas.map fun pa => Place.one (.byte pa)).zip (leBytes pas.length v) =
      (pas.zip (leBytes pas.length v)).map fun x => (.one (.byte x.1), x.2) := by
    rw [List.zip_map_left]
    rfl
  have keys : ((pas.zip (leBytes pas.length v)).map (·.1)).Nodup := by
    rwa [List.map_fst_zip (leBytes_length _ _).ge]
  have mem : (writeAt s (pas.map fun pa => .one (.byte pa)) v).1.mem =
      ((pas.zip (leBytes pas.length v)).filter fun x => !mcHolds s x.1 1).foldl (fun m x => wr8 m x.1 x.2) s.mem := by
    rw [writeAt, List.length_map, bytes, ← writeTgts_plain clean, ← putPlaces_plain]
    rfl
  rw [mem]
  split
  · next held => exact rd8_foldl_wr8_other _ fun x hx same => by simp [same, held] at hx
  · next ram =>
    have small : j < pas.length := (List.getElem?_eq_some_iff.1 listed).1
    have digit : (leBytes pas.length v)[j]? = some (BitVec.ofNat 8 (v / 256 ^ j)) := by
      rw [← leBytes_getD v small, List.getD_eq_getElem?_getD, List.getElem?_eq_getElem (by simpa using small)]
      rfl
    have written : (pa, BitVec.ofNat 8 (v / 256 ^ j)) ∈ (pas.zip (leBytes pas.length v)).filter fun x => !mcHolds s x.1 1 := by
      refine List.mem_filter.2 ⟨List.mem_of_getElem? (i := j) ?_, by simpa using ram⟩
      rw [List.getElem?_zip_eq_some]
      exact ⟨listed, digit⟩
    exact rd8_foldl_wr8_mem (x := (pa, _)) _ (keys.sublist (List.filter_sublist.map _)) written

/-- What a write leaves in memory (R7, R245, R259, R427). -/
theorem wrote_writeAt (s : State) (ps : List Place) (v : Nat) : wrote s ps v (writeAt s ps v).1.mem := by
  refine ⟨fun a out => rd8_writePlaces_other fun x hx => out x.1 (List.of_mem_zip hx).1, ?_⟩
  rintro pas rfl once clean j pa listed
  exact rd8_writeAt_plain once clean v listed

end Sys2Proof.Machine
end

section
/-! O10, O11: stores, exchanges and atomics (R211-R215, R245). -/

namespace Sys2Proof.Machine
open Sys2Proof.Stmt

/-! ### Effects apart from the issue -/

/-- The effect neither sees nor touches the fields that the issue of a word changes. -/
def Apart (h : State → State) : Prop :=
  ∀ (s : State) (d : Core), h (s.onto (s.core.withIssue d)) = (h s).onto ((h s).core.withIssue d)

/-- A word whose own effect stands apart from its issue, and that then only charges. -/
theorem issuesAs_apart {w : Issue} {i : Instr} {s : State} {h : State → State} {g : Core → Core} {regs own cells : Nat}
    (apart : Apart h) (free : ∀ u : State, Charges u.core (h u).core 0 0 0) (effect : OnlyCharges g regs own cells)
    (bits : (w.regs, w.own, w.cells) = (regs, own, cells)) (runs : exec i s = w.runs s i (fun s' => onCore (h s') g)) :
    IssuesAs w i s (h s) := by
  simp only [Prod.mk.injEq] at bits
  obtain ⟨rfl, rfl, rfl⟩ := bits
  refine ⟨_, runs, (free _).then_ (effect.charges _), ?_⟩
  have issued : w.issued s = s.onto (s.core.withIssue (w.issued s).core) := w.issued_eq s
  rw [issued, apart, onCore, effect.only]
  rfl

theorem apart_postAcc (a : Access) : Apart (postAcc · a) := fun _ _ => rfl

/-- A store's memory half stands apart from the issue of its word. -/
theorem apart_performWrite (a : Access) (va : Nat) (ps : List Place) (v : Nat) : Apart (performWrite · a va ps v) := by
  intro s d
  simp only [performWrite, writeAt_onto, onto1]
  have core := writeAt_core s ps v
  split <;> simp only [postAcc, dropFault, onCore, State.onto, core] <;> rfl

/-- The state after a write of memory, its access posted. -/
def stored (s : State) (ps : List Place) (v : Nat) (a : Access) : State :=
  let t := (writeAt s ps v).1
  posted { s with mem := t.mem, ecc := t.ecc, writes := t.writes } a

theorem writeAt_only (s : State) (ps : List Place) (v : Nat) : (writeAt s ps v).1 = { s with
    mem := (writeAt s ps v).1.mem, ecc := (writeAt s ps v).1.ecc, writes := (writeAt s ps v).1.writes } :=
  (writePlaces_memStep s _).1

/-- A write of which no byte is dropped. -/
theorem performWrite_whole {s : State} {ps : List Place} {v : Nat} (whole : (writeAt s ps v).2 = none) (a : Access) (va : Nat) :
    performWrite s a va ps v = stored s ps v a := by
  rw [performWrite, whole, stored, ← writeAt_only]
  rfl

/-- The fault of a store of which byte k is dropped, for the words of its class (R171, R245). -/
def droppedFault (a : Access) (va k : Nat) : FaultRec :=
  { accessRec a 0x1B (2 ^ a.cls) with addr := BitVec.ofNat 64 (va + k) }

/-- A write of which byte k is dropped: its fault waits. -/
theorem performWrite_dropped {s : State} {ps : List Place} {v k : Nat} (dropped : (writeAt s ps v).2 = some k) (a : Access)
    (va : Nat) : performWrite s a va ps v =
      (stored s ps v a).onto ((stored s ps v a).core.addPending (droppedFault a va k)) := by
  rw [performWrite, dropped, stored, ← writeAt_only]
  rfl

section
variable {w : Issue} {i : Instr} {s : State} {a : Access} {va : Nat} {ps : List Place} {v : Nat} {g : Core → Core}
  {regs own cells : Nat} (effect : OnlyCharges g regs own cells) (bits : (w.regs, w.own, w.cells) = (regs, own, cells))
  (runs : exec i s = w.runs s i (fun s' => onCore (performWrite s' a va ps v) g))
include effect bits runs

theorem issuesAs_performWrite : IssuesAs w i s (performWrite s a va ps v) :=
  issuesAs_apart (apart_performWrite a va ps v) (fun u => charges_performWrite u a va ps v) effect bits runs

/-- A word that writes every byte at its places (R212-R214). -/
theorem stores_of_performWrite (whole : (writeAt s ps v).2 = none) (ready : w.ready s) : stores w i s ps v a := by
  refine ⟨_, (writeAt s ps v).1.ecc, (writeAt s ps v).1.writes, wrote_writeAt s ps v, ?_⟩
  have does := (issuesAs_performWrite effect bits runs).does ready
  rwa [performWrite_whole whole] at does

end

/-! ### ST, STX and SWPM (R212, R213) -/

/-- The bytes that ST, STX or SWPM stores to (R207). -/
def storePlaces (s : State) (f : SmemW) : List Place := placesOf s s.core (addrOf s f.a 23 f.off) (tyBits f.ty / 8) true

/-- The access of a store or an exchange. -/
def storeAccess (s : State) (i : Instr) (f : SmemW) (kind : AccKind) (due : Nat) : Access :=
  mkAcc s i [f.d, f.a] kind f.cl f.sc (addrOf s f.a 23 f.off) due (storePlaces s f) (undoOf s (storePlaces s f))

/-- D's low bits, as ST writes them. -/
def storeValue (s : State) (f : SmemW) : Nat := (lo s (tyBits f.ty) f.d).toNat

/-- SWPM as it issues: its result falls due by its home (R209). -/
def swapping (s : State) (f : SmemW) (m : Nat) : Issue := swapMem s f (accLat s s.core (storePlaces s f) false) m

section
variable {s : State} {f : SmemW}
  (pass : addrStop s s.core (addrOf s f.a 23 f.off) (tyBits f.ty / 8) (tyBits f.ty / 8) true false = none)
include pass

theorem exec_st : exec (.st f) s = (store s false f).runs s (.st f) (fun s' => onCore
    (performWrite s' (storeAccess s (.st f) f .store 0) (addrOf s f.a 23 f.off) (storePlaces s f) (storeValue s f))
    (·.erase (tyBits f.ty) true)) := by
  rw [exec, execSt, runStore, storeValue, setWidth_srcVal_toNat]
  simp only [effAddr_eq, pass]
  rfl

variable {m : Nat} (read : readAt s (addrOf s f.a 23 f.off) (storePlaces s f) = .ok m)
include read

theorem exec_stx : exec (.stx f) s = (store s true f).runs s (.stx f) (fun s' => onCore
    (performWrite s' (storeAccess s (.stx f) f .rmw 0) (addrOf s f.a 23 f.off) (storePlaces s f) (m ^^^ storeValue s f))
    (fun c => c)) := by
  rw [storePlaces] at read
  rw [exec, execStx, runStore, storeValue, setWidth_srcVal_toNat]
  simp only [effAddr_eq, pass, if_true, read]
  rfl

theorem exec_swpm : exec (.swpm f) s = (swapping s f m).runs s (.swpm f) (fun s' => onCore
    (performWrite s' (storeAccess s (.swpm f) f .rmw
        (s.bed.btick + accLat s s.core (storePlaces s f) false + rampK f.ramp - 1))
      (addrOf s f.a 23 f.off) (storePlaces s f) (storeValue s f))
    (fun c => c)) := by
  rw [storePlaces] at read
  rw [exec, execSwpm, storeValue, setWidth_srcVal_toNat]
  simp only [effAddr_eq, pass, read]
  rfl

end

/-- Settles O10: each store performs its write at its places as it issues (`exec_st`, `exec_stx`, `exec_swpm`). -/
theorem storeWords : Obligations.StoreWords := by
  unfold Obligations.StoreWords
  intro s f m va w ps x b due fits pass
  refine ⟨fun _ ready => ?_, fun k _ ready dropped => ?_, fun _ read ready => ?_, fun _ read ready => ?_⟩
  · exact fun whole => stores_of_performWrite (onlyCharges_cells w) rfl (exec_st pass) whole ready
  · refine ⟨_, (writeAt s ps x).1.ecc, (writeAt s ps x).1.writes, wrote_writeAt s ps x, ?_⟩
    have does := (issuesAs_performWrite (onlyCharges_cells w) rfl (exec_st pass)).does ready
    rwa [performWrite_dropped (ps := storePlaces s f) (v := storeValue s f) dropped] at does
  · exact fun whole => stores_of_performWrite onlyCharges_none rfl (exec_stx pass read) whole ready
  · exact fun whole => stores_of_performWrite onlyCharges_none rfl (exec_swpm pass read) whole ready

/-! ### The atomics (R75, R214) -/

/-- An FP32 pattern has 32 bits. -/
theorem packF_lt (rb : Nat) (sticky : Bool) (x : Fv) : packF 3 0 rb sticky x < 2 ^ 32 := by
  have inf (neg : Bool) : infBits 3 neg < 2 ^ 32 := by cases neg <;> decide
  cases x with
  | nan => exact (by decide : canonNan 3 < 2 ^ 32)
  | inf neg => exact inf neg
  | fin neg m e =>
    have sign : (if neg then 2 ^ (fmtBits 3 - 1) else 0) ≤ 2 ^ 31 := by cases neg <;> decide
    have below : expMax 3 * 2 ^ fracBits 3 < 2 ^ 31 := by decide
    unfold packF
    dsimp only
    split
    · exact sign.trans_lt (by decide)
    · split
      · omega
      · rw [if_neg (by simp)]
        exact inf neg

theorem fadd32_lt (a b : Nat) : fadd32 a b < 2 ^ 32 := packF_lt ..

/-- The new word of an atomic by the rules is the model's (R75). -/
theorem aopNew_eq {old : Nat} (fits : old < 2 ^ 64) (op : Aop) (b c : Word) :
    aopNew op old b.toNat c.toNat = (atomNew op (BitVec.ofNat 64 old) b c).map BitVec.toNat := by
  obtain ⟨x, rfl⟩ : ∃ x : Word, x.toNat = old := ⟨BitVec.ofNat 64 old, Nat.mod_eq_of_lt fits⟩
  have less : aopNew.lessSigned x.toNat b.toNat = x.slt b := by
    rw [← lessThan_signed]
    rfl
  rw [BitVec.ofNat_toNat, BitVec.setWidth_eq]
  cases op
  case add | and | or | xor | swp => rfl
  case min | max =>
    simp only [aopNew, atomNew, less, Option.map_some]
    split <;> rfl
  case cas =>
    simp only [aopNew, atomNew, BitVec.toNat_inj]
    split <;> rfl
  case fadd =>
    simp only [aopNew, atomNew, Option.map_some, BitVec.toNat_ofNat]
    rw [Nat.mod_eq_of_lt (lt_trans (fadd32_lt ..) (by decide))]

theorem apart_performAtom (a : Access) (va : Nat) (ps : List Place) (new : Option Nat) : Apart (performAtom · a va ps new) := by
  cases new with
  | none => exact apart_postAcc a
  | some v => exact apart_performWrite a va ps v

/-- The bytes that an atomic reads and writes (R214). -/
def atomPlaces (s : State) (op : Aop) (f : SatmW) : List Place :=
  placesOf s s.core (addrOf s f.a 16 f.off) (if op = .fadd then 4 else 8) true

/-- An atomic that finds the old word, as it issues (R209, R214). -/
def atomIssue (s : State) (op : Aop) (f : SatmW) (old : Nat) : Issue :=
  atom s op f (accLat s s.core (atomPlaces s op f) true) (BitVec.ofNat 64 old)

/-- The access of an atomic. -/
def atomAccess (s : State) (p : Aop × Instr) (f : SatmW) (undo : List (Tgt × Byte × Nat)) : Access :=
  mkAcc s p.2 (if p.1 = .cas then [f.a, f.b, f.c] else [f.a, f.b]) .atomic f.cl f.sc (addrOf s f.a 16 f.off)
    (s.bed.btick + accLat s s.core (atomPlaces s p.1 f) true + rampK f.ramp - 1) (atomPlaces s p.1 f) undo

/-- The new word of an atomic that finds the old one, by the rules. -/
def atomWord (s : State) (op : Aop) (f : SatmW) (old : Nat) : Option Word :=
  atomNew op (BitVec.ofNat 64 old) (srcVal s f.b) (srcVal s f.c)

/-- The charges of an atomic at issue (R214). -/
def Core.chargeAtom (c : Core) (op : Aop) (d : Nat) : Core := (c.chargeDst d 64).erase (aopCells op) true

theorem onlyCharges_chargeAtom (op : Aop) (d : Nat) :
    OnlyCharges (·.chargeAtom op d) (if isPort d then 0 else 64) 0 (atomCells op) := by
  have bits := (onlyCharges_chargeDst d 64).comp (onlyCharges_cells (aopCells op))
  rw [Nat.add_zero, Nat.zero_add, Nat.zero_add, ← atomCells_eq] at bits
  simpa only [Core.chargeAtom, atomCells_eq] using bits

section
variable {s : State} {f : SatmW} {p : Aop × Instr} {old : Nat} (listed : p ∈ atomOps f)
  (pass : addrStop s s.core (addrOf s f.a 16 f.off) (if p.1 = .fadd then 4 else 8) (if p.1 = .fadd then 4 else 8) true true = none)
  (read : readAt s (addrOf s f.a 16 f.off) (atomPlaces s p.1 f) = .ok old)
include listed pass read

theorem exec_atom : exec p.2 s = (atomIssue s p.1 f old).runs s p.2 (fun s' => onCore
    (performAtom s' (atomAccess s p f (if (atomWord s p.1 f old).isSome then undoOf s (atomPlaces s p.1 f) else []))
      (addrOf s f.a 16 f.off) (atomPlaces s p.1 f) ((atomWord s p.1 f old).map BitVec.toNat))
    (·.chargeAtom p.1 f.d)) := by
  rw [atomPlaces] at read
  have fits : old < 2 ^ 64 := (readAt_lt read).trans_le (by split <;> decide)
  have cas := casWrites_iff fits p.1 (srcVal s f.b).toNat (srcVal s f.c)
  have word : aopNew p.1 old (srcVal s f.b).toNat (srcVal s f.c).toNat = (atomWord s p.1 f old).map BitVec.toNat :=
    aopNew_eq fits ..
  rw [word, Option.isSome_map] at cas
  rw [exec_atomOps s f p listed, runAtom]
  simp only [effAddr_eq, pass, read, dstLand_all, cas, word, Option.isSome_map]
  rfl

theorem issuesAs_performAtom : IssuesAs (atomIssue s p.1 f old) p.2 s
    (performAtom s (atomAccess s p f (if (atomWord s p.1 f old).isSome then undoOf s (atomPlaces s p.1 f) else []))
      (addrOf s f.a 16 f.off) (atomPlaces s p.1 f) ((atomWord s p.1 f old).map BitVec.toNat)) :=
  issuesAs_apart (apart_performAtom _ _ _ _) (fun u => charges_performAtom u ..) (onlyCharges_chargeAtom p.1 f.d) rfl
    (exec_atom listed pass read)

end

/-- Settles O11: an atomic performs its write, where it has one, as it issues (`issuesAs_performAtom`). -/
theorem atomicWords : Obligations.AtomicWords := by
  unfold Obligations.AtomicWords
  intro s f old p listed va len ps b w a _ pass read ready
  have does := (issuesAs_performAtom listed pass read).does ready
  split
  · next v new =>
    intro whole
    have word : atomWord s p.1 f old = some v := new
    rw [word] at does
    refine ⟨_, (writeAt s ps v.toNat).1.ecc, (writeAt s ps v.toNat).1.writes, wrote_writeAt s ps v.toNat, ?_⟩
    rwa [Option.map_some, performAtom, performWrite_whole (ps := atomPlaces s p.1 f) whole] at does
  · next new =>
    have word : atomWord s p.1 f old = none := new
    rwa [word] at does

end Sys2Proof.Machine
end

section
/-! O14, O17, O18: FENCE and TMARK, the words of handles and of page requests (R34, R217, R218, R220, R226, R229, R251). -/

namespace Sys2Proof.Machine
open Sys2Proof.Stmt

/-! ### Effects on the focused core -/

theorem Apart.comp {g h : State → State} (outer : Apart g) (inner : Apart h) : Apart (fun s => g (h s)) := fun s d => by
  simp only [inner s d]
  exact outer (h s) d

theorem apart_onCore {g : Core → Core} (apart : ∀ c d : Core, g (c.withIssue d) = (g c).withIssue d) :
    Apart (onCore · g) := fun s d => congrArg s.onto (apart s.core d)

/-- A word that charges nothing, its own effect apart from its issue. -/
theorem issuesAs_effect {w : Issue} {i : Instr} {s : State} {h : State → State} (apart : Apart h)
    (free : ∀ u : State, Charges u.core (h u).core 0 0 0) (bits : (w.regs, w.own, w.cells) = (0, 0, 0))
    (runs : exec i s = w.runs s i h) : IssuesAs w i s (h s) :=
  issuesAs_apart apart free onlyCharges_none bits runs

/-- A word without a check of its own that stops it. -/
theorem runs_of_checked {w : Issue} {i : Instr} {s : State} {own : Option Stop} {eff : State → State}
    (runs : exec i s = w.checked s own i eff) (pass : own = none) : exec i s = w.runs s i eff := by
  rw [runs, pass, w.checked_none]

/-- A ready word delivers the fault that its own check finds waiting (R176). -/
theorem delivers_of_checked {w : Issue} {i : Instr} {s : State} {own : Option Stop} {eff : State → State} {r : FaultRec}
    (runs : exec i s = w.checked s own i eff) (due : own = some (.deliver r)) (ready : w.ready s) :
    exec i s = .next (stopWord s i [] (.deliver r)) := by
  rw [runs, due]
  exact runWord_stops ready ..

/-! ### FENCE and TMARK (R217, R218, R220) -/

theorem Core.clearToken_withIssue (c d : Core) (k : Nat) : (c.withIssue d).clearToken k = (c.clearToken k).withIssue d := by
  exact (apply_ite (Core.withIssue · d) (k = 63 ∨ c.clearTok.contains k) c { c with clearTok := c.clearTok ++ [k] }).symm

/-- What a TMARK of token k notes: it is clear, and what it covers (R218). -/
def Core.mark (c : Core) (k mask : Nat) : Core := { c.clearToken k with tmarks := tset 0 c.tmarks k (mask + 1) }

theorem Core.mark_withIssue (c d : Core) (k mask : Nat) : (c.withIssue d).mark k mask = (c.mark k mask).withIssue d := by
  rw [Core.mark, Core.clearToken_withIssue]
  rfl

theorem charges_mark (u : Core) (k mask : Nat) : Charges u (u.mark k mask) 0 0 0 := by
  rw [Core.mark, Core.clearToken_only]
  exact .nothing rfl rfl rfl rfl rfl rfl rfl rfl rfl rfl rfl rfl rfl rfl

/-- An access or mark enters the post buffer where its mask names a class. -/
def postMasked (mask : Nat) (a : Access) (s : State) : State := if mask = 0 then s else postAcc s a

theorem apart_postMasked (mask : Nat) (a : Access) : Apart (postMasked mask a) := fun s d => by
  unfold postMasked
  split <;> rfl

theorem charges_postMasked (mask : Nat) (a : Access) (u : State) : Charges u.core (postMasked mask a u).core 0 0 0 := by
  unfold postMasked
  split
  · exact charges_none _
  · exact charges_postAcc u a

theorem exec_fence (s : State) (f : SsysW) : exec (.fence f) s =
    (quick s .mem f.ramp [] 0).checked s ((s.core.accFault f.mask).map .deliver) (.fence f)
      (postMasked f.mask (ordering s (.fence f) .fence f 63)) := rfl

/-- The issue of TMARK: its token is set at once where it covers no class (R218). -/
def marking (s : State) (f : SsysW) : Issue :=
  Issue.plain s [.mem] f.ramp [] (if f.mask = 0 then [dueAt s 1 f.ramp (.tok f.k)] else []) 0

theorem exec_tmark (s : State) (f : SsysW) : exec (.tmark f) s =
    (marking s f).checked s
      (if s.core.tokSet f.k then (s.core.accFault f.mask).map .deliver else some (.fault 0x0B 0 0)) (.tmark f)
      (fun s' => postMasked f.mask (ordering s (.tmark f) .tmark f f.k) (onCore s' (·.mark f.k f.mask))) := by
  rw [exec, execTmark]
  cases s.core.tokSet f.k <;> rfl

/-- Settles O14: both words by their checks (`exec_fence`, `exec_tmark`), and what they enter into the buffer. -/
theorem fenceAndMark : Obligations.FenceAndMark := by
  unfold Obligations.FenceAndMark
  intro s f due fence mark
  refine ⟨fun _ ready => ⟨fun none_ => ?_, fun r waits => ?_⟩, fun _ ready => ⟨fun clear => ?_, fun set none_ => ?_, fun r set waits => ?_⟩⟩
  · have found : s.core.accFault f.mask = none := none_
    exact (issuesAs_effect (apart_postMasked _ _) (charges_postMasked _ _) rfl
      (runs_of_checked (exec_fence s f) (by rw [found]; rfl))).does ready
  · have found : s.core.accFault f.mask = some r := waits
    exact delivers_of_checked (exec_fence s f) (by rw [found]; rfl) ready
  · exact stops_of_checked (exec_tmark s f) (by rw [clear]; rfl) ready
  · have found : s.core.accFault f.mask = none := none_
    exact (issuesAs_effect ((apart_postMasked _ _).comp (apart_onCore (Core.mark_withIssue · · f.k f.mask)))
      (fun u => (charges_mark u.core f.k f.mask).then_ (charges_postMasked _ _ (onCore u (·.mark f.k f.mask)))) rfl
      (runs_of_checked (exec_tmark s f) (by rw [set, found]; rfl))).does ready
  · have found : s.core.accFault f.mask = some r := waits
    exact delivers_of_checked (exec_tmark s f) (by rw [set, found]; rfl) ready

/-! ### HCLAIM and HREL (R34, R226) -/

theorem apart_setHandle (k : Nat) (x : HState) : Apart (onCore · (·.setHandle k x)) := fun _ _ => rfl

theorem charges_setHandle (u : Core) (k : Nat) (x : HState) : Charges u (u.setHandle k x) 0 0 0 :=
  .nothing rfl rfl rfl rfl rfl rfl rfl rfl rfl rfl rfl rfl rfl rfl

theorem exec_hclaim (s : State) (f : SsysW) : exec (.hclaim f) s =
    (quick s .ctl f.ramp [] 0).checked s
      (if s.core.handle f.k = .free then none else some (.fault 0x11 0 (BitVec.ofNat 64 f.k))) (.hclaim f)
      (onCore · (·.setHandle f.k .filling)) := rfl

/-- A handle may be released: full or draining, without a consumer (R34). -/
abbrev Core.releasable (c : Core) (k : Nat) : Prop :=
  (c.handle k = .full ∨ c.handle k = .draining) ∧ c.consumerOf k = false

theorem exec_hrel (s : State) (f : SsysW) : exec (.hrel f) s =
    (quick s .ctl f.ramp [] 0).checked s
      (if s.core.releasable f.k then none else some (.fault 0x11 0 (BitVec.ofNat 64 f.k))) (.hrel f)
      (onCore · (·.setHandle f.k .free)) := by
  simp only [Core.releasable, ← Bool.not_eq_true']
  rfl

/-- A word that moves a handle to another state. -/
theorem issuesAs_setHandle {s : State} {i : Instr} {ramp k : Nat} {x : HState}
    (runs : exec i s = (quick s .ctl ramp [] 0).runs s i (onCore · (·.setHandle k x))) :
    IssuesAs (quick s .ctl ramp [] 0) i s { s with core := s.core.setHandle k x } :=
  issuesAs_effect (apart_setHandle k x) (fun u => charges_setHandle u.core k x) rfl runs

/-- Settles O17: each word by the check of its handle's state (`exec_hclaim`, `exec_hrel`). -/
theorem handleWords : Obligations.HandleWords := by
  unfold Obligations.HandleWords
  intro s f w h may become ready
  refine ⟨fun _ => ⟨fun free => ?_, fun held => ?_⟩, fun _ => ⟨fun ok => ?_, fun barred => ?_⟩, fun x => ?_⟩
  · exact (issuesAs_setHandle (runs_of_checked (exec_hclaim s f) (if_pos free))).does ready
  · exact stops_of_checked (exec_hclaim s f) (if_neg held) ready
  · exact (issuesAs_setHandle (runs_of_checked (exec_hrel s f) (if_pos ok))).does ready
  · exact stops_of_checked (exec_hrel s f) (if_neg barred) ready
  · exact (Core.handle_setHandle ..).trans (if_pos rfl)

/-! ### PGREQ (R229, R251) -/

/-- The extents after a page request for an address: the absent, unserviced one that holds it is marked. -/
def askedFor (va : Nat) (es : List Extent) : List Extent := es.map fun e =>
  if e.vbase ≤ va ∧ va < e.vbase + e.len ∧ e.abs = true ∧ e.serviced = false then { e with requested := true } else e

theorem exec_pgreq (s : State) (f : SsysW) : exec (.pgreq f) s =
    (quick s .mem f.ramp [f.a] 64).checked s
      (if (findExt s.core.extents (srcVal s f.a).toNat).isNone then
        some (.fault 0x0C (BitVec.ofNat 64 (srcVal s f.a).toNat) 0) else none) (.pgreq f)
      (onCore · fun c => { c with extents := askedFor (srcVal s f.a).toNat c.extents }) := by
  simp only [askedFor, ← Bool.not_eq_true']
  rfl

/-- Settles O18: PGREQ by its check that an extent holds A (`exec_pgreq`). -/
theorem pageRequestWord : Obligations.PageRequestWord := by
  unfold Obligations.PageRequestWord
  intro s f va w asked _ ready
  refine ⟨fun held => ?_, fun nowhere => ?_⟩
  · have pass : (findExt s.core.extents (srcVal s f.a).toNat).isNone = false := by
      rw [← Option.not_isSome, held]
      rfl
    exact (issuesAs_effect (h := (onCore · fun c => { c with extents := askedFor va c.extents })) (fun _ _ => rfl)
      (fun _ => .nothing rfl rfl rfl rfl rfl rfl rfl rfl rfl rfl rfl rfl rfl rfl) rfl
      (runs_of_checked (exec_pgreq s f) (by rw [pass]; rfl))).does ready
  · have stop : (findExt s.core.extents (srcVal s f.a).toNat).isNone = true := Option.isNone_iff_eq_none.2 nowhere
    exact stops_of_checked (exec_pgreq s f) (if_pos stop) ready

end Sys2Proof.Machine
end

section
/-! O19, O21: the trug words HPUSH to HDROP, and ERASE (R165-R169, R207, R231, R233, R234). -/

namespace Sys2Proof.Machine
open Sys2Proof.Stmt

/-- The word without its results: so it stands where its own check refuses it before they are known. -/
def Issue.bare (w : Issue) : Issue := { w with results := [] }

/-- A word without results is ready where it is with them. -/
theorem Issue.ready_bare {w : Issue} {s : State} (ready : w.ready s) : w.bare.ready s := by
  obtain ⟨view, units, -, srcs, -⟩ := ready
  exact ⟨fun unit => ⟨(view unit).1, fun q hq => absurd hq List.not_mem_nil⟩, units, rfl, srcs,
    fun q hq => absurd hq List.not_mem_nil⟩

/-- A ready word whose own check refuses it before its results are known. -/
theorem stops_of_bare {w : Issue} {i : Instr} {s : State} {eff : State → State} {code : Nat} {addr detail : Word}
    (runs : exec i s = w.bare.checked s (some (.fault code addr detail)) i eff) (ready : w.ready s) :
    stops i s w.srcs code addr detail :=
  stops_of_checked (w := w.bare) runs rfl (Issue.ready_bare ready)

/-- An effect that neither sees nor touches the focused core stands apart from every issue. -/
theorem apart_of_onto {h : State → State} (onto : ∀ s c, h (s.onto c) = (h s).onto c) (core : ∀ s, (h s).core = s.core) :
    Apart h := fun s d => by rw [onto, core]

/-! ### HPUSH, HPOP, HDROP, HMARK and HCHK (R231, R233) -/

theorem apart_trug (g : Trug → Trug) : Apart (onCore · fun c => c.setTrug (g c.trug)) :=
  apart_onCore fun c d => by rw [Core.trug_withIssue, Core.setTrug_withIssue]

/-- HPUSH clears the low n bits of D. -/
def pushing (s : State) (f : SsysW) : Issue := trugWord s f [f.d] [dueAt s 1 f.ramp (.sreg f.d 0 f.sel 0)] f.sel

theorem exec_hpush (s : State) (f : SsysW) : exec (.hpush f) s =
    (pushing s f).checked s (s.core.pushStop f.sel) (.hpush f)
      (fun s' => onCore s' fun c => c.setTrug (c.trug.push (lo s f.sel f.d).toNat f.sel)) := by
  rw [setWidth_srcVal_toNat]
  rfl

/-- HPOP xors the bits popped into D. -/
def popping (s : State) (f : SsysW) : Issue :=
  trugWord s f [f.d] [dueAt s 1 f.ramp (.sreg f.d 0 f.sel
    (BitVec.ofNat 64 ((lo s f.sel f.d).toNat ^^^ (popped s.core.trug f.sel).2)))] f.sel

theorem exec_hpop (s : State) (f : SsysW) : exec (.hpop f) s =
    (popping s f).checked s (s.core.popStop f.sel) (.hpop f)
      (fun s' => onCore s' fun c => c.setTrug (c.trug.pop f.sel).2) := by
  rw [popping, setWidth_srcVal_toNat]
  rfl

theorem exec_hdrop (s : State) (f : SsysW) : exec (.hdrop f) s =
    (dropping s f).checked s (s.core.popStop f.sel) (.hdrop f)
      (fun s' => onCore (onCore s' fun c => c.setTrug (c.trug.pop f.sel).2) (·.eraseReg f.sel)) := rfl

theorem exec_hmark (s : State) (f : SsysW) : exec (.hmark f) s =
    (trugWord s f [] [] 0).runs s (.hmark f) (fun s' => onCore s' fun c => c.setTrug (c.trug.setMark f.sel c.trug.top)) := rfl

theorem exec_hchk (s : State) (f : SsysW) : exec (.hchk f) s =
    (trugWord s f [] [] 0).checked s (if s.core.trug.top ≠ s.core.trug.mark f.sel then some (.fault 0x07 0 0) else none)
      (.hchk f) id := rfl

/-- A mark that is set is read back (R165). -/
theorem Trug.mark_setMark (t : Trug) (m v : Nat) : (t.setMark m v).mark m = v := by
  match m with
  | 0 | 1 | 2 | _ + 3 => rfl

/-- Settles O19: the words that push and pop by their checks, HMARK by its run, HCHK by its check. -/
theorem trugWords : Obligations.TrugWords := by
  unfold Obligations.TrugWords
  intro s f n t low push pop drop bare
  refine ⟨fun _ ready => push_completes_or_stops rfl ready (lo s n f.d).isLt (exec_hpush s f),
    fun _ ready => pop_completes_or_stops rfl ready (exec_hpop s f),
    fun _ ready => ⟨fun held => ?_, fun short => ?_⟩, fun _ ready => ⟨?_, Trug.mark_setMark t n t.top⟩,
    fun _ ready => ⟨fun same => ?_, fun differs => ?_⟩, fun wf held => ?_, by decide +kernel⟩
  · exact (issuesAs_apart (apart_trug fun t => (t.pop n).2) (fun u => charges_setTrug u.core _) (onlyCharges_eraseReg n) rfl
      (runs_of_checked (exec_hdrop s f) (popStop_held held))).does ready
  · exact stops_of_checked (exec_hdrop s f) (popStop_short short) ready
  · exact (issuesAs_trug (g := fun t => t.setMark n t.top) (exec_hmark s f) rfl).does ready
  · exact (issuesAs_free (runs_of_checked (exec_hchk s f) (if_neg (not_not.2 same.symm))) rfl).does ready
  · exact stops_of_checked (exec_hchk s f) (if_pos (Ne.symm differs)) ready
  · rw [← Trug.push_eq_pushed t (lo s n f.d).isLt]
    exact congrArg Prod.swap (Trug.pop_push wf held (lo s n f.d).isLt)

/-! ### ERASE (R207, R234) -/

theorem zeroRuns_onto (s : State) (c : Core) (l : List (Nat × Nat)) : zeroRuns (s.onto c) l = (zeroRuns s l).onto c :=
  foldl_onto c (fun _ _ => rfl) l s

theorem zeroRuns_only (s : State) (l : List (Nat × Nat)) :
    zeroRuns s l = { s with mem := (zeroRuns s l).mem, ecc := (zeroRuns s l).ecc } :=
  List.foldlRecOn l _ (motive := fun t : State => t = { s with mem := t.mem, ecc := t.ecc }) rfl
    fun t same x _ => by rw [same]

/-- The bytes of the runs read 0, every other byte as before. -/
theorem rd8_zeroRuns (s : State) (l : List (Nat × Nat)) (a : Nat) :
    rd8 (zeroRuns s l).mem a = if ∃ r ∈ l, r.1 ≤ a ∧ a < r.1 + r.2 then 0 else rd8 s.mem a := by
  unfold zeroRuns
  induction l generalizing s with
  | nil => simp
  | cons x l ih =>
    rw [List.foldl_cons, ih, rd8_zeroN]
    simp only [List.exists_mem_cons_iff]
    by_cases here : x.1 ≤ a ∧ a < x.1 + x.2
    · simp [here]
    · simp only [here, false_or, if_false]

/-- ERASE's number of bytes, and its address. -/
def eraseSize (s : State) (f : SsysW) : Nat := (srcVal s f.d).toNat
def eraseAddr (s : State) (f : SsysW) : Nat := (srcVal s f.a).toNat

/-- The numbers of bytes that ERASE takes (R234). -/
abbrev erasable (b : Nat) : Prop := b % 16 = 0 ∧ 16 ≤ b ∧ b ≤ 2097152

theorem erasable_iff (b : Nat) : ¬ (b % 16 ≠ 0 ∨ b < 16 ∨ 2097152 < b) ↔ erasable b := by
  unfold erasable
  omega

section
variable {s : State} {f : SsysW}

theorem exec_erase_size (odd : ¬ erasable (eraseSize s f)) : exec (.erase f) s =
    (zeroing s f).bare.checked s (some (.fault 0x02 0 0)) (.erase f) id := by
  rw [← erasable_iff, not_not] at odd
  rw [exec, execErase]
  exact if_pos odd

variable (fits : erasable (eraseSize s f))
include fits

theorem exec_erase_address {st : Stop} (stop : addrStop s s.core (eraseAddr s f) (eraseSize s f) 16 true false = some st) :
    exec (.erase f) s = (zeroing s f).bare.checked s (some st) (.erase f) id := by
  rw [← erasable_iff] at fits
  rw [eraseAddr, eraseSize] at stop
  rw [exec, execErase]
  simp only [stop]
  exact if_neg fits

variable (pass : addrStop s s.core (eraseAddr s f) (eraseSize s f) 16 true false = none)
include pass

theorem exec_erase_outside (outside : ownSpad s s.core (eraseAddr s f) (eraseSize s f) = none) : exec (.erase f) s =
    (zeroing s f).bare.checked s (some (.fault 0x0C (BitVec.ofNat 64 (eraseAddr s f)) 0))
      (.erase f) id := by
  rw [← erasable_iff] at fits
  rw [eraseAddr, eraseSize] at pass outside
  rw [exec, execErase]
  simp only [pass, outside]
  exact if_neg fits

theorem exec_erase {runs : List (Nat × Nat)} (own : ownSpad s s.core (eraseAddr s f) (eraseSize s f) = some runs) :
    exec (.erase f) s = (zeroing s f).runs s (.erase f) (fun s' => onCore
      (postAcc (zeroRuns s' runs) { mkAcc s (.erase f) [f.a, f.d] .store 0 0 (eraseAddr s f) 0 [] [] with runs := runs })
      (·.erase (8 * eraseSize s f) true)) := by
  rw [← erasable_iff] at fits
  rw [eraseAddr, eraseSize] at pass own
  rw [exec, execErase]
  simp only [pass, own]
  exact if_neg fits

end

/-- Bytes set to zero, the access posted: apart from the issue of the word. -/
theorem apart_zeroRuns (l : List (Nat × Nat)) (a : Access) : Apart (fun s => postAcc (zeroRuns s l) a) :=
  (apart_postAcc a).comp (apart_of_onto (zeroRuns_onto · · l) (zeroRuns_core · l))

theorem charges_zeroRuns (u : State) (l : List (Nat × Nat)) (a : Access) :
    Charges u.core (postAcc (zeroRuns u l) a).core 0 0 0 := by
  have posted := charges_postAcc (zeroRuns u l) a
  rwa [zeroRuns_core] at posted

/-- Settles O21: ERASE's checks in their order, and the zeros it leaves (`rd8_zeroRuns`). -/
theorem eraseWord : Obligations.EraseWord := by
  unfold Obligations.EraseWord
  intro s f runs va b w fits _ ready
  refine ⟨fun size pass own => ⟨_, (zeroRuns s runs).ecc, rd8_zeroRuns s runs, ?_⟩,
    fun odd => stops_of_bare (exec_erase_size odd) ready,
    fun code addr detail size stop => stops_of_bare (exec_erase_address size stop) ready,
    fun size pass outside => stops_of_bare (exec_erase_outside size pass outside) ready⟩
  have issues := issuesAs_apart (apart_zeroRuns runs _) (fun u => charges_zeroRuns u ..) (onlyCharges_cells (8 * b)) rfl
    (exec_erase size pass own)
  rw [zeroRuns_only] at issues
  exact issues.does ready

end Sys2Proof.Machine
end

section
/-! O20: HSPILL and HFILL (R166, R168, R207, R232). -/

namespace Sys2Proof.Machine
open Sys2Proof.Stmt

/-- The address and the number of bits that HSPILL or HFILL names. -/
def areaAddr (s : State) (f : SsysW) : Nat := (srcVal s f.a).toNat
def areaBits (s : State) (f : SsysW) : Nat := (srcVal s f.d).toNat

/-- The capacity of the current view's partition (R165). -/
theorem Core.trugCap_eq (c : Core) : c.trugCap = if c.view = .unit then 262144 else 32768 := by
  cases view : c.view <;> simp [Core.trugCap, view]

theorem limitsUpTo_iff (c : Core) (x : Nat) : limitsUpTo c x ↔ ∀ l ∈ c.limits, l ≤ x := by
  simp only [mem_limits, or_imp, forall_and, forall_eq]
  refine and_congr_right fun _ => ⟨?_, fun h p listed v land => h _ ⟨p, listed, v, land, rfl⟩⟩
  rintro h _ ⟨p, listed, v, land, rfl⟩
  exact h p listed v land

/-! ### The checks of R232 in their order -/

/-- The numbers of bits that HSPILL and HFILL take. -/
abbrev sizedBits (c : Core) (n : Nat) : Prop := n % 128 = 0 ∧ 128 ≤ n ∧ n ≤ c.trugCap

theorem sizedBits_iff (c : Core) (n : Nat) : ¬ (n % 128 ≠ 0 ∨ n < 128 ∨ c.trugCap < n) ↔ sizedBits c n := by
  unfold sizedBits
  omega

section
variable {s : State} {va n : Nat} {fill : Bool}

theorem spillStop_size (odd : ¬ sizedBits s.core n) : spillStop s va n fill = some (.fault 0x02 0 0) := by
  rw [← sizedBits_iff, not_not] at odd
  exact if_pos odd

variable (sized : sizedBits s.core n)
include sized

theorem spillStop_misaligned (odd : va % 16 ≠ 0) : spillStop s va n fill = some (.fault 0x0E (BitVec.ofNat 64 va) 0) := by
  rw [← sizedBits_iff] at sized
  exact (if_neg sized).trans (if_pos odd)

variable (aligned : va % 16 = 0)
include aligned

theorem spillStop_outside (outside : ownSpad s s.core va (n / 8) = none) :
    spillStop s va n fill = some (.fault 0x0C (BitVec.ofNat 64 va) 0) := by
  rw [← sizedBits_iff] at sized
  refine (if_neg sized).trans ((if_neg (not_not.2 aligned)).trans ?_)
  simp only [outside]

variable (own : (ownSpad s s.core va (n / 8)).isSome) {l : List (Extent × Nat × Nat)}
  (found : coreSpans s.core va (n / 8) = some l)
include own found

/-- The checks that follow on those of the area's place. -/
theorem spillStop_placed : spillStop s va n fill =
    if l.any (fun x => !x.1.wr) then some (.fault 0x0D (BitVec.ofNat 64 va) 0)
    else if fill then
      if s.core.trug.base < n then some (.fault 0x06 0 0)
      else if s.core.limits.any (s.core.trug.base - n + s.core.trugCap < ·) then some (.fault 0x05 0 0)
      else none
    else if s.core.trug.depth < n then some (.fault 0x06 0 0) else none := by
  rw [← sizedBits_iff] at sized
  obtain ⟨area, spad⟩ := Option.isSome_iff_exists.1 own
  refine (if_neg sized).trans ((if_neg (not_not.2 aligned)).trans ?_)
  simp only [spad, found]

theorem spillStop_readOnly (barred : ∃ x ∈ l, x.1.wr = false) :
    spillStop s va n fill = some (.fault 0x0D (BitVec.ofNat 64 va) 0) := by
  rw [spillStop_placed sized aligned own found, if_pos]
  simpa using barred

variable (may : ∀ x ∈ l, x.1.wr = true)
include may

theorem spillStop_given : spillStop s va n fill =
    if fill then
      if s.core.trug.base < n then some (.fault 0x06 0 0)
      else if limitsUpTo s.core (s.core.trug.base - n + s.core.trugCap) then none
      else some (.fault 0x05 0 0)
    else if s.core.trug.depth < n then some (.fault 0x06 0 0) else none := by
  have writes : ¬ l.any (fun x => !x.1.wr) = true := by simpa using may
  rw [spillStop_placed sized aligned own found, if_neg writes]
  refine if_congr Iff.rfl (if_congr Iff.rfl rfl ?_) rfl
  rw [← ite_not]
  refine if_congr ?_ rfl rfl
  simp [limitsUpTo_iff]

end

/-! ### The exchange (R168) -/

/-- HSPILL and HFILL by name. -/
def trugMove (fill : Bool) (f : SsysW) : Instr := if fill then .hfill f else .hspill f

theorem exec_trugMove (s : State) (fill : Bool) (f : SsysW) : exec (trugMove fill f) s = runSpill s (trugMove fill f) f fill := by
  cases fill <;> rfl

/-- HSPILL or HFILL as it issues (R211). -/
def moving (s : State) (f : SsysW) : Issue :=
  trugWord s f [f.a, f.d] [dueAt s (2 + (areaBits s f + 1023) / 1024) f.ramp .nothing] (areaBits s f)

/-- The places of the area as it is read, and as it is written. -/
def areaPlaces (s : State) (f : SsysW) (wr : Bool) : List Place := placesOf s s.core (areaAddr s f) (areaBits s f / 8) wr

/-- The partition after the exchange with an area of these bytes. -/
def movedTrug (t : Trug) (fill : Bool) (n : Nat) (bs : List Byte) : Trug :=
  if fill then { t with bits := t.bits * 2 ^ n + leNat bs, base := t.base - n }
  else { t with bits := t.bits / 2 ^ n, base := t.base + n }

/-- What the area holds after it. -/
def movedOut (t : Trug) (fill : Bool) (n : Nat) : Nat := if fill then 0 else t.bits % 2 ^ n

/-- The access that the exchange posts. -/
def moveAccess (s : State) (fill : Bool) (f : SsysW) : Access :=
  { mkAcc s (trugMove fill f) [f.a, f.d] .rmw 0 0 (areaAddr s f) 0 [] [] with
    runs := (ownSpad s s.core (areaAddr s f) (areaBits s f / 8)).getD [] }

/-- A write of which no byte is dropped, whatever core stands in the focus. -/
theorem performWrite_whole_onto {s : State} {ps : List Place} {v : Nat} (whole : (writeAt s ps v).2 = none) (c : Core)
    (a : Access) (va : Nat) : performWrite (s.onto c) a va ps v = posted { s with
      mem := (writeAt s ps v).1.mem, ecc := (writeAt s ps v).1.ecc, writes := (writeAt s ps v).1.writes, core := c } a := by
  rw [performWrite_whole (by rw [writeAt_onto]; exact whole), stored, writeAt_onto]
  rfl

section
variable {s : State} {fill : Bool} {f : SsysW}

theorem exec_move_stop {st : Stop} (stop : spillStop s (areaAddr s f) (areaBits s f) fill = some st) :
    exec (trugMove fill f) s = (moving s f).bare.checked s (some st) (trugMove fill f) id := by
  rw [areaAddr, areaBits] at stop
  rw [exec_trugMove, runSpill]
  simp only [stop]
  rfl

variable (pass : spillStop s (areaAddr s f) (areaBits s f) fill = none)
include pass

theorem exec_move_error {k : Nat} (error : readPlaces s (areaPlaces s f false) = .error k) : exec (trugMove fill f) s =
    (moving s f).bare.checked s (some (.fault 0x1B (BitVec.ofNat 64 (areaAddr s f + k)) 0)) (trugMove fill f) id := by
  rw [areaAddr, areaBits] at pass
  rw [areaPlaces, areaAddr, areaBits] at error
  rw [exec_trugMove, runSpill]
  simp only [pass, readArea, error]
  rfl

variable {bs : List Byte} (read : readPlaces s (areaPlaces s f false) = .ok bs)
include read

theorem exec_move_dirty {k : Nat} (spills : fill = false) (dirty : bs.findIdx? (· ≠ 0) = some k) : exec (trugMove fill f) s =
    (moving s f).bare.checked s (some (.fault 0x0D (BitVec.ofNat 64 (areaAddr s f + k)) 1)) (trugMove fill f) id := by
  rw [areaAddr, areaBits] at pass
  rw [areaPlaces, areaAddr, areaBits] at read
  subst spills
  rw [exec_trugMove, runSpill]
  simp only [pass, readArea, read, dirty]
  rfl

theorem exec_move (clean : fill = true ∨ bs.findIdx? (· ≠ 0) = none) : exec (trugMove fill f) s =
    (moving s f).runs s (trugMove fill f) (fun s' => performWrite
      (onCore s' (·.setTrug (movedTrug s.core.trug fill (areaBits s f) bs))) (moveAccess s fill f) (areaAddr s f)
      (areaPlaces s f true) (movedOut s.core.trug fill (areaBits s f))) := by
  rw [areaAddr, areaBits] at pass
  rw [areaPlaces, areaAddr, areaBits] at read
  rw [exec_trugMove, runSpill]
  have go : (if fill then none else bs.findIdx? (· ≠ 0)) = none := by
    rcases clean with rfl | clean
    · rfl
    · rw [clean, ite_self]
  simp only [pass, readArea, read, go]
  rfl

/-- The exchange completes: the bits move, the area's bytes are written (R168, R232). -/
theorem move_completes (clean : fill = true ∨ bs.findIdx? (· ≠ 0) = none) (ready : (moving s f).ready s)
    (whole : (writeAt s (areaPlaces s f true) (movedOut s.core.trug fill (areaBits s f))).2 = none) :
    ∃ m x k, wrote s (areaPlaces s f true) (movedOut s.core.trug fill (areaBits s f)) m ∧
      (moving s f).does (trugMove fill f) s (posted
        (withTrug { s with mem := m, ecc := x, writes := k } (movedTrug s.core.trug fill (areaBits s f) bs))
        (moveAccess s fill f)) := by
  have issues := issuesAs_effect
    ((apart_performWrite _ _ _ _).comp (apart_trug fun _ => movedTrug s.core.trug fill (areaBits s f) bs))
    (fun u => (charges_setTrug u.core _).trans (charges_performWrite (onCore u fun c => c.setTrug _) _ _ _ _)) rfl
    (exec_move pass read clean)
  have does := issues.does ready
  exact ⟨_, _, _, wrote_writeAt s _ _, performWrite_whole_onto whole .. ▸ does⟩

end

/-- What is not 0 in an area first. -/
theorem findIdx_of_first {bs : List Byte} {k : Nat} {b : Byte} (at_ : bs[k]? = some b) (nonzero : b ≠ 0)
    (before : ∀ j < k, bs[j]? = some 0) : bs.findIdx? (· ≠ 0) = some k := by
  obtain ⟨small, here⟩ := List.getElem?_eq_some_iff.1 at_
  rw [List.findIdx?_eq_some_iff_getElem]
  refine ⟨small, by simpa [here] using nonzero, fun j hj => ?_⟩
  obtain ⟨_, zero⟩ := List.getElem?_eq_some_iff.1 (before j hj)
  simp [zero]

theorem findIdx_of_zeros {bs : List Byte} (zeros : ∀ b ∈ bs, b = 0) : bs.findIdx? (· ≠ 0) = none := by
  simpa [List.findIdx?_eq_none_iff] using zeros

/-- Settles O20: both words by R232's checks in their order (`spillStop_size` and its fellows), and their exchange. -/
theorem spillAndFill : Obligations.SpillAndFill := by
  unfold Obligations.SpillAndFill
  intro s f bs va n t cap here ps w acc spilled filled stop sized placed given spills fills wf ready
  have capacity : s.core.trugCap = cap := Core.trugCap_eq s.core
  have size (h : sized) : sizedBits s.core n := by rwa [sizedBits, capacity]
  have odd (h : ¬ sized) : ¬ sizedBits s.core n := by rwa [sizedBits, capacity]
  have checks (fill : Bool) (h : given) : spillStop s va n fill =
      if fill then if s.core.trug.base < n then some (.fault 0x06 0 0)
        else if limitsUpTo s.core (s.core.trug.base - n + s.core.trugCap) then none else some (.fault 0x05 0 0)
      else if s.core.trug.depth < n then some (.fault 0x06 0 0) else none := by
    obtain ⟨⟨sz, aligned, own⟩, l, found, may⟩ := h
    exact spillStop_given (size sz) aligned own found may
  have spillPass (h : spills) : spillStop s va n false = none := by
    have held : s.core.trug.base + n ≤ s.core.trug.top := h.2
    have deep : ¬ s.core.trug.depth < n := by rw [Trug.depth]; omega
    rw [checks false h.1, if_neg (by decide), if_neg deep]
  have fillPass (h : fills) : spillStop s va n true = none := by
    obtain ⟨ok, low, under⟩ := h
    rw [checks true ok, if_pos rfl, if_neg (Nat.not_lt.2 low), capacity, if_pos under]
  have refuse (fill : Bool) {code : Nat} {addr detail : Word} (h : spillStop s va n fill = some (.fault code addr detail)) :
      stops (trugMove fill f) s [f.a, f.d] code addr detail := stops_of_bare (exec_move_stop h) ready
  have each (fill : Bool) : (¬ sized → stop (trugMove fill f) 0x02 0 0) ∧
      (sized → va % 16 ≠ 0 → stop (trugMove fill f) 0x0E va 0) ∧
      (sized → va % 16 = 0 → ownSpad s s.core va (n / 8) = none → stop (trugMove fill f) 0x0C va 0) ∧
      (∀ l, placed → coreSpans s.core va (n / 8) = some l → (∃ x ∈ l, x.1.wr = false) → stop (trugMove fill f) 0x0D va 0) :=
    ⟨fun h => refuse fill (spillStop_size (odd h)), fun sz h => refuse fill (spillStop_misaligned (size sz) h),
      fun sz aligned outside => refuse fill (spillStop_outside (size sz) aligned outside),
      fun l h found barred => refuse fill (spillStop_readOnly (size h.1) h.2.1 h.2.2 found barred)⟩
  refine ⟨fun _ ok read zeros whole => ?_, fun _ ok read whole => ?_, ?_, fun _ => ⟨fun ok short => ?_, fun k ok error => ?_,
    fun k b ok read at_ nonzero before => ?_⟩, fun _ => ⟨fun ok short => ?_, fun ok low above => ?_, fun k ok error => ?_⟩⟩
  · exact move_completes (fill := false) (spillPass ok) read (.inr (findIdx_of_zeros zeros)) ready whole
  · exact move_completes (fill := true) (fillPass ok) read (.inl rfl) ready whole
  · rw [List.forall_mem_cons, List.forall_mem_singleton]
    exact ⟨fun _ => each false, fun _ => each true⟩
  · have lacks : s.core.trug.top < s.core.trug.base + n := short
    have shallow : s.core.trug.depth < n := by rw [Trug.depth]; omega
    exact refuse false (by rw [checks false ok, if_neg (by decide), if_pos shallow]; rfl)
  · exact stops_of_bare (exec_move_error (fill := false) (spillPass ok) error) ready
  · exact stops_of_bare (exec_move_dirty (spillPass ok) read rfl (findIdx_of_first at_ nonzero before)) ready
  · exact refuse true (by rw [checks true ok, if_pos rfl, if_pos short]; rfl)
  · exact refuse true (by rw [checks true ok, if_pos rfl, if_neg (Nat.not_lt.2 low), capacity, if_neg above]; rfl)
  · exact stops_of_bare (exec_move_error (fill := true) (fillPass ok) error) ready

end Sys2Proof.Machine
end

section
/-! O12: the address checks of a memory word (R207, R209, R227, R245, R250, R263). -/

namespace Sys2Proof.Machine
open Sys2Proof.Stmt

/-! ### Spans and their places -/

/-- The places of a span fail as one of its bytes does. -/
theorem spanPlaces_error {s : State} {wr : Bool} {x : Extent × Nat × Nat} {f : Nat × Nat} (h : spanPlaces s wr x = .error f) :
    ∃ i < x.2.2, placeOf s x.1 (x.2.1 + i) wr = .error f := by
  have bound : ∀ i ∈ List.range x.2.2, i < x.2.2 := fun i => List.mem_range.1
  unfold spanPlaces at h
  generalize List.range x.2.2 = l at bound h
  induction l with
  | nil => cases h
  | cons i l ih =>
    rw [List.forall_mem_cons] at bound
    rw [List.foldr_cons] at h
    split at h
    · cases h
    · next here => cases h; exact ⟨i, bound.1, here⟩
    · next rest _ => cases h; exact ih bound.2 rest

theorem spanPlaces_ok_each {s : State} {wr : Bool} {x : Extent × Nat × Nat} {ps : List Place} (h : spanPlaces s wr x = .ok ps) :
    ∀ i < x.2.2, ∃ p, placeOf s x.1 (x.2.1 + i) wr = .ok p := by
  refine fun i small => (?_ : ∀ i ∈ List.range x.2.2, ∃ p, placeOf s x.1 (x.2.1 + i) wr = .ok p) i (List.mem_range.2 small)
  unfold spanPlaces at h
  generalize List.range x.2.2 = l at h ⊢
  induction l generalizing ps with
  | nil => simp
  | cons i l ih =>
    rw [List.foldr_cons] at h
    split at h
    · next p q here rest => exact List.forall_mem_cons.2 ⟨⟨p, here⟩, ih rest⟩
    · cases h
    · cases h

/-- The places of an access fail as one of its spans does. -/
theorem spansPlaces_error {s : State} {wr : Bool} {l : List (Extent × Nat × Nat)} {f : Nat × Nat}
    (h : spansPlaces s wr l = .error f) : ∃ x ∈ l, spanPlaces s wr x = .error f := by
  unfold spansPlaces at h
  induction l with
  | nil => cases h
  | cons x l ih =>
    rw [List.foldr_cons] at h
    split at h
    · cases h
    · next here => cases h; exact ⟨x, List.mem_cons_self, here⟩
    · next rest _ =>
      cases h
      obtain ⟨y, mem, fails⟩ := ih rest
      exact ⟨y, List.mem_cons_of_mem x mem, fails⟩

theorem spansPlaces_ok_each {s : State} {wr : Bool} {l : List (Extent × Nat × Nat)} {ps : List Place}
    (h : spansPlaces s wr l = .ok ps) : ∀ x ∈ l, ∃ qs, spanPlaces s wr x = .ok qs := by
  unfold spansPlaces at h
  induction l generalizing ps with
  | nil => simp
  | cons x l ih =>
    rw [List.foldr_cons] at h
    split at h
    · next p q here rest => exact List.forall_mem_cons.2 ⟨⟨p, here⟩, ih rest⟩
    · cases h
    · cases h

/-- Where every span has places, the access has them in order. -/
theorem spansPlaces_ok {s : State} {wr : Bool} {l : List (Extent × Nat × Nat)} {g : Extent × Nat × Nat → List Place}
    (h : ∀ x ∈ l, spanPlaces s wr x = .ok (g x)) : spansPlaces s wr l = .ok (l.flatMap g) := by
  unfold spansPlaces
  induction l with
  | nil => rfl
  | cons x l ih =>
    rw [List.forall_mem_cons] at h
    rw [List.foldr_cons, ih h.2, h.1, List.flatMap_cons]

/-- A byte of a plain extent outside the limits of its space (R250). -/
theorem placeOf_beyond {s : State} {e : Extent} {o : Nat} (wr : Bool) (plain : e.cmp = false) (direct : paSpace e.pbase ≠ 3)
    (beyond : paOk (e.pbase + o) = false) : placeOf s e o wr = .error (0x0C, 4) := by
  simp [placeOf, plain, direct, beyond]

/-- The one fault of a plain extent's byte (R250). -/
theorem placeOf_plain_error {s : State} {e : Extent} {o : Nat} {wr : Bool} {f : Nat × Nat} (plain : e.cmp = false)
    (direct : paSpace e.pbase ≠ 3) (h : placeOf s e o wr = .error f) : f = (0x0C, 4) := by
  cases inside : paOk (e.pbase + o) with
  | false => rw [placeOf_beyond wr plain direct inside] at h; cases h; rfl
  | true =>
    cases ram : mcHolds s (e.pbase + o) 1 with
    | false => rw [placeOf_plain wr plain direct inside ram] at h; cases h
    | true =>
      simp [placeOf, plain, direct, inside, Place.reach, Place.tgts, Tgt.held, ram] at h
      exact h.symm

/-- An access of plain extents of which a byte lies outside the limits of its space. -/
theorem spansPlaces_beyond {s : State} {l : List (Extent × Nat × Nat)} (wr : Bool)
    (plain : ∀ x ∈ l, x.1.cmp = false ∧ paSpace x.1.pbase ≠ 3)
    (beyond : ∃ x ∈ l, ∃ i < x.2.2, paOk (x.1.pbase + (x.2.1 + i)) = false) : spansPlaces s wr l = .error (0x0C, 4) := by
  cases out : spansPlaces s wr l with
  | error f =>
    obtain ⟨x, mem, fails⟩ := spansPlaces_error out
    obtain ⟨i, -, here⟩ := spanPlaces_error fails
    rw [placeOf_plain_error (plain x mem).1 (plain x mem).2 here]
  | ok ps =>
    obtain ⟨x, mem, i, small, off⟩ := beyond
    obtain ⟨qs, found⟩ := spansPlaces_ok_each out x mem
    obtain ⟨p, place⟩ := spanPlaces_ok_each found i small
    rw [placeOf_beyond wr (plain x mem).1 (plain x mem).2 off] at place
    cases place

/-! ### The checks of an address, each where those before it pass (R207, R227, R250, R263) -/

section
variable {s : State} {c : Core} {va len align : Nat} {wr ident : Bool} {l : List (Extent × Nat × Nat)}

/-- A fault of an access's address. -/
def addrFault (va code detail : Nat) : Option Stop := some (.fault code (BitVec.ofNat 64 va) (BitVec.ofNat 64 detail))

theorem addrStop_misaligned (h : va % align ≠ 0) : addrStop s c va len align wr ident = addrFault va 0x0E 0 := by
  rw [addrStop, if_pos h]; rfl

section
variable (aligned : va % align = 0)
include aligned

theorem addrStop_outside (h : coreSpans c va len = none) : addrStop s c va len align wr ident = addrFault va 0x0C 0 := by
  rw [addrStop, if_neg (not_not.2 aligned), h]; rfl

variable (found : coreSpans c va len = some l)
include found

theorem addrStop_found : addrStop s c va len align wr ident =
    if wr && l.any (fun x => !x.1.wr) then addrFault va 0x0D 0
    else if wr && l.any (fun x => x.1.abs) then addrFault va 0x0C 1
    else if l.any (fun x => x.1.abs) then none
    else match spansPlaces s wr l with
      | .error f => addrFault va f.1 f.2
      | .ok ps =>
        if ident && throughTransform s l then addrFault va 0x0D 3 else if gangBars s c ps then addrFault va 0x0D 2 else none := by
  rw [addrStop, if_neg (not_not.2 aligned), found]; rfl

theorem addrStop_readOnly (barred : ∃ x ∈ l, x.1.wr = false) :
    addrStop s c va len align true ident = addrFault va 0x0D 0 := by
  have some_ : l.any (fun x => !x.1.wr) = true := by simpa using barred
  rw [addrStop_found aligned found, some_]; rfl

theorem addrStop_writesAbsent (may : ∀ x ∈ l, x.1.wr = true) (absent : ∃ x ∈ l, x.1.abs = true) :
    addrStop s c va len align true ident = addrFault va 0x0C 1 := by
  have none_ : l.any (fun x => !x.1.wr) = false := by simpa using may
  have some_ : l.any (fun x => x.1.abs) = true := by simpa using absent
  rw [addrStop_found aligned found, none_, some_]; rfl

theorem addrStop_readsAbsent (absent : ∃ x ∈ l, x.1.abs = true) : addrStop s c va len align false ident = none := by
  have some_ : l.any (fun x => x.1.abs) = true := by simpa using absent
  rw [addrStop_found aligned found, some_]; rfl

variable (may : wr = true → ∀ x ∈ l, x.1.wr = true) (present : ∀ x ∈ l, x.1.abs = false)
include may present

/-- An access that its extents allow: only its places and what they lie behind can stop it. -/
theorem addrStop_allowed : addrStop s c va len align wr ident =
    match spansPlaces s wr l with
    | .error f => addrFault va f.1 f.2
    | .ok ps =>
      if ident && throughTransform s l then addrFault va 0x0D 3 else if gangBars s c ps then addrFault va 0x0D 2 else none := by
  have writes : (wr && l.any fun x => !x.1.wr) = false := by simpa using may
  have here : l.any (fun x => x.1.abs) = false := by simpa using present
  rw [addrStop_found aligned found, writes, here, Bool.and_false]; rfl

theorem addrStop_untranslated {code detail : Nat} (h : spansPlaces s wr l = .error (code, detail)) :
    addrStop s c va len align wr ident = addrFault va code detail := by
  rw [addrStop_allowed aligned found may present, h]

theorem addrStop_translated {ps : List Place} (h : spansPlaces s wr l = .ok ps) : addrStop s c va len align wr ident =
    if ident && throughTransform s l then addrFault va 0x0D 3 else if gangBars s c ps then addrFault va 0x0D 2 else none := by
  rw [addrStop_allowed aligned found may present, h]

end
end

theorem throughTransform_iff (s : State) (l : List (Extent × Nat × Nat)) : throughTransform s l = true ↔
    ∃ x ∈ l, paSpace x.1.pbase = 3 ∧
      (tget Aperture.reset (getDie s (paDie x.1.pbase)).aps (paOff x.1.pbase / 2 ^ 36)).xf ≠ 0 := by
  simp [throughTransform]

theorem gangBars_iff (s : State) (c : Core) (ps : List Place) :
    gangBars s c ps = true ↔ c.gang ≠ 0 ∧ ∃ p ∈ ps, paPkg p.pa ≠ s.plat.pkg := by
  simp [gangBars, elsewhere]

/-! ### The words that access memory at one address -/

/-- What refuses such a word: its address, or an error in the bytes it reads (R207, R245). -/
def refusal (s : State) (w : MemWord) (st : Stop) : Prop :=
  addrStop s s.core w.va w.len w.len w.wr w.atom = some st ∨
  addrStop s s.core w.va w.len w.len w.wr w.atom = none ∧ w.rd = true ∧ (w.wr = true ∨ loadAbsent s.core w.va = false) ∧
    readAt s w.va (placesOf s s.core w.va w.len w.wr) = .error st

/-- The word refused, after the checks of R84 on the results that its address names. -/
def refused (s : State) (w : MemWord) (st : Stop) : Prop :=
  ∃ work, exec w.i s = { w.issue with work := work }.checked s (some st) w.i id

/-- LD and LDX among the words that access memory at one address. -/
def loadMem (s : State) (xor : Bool) (f : SmemW) : MemWord :=
  let va := addrOf s f.a 23 f.off
  let srcs := if xor then [f.d, f.a] else [f.a]
  { i := loadWord xor f, va := va, len := tyBits f.ty / 8, rd := true, wr := false, atom := false, srcs := srcs
    issue := Issue.plain s [.mem] f.ramp srcs
      (if loadAbsent s.core va then (loadOfAbsent s xor f).results
        else refusedLand s va false false f.ramp (dstLand f.d 0 64 0 (if xor then srcVal s f.d else 0))) 0 }

theorem loadMem_refused {s : State} {xor : Bool} {f : SmemW} {st : Stop} (h : refusal s (loadMem s xor f) st) :
    refused s (loadMem s xor f) st := by
  refine ⟨tyBits f.ty + 64, ?_⟩
  rw [refusal] at h
  dsimp only [loadMem] at h ⊢
  rw [exec_loadWord, runLoad]
  obtain stop | ⟨pass, -, there, error⟩ := h
  · simp only [effAddr_eq, stop, loadOfAbsent_results]
    rfl
  · have present := there.resolve_left (by decide)
    simp only [effAddr_eq, pass, present, error]
    rfl

/-- ST and STX by name. -/
def storeWord (xor : Bool) (f : SmemW) : Instr := if xor then .stx f else .st f

theorem exec_storeWord (s : State) (xor : Bool) (f : SmemW) : exec (storeWord xor f) s = runStore s (storeWord xor f) xor f := by
  cases xor <;> rfl

/-- ST and STX among the words that access memory at one address. -/
def storeMem (s : State) (xor : Bool) (f : SmemW) : MemWord :=
  { i := storeWord xor f, va := addrOf s f.a 23 f.off, len := tyBits f.ty / 8, rd := xor, wr := true, atom := false
    srcs := [f.d, f.a], issue := Issue.plain s [.mem] f.ramp [f.d, f.a] [] 0 }

theorem storeMem_refused {s : State} {xor : Bool} {f : SmemW} {st : Stop} (h : refusal s (storeMem s xor f) st) :
    refused s (storeMem s xor f) st := by
  refine ⟨tyBits f.ty + 64, ?_⟩
  rw [refusal] at h
  dsimp only [storeMem] at h ⊢
  rw [exec_storeWord, runStore]
  obtain stop | ⟨pass, rfl, -, error⟩ := h
  · simp only [effAddr_eq, stop]
    rfl
  · simp only [effAddr_eq, pass, if_true, error]
    rfl

/-- SWPM among the words that access memory at one address. -/
def swapMem (s : State) (f : SmemW) : MemWord :=
  let va := addrOf s f.a 23 f.off
  { i := .swpm f, va := va, len := tyBits f.ty / 8, rd := true, wr := true, atom := false, srcs := [f.d, f.a]
    issue := Issue.plain s [.mem] f.ramp [f.d, f.a] (refusedLand s va true false f.ramp (.sreg f.d 0 (tyBits f.ty) 0)) 0 }

theorem swapMem_refused {s : State} {f : SmemW} {st : Stop} (h : refusal s (swapMem s f) st) : refused s (swapMem s f) st := by
  refine ⟨2 * tyBits f.ty + 64, ?_⟩
  rw [refusal] at h
  dsimp only [swapMem] at h ⊢
  change execSwpm f s = _
  rw [execSwpm]
  obtain stop | ⟨pass, -, -, error⟩ := h
  · simp only [effAddr_eq, stop]
    rfl
  · simp only [effAddr_eq, pass, error]
    rfl

/-- An atomic among the words that access memory at one address. -/
def atomMem (s : State) (p : Aop × Instr) (g : SatmW) : MemWord :=
  let va := addrOf s g.a 16 g.off
  let srcs := if p.1 = .cas then [g.a, g.b, g.c] else [g.a, g.b]
  { i := p.2, va := va, len := if p.1 = .fadd then 4 else 8, rd := true, wr := true, atom := true, srcs := srcs
    issue := Issue.plain s [.mem] g.ramp srcs (refusedLand s va true true g.ramp (dstLand g.d 0 64 0 0)) 0 }

theorem atomMem_refused {s : State} {p : Aop × Instr} {g : SatmW} {st : Stop} (mem : p ∈ atomOps g)
    (h : refusal s (atomMem s p g) st) : refused s (atomMem s p g) st := by
  refine ⟨128, ?_⟩
  rw [refusal] at h
  dsimp only [atomMem] at h ⊢
  rw [exec_atomOps s g p mem, runAtom]
  obtain stop | ⟨pass, -, -, error⟩ := h
  · simp only [effAddr_eq, stop]
    rfl
  · simp only [effAddr_eq, pass, error]
    rfl

theorem memWords_eq (s : State) (f : SmemW) (g : SatmW) : memWords s f g =
    [loadMem s false f, loadMem s true f, storeMem s false f, storeMem s true f, swapMem s f] ++
      (atomOps g).map (atomMem s · g) := rfl

theorem memWords_refused {s : State} {f : SmemW} {g : SatmW} {w : MemWord} {st : Stop} (mem : w ∈ memWords s f g)
    (h : refusal s w st) : refused s w st := by
  simp only [memWords_eq, List.mem_append, List.mem_cons, List.not_mem_nil, or_false, List.mem_map] at mem
  obtain (rfl | rfl | rfl | rfl | rfl) | ⟨p, op, rfl⟩ := mem
  · exact loadMem_refused h
  · exact loadMem_refused h
  · exact storeMem_refused h
  · exact storeMem_refused h
  · exact swapMem_refused h
  · exact atomMem_refused op h

theorem memWords_srcs {s : State} {f : SmemW} {g : SatmW} {w : MemWord} (mem : w ∈ memWords s f g) : w.issue.srcs = w.srcs := by
  simp only [memWords_eq, List.mem_append, List.mem_cons, List.not_mem_nil, or_false, List.mem_map] at mem
  obtain (rfl | rfl | rfl | rfl | rfl) | ⟨p, -, rfl⟩ := mem <;> rfl

theorem stops_of_refusal {s : State} {f : SmemW} {g : SatmW} {w : MemWord} {code : Nat} {addr detail : Word}
    (mem : w ∈ memWords s f g) (ready : w.issue.ready s) (h : refusal s w (.fault code addr detail)) :
    stops w.i s w.srcs code addr detail := by
  obtain ⟨work, runs⟩ := memWords_refused mem h
  have stop := stops_of_checked (w := { w.issue with work := work }) runs rfl ready
  rwa [show ({ w.issue with work := work } : Issue).srcs = w.srcs from memWords_srcs mem] at stop

theorem readAt_error {s : State} {va k : Nat} {ps : List Place} (h : readPlaces s ps = .error k) :
    readAt s va ps = .error (.fault 0x1B (BitVec.ofNat 64 (va + k)) 0) := by
  rw [readAt, h]

/-! ### The base latency of an access -/

theorem homeLat_otherPackage {s : State} {n pa : Nat} {atom : Bool} (h : paPkg pa ≠ s.plat.pkg) :
    homeLat s n pa atom = if atom then 1354 else 1350 := by
  rw [homeLat, if_pos h]

theorem homeLat_otherDie {s : State} {n pa : Nat} {atom : Bool} (package : paPkg pa = s.plat.pkg) (h : paDie pa ≠ n / 64) :
    homeLat s n pa atom = if atom then 196 else 192 := by
  rw [homeLat, if_neg (not_not.2 package), if_pos h]

theorem homeLat_here {s : State} {n pa : Nat} {atom : Bool} (here : paPkg pa = s.plat.pkg ∧ paDie pa = n / 64) :
    homeLat s n pa atom = if paSpace pa = 0 then (if atom then 100 else 96)
      else if paSpace pa = 2 ∧ paCore pa = n then (if atom then 6 else 4) else (if atom then 28 else 24) := by
  rw [homeLat, if_neg (not_not.2 here.1), if_neg (not_not.2 here.2)]

/-- Settles O12: the checks of `addrStop` one after another, the latencies of `homeLat`, and that a refused word of `memWords`
stops (`memWords_refused`). -/
theorem addressChecks : Obligations.AddressChecks := by
  unfold Obligations.AddressChecks
  intro s va len align wr ident c bad
  refine ⟨addrStop_misaligned, addrStop_outside, fun l aligned found => ⟨?_, ?_, ?_, fun may present => ⟨fun code detail =>
    addrStop_untranslated aligned found may present, fun ps translated => ?_, fun plain => ⟨fun ok => ?_,
    spansPlaces_beyond wr plain⟩⟩⟩, fun p ps atom => ?_, fun f g w mem _ ready => ⟨fun code addr detail stop =>
    stops_of_refusal mem ready (.inl stop), fun k pass reads there error =>
    stops_of_refusal mem ready (.inr ⟨pass, reads, there, readAt_error error⟩)⟩⟩
  · rintro rfl barred
    exact addrStop_readOnly aligned found barred
  · rintro rfl may absent
    exact addrStop_writesAbsent aligned found may absent
  · rintro rfl absent
    exact addrStop_readsAbsent aligned found absent
  · intro moved barred
    have through : (ident && throughTransform s l) = true ↔ moved := by
      rw [Bool.and_eq_true, throughTransform_iff]
    have bars : gangBars s c ps = true ↔ barred := gangBars_iff s c ps
    rw [addrStop_translated aligned found may present translated]
    refine ⟨fun h => if_pos (through.2 h), fun h g => ?_, fun h g => ?_⟩
    · rw [if_neg (through.not.2 h), if_pos (bars.2 g)]; rfl
    · rw [if_neg (through.not.2 h), if_neg (bars.not.2 g)]
  · refine spansPlaces_ok fun x mem => spanPlaces_ok fun i small => ?_
    obtain ⟨inside, ram⟩ := ok x mem i small
    exact placeOf_plain wr (plain x mem).1 (plain x mem).2 inside ram
  · intro pa lat is_ here
    refine ⟨fun at_ sp own => ?_, fun at_ sp => ?_, fun at_ sp => ?_, homeLat_otherDie, homeLat_otherPackage⟩
    · exact (homeLat_here at_).trans (by rw [if_neg (by omega), if_pos ⟨sp, own⟩])
    · exact (homeLat_here at_).trans (by rw [if_neg (by omega), if_neg (by omega)])
    · exact (homeLat_here at_).trans (if_pos sp)

end Sys2Proof.Machine
end

section
/-! Words that wait (R28, R91, R216), and O16: SYEXP and SYARR (R114, R120, R222-R224, R245). -/

namespace Sys2Proof.Machine
open Sys2Proof.Stmt

/-! ### Words that wait (R28, R91, R186) -/

/-- What the core keeps of a word that waits (R216, R223). -/
def waitingFor (s : State) (i : Instr) (w : Wait) (ramp : Nat) (srcs : List Nat) (work : Nat) : Waiting :=
  { w := w, i := i, pc := s.core.pc, opa := (srcs[0]?.map (srcVal s)).getD 0, opb := (srcs[1]?.map (srcVal s)).getD 0
    popped := s.core.taken s.bed.btick srcs
    ej := if s.core.view = .unit then workUnits work (rampK ramp) (heat s s.core.num) else 0 }

theorem waitsFor_eq (s e : State) (i : Instr) (w : Wait) (ramp : Nat) (srcs : List Nat) (work : Nat) :
    waitsFor s e i w ramp srcs work = e.onto { e.core with wait := some (waitingFor s i w ramp srcs work) } := rfl

section
variable {s : State} {i : Instr} {ramp work : Nat} {srcs : List Nat} {w : Wait} {h : State → State}

/-- Whether or not its condition holds, a ready word that waits is stopped by its own check alone. -/
theorem runWait_stops (ready : (quick s .ctl ramp srcs work).ready s) (st : Stop) (now : Bool) :
    runWait s i ramp srcs (some st) work now w h = .next (stopWord s i srcs st) := by
  have pass : gate s false [.ctl] srcs [] = none := gate_ready ready
  cases now
  · simp [runWait, stopOf, pass]
  · simp [runWait, runNext, runWord, stopOf, pass]

theorem stops_of_wait {own : Option Stop} {now : Bool} {code : Nat} {addr detail : Word}
    (runs : exec i s = runWait s i ramp srcs own work now w h) (stop : own = some (.fault code addr detail))
    (ready : (quick s .ctl ramp srcs work).ready s) : stops i s srcs code addr detail := by
  rw [stops, runs, stop]
  exact runWait_stops ready _ now

/-- A ready word whose condition does not hold has issued, and its core waits. -/
theorem runWait_waits (ready : (waiting s ramp srcs work).ready s) : runWait s i ramp srcs none work false w h =
    .next (onCore (h ((waiting s ramp srcs work).issued s)) fun c =>
      { c with wait := some { waitingFor s i w ramp srcs work with pc := c.pc } }) := by
  have pass : stopOf s false [.ctl] srcs [] none = none := stopOf_ready ready
  have energy : ((waiting s ramp srcs work).issued s).core.ej - s.core.ej =
      if s.core.view = .unit then workUnits work (rampK ramp) (heat s s.core.num) else 0 := by
    rw [Issue.issued_core]
    exact Nat.add_sub_cancel_left ..
  rw [runWait, waitingFor, ← energy]
  simp only [Bool.false_eq_true, if_false, pass, wordRec_eq]
  rfl

theorem charges_wait (u : Core) (w : Option Waiting) : Charges u { u with wait := w } 0 0 0 :=
  .nothing rfl rfl rfl rfl rfl rfl rfl rfl rfl rfl rfl rfl rfl rfl

/-- Where its own effect charges nothing and stands apart from its issue, a word that waits has issued without a result. -/
theorem waits_does (apart : Apart h) (free : ∀ u : State, Charges u.core (h u).core 0 0 0)
    (runs : exec i s = runWait s i ramp srcs none work false w h) (ready : (waiting s ramp srcs work).ready s) :
    (waiting s ramp srcs work).does i s (waitsFor s (h s) i w ramp srcs work) := by
  rw [runWait_waits ready] at runs
  have charges := free ((waiting s ramp srcs work).issued s)
  have issued : (waiting s ramp srcs work).issued s = s.onto (s.core.withIssue ((waiting s ramp srcs work).issued s).core) :=
    Issue.issued_eq ..
  have here : (h ((waiting s ramp srcs work).issued s)).core.pc = s.core.pc := by rw [charges.pc, Issue.issued_core]; rfl
  refine ⟨_, runs, Issue.went_of_charges (charges.then_ (charges_wait _ _)), ?_⟩
  rw [onCore, here, waitsFor_eq, issued, apart]
  rfl

/-- What a ready word that waits does: it delivers a fault that is due, it completes, or its core waits. -/
def waitOutcome (s : State) (i : Instr) (ramp : Nat) (srcs : List Nat) (work : Nat) (w : Wait) (e : State)
    (due : Option FaultRec) (now : Bool) : Prop :=
  match due, now with
  | some r, _ => exec i s = .next (stopWord s i srcs (.deliver r))
  | none, true => (quick s .ctl ramp srcs work).does i s e
  | none, false => (waiting s ramp srcs work).does i s (waitsFor s e i w ramp srcs work)

theorem waitingWord {due : Option FaultRec} {now : Bool} (apart : Apart h) (free : ∀ u : State, Charges u.core (h u).core 0 0 0)
    (runs : exec i s = runWait s i ramp srcs (due.map .deliver) work now w h) (ready : (quick s .ctl ramp srcs work).ready s) :
    waitOutcome s i ramp srcs work w (h s) due now := by
  cases due with
  | some r => exact runs.trans (runWait_stops ready (.deliver r) now)
  | none =>
    cases now with
    | true => exact (issuesAs_effect apart free rfl runs).does ready
    | false => exact waits_does apart free runs ready

end

/-! ### The checks of a sync word (R222, R263) -/

section
variable {s : State} {va pa : Nat} {d : Word} {wr : Bool} (pass : addrStop s s.core va 16 16 wr true = none)
  (home : (placesOf s s.core va 16 wr).head? = some (.one (.byte pa)))
include pass home

theorem syncStop_home : syncStop s va d wr = if paSpace pa = 0 then some (.fault 0x0C (BitVec.ofNat 64 va) 2)
    else if 2 ^ 32 ≤ d.toNat then some (.fault 0x02 0 0) else none := by
  obtain ⟨rest, places⟩ := List.head?_eq_some_iff.1 home
  rw [syncStop, pass, places]

theorem syncStop_dram (dram : paSpace pa = 0) : syncStop s va d wr = some (.fault 0x0C (BitVec.ofNat 64 va) 2) := by
  rw [syncStop_home pass home, if_pos dram]

theorem syncStop_count (spad : paSpace pa ≠ 0) (large : 2 ^ 32 ≤ d.toNat) : syncStop s va d wr = some (.fault 0x02 0 0) := by
  rw [syncStop_home pass home, if_neg spad, if_pos large]

end

/-! ### SYEXP (R223) -/

/-- The expectation that SYEXP posts. -/
def syexpAcc (s : State) (f : SsysW) : Access :=
  let ps := placesOf s s.core (srcVal s f.a).toNat 16 true
  mkAcc s (.syexp f) [f.a, f.d] .expect 0 0 (srcVal s f.a).toNat
    (s.bed.bwall + accLat s s.core ps true + rampK f.ramp - 1) ps []

theorem exec_syexp (s : State) (f : SsysW) : exec (.syexp f) s =
    runWait s (.syexp f) f.ramp [f.a, f.d] (syncStop s (srcVal s f.a).toNat (srcVal s f.d) true) 64 false
      (.syexp s.core.nextAcc 0 0) (postAcc · (syexpAcc s f)) := rfl

/-! ### SYARR (R224) -/

/-- SYARR's arrival at the issuing core: counted at once where nothing keeps it, else left in the buffer. -/
def arrive (s : State) (a : Access) (u : State) : State :=
  if s.core.mayArrive s.bed.stall a then postAcc (landArrival u s.core.num a) { a with due := 1 } else postAcc u a

theorem exec_syarr (s : State) (f : SsysW) : exec (.syarr f) s =
    (quick s .ctl f.ramp [f.a, f.d] 64).checked s (syncStop s (srcVal s f.a).toNat (srcVal s f.d) true) (.syarr f)
      (arrive s (syarrAcc s f)) := rfl

/-- The run of a word takes its own effect from its issue alone. -/
theorem Issue.runs_congr {w : Issue} {s : State} {g h : State → State} (same : g (w.issued s) = h (w.issued s)) (i : Instr) :
    w.runs s i g = w.runs s i h := by
  simp only [Issue.issued] at same
  simp only [Issue.runs, runWord, same]

theorem Issue.issued_num (w : Issue) (s : State) : (w.issued s).core.num = s.core.num := by
  rw [w.issued_eq]
  rfl

/-- The issue of a word in terms of the state's own core. -/
theorem Issue.issued_setCore (w : Issue) (s : State) : w.issued s = setCore s (w.issued s).core := by
  have core : (w.issued s).core = s.core.withIssue (w.issued s).core := congrArg State.core (w.issued_eq s)
  rw [setCore, if_pos (w.issued_num s).symm]
  exact (w.issued_eq s).trans (by rw [← core])

theorem syarrAcc_count (s : State) (f : SsysW) : (syarrAcc s f).opb.toNat = (srcVal s f.d).toNat := by
  change ((wordRec s (.syarr f) [f.a, f.d]).opb).toNat = _
  rw [wordRec_eq]
  rfl

theorem syarrAcc_addr (s : State) (f : SsysW) : (syarrAcc s f).addr.toNat = (srcVal s f.a).toNat :=
  congrArg BitVec.toNat (BitVec.ofNat_toNat 64 (srcVal s f.a) |>.trans (BitVec.setWidth_eq _))

/-- An arrival counted at its home, with the fault that it found there. -/
def counted (m : List Host.Cell) (k : Tab Nat) (r : Option FaultRec) (a : Access) (u : State) : State :=
  postAcc { u with mem := m, writes := k, core := r.elim u.core u.core.addPending } { a with due := 1 }

theorem counted_ite (P : Prop) [Decidable P] (m : List Host.Cell) (k : Tab Nat) (r : FaultRec) (a : Access) (u : State) :
    counted m k (if P then some r else none) a u = if P then counted m k (some r) a u else counted m k none a u :=
  apply_ite (counted m k · a u) P (some r) none

theorem apart_counted (m : List Host.Cell) (k : Tab Nat) (r : Option FaultRec) (a : Access) : Apart (counted m k r a) :=
  fun s d => by cases r <;> rfl

theorem charges_counted (m : List Host.Cell) (k : Tab Nat) (r : Option FaultRec) (a : Access) (u : State) :
    Charges u.core (counted m k r a u).core 0 0 0 := by
  cases r <;> exact .nothing rfl rfl rfl rfl rfl rfl rfl rfl rfl rfl rfl rfl rfl rfl

section
variable {s : State} {f : SsysW} (pass : syncStop s (srcVal s f.a).toNat (srcVal s f.d) true = none)
include pass

/-- SYARR does what its arrival does on the issued word. -/
theorem issuesAs_syarr {h : State → State} (apart : Apart h) (free : ∀ u : State, Charges u.core (h u).core 0 0 0)
    (arrives : arrive s (syarrAcc s f) ((quick s .ctl f.ramp [f.a, f.d] 64).issued s) =
      h ((quick s .ctl f.ramp [f.a, f.d] 64).issued s)) :
    IssuesAs (quick s .ctl f.ramp [f.a, f.d] 64) (.syarr f) s (h s) :=
  issuesAs_effect apart free rfl ((runs_of_checked (exec_syarr s f) pass).trans (Issue.runs_congr arrives _))

theorem issuesAs_syarr_keeps (kept : heldBack s.core (syarrAcc s f) ∨ ¬ alone s.core s.bed.stall (syarrAcc s f)) :
    IssuesAs (quick s .ctl f.ramp [f.a, f.d] 64) (.syarr f) s (posted s (syarrAcc s f)) := by
  have stays : ¬ s.core.mayArrive s.bed.stall (syarrAcc s f) = true := by
    rw [Core.mayArrive_iff rfl, not_and_or, not_not]
    exact kept.symm
  exact issuesAs_syarr pass (apart_postAcc (syarrAcc s f)) (charges_postAcc · _) (if_neg stays)

variable (free : ¬ heldBack s.core (syarrAcc s f)) (first : alone s.core s.bed.stall (syarrAcc s f))
include free first

theorem issuesAs_syarr_counts {m : List Host.Cell} {k : Tab Nat} {r : Option FaultRec}
    (lands : landArrival ((quick s .ctl f.ramp [f.a, f.d] 64).issued s) s.core.num (syarrAcc s f) =
      setCore { s with mem := m, writes := k } (r.elim ((quick s .ctl f.ramp [f.a, f.d] 64).issued s).core
        ((quick s .ctl f.ramp [f.a, f.d] 64).issued s).core.addPending)) :
    IssuesAs (quick s .ctl f.ramp [f.a, f.d] 64) (.syarr f) s (counted m k r (syarrAcc s f) s) := by
  refine issuesAs_syarr pass (apart_counted m k r _) (charges_counted m k r _) ?_
  have num := Issue.issued_num (quick s .ctl f.ramp [f.a, f.d] 64) s
  have same : s.core.num = (r.elim ((quick s .ctl f.ramp [f.a, f.d] 64).issued s).core
      ((quick s .ctl f.ramp [f.a, f.d] 64).issued s).core.addPending).num := by
    cases r <;> exact num.symm
  rw [arrive, if_pos ((Core.mayArrive_iff rfl).2 ⟨first, free⟩), lands, setCore, if_pos same]
  rfl

theorem issuesAs_syarr_bad (bad : syncBad s (syarrAcc s f).pa = true) :
    IssuesAs (quick s .ctl f.ramp [f.a, f.d] 64) (.syarr f) s (counted s.mem s.writes
      (some { accessRec (syarrAcc s f) 0x1B f.mask with
        addr := BitVec.ofNat 64 (badAt s (syarrAcc s f).pa (srcVal s f.a).toNat) }) (syarrAcc s f) s) := by
  refine issuesAs_syarr_counts pass free first ?_
  rw [Issue.issued_setCore, landArrival_bad (Issue.issued_num _ s) _ bad, syarrAcc_addr, ← Issue.issued_setCore]
  rfl

theorem issuesAs_syarr_good (good : syncBad s (syarrAcc s f).pa = false) :
    ∃ m k, synced s .land (syarrAcc s f).pa (srcVal s f.d).toNat m ∧
      IssuesAs (quick s .ctl f.ramp [f.a, f.d] 64) (.syarr f) s (counted m k
        (if overshoots s .land (syarrAcc s f).pa (srcVal s f.d).toNat then some (accessRec (syarrAcc s f) 0x16 f.mask) else none)
        (syarrAcc s f) s) := by
  obtain ⟨m, k, spec, run⟩ := landArrival_good (Issue.issued_num (quick s .ctl f.ramp [f.a, f.d] 64) s) (syarrAcc s f) good
  rw [← Issue.issued_setCore] at run
  rw [syarrAcc_count] at spec run
  refine ⟨m, k, spec, issuesAs_syarr_counts pass free first (run.trans (congrArg _ ?_))⟩
  split <;> rfl

end

/-- Settles O16: SYEXP posts and waits (`waits_does`), SYARR counts or keeps its arrival, and the checks of a sync word. -/
theorem syncWords : Obligations.SyncWords := by
  unfold Obligations.SyncWords
  intro s f va n ps srcs ready
  refine ⟨fun pass => ⟨fun _ => ?_, fun _ => ⟨fun kept => (issuesAs_syarr_keeps pass kept).does ready, fun free first =>
    ⟨fun bad => (issuesAs_syarr_bad pass free first bad).does ready, fun good => ?_⟩⟩⟩, fun pa pass home => ⟨fun dram => ?_,
    fun spad large => ?_⟩⟩
  · exact waits_does (apart_postAcc (syexpAcc s f)) (charges_postAcc · _) (by rw [exec_syexp, pass]) ready
  · obtain ⟨m, k, spec, issues⟩ := issuesAs_syarr_good pass free first good
    refine ⟨m, k, spec, ?_⟩
    rw [counted_ite] at issues
    exact issues.does ready
  · have stop := syncStop_dram (d := srcVal s f.d) pass home dram
    exact ⟨stops_of_wait (exec_syexp s f) stop ready, stops_of_checked (exec_syarr s f) stop ready⟩
  · have stop := syncStop_count (d := srcVal s f.d) pass home spad large
    exact ⟨stops_of_wait (exec_syexp s f) stop ready, stops_of_checked (exec_syarr s f) stop ready⟩

end Sys2Proof.Machine
end

section
/-! O15: TWAIT, QWAIT, SYWAIT, WSEND and XBAR (R28, R176, R180, R219, R221, R225, R227, R228). -/

namespace Sys2Proof.Machine
open Sys2Proof.Stmt

/-! ### The end of a wait (R29, R91) -/

/-- The core as its wait has ended on tick b: it goes on to the next word. -/
def Core.goesOn (c : Core) (w : Waiting) (b : Nat) : Core := { c with wait := none, pc := w.pc + 8, nextBt := b + 1 }

/-- What a waiting word popped goes back to ports alone. -/
theorem foldl_setPort_only (l : List (Nat × QWord)) (c : Core) :
    l.foldl (fun c x => c.setPort x.1 (x.2 :: c.port x.1)) c =
      { c with ports := (l.foldl (fun c x => c.setPort x.1 (x.2 :: c.port x.1)) c).ports } := by
  induction l generalizing c with
  | nil => rfl
  | cons x l ih => rw [List.foldl_cons, ih]; rfl

theorem Core.backTo_pending (c : Core) (w : Waiting) : (c.backTo w).pending = c.pending := by
  rw [Core.backTo, foldl_setPort_only]

theorem Core.backTo_clearTok (c : Core) (w : Waiting) : (c.backTo w).clearTok = c.clearTok := by
  rw [Core.backTo, foldl_setPort_only]

theorem Core.backTo_tmarks (c : Core) (w : Waiting) : (c.backTo w).tmarks = c.tmarks := by
  rw [Core.backTo, foldl_setPort_only]

/-- A word that waited delivers what its core, waiting, would. -/
theorem Core.twaitFault_backTo (c : Core) (w : Waiting) (k : Nat) : (c.backTo w).twaitFault k = c.twaitFault k := by
  simp only [Core.twaitFault, Core.accFault, Core.tokSet, Core.backTo_pending, Core.backTo_clearTok, Core.backTo_tmarks]
  rfl

/-- No pending fault, none to deliver. -/
theorem Core.firstFault_none {c : Core} (h : c.pending = []) : c.firstFault = none := by
  rw [Core.firstFault, Core.entryFaults, h]
  rfl

theorem Core.gangWaits_eq_false {c : Core} (h : c.gang = 0 ∨ c.supers ≠ 0) : c.gangWaits = false := by
  simpa [Core.gangWaits, or_iff_not_imp_left] using h

theorem Core.gangWaits_eq_false_iff (c : Core) : c.gangWaits = false ↔ c.gang = 0 ∨ c.supers ≠ 0 := by
  simp [Core.gangWaits, or_iff_not_imp_left]

section
variable {s : State} {n : Nat} {w : Waiting} (b : Nat) (waits : (getCore s n).wait = some w)
  (runs : (getCore s n).run = .running) (still : (getCore s n).view = .unit → (getCore s n).event = none)
include waits runs still

/-- A wait whose condition holds, which neither a fault nor an event ends, is over. -/
theorem endWait_over (ends : waitOver s (getCore s n) w = true) (sound : waitFault s ((getCore s n).backTo w) w b = none) :
    endWait s n b = match w.w with
      | .xbar _ _ _ _ => nextSuperstep s ((getCore s n).goesOn w b)
      | _ => setCore s ((getCore s n).goesOn w b) := by
  have quiet : interrupts (getCore s n) w = none := by
    unfold interrupts
    cases view : (getCore s n).view
    · simp [still view]
    · rfl
  have goes : ¬ ((getCore s n).run ≠ .running ∨ (!waitOver s (getCore s n) w) = true) := by simp [runs, ends]
  simp only [endWait, waits, if_neg goes, sound, quiet]
  rfl

theorem endWait_token {k : Nat} (what : w.w = .token k) (set : (getCore s n).tokSet k = true)
    (sound : (getCore s n).twaitFault k = none) : endWait s n b = setCore s ((getCore s n).goesOn w b) := by
  rw [endWait_over b waits runs still (by simp [waitOver, what, set])
    (by simp [waitFault, what, Core.twaitFault_backTo, sound]), what]

theorem endWait_syexp {a : Nat} {x : Word} (what : w.w = .syexp a 0 x) (gone : ∀ y ∈ (getCore s n).accs, y.id ≠ a) :
    endWait s n b = setCore s ((getCore s n).goesOn w b) := by
  have none_ : (getCore s n).access a = none := List.find?_eq_none.2 (by simpa using gone)
  rw [endWait_over b waits runs still (by simp [waitOver, what, none_]) (by simp [waitFault, what]), what]

theorem endWait_sywait {pa g : Nat} (what : w.w = .sywait pa g) (good : syncBad s pa = false)
    (reached : genReached (readSync s.mem pa).2.2.1 g = true) : endWait s n b = setCore s ((getCore s n).goesOn w b) := by
  rw [endWait_over b waits runs still (by simp [waitOver, what, reached]) (by simp [waitFault, what, good]), what]

theorem endWait_port {q : Nat} {x : QWord} {l : List QWord} (what : w.w = .port q) (front : (getCore s n).port q = x :: l)
    (done : q = 4 → x.q = 1 → ∀ e ∈ (getCore s n).tq.es, e.seq ≠ x.seq) :
    endWait s n b = setCore s ((getCore s n).goesOn w b) := by
  have ends : waitOver s (getCore s n) w = true := by
    simp only [waitOver, what, Bool.or_eq_true]
    right
    by_cases status : q = 4
    · subst status
      simpa [Core.tstatDone, front, or_iff_not_imp_left] using done rfl
    · simp [status, front]
  rw [endWait_over b waits runs still ends (by simp [waitFault, what]), what]

theorem endWait_gang (what : w.w = .gang) (free : (getCore s n).gang = 0 ∨ (getCore s n).supers ≠ 0) :
    endWait s n b = setCore s ((getCore s n).goesOn w b) := by
  rw [endWait_over b waits runs still (by simp [waitOver, what, Core.gangWaits_eq_false free]) (by simp [waitFault, what]), what]

theorem endWait_barrier {g upto : Nat} {was : Bool} {x : Launch} (what : w.w = .xbar true g was upto)
    (launch : getLaunch s (getCore s n).job (getCore s n).lid = some x) (reached : g ≤ x.barrier)
    (sound : (getCore s n).pending = []) : endWait s n b = nextSuperstep s ((getCore s n).goesOn w b) := by
  have quiet := Core.firstFault_none (((getCore s n).backTo_pending w).trans sound)
  rw [endWait_over b waits runs still (by simp [waitOver, what, barrierAt, launch, reached])
    (by simp [waitFault, what, quiet]), what]

end

/-! ### The arrival that XBAR posts (R228) -/

/-- Step 3 of XBAR is met: queues empty, accesses done, no column to draw, no fault to deliver. -/
abbrev readyToArrive (s : State) (c : Core) (upto : Nat) : Prop :=
  c.tq.es = [] ∧ c.cq.es = [] ∧ c.gq.es = [] ∧ c.bq.es = [] ∧ (∀ a ∈ c.accs, upto ≤ a.id ∧ a.word ≠ 0) ∧
    ((getBed s c.bedNum).stall = true ∨ c.seedMode = 0 ∨ ∀ fl ∈ c.vq, fl.draws = false) ∧ c.pending = []

theorem Core.seedsLeft_eq_false_iff (c : Core) (still : Bool) :
    c.seedsLeft still = false ↔ still = true ∨ c.seedMode = 0 ∨ ∀ fl ∈ c.vq, fl.draws = false := by
  cases still <;> simp [Core.seedsLeft, or_iff_not_imp_left]

/-- A launch with the arrival of one of its units. -/
def Launch.arrival (x : Launch) (unit : Nat) : Launch :=
  { x with units := x.units.map fun u => { u with arrived := u.arrived || decide (u.idx = unit) } }

theorem setArrived_true {s : State} {c : Core} {x : Launch} (launch : getLaunch s c.job c.lid = some x) :
    setArrived s c true = setLaunch s (x.arrival c.unit) := by
  have each : (fun u : UnitRec => if u.idx = c.unit then { u with arrived := true } else u) =
      fun u => { u with arrived := u.arrived || decide (u.idx = c.unit) } := by
    funext u
    by_cases own : u.idx = c.unit <;> simp [own]
  simp only [setArrived, launch, Launch.arrival, each]

section
variable {s : State} {n g upto : Nat} {was : Bool} {w : Waiting} {x : Launch} (waits : (getCore s n).wait = some w)
  (what : w.w = .xbar false g was upto) (runs : (getCore s n).run = .running)
include waits what runs

theorem postArrival_eq (launch : getLaunch s (getCore s n).job (getCore s n).lid = some x) : postArrival s n =
    if ((getCore s n).gang = 0 ∨ (getCore s n).supers ≠ 0) ∧ readyToArrive s (getCore s n) upto then
      setCore (setLaunch s (x.arrival (getCore s n).unit))
        { getCore s n with wait := some { w with w := .xbar true (x.barrier + 1) was upto } }
    else s := by
  simp only [postArrival, waits, what]
  refine if_congr ?_ ?_ rfl
  · simp only [runs, true_and, Bool.not_eq_true', Core.gangWaits_eq_false_iff, Core.seedsLeft_eq_false_iff, readyToArrive,
      List.isEmpty_iff, List.any_eq_false, Bool.or_eq_true, decide_eq_true_eq, not_or, Nat.not_lt, Bool.not_eq_true,
      Access.isSeed_eq_false_iff]
  · rw [setArrived_true launch, launch]
    rfl

end

/-! ### The words at their issue -/

theorem apart_id : Apart id := fun _ _ => rfl

theorem exec_twait (s : State) (f : SsysW) : exec (.twait f) s =
    runWait s (.twait f) f.ramp []
      (if s.core.view = .system ∧ s.core.handled = f.k ∧ f.k ≠ 63 ∧ s.core.tokSet f.k = false then
        some (.fault (s.core.xcause.toNat % 256) 0 0) else (s.core.twaitFault f.k).map .deliver)
      0 (s.core.tokSet f.k) (.token f.k) id := by
  simp only [← Bool.not_eq_true']
  rfl

theorem exec_sywait (s : State) (f : SsysW) : exec (.sywait f) s =
    runWait s (.sywait f) f.ramp [f.a, f.d]
      ((syncStop s (srcVal s f.a).toNat (srcVal s f.d) false).or
        (bad0 (syncBad s (syncPa s (srcVal s f.a).toNat)) 0x1B (badAt s (syncPa s (srcVal s f.a).toNat) (srcVal s f.a).toNat) 0))
      64 (genReached (readSync s.mem (syncPa s (srcVal s f.a).toNat)).2.2.1 (srcVal s f.d).toNat)
      (.sywait (syncPa s (srcVal s f.a).toNat) (srcVal s f.d).toNat) id := rfl

/-- A SYWAIT of a sound sync word (R225). -/
theorem sywait_outcome {s : State} {f : SsysW} (pass : syncStop s (srcVal s f.a).toNat (srcVal s f.d) false = none)
    (good : syncBad s (syncPa s (srcVal s f.a).toNat) = false) (ready : (quick s .ctl f.ramp [f.a, f.d] 64).ready s) :
    waitOutcome s (.sywait f) f.ramp [f.a, f.d] 64 (.sywait (syncPa s (srcVal s f.a).toNat) (srcVal s f.d).toNat) s none
      (genReached (readSync s.mem (syncPa s (srcVal s f.a).toNat)).2.2.1 (srcVal s f.d).toNat) := by
  have runs := exec_sywait s f
  rw [pass, good] at runs
  exact waitingWord (due := none) apart_id (fun u => charges_none u.core) runs ready

theorem exec_wsend (s : State) (f : SsysW) : exec (.wsend f) s =
    runWait s (.wsend f) f.ramp [] ((if s.core.span then s.core.accFaults.head? else none).map .deliver) 0
      (!(s.core.span && decide (s.core.gang ≠ 0) && decide (s.core.supers = 0))) .gang (onCore · Core.endSpan) := by
  rw [exec, execWsend, Core.gangWaits, Bool.and_assoc]
  cases s.core.span <;> rfl

theorem apart_endSpan : Apart (onCore · Core.endSpan) := fun _ _ => rfl

theorem charges_endSpan (u : State) : Charges u.core (onCore u Core.endSpan).core 0 0 0 :=
  .nothing rfl rfl rfl rfl rfl rfl rfl rfl rfl rfl rfl rfl rfl rfl

/-- Settles O15: the end of each wait (`endWait_over`), XBAR's arrival (`postArrival_eq`), and each word as it issues
(`waitingWord`). -/
theorem waitingWords : Obligations.WaitingWords := by
  unfold Obligations.WaitingWords
  refine ⟨?_, ?_, ?_⟩
  · intro s n b w c done waits runs still
    exact ⟨fun k => endWait_token b waits runs still, fun a x => endWait_syexp b waits runs still,
      fun pa g => endWait_sywait b waits runs still, fun q x l => endWait_port b waits runs still, endWait_gang b waits runs still,
      fun g was upto x => endWait_barrier b waits runs still⟩
  · intro s n g upto was w x c done waits what runs launch at_
    have arrives := postArrival_eq waits what runs launch
    exact ⟨fun free ready => arrives.trans (if_pos ⟨free, ready⟩), fun kept => arrives.trans (if_neg kept)⟩
  · intro s f at_ va pa gen ended own
    have each : ∀ i srcs work due now w e, (i.wf = true → (quick s .ctl f.ramp srcs work).ready s →
        waitOutcome s i f.ramp srcs work w e due now) → at_ i srcs work due now w e := fun _ _ _ _ _ _ _ h => h
    refine ⟨fun foreign => each _ _ _ _ _ _ _ fun _ => ?_, fun _ ready hold => ?_, each _ _ _ _ _ _ _ fun _ => ?_,
      fun pass => ⟨fun good => each _ _ _ _ _ _ _ fun _ => ?_, fun bad ready => ?_⟩, each _ _ _ _ _ _ _ fun _ => ?_,
      each _ _ _ _ _ _ _ fun _ => ?_⟩
    · exact waitingWord apart_id (fun u => charges_none u.core) (by rw [exec_twait, if_neg foreign])
    · exact stops_of_wait (exec_twait s f) (if_pos hold) ready
    · exact waitingWord (due := none) apart_id (fun u => charges_none u.core) rfl
    · exact sywait_outcome pass good
    · exact stops_of_wait (exec_sywait s f) (by rw [pass, bad]; rfl) ready
    · exact waitingWord apart_endSpan charges_endSpan (exec_wsend s f)
    · exact waitingWord (now := false) apart_endSpan charges_endSpan rfl

end Sys2Proof.Machine
end

section
/-! O39 and O40: the words of traps and debugging, and the words that end a unit (R111, R177, R179, R237-R240, R253, R407). -/

namespace Sys2Proof.Machine
open Sys2Proof.Stmt

/-! ### Words that do no bit-operation (R163) -/

/-- No work costs no energy. -/
theorem workUnits_zero (k : Nat) (n : Int) : workUnits 0 k n = 0 := by
  have scale : heatScale 0 n = 0 := by rw [heatScale_eq, heated]; simp
  rw [workUnits, Nat.mul_zero, scale]
  exact Nat.div_eq_zero_iff.2 (by omega)

/-- The issue of such a word of the control unit. -/
def ctlWord (s : State) (ramp : Nat) (sys : Bool) (results : List Pend) (npc : Word) : Issue :=
  { quick s .ctl ramp [] 0 with sys := sys, results := results, npc := npc }

theorem ctlWord_issued (s : State) (ramp : Nat) (sys : Bool) (results : List Pend) (npc : Word) :
    (ctlWord s ramp sys results npc).issued s =
      s.onto { ctlIssued s ramp with pend := s.core.pend ++ results, pc := npc } := by
  have energy : (if s.core.view = .unit then workUnits 0 (rampK ramp) (heat s s.core.num) else 0) = 0 := by
    rw [workUnits_zero, ite_self]
  have core := (ctlWord s ramp sys results npc).issued_core s
  rw [show (ctlWord s ramp sys results npc).work = 0 from rfl, show (ctlWord s ramp sys results npc).ramp = ramp from rfl, energy] at core
  rw [Issue.issued_eq, core]
  rfl

theorem quick_issued (s : State) (ramp : Nat) : (quick s .ctl ramp [] 0).issued s = s.onto (ctlIssued s ramp) := by
  refine (ctlWord_issued s ramp false [] (s.core.pc + 8)).trans ?_
  rw [List.append_nil]
  rfl

theorem sysQuick_issued (s : State) (ramp : Nat) : (sysQuick s ramp).issued s = s.onto (ctlIssued s ramp) := quick_issued s ramp

section
variable {s : State} {i : Instr} {eff : State → State} {ramp : Nat}

/-- A ready word of the control unit that asks for no trap by a charge. -/
theorem ctlWord_runs {t : State} (runs : exec i s = (quick s .ctl ramp [] 0).runs s i eff)
    (ready : (quick s .ctl ramp [] 0).ready s) (effect : eff (s.onto (ctlIssued s ramp)) = t) (calm : t.core.qp = s.core.qp) :
    exec i s = .next t := by
  rw [runs, Issue.runs_ready ready, quick_issued, effect, afterWord_calm calm]

/-- A ready word of the system view alone. -/
theorem sysWord_runs (runs : exec i s = (sysQuick s ramp).runs s i eff) (ready : (sysQuick s ramp).ready s)
    (system : s.core.view = .system) : exec i s = .next (eff (s.onto (ctlIssued s ramp))) := by
  rw [runs, Issue.runs_ready ready, sysQuick_issued, afterWord_system system]

/-- A ready word of the system view alone stands in that view. -/
theorem system_of_ready (ready : (sysQuick s ramp).ready s) : s.core.view = .system := by
  obtain ⟨privilege, -⟩ := ready
  cases view : s.core.view
  · cases (privilege view).1
  · rfl

/-- In the unit view a word of the system view stops first of all (R84). -/
theorem privileged_stops {w : Issue} (runs : exec i s = w.runs s i eff) (sys : w.sys = true) (unit : s.core.view = .unit) :
    stops i s w.srcs 0x1F 0 0 := by
  have barred : gate s w.sys w.units w.srcs w.results = some (.fault 0x1F 0 0) := by
    rw [gate, sys, unit]
    rfl
  rw [stops, runs, Issue.runs, runWord, stopOf, barred]
  rfl

end

/-! ### The parked accesses of a job retry (R239, R253) -/

/-- A parked entry runs again. -/
theorem EQueue.retry_eq (q : EQueue) :
    q.retry = { q with es := q.es.map fun e => { e with ph := if e.ph = .parked then .running else e.ph } } := by
  have each : (fun e : Entry => if e.ph = .parked then { e with ph := .running } else e) =
      fun e => { e with ph := if e.ph = .parked then .running else e.ph } := by
    funext e
    split <;> rfl
  rw [EQueue.retry, each]

theorem EQueue.retry_retry (q : EQueue) : q.retry.retry = q.retry := by
  simp only [EQueue.retry_eq, List.map_map]
  congr 2
  funext e
  by_cases parked : e.ph = .parked <;> simp [parked]

/-- A queue of core n after the entries that lines of the park log name have retried. -/
def retriedQueue (ps : List Park) (n : Nat) (q : EngQ) (x : EQueue) : EQueue :=
  if ps.any (fun p => decide (p.core = n ∧ p.queue = q)) then x.retry else x

theorem retriedQueue_cons (p : Park) (ps : List Park) (n : Nat) (q : EngQ) (x : EQueue) :
    retriedQueue (p :: ps) n q x = retriedQueue ps n q (if p.core = n ∧ p.queue = q then x.retry else x) := by
  by_cases named : p.core = n ∧ p.queue = q
  · simp [retriedQueue, named, EQueue.retry_retry]
  · simp [retriedQueue, named]

/-- Core n after those entries have retried. -/
def Core.retriedBy (c : Core) (ps : List Park) (n : Nat) : Core :=
  { c with tq := retriedQueue ps n .trellis c.tq, cq := retriedQueue ps n .copy c.cq
           gq := retriedQueue ps n .graft c.gq, bq := retriedQueue ps n .bank c.bq }

/-- The entries of one queue retry. -/
def Core.retryQueue (c : Core) (q : EngQ) : Core := c.setQueue q (c.queue q).retry

theorem Core.retryQueue_num (c : Core) (q : EngQ) : (c.retryQueue q).num = c.num := by cases q <;> rfl

theorem Core.retriedBy_cons (c : Core) (p : Park) (ps : List Park) (n : Nat) :
    c.retriedBy (p :: ps) n = (if p.core = n then c.retryQueue p.queue else c).retriedBy ps n := by
  by_cases own : p.core = n
  · cases which : p.queue <;>
      simp [Core.retriedBy, retriedQueue_cons, own, which, Core.retryQueue, Core.setQueue, Core.queue]
  · simp [Core.retriedBy, retriedQueue_cons, own]

/-- The parked entries that lines of the park log name retry, one line after another. -/
def retryLines (ps : List Park) (s : State) : State := ps.foldl (fun s p => modCore s p.core (·.retryQueue p.queue)) s

theorem retryLines_cons (p : Park) (ps : List Park) (s : State) :
    retryLines (p :: ps) s = retryLines ps (setCore s ((getCore s p.core).retryQueue p.queue)) := rfl

theorem retryLines_only (ps : List Park) (s : State) :
    retryLines ps s = { s with core := (retryLines ps s).core, others := (retryLines ps s).others } := by
  induction ps generalizing s with
  | nil => rfl
  | cons p ps ih => rw [retryLines_cons, ih, setCore_only]

theorem getCore_retryLines (ps : List Park) (s : State) (n : Nat) :
    getCore (retryLines ps s) n = (getCore s n).retriedBy ps n := by
  induction ps generalizing s with
  | nil => rfl
  | cons p ps ih =>
    rw [retryLines_cons, ih, getCore_setCore, Core.retryQueue_num, getCore_num, Core.retriedBy_cons]
    by_cases own : p.core = n
    · rw [if_pos own, if_pos own, own]
    · rw [if_neg own, if_neg own]

theorem ofJob_eq (s : State) (job : Nat) : Park.ofJob s job = fun p =>
    decide ((getCore s p.core).job = job ∧ (getCore s p.core).run ≠ .idle) &&
      ((getCore s p.core).queue p.queue).es.any (fun e => decide (e.ph = .parked ∧ e.seq = p.seq)) := by
  funext p
  rw [Bool.eq_iff_iff]
  simp [Park.ofJob]

/-- All of a job's parked accesses retry in the order in which they parked (R253). -/
theorem retried_retryJob (s : State) (job : Nat) : retried s job (retryJob s job) := by
  have runs : retryJob s job = { retryLines (s.lsc.parks.filter (Park.ofJob s job)) s with
      agenda := (retryLines (s.lsc.parks.filter (Park.ofJob s job)) s).agenda ++
        (s.lsc.parks.filter (Park.ofJob s job)).map fun p => .engineEntryStart p.core p.queue } := rfl
  rw [retried, ← ofJob_eq]
  dsimp only
  generalize s.lsc.parks.filter (Park.ofJob s job) = ps at runs
  refine ⟨?_, fun n => ?_⟩
  · rw [runs, retryLines_only]
  · have core : getCore (retryJob s job) n = getCore (retryLines ps s) n := by rw [runs]; rfl
    rw [core, getCore_retryLines, Core.retriedBy]
    simp only [retriedQueue, EQueue.retry_eq]
    rfl

/-! ### TRAP, SAFEPT and DBGBRK (R237-R239) -/

theorem exec_trap (s : State) (f : SsysW) : exec (.trap f) s =
    (quick s .ctl f.ramp [] 0).checked s
      (if s.core.view = .system then some (.fault 0x20 0 (BitVec.ofNat 64 f.sel)) else none) (.trap f)
      (onCore · fun c => c.raise (bareRec s (wordOf (.trap f)) 0x20 1 0 (BitVec.ofNat 64 f.sel)) c.pc
        (s.bed.btick + rampK f.ramp)) := rfl

/-- The core that is to stop after its SAFEPT (R238). -/
def Core.stopsAt (c : Core) (livemap t : Nat) : Core :=
  { c with livemap := livemap, trap := some (trapAt { FaultRec.none with code := 0x21, kind := 3 } c.pc t true) }

theorem exec_safept (s : State) (f : SsysW) : exec (.safept f) s =
    (quick s .ctl f.ramp [] 0).runs s (.safept f) (fun s' => if s.core.pre = true ∧ s.core.view = .unit then
      onCore s' (·.stopsAt f.sel (s.bed.btick + rampK f.ramp)) else s') := rfl

theorem exec_dbgbrk (s : State) (f : SsysW) : exec (.dbgbrk f) s =
    (quick s .ctl f.ramp [] 0).runs s (.dbgbrk f)
      (fun s' => if s.core.dbg then haltBed s' s.core.bedNum false else s') := rfl

/-- The halt of the focused bed. -/
theorem haltBed_focus {s : State} {n : Nat} (own : s.bed.num = n) (park : Bool) :
    haltBed s n park = { s with bed := { s.bed with halt := true, park := park } } := by
  rw [haltBed, modBed, getBed, if_pos own, setBed, if_pos rfl]

/-! ### REPLAY and SRET (R177, R239) -/

theorem exec_replay (s : State) (f : SsysW) : exec (.replay f) s =
    (sysQuick s f.ramp).runs s (.replay f) (retryJob · s.core.job) := rfl

/-- The issue of SRET: its one result tells when it is done (R177). -/
def returning (s : State) (ramp : Nat) : Issue := ctlWord s ramp true [dueAt s 1 ramp .nothing] s.core.pc

theorem exec_sret (s : State) (f : SsysW) : exec (.sret f) s =
    (returning s f.ramp).runs s (.sret f) (onCore · (·.sret s.bed.btick (rampK f.ramp))) := rfl

theorem returning_ready {s : State} {ramp : Nat} (ready : (sysQuick s ramp).ready s) : (returning s ramp).ready s := ready

/-- The core as SRET has issued, before it returns. -/
def returnIssued (s : State) (ramp : Nat) : Core :=
  { ctlIssued s ramp with pend := s.core.pend ++ [dueAt s 1 ramp .nothing], pc := s.core.pc }

theorem sret_runs {s : State} {f : SsysW} (ready : (sysQuick s f.ramp).ready s) : exec (.sret f) s =
    .next (s.onto ((returnIssued s f.ramp).sret s.bed.btick (rampK f.ramp))) := by
  rw [exec_sret, Issue.runs_ready (returning_ready ready), afterWord_system (system_of_ready ready), returning, ctlWord_issued]
  rfl

/-- Settles O39: each word runs as its own effect on the issued core says, and REPLAY as `retried_retryJob`. -/
theorem trapWords : Obligations.TrapWords := by
  unfold Obligations.TrapWords
  intro s f c q T issued
  refine ⟨fun _ ready => ⟨fun unit => ?_, fun system => ?_⟩, fun _ ready => ⟨fun pre unit => ?_, fun other => ?_⟩, fun _ ready own => ?_,
    fun _ => ⟨fun ready => ?_, privileged_stops (exec_replay s f) rfl⟩, fun _ => ⟨fun ready resumes _ => ?_,
    privileged_stops (exec_sret s f) rfl⟩, by decide +kernel⟩
  · exact ctlWord_runs (runs_of_checked (exec_trap s f) (by rw [unit]; rfl)) ready
      (congrArg s.onto (Core.raise_unit (c := ctlIssued s f.ramp) unit _ _ _)) rfl
  · exact stops_of_checked (exec_trap s f) (if_pos system) ready
  · exact ctlWord_runs (exec_safept s f) ready (if_pos ⟨pre, unit⟩) rfl
  · exact ctlWord_runs (exec_safept s f) ready (if_neg other) rfl
  · refine ctlWord_runs (exec_dbgbrk s f) ready (if_congr Iff.rfl (haltBed_focus (s := issued) own false) rfl) ?_
    split <;> rfl
  · exact ⟨_, sysWord_runs (exec_replay s f) ready (system_of_ready ready), retried_retryJob issued s.core.job⟩
  · rw [sret_runs ready, Core.sret_resume (c := returnIssued s f.ramp) _ _ resumes]
    rfl

/-! ### DONE and KILL (R179, R240) -/

/-- The unit has come to DONE (R179, R240). -/
def Core.finish (c : Core) : Core :=
  let c1 := (c.erase c.ut.depth false).eraseX c.st.depth
  { c1 with
    run := .ended, endStatus := 0, endCode := 0, handles := if c1.busyQueues then c1.handles else []
    ut := emptied c1.ut, st := emptied c1.st }

theorem exec_done (s : State) (f : SsysW) : exec (.done f) s =
    (quick s .ctl f.ramp [] 0).checked s (s.core.firstFault.map .deliver) (.done f) (onCore · Core.finish) := rfl

theorem exec_kill (s : State) (f : SsysW) : exec (.kill f) s =
    (sysQuick s f.ramp).runs s (.kill f) (onCore · fun c => c.kill (killStatus (s.core.xcause.toNat % 256))
      (s.core.xcause.toNat % 256) 0 ((tget 0 s.core.xrec 7).toNat % 2 ^ 32)) := rfl

/-- A word after which the core runs no more takes no trap. -/
theorem afterWord_ended {s v : State} (ended : v.core.run = .ended) (i : Instr) (srcs : List Nat) : afterWord s i srcs v = v := by
  rw [afterWord, if_neg]
  simp [ended]

theorem Core.busyQueues_not (c : Core) :
    (!c.busyQueues) = (c.tq.es.isEmpty && c.cq.es.isEmpty && c.gq.es.isEmpty && c.bq.es.isEmpty) := by
  rw [Core.busyQueues, Bool.not_not]

/-- The registers of a killed unit, counted (R179). -/
theorem Core.countRegs_dying {c : Core} (dying : c.dying = true) (pend : c.pend = []) (vq : c.vq = []) :
    c.countRegs = { c.erase (64 * (List.range' 4 52).countP (fun n => c.reg n ≠ 0)) false with dying := false } := by
  have count : ((List.range 52).filter (fun i => c.reg (i + 4) ≠ 0)).length =
      (List.range' 4 52).countP (fun n => c.reg n ≠ 0) := by
    rw [List.range'_eq_map_range, List.countP_map, List.countP_eq_length_filter]
    simp only [Function.comp_def, Nat.add_comm]
  rw [Core.countRegs, if_pos (by simp [dying, pend, vq]), count]

/-- What every SRET does but for the view and the next word (R177). -/
def Core.dropsHandler (c : Core) : Core :=
  { c with xebits := c.xebits + c.st.depth, st := emptied c.st, clearTok := c.clearTok.filter (· ≠ c.handled), handled := 63 }

/-- SRET of a terminal event ends the unit by a kill (R407). -/
theorem Core.sret_terminal {c : Core} (t k : Nat) (h : c.terminal = true) :
    c.sret t k = c.dropsHandler.kill (killStatus (c.xcause.toNat % 256)) (c.xcause.toNat % 256) 0
      ((tget 0 c.xrec 7).toNat % 2 ^ 32) :=
  if_pos h

/-- A unit's trug is charged to EBITS as it comes to DONE, the system trug to XEBITS, and its handles are free with no entry to run. -/
theorem Core.finish_eq (c : Core) : c.finish = { c with
    run := .ended, endStatus := 0, endCode := 0, handles := if c.busyQueues then c.handles else [], ut := emptied c.ut, st := emptied c.st
    ebits := c.ebits + c.ut.depth, xebits := c.xebits + c.st.depth, ej := c.ej + c.ut.depth * 2600, qp := c.finish.qp } := rfl

/-- DONE with no fault pending ends the unit. -/
theorem done_runs {s : State} {f : SsysW} (ready : (quick s .ctl f.ramp [] 0).ready s) (quiet : calm s) :
    exec (.done f) s = .next (s.onto (ctlIssued s f.ramp).finish) := by
  have runs := runs_of_checked (exec_done s f) (by rw [Core.firstFault_none quiet]; rfl)
  rw [runs, Issue.runs_ready ready, quick_issued, afterWord_ended rfl]
  rfl

/-- KILL in the system view ends the unit with the code of the trap in hand. -/
theorem kill_runs {s : State} {f : SsysW} (ready : (sysQuick s f.ramp).ready s) (system : s.core.view = .system)
    (running : s.core.run = .running) : ∃ d, exec (.kill f) s = .next (s.onto d) ∧
      killed (ctlIssued s f.ramp) d (s.core.xcause.toNat % 256) 0 ((tget 0 s.core.xrec 7).toNat % 2 ^ 32) :=
  ⟨_, sysWord_runs (exec_kill s f) ready system, killed_kill (c := ctlIssued s f.ramp) running _ _ _⟩

theorem returnIssued_xcause (s : State) (ramp : Nat) : (returnIssued s ramp).xcause = s.core.xcause := rfl

theorem returnIssued_xrec (s : State) (ramp : Nat) : (returnIssued s ramp).xrec = s.core.xrec := rfl

theorem returnIssued_dropsHandler (s : State) (ramp : Nat) : (returnIssued s ramp).dropsHandler = { ctlIssued s ramp with
    pend := s.core.pend ++ [dueAt s 1 ramp .nothing], pc := s.core.pc, xebits := s.core.xebits + (s.core.st.top - s.core.st.base)
    st := emptied s.core.st, clearTok := s.core.clearTok.filter (· ≠ s.core.handled), handled := 63 } := rfl

/-- So does the SRET of a terminal event, after what every SRET does. -/
theorem sret_kills {s : State} {f : SsysW} (ready : (sysQuick s f.ramp).ready s) (terminal : s.core.terminal = true)
    (running : s.core.run = .running) : ∃ d, exec (.sret f) s = .next (s.onto d) ∧
      killed (returnIssued s f.ramp).dropsHandler d (s.core.xcause.toNat % 256) 0 ((tget 0 s.core.xrec 7).toNat % 2 ^ 32) := by
  have ends := Core.sret_terminal (c := returnIssued s f.ramp) s.bed.btick (rampK f.ramp) terminal
  rw [returnIssued_xcause, returnIssued_xrec] at ends
  have runs : (returnIssued s f.ramp).dropsHandler.run = .running := by rw [returnIssued_dropsHandler]; exact running
  exact ⟨_, by rw [sret_runs ready, ends], killed_kill runs _ _ _⟩

/-- Settles O40: DONE (`done_runs`, `Core.finish_eq`), KILL (`kill_runs`), the SRET of a terminal event (`sret_kills`), and the count
of a killed unit's registers (`Core.countRegs_dying`). -/
theorem endingWords : Obligations.EndingWords := by
  unfold Obligations.EndingWords
  refine ⟨?_, fun c dying pend vq => ?_⟩
  · intro s f c code detail idle
    refine ⟨fun _ ready quiet _ => ?_, fun _ ready r due => ?_, fun _ running => ⟨fun ready system => kill_runs ready system running,
      privileged_stops (exec_kill s f) rfl⟩, fun _ ready _ terminal running =>
      returnIssued_dropsHandler s f.ramp ▸ sret_kills ready terminal running⟩
    · refine ⟨_, done_runs ready quiet, rfl, rfl, ?_⟩
      have handles : (if c.busyQueues then c.handles else []) = if idle then [] else c.handles := by
        rw [show idle = !c.busyQueues from c.busyQueues_not.symm]
        cases c.busyQueues <;> rfl
      rw [← handles, Nat.mul_comm]
      exact congrArg s.onto (Core.finish_eq _)
    · exact delivers_of_checked (exec_done s f) (by rw [due]; rfl) ready
  · rw [Core.countRegs_dying dying pend vq]
    exact ⟨rfl, rfl⟩

end Sys2Proof.Machine
end

section
/-! O50, the gangs: acknowledgements, commit and abort (R413-R415). -/

namespace Sys2Proof.Machine
open Sys2Proof.Stmt

/-! ### Gangs as the coordinator knows them -/

theorem mem_putGang (s : State) (g : Gang) : g ∈ (putGang s g).lsc.gangs :=
  List.mem_append_right _ (List.mem_singleton.2 rfl)

/-- A property of the state that a list of changes keeps. -/
theorem foldl_keeps {α β : Type} {P : β → Prop} {f : β → α → β} (l : List α) (step : ∀ b, ∀ a ∈ l, P b → P (f b a)) {b : β}
    (start : P b) : P (l.foldl f b) :=
  List.foldlRecOn l f start fun b hb a ha => step b a ha hb

/-- A property that one change of a list gives and the others keep. -/
theorem foldl_reaches {α β : Type} {P : β → Prop} {f : β → α → β} {l : List α} {a : α} (mem : a ∈ l) (makes : ∀ b, P (f b a))
    (keeps : ∀ b, ∀ x ∈ l, P b → P (f b x)) (b : β) : P (l.foldl f b) := by
  obtain ⟨before, rest, rfl⟩ := List.append_of_mem mem
  rw [List.foldl_append, List.foldl_cons]
  exact foldl_keeps rest (fun b x hx => keeps b x (by simp [hx])) (makes _)

/-! ### Commit (R414) -/

/-- A unit that runs is told that its gang has committed. -/
def tellUnit (s : State) (u : UnitRec) : State :=
  if u.state = .running then modCore s u.core (fun c => { c with gang := 0 }) else s

/-- The members of a launch are told. -/
def tellLaunch (job gang : Nat) (s : State) (y : Launch) : State :=
  if y.job = job ∧ y.gang = gang then y.units.foldl tellUnit s else s

theorem commitGang_eq (s : State) (job gang : Nat) : commitGang s job gang = s.lsc.launches.foldl (tellLaunch job gang) s := rfl

theorem tellUnit_only (s : State) (u : UnitRec) :
    tellUnit s u = { s with core := (tellUnit s u).core, others := (tellUnit s u).others } := by
  unfold tellUnit
  split
  · exact setCore_only ..
  · rfl

theorem tellUnits_only (l : List UnitRec) (s : State) :
    l.foldl tellUnit s = { s with core := (l.foldl tellUnit s).core, others := (l.foldl tellUnit s).others } := by
  induction l generalizing s with
  | nil => rfl
  | cons u l ih => rw [List.foldl_cons, ih, tellUnit_only]

theorem tellLaunch_only (job gang : Nat) (s : State) (y : Launch) :
    tellLaunch job gang s y = { s with core := (tellLaunch job gang s y).core, others := (tellLaunch job gang s y).others } := by
  unfold tellLaunch
  split
  · exact tellUnits_only ..
  · rfl

/-- A commit changes cores alone. -/
theorem commitGang_only (s : State) (job gang : Nat) :
    commitGang s job gang = { s with core := (commitGang s job gang).core, others := (commitGang s job gang).others } := by
  rw [commitGang_eq]
  generalize s.lsc.launches = l
  induction l generalizing s with
  | nil => rfl
  | cons y l ih => rw [List.foldl_cons, ih, tellLaunch_only]

/-- A core that knows its gang's commit keeps to it. -/
theorem tellUnit_keeps {s : State} {n : Nat} (u : UnitRec) (told : (getCore s n).gang = 0) :
    (getCore (tellUnit s u) n).gang = 0 := by
  unfold tellUnit
  split
  · rw [modCore, getCore_setCore]
    split
    · rfl
    · exact told
  · exact told

theorem tellLaunch_keeps {s : State} {n job gang : Nat} (y : Launch) (told : (getCore s n).gang = 0) :
    (getCore (tellLaunch job gang s y) n).gang = 0 := by
  unfold tellLaunch
  split
  · exact foldl_keeps (P := fun t => (getCore t n).gang = 0) _ (fun _ u _ => tellUnit_keeps u) told
  · exact told

theorem tellUnit_tells (s : State) {u : UnitRec} (runs : u.state = .running) : (getCore (tellUnit s u) u.core).gang = 0 := by
  rw [tellUnit, if_pos runs, modCore, getCore_setCore, if_pos (getCore_num ..)]

/-- Every running unit of the gang learns of the commit. -/
theorem commitGang_tells (s : State) {job gang : Nat} {x : Launch} (mem : x ∈ s.lsc.launches) (own : x.job = job ∧ x.gang = gang)
    {u : UnitRec} (unit : u ∈ x.units) (runs : u.state = .running) :
    (getCore (commitGang s job gang) u.core).gang = 0 := by
  rw [commitGang_eq]
  refine foldl_reaches (P := fun t => (getCore t u.core).gang = 0) mem (fun t => ?_) (fun _ y _ => tellLaunch_keeps y) s
  rw [tellLaunch, if_pos own]
  exact foldl_reaches (P := fun t => (getCore t u.core).gang = 0) unit (fun t => tellUnit_tells t runs)
    (fun _ v _ => tellUnit_keeps v) t

/-! ### GANG_ACK (R414, R415; log 45) -/

/-- A gang with one more acknowledgement. -/
def acknowledged (g : Gang) (acks : List Nat) (gnp : Nat) : Gang :=
  { g with acks := acks, committed := decide (gnp < acks.length) }

/-- The coordinator counts an acknowledgement, and commits with the last. -/
def countAck (s : State) (job gang : Nat) (g : Gang) (gnp : Nat) : State :=
  if gnp < g.acks.length then commitGang (putGang s g) job gang else putGang s g

theorem countAck_mem (s : State) (job gang : Nat) (g : Gang) (gnp : Nat) : (countAck s job gang g gnp).mem = s.mem := by
  unfold countAck
  split
  · rw [commitGang_only]; rfl
  · rfl

theorem mem_countAck (s : State) (job gang : Nat) (g : Gang) (gnp : Nat) : g ∈ (countAck s job gang g gnp).lsc.gangs := by
  unfold countAck
  split
  · rw [commitGang_only]; exact mem_putGang s g
  · exact mem_putGang s g

/-- Of a gang that is past, and of which a member lives here, nothing is heard. -/
theorem exec_gangAck_lives {s : State} {job gang : Nat} (m : GangMember)
    (past : (gangOf s job gang).committed = true ∨ (gangOf s job gang).aborted = true)
    (lives : ∃ y ∈ s.lsc.launches, y.job = job ∧ y.gang = gang ∧ y.isOver = false) :
    exec (.gangAck job gang m) s = .next s := by
  have gone : ((gangOf s job gang).committed || (gangOf s job gang).aborted) = true := by simpa using past
  obtain ⟨y, mem, own, its, live⟩ := lives
  simp only [exec, execGangAck]
  refine if_pos (.inr (List.any_eq_true.2 ⟨y, mem, ?_⟩))
  simp [own, its, live, gone]

/-- The gang with one more acknowledgement is the coordinator's. -/
theorem mem_countAck_next (s : State) (job gang : Nat) (g : Gang) (rank gnp : Nat) :
    { g with acks := g.acks ++ [rank], committed := decide (gnp < g.acks.length + 1) } ∈
      (countAck s job gang (acknowledged g (g.acks ++ [rank]) gnp) gnp).lsc.gangs := by
  have count : g.acks.length + 1 = (g.acks ++ [rank]).length := by rw [List.length_append, List.length_singleton]
  rw [count]
  exact mem_countAck ..

/-- So is one that starts anew. -/
theorem mem_countAck_first (s : State) (job gang rank gnp : Nat) :
    ⟨job, gang, [rank], decide (gnp = 0), false⟩ ∈
      (countAck s job gang (acknowledged (Gang.fresh job gang) [rank] gnp) gnp).lsc.gangs := by
  have count : decide (gnp = 0) = decide (gnp < [rank].length) := by
    rw [List.length_singleton]
    exact decide_eq_decide.2 (by omega)
  rw [count]
  exact mem_countAck ..

/-- Before the last acknowledgement no core changes. -/
theorem countAck_open {s : State} {job gang : Nat} {g : Gang} (rank : Nat) {gnp : Nat} (few : g.acks.length + 1 ≤ gnp) :
    (countAck s job gang (acknowledged g (g.acks ++ [rank]) gnp) gnp).core = s.core ∧
      (countAck s job gang (acknowledged g (g.acks ++ [rank]) gnp) gnp).others = s.others := by
  have open_ : ¬ gnp < (acknowledged g (g.acks ++ [rank]) gnp).acks.length := by
    simp only [acknowledged, List.length_append, List.length_singleton]
    omega
  rw [countAck, if_neg open_]
  exact ⟨rfl, rfl⟩

/-- With the last one the gang commits. -/
theorem countAck_commits {s : State} {job gang : Nat} {g : Gang} {rank gnp : Nat} (last : gnp < g.acks.length + 1) {x : Launch}
    (mem : x ∈ s.lsc.launches) (own : x.job = job ∧ x.gang = gang) {u : UnitRec} (unit : u ∈ x.units) (runs : u.state = .running) :
    (getCore (countAck s job gang (acknowledged g (g.acks ++ [rank]) gnp) gnp) u.core).gang = 0 := by
  have done : gnp < (acknowledged g (g.acks ++ [rank]) gnp).acks.length := by
    simp only [acknowledged, List.length_append, List.length_singleton]
    exact last
  rw [countAck, if_pos done]
  exact commitGang_tells (putGang s _) mem own unit runs

section
variable {s : State} {job gang : Nat} {m : GangMember} (rank : m.rank ≤ m.gnp)
include rank

/-- An acknowledgement of a rank not heard of before, of a gang neither committed nor aborted. -/
theorem exec_gangAck_open (open_ : (gangOf s job gang).committed = false ∧ (gangOf s job gang).aborted = false)
    (new : m.rank ∉ (gangOf s job gang).acks)
    (ready : ∀ y ∈ s.lsc.launches, y.job = job → y.gang = gang → y.grk = m.rank → y.isOver = false → y.state = .running) :
    exec (.gangAck job gang m) s = .next (countAck s job gang
      (acknowledged (gangOf s job gang) ((gangOf s job gang).acks ++ [m.rank]) m.gnp) m.gnp) := by
  obtain ⟨pending, alive⟩ := open_
  have none_ : ¬ (m.gnp < m.rank ∨ s.lsc.launches.any (fun y => (y.job = job && y.gang = gang && !y.isOver) &&
      (((gangOf s job gang).committed || (gangOf s job gang).aborted) || (y.grk = m.rank && y.state != .running))) = true) := by
    rw [not_or, List.any_eq_true]
    refine ⟨Nat.not_lt.2 rank, ?_⟩
    rintro ⟨y, mem, bad⟩
    simp only [pending, alive, Bool.or_self, Bool.false_or, Bool.and_eq_true, decide_eq_true_eq, Bool.not_eq_true', bne_iff_ne] at bad
    obtain ⟨⟨⟨own, its⟩, live⟩, same, waits⟩ := bad
    exact waits (ready y mem own its same live)
  have fresh : (gangOf s job gang).acks.contains m.rank = false := by simpa using new
  simp only [exec, execGangAck]
  rw [if_neg none_]
  simp only [pending, alive, fresh, countAck, acknowledged, Bool.or_self, Bool.false_and, Bool.false_eq_true, if_false, false_and]

/-- Of one that is past and of which none lives here, an acknowledgement of a rank heard of before is the first anew (R415). -/
theorem exec_gangAck_again (past : (gangOf s job gang).committed = true ∨ (gangOf s job gang).aborted = true)
    (none_ : ¬ ∃ y ∈ s.lsc.launches, y.job = job ∧ y.gang = gang ∧ y.isOver = false)
    (heard : m.rank ∈ (gangOf s job gang).acks) : exec (.gangAck job gang m) s =
      .next (countAck s job gang (acknowledged (Gang.fresh job gang) [m.rank] m.gnp) m.gnp) := by
  have gone : ((gangOf s job gang).committed || (gangOf s job gang).aborted) = true := by simpa using past
  have old : (gangOf s job gang).acks.contains m.rank = true := by simpa using heard
  have quiet : ¬ (m.gnp < m.rank ∨ s.lsc.launches.any (fun y => (y.job = job && y.gang = gang && !y.isOver) &&
      (((gangOf s job gang).committed || (gangOf s job gang).aborted) || (y.grk = m.rank && y.state != .running))) = true) := by
    rw [not_or, List.any_eq_true]
    refine ⟨Nat.not_lt.2 rank, ?_⟩
    rintro ⟨y, mem, bad⟩
    simp only [Bool.and_eq_true, decide_eq_true_eq, Bool.not_eq_true'] at bad
    obtain ⟨⟨⟨own, its⟩, live⟩, -⟩ := bad
    exact none_ ⟨y, mem, own, its, live⟩
  simp only [exec, execGangAck]
  rw [if_neg quiet]
  have set : (1 : Word).getLsbD 0 = true := rfl
  simp only [gone, old, set, countAck, acknowledged, Bool.not_true, Bool.and_false, Bool.false_eq_true, if_false, and_false, if_true,
    Gang.fresh, List.contains_nil, List.nil_append]
  rfl

end

/-! ### GANG_ABORT (R415) -/

/-- A launch of this job and number is listed. -/
def listed (s : State) (job lid : Nat) : Prop := ∃ y ∈ s.lsc.launches, y.job = job ∧ y.lid = lid

/-- Every launch of this job and number is aborted. -/
def abortedAll (s : State) (job lid : Nat) : Prop := ∀ y ∈ s.lsc.launches, y.job = job → y.lid = lid → y.aborted = true

/-- A change of the LSC's records leaves the gangs and what is listed, and takes back no abort. -/
structure KeepsAborts (s t : State) : Prop where
  gangs : t.lsc.gangs = s.lsc.gangs
  launches : ∀ job lid, listed t job lid ↔ listed s job lid
  aborts : ∀ job lid, listed s job lid → abortedAll s job lid → abortedAll t job lid

namespace KeepsAborts

theorem of_lists {s t : State} (gangs : t.lsc.gangs = s.lsc.gangs) (same : t.lsc.launches = s.lsc.launches) : KeepsAborts s t where
  gangs := gangs
  launches job lid := by rw [listed, listed, same]
  aborts job lid _ h := by rwa [abortedAll, same]

theorem trans {s t u : State} (h : KeepsAborts s t) (g : KeepsAborts t u) : KeepsAborts s u where
  gangs := g.gangs.trans h.gangs
  launches job lid := (g.launches job lid).trans (h.launches job lid)
  aborts job lid known marked := g.aborts job lid ((h.launches job lid).2 known) (h.aborts job lid known marked)

theorem foldl {α : Type} {f : State → α → State} (step : ∀ s a, KeepsAborts s (f s a)) (l : List α) (s : State) :
    KeepsAborts s (l.foldl f s) :=
  foldl_keeps (P := KeepsAborts s) l (fun t a _ h => h.trans (step t a)) (of_lists rfl rfl)

theorem modCore (s : State) (n : Nat) (f : Core → Core) : KeepsAborts s (Machine.modCore s n f) :=
  of_lists (by rw [Machine.modCore, setCore_lsc]) (by rw [Machine.modCore, setCore_lsc])

end KeepsAborts

theorem mem_setLaunch {s : State} {x y : Launch} : y ∈ (setLaunch s x).lsc.launches ↔
    ∃ z ∈ s.lsc.launches, (if z.job = x.job ∧ z.lid = x.lid then x else z) = y := List.mem_map

theorem listed_setLaunch (s : State) (x : Launch) (job lid : Nat) : listed (setLaunch s x) job lid ↔ listed s job lid := by
  simp only [listed, mem_setLaunch]
  constructor
  · rintro ⟨y, ⟨z, mem, rfl⟩, own⟩
    refine ⟨z, mem, ?_⟩
    split at own
    · next same => rw [same.1, same.2]; exact own
    · exact own
  · rintro ⟨z, mem, own⟩
    refine ⟨_, ⟨z, mem, rfl⟩, ?_⟩
    split
    · next same => rw [← same.1, ← same.2]; exact own
    · exact own

/-- A launch replaced by one that is aborted wherever all of its number were. -/
theorem keepsAborts_setLaunch {s : State} {x : Launch}
    (kept : listed s x.job x.lid → abortedAll s x.job x.lid → x.aborted = true) : KeepsAborts s (setLaunch s x) where
  gangs := rfl
  launches := listed_setLaunch s x
  aborts job lid known marked y mem own its := by
    obtain ⟨z, old, rfl⟩ := mem_setLaunch.1 mem
    split at own
    · next same =>
      rw [if_pos same] at its ⊢
      subst own its
      exact kept known marked
    · next other =>
      rw [if_neg other] at its ⊢
      exact marked z old own its

theorem getLaunch_key {s : State} {job lid : Nat} {y : Launch} (h : getLaunch s job lid = some y) :
    y ∈ s.lsc.launches ∧ y.job = job ∧ y.lid = lid :=
  ⟨List.mem_of_find?_eq_some h, by simpa using List.find?_some h⟩

theorem getLaunch_of_listed {s : State} {job lid : Nat} (h : listed s job lid) : ∃ y, getLaunch s job lid = some y := by
  obtain ⟨y, mem, own⟩ := h
  exact Option.isSome_iff_exists.1 (List.find?_isSome.2 ⟨y, mem, decide_eq_true own⟩)

theorem again_key (s : State) (x : Launch) : (again s x).job = x.job ∧ (again s x).lid = x.lid := by
  unfold again
  cases found : getLaunch s x.job x.lid with
  | none => exact ⟨rfl, rfl⟩
  | some y => exact (getLaunch_key found).2

/-- A listed launch as it stands is aborted where all of its number are. -/
theorem again_aborted {s : State} {x : Launch} (known : listed s x.job x.lid) (marked : abortedAll s x.job x.lid) :
    (again s x).aborted = true := by
  obtain ⟨y, found⟩ := getLaunch_of_listed known
  obtain ⟨mem, own, its⟩ := getLaunch_key found
  rw [again, found]
  exact marked y mem own its

/-- A launch as it stands, changed but for its number and its abort. -/
theorem keepsAborts_again {s : State} {x z : Launch} (key : z.job = x.job ∧ z.lid = x.lid)
    (same : z.aborted = (again s x).aborted) : KeepsAborts s (setLaunch s z) := by
  refine keepsAborts_setLaunch fun known marked => ?_
  rw [key.1, key.2] at known marked
  rw [same]
  exact again_aborted known marked

theorem Launch.noteEnd_only (x : Launch) (idx : Nat) : x.noteEnd idx = { x with ends := (x.noteEnd idx).ends } := by
  unfold Launch.noteEnd
  split <;> rfl

theorem ctrInc_lsc (s : State) (j : Job) (off : Nat) : (ctrInc s j off).lsc = s.lsc := by
  unfold ctrInc ctrWr
  split <;> rfl

theorem keepsAborts_endUnit (s : State) (x : Launch) (u : UnitRec) (status code code2 detail ebits ej : Nat) :
    KeepsAborts s (endUnit s (again s x) u status code code2 detail ebits ej) := by
  obtain ⟨own, its⟩ := again_key s x
  refine KeepsAborts.trans (keepsAborts_again (x := x) (z := { (again s x).noteEnd u.idx with
    units := (again s x).units.map fun y => if y.idx = u.idx then
      { u with state := .ended, status := status, code := code, saved := [], spad := [] } else y
    ebits := (again s x).ebits + ebits, ej := (again s x).ej + ej }) ?_ ?_) ?_
  · rw [Launch.noteEnd_only]; exact ⟨own, its⟩
  · rw [Launch.noteEnd_only]
  · unfold endUnit
    dsimp only
    split
    · exact .of_lists (by rw [queueRec, ctrInc_lsc]) (by rw [queueRec, ctrInc_lsc])
    · exact .of_lists rfl rfl

theorem keepsAborts_cancelUnit (s : State) (x : Launch) (saved : Nat) (u : UnitRec) : KeepsAborts s (cancelUnit s x saved u) := by
  unfold cancelUnit
  cases u.state
  case running | stopped => exact .modCore ..
  case ended => exact .of_lists rfl rfl
  all_goals
    cases u.saved with
    | nil => exact keepsAborts_endUnit ..
    | cons c rest => exact keepsAborts_endUnit ..

theorem keepsAborts_cancelUnits (s : State) (x : Launch) : KeepsAborts s (cancelUnits s x) :=
  .foldl (fun t u => keepsAborts_cancelUnit t x 4 u) ..

theorem keepsAborts_cancelLaunch (s : State) (x : Launch) : KeepsAborts s (cancelLaunch s (again s x)) := by
  unfold cancelLaunch
  split
  · exact .of_lists rfl rfl
  · refine KeepsAborts.trans ?_ (keepsAborts_cancelUnits _ _)
    exact (keepsAborts_again (x := x) (z := { again s x with state := .cancelled }) (again_key s x) rfl).trans (.of_lists rfl rfl)

/-- A running member of an aborted gang hears of it. -/
def hearAbort (gang : Nat) (s : State) (u : UnitRec) : State :=
  if u.state = .running then
    modCore s u.core (fun c => if c.run = .running then c.hearEvent (eventRec 0x19 gang) else c)
  else s

/-- A launch as its gang is aborted. -/
def abortMember (job gang : Nat) (s : State) (x : Launch) : State :=
  if x.job = job ∧ x.gang = gang ∧ !x.isOver then
    let s2 := setLaunch s { again s x with aborted := true }
    if x.state = .running then x.units.foldl (hearAbort gang) s2 else cancelLaunch s2 (again s2 x)
  else s

theorem abortGang_open {s : State} {job gang : Nat}
    (open_ : (gangOf s job gang).committed = false ∧ (gangOf s job gang).aborted = false) : abortGang s job gang =
      s.lsc.launches.foldl (abortMember job gang) (putGang s { gangOf s job gang with aborted := true }) := by
  have free : ¬ ((gangOf s job gang).committed || (gangOf s job gang).aborted) = true := by simp [open_.1, open_.2]
  exact if_neg free

theorem keepsAborts_hearAbort (gang : Nat) (s : State) (u : UnitRec) : KeepsAborts s (hearAbort gang s u) := by
  unfold hearAbort
  split
  · exact .modCore ..
  · exact .of_lists rfl rfl

/-- What follows the mark of an aborted launch. -/
theorem keepsAborts_marked (gang : Nat) (s : State) (x : Launch) :
    KeepsAborts s (if x.state = .running then x.units.foldl (hearAbort gang) s else cancelLaunch s (again s x)) := by
  split
  · exact .foldl (keepsAborts_hearAbort gang) ..
  · exact keepsAborts_cancelLaunch s x

theorem keepsAborts_abortMember (job gang : Nat) (s : State) (x : Launch) : KeepsAborts s (abortMember job gang s x) := by
  unfold abortMember
  split
  · exact (keepsAborts_setLaunch fun _ _ => rfl).trans (keepsAborts_marked gang _ x)
  · exact .of_lists rfl rfl

/-- A live launch of the gang that is listed is aborted. -/
theorem abortMember_aborts {s : State} {job gang : Nat} {x : Launch} (own : x.job = job ∧ x.gang = gang ∧ x.isOver = false)
    (known : listed s x.job x.lid) : abortedAll (abortMember job gang s x) x.job x.lid := by
  have mine : x.job = job ∧ x.gang = gang ∧ (!x.isOver) = true := by simpa using own
  rw [abortMember, if_pos mine]
  refine (keepsAborts_marked gang _ x).aborts _ _ ((listed_setLaunch ..).2 known) fun y mem itsJob itsLid => ?_
  obtain ⟨z, old, rfl⟩ := mem_setLaunch.1 mem
  obtain ⟨job_, lid_⟩ := again_key s x
  split at itsJob
  · next same => rw [if_pos same]
  · next other =>
    rw [if_neg other] at itsLid
    exact absurd ⟨itsJob.trans job_.symm, itsLid.trans lid_.symm⟩ other

/-- Every live launch of the gang is aborted (R415). -/
theorem abortGang_aborts {s : State} {job gang : Nat}
    (open_ : (gangOf s job gang).committed = false ∧ (gangOf s job gang).aborted = false) {x : Launch}
    (mem : x ∈ s.lsc.launches) (own : x.job = job ∧ x.gang = gang ∧ x.isOver = false) :
    ∃ y ∈ (abortGang s job gang).lsc.launches, y.job = job ∧ y.lid = x.lid ∧ y.aborted = true := by
  have start : listed (putGang s { gangOf s job gang with aborted := true }) x.job x.lid := ⟨x, mem, rfl, rfl⟩
  have keeps := KeepsAborts.foldl (keepsAborts_abortMember job gang) s.lsc.launches
    (putGang s { gangOf s job gang with aborted := true })
  have aborts := foldl_reaches (P := fun t => listed t x.job x.lid → abortedAll t x.job x.lid) mem
    (f := abortMember job gang) (fun t known => abortMember_aborts own
      (((keepsAborts_abortMember job gang t x).launches _ _).1 known))
    (fun t y _ ih known => (keepsAborts_abortMember job gang t y).aborts _ _
      (((keepsAborts_abortMember job gang t y).launches _ _).1 known)
      (ih (((keepsAborts_abortMember job gang t y).launches _ _).1 known)))
    (putGang s { gangOf s job gang with aborted := true })
  rw [abortGang_open open_]
  obtain ⟨y, here, itsJob, itsLid⟩ := (keeps.launches _ _).2 start
  exact ⟨y, here, itsJob.trans own.1, itsLid, aborts ((keeps.launches _ _).2 start) y here itsJob itsLid⟩

theorem gangOf_key (s : State) (job gang : Nat) : (gangOf s job gang).job = job ∧ (gangOf s job gang).num = gang := by
  unfold gangOf
  cases found : s.lsc.gangs.find? (fun g => g.job = job ∧ g.num = gang) with
  | none => exact ⟨rfl, rfl⟩
  | some g => simpa using List.find?_some found

/-- The gang is aborted (R415). -/
theorem abortGang_marks {s : State} {job gang : Nat}
    (open_ : (gangOf s job gang).committed = false ∧ (gangOf s job gang).aborted = false) :
    ∃ g ∈ (abortGang s job gang).lsc.gangs, g.job = job ∧ g.num = gang ∧ g.aborted = true := by
  have keeps := KeepsAborts.foldl (keepsAborts_abortMember job gang) s.lsc.launches
    (putGang s { gangOf s job gang with aborted := true })
  obtain ⟨job_, num_⟩ := gangOf_key s job gang
  rw [abortGang_open open_, keeps.gangs]
  exact ⟨_, mem_putGang s _, job_, num_, rfl⟩

/-- A property of every gang so named, and of one not known yet, is one of the gang as the coordinator knows it. -/
theorem gangOf_of_forall {P : Gang → Prop} {s : State} {job gang : Nat}
    (all : ∀ g ∈ s.lsc.gangs, g.job = job → g.num = gang → P g)
    (fresh : (∀ g ∈ s.lsc.gangs, ¬ (g.job = job ∧ g.num = gang)) → P (Gang.fresh job gang)) : P (gangOf s job gang) := by
  unfold gangOf
  cases found : s.lsc.gangs.find? (fun g => g.job = job ∧ g.num = gang) with
  | none => exact fresh (by simpa [List.find?_eq_none] using found)
  | some g =>
    have own : g.job = job ∧ g.num = gang := by simpa using List.find?_some found
    exact all g (List.mem_of_find?_eq_some found) own.1 own.2

/-- A gang that has committed is not aborted (R415). -/
theorem abortGang_committed {s : State} {job gang : Nat} (committed : (gangOf s job gang).committed = true) :
    abortGang s job gang = s := by
  rw [abortGang, committed]
  rfl

/-- A gang that is listed is the one that the coordinator knows. -/
theorem gangOf_found {s : State} {job gang : Nat} {g : Gang}
    (found : g ∈ s.lsc.gangs.find? (fun y => y.job = job ∧ y.num = gang)) : gangOf s job gang = g := by
  rw [gangOf, Option.mem_def.1 found]
  rfl

/-- Where every gang so named is open, the one that the coordinator knows is. -/
theorem gangOf_open {s : State} {job gang : Nat}
    (all : ∀ g ∈ s.lsc.gangs, g.job = job → g.num = gang → g.committed = false ∧ g.aborted = false) :
    (gangOf s job gang).committed = false ∧ (gangOf s job gang).aborted = false :=
  gangOf_of_forall (P := fun g => g.committed = false ∧ g.aborted = false) all fun _ => ⟨rfl, rfl⟩

theorem abortGang_past {s : State} {job gang : Nat} (has : ∃ g ∈ s.lsc.gangs, g.job = job ∧ g.num = gang)
    (committed : ∀ g ∈ s.lsc.gangs, g.job = job → g.num = gang → g.committed = true) : abortGang s job gang = s := by
  obtain ⟨g, mem, own⟩ := has
  exact abortGang_committed (gangOf_of_forall (P := (·.committed = true)) committed fun none_ => absurd own (none_ g mem))

end Sys2Proof.Machine
end

section
/-! O50, the sieves (R371-R373, R387), and the budgets of work spans (R406). -/

namespace Sys2Proof.Machine
open Sys2Proof.Stmt

/-! ### The vote on replica digests (R371) -/

/-- The number whose bits are the places of a list that differ from v. -/
theorem minority_eq {α : Type} [DecidableEq α] (l : List α) (v : α) :
    l.zipIdx.foldl (fun a x => if x.1 = v then a else a + 2 ^ x.2) 0 =
      flagBits (fun i => (l[i]?).any (fun d => decide (d ≠ v))) l.length := by
  induction l using List.reverseRecOn with
  | nil => rfl
  | append_singleton l d ih =>
    have before : flagBits (fun i => ((l ++ [d])[i]?).any (fun d => decide (d ≠ v))) l.length =
        flagBits (fun i => (l[i]?).any (fun d => decide (d ≠ v))) l.length := by
      refine List.foldl_ext _ _ _ fun a i mem => ?_
      beta_reduce
      rw [List.getElem?_append_left (List.mem_range.1 mem)]
    have last : ((l ++ [d])[l.length]?).any (fun d => decide (d ≠ v)) = decide (d ≠ v) := by simp
    rw [List.zipIdx_append, List.foldl_append, ih, List.length_append, List.length_singleton, flagBits_succ, before, last]
    by_cases same : d = v <;> simp [same]

theorem testBit_minority {α : Type} [DecidableEq α] (l : List α) (v : α) (a : Nat) :
    Nat.testBit (l.zipIdx.foldl (fun a x => if x.1 = v then a else a + 2 ^ x.2) 0) a = (l[a]?).any (fun d => decide (d ≠ v)) := by
  rw [minority_eq, testBit_flagBits]
  by_cases inside : a < l.length
  · simp [inside]
  · simp [List.getElem?_eq_none (Nat.le_of_not_lt inside)]

/-- Two values cannot both be held by most of a list. -/
theorem majority_unique {α : Type} [BEq α] [LawfulBEq α] {l : List α} {v w : α} (hv : l.length < 2 * l.count v)
    (hw : l.length < 2 * l.count w) : v = w := by
  by_contra apart
  have others : l.count w ≤ l.countP (fun x => ¬ (x == v) = true) :=
    List.countP_mono_left fun x _ same => by
      have is_ : x = w := by simpa using same
      simpa [is_] using Ne.symm apart
  have all : l.length = l.count v + l.countP (fun x => ¬ (x == v) = true) := List.length_eq_countP_add_countP _
  omega

theorem all_headD_iff (l : List (Word × Word)) :
    (l.all fun x => x = l.headD (0, 0)) = true ↔ ∀ x ∈ l, ∀ y ∈ l, x = y := by
  cases l with
  | nil => simp
  | cons d l =>
    rw [List.all_eq_true, List.headD_cons]
    exact ⟨fun all x hx y hy => (of_decide_eq_true (all x hx)).trans (of_decide_eq_true (all y hy)).symm,
      fun all x hx => decide_eq_true (all x hx d List.mem_cons_self)⟩

theorem vote_equal {l : List (Word × Word)} (equal : ∀ x ∈ l, ∀ y ∈ l, x = y) : vote l = (1, 0, l.headD (0, 0)) :=
  if_pos ((all_headD_iff l).2 equal)

/-- The value that most of the digests have, where there is one. -/
def majority (l : List (Word × Word)) : Option (Word × Word) := l.find? fun x => l.length < 2 * l.count x

theorem vote_unequal {l : List (Word × Word)} (unequal : ¬ ∀ x ∈ l, ∀ y ∈ l, x = y) : vote l =
    match majority l with
    | some v => if 3 ≤ l.length then (2, l.zipIdx.foldl (fun a x => if x.1 = v then a else a + 2 ^ x.2) 0, v) else (3, 0, (0, 0))
    | none => (3, 0, (0, 0)) := by
  have count : (fun x => decide (l.length < 2 * (l.filter (fun y => decide (y = x))).length)) =
      fun x => decide (l.length < 2 * l.count x) := by
    funext x
    simp only [List.count, List.countP_eq_length_filter, beq_eq_decide]
  rw [vote, if_neg ((all_headD_iff l).not.2 unequal), count]
  rfl

theorem majority_most {l : List (Word × Word)} {v : Word × Word} (found : majority l = some v) : l.length < 2 * l.count v :=
  of_decide_eq_true (List.find?_some (p := fun x => decide (l.length < 2 * l.count x)) found)

theorem majority_eq {l : List (Word × Word)} {v : Word × Word} (mem : v ∈ l) (most : l.length < 2 * l.count v) :
    majority l = some v := by
  obtain ⟨w, found⟩ : ∃ w, majority l = some w :=
    Option.isSome_iff_exists.1 (List.find?_isSome.2 ⟨v, mem, decide_eq_true most⟩)
  rw [found, majority_unique most (majority_most found)]

theorem vote_majority {l : List (Word × Word)} {v : Word × Word} (unequal : ¬ ∀ x ∈ l, ∀ y ∈ l, x = y) (three : 3 ≤ l.length)
    (mem : v ∈ l) (most : l.length < 2 * l.count v) :
    vote l = (2, l.zipIdx.foldl (fun a x => if x.1 = v then a else a + 2 ^ x.2) 0, v) := by
  rw [vote_unequal unequal, majority_eq mem most]
  exact if_pos three

theorem vote_split {l : List (Word × Word)} (unequal : ¬ ∀ x ∈ l, ∀ y ∈ l, x = y)
    (none_ : l.length < 3 ∨ ∀ v ∈ l, 2 * l.count v ≤ l.length) : vote l = (3, 0, (0, 0)) := by
  rw [vote_unequal unequal]
  cases found : majority l with
  | none => rfl
  | some v =>
    have most := majority_most found
    have few : ¬ 3 ≤ l.length := by
      obtain few | split := none_
      · omega
      · have := split v (List.mem_of_find?_eq_some found)
        omega
    exact if_neg few

/-! ### Groups and phases -/

theorem getGroup_key (s : State) (level job num : Nat) :
    (getGroup s level job num).level = level ∧ (getGroup s level job num).job = job ∧ (getGroup s level job num).num = num := by
  unfold getGroup
  cases found : s.lsc.groups.find? (fun x => x.level = level ∧ x.job = job ∧ x.num = num) with
  | none => exact ⟨rfl, rfl, rfl⟩
  | some g => simpa using List.find?_some found

/-- In a list in which each item with a key was replaced by one that has it, that one is found by the key. -/
theorem find_replace {α κ : Type} [DecidableEq κ] (key : α → κ) (x : α) (l : List α) (k : κ) :
    (l.map fun y => if key y = key x then x else y).find? (fun y => key y = k) =
      if key x = k then (l.find? fun y => key y = k).map (fun _ => x) else l.find? (fun y => key y = k) := by
  induction l with
  | nil => simp
  | cons y l ih => rw [List.map_cons, List.find?_cons, List.find?_cons, ih]; grind

/-- An item replaced, or added at the end, is found by its key. -/
theorem find_replace_or_add {α κ : Type} [DecidableEq κ] (key : α → κ) (x : α) (l : List α) (k : κ) :
    (if l.any (fun y => key y = key x) then l.map fun y => if key y = key x then x else y else l ++ [x]).find?
      (fun y => key y = k) = if key x = k then some x else l.find? (fun y => key y = k) := by
  split
  · next has =>
    obtain ⟨y, mem, same⟩ := List.any_eq_true.1 has
    rw [find_replace]
    by_cases own : key x = k
    · subst own
      obtain ⟨z, found⟩ := Option.isSome_iff_exists.1 (List.find?_isSome (p := fun y => decide (key y = key x)).2 ⟨y, mem, same⟩)
      rw [if_pos rfl, if_pos rfl, found]
      rfl
    · rw [if_neg own, if_neg own]
  · next lacks =>
    rw [List.find?_append]
    by_cases own : key x = k
    · subst own
      have none_ : l.find? (fun y => key y = key x) = none := by simpa [List.find?_eq_none] using lacks
      simp [none_]
    · simp [own]

/-- A group's or phase's place among them. -/
def Group.key (g : Group) : Nat × Nat × Nat := (g.level, g.job, g.num)

theorem getGroup_eq (s : State) (level job num : Nat) : getGroup s level job num =
    (s.lsc.groups.find? (fun x => x.key = (level, job, num))).getD (Group.fresh level job num) := by
  simp only [getGroup, Group.key, Prod.mk.injEq]

theorem putGroup_groups (s : State) (g : Group) : (putGroup s g).lsc.groups =
    if s.lsc.groups.any (fun y => y.key = g.key) then s.lsc.groups.map fun y => if y.key = g.key then g else y
    else s.lsc.groups ++ [g] := by
  have each (y : Group) :
      (decide (y.level = g.level) && decide (y.job = g.job) && decide (y.num = g.num)) = decide (y.key = g.key) := by
    rw [Bool.eq_iff_iff]
    simp [Group.key, and_assoc]
  simp only [putGroup, each, decide_eq_true_eq]

/-- A group or phase after one was put. -/
theorem getGroup_putGroup (s : State) (g : Group) (level job num : Nat) : getGroup (putGroup s g) level job num =
    if g.level = level ∧ g.job = job ∧ g.num = num then g else getGroup s level job num := by
  have own : g.key = (level, job, num) ↔ g.level = level ∧ g.job = job ∧ g.num = num := by
    rw [Group.key, Prod.mk.injEq, Prod.mk.injEq]
  rw [getGroup_eq, putGroup_groups, find_replace_or_add, getGroup_eq, apply_ite (Option.getD · _)]
  exact if_congr own rfl rfl

/-! ### SIEVE_VOTE (R371, R372) -/

/-- The digests reported for k of a group. -/
def instDigests (s : State) (job cgid k : Nat) : List Digest := s.digests.filter (fun d => d.job = job ∧ d.cgid = cgid ∧ d.inst = k)

/-- A member of a group that lives here. -/
def inGroup (job cgid : Nat) (c : Core) : Bool := c.job = job && c.run != .idle && c.groups.any (fun g => g.cgid = cgid)

/-- The live launches of a group. -/
def groupLaunches (s : State) (job cgid : Nat) : List Launch :=
  s.lsc.launches.filter (fun x => x.job = job && x.cgs.any (fun g => g.1 = cgid) && !x.isOver)

/-- The vote on them (R371). -/
def voted (s : State) (job cgid k : Nat) : Nat × Nat × (Word × Word) := vote (replicas s job cgid k)

/-- The record of divergence that a core of a diverged launch hears (R373). -/
def sieveRec (s : State) (job cgid k : Nat) (c : Core) : FaultRec :=
  divergeRec (instDigests s job cgid k) (((instDigests s job cgid k).head?.map (·.nr)).getD 1) cgid k (voted s job cgid k)
    (c.group cgid)

/-- A core after the vote: a member shows it, and a unit of a diverged launch hears of it (R372). -/
def sieveCore (s : State) (job cgid k : Nat) (c : Core) : Core :=
  let c1 := if inGroup job cgid c then takeVote cgid k (voted s job cgid k) c else c
  if decide ((voted s job cgid k).1 ≠ 1) && c.job = job && c.run != .idle &&
      (groupLaunches s job cgid).any (fun x => x.lid = c.lid) then
    diverge (sieveRec s job cgid k c) (inGroup job cgid c) c1
  else c1

/-- A launch after the vote. -/
def sieveLaunch (s : State) (job cgid k : Nat) (x : Launch) : Launch :=
  if x.job = job then { x with
    diverged := x.diverged || (decide ((voted s job cgid k).1 ≠ 1) && x.cgs.any (fun g => g.1 = cgid) && !x.isOver)
    units := x.units.map (fun u => { u with saved := u.saved.map (takeVote cgid k (voted s job cgid k)) }) }
  else x

/-- The state after the vote, but for the phases that it diverges. -/
def sieved (s : State) (job cgid k : Nat) : State :=
  { s with
    core := sieveCore s job cgid k s.core, others := s.others.map (sieveCore s job cgid k)
    digests := s.digests.filter (fun d => !(d.job = job && d.cgid = cgid && d.inst = k))
    lsc := { s.lsc with launches := s.lsc.launches.map (sieveLaunch s job cgid k) } }

/-- The phase of a diverged launch diverges, unless it has ended. -/
def divergePhase (job : Nat) (s : State) (x : Launch) : State :=
  if (getGroup s 3 job x.phase).isOver then s else putGroup s { getGroup s 3 job x.phase with diverged := true }

/-- The state after the vote. -/
def afterVote (s : State) (job cgid k : Nat) : State :=
  if (voted s job cgid k).1 = 1 then sieved s job cgid k
  else (groupLaunches s job cgid).foldl (divergePhase job) (sieved s job cgid k)

theorem exec_sieveVote {s : State} {job cgid k : Nat} (ripe : ripeInstance s job cgid = some k) : exec (.sieveVote job cgid) s =
    if (voted s job cgid k).1 = 1 then .next (afterVote s job cgid k) else .next (afterLsc (afterVote s job cgid k)) := by
  have runs : exec (.sieveVote job cgid) s = if (!decide ((voted s job cgid k).1 ≠ 1)) = true then .next (sieved s job cgid k)
      else .next (afterLsc ((groupLaunches s job cgid).foldl (divergePhase job) (sieved s job cgid k))) := by
    rw [exec, execSieveVote, ripe]
    rfl
  rw [runs, afterVote]
  by_cases agree : (voted s job cgid k).1 = 1 <;> simp [agree]

/-! What the vote changes. -/

theorem divergePhase_only (job : Nat) (s : State) (x : Launch) :
    divergePhase job s x = { s with lsc := { s.lsc with groups := (divergePhase job s x).lsc.groups } } := by
  unfold divergePhase
  split <;> rfl

theorem divergePhases_only (job : Nat) (l : List Launch) (s : State) : l.foldl (divergePhase job) s =
    { s with lsc := { s.lsc with groups := (l.foldl (divergePhase job) s).lsc.groups } } := by
  induction l generalizing s with
  | nil => rfl
  | cons x l ih => rw [List.foldl_cons, ih, divergePhase_only]

theorem afterVote_only (s : State) (job cgid k : Nat) : afterVote s job cgid k =
    { sieved s job cgid k with lsc := { (sieved s job cgid k).lsc with groups := (afterVote s job cgid k).lsc.groups } } := by
  unfold afterVote
  split
  · rfl
  · exact divergePhases_only ..

theorem sieved_digests (s : State) (job cgid k : Nat) :
    (sieved s job cgid k).digests = s.digests.filter (fun d => ¬ (d.job = job ∧ d.cgid = cgid ∧ d.inst = k)) := by
  refine List.filter_congr fun d _ => ?_
  rw [Bool.eq_iff_iff]
  simp [or_assoc]

section
variable {s : State} {job cgid k : Nat} {c : Core}

theorem diverge_dones (f : FaultRec) (own : Bool) : (diverge f own c).dones = c.dones := by
  unfold diverge
  split
  · rfl
  · split <;> rfl
  · rfl

theorem diverge_groups (f : FaultRec) (own : Bool) : (diverge f own c).groups = c.groups := by
  unfold diverge
  split
  · rfl
  · split <;> rfl
  · rfl

theorem divergeRec_code (l : List Digest) (nr inst : Nat) (v : Nat × Nat × (Word × Word)) (g : Option CGroup) :
    (divergeRec l nr cgid inst v g).code = 0x18 ∧ (divergeRec l nr cgid inst v g).kind = 3 := by
  unfold divergeRec
  dsimp only
  split <;> exact ⟨rfl, rfl⟩

theorem inGroup_iff : inGroup job cgid c = true ↔ c.run ≠ .idle ∧ c.job = job ∧ ∃ g ∈ c.groups, g.cgid = cgid := by
  simp only [inGroup, Bool.and_eq_true, decide_eq_true_eq, bne_iff_ne, List.any_eq_true]
  tauto

variable (member : inGroup job cgid c = true)
include member

theorem sieveCore_dones : (sieveCore s job cgid k c).dones = c.dones.filter (fun x => x ≠ (cgid, k)) := by
  simp only [sieveCore, member, if_true]
  split
  · exact diverge_dones ..
  · rfl

theorem sieveCore_groups : (sieveCore s job cgid k c).groups = c.groups.map (fun g => if g.cgid = cgid then
    { g with vres := (voted s job cgid k).1, vgen := k % 2 ^ 16, minor := (voted s job cgid k).2.1 } else g) := by
  simp only [sieveCore, member, if_true]
  split
  · exact diverge_groups ..
  · rfl

theorem sieveCore_event_agrees (agree : (voted s job cgid k).1 = 1) : (sieveCore s job cgid k c).event = c.event := by
  simp only [sieveCore, member, agree, if_true]
  rfl

/-- A running member whose launch diverges hears of it. -/
theorem sieveCore_event_diverges (bad : (voted s job cgid k).1 ≠ 1) (runs : c.run = .running) (quiet : c.event = none)
    (hit : ∃ x ∈ groupLaunches s job cgid, x.lid = c.lid) :
    ∃ r, (sieveCore s job cgid k c).event = some r ∧ r.code = 0x18 ∧ r.kind = 3 := by
  obtain ⟨live, own, -⟩ := inGroup_iff.1 member
  have hears : (decide ((voted s job cgid k).1 ≠ 1) && c.job = job && c.run != .idle &&
      (groupLaunches s job cgid).any (fun x => x.lid = c.lid)) = true := by
    simpa [bad, own, live] using hit
  refine ⟨sieveRec s job cgid k c, ?_, divergeRec_code ..⟩
  simp only [sieveCore, hears, member, if_true]
  have running : (takeVote cgid k (voted s job cgid k) c).run = .running := runs
  have silent : (takeVote cgid k (voted s job cgid k) c).event = none := quiet
  simp only [diverge, running, Core.hearEvent, silent]

end

theorem mem_groupLaunches {s : State} {job cgid : Nat} {x : Launch} : x ∈ groupLaunches s job cgid ↔
    x ∈ s.lsc.launches ∧ x.job = job ∧ x.isOver = false ∧ ∃ g ∈ x.cgs, g.1 = cgid := by
  simp only [groupLaunches, List.mem_filter, Bool.and_eq_true, decide_eq_true_eq, Bool.not_eq_true', List.any_eq_true]
  tauto

/-- A live launch of a group that diverges is marked. -/
theorem sieved_diverges {s : State} {job cgid k : Nat} {x : Launch} (hit : x ∈ groupLaunches s job cgid)
    (bad : (voted s job cgid k).1 ≠ 1) :
    ∃ y ∈ (sieved s job cgid k).lsc.launches, y.job = job ∧ y.lid = x.lid ∧ y.diverged = true := by
  obtain ⟨mem, own, live, has⟩ := mem_groupLaunches.1 hit
  have any_ : x.cgs.any (fun g => g.1 = cgid) = true := by simpa using has
  refine ⟨sieveLaunch s job cgid k x, List.mem_map_of_mem mem, ?_⟩
  rw [sieveLaunch, if_pos own]
  exact ⟨own, rfl, by simp [bad, any_, live]⟩

/-- A phase has ended or diverged. -/
def phaseGone (job num : Nat) (s : State) : Prop := (getGroup s 3 job num).isOver = true ∨ (getGroup s 3 job num).diverged = true

theorem phaseGone_keeps {job num : Nat} {s : State} (x : Launch) (gone : phaseGone job num s) :
    phaseGone job num (divergePhase job s x) := by
  unfold divergePhase
  split
  · exact gone
  · rw [phaseGone, getGroup_putGroup]
    split
    · exact .inr rfl
    · exact gone

theorem phaseGone_diverges (job : Nat) (s : State) (x : Launch) : phaseGone job x.phase (divergePhase job s x) := by
  unfold divergePhase
  split
  · next ended => exact .inl ended
  · rw [phaseGone, getGroup_putGroup, if_pos (getGroup_key s 3 job x.phase)]
    exact .inr rfl

/-- The phase of a live launch of a group that diverges has ended or diverges. -/
theorem afterVote_phase {s : State} {job cgid k : Nat} {x : Launch} (hit : x ∈ groupLaunches s job cgid)
    (bad : (voted s job cgid k).1 ≠ 1) : phaseGone job x.phase (afterVote s job cgid k) := by
  rw [afterVote, if_neg bad]
  exact foldl_reaches (P := phaseGone job x.phase) hit (fun t => phaseGone_diverges job t x) (fun _ y _ => phaseGone_keeps y) _

theorem runs_of_ripe {s : State} {job cgid k : Nat} (ripe : ripeInstance s job cgid = some k) :
    if (voted s job cgid k).1 = 1 then exec (.sieveVote job cgid) s = .next (afterVote s job cgid k)
    else lscTo (.sieveVote job cgid) s (afterVote s job cgid k) := by
  have runs := exec_sieveVote ripe
  split
  · next agree => exact runs.trans (if_pos agree)
  · next bad => exact runs.trans (if_neg bad)

theorem afterVote_mem (s : State) (job cgid k : Nat) : (afterVote s job cgid k).mem = s.mem := by
  rw [afterVote_only]
  rfl

theorem afterVote_core (s : State) (job cgid k : Nat) : (afterVote s job cgid k).core = sieveCore s job cgid k s.core := by
  rw [afterVote_only]
  rfl

theorem afterVote_launches (s : State) (job cgid k : Nat) :
    (afterVote s job cgid k).lsc.launches = (sieved s job cgid k).lsc.launches := by
  rw [afterVote_only]

theorem afterVote_digests (s : State) (job cgid k : Nat) :
    (afterVote s job cgid k).digests = s.digests.filter (fun d => ¬ (d.job = job ∧ d.cgid = cgid ∧ d.inst = k)) := by
  rw [afterVote_only]
  exact sieved_digests s job cgid k

/-- What the vote tells a member in the focus (R372). -/
theorem afterVote_member {s : State} {job cgid k : Nat} (member : inGroup job cgid s.core = true) :
    (afterVote s job cgid k).core.dones = s.core.dones.filter (fun x => x ≠ (cgid, k)) ∧
    (afterVote s job cgid k).core.groups = s.core.groups.map (fun g => if g.cgid = cgid then
      { g with vres := (voted s job cgid k).1, vgen := k % 2 ^ 16, minor := (voted s job cgid k).2.1 } else g) ∧
    ((voted s job cgid k).1 = 1 → (afterVote s job cgid k).core.event = s.core.event) ∧
    ((voted s job cgid k).1 ≠ 1 → s.core.run = .running → s.core.event = none →
      (∃ x ∈ s.lsc.launches, x.job = job ∧ x.lid = s.core.lid ∧ x.isOver = false ∧ ∃ g ∈ x.cgs, g.1 = cgid) →
      ∃ r, (afterVote s job cgid k).core.event = some r ∧ r.code = 0x18 ∧ r.kind = 3) := by
  rw [afterVote_core]
  refine ⟨sieveCore_dones member, sieveCore_groups member, sieveCore_event_agrees member, ?_⟩
  rintro bad runs quiet ⟨x, mem, own, its, live, group⟩
  exact sieveCore_event_diverges member bad runs quiet ⟨x, mem_groupLaunches.2 ⟨mem, own, live, group⟩, its⟩

theorem afterVote_launch {s : State} {job cgid k : Nat} {x : Launch} (hit : x ∈ groupLaunches s job cgid)
    (bad : (voted s job cgid k).1 ≠ 1) :
    ∃ y ∈ (afterVote s job cgid k).lsc.launches, y.job = job ∧ y.lid = x.lid ∧ y.diverged = true := by
  rw [afterVote_launches]
  exact sieved_diverges hit bad

/-! ### Budgets (R406, R407) -/

theorem exec_budgetExpiry {s : State} {n : Nat} (runs : (getCore s n).run = .running) (span : (getCore s n).span = true)
    (limited : (getCore s n).budget ≠ 0) (spent : (getCore s n).budget < (getCore s n).spent) (quiet : (getCore s n).event = none) :
    exec (.budgetExpiry n) s = .next (setCore s { getCore s n with
      span := false, event := some (eventRec 0x17 (getCore s n).budget) }) := by
  have hears : (getCore s n).hearEvent (eventRec 0x17 (getCore s n).budget) =
      { getCore s n with event := some (eventRec 0x17 (getCore s n).budget) } := by
    rw [Core.hearEvent, quiet]
  simp only [exec, execBudgetExpiry, hears]
  exact if_pos ⟨runs, span, limited, spent⟩

end Sys2Proof.Machine
end

section
/-! O50: barriers, exchanges and supersteps (R228, R254, R260, R387, R408), and the statement. -/

namespace Sys2Proof.Machine
open Sys2Proof.Stmt

/-! ### BARRIER_ADVANCE (R387, R408) -/

theorem hasArrived_iff (s : State) (u : UnitRec) : hasArrived s u = true ↔ u.arrived = true ∨ hasEnded s u := by
  simp only [hasArrived, hasEnded, Bool.or_eq_true, Bool.and_eq_true, beq_iff_eq, or_assoc, and_assoc]

/-- Where no core has a vote outstanding, no member of a group has. -/
theorem groupMembers_dones {s : State} (none_ : ∀ c ∈ s.core :: s.others, c.dones = []) (job cgid : Nat) :
    (groupMembers s job cgid).any (fun d => d.dones.any (fun k => k.1 = cgid)) = false := by
  rw [List.any_eq_false]
  intro c mem
  rw [none_ c (List.mem_of_mem_filter mem)]
  exact Bool.false_ne_true

theorem voteHolds_free {s : State} {x : Launch} (sound : x.diverged = false) (none_ : ∀ c ∈ s.core :: s.others, c.dones = []) :
    voteHolds s x = false := by
  simp only [voteHolds, sound, Bool.false_or, Bool.or_eq_false_iff, List.any_eq_false]
  refine ⟨fun c mem => ?_, fun c _ => ?_⟩
  · rw [none_ c (List.mem_of_mem_filter mem)]
    exact Bool.false_ne_true
  · rw [Bool.not_eq_true, List.any_eq_false]
    intro g _
    rw [groupMembers_dones none_]
    exact Bool.false_ne_true

theorem voteHolds_outstanding {s : State} {x : Launch} {c : Core} (mem : c ∈ s.core :: s.others) (live : c.run ≠ .idle)
    (own : c.job = x.job ∧ c.lid = x.lid) (held : c.dones ≠ []) : voteHolds s x = true := by
  have mine : c ∈ (s.core :: s.others).filter (fun c => c.run != .idle && c.job = x.job && c.lid = x.lid) :=
    List.mem_filter.2 ⟨mem, by simp [live, own.1, own.2]⟩
  have some_ : (!c.dones.isEmpty) = true := by simpa using held
  rw [voteHolds, List.any_eq_true.2 ⟨c, mine, some_⟩, Bool.or_true, Bool.true_or]

section
variable {s : State} {x : Launch} (known : getLaunch s x.job x.lid = some x)
include known

/-- The barrier advances where every unit has arrived or ended and no vote holds it. -/
theorem exec_barrierAdvance (live : x.isOver = false) (some_ : ∃ u ∈ x.units, u.arrived = true)
    (all : ∀ u ∈ x.units, u.arrived = true ∨ hasEnded s u) (free : voteHolds s x = false) (ms : List Move) :
    exec (.barrierAdvance x.job ⟨x.lid, ms⟩) s = .next (setLaunch (makeMoves s x ms) (advanced x)) := by
  have any_ : x.units.any (·.arrived) = true := List.any_eq_true.2 some_
  have each : x.units.all (hasArrived s) = true := List.all_eq_true.2 fun u mem => (hasArrived_iff s u).2 (all u mem)
  simp only [exec, execBarrierAdvance, known]
  exact if_neg (by simp [live, any_, each, free])

theorem exec_barrierAdvance_held (held : voteHolds s x = true) (ms : List Move) :
    exec (.barrierAdvance x.job ⟨x.lid, ms⟩) s = .next s := by
  simp only [exec, execBarrierAdvance, known]
  exact if_pos (.inr (.inr (.inr held)))

theorem exec_barrierAdvance_waits (waits : ∃ u ∈ x.units, u.arrived = false ∧ ¬ hasEnded s u) (ms : List Move) :
    exec (.barrierAdvance x.job ⟨x.lid, ms⟩) s = .next s := by
  obtain ⟨u, mem, still, runs⟩ := waits
  have late : x.units.all (hasArrived s) = false := by
    rw [List.all_eq_false]
    refine ⟨u, mem, ?_⟩
    rw [hasArrived_iff, still]
    simpa using runs
  simp only [exec, execBarrierAdvance, known]
  exact if_pos (.inr (.inr (.inl (by rw [late]; rfl))))

end

/-! ### Contents that move to other frames (R254, R260) -/

theorem makeMoves_nil (s : State) (x : Launch) : makeMoves s x [] = s := by
  change { s with lsc := { s.lsc with moves := s.lsc.moves ++ [] } } = s
  rw [List.append_nil]

/-- The bytes listed in a stretch, by their offsets in it. -/
def stretch (m : List Host.Cell) (a n : Nat) : List Host.Cell :=
  (m.filter (fun z => a ≤ z.1 && z.1 < a + n)).map fun z => (z.1 - a, z.2)

theorem mem_stretch {m : List Host.Cell} {a n : Nat} {z : Host.Cell} :
    z ∈ stretch m a n ↔ z.1 < n ∧ (a + z.1, z.2) ∈ m := by
  simp only [stretch, List.mem_map, List.mem_filter, Bool.and_eq_true, decide_eq_true_eq]
  constructor
  · rintro ⟨y, ⟨mem, low, high⟩, rfl⟩
    refine ⟨by dsimp only; omega, ?_⟩
    rwa [show a + (y.1 - a) = y.1 by omega]
  · rintro ⟨small, mem⟩
    exact ⟨(a + z.1, z.2), ⟨mem, Nat.le_add_right .., by dsimp only; omega⟩, by rw [Nat.add_sub_cancel_left]⟩

/-- Canonical memory lists each byte of a stretch once. -/
theorem nodup_stretch {m : List Host.Cell} (wf : Memory.wf m = true) (a n : Nat) : ((stretch m a n).map (·.1)).Nodup := by
  have keys := ((tabWf_iff _ _).1 wf).1
  rw [stretch, List.map_map, List.Nodup, List.pairwise_map]
  refine (keys.filter _).imp_of_mem fun {y z} hy _ less => ?_
  obtain ⟨low, -⟩ : a ≤ y.1 ∧ y.1 < a + n := by simpa using (List.mem_filter.1 hy).2
  exact fun same => by dsimp only [Function.comp_apply] at same; omega

theorem copyRun_mem (s0 s : State) (a b n : Nat) :
    (copyRun s0 s a b n).mem = putAll 0 (b + ·) (zeroRuns s [(b, n)]).mem (stretch s0.mem a n) := by
  rw [putAll, stretch, List.foldl_map]
  rfl

/-- What stands in a stretch of canonical memory stands elsewhere after a copy, and nothing else changes. -/
theorem rd8_copyRun {s : State} (wf : s.MemWf) (a b n p : Nat) : rd8 (copyRun s s a b n).mem p =
    if b ≤ p ∧ p < b + n then rd8 s.mem (a + (p - b)) else rd8 s.mem p := by
  have zeros := rd8_zeroRuns s [(b, n)] p
  simp only [List.mem_singleton, exists_eq_left] at zeros
  rw [copyRun_mem, rd8]
  by_cases inside : b ≤ p ∧ p < b + n
  · rw [if_pos inside]
    by_cases blank : rd8 s.mem (a + (p - b)) = 0
    · have none_ : ∀ z ∈ stretch s.mem a n, b + z.1 ≠ p := by
        rintro z mem rfl
        obtain ⟨here, value⟩ := (mem_iff_tget wf _).1 (mem_stretch.1 mem).2
        rw [Nat.add_sub_cancel_left] at blank
        exact value (here.symm.trans blank)
      rw [tget_putAll_other _ _ none_, blank]
      exact zeros.trans (if_pos inside)
    · have mem : (p - b, rd8 s.mem (a + (p - b))) ∈ stretch s.mem a n :=
        mem_stretch.2 ⟨by dsimp only; omega, (mem_iff_tget wf _).2 ⟨rfl, blank⟩⟩
      have read := tget_putAll_mem 0 (add_right_injective b) (nodup_stretch wf a n) mem (zeroRuns s [(b, n)]).mem
      rwa [show b + (p - b) = p by omega] at read
  · have none_ : ∀ z ∈ stretch s.mem a n, b + z.1 ≠ p := by
      rintro z mem rfl
      exact inside ⟨Nat.le_add_right .., Nat.add_lt_add_left (mem_stretch.1 mem).1 b⟩
    rw [if_neg inside, tget_putAll_other _ _ none_]
    exact zeros.trans (if_neg inside)

/-- The frames that the moves of one extent carry over. -/
theorem makeMoves_one {s : State} {x : Launch} {m : Move} {e : Extent} (of_ : moveExtent s x m = some e)
    (fits : moveFits s e m = true) (kept : m.evict = false) (plain : e.cmp = false ∧ m.cmp = false) :
    makeMoves s x [m] = { copyRun s s e.pbase m.pbase e.len with
      lsc := { s.lsc with moves := s.lsc.moves ++ [(x.job, x.lid, m)] } } := by
  obtain ⟨whole, target⟩ := plain
  simp only [makeMoves, List.filter_cons, of_, fits, if_true, List.filter_nil, List.filterMap_cons, kept, Bool.false_eq_true, if_false,
    Option.map_some, List.filterMap_nil, List.dedup_cons_of_notMem List.not_mem_nil, List.dedup_nil, List.foldl_cons, List.foldl_nil,
    moveFrames, whole, target, Bool.false_and, Bool.not_false, Bool.and_self]
  rfl

/-! ### The next superstep (R228, R254) -/

/-- The changes of a unit's table that the exchange has made. -/
def ownMoves (s : State) (c : Core) : List (Nat × Nat × Move) :=
  s.lsc.moves.filter (fun y => y.1 = c.job ∧ y.2.1 = c.lid ∧ y.2.2.unit = c.unit)

/-- An extent that has been serviced is present. -/
def Extent.serve (e : Extent) : Extent := if e.serviced then { e with abs := false, serviced := false } else e

/-- One change of a unit's table takes effect. -/
def moveIn (t : List Extent) (m : Move) : List Extent :=
  match t[m.ext]? with | some e => t.set m.ext (e.moved m) | none => t

theorem Extent.serve_eq (e : Extent) : e.serve = { e with abs := e.abs && !e.serviced, serviced := false } := by
  unfold Extent.serve
  split
  · next h => rw [h, Bool.not_true, Bool.and_false]
  · next h => rw [Bool.not_eq_true] at h; rw [h, Bool.not_false, Bool.and_true]; cases e; cases h; rfl

theorem Extent.moved_serve (e : Extent) (m : Move) : e.serve.moved m =
    if m.evict then { e.serve with abs := true, requested := false }
    else { e.serve with pbase := m.pbase, cmp := m.cmp, expt := m.expt } := by
  rw [Extent.moved, Extent.serve_eq]

theorem moveIn_other {t : List Extent} {m : Move} {i : Nat} (h : m.ext ≠ i) : (moveIn t m)[i]? = t[i]? := by
  unfold moveIn
  split
  · exact List.getElem?_set_ne h
  · rfl

theorem moveIn_same {t : List Extent} {m : Move} {e : Extent} (h : t[m.ext]? = some e) :
    (moveIn t m)[m.ext]? = some (e.moved m) := by
  rw [moveIn, h]
  exact List.getElem?_set_self (List.getElem?_eq_some_iff.1 h).1

/-- A unit's table as its next superstep begins. -/
def nextTable (s : State) (c : Core) : List Extent := (ownMoves s c).foldl (fun t y => moveIn t y.2.2) (c.extents.map Extent.serve)

theorem nextSuperstep_eq {s : State} {c : Core} (own : c.num = s.core.num) : nextSuperstep s c = { s with
    core := { c with supers := c.supers + 1, span := true, spent := 0, extents := nextTable s c }
    lsc := { s.lsc with moves := s.lsc.moves.filter (fun y => ¬ (y.1 = c.job ∧ y.2.1 = c.lid ∧ y.2.2.unit = c.unit)) } } := by
  have mine (y : Nat × Nat × Move) : (decide (y.1 = c.job) && decide (y.2.1 = c.lid) && decide (y.2.2.unit = c.unit)) =
      decide (y.1 = c.job ∧ y.2.1 = c.lid ∧ y.2.2.unit = c.unit) := by
    rw [Bool.eq_iff_iff]
    simp [and_assoc]
  have stays (y : Nat × Nat × Move) : (!decide (y.1 = c.job ∧ y.2.1 = c.lid ∧ y.2.2.unit = c.unit)) =
      decide (¬ (y.1 = c.job ∧ y.2.1 = c.lid ∧ y.2.2.unit = c.unit)) := decide_not.symm
  simp only [nextSuperstep, mine, stays, setCore, own, if_true]
  rfl

/-- An extent that no change concerns is present once serviced (R228). -/
theorem nextTable_other {s : State} {c : Core} {i : Nat} {e : Extent} (here : c.extents[i]? = some e)
    (others : ∀ y ∈ ownMoves s c, y.2.2.ext ≠ i) : (nextTable s c)[i]? = some e.serve := by
  refine foldl_keeps (P := fun t => t[i]? = some e.serve) _ (fun t y mem same => ?_) (by simp [here])
  rw [moveIn_other (others y mem), same]

/-- The one change of an extent takes effect (R254). -/
theorem nextTable_moved {s : State} {c : Core} {m : Move} {e : Extent} (here : c.extents[m.ext]? = some e)
    (one : ownMoves s c = [(c.job, c.lid, m)]) : (nextTable s c)[m.ext]? = some (e.serve.moved m) := by
  rw [nextTable, one]
  exact moveIn_same (by simp [here])

/-- Settles O50: the barrier (`exec_barrierAdvance`), what moves with it (`rd8_copyRun`), the next superstep (`nextSuperstep_eq`),
budgets, votes (`vote_majority`, `afterVote_only`), and gangs (`countAck`, `abortGang_aborts`). -/
theorem votesAndBarriers : Obligations.VotesAndBarriers := by
  unfold Obligations.VotesAndBarriers
  refine ⟨?_, ?_, ?_, ?_, ?_, ?_, ?_, ?_, ?_⟩
  · intro s x known live sound some_ all none_
    have advances := exec_barrierAdvance known live some_ all (voteHolds_free sound none_)
    have still := advances []
    rw [makeMoves_nil] at still
    refine ⟨still, fun m e of_ fits kept whole target wf => ?_⟩
    have moved := makeMoves_one of_ fits kept ⟨whole, target⟩
    refine ⟨_, advances [m], ?_⟩
    rw [moved]
    exact ⟨rfl, rfl, rfl, rd8_copyRun wf e.pbase m.pbase e.len⟩
  · rintro s x known (bad | ⟨c, mem, live, own, its, held⟩ | waits) ms
    · exact exec_barrierAdvance_held known (by rw [voteHolds, bad]; rfl) ms
    · exact exec_barrierAdvance_held known (voteHolds_outstanding mem live ⟨own, its⟩ held) ms
    · exact exec_barrierAdvance_waits known waits ms
  · intro s c own mine t
    have next : t = _ := nextSuperstep_eq own
    rw [next]
    refine ⟨rfl, rfl, rfl, rfl, fun i e here => ?_⟩
    rw [← e.serve_eq]
    refine ⟨nextTable_other here, ?_⟩
    rintro m one rfl
    rw [← e.moved_serve]
    exact nextTable_moved here one
  · intro s n c
    exact exec_budgetExpiry
  · intro l _
    refine ⟨fun equal => ?_, fun unequal => ⟨fun three v mem most => ?_, fun none_ => ?_⟩⟩
    · rw [vote_equal equal]
      exact ⟨rfl, rfl⟩
    · rw [vote_majority unequal three mem most]
      exact ⟨rfl, rfl, testBit_minority l v⟩
    · rw [vote_split unequal none_]
      exact ⟨rfl, rfl⟩
  · intro s job cgid k ripe v
    exact ⟨afterVote s job cgid k, runs_of_ripe ripe, afterVote_mem .., afterVote_digests .., fun live own has =>
      afterVote_member (inGroup_iff.2 ⟨live, own, has⟩), fun bad x mem own live group =>
      ⟨afterVote_launch (mem_groupLaunches.2 ⟨mem, own, live, group⟩) bad,
        afterVote_phase (mem_groupLaunches.2 ⟨mem, own, live, group⟩) bad⟩⟩
  · intro s job gang m g k pending alive rank new ready
    exact ⟨_, exec_gangAck_open rank ⟨pending, alive⟩ new ready, countAck_mem .., mem_countAck_next .., fun le => countAck_open _ le,
      fun last x mem own its u unit runs => countAck_commits last mem ⟨own, its⟩ unit runs⟩
  · intro s job gang m g found past rank lives
    obtain rfl : gangOf s job gang = g := gangOf_found found
    exact ⟨exec_gangAck_lives m past, fun none_ heard => ⟨_, exec_gangAck_again rank past none_ heard, countAck_mem .., mem_countAck_first ..⟩⟩
  · exact fun s job gang => ⟨abortGang s job gang, rfl, abortGang_past, fun open_ =>
      ⟨abortGang_marks (gangOf_open open_), fun x mem own its live => abortGang_aborts (gangOf_open open_) mem ⟨own, its, live⟩⟩⟩

end Sys2Proof.Machine
end

section
/-! Canonical memory (R243, R244, log 1) under the operations that every meaning goes through: what writes memory keeps it
canonical, what changes another part of the state leaves it as it is. One lemma per operation, `(f s …).MemWf` from `s.MemWf`. -/

namespace Sys2Proof.Machine

/-- The next state of an outcome, if it has one, has canonical memory. -/
def Canonical : Res → Prop
  | .next t => t.MemWf
  | .fault _ | .refused _ => True

theorem Canonical.next {t : State} (wf : t.MemWf) : Canonical (.next t) := wf

theorem memWf_of_canonical {r : Res} (h : Canonical r) {t : State} (next : r = .next t) : t.MemWf := by
  subst next
  exact h

theorem canonical_of_next {r : Res} (h : ∀ t, r = .next t → t.MemWf) : Canonical r := by
  cases r with
  | next t => exact h t rfl
  | fault _ => trivial
  | refused _ => trivial

theorem Canonical.mapNext {r : Res} (h : Canonical r) {f : State → State} (keeps : ∀ t, t.MemWf → (f t).MemWf) :
    Canonical (mapNext f r) := by
  cases r with
  | next t => exact keeps t h
  | fault _ => trivial
  | refused _ => trivial

theorem MemStep.memWf {s t : State} (h : MemStep s t) (wf : s.MemWf) : t.MemWf := h.2 wf

theorem memWf_ite {p : Prop} [Decidable p] {t u : State} (ht : t.MemWf) (hu : u.MemWf) : (if p then t else u).MemWf := by
  split <;> assumption

theorem memWf_fst_ite {α : Type} {p : Prop} [Decidable p] {x y : State × α} (hx : x.1.MemWf) (hy : y.1.MemWf) :
    (if p then x else y).1.MemWf := by
  split <;> assumption

theorem canonical_ite {p : Prop} [Decidable p] {q r : Res} (hq : Canonical q) (hr : Canonical r) :
    Canonical (if p then q else r) := by
  split <;> assumption

/-- A run of operations each of which keeps memory canonical. -/
theorem memWf_foldl {β : Type} {f : State → β → State} (keeps : ∀ t x, t.MemWf → (f t x).MemWf) (l : List β) {s : State}
    (wf : s.MemWf) : (l.foldl f s).MemWf :=
  foldl_keeps l (fun t x _ => keeps t x) wf

/-- The same of a run that gathers something beside the state. -/
theorem memWf_foldl_fst {β γ : Type} {f : State × γ → β → State × γ} (keeps : ∀ a x, a.1.MemWf → (f a x).1.MemWf)
    (l : List β) {a : State × γ} (wf : a.1.MemWf) : (l.foldl f a).1.MemWf :=
  foldl_keeps (P := fun a : State × γ => a.1.MemWf) l (fun a x _ => keeps a x) wf

theorem Canonical.after {r : Res} (h : Canonical r) {s : State} (wf : s.MemWf) : (after s r).MemWf := by
  cases r with
  | next t => exact h
  | fault _ => exact wf
  | refused _ => exact wf

section
variable {s : State} (wf : s.MemWf)
include wf

/-! ### Cores, beds and places -/

theorem onCore_memWf (f : Core → Core) : (onCore s f).MemWf := wf

theorem drawFree_memWf : (drawFree s).1.MemWf := wf

theorem setCore_memWf (c : Core) : (setCore s c).MemWf := by rwa [State.MemWf, setCore_mem]

theorem modCore_memWf (n : Nat) (f : Core → Core) : (modCore s n f).MemWf := setCore_memWf wf _

theorem setBed_memWf (b : Bed) : (setBed s b).MemWf := by rwa [State.MemWf, setBed_mem]

theorem modBed_memWf (n : Nat) (f : Bed → Bed) : (modBed s n f).MemWf := setBed_memWf wf _

theorem passOn_memWf : (passOn s).MemWf := by rwa [State.MemWf, passOn_mem]

theorem addWork_memWf (n w k : Nat) : (addWork s n w k).MemWf := modCore_memWf wf _ _

theorem writePlaces_memWf (l : List (Place × Byte)) : (writePlaces s l).1.MemWf := (writePlaces_memStep s l).memWf wf

theorem writeTgts_memWf (l : List (Tgt × Byte)) : (writeTgts s l).1.MemWf := (writeTgts_memStep s l).memWf wf

theorem syncAt_memWf (ev : SyncEv) (pa n : Nat) : (syncAt s ev pa n).1.MemWf := (syncAt_memStep s ev pa n).memWf wf

theorem zeroRuns_memWf (l : List (Nat × Nat)) : (zeroRuns s l).MemWf := memWf_foldl (fun _ _ => zeroN_wf _ _) l wf

/-! ### The accesses of a word -/

omit wf in
@[simp] theorem postAcc_mem (a : Access) : (postAcc s a).mem = s.mem := rfl

omit wf in
@[simp] theorem dropFault_mem (a : Access) (va k : Nat) : (dropFault s a va k).mem = s.mem := rfl

theorem writeAt_memWf (ps : List Place) (v : Nat) : (writeAt s ps v).1.MemWf := writePlaces_memWf wf _

theorem performWrite_memWf (a : Access) (va : Nat) (ps : List Place) (v : Nat) : (performWrite s a va ps v).MemWf := by
  have written := writeAt_memWf wf ps v
  unfold performWrite
  dsimp only
  split <;> simpa [State.MemWf] using written

theorem landExpect_memWf (n : Nat) (a : Access) : (landExpect s n a).MemWf := modCore_memWf (syncAt_memWf wf _ _ _) _ _

theorem landArrival_memWf (n : Nat) (a : Access) : (landArrival s n a).MemWf :=
  memWf_ite (syncAt_memWf wf _ _ _) (modCore_memWf (syncAt_memWf wf _ _ _) _ _)

theorem retryJob_memWf (job : Nat) : (retryJob s job).MemWf := by
  unfold retryJob
  exact memWf_foldl (fun _ _ kept => modCore_memWf kept _ _) _ wf

/-! ### The operations that issue words -/

theorem stopWord_memWf (i : Instr) (srcs : List Nat) (st : Stop) : (stopWord s i srcs st).MemWf := by
  rwa [State.MemWf, stopWord_mem]

variable {i : Instr} {sys : Bool} {units : List FUnit} {ramp : Nat} {srcs : List Nat} {lands : List Pend} {own : Option Stop}
  {work : Nat} {eff : State → State}

theorem runWord_canonical {npc : Word} {nbt : Nat} (keeps : ∀ u, u.MemWf → (eff u).MemWf) :
    Canonical (runWord s i sys units ramp srcs lands own work npc nbt eff) :=
  canonical_of_next fun _ => runWord_memWf keeps wf

theorem runNext_canonical (keeps : ∀ u, u.MemWf → (eff u).MemWf) :
    Canonical (runNext s i sys units ramp srcs lands own work eff) := runWord_canonical wf keeps

/-- A word that only changes the core that runs it. -/
theorem runNext_onCore_canonical {f : Core → Core} :
    Canonical (runNext s i sys units ramp srcs lands own work (fun u => onCore u f)) := runNext_canonical wf fun _ kept => kept

theorem runNext_id_canonical : Canonical (runNext s i sys units ramp srcs lands own work id) := runNext_canonical wf fun _ kept => kept

theorem runWait_canonical {now : Bool} {w : Wait} (keeps : ∀ u, u.MemWf → (eff u).MemWf) :
    Canonical (runWait s i ramp srcs own work now w eff) := by
  unfold runWait
  split
  · exact runNext_canonical wf keeps
  · split
    · exact stopWord_memWf wf _ _ _
    · exact keeps _ wf

theorem runEngine_canonical {q : EngQ} {tk : EngTokens} {mk : Entry → Entry} (keeps : ∀ u, u.MemWf → (eff u).MemWf) :
    Canonical (runEngine s i q tk srcs own mk eff) := by
  unfold runEngine
  dsimp only
  split
  · exact stopWord_memWf wf _ _ _
  · exact runNext_canonical wf fun _ kept => keeps _ kept

theorem runEreg_canonical {q : EngQ} {f : EregW} {mk : Entry → Entry} : Canonical (runEreg s i q f own mk) :=
  runEngine_canonical wf fun _ kept => kept

theorem runEstamp_canonical {q : EngQ} {f : EstampW} : Canonical (runEstamp s i q f) :=
  runEngine_canonical wf fun _ kept => kept

/-! ### The words that access memory (R208-R215, R232, R234) -/

theorem runLoad_canonical (xor : Bool) (f : SmemW) : Canonical (runLoad s i xor f) := by
  unfold runLoad
  extract_lets
  split
  · exact runNext_id_canonical wf
  split
  · exact runNext_onCore_canonical wf
  split
  · exact runNext_id_canonical wf
  · exact runNext_canonical wf fun _ kept => kept

theorem runStore_canonical (xor : Bool) (f : SmemW) : Canonical (runStore s i xor f) := by
  unfold runStore
  extract_lets
  split
  · exact runNext_id_canonical wf
  split
  · exact runNext_id_canonical wf
  · exact runNext_canonical wf fun _ kept => performWrite_memWf kept _ _ _ _

theorem execSwpm_canonical (f : SmemW) : Canonical (execSwpm f s) := by
  unfold execSwpm
  extract_lets
  split
  · exact runNext_id_canonical wf
  split
  · exact runNext_id_canonical wf
  · exact runNext_canonical wf fun _ kept => performWrite_memWf kept _ _ _ _

theorem runAtom_canonical (op : Aop) (f : SatmW) : Canonical (runAtom s i op f) := by
  unfold runAtom
  extract_lets
  split
  · exact runNext_id_canonical wf
  split
  · exact runNext_id_canonical wf
  refine runNext_canonical wf fun u kept => ?_
  split
  · exact performWrite_memWf kept _ _ _ _
  · exact kept

theorem execBpld_canonical (f : SmemW) : Canonical (execBpld f s) := by
  unfold execBpld
  extract_lets
  split
  · exact runNext_id_canonical wf
  split
  · exact runNext_id_canonical wf
  split
  · exact runNext_id_canonical wf
  · exact runNext_canonical wf fun _ kept => kept

theorem runSpill_canonical (f : SsysW) (fill : Bool) : Canonical (runSpill s i f fill) := by
  unfold runSpill
  extract_lets
  split
  · exact runNext_id_canonical wf
  split
  · exact runNext_id_canonical wf
  extract_lets
  split
  · exact runNext_id_canonical wf
  · exact runNext_canonical wf fun _ kept => performWrite_memWf (onCore_memWf kept _) _ _ _ _

theorem execErase_canonical (f : SsysW) : Canonical (execErase f s) := by
  unfold execErase
  extract_lets
  split
  · exact runNext_id_canonical wf
  split
  · exact runNext_id_canonical wf
  split
  · exact runNext_id_canonical wf
  · exact runNext_canonical wf fun _ kept => zeroRuns_memWf kept _

/-! ### The other words whose own effect is not the core's alone -/

theorem execFence_canonical (f : SsysW) : Canonical (execFence f s) :=
  runNext_canonical wf fun _ kept => memWf_ite kept kept

theorem execTmark_canonical (f : SsysW) : Canonical (execTmark f s) :=
  runNext_canonical wf fun _ kept => memWf_ite kept kept

theorem execSyarr_canonical (f : SsysW) : Canonical (execSyarr f s) :=
  runNext_canonical wf fun _ kept => memWf_ite (landArrival_memWf kept _ _) kept

theorem execSafept_canonical (f : SsysW) : Canonical (execSafept f s) :=
  runNext_canonical wf fun _ kept => memWf_ite kept kept

theorem execDbgbrk_canonical (f : SsysW) : Canonical (execDbgbrk f s) :=
  runNext_canonical wf fun _ kept => memWf_ite (modBed_memWf kept _ _) kept

end

end Sys2Proof.Machine
end

section
/-! Canonical memory under the trellis (R315-R341) and the vector unit (R287-R312, R431), whose drains, seed logs and stores write
memory. -/

namespace Sys2Proof.Machine

section
variable {s : State} (wf : s.MemWf)
include wf

/-! ### The end of an entry (R25, R26) -/

theorem closeEntry_memWf (n : Nat) (q : EngQ) (e : Entry) (flt : Bool) (d c w : Nat) :
    (closeEntry s n q e flt d c w).MemWf := setCore_memWf wf _

theorem completeEntry_memWf (n : Nat) (q : EngQ) (e : Entry) (d c w : Nat) : (completeEntry s n q e d c w).MemWf :=
  modCore_memWf (closeEntry_memWf wf _ _ _ _ _ _ _) _ _

theorem failEntry_memWf (n : Nat) (q : EngQ) (e : Entry) (code : Nat) (a x : Word) (d c w : Nat) :
    (failEntry s n q e code a x d c w).MemWf :=
  modCore_memWf (closeEntry_memWf wf _ _ _ _ _ _ _) _ _

theorem endFailed_memWf (n : Nat) (q : EngQ) (e : Entry) (c w : Nat) : (endFailed s n q e c w).MemWf :=
  closeEntry_memWf wf _ _ _ _ _ _ _

theorem pushStatus_memWf (n : Nat) (q : EngQ) (e : Entry) (v : Word) : (pushStatus s n q e v).1.MemWf :=
  memWf_fst_ite wf (setCore_memWf wf _)

theorem pushOut_memWf (n : Nat) (q : EngQ) : (pushOut s n q).MemWf := by
  unfold pushOut
  split
  · split
    · exact memWf_ite (modCore_memWf (pushStatus_memWf wf _ _ _ _) _ _) wf
    · exact wf
  · exact wf

/-! ### The trellis -/

theorem advanceDrain_memWf (n : Nat) : (advanceDrain s n).MemWf := by
  unfold advanceDrain
  split
  · exact wf
  · exact memWf_ite wf (modCore_memWf (drawFree_memWf wf) _ _)

theorem trellisStart_memWf (n : Nat) (e : Entry) (b : Nat) : (trellisStart s n e b).MemWf := by
  unfold trellisStart
  dsimp only
  split
  · exact setCore_memWf wf _
  · exact pushOut_memWf (setCore_memWf wf _) _ _
  · exact setCore_memWf wf _
  · exact setCore_memWf wf _

theorem execTrellisEntryStart_canonical (n : Nat) : Canonical (execTrellisEntryStart n s) := by
  unfold execTrellisEntryStart
  dsimp only
  split
  · refine canonical_ite ?_ wf
    split
    · exact failEntry_memWf wf _ _ _ _ _ _ _ _ _
    · exact trellisStart_memWf wf _ _ _
  · exact wf

theorem execStampTick_canonical (n : Nat) : Canonical (execStampTick n s) := by
  have marked := modCore_memWf wf n (·.markMisses (btOf s n))
  unfold execStampTick
  dsimp only
  split
  · refine canonical_ite ?_ marked
    split
    · exact failEntry_memWf marked _ _ _ _ _ _ _ _ _
    · exact trellisStart_memWf marked _ _ _
  · exact marked

theorem writeRows_memWf (c : Core) (e : Entry) (d : Drain) (t : Tile) (rows : List Nat) : (writeRows s c e d t rows).MemWf :=
  memWf_foldl (fun _ _ kept => memWf_foldl (fun _ _ kept => writePlaces_memWf kept _) _ kept) _ wf

theorem doneFetch_memWf (n : Nat) (e : Entry) (col : Bool) : (doneFetch s n e col).MemWf := by
  unfold doneFetch
  dsimp only
  split
  · exact failEntry_memWf wf _ _ _ _ _ _ _ _ _
  · exact completeEntry_memWf (setCore_memWf wf _) _ _ _ _ _ _

theorem doneLoad_memWf (n : Nat) (e : Entry) (sp : Bool) : (doneLoad s n e sp).MemWf :=
  memWf_ite (failEntry_memWf wf _ _ _ _ _ _ _ _ _) (completeEntry_memWf (setCore_memWf wf _) _ _ _ _ _ _)

theorem doneMac_memWf (n : Nat) (e : Entry) (src : Tab Byte × List Nat) (a b : Nat) (z : Bool) (acc : Nat) :
    (doneMac s n e src a b z acc).MemWf :=
  memWf_ite (completeEntry_memWf (setCore_memWf wf _) _ _ _ _ _ _) (failEntry_memWf (setCore_memWf wf _) _ _ _ _ _ _ _ _ _)

theorem doneDrain_memWf (n : Nat) (e : Entry) (d : Drain) : (doneDrain s n e d).MemWf := by
  have drained (c : Core) {isVec : Bool} {t : Tile} {rows : List Nat} :
      (setCore (if isVec then s else writeRows s (getCore s n) e d t rows) c).MemWf :=
    setCore_memWf (memWf_ite wf (writeRows_memWf wf _ _ _ _ _)) _
  exact memWf_ite (completeEntry_memWf (drained _) _ _ _ _ _ _) (failEntry_memWf (drained _) _ _ _ _ _ _ _ _ _)

theorem doneAnorm_memWf (n : Nat) (e : Entry) (tile sh : Nat) : (doneAnorm s n e tile sh).MemWf :=
  memWf_ite (completeEntry_memWf (setCore_memWf wf _) _ _ _ _ _ _) (failEntry_memWf (setCore_memWf wf _) _ _ _ _ _ _ _ _ _)

theorem holdTrellis_memWf (n : Nat) (e : Entry) : (holdTrellis s n e).MemWf := by
  have drained (d : Drain) {t : Tile} {rows : List Nat} {f : Core → Core} :
      (modCore (writeRows s (getCore s n) e d t rows) n f).MemWf := modCore_memWf (writeRows_memWf wf _ _ _ _ _) _ _
  unfold holdTrellis
  dsimp only
  split
  · split
    · exact drained _
    · exact wf
  · split
    · exact drained _
    · exact wf
  · split <;> exact modCore_memWf wf _ _
  · split <;> exact modCore_memWf wf _ _
  · exact modCore_memWf wf _ _

theorem trellisDone_memWf (n : Nat) (e : Entry) : (trellisDone s n e).MemWf := by
  have multiplied {p : Prop} [Decidable p] {c : Core} {src own : Tab Byte × List Nat} (a b : Nat) (z : Bool) (acc : Nat) :
      (if p then doneMac (setCore s c) n e src a b z acc else doneMac s n e own a b z acc).MemWf :=
    memWf_ite (doneMac_memWf (setCore_memWf wf _) _ _ _ _ _ _ _) (doneMac_memWf wf _ _ _ _ _ _ _)
  unfold trellisDone
  dsimp only
  split
  · exact doneFetch_memWf wf _ _ _
  · exact doneFetch_memWf wf _ _ _
  · exact doneLoad_memWf wf _ _ _
  · split
    · exact multiplied _ _ _ _
    · exact wf
  · split
    · exact multiplied _ _ _ _
    · exact wf
  · exact doneAnorm_memWf wf _ _ _ _
  · exact completeEntry_memWf (setCore_memWf wf _) _ _ _ _ _ _
  · exact completeEntry_memWf (setCore_memWf wf _) _ _ _ _ _ _
  · split
    · exact doneDrain_memWf wf _ _ _
    · exact completeEntry_memWf wf _ _ _ _ _ _

theorem execTrellisEntryCompletion_canonical (n : Nat) : Canonical (execTrellisEntryCompletion n s) := by
  have pushed := pushOut_memWf wf n .trellis
  unfold execTrellisEntryCompletion
  split
  · refine canonical_ite ?_ wf
    dsimp only
    split
    · exact canonical_ite (trellisDone_memWf pushed _ _) pushed
    · exact pushed
  · exact wf

theorem trellisTick_memWf (n : Nat) : (trellisTick s n).MemWf := by
  unfold trellisTick
  split
  · refine memWf_ite ?_ wf
    have drawn (p : Prop) [Decidable p] : (if p then drawFree s else (s, 0)).1.MemWf := memWf_fst_ite (drawFree_memWf wf) wf
    have pushed (p : Prop) [Decidable p] (f : Core → Core) := pushOut_memWf (modCore_memWf (drawn p) n f) n .trellis
    exact (execTrellisEntryCompletion_canonical (pushed _ _) n).after (pushed _ _)
  · exact wf

theorem trellisStarts_memWf (n : Nat) : (trellisStarts s n).MemWf := by
  have stamped := (execStampTick_canonical wf n).after wf
  exact (execTrellisEntryStart_canonical stamped n).after stamped

theorem endTick_memWf (b : Nat) : (endTick s b).MemWf := memWf_foldl (fun _ _ kept => trellisTick_memWf kept _) _ wf

/-! ### Seeds (R60-R64, R431) -/

theorem postSeed_memWf (n order : Nat) (kind : AccKind) (ps : List Place) : (postSeed s n order kind ps).MemWf :=
  setCore_memWf wf _

theorem seedWordOf_memWf (n order : Nat) : (seedWordOf s n order).1.MemWf := by
  unfold seedWordOf
  dsimp only
  split
  · exact setCore_memWf wf _
  split
  · exact drawFree_memWf wf
  refine memWf_fst_ite (drawFree_memWf wf) (memWf_fst_ite ?_ ?_)
  · dsimp only
    exact modCore_memWf (postSeed_memWf (writePlaces_memWf wf _) _ _ _ _) _ _
  · split
    · exact modCore_memWf (postSeed_memWf wf _ _ _ _) _ _
    · exact drawFree_memWf wf

theorem drawSeed_memWf (n order : Nat) : (drawSeed s n order).1.MemWf :=
  memWf_fst_ite (modCore_memWf (seedWordOf_memWf wf _ _) _ _) (setCore_memWf wf _)

theorem drawSeeds_memWf (n order k : Nat) : (drawSeeds s n order k).1.MemWf := by
  induction k generalizing s with
  | zero => exact wf
  | succ k ih => exact ih (drawSeed_memWf wf _ _)

theorem drawFor_memWf (n : Nat) (fl : VFlight) (m : Nat) : (drawFor s n fl m).1.MemWf :=
  memWf_fst_ite (drawSeeds_memWf wf _ _ _) wf

/-! ### Columns of vector words (R93, R299-R311) -/

theorem settleDrain_memWf (n : Nat) (regs : List Nat) (j : Nat) : (settleDrain s n regs j).MemWf := by
  unfold settleDrain
  split
  · exact wf
  dsimp only
  split
  · refine memWf_ite wf (memWf_foldl (fun t x kept => ?_) _ wf)
    exact memWf_ite (modCore_memWf (drawFree_memWf kept) _ _) (drawFree_memWf kept)
  · exact wf

theorem vecCharge_memWf (n : Nat) (fl : VFlight) (j : Nat) : (vecCharge s n fl j).MemWf := by
  unfold vecCharge
  split
  · exact wf
  · have erased := modCore_memWf wf n
    have worked (f : Core → Core) {w k : Nat} : (if fl.sys then modCore s n f else addWork (modCore s n f) n w k).MemWf :=
      memWf_ite (erased f) (addWork_memWf (erased f) _ _ _)
    exact memWf_ite (modCore_memWf (worked _) _ _) (worked _)

theorem vecCharges_memWf (n b : Nat) : (vecCharges s n b).MemWf :=
  memWf_foldl (fun _ _ kept => memWf_ite (vecCharge_memWf kept _ _ _) kept) _ wf

theorem addPend_memWf (n : Nat) (l : List Pend) : (addPend s n l).MemWf := modCore_memWf wf _ _

theorem elemCol_memWf (n : Nat) (fl : VFlight) (p : VPlan) (j : Nat) (rs : List Nat) : (elemCol s n fl p j rs).1.MemWf :=
  drawFor_memWf wf _ _ _

theorem rowRed_memWf (n : Nat) (fl : VFlight) (p : VPlan) (r : Nat) : (rowRed s n fl p r).1.MemWf := drawFor_memWf wf _ _ _

theorem crossDone_memWf (n : Nat) (fl : VFlight) (p : VPlan) : (crossDone s n fl p).MemWf := by
  unfold crossDone
  dsimp only
  split
  · refine addPend_memWf (memWf_foldl_fst (fun _ _ kept => ?_) _ ?_) _ _
    · exact rowRed_memWf kept _ _ _ _
    · exact wf
  · exact addPend_memWf wf _ _
  · exact addPend_memWf wf _ _
  · exact addPend_memWf wf _ _

theorem scalarDone_memWf (n : Nat) (fl : VFlight) (p : VPlan) : (scalarDone s n fl p).MemWf := by
  unfold scalarDone
  dsimp only
  split
  · exact addPend_memWf wf _ _
  · exact addPend_memWf wf _ _
  · exact addPend_memWf wf _ _
  · exact addPend_memWf (rowRed_memWf wf _ _ _ _) _ _
  · exact addPend_memWf wf _ _

theorem vecCol_memWf (n : Nat) (fl : VFlight) (j : Nat) : (vecCol s n fl j).1.MemWf := by
  unfold vecCol
  split
  · exact wf
  extract_lets _ s0 _ _ _ _ _ _ _ _ r s1
  have settled : s0.MemWf := memWf_ite (settleDrain_memWf wf _ _ _) wf
  have acted : r.1.MemWf := by
    unfold r
    split
    · exact addPend_memWf (elemCol_memWf settled _ _ _ _ _) _ _
    · split
      · exact memWf_fst_ite settled (addPend_memWf (addPend_memWf settled _ _) _ _)
      · exact addPend_memWf settled _ _
    · exact addPend_memWf (elemCol_memWf settled _ _ _ _ _) _ _
    · exact addPend_memWf settled _ _
    · exact memWf_fst_ite settled (addPend_memWf settled _ _)
    · exact addPend_memWf (drawFor_memWf settled _ _ _) _ _
    · exact settled
    · exact settled
  have freed : s1.MemWf := modCore_memWf acted _ _
  exact memWf_fst_ite (crossDone_memWf freed _ _ _) (memWf_fst_ite (scalarDone_memWf freed _ _ _) freed)

theorem vecColumns_memWf (n b : Nat) (pick : VFlight → Bool) : (vecColumns s n b pick).MemWf := by
  unfold vecColumns
  refine memWf_foldl (fun t fl kept => ?_) _ wf
  split
  · exact memWf_ite (modCore_memWf (vecCol_memWf kept _ _ _) _ _) kept
  · exact kept

theorem lateColumns_memWf : (lateColumns s).MemWf := memWf_ite wf (vecColumns_memWf wf _ _ _)

theorem moveOn_memWf : (moveOn s).MemWf := passOn_memWf (lateColumns_memWf wf)

theorem runVreg_canonical (i : Instr) (f : VregW) : Canonical (runVreg s i f) := by
  unfold runVreg
  split
  · exact wf
  extract_lets
  split
  extract_lets
  split
  · exact stopWord_memWf wf _ _ _
  · refine .next (onCore_memWf (vecCol_memWf (vecCharge_memWf ?_ _ _ _) _ _ _) _)
    exact wf

/-! ### Columns of vector memory words (R122, R295-R298) -/

omit wf in
@[simp] theorem postEl_mem (fl : VFlight) (n : Nat) (a : Access) : (postEl s fl n a).1.mem = s.mem := rfl

theorem vmemEl_memWf (fl : VFlight) (f : VmemW) (n r j due : Nat) : (vmemEl s fl f n r j due).1.MemWf := by
  have loaded (g : Core → Core) (a : Access) : (onCore (postEl s fl n a).1 g).MemWf := wf
  unfold vmemEl
  dsimp only
  split
  · simp [State.MemWf, wf]
  split
  · exact loaded _ _
  · exact loaded _ _
  all_goals
    split <;> simp [State.MemWf, writeAt_memWf wf]

theorem vmemCol_memWf (fl : VFlight) (j : Nat) : (vmemCol s fl j).1.MemWf := by
  unfold vmemCol
  split
  · exact wf
  have elements {f : VmemW} {n j due : Nat} {regs : List Nat} (l : List (Nat × Nat)) :
      (l.foldl (fun a x => vmemEl a.1 a.2 f (n + x.2) (x.1 % 128) j due) (settleDrain s s.core.num regs j, fl)).1.MemWf :=
    memWf_foldl_fst (fun _ _ kept => vmemEl_memWf kept _ _ _ _ _ _) l (settleDrain_memWf wf _ _ _)
  exact memWf_ite (onCore_memWf (elements _) _) (addWork_memWf (onCore_memWf (elements _) _) _ _ _)

theorem vmemColumns_memWf : (vmemColumns s).MemWf :=
  memWf_foldl (fun _ _ kept => memWf_ite (onCore_memWf (vmemCol_memWf kept _ _) _) kept) _ wf

theorem runVmem_canonical (i : Instr) : Canonical (runVmem s i) := by
  unfold runVmem
  split
  · exact wf
  dsimp only
  split
  · exact stopWord_memWf wf _ _ _
  · refine .next (onCore_memWf (vmemCol_memWf ?_ _ _) _)
    exact wf

end

end Sys2Proof.Machine
end

section
/-! Canonical memory under the copy, graft and bank engines (R264-R284, R342-R363, R366-R385): every write of an entry is a write of
places, and what is left of an entry that stops is a state with canonical memory too. -/

namespace Sys2Proof.Machine

/-- What an engine access comes to has canonical memory: the state it ends in, or the one that a write applied in part leaves. -/
abbrev ERes.MemWf (x : ERes State) : Prop := x.Leaves State.MemWf State.MemWf

/-- The same of a piece of an entry, which answers the entry too. -/
abbrev ERes.PieceMemWf (x : ERes (State × Entry)) : Prop := x.Leaves State.MemWf (·.1.MemWf)

/-- A run that stops leaves canonical memory. -/
theorem ERes.ends_memWf {α : Type} {A : α → Prop} {x : ERes α} (h : x.Leaves State.MemWf A) {s : State} (wf : s.MemWf) :
    (x.ends s).1.MemWf := by
  cases x with
  | spoilt t c a d => exact h
  | ok a => exact wf
  | park v => exact wf
  | fault c a d => exact wf
  | barred => exact wf

section
variable {s : State} (wf : s.MemWf)
include wf

/-! ### Accesses (R244, R245, R252) -/

theorem engWrite_memWf (va : Nat) (ps : List Place) (bs : List Byte) : (engWrite s va ps bs).MemWf := by
  have written := writePlaces_memWf wf (ps.zip bs)
  unfold engWrite
  dsimp only
  split <;> exact written

theorem engStore_memWf (c : Core) (va n v : Nat) : (engStore s c va n v).MemWf :=
  (engPlaces_reads ..).bind fun _ => engWrite_memWf wf _ _ _

/-! ### The end of a run -/

theorem parkEntry_memWf (n : Nat) (q : EngQ) (e : Entry) (va : Nat) : (parkEntry s n q e va).MemWf := modCore_memWf wf _ _

theorem endRun_memWf (n : Nat) (q : EngQ) (e : Entry) (code addr detail : Nat) : (endRun s n q e code addr detail).MemWf :=
  modCore_memWf wf _ _

theorem settle_memWf {x : State × Entry × ERes Unit} (done : x.1.MemWf) (n : Nat) (q : EngQ) : (settle s n q x).MemWf := by
  have headed := modCore_memWf done n (·.setHead q x.2.1)
  unfold settle
  dsimp only
  split
  · exact headed
  · exact parkEntry_memWf headed _ _ _ _
  · exact endRun_memWf headed _ _ _ _ _ _
  · exact endRun_memWf headed _ _ _ _ _ _
  · exact wf

/-! ### The copy engine -/

theorem sideWrite_memWf (n : Nat) (bs : List Byte) (x : Side) : (sideWrite s n bs x).MemWf := by
  cases x with
  | mem va ps => exact engWrite_memWf wf _ _ _
  | slot h o len => exact modCore_memWf wf _ _

theorem sidePut_memWf (n e b v : Nat) (x : Side) : (sidePut s n e b v x).MemWf := by
  unfold sidePut
  split
  · exact sideWrite_memWf wf _ _ _
  · exact (sideRead_reads ..).bind fun _ => sideWrite_memWf wf _ _ _

theorem copyEl_memWf (n : Nat) (i : Instr) (r idx k : Nat) : (copyEl s n i r idx k).MemWf := by
  unfold copyEl
  dsimp only
  split
  · exact (srcSide_reads ..).bind fun _ => (sideVal_reads ..).bind fun _ => (dstSide_reads ..).bind fun _ =>
      (sideVal_reads ..).bind fun _ => (dstSide_reads ..).bind fun _ =>
      ERes.leaves_bind (sidePut_memWf wf _ _ _ _ _) fun _ kept => (srcSide_reads ..).bind fun _ => sidePut_memWf kept _ _ _ _ _
  · exact (elValue_reads ..).bind fun _ => (dstSide_reads ..).bind fun _ => (sideVal_reads ..).bind fun _ =>
      (dstSide_reads ..).bind fun _ => sidePut_memWf wf _ _ _ _ _
  · exact (elValue_reads ..).bind fun _ => (dstSide_reads ..).bind fun _ => sidePut_memWf wf _ _ _ _ _

theorem cpytRow_memWf (n : Nat) (i : Instr) (r k0 : Nat) : (cpytRow s n i r k0).MemWf := by
  unfold cpytRow
  dsimp only
  refine ERes.Reads.bind ?_ fun l => ?_
  · exact List.foldrRecOn _ _ (motive := ERes.Reads) trivial fun _ reads _ _ =>
      (elValue_reads ..).bind fun _ => ERes.Reads.bind reads fun _ => trivial
  · exact foldl_keeps (P := ERes.MemWf) _ (fun _ _ _ kept => ERes.leaves_bind kept fun _ wf =>
      (dstSide_reads ..).bind fun _ => sidePut_memWf wf _ _ _ _ _) wf

theorem copyEls_memWf (n : Nat) (i : Instr) (r idx k m : Nat) : (copyEls s n i r idx k m).1.MemWf := by
  induction m generalizing s k with
  | zero => exact wf
  | succ m ih =>
    have one := copyEl_memWf wf n i r idx k
    unfold copyEls
    split
    · next t ht =>
      rw [ht] at one
      exact ih one _
    · exact ERes.ends_memWf one wf

theorem copyRow_memWf (n : Nat) (e : Entry) : (copyRow s n e).1.MemWf := by
  have els (idx k m : Nat) := copyEls_memWf wf n e.i e.recNat idx k m
  unfold copyRow
  dsimp only
  split
  · have row := cpytRow_memWf wf n e.i e.recNat (e.pos / cntOf e.recNat 0 * cntOf e.recNat 0)
    split
    · next t ht =>
      rw [ht] at row
      exact row
    · exact wf
  · split
    · exact els _ _ _
    · split
      · exact els _ _ _
      · exact wf
  · split
    · exact els _ _ _
    · split
      · exact els _ _ _
      · exact wf
  · exact els _ _ _

theorem runCopyEntry_memWf (n : Nat) (e : Entry) : (runCopyEntry s n e).MemWf := by
  have row := copyRow_memWf wf n e
  unfold runCopyEntry
  refine memWf_ite wf (memWf_ite (endRun_memWf wf _ _ _ _ _ _) ?_)
  dsimp only
  split
  · exact memWf_ite (endRun_memWf row _ _ _ _ _ _) (settle_memWf wf row _ _)
  · exact settle_memWf wf row _ _

/-! ### The graft engine -/

theorem graftEl_memWf (n : Nat) (e : Entry) (k : Nat) : (graftEl s n e k).MemWf := by
  unfold graftEl
  dsimp only
  split
  · exact (engPlaces_reads ..).bind fun _ => (engRead_reads ..).bind fun _ => setCore_memWf wf _
  · split
    · trivial
    · exact (engPlaces_reads ..).bind fun _ => engWrite_memWf wf _ _ _

theorem graftStep_memWf (n : Nat) (e : Entry) : (graftStep s n e).MemWf := by
  unfold graftStep
  split
  · exact graftEl_memWf wf _ _ _
  · exact graftEl_memWf wf _ _ _
  · exact wf

theorem graftRun_memWf (n : Nat) (e : Entry) (m : Nat) : (graftRun s n e m).1.MemWf := by
  induction m generalizing s e with
  | zero => exact wf
  | succ m ih =>
    have one := graftStep_memWf wf n e
    unfold graftRun
    refine memWf_fst_ite wf ?_
    split
    · next t ht =>
      rw [ht] at one
      exact ih one _
    · exact ERes.ends_memWf one wf

theorem runGraftEntry_memWf (n : Nat) (e : Entry) : (runGraftEntry s n e).MemWf := by
  have run (m : Nat) := graftRun_memWf wf n e m
  unfold runGraftEntry
  dsimp only
  split
  · exact memWf_ite (endRun_memWf (run _) _ _ _ _ _ _) (settle_memWf wf (run _) _ _)
  · exact settle_memWf wf (run _) _ _

theorem graftDone_memWf (n : Nat) (e : Entry) : (graftDone s n e).MemWf := by
  have completed (c : Core) (cell work : Nat) := completeEntry_memWf (setCore_memWf wf c) n .graft e 0 cell work
  unfold graftDone
  dsimp only
  split
  · exact completed _ _ _
  split <;> exact completed _ _ _

theorem graftFailed_memWf (n : Nat) (e : Entry) : (graftFailed s n e).MemWf := by
  unfold graftFailed
  dsimp only
  split
  · exact memWf_ite (endFailed_memWf (setCore_memWf wf _) _ _ _ _ _) (endFailed_memWf wf _ _ _ _ _)
  · exact endFailed_memWf wf _ _ _ _ _

/-! ### The bank engine -/

theorem bankAtomic_memWf (c : Core) (e : Entry) (op : Aop) : (bankAtomic s c e op).PieceMemWf := by
  refine (engPlaces_reads ..).bind fun _ => ?_
  split
  · trivial
  refine (engRead_reads ..).bind fun _ => ?_
  dsimp only
  split
  · exact wf
  · exact ERes.leaves_bind (engWrite_memWf wf _ _ _) fun _ kept => kept

theorem bankEl_memWf (n : Nat) (e : Entry) : (bankEl s n e).PieceMemWf := by
  unfold bankEl
  dsimp only
  split
  · split
    · exact (bredEl_reads ..).bind fun _ => wf
    · exact ERes.leaves_bind (engStore_memWf wf _ _ _ _) fun _ kept => kept
  · split
    · exact (engLoad_reads ..).bind fun _ => wf
    · exact ERes.leaves_bind (engStore_memWf wf _ _ _ _) fun _ kept => kept
  · exact (engLoad_reads ..).bind fun _ => ERes.leaves_bind (engStore_memWf wf _ _ _ _) fun _ kept => kept
  · exact ERes.leaves_bind (engStore_memWf wf _ _ _ _) fun _ kept => kept
  · split
    · exact bankAtomic_memWf wf _ _ _
    · exact wf

theorem bankRun_memWf (n : Nat) (e : Entry) (m : Nat) : (bankRun s n e m).1.MemWf := by
  induction m generalizing s e with
  | zero => exact wf
  | succ m ih =>
    have one := bankEl_memWf wf n e
    unfold bankRun
    refine memWf_fst_ite wf ?_
    split
    · next x hx =>
      rw [hx] at one
      exact ih one _
    · exact ERes.ends_memWf one wf

/-! ### Collective instances (R368, R379, R384) -/

theorem bankEnds_memWf (n : Nat) (e : Entry) (code addr detail : Nat) : (bankEnds s n e code addr detail).MemWf :=
  modCore_memWf wf _ _

theorem dropVote_memWf (job cgid k : Nat) : (dropVote s job cgid k).MemWf := wf

theorem endOthers_memWf (job cgid k me detail : Nat) : (endOthers s job cgid k me detail).MemWf := by
  unfold endOthers
  refine memWf_foldl (fun t c kept => memWf_ite kept ?_) _ wf
  split
  · exact bankEnds_memWf kept _ _ _ _ _
  · exact kept

theorem collFault_memWf (n : Nat) (e : Entry) (x : Coll) (code addr detail : Nat) : (collFault s n e x code addr detail).MemWf := by
  have ended := bankEnds_memWf wf n e code addr detail
  have dropped : (if code = 0x16 then bankEnds s n e code addr detail
      else dropVote (bankEnds s n e code addr detail) (getCore s n).job x.cgid e.inst).MemWf := memWf_ite ended ended
  exact memWf_ite (endOthers_memWf dropped _ _ _ _ _) dropped

theorem collAdvance_memWf (job cgid k stage : Nat) : (collAdvance s job cgid k stage).MemWf := by
  unfold collAdvance
  refine memWf_ite (memWf_foldl (fun _ _ kept => bankEnds_memWf kept _ _ _ _ _) _ (dropVote_memWf wf _ _ _)) ?_
  refine memWf_foldl (fun t p kept => ?_) _ wf
  split
  · exact setCore_memWf kept _
  · exact kept

theorem collSolo_memWf (n : Nat) (x : Coll) (g : CGroup) (stage : Nat) : (collSolo s n x g stage).MemWf := by
  unfold collSolo
  dsimp only
  split
  · exact memWf_ite (setCore_memWf wf _) (setCore_memWf wf _)
  · exact wf

theorem collPiece_memWf (n : Nat) (x : Coll) (g : CGroup) (e : Entry) : (collPiece s n x g e).PieceMemWf := by
  unfold collPiece
  dsimp only
  split
  · exact (engLoad_reads ..).bind fun _ => wf
  · exact ERes.leaves_bind (engStore_memWf wf _ _ _ _) fun _ kept => kept
  · exact (engLoad_reads ..).bind fun _ => wf
  · refine ERes.leaves_bind (engStore_memWf wf _ _ _ _) fun t kept => ?_
    rw [if_pos rfl]
    exact modCore_memWf kept _ _
  · exact ERes.leaves_bind (engStore_memWf wf _ _ _ _) fun _ kept => kept

theorem collRun_memWf (n : Nat) (x : Coll) (g : CGroup) (e : Entry) (m : Nat) : (collRun s n x g e m).1.MemWf := by
  induction m generalizing s e with
  | zero => exact wf
  | succ m ih =>
    have one := collPiece_memWf wf n x g e
    unfold collRun
    split
    · next y hy =>
      rw [hy] at one
      exact ih one _
    · exact ERes.ends_memWf one wf

theorem collTag_memWf (n : Nat) (x : Coll) (g : CGroup) : (collTag s n x g).1.MemWf := by
  unfold collTag
  refine memWf_fst_ite wf (memWf_fst_ite wf ?_)
  have reads := tagPlace_reads s (getCore s n) x.tag
  split
  · exact syncAt_memWf wf _ _ _
  · exact ERes.ends_memWf (reads.leaves _) wf

theorem runColl_memWf (n : Nat) (e : Entry) (x : Coll) (g : CGroup) : (runColl s n e x g).MemWf := by
  have tag := collTag_memWf wf n x g
  have pieces : (if e.shown % 2 = 1 then (s, e, ERes.ok ()) else collRun s n x g e (collPieces x g e - e.pos)).1.MemWf :=
    memWf_fst_ite wf (collRun_memWf wf _ _ _ _ _)
  unfold runColl
  extract_lets _ _ stop _ y _ s1
  have stopped {t : State} (kept : t.MemWf) (e : Entry) (z : ERes Unit) : (stop t e z).MemWf := by
    have headed := modCore_memWf kept n (·.setHead .bank e)
    unfold stop
    dsimp only
    split
    · exact parkEntry_memWf headed _ _ _ _
    · exact collFault_memWf headed _ _ _ _ _ _
    · exact collFault_memWf headed _ _ _ _ _ _
    · exact kept
  have shown : s1.MemWf := modCore_memWf pieces _ _
  split
  · split
    · exact endRun_memWf tag _ _ _ _ _ _
    · exact stopped tag _ _
  · split
    · exact memWf_ite (memWf_ite (collAdvance_memWf shown _ _ _ _) shown) (collSolo_memWf shown _ _ _ _)
    · exact wf
    · exact stopped pieces _ _

theorem runBankEntry_memWf (n : Nat) (e : Entry) : (runBankEntry s n e).MemWf := by
  have run (m : Nat) := bankRun_memWf wf n e m
  unfold runBankEntry
  split
  · split
    · exact runColl_memWf wf _ _ _ _
    · exact wf
  · dsimp only
    split
    · exact endRun_memWf (run _) _ _ _ _ _ _
    · exact settle_memWf wf (run _) _ _

/-! ### Entries that start, go on, complete and time out (R125, R142, R252, R273) -/

theorem runEntry_memWf (n : Nat) (q : EngQ) (e : Entry) : (runEntry s n q e).MemWf := by
  cases q with
  | copy => exact runCopyEntry_memWf wf _ _
  | graft => exact runGraftEntry_memWf wf _ _
  | bank => exact runBankEntry_memWf wf _ _
  | trellis => exact wf

theorem startStat_memWf (n : Nat) (q : EngQ) (e : Entry) : (startStat s n q e).MemWf := modCore_memWf (modCore_memWf wf _ _) _ _

theorem beginEntry_memWf (n : Nat) (q : EngQ) (e : Entry) : (beginEntry s n q e).MemWf := by
  unfold beginEntry
  extract_lets c full joined e1 c1 s1
  have begun : s1.MemWf := setCore_memWf wf _
  refine memWf_ite ?_ (runEntry_memWf begun _ _ _)
  split
  · exact memWf_ite (collAdvance_memWf begun _ _ _ _) begun
  · exact begun

theorem holdEngine_memWf (n : Nat) (q : EngQ) : (holdEngine s n q).MemWf := by
  unfold holdEngine
  dsimp only
  split
  · exact memWf_ite (modCore_memWf wf _ _) wf
  · exact wf

theorem execEngineEntryStart_canonical (n : Nat) (q : EngQ) : Canonical (execEngineEntryStart n q s) := by
  unfold execEngineEntryStart
  dsimp only
  split
  · exact wf
  refine canonical_ite wf ?_
  split
  · have held : (if engineHeld s n q then holdEngine s n q else s).MemWf := memWf_ite (holdEngine_memWf wf _ _) wf
    exact .next (memWf_ite (runEntry_memWf held _ _ _) held)
  · refine canonical_ite wf (canonical_ite (startStat_memWf wf _ _ _) ?_)
    split
    · exact endRun_memWf wf _ _ _ _ _ _
    · exact canonical_ite wf (beginEntry_memWf wf _ _ _)
  · exact wf

theorem execSyncTagPosting_canonical (n : Nat) : Canonical (execSyncTagPosting n s) := by
  have posted (pa bytes : Nat) := syncAt_memWf wf .land pa bytes
  unfold execSyncTagPosting
  dsimp only
  split
  · exact wf
  refine canonical_ite wf ?_
  split
  · exact canonical_ite (modCore_memWf (posted _ _) _ _)
      (canonical_ite (endRun_memWf (posted _ _) _ _ _ _ _ _) (endRun_memWf (posted _ _) _ _ _ _ _ _))
  · exact endRun_memWf wf _ _ _ _ _ _
  · exact endRun_memWf wf _ _ _ _ _ _
  · exact parkEntry_memWf wf _ _ _ _
  · exact wf

theorem pushAll_memWf (n : Nat) (q : EngQ) (m : Nat) : (pushAll s n q m).MemWf := by
  induction m generalizing s with
  | zero => exact wf
  | succ m ih => exact ih (pushOut_memWf wf _ _)

theorem finishEntry_memWf (n : Nat) (q : EngQ) (e : Entry) : (finishEntry s n q e).MemWf := by
  have filled {p : Prop} [Decidable p] {c : Core} : (if p then s else setCore s c).MemWf := memWf_ite wf (setCore_memWf wf _)
  unfold finishEntry
  dsimp only
  split
  · exact memWf_ite (completeEntry_memWf filled _ _ _ _ _ _) (endFailed_memWf wf _ _ _ _ _)
  · exact memWf_ite (graftDone_memWf wf _ _) (graftFailed_memWf wf _ _)
  · exact memWf_ite (completeEntry_memWf wf _ _ _ _ _ _) (endFailed_memWf wf _ _ _ _ _)
  · exact wf

theorem execEngineEntryCompletion_canonical (n : Nat) (q : EngQ) : Canonical (execEngineEntryCompletion n q s) := by
  have pushed := pushAll_memWf wf n q 3
  unfold execEngineEntryCompletion
  split
  · exact wf
  refine canonical_ite wf ?_
  dsimp only
  split
  · exact canonical_ite (finishEntry_memWf pushed _ _ _) pushed
  · exact pushed

theorem goOn_memWf (n : Nat) (q : EngQ) (e : Entry) : (goOn s n q e).MemWf := by
  change (after s (if _ then _ else _)).MemWf
  exact (canonical_ite (execSyncTagPosting_canonical wf _) (execEngineEntryStart_canonical wf _ _)).after wf

theorem mixBytes_memWf (t : State) (ps : List Place) : (mixBytes s t ps).MemWf := by
  unfold mixBytes
  refine memWf_foldl (fun u p kept => ?_) _ wf
  dsimp only
  split
  · exact memWf_ite (writePlaces_memWf (drawFree_memWf kept) _) (drawFree_memWf kept)
  · exact drawFree_memWf kept

theorem entryTimeout_canonical (n : Nat) (q : EngQ) (va : Nat) (wr : Bool) : Canonical (entryTimeout n q va wr s) := by
  have gone (e : Entry) {f g : Core → Core} : (modCore (goOn (modCore s n f) n q e) n g).MemWf :=
    modCore_memWf (goOn_memWf (modCore_memWf wf _ _) _ _ _) _ _
  unfold entryTimeout
  split
  · exact wf
  refine canonical_ite wf ?_
  dsimp only
  split
  · exact wf
  · exact canonical_ite wf (canonical_ite (gone _) (mixBytes_memWf (gone _) _ _))

theorem revertBytes_memWf (l : List (Tgt × Byte × Nat)) : (revertBytes s l).MemWf := by
  induction l generalizing s with
  | nil => exact wf
  | cons x l ih => exact ih (memWf_ite (writeTgts_memWf (drawFree_memWf wf) _) (drawFree_memWf wf))

theorem revertSync_memWf (a : Access) : (revertSync s a).MemWf := by
  have drawn := drawFree_memWf wf
  have applied {p : Prop} [Decidable p] (ev : SyncEv) :
      (if p then (syncAt (drawFree s).1 ev a.pa a.opb.toNat).1 else (drawFree s).1).MemWf :=
    memWf_ite (syncAt_memWf drawn _ _ _) drawn
  exact memWf_ite (applied _) (memWf_ite (applied _) (memWf_ite (writePlaces_memWf drawn _) drawn))

theorem accessTimeout_canonical (n id : Nat) : Canonical (accessTimeout n id s) := by
  unfold accessTimeout
  dsimp only
  split
  · exact wf
  refine canonical_ite wf ?_
  split
  · exact revertSync_memWf (setCore_memWf wf _) _
  · exact revertSync_memWf (setCore_memWf wf _) _
  · exact revertBytes_memWf (setCore_memWf wf _) _

theorem execRemoteTimeout_canonical (n : Nat) (what : TimedOut) : Canonical (execRemoteTimeout n what s) := by
  cases what with
  | access id => exact accessTimeout_canonical wf _ _
  | entry q va wr => exact entryTimeout_canonical wf _ _ _ _

theorem execPageServiced_canonical (n extent : Nat) (ok : Bool) : Canonical (execPageServiced n extent ok s) := by
  unfold execPageServiced
  dsimp only
  split
  · exact wf
  refine canonical_ite wf (canonical_ite ?_ ?_)
  · exact memWf_ite (setCore_memWf wf _) (retryJob_memWf (setCore_memWf wf _) _)
  · refine .next (memWf_foldl (fun t q kept => ?_) _ (setCore_memWf wf _))
    split
    · refine memWf_ite ?_ kept
      split
      · exact collFault_memWf kept _ _ _ _ _ _
      · exact endRun_memWf kept _ _ _ _ _ _
    · exact kept

/-! ### Replies (R211, R217-R222) -/

theorem execPostBufferRoom_canonical (n : Nat) : Canonical (execPostBufferRoom n s) := by
  unfold execPostBufferRoom
  dsimp only
  split
  · exact setCore_memWf wf _
  · exact wf

theorem execMemoryReply_canonical (n id : Nat) : Canonical (execMemoryReply n id s) := by
  unfold execMemoryReply
  dsimp only
  split
  · exact canonical_ite (setCore_memWf wf _) wf
  · exact wf

theorem execWriteAcknowledgement_canonical (n id : Nat) : Canonical (execWriteAcknowledgement n id s) := by
  have gone (c : Core) := setCore_memWf wf c
  unfold execWriteAcknowledgement
  dsimp only
  split
  · exact wf
  split
  · exact .next (memWf_ite wf (gone _))
  · exact .next (memWf_ite wf (gone _))
  · exact .next (memWf_ite (gone _) wf)
  · exact .next (memWf_ite (gone _) wf)
  · exact .next (memWf_ite wf (landExpect_memWf (gone _) _ _))
  · exact canonical_ite (gone _) (.next (memWf_ite (landArrival_memWf (gone _) _ _) wf))
  · exact wf

end

end Sys2Proof.Machine
end

section
/-! Canonical memory under the launch scheduler (R388-R415, R433): its counters and records, the images it loads, what it saves and
restores, the frames it moves. -/

namespace Sys2Proof.Machine

/-- Bytes written one by one keep memory canonical. -/
theorem foldl_wr8_wf {α : Type} {at_ : α → Nat} {val : α → Byte} (l : List α) {m : List Host.Cell} (h : Memory.wf m = true) :
    Memory.wf (l.foldl (fun m z => wr8 m (at_ z) (val z)) m) = true :=
  foldl_keeps (P := fun m => Memory.wf m = true) l (fun _ _ _ kept => wr8_wf _ _ kept) h

section
variable {s : State} (wf : s.MemWf)
include wf

/-! ### Counters and records (R393-R398) -/

theorem subWr_memWf (off v : Nat) : (subWr s off v).MemWf := wr64_wf _ _ wf

theorem ctrWr_memWf (j : Job) (off v : Nat) : (ctrWr s j off v).MemWf := memWf_ite wf (wr64_wf _ _ wf)

theorem ctrInc_memWf (j : Job) (off : Nat) : (ctrInc s j off).MemWf := ctrWr_memWf wf _ _ _

theorem putJob_memWf (j : Job) : (putJob s j).MemWf := wf

theorem setLaunch_memWf (x : Launch) : (setLaunch s x).MemWf := wf

theorem putGroup_memWf (g : Group) : (putGroup s g).MemWf := wf

theorem queueRec_memWf (r : CRec) : (queueRec s r).MemWf := wf

theorem writeRecord_memWf : (writeRecord s).MemWf := by
  unfold writeRecord
  split
  · exact wf
  refine memWf_ite wf ?_
  have written (pa off v : Nat) (bs : List Byte) (lsc : Lsc) : (subWr { s with mem := wrN s.mem pa bs, lsc := lsc } off v).MemWf :=
    wr64_wf _ _ (wrN_wf _ _ wf)
  dsimp only
  split
  · exact memWf_ite (written _ _ _ _ _) (written _ _ _ _ _)
  · exact written _ _ _ _ _

/-! ### The ends of units, launches, graphs, phases and jobs (R398-R401, R433) -/

theorem endUnit_memWf (x : Launch) (u : UnitRec) (st code code2 d e j : Nat) : (endUnit s x u st code code2 d e j).MemWf := by
  have ended (x : Launch) := setLaunch_memWf wf x
  unfold endUnit
  refine queueRec_memWf ?_ _
  dsimp only
  split
  · exact ctrInc_memWf (ended _) _ _
  · exact ended _

theorem cancelUnit_memWf (x : Launch) (k : Nat) (u : UnitRec) : (cancelUnit s x k u).MemWf := by
  unfold cancelUnit
  dsimp only
  split
  · exact modCore_memWf wf _ _
  · exact modCore_memWf wf _ _
  · split <;> exact endUnit_memWf wf _ _ _ _ _ _ _ _
  · split <;> exact endUnit_memWf wf _ _ _ _ _ _ _ _
  · split <;> exact endUnit_memWf wf _ _ _ _ _ _ _ _
  · exact wf

theorem cancelUnits_memWf (x : Launch) : (cancelUnits s x).MemWf := memWf_foldl (fun _ _ kept => cancelUnit_memWf kept _ _ _) _ wf

theorem noteEnds_memWf (x : Launch) : (noteEnds s x).MemWf := wf

theorem reapUnit_memWf (x : Launch) (u : UnitRec) : (reapUnit s x u).MemWf := by
  have cancelled : (if (unitCore s u).killed then cancelUnits s (again s x) else s).MemWf := memWf_ite (cancelUnits_memWf wf _) wf
  exact memWf_ite (memWf_ite (endUnit_memWf (setCore_memWf cancelled _) _ _ _ _ _ _ _ _) cancelled) wf

theorem reapAll_memWf : (reapAll s).MemWf :=
  memWf_foldl (fun _ _ kept => memWf_foldl (fun _ _ kept => reapUnit_memWf kept _ _) _ kept) _
    (memWf_foldl (fun _ _ kept => noteEnds_memWf kept _) _ wf)

theorem cancelLaunch_memWf (x : Launch) : (cancelLaunch s x).MemWf := by
  unfold cancelLaunch
  refine memWf_ite wf (cancelUnits_memWf ?_ _)
  exact wf

theorem freeCore_memWf (n : Nat) : (freeCore s n).MemWf := modCore_memWf wf _ _

theorem freeBeds_memWf (bs : List Nat) : (freeBeds s bs).MemWf :=
  memWf_foldl (fun _ _ kept => memWf_foldl (fun _ _ kept => freeCore_memWf kept _) _ kept) _ wf

theorem endLaunch_memWf (x : Launch) : (endLaunch s x).MemWf := by
  have ended (y : Launch) (g : Group) := putGroup_memWf (setLaunch_memWf (freeBeds_memWf wf x.beds) y) g
  unfold endLaunch
  refine queueRec_memWf ?_ _
  dsimp only
  split
  · exact ctrInc_memWf (ended _ _) _ _
  · exact ended _ _

theorem endGraph_memWf (j : Job) (g : Group) : (endGraph s j g).MemWf := by
  unfold endGraph
  refine queueRec_memWf (memWf_ite (ctrWr_memWf ?_ _ _ _) ?_) _ <;> exact memWf_ite wf wf

theorem haltJob_memWf (j : Job) (p : Group) : (haltJob s j p).MemWf := ctrWr_memWf (putJob_memWf wf _) _ _ _

theorem endPhase_memWf (j : Job) (p : Group) : (endPhase s j p).MemWf := by
  have counted (g : Group) := ctrInc_memWf (putGroup_memWf wf g) j 0
  refine queueRec_memWf (memWf_ite (counted _) (ctrWr_memWf (ctrWr_memWf ?_ _ _ _) _ _ _)) _
  exact putJob_memWf (counted _) _

theorem endJobNow_memWf (j : Job) : (endJobNow s j).MemWf :=
  queueRec_memWf (ctrWr_memWf (putJob_memWf wf _) _ _ _) _

theorem preempted_memWf (x : Launch) : (preempted s x).MemWf := freeBeds_memWf wf _

theorem becomeReady_memWf (x : Launch) : (becomeReady s x).MemWf := wf

omit wf in
theorem memWf_of_map {α : Type} {f : State → α → State} (keeps : ∀ x, (f s x).MemWf) {t : State} {o : Option α}
    (h : o.map (f s) = some t) : t.MemWf := by
  obtain ⟨x, -, rfl⟩ := Option.map_eq_some_iff.1 h
  exact keeps x

omit wf in
theorem memWf_of_withJob {f : State → Job → Group → State} (keeps : ∀ j g, (f s j g).MemWf) {t : State} {o : Option Group}
    (h : o.bind (withJob s f) = some t) : t.MemWf := by
  obtain ⟨g, -, hg⟩ := Option.bind_eq_some_iff.1 h
  exact memWf_of_map (f := fun s j => f s j g) (fun j => keeps j g) hg

/-- One end or change of state of the scheduler is one of eight operations. -/
theorem settleStep_memWf {t : State} (h : settleStep s = some t) : t.MemWf := by
  obtain ⟨o, ho, ht⟩ := List.exists_of_findSome?_eq_some h
  obtain rfl : o = some t := ht
  simp only [List.mem_cons, List.not_mem_nil, or_false] at ho
  obtain h | h | h | h | h | h | h | h := ho
  · exact memWf_of_map (endLaunch_memWf wf) h.symm
  · exact memWf_of_withJob (endGraph_memWf wf) h.symm
  · exact memWf_of_withJob (haltJob_memWf wf) h.symm
  · exact memWf_of_withJob (endPhase_memWf wf) h.symm
  · exact memWf_of_map (cancelLaunch_memWf wf) h.symm
  · exact memWf_of_map (preempted_memWf wf) h.symm
  · exact memWf_of_map (becomeReady_memWf wf) h.symm
  · exact memWf_of_map (endJobNow_memWf wf) h.symm

theorem settleLsc_memWf (m : Nat) : (settleLsc s m).MemWf := by
  induction m generalizing s with
  | zero => exact wf
  | succ m ih =>
    unfold settleLsc
    split
    · next t h => exact ih (settleStep_memWf wf h)
    · exact wf

theorem afterLsc_memWf : (afterLsc s).MemWf := settleLsc_memWf wf _

/-! ### Records taken (R389, R390, R394) -/

theorem takeRecord_canonical {mine : Nat → Bool} {act : State → Nat → State} (keeps : ∀ t r, t.MemWf → (act t r).MemWf) :
    Canonical (takeRecord s mine act) := by
  unfold takeRecord
  split
  · exact wf
  refine canonical_ite wf ?_
  have taken (off v : Nat) := subWr_memWf wf off v
  dsimp only
  split
  · exact .next (queueRec_memWf (subWr_memWf (taken _ _) _ _) _)
  · exact .next (afterLsc_memWf (keeps _ _ (taken _ _)))

theorem freshGraph_memWf (job num : Nat) : (freshGraph s job num).MemWf := by
  unfold freshGraph
  split
  · exact memWf_ite wf (ctrWr_memWf wf _ _ _)
  · exact wf

theorem forgetGang_memWf (job gang : Nat) : (forgetGang s job gang).MemWf := memWf_ite wf wf

theorem abortGang_memWf (job gang : Nat) : (abortGang s job gang).MemWf := by
  unfold abortGang
  refine memWf_ite wf (memWf_foldl (fun t x kept => memWf_ite (memWf_ite ?_ (cancelLaunch_memWf (setLaunch_memWf kept _) _)) kept) _ wf)
  exact memWf_foldl (fun t u kept => memWf_ite (modCore_memWf kept _ _) kept) _ kept

theorem markCancelled_memWf (j : Job) (lvl id : Nat) : (markCancelled s j lvl id).MemWf := by
  unfold markCancelled
  split <;> exact wf

theorem execLaunchRecord_canonical : Canonical (execLaunchRecord s) := by
  refine takeRecord_canonical wf fun t r kept => ?_
  have fresh := freshGraph_memWf (forgetGang_memWf kept (launchOf t r).job (launchOf t r).gang) (launchOf t r).job (launchOf t r).graph
  refine putGroup_memWf (putGroup_memWf ?_ _) _
  dsimp only [State.MemWf]
  split
  · exact ctrWr_memWf fresh _ _ _
  · exact fresh

theorem execCancelRecord_canonical : Canonical (execCancelRecord s) := by
  refine takeRecord_canonical wf fun t r kept => ?_
  dsimp only
  split
  · exact kept
  refine memWf_ite kept (memWf_foldl (fun u x kept => ?_) _ (markCancelled_memWf kept _ _ _))
  have cancelled := cancelLaunch_memWf kept (again u x)
  exact memWf_ite (memWf_ite (abortGang_memWf cancelled _ _) cancelled) kept

theorem execReplayRecord_canonical : Canonical (execReplayRecord s) := by
  refine takeRecord_canonical wf fun t r kept => ?_
  exact retryJob_memWf kept _

theorem execResumeBed_canonical : Canonical (execResumeBed s) := by
  refine takeRecord_canonical wf fun t r kept => ?_
  exact memWf_foldl (fun _ _ kept => modCore_memWf kept _ _) _ (modBed_memWf kept _ _)

theorem execHaltBed_canonical : Canonical (execHaltBed s) := by
  refine takeRecord_canonical wf fun t r kept => ?_
  exact modBed_memWf kept _ _

theorem execClose_canonical : Canonical (execClose s) := by
  refine takeRecord_canonical wf fun t r kept => ?_
  exact putGroup_memWf (memWf_ite (freshGraph_memWf kept _ _) kept) _

theorem execOpenJob_canonical : Canonical (execOpenJob s) := by
  refine takeRecord_canonical wf fun t r kept => ?_
  exact zeroN_wf _ _ kept

theorem execEndJob_canonical : Canonical (execEndJob s) := by
  refine takeRecord_canonical wf fun t r kept => ?_
  split
  · exact putJob_memWf kept _
  · exact kept

theorem execCompletionRecordWrite_canonical : Canonical (execCompletionRecordWrite s) :=
  canonical_ite (writeRecord_memWf (afterLsc_memWf (reapAll_memWf wf))) wf

theorem refuseAccess_memWf (addr : Nat) : (refuseAccess s addr).MemWf := memWf_ite wf wf

theorem execNotify_canonical (n : Submission) : Canonical (execNotify n s) := by
  unfold execNotify
  split
  · refine .next ?_
    dsimp only [State.MemWf]
    exact subWr_memWf wf _ _
  · exact .next (refuseAccess_memWf wf _)

theorem execCread_canonical (n : Nat) : Canonical (execCread n s) := by
  have read : (if subRd s 0x20 ≤ n ∧ n ≤ subRd s 0x18 then subWr s 0x20 n else s).MemWf := memWf_ite (subWr_memWf wf _ _) wf
  unfold execCread
  split
  · refine .next ?_
    dsimp only [State.MemWf]
    exact read
  · exact .next (refuseAccess_memWf wf _)

/-! ### Placement (R403-R405) -/

theorem putSection_memWf (pa : Nat) (z : Section) : (putSection s pa z).MemWf := wrN_wf _ _ wf

theorem loadCopies_memWf (x : Launch) : (loadCopies s x).MemWf := by
  unfold loadCopies
  split
  · exact wf
  · exact memWf_foldl (fun _ _ kept => putSection_memWf kept _ _) _ (zeroRuns_memWf wf _)

theorem loadSbm_memWf (x : Launch) (r : Nat × Nat) : (loadSbm s x r).MemWf := by
  unfold loadSbm
  split
  · exact wf
  · exact memWf_foldl (fun _ _ kept => putSection_memWf kept _ _) _ (zeroRuns_memWf wf _)

theorem loadSpad_memWf (x : Launch) (n : Nat) : (loadSpad s x n).MemWf := by
  unfold loadSpad
  dsimp only
  split
  · exact zeroRuns_memWf wf _
  · exact memWf_foldl (fun _ _ kept => putSection_memWf kept _ _) _ (zeroRuns_memWf wf _)

/-- Bytes that move with their frame (R254, R260): the frame's new place holds them and nothing else. -/
theorem copyRun_memWf (s0 : State) (a b n : Nat) : (copyRun s0 s a b n).MemWf := foldl_wr8_wf _ (zeroRuns_memWf wf _)

theorem placeLaunch_memWf (x : Launch) (beds : List Nat) : (placeLaunch s x beds).MemWf := by
  unfold placeLaunch
  refine memWf_ite (memWf_foldl (fun _ _ kept => copyRun_memWf kept _ _ _ _) _ ?_)
    (memWf_foldl (fun _ _ kept => loadSbm_memWf kept _ _) _ (loadCopies_memWf ?_ _)) <;> exact wf

theorem startPreemption_memWf (x : Launch) : (startPreemption s x).MemWf := by
  unfold startPreemption
  dsimp only
  split
  · exact wf
  · refine memWf_foldl (fun t v kept => ?_) _ wf
    exact memWf_foldl (fun u y kept => memWf_ite (modCore_memWf kept _ _) kept) _ kept

theorem execLaunchPlacement_canonical : Canonical (execLaunchPlacement s) := by
  unfold execLaunchPlacement
  refine canonical_ite wf ?_
  split
  · exact placeLaunch_memWf wf _ _
  · split
    · exact startPreemption_memWf wf _
    · exact wf

theorem execLaunchAgeing_canonical (job lid : Nat) : Canonical (execLaunchAgeing job lid s) := by
  unfold execLaunchAgeing
  split
  · exact canonical_ite wf wf
  · exact wf

/-! ### Start and save of units (R42, R399, R409-R412) -/

theorem restoreSpad_memWf (u : UnitRec) (n : Nat) : (restoreSpad s u n).MemWf :=
  memWf_foldl (fun _ _ kept => wr8_wf _ _ kept) _ (zeroRuns_memWf wf _)

theorem startUnit_memWf (x : Launch) (u : UnitRec) : (startUnit s x u).MemWf := by
  unfold startUnit
  extract_lets c old s1
  have loaded : s1.MemWf := by
    unfold s1 old
    split
    · exact restoreSpad_memWf wf _ _
    · exact loadSpad_memWf wf _ _
  exact setLaunch_memWf (setCore_memWf loaded _) _

theorem makeResident_memWf (job : Nat) (l : List Extent) : (makeResident s job l).MemWf := by
  unfold makeResident
  split <;> exact wf

theorem execUnitStart_canonical (job lid unit : Nat) : Canonical (execUnitStart job lid unit s) := by
  unfold execUnitStart
  split
  · exact wf
  split
  · exact wf
  · exact canonical_ite wf (canonical_ite (makeResident_memWf wf _ _) (startUnit_memWf wf _ _))

theorem execUnitSave_canonical (n : Nat) : Canonical (execUnitSave n s) := by
  unfold execUnitSave
  dsimp only
  split
  · exact wf
  split
  · exact wf
  · exact canonical_ite wf (canonical_ite (setLaunch_memWf wf _) (.next (afterLsc_memWf (setLaunch_memWf (freeCore_memWf wf _) _))))

/-! ### The barrier, gangs and votes (R228, R254, R371-R373, R408, R413-R415) -/

theorem moveBlock_memWf (e : Extent) (m : Move) (k : Nat) : (moveBlock s e m k).MemWf := by
  unfold moveBlock
  dsimp only
  split
  · exact writeTgts_memWf wf _
  · exact wf

theorem moveFrames_memWf (e : Extent) (m : Move) : (moveFrames s e m).MemWf :=
  memWf_ite (copyRun_memWf wf _ _ _ _)
    (memWf_ite (copyRun_memWf wf _ _ _ _) (memWf_foldl (fun _ _ kept => moveBlock_memWf kept _ _ _) _ wf))

theorem makeMoves_memWf (x : Launch) (ms : List Move) : (makeMoves s x ms).MemWf :=
  memWf_foldl (fun _ _ kept => moveFrames_memWf kept _ _) _ wf

theorem execBarrierAdvance_canonical (job : Nat) (ex : Exchange) : Canonical (execBarrierAdvance job ex s) := by
  unfold execBarrierAdvance
  split
  · exact wf
  · exact canonical_ite wf (makeMoves_memWf wf _ _)

theorem execBudgetExpiry_canonical (n : Nat) : Canonical (execBudgetExpiry n s) := canonical_ite (setCore_memWf wf _) wf

theorem commitGang_memWf (job gang : Nat) : (commitGang s job gang).MemWf :=
  memWf_foldl (fun _ _ kept => memWf_ite (memWf_foldl (fun _ _ kept => memWf_ite (modCore_memWf kept _ _) kept) _ kept) kept) _ wf

theorem execGangAck_canonical (job gang : Nat) (m : GangMember) : Canonical (execGangAck job gang m s) := by
  have drawn (p : Prop) [Decidable p] (g : Gang) : (putGang (if p then drawFree s else (s, 1)).1 g).MemWf :=
    memWf_fst_ite (drawFree_memWf wf) wf
  exact canonical_ite wf (canonical_ite (drawn _ _) (memWf_ite (commitGang_memWf (drawn _ _) _ _) (drawn _ _)))

theorem execSieveVote_canonical (job cgid : Nat) : Canonical (execSieveVote job cgid s) := by
  unfold execSieveVote
  split
  · exact wf
  refine canonical_ite wf (.next (afterLsc_memWf (memWf_foldl (fun t x kept => ?_) _ wf)))
  exact memWf_ite kept kept

end

end Sys2Proof.Machine
end

section
/-! Canonical memory under the platform (R416-R429), the accesses from outside (R144, R426) and the beds' clocks (R120-R130). -/

namespace Sys2Proof.Machine

section
variable {s : State} (wf : s.MemWf)
include wf

/-! ### Periods and demands (R416-R419) -/

theorem setPeriod_memWf (b period : Nat) (cause : Option Nat) : (setPeriod s b period cause).MemWf := by
  have timed := modBed_memWf wf b (fun x => { x with period := period })
  unfold setPeriod
  dsimp only
  split
  · exact memWf_ite timed timed
  · exact timed

theorem rouse_memWf : (rouse s).MemWf := by
  unfold rouse
  dsimp only [State.MemWf]
  exact wf

theorem noteLoad_memWf (p : Nat) : (noteLoad s p).MemWf := by
  unfold noteLoad
  dsimp only
  split <;> exact wf

theorem nextDemands_memWf (p : Nat) : (nextDemands s p).MemWf := by
  unfold nextDemands
  split <;> exact wf

theorem tickPair_memWf (p : Nat) : (tickPair s p).MemWf := by
  have asked := nextDemands_memWf (noteLoad_memWf wf p) p
  unfold tickPair
  exact setPeriod_memWf (setPeriod_memWf asked _ _ _) _ _ _

theorem setDie_memWf (d : Die) : (setDie s d).MemWf := wf

theorem setVoltage_memWf (die : Nat) : (setVoltage s die).MemWf := setDie_memWf wf _

theorem tickPower_memWf (b : Nat) : (tickPower s b).MemWf := by
  have hinted := modBed_memWf wf b (fun x => { x with ramphint := rampHint ((getDie s (b / 8)).t16 - 1360) })
  exact memWf_ite (setVoltage_memWf (tickPair_memWf hinted _) _) hinted

/-! ### Bring-up, trips and the loss of power (R421-R429) -/

theorem coldBeds_memWf : (coldBeds s).MemWf := wf

theorem coldLsc_memWf : (coldLsc s).MemWf := wf

theorem boot_memWf {t : State} (h : boot s = some t) : t.MemWf := by
  unfold boot at h
  split at h
  · cases h
    exact wf
  split at h
  · cases h
    exact wf
  · cases h

theorem bringUp_memWf : (bringUp s).MemWf := by
  unfold bringUp
  extract_lets s1 _ pl
  have cold : s1.MemWf := coldLsc_memWf (coldBeds_memWf wf)
  split
  · next t h => exact zeroN_wf _ _ (boot_memWf (s := { s1 with plat := pl }) cold h)
  · exact cold

theorem tripSaved_memWf : (tripSaved s).MemWf :=
  memWf_foldl (fun _ _ kept => memWf_foldl (fun _ _ kept => cancelUnit_memWf kept _ _ _) _ kept) _ wf

theorem failLaunches_memWf (ended : List (Nat × Nat)) : (failLaunches ended s).MemWf := by
  unfold failLaunches
  exact memWf_foldl (fun _ _ kept => memWf_ite kept (cancelUnits_memWf (setLaunch_memWf kept _) _)) _ wf

theorem trip_memWf : (trip s).MemWf := by
  unfold trip
  dsimp only [State.MemWf]
  refine coldBeds_memWf (afterLsc_memWf (failLaunches_memWf (reapAll_memWf (tripSaved_memWf ?_)) _))
  exact wf

theorem writePstat_memWf : (writePstat s).MemWf := wf

theorem tripNow_memWf : (tripNow s).MemWf := by
  have noted := writePstat_memWf wf
  unfold tripNow
  split
  · exact wf
  · exact trip_memWf noted
  · exact trip_memWf noted
  · exact noted
  · exact noted
  · exact noted

theorem hostReset_memWf : (hostReset s).MemWf := bringUp_memWf (writePstat_memWf wf)

theorem execPowerOn_canonical : Canonical (execPowerOn s) := by
  have up (rf tt : Bool) := bringUp_memWf (s := { s with plat := { s.plat with rfail := rf, ttrip := tt } }) wf
  unfold execPowerOn
  split
  · exact up _ _
  · exact up _ _
  · exact wf
  · exact wf
  · exact wf
  · exact wf

omit wf in
/-- A package that loses its input power loses its memory: an empty one is canonical. -/
theorem execLossOfInputPower_canonical (s : State) : Canonical (execLossOfInputPower s) := tabWf_nil (0 : Byte)

theorem execPreset_canonical (v : Word) : Canonical (execPreset v s) := by
  unfold execPreset
  refine canonical_ite (.next (memWf_ite (hostReset_memWf ?_) ?_)) wf <;> exact wf

theorem execRdoor_canonical (n : Nat) : Canonical (execRdoor n s) := by
  unfold execRdoor
  refine canonical_ite wf (canonical_ite ?_ (canonical_ite (.next (hostReset_memWf ?_)) ?_)) <;> exact wf

theorem execTemperatureSample_canonical (die : Nat) (x : Sensors) : Canonical (execTemperatureSample die x s) := by
  have sampled (d : Die) := rouse_memWf (setDie_memWf wf d)
  unfold execTemperatureSample
  split
  · exact canonical_ite wf (sampled _)
  · exact canonical_ite wf (sampled _)
  · exact canonical_ite wf (sampled _)
  · exact wf
  · exact wf
  · exact wf

theorem execPwrcap_canonical (v : Word) : Canonical (execPwrcap v s) := by
  unfold execPwrcap
  refine canonical_ite (refuseAccess_memWf wf _) (canonical_ite (rouse_memWf ?_) ?_) <;> exact wf

theorem execPhaseLoss_canonical (rail : Nat) : Canonical (execPhaseLoss rail s) := by
  unfold execPhaseLoss
  refine canonical_ite wf (canonical_ite (execLossOfInputPower_canonical s)
    (canonical_ite (.next (tripNow_memWf ?_)) (.next (rouse_memWf ?_)))) <;> exact wf

theorem execThermalTrip_canonical (die : Nat) : Canonical (execThermalTrip die s) := by
  have tripped := tripNow_memWf (s := { s with plat := { s.plat with heatTrip := true } }) wf
  unfold execThermalTrip
  split
  · exact canonical_ite tripped wf
  · exact canonical_ite tripped wf
  · exact wf
  · exact wf
  · exact wf
  · exact wf

theorem execAttestationRequest_canonical (nonce : Nat) : Canonical (execAttestationRequest nonce s) := by
  unfold execAttestationRequest
  exact canonical_ite (refuseAccess_memWf wf _) wf

theorem execCorrectableError_canonical (b : Nat) : Canonical (execCorrectableError b s) := by
  unfold execCorrectableError
  exact canonical_ite wf (modBed_memWf wf _ _)

theorem execFreezeEnd_canonical (b : Nat) : Canonical (execFreezeEnd b s) := modBed_memWf wf _ _

theorem execApertureRegisterWrite_canonical (die n reg : Nat) (v : Word) : Canonical (execApertureRegisterWrite die n reg v s) := by
  unfold execApertureRegisterWrite
  exact canonical_ite wf (canonical_ite wf wf)

/-! ### Accesses from outside (R144, R426) -/

theorem remoteLoad_memWf (addr len : Nat) : (remoteLoad s addr len).MemWf := by
  unfold remoteLoad
  dsimp only
  split
  · exact wf
  · exact wf
  · exact wf
  · split
    · exact wf
    · exact refuseAccess_memWf wf _
  · exact refuseAccess_memWf wf _

theorem outerWrite_memWf (addr : Nat) (ps : Option (List Place)) (bytes : List Byte) : (outerWrite s addr ps bytes).MemWf := by
  unfold outerWrite
  split
  · exact refuseAccess_memWf wf _
  · exact writePlaces_memWf wf _

theorem remoteStore_canonical (addr : Nat) (bytes : List Byte) : Canonical (remoteStore s addr bytes) := by
  have refused := refuseAccess_memWf wf addr
  have plain (ps : Option (List Place)) := outerWrite_memWf wf addr ps bytes
  unfold remoteStore
  dsimp only
  split
  · exact canonical_ite (execPwrcap_canonical wf _) refused
  · exact canonical_ite (execPreset_canonical wf _) refused
  · exact canonical_ite (execRdoor_canonical wf _) refused
  · exact canonical_ite (execCread_canonical wf _) (.next (memWf_ite (plain _) refused))
  · exact plain _
  · exact plain _
  · exact refused

theorem remoteAtomic_canonical (aop : Aop) (addr : Nat) (b c : Word) (peer : Nat) : Canonical (remoteAtomic s aop addr b c peer) := by
  have refused := refuseAccess_memWf wf addr
  unfold remoteAtomic
  dsimp only
  refine canonical_ite refused ?_
  split
  · exact canonical_ite (execNotify_canonical wf _) refused
  · split
    · exact refused
    · refine .next ?_
      dsimp only [State.MemWf]
      split
      · exact writePlaces_memWf wf _
      · exact wf
  · exact refused

theorem execRemoteAccess_canonical (r : RemoteReq) : Canonical (execRemoteAccess r s) := by
  unfold execRemoteAccess
  refine canonical_ite wf ?_
  split
  · exact canonical_ite wf (remoteLoad_memWf wf _ _)
  · exact canonical_ite wf (remoteStore_canonical wf _ _)
  · exact canonical_ite wf (remoteAtomic_canonical wf _ _ _ _ _)

/-! ### Results, arrivals and waits at a tick (R28, R89, R90, R228) -/

theorem landPush_memWf (n q : Nat) (v : Word) : (landPush s n q v).MemWf := memWf_ite (modCore_memWf wf _ _) (modCore_memWf wf _ _)

theorem landOne_memWf (n : Nat) (l : Land) : (landOne s n l).MemWf := by
  cases l with
  | push q v => exact landPush_memWf wf _ _ _
  | amax clr part sa =>
    have drained := fun f => modCore_memWf (advanceDrain_memWf wf n) n f
    exact memWf_ite (drained _) (memWf_ite (landPush_memWf (drained _) _ _ _) (modCore_memWf (drained _) _ _))
  | nothing => exact wf
  | sreg | creg | vcol | mcol | pat | tok | cell => exact modCore_memWf wf _ _

theorem landDue_memWf (n b : Nat) : (landDue s n b).MemWf := memWf_foldl (fun _ _ kept => landOne_memWf kept _ _) _ (modCore_memWf wf _ _)

theorem setArrived_memWf (c : Core) (v : Bool) : (setArrived s c v).MemWf := by
  unfold setArrived
  split <;> exact wf

theorem nextSuperstep_memWf (c : Core) : (nextSuperstep s c).MemWf := setCore_memWf wf _

theorem postArrival_memWf (n : Nat) : (postArrival s n).MemWf := by
  unfold postArrival
  dsimp only
  split
  · split
    · exact memWf_ite (setCore_memWf (setArrived_memWf wf _ _) _) wf
    · exact wf
  · exact wf

theorem endWait_memWf (n b : Nat) : (endWait s n b).MemWf := by
  have left (c : Core) (v : Bool) (d : Core) := setCore_memWf (setArrived_memWf wf c v) d
  unfold endWait
  dsimp only
  split
  · exact wf
  refine memWf_ite wf ?_
  split
  · exact left _ _ _
  split
  · exact left _ _ _
  split
  · exact nextSuperstep_memWf wf _
  · exact setCore_memWf wf _

theorem tickArea_memWf (bt : Nat) (c : Core) : (tickArea s bt c).MemWf := by
  unfold tickArea
  split
  · exact wf
  split
  · exact memWf_ite (modCore_memWf wf _ _) wf
  · exact wf

theorem tickAreas_memWf (b : Nat) : (tickAreas s b).MemWf := memWf_foldl (fun _ _ kept => tickArea_memWf kept _ _) _ wf

theorem tickBudget_memWf (n : Nat) : (tickBudget s n).MemWf := by
  have spent (c : Core) := setCore_memWf wf c
  exact memWf_ite ((execBudgetExpiry_canonical (spent _) _).after (spent _)) wf

/-! ### The ticks of a bed (R120-R130) -/

theorem setHeld_memWf (b : Nat) (stop : Bool) : (setHeld s b stop).MemWf := modBed_memWf wf _ _

theorem release_memWf (b : Nat) : (release s b).MemWf := setHeld_memWf (tickAreas_memWf wf _) _ _

theorem openBed_memWf (b : Nat) : (openBed s b).MemWf := by
  have opened := modBed_memWf wf b (fun x => { x with btick := x.btick + 1, closed := false, held := false, stall := false })
  unfold openBed
  refine release_memWf ?_ _
  refine memWf_foldl (fun _ _ kept => trellisStarts_memWf kept _) _ ?_
  refine memWf_foldl (fun _ _ kept => endWait_memWf kept _ _) _ ?_
  refine memWf_foldl (fun _ _ kept => modCore_memWf kept _ _) _ ?_
  refine memWf_foldl (fun _ _ kept => vecCharges_memWf kept _ _) _ ?_
  exact memWf_foldl (fun _ _ kept => landDue_memWf kept _ _) _ opened

theorem wallTick_memWf (b : Nat) : (wallTick s b).MemWf := by
  unfold wallTick
  refine memWf_foldl (fun t n kept => postArrival_memWf (memWf_ite ?_ (tickBudget_memWf ?_ _)) _) _ (modBed_memWf wf _ _) <;>
    exact modCore_memWf kept _ _

theorem recordHalt_memWf (b : Nat) : (recordHalt s b).MemWf := memWf_foldl (fun _ _ kept => memWf_ite (setCore_memWf kept _) kept) _ wf

theorem haltTrellis_memWf (b : Nat) : (haltTrellis s b).MemWf :=
  memWf_foldl (fun _ _ kept => trellisTick_memWf ((execTrellisEntryStart_canonical kept _).after kept) _) _ wf

theorem parkEngines_memWf (b : Nat) : (parkEngines s b).MemWf := by
  unfold parkEngines
  refine memWf_foldl (fun t c kept => memWf_foldl (fun _ _ kept => holdEngine_memWf kept _ _) _ ?_) _ wf
  split
  · exact memWf_ite kept (memWf_ite (holdTrellis_memWf kept _ _) (trellisTick_memWf kept _))
  · exact kept

theorem decideTick_memWf (b : Nat) : (decideTick s b).MemWf := by
  unfold decideTick
  extract_lets x shut s1 s2 s3
  have aged : s1.MemWf := memWf_ite (tickAreas_memWf wf _) wf
  have frozen : s2.MemWf := memWf_ite aged (memWf_ite ((execFreezeEnd_canonical aged b).after aged) (modBed_memWf aged _ _))
  have closes {t : State} (kept : t.MemWf) : (shut t).MemWf := modBed_memWf kept _ _
  have halted : s3.MemWf := recordHalt_memWf frozen _
  exact memWf_ite (closes (memWf_ite halted (memWf_ite (parkEngines_memWf halted _) (haltTrellis_memWf halted _))))
    (memWf_ite (closes frozen) (memWf_ite (release_memWf frozen _) (memWf_ite (openBed_memWf frozen _) (closes frozen))))

theorem enterBed_memWf (b : Nat) : (enterBed s b).MemWf := by rwa [State.MemWf, enterBed_mem]

theorem tickBed_memWf (b : Nat) : (tickBed s b).MemWf :=
  decideTick_memWf (tickPower_memWf (wallTick_memWf (memWf_ite wf (endTick_memWf wf _)) _) _) _

theorem tripTick_memWf (b : Nat) : (tripTick s b).MemWf := by
  have closed (f : Bed → Bed) : (modBed (if (getBed s b).closed then s else endTick s b) b f).MemWf :=
    modBed_memWf (memWf_ite wf (endTick_memWf wf _)) _ _
  unfold tripTick
  refine memWf_ite (trip_memWf (writePstat_memWf ?_)) (enterBed_memWf ?_ _) <;> exact closed _

theorem execScheduleTick_canonical (b : Nat) : Canonical (execScheduleTick b s) := by
  unfold execScheduleTick
  refine canonical_ite wf (canonical_ite (tripTick_memWf wf _) (.next (enterBed_memWf ?_ _)))
  refine memWf_foldl (fun _ _ kept => tickBed_memWf kept _) _ ?_
  exact tickBed_memWf wf _

theorem execBedResume_canonical (b : Nat) : Canonical (execBedResume b s) := by
  have ticked := tickPower_memWf (wallTick_memWf wf b) b
  exact canonical_ite wf (canonical_ite (enterBed_memWf (openBed_memWf ticked _) _) wf)

end

end Sys2Proof.Machine
end

section
/-! Every step keeps memory canonical (R243, R244, log 1): each word by the operation that issues it, each event by what it does, each
turn of a core by the columns, the boundary condition or the word that has it. -/

namespace Sys2Proof.Machine

section
variable {s : State} (wf : s.MemWf)
include wf

/-! ### Every instruction and event -/

theorem execTrapEntry_canonical : Canonical (execTrapEntry s) := by
  unfold execTrapEntry
  dsimp only
  split
  · exact canonical_ite wf wf
  · exact wf

theorem execPreemptionStop_canonical : Canonical (execPreemptionStop s) := by
  unfold execPreemptionStop
  dsimp only
  split
  · exact canonical_ite wf wf
  · exact wf

theorem execFetchFault_canonical : Canonical (execFetchFault s) := by
  unfold execFetchFault
  split <;> exact wf

theorem runGraft_canonical (i : Instr) (f : EregW) : Canonical (runGraft s i f) := by
  unfold runGraft
  split
  · exact runEreg_canonical wf
  · exact wf

theorem runFetch_canonical (i : Instr) (f : EregW) : Canonical (runFetch s i f) := by
  unfold runFetch
  exact runEreg_canonical wf

theorem runCopy_canonical (i : Instr) (f : EregW) : Canonical (runCopy s i f) := by
  unfold runCopy
  exact runEreg_canonical wf

theorem runBcoll_canonical (i : Instr) (kind : Nat) (f : EregW) : Canonical (runBcoll s i kind f) := by
  unfold runBcoll
  exact runEngine_canonical wf fun _ kept => kept

theorem crSample_memWf (sel : Nat) : (crSample s sel).MemWf := memWf_ite (advanceDrain_memWf wf _) wf

/-- No instruction and no event writes memory but by byte writes, zeroed ranges and emptied memory, which keep it canonical. -/
theorem exec_canonical (i : Instr) : Canonical (exec i s) := by
  cases i with simp only [exec]
  | nop _ | hchk _ | crswp _ => exact runNext_id_canonical wf
  | add _ | sub _ | xor _ | neg _ | rol _ | mulo _ | addi _ | xori _ | roli _ | muloi _ | swap _ | cswap _ | xorw _ | bpermE _
  | hclaim _ | hrel _ | pgreq _ | hpush _ | hpop _ | hmark _ | hdrop _ | trap _ | uhtopWrite _ _ | done _ | kill _ =>
    exact runNext_onCore_canonical wf
  | bperm _ => exact runNext_id_canonical wf
  | crrd _ => exact runNext_onCore_canonical (crSample_memWf wf _)
  | call _ | bc _ | ret _ | loop _ | sret _ => exact runWord_canonical wf fun _ kept => kept
  | add3 _ | sub3 _ | xor3 _ | and _ | or _ | mul _ | mulh _ | shl _ | shr _ | sar _ | mov _ | clr _ | ext _ | norm _ | popc _
  | cmpeq _ | cmplt _ | cmplo _ | andi _ | ori _ | shli _ | shri _ | sari _ | movi _ | movw _ | bfx _ | bfi _ =>
    exact runNext_onCore_canonical wf
  | keepForm _ | backForm _ | min _ | max _ | minK _ | maxK _ | minB _ | maxB _ | crwr _ | crset _ | crclr _ =>
    exact runNext_onCore_canonical wf
  | fence _ => exact execFence_canonical wf _
  | tmark _ => exact execTmark_canonical wf _
  | syarr _ => exact execSyarr_canonical wf _
  | safept _ => exact execSafept_canonical wf _
  | dbgbrk _ => exact execDbgbrk_canonical wf _
  | replay _ => exact runNext_canonical wf fun _ kept => retryJob_memWf kept _
  | ld _ | ldx _ => exact runLoad_canonical wf _ _
  | st _ | stx _ => exact runStore_canonical wf _ _
  | atomAdd _ | atomMin _ | atomMax _ | atomAnd _ | atomOr _ | atomXor _ | atomSwp _ | atomCas _ | atomFadd _ =>
    exact runAtom_canonical wf _ _
  | qwait _ | xbar _ | twait _ | syexp _ | sywait _ | wsend _ => exact runWait_canonical wf fun _ kept => kept
  | hspill _ | hfill _ => exact runSpill_canonical wf _ _
  | vadd _ | vsub _ | vmul _ | vfma _ | vmin _ | vmax _ | vabs _ | vneg _ | vand _ | vor _ | vxor _ | vshl _ | vshr _ | vsar _
  | vradd _ | vrsub _ | vrxor _ | vswap _ | vcmpeq _ | vcmplt _ | vcmple _ | vclass _ | vsel _ | vcvt _ | vscacc _ | vredr _
  | vredrScalar _ | vredc _ | vrot _ | vbcast _ | vxcol _ | vrcp _ | vrsq _ | vexp2 _ | vamax _ | vamaxClr _ | vmovs _
  | vmovsAll _ | vmovv _ | vpand _ | vpor _ | vpnot _ | vpany _ => exact runVreg_canonical wf _ _
  | vld _ | vldx _ | vst _ | vstx _ | vswpm _ => exact runVmem_canonical wf _
  | tmacb _ | tdrainVec _ | bseed _ =>
    simp only [execTmacb, execTdrainVec, execBseed]
    exact runEngine_canonical wf fun _ kept => kept
  | bcollAllreduce _ | bcollRedscat _ | bcollAllgath _ | bcollBcast _ => exact runBcoll_canonical wf _ _ _
  | tloadw _ | anorm _ | aclr _ | tstat _ | cpstat _ | gsetm _ | gclr _ | gstat _ | gstatInfo _ | bcopy _ | bfill _ | bstat _
  | bstatInfo _ => exact runEreg_canonical wf
  | tdrain _ | tdrainb _ | torg _ | gload _ | gstore _ | gsetb _ | bred _ | bdig _ =>
    simp only [execTdrain, execTdrainb, execTorg, execGload, execGstore, execGsetb, execBred, execBdig]
    exact runEreg_canonical wf
  | tfetchRow _ | tfetchCol _ => exact runFetch_canonical wf _ _
  | cpy _ | cpyt _ | cpgath _ | cpscat _ | cpfill _ | cpxor _ | cpswp _ => exact runCopy_canonical wf _ _
  | batomAdd _ | batomMin _ | batomMax _ | batomAnd _ | batomOr _ | batomXor _ | batomSwp _ | batomCas _ | batomFadd _ =>
    exact runEreg_canonical wf
  | tswap _ | tmac _ | tnop _ => exact runEstamp_canonical wf
  | graftAppend _ | graftSum _ | graftSplit _ | gproj _ => exact runGraft_canonical wf _ _
  | bpld _ => exact execBpld_canonical wf _
  | swpm _ => exact execSwpm_canonical wf _
  | erase _ => exact execErase_canonical wf _
  | launchRecord => exact execLaunchRecord_canonical wf
  | cancelRecord => exact execCancelRecord_canonical wf
  | replayRecord => exact execReplayRecord_canonical wf
  | resumeBed => exact execResumeBed_canonical wf
  | haltBed => exact execHaltBed_canonical wf
  | close => exact execClose_canonical wf
  | openJob => exact execOpenJob_canonical wf
  | endJob => exact execEndJob_canonical wf
  | remoteAccess _ => exact execRemoteAccess_canonical wf _
  | remoteTimeout _ _ => exact execRemoteTimeout_canonical wf _ _
  | phaseLoss _ => exact execPhaseLoss_canonical wf _
  | neighbourWordLanding _ => exact modCore_memWf wf _ _
  | statusWordPush _ _ => exact pushOut_memWf wf _ _
  | syncWordEvent _ _ _ => exact syncAt_memWf wf _ _ _
  | gangAbort _ _ => exact afterLsc_memWf (abortGang_memWf wf _ _)
  | illegalInstruction _ => exact wf
  | lossOfInputPower => exact execLossOfInputPower_canonical s
  | memoryReply _ _ => exact execMemoryReply_canonical wf _ _
  | postBufferRoom _ => exact execPostBufferRoom_canonical wf _
  | writeAcknowledgement _ _ => exact execWriteAcknowledgement_canonical wf _ _
  | trellisEntryStart _ => exact execTrellisEntryStart_canonical wf _
  | stampTick _ => exact execStampTick_canonical wf _
  | trellisEntryCompletion _ => exact execTrellisEntryCompletion_canonical wf _
  | engineEntryStart _ _ => exact execEngineEntryStart_canonical wf _ _
  | syncTagPosting _ => exact execSyncTagPosting_canonical wf _
  | engineEntryCompletion _ _ => exact execEngineEntryCompletion_canonical wf _ _
  | pageServiced _ _ _ => exact execPageServiced_canonical wf _ _ _
  | trapEntry => exact execTrapEntry_canonical wf
  | preemptionStop => exact execPreemptionStop_canonical wf
  | fetchFault => exact execFetchFault_canonical wf
  | sieveVote _ _ => exact execSieveVote_canonical wf _ _
  | barrierAdvance _ _ => exact execBarrierAdvance_canonical wf _ _
  | budgetExpiry _ => exact execBudgetExpiry_canonical wf _
  | notify _ => exact execNotify_canonical wf _
  | cread _ => exact execCread_canonical wf _
  | unitStart _ _ _ => exact execUnitStart_canonical wf _ _ _
  | unitSave _ => exact execUnitSave_canonical wf _
  | gangAck _ _ _ => exact execGangAck_canonical wf _ _ _
  | launchPlacement => exact execLaunchPlacement_canonical wf
  | launchAgeing _ _ => exact execLaunchAgeing_canonical wf _ _
  | completionRecordWrite => exact execCompletionRecordWrite_canonical wf
  | bedResume _ => exact execBedResume_canonical wf _
  | scheduleTick _ => exact execScheduleTick_canonical wf _
  | correctableError _ => exact execCorrectableError_canonical wf _
  | freezeEnd _ => exact execFreezeEnd_canonical wf _
  | temperatureSample _ _ => exact execTemperatureSample_canonical wf _ _
  | pwrcap _ => exact execPwrcap_canonical wf _
  | thermalTrip _ => exact execThermalTrip_canonical wf _
  | apertureRegisterWrite _ _ _ _ => exact execApertureRegisterWrite_canonical wf _ _ _ _
  | preset _ => exact execPreset_canonical wf _
  | rdoor _ => exact execRdoor_canonical wf _
  | attestationRequest _ => exact execAttestationRequest_canonical wf _
  | powerOn => exact execPowerOn_canonical wf

/-! ### Every step -/

theorem issueWord_canonical : Canonical (issueWord exec s) := by
  unfold issueWord
  split
  · exact exec_canonical wf _
  dsimp only
  split
  · exact exec_canonical wf _
  · exact exec_canonical wf _
  · exact wf

/-- What is taken at a boundary before a word changes the core alone (R174). -/
theorem boundary_memWf {t : State} (h : boundary exec s = some t) : t.MemWf := by
  unfold boundary at h
  dsimp only at h
  split at h
  · cases h
  split at h
  · cases h
  split at h
  · next q hq =>
    split at hq
    · cases hq
      cases h
      exact wf
    · cases hq
  split at h
  · cases h
    exact memWf_ite wf wf
  · cases h
    exact wf
  · cases h
    exact wf
  · split at h <;> cases h <;> exact wf

theorem trapTurn_canonical (r : TrapReq) : Canonical (trapTurn exec s r) :=
  canonical_ite wf (canonical_ite wf ((exec_canonical wf _).mapNext fun _ kept => moveOn_memWf kept))

theorem bytesOf_memWf (from_ : State) (l : List (Nat × Nat)) : (bytesOf from_ s l).MemWf :=
  memWf_foldl (fun _ _ kept => wrN_wf _ _ kept) l wf

theorem crossTurn_canonical : Canonical (crossTurn exec s) := by
  unfold crossTurn
  split
  · refine (issueWord_canonical wf).mapNext fun t kept => passOn_memWf (bytesOf_memWf (vmemColumns_memWf ?_) _ _)
    exact bytesOf_memWf (lateColumns_memWf kept) _ _
  · refine (issueWord_canonical (vmemColumns_memWf wf)).mapNext fun t kept => passOn_memWf ?_
    exact kept

theorem coreTurn_canonical : Canonical (coreTurn exec s) := by
  have moved := moveOn_memWf wf
  unfold coreTurn
  refine canonical_ite moved (canonical_ite (setHeld_memWf wf _ _) (canonical_ite (vecColumns_memWf wf _ _ _) ?_))
  refine canonical_ite (canonical_ite (crossTurn_canonical wf) (vmemColumns_memWf wf)) (canonical_ite moved ?_)
  split
  · exact canonical_ite (trapTurn_canonical wf _) moved
  refine canonical_ite moved ?_
  split
  · exact boundary_memWf wf ‹_›
  · exact (issueWord_canonical wf).mapNext fun _ kept => moveOn_memWf kept

theorem step_canonical : Canonical (step s) := by
  unfold step turn
  split
  · refine exec_canonical ?_ _
    exact wf
  split
  · trivial
  · exact exec_canonical wf _
  · exact exec_canonical wf _
  · exact coreTurn_canonical wf
  · exact exec_canonical wf _
  · exact wf

end

/-- Settles O57: from a state with canonical memory every outcome of a step has canonical memory. -/
theorem memoryStaysCanonical : Obligations.MemoryStaysCanonical := by
  unfold Obligations.MemoryStaysCanonical
  exact fun s t wf steps => memWf_of_canonical (step_canonical wf) steps

end Sys2Proof.Machine
end
